-- ==== Sys2Proof/Word.lean ====
section
/-! DEFINITION. The widths the spec names, and nothing else: a byte, the 64-bit scalar word, the 32-bit lane
word, a whole vector register (128 B) and a whole scale register (32 B) (R4, R89). -/

namespace Sys2Proof

/-- A byte of memory (R4). -/
abbrev Byte := BitVec 8

/-- A scalar register, a counter or a 64-bit memory word (R89). -/
abbrev Word := BitVec 64

/-- One lane of a vector register: bytes 4l to 4l+3 (R4). -/
abbrev LaneW := BitVec 32

/-- A vector register: 32 lanes of 4 bytes, lane 0 lowest (R4). -/
abbrev VecReg := BitVec 1024

/-- A scale register: byte b is block b's scale, byte 16 + b its companion (R51). -/
abbrev ScaleReg := BitVec 256

/-- A lane mask or a predicate register: bit l is lane l's (R93). -/
abbrev Mask := BitVec 32

end Sys2Proof
end

