-- ==== Sys2Proof/Syntax.lean ====
section
/-! DEFINITION. Every row of the opcode table as a constructor of one inductive: the 85 scalar rows over the scalar
formats of R63, the 76 lane rows over the lane word of R67, the ten coelostat micro-operations of R350 and the 68
device events, each with what the event names. -/

namespace Sys2Proof

/-- Format SR of R63: register-register and operand-less control. -/
structure SR where
  dest : BitVec 6
  src1 : BitVec 6
  src2 : BitVec 6
  fn   : BitVec 7
  deriving DecidableEq, Repr

/-- Format SI of R63: a 12-bit signed immediate. -/
structure SI where
  dest : BitVec 6
  src1 : BitVec 6
  imm  : BitVec 12
  f    : BitVec 1
  deriving DecidableEq, Repr

/-- Format SM of R63: memory, 12-bit signed byte offset. -/
structure SM where
  data : BitVec 6
  base : BitVec 6
  off  : BitVec 12
  f    : BitVec 1
  deriving DecidableEq, Repr

/-- Format SU of R63: a 20-bit upper immediate, its top bit in the opcode (R64). -/
structure SU where
  dest : BitVec 6
  imm  : BitVec 20
  deriving DecidableEq, Repr

/-- Format SB of R63: a branch with a 14-bit signed word offset. -/
structure SB where
  cond : BitVec 5
  src  : BitVec 6
  off  : BitVec 14
  deriving DecidableEq, Repr

/-- Format SX of R63: a word and its 32-bit extension word. -/
structure SX where
  dest : BitVec 6
  src1 : BitVec 6
  fn   : BitVec 13
  imm  : BitVec 32
  deriving DecidableEq, Repr

/-- The fields of a lane word below its opcode (R67). -/
structure LaneWord where
  dest   : BitVec 9
  srcA   : BitVec 9
  srcB   : BitVec 9
  srcC   : BitVec 9
  ty     : BitVec 4
  pred   : BitVec 3
  pinv   : BitVec 1
  mods   : BitVec 6
  clamp  : BitVec 2
  dscale : BitVec 4
  round  : BitVec 3
  fsel   : BitVec 1
  long   : BitVec 1
  fn     : BitVec 25
  deriving DecidableEq, Repr

/-- A clause header (R76), its reserved bits checked zero by the decoder. -/
structure Header where
  wait   : BitVec 12
  avalid : Bool
  anum   : BitVec 4
  bvalid : Bool
  bnum   : BitVec 4
  count  : BitVec 4
  dual   : BitVec 3
  yield  : Bool
  stop   : Bool
  deriving DecidableEq, Repr

/-- The AtomicOps of PCIe and UALink that reach a home of the device (R266, R395, R401). -/
inductive BusAtomic where
  | fetchAdd | swap | cas
  deriving DecidableEq, Repr

/-- What an incoming UALink access asks for (R401). -/
inductive FabricAccess where
  | load (bytes : Nat)
  | store (data : List Byte)
  | atomic (op : BusAtomic) (size : Nat) (operand comparand : Nat)
  deriving DecidableEq, Repr

/-- What another member of a fabric group brings to a collective (R323, R349): its operation, format and element
count, and its send buffer, with one image per tangent plane. -/
structure MemberPart where
  op     : Nat
  fmt    : Nat
  count  : Nat
  images : List (List Byte)
  deriving DecidableEq, Repr

/-- The readings Thexo writes into the telemetry block (R414). -/
structure Telemetry where
  power    : Word
  energy   : Word
  temps    : List Word
  deriving DecidableEq, Repr

/-- One constructor per row of the opcode table. -/
inductive Instr where
  -- scalar stream, arithmetic and bits (R113 to R119)
  | add (f : SR) | sub (f : SR) | mul (f : SR) | div (f : SR) | min (f : SR) | max (f : SR)
  | and (f : SR) | or (f : SR) | xor (f : SR) | shl (f : SR) | shr (f : SR) | rotl (f : SR)
  | clz (f : SR) | popc (f : SR) | bfx (f : SR) | bfi (f : SR) | cmp (f : SR) | sel (f : SR)
  -- control, status registers, lane programs (R123, R130, R125, R126)
  | jr (f : SR) | csrr (f : SR) | csrw (f : SR) | csrx (f : SR) | lrun (f : SX) | lsync (f : SR)
  -- immediates and flags (R117, R119, R127, R128)
  | addi (f : SI) | andi (f : SI) | ori (f : SI) | xori (f : SI) | shli (f : SI) | shri (f : SI)
  | cmpi (f : SI) | fwait (f : SI) | fset (f : SI) | fclr (f : SI)
  -- traps (R220, R221, R225)
  | trap (f : SI) | tret (f : SR) | tretPark (f : SR) | tretAbort (f : SR) | uliret (f : SR)
  -- constants and branches (R118, R121, R122, R124)
  | lui (f : SU) | addpc (f : SU) | br (f : SB) | loop (f : SB) | li (f : SX) | liHi (f : SX) | call (f : SX)
  -- matrix engine (R191)
  | mld (f : SR) | mma (f : SR) | mma2 (f : SR) | mdrain (f : SR) | mzero (f : SR) | mmode (f : SR)
  | mvnb (f : SR) | msync (f : SR)
  -- memory (R276, R292 to R298)
  | apset (f : SR) | apclr (f : SR) | satom (f : SR) | scas (f : SR) | waita (f : SR) | pref (f : SM)
  | tlbinv (f : SR) | keyld (f : SR) | sld (n : BitVec 2) (f : SM) | sst (n : BitVec 2) (f : SM) | keydel (f : SR)
  -- shape records and counters (R371, R388)
  | shpld (f : SR) | shpinv (f : SR) | cset (f : SR) | cadd (f : SR) | crd (f : SR) | pcfg (f : SR)
  -- launching, spawning, rings, engines (R325)
  | launch (f : SR) | spawn (f : SX) | await (f : SR) | exit (f : SR) | yield (f : SR) | tbar (f : SR)
  | rpush (f : SR) | rpop (f : SR) | rwait (f : SR) | cpy (f : SR) | gacc (f : SR) | commit (f : SR)
  | coll (f : SR) | strm (f : SR)
  -- lane floating point (R140 to R147)
  | fadd (w : LaneWord) | fmul (w : LaneWord) | ffma (w : LaneWord) | fmin (w : LaneWord) | fmax (w : LaneWord)
  | fcmp (w : LaneWord) | fclass (w : LaneWord) | fexp2 (w : LaneWord) | flog2 (w : LaneWord) | frcp (w : LaneWord)
  | frsq (w : LaneWord) | fsqrt (w : LaneWord) | fsin (w : LaneWord) | fcos (w : LaneWord) | ftanh (w : LaneWord)
  | frnd (w : LaneWord) | fscl (w : LaneWord) | fexpo (w : LaneWord) | fdot (w : LaneWord) | mxdot (w : LaneWord)
  -- lane integer (R148 to R152)
  | idot (w : LaneWord) | iadd (w : LaneWord) | isub (w : LaneWord) | imul (w : LaneWord) | imad (w : LaneWord)
  | imulh (w : LaneWord) | imin (w : LaneWord) | imax (w : LaneWord) | icmp (w : LaneWord) | iand (w : LaneWord)
  | ior (w : LaneWord) | ixor (w : LaneWord) | ishl (w : LaneWord) | ishr (w : LaneWord) | ipopc (w : LaneWord)
  | iclz (w : LaneWord) | ibfx (w : LaneWord)
  -- conversion and blocks (R153 to R157)
  | cvt (w : LaneWord) | pack (w : LaneWord) | unpk (w : LaneWord) | rqnt (w : LaneWord) | dqnt (w : LaneWord)
  | qmov (w : LaneWord) | qset (w : LaneWord) | qget (w : LaneWord)
  -- predicates, moves, across lanes (R158 to R167)
  | plop (w : LaneWord) | pset (w : LaneWord) | pmov (w : LaneWord) | mov (w : LaneWord) | movx (w : LaneWord)
  | selLane (w : LaneWord) | shfl (w : LaneWord) | vote (w : LaneWord) | bcast (w : LaneWord) | scan (w : LaneWord)
  | redux (w : LaneWord) | reduxPair (w : LaneWord)
  -- branches and stops, tangent moves (R168, R171, R185)
  | bra (w : LaneWord) | stop (w : LaneWord) | tget (w : LaneWord) | tset (w : LaneWord) | tclr (w : LaneWord)
  | tswp (w : LaneWord)
  -- lane memory (R287 to R289), spawn and random (R331, R392)
  | ld (w : LaneWord) | st (w : LaneWord) | ldx (w : LaneWord) | stx (w : LaneWord) | lds (w : LaneWord)
  | sts (w : LaneWord) | ldq (w : LaneWord) | stq (w : LaneWord) | atom (w : LaneWord) | acas (w : LaneWord)
  | ared (w : LaneWord) | spawnl (w : LaneWord) | rng (w : LaneWord)
  -- coelostat micro-operations (R350)
  | micEnd | micLoad | micXpose | micConv (fmt : BitVec 4) (mode : BitVec 3)
  | micQuant (fmt : BitVec 4) (b16 nansat : BitVec 1) (mode : BitVec 3) | micPush (ring : BitVec 4)
  | micStep (coord : BitVec 2) (delta : BitVec 16) | micSetc (ctr : BitVec 2) (n : BitVec 16)
  | micLoop (ctr : BitVec 2) (target : BitVec 6) | micZero
  -- lane stream events of the group with key `key` (R19, R312, R170, R284, R392)
  | clauseStart (key split : Nat) | laneProgramStart (key : Nat) | splitArrival (key split : Nat)
  | laneMemoryComplete (key id : Nat) | rngComplete (key id : Nat)
  -- slots and granules of a core (R27, R28, R306)
  | pendingChildPlacement (core : Nat) | continuationResume (core : Nat) | continuationEviction (core : Nat)
  -- grids and teams (R300 to R304, R240, R329)
  | gridEnqueue (grid : Nat) | gridEligible (grid : Nat) | teamPlacement (die : Nat) | sramReclaim (core : Nat)
  | gridComplete (grid : Nat)
  -- engines (R207, R316, R317, R314)
  | matrixPassStart (team : Nat) | matrixCommandComplete (team : Nat) | transitCommandStart (core : Nat)
  | transitCopyComplete (core id : Nat) | gaccComplete (core id : Nat)
  | collectiveComplete (id : Nat) (others : List MemberPart) | coelostatProgramStart (core : Nat)
  | strmComplete (core : Nat) | ringPushComplete (team id : Nat) | ringPopComplete (team id : Nat)
  -- traps, interrupts, pre-emption (R217, R224, R226 to R232)
  | trapEntry (key : Nat) | userInterruptDelivery (key : Nat) | preempt (grid team : BitVec 32)
  | dispatcherPreemptionRequest (die : Nat) | teamSave (team : Nat) | preemptionDeadline (team : Nat)
  | teamRestore (team : Nat) | machineCheck (team : Nat) | dieLinkFailure (a b : Nat) (touched : List Nat)
  -- page walks and service (R355, R321, R215, R272)
  | pageWalk (die : Nat) (va : BitVec 56) (write : Bool) | walkMigratingTimeout (die : Nat) (va : BitVec 56)
  | faultRecord (die : Nat)
  | pageServiceComplete (die seq outcome : Nat) (code : BitVec 16) (writes : List (Nat × Word)) (copies : List (Nat × Nat))
  | sideLogReplay (core entry : Nat)
  -- caches (R241, R377, R245, R249)
  | leaseExpiry (core line : Nat) | orreryRequest (die requester line : Nat) (write : Bool) | regionMerge (die line : Nat)
  | lineWriteBack (line : Nat)
  -- fabric and host (R360, R395 to R404)
  | incarnationChange (device : Nat) | fabricDeviceUp (device : Nat) | fabricPathTimeout (device : Nat)
  | hostCompletionTimeout (key id : Nat) | hostWrite (offset : Nat) (data : List Byte) | hostRead (offset bytes : Nat)
  | hostAtomicop (offset : Nat) (op : BusAtomic) (size operand comparand : Nat)
  | ualinkIncomingAccess (device : Nat) (address : Nat) (access : FabricAccess) | mbox (value : Word) | dispatchRequest
  | initDone (value : Word) | svcdone (value : Word) | fgtdata (value : Word) | checkpoint | restore | checkpointEnd
  | controlRegisterWrite (offset : Nat) (value : Word)
  -- reset, firmware, power, clock (R407 to R415, R101, R214, R387)
  | deviceReset | thermalTrip | telemetryUpdate (t : Telemetry) | recover (value : Word) | fusedMinimumRaise (value : Word)
  | attestation | coreCycle | scalarAccessComplete (key id : Nat) | correctedError (die index : Nat)
  | linkRetry (die index : Nat)
  deriving DecidableEq, Repr

end Sys2Proof
end

