-- ==== Sys2Proof/Machine/Bits.lean ====
section
/-! DEFINITION. Bit-field, byte-order and sign-extension helpers (R4, R9, R64). -/

namespace Sys2Proof.Bits

/-- x[h:l] of R9 on an unbounded natural number. -/
def field (x lo width : Nat) : Nat := (x >>> lo) % 2 ^ width

/-- Bit n of a natural number. -/
def bit (x n : Nat) : Bool := Nat.testBit x n

/-- The signed reading of the low `width` bits. -/
def signed (x width : Nat) : Int :=
  let y := x % 2 ^ width
  if width ≠ 0 ∧ 2 ^ (width - 1) ≤ y then (y : Int) - (2 : Int) ^ width else y

/-- An integer modulo 2^width, as the wrapping of R37 leaves it. -/
def wrap (x : Int) (width : Nat) : Nat := (x % (2 : Int) ^ width).toNat

/-- The clamp of R37 and R113. -/
def clampI (x lo hi : Int) : Int := if x < lo then lo else if hi < x then hi else x

/-- `v` with `width` bits from bit `lo` replaced by `x`. -/
def splice {n : Nat} (v : BitVec n) (lo width : Nat) (x : Nat) : BitVec n :=
  BitVec.ofNat n (v.toNat - (field v.toNat lo width <<< lo) + ((x % 2 ^ width) <<< lo))

/-- Lane l of a vector register (R4). -/
def lane (v : VecReg) (l : Nat) : LaneW := v.extractLsb' (32 * l) 32

/-- A vector register with lane l replaced. -/
def setLane (v : VecReg) (l : Nat) (x : LaneW) : VecReg := splice v (32 * l) 32 x.toNat

/-- A vector register from its lanes. -/
def vecOf (f : Nat → LaneW) : VecReg := (List.range 32).foldl (fun v l => setLane v l (f l)) 0

/-- Byte b of a scale register (R51). -/
def qbyte (q : ScaleReg) (b : Nat) : Nat := field q.toNat (8 * b) 8

/-- A scale register with byte b replaced. -/
def setQbyte (q : ScaleReg) (b x : Nat) : ScaleReg := splice q (8 * b) 8 x

/-- The `n` little-endian bytes of a number (R4). -/
def leBytes (n x : Nat) : List Byte :=
  match n with
  | 0 => []
  | n + 1 => BitVec.ofNat 8 x :: leBytes n (x / 256)

/-- The number whose little-endian bytes are given (R4). -/
def leNat (bs : List Byte) : Nat :=
  match bs with
  | [] => 0
  | b :: t => b.toNat + 256 * leNat t

/-- The number of one bits among the low `n` bits. -/
def popcount (n x : Nat) : Nat :=
  match n with
  | 0 => 0
  | n + 1 => x % 2 + popcount n (x / 2)

/-- Lanes 0 to 31 in ascending order (R9). -/
def lanes : List Nat := List.range 32

/-- The lanes of a mask, ascending. -/
def lanesOf (m : Mask) : List Nat := lanes.filter fun l => m.toNat.testBit l

/-- The lowest lane of a mask. -/
def lowestLane (m : Mask) : Option Nat := (lanesOf m).head?

/-- The mask of the lanes for which `p` holds. -/
def maskOf (p : Nat → Bool) : Mask :=
  BitVec.ofNat 32 (lanes.foldl (fun a l => if p l then a + 2 ^ l else a) 0)

/-- ⌈a / b⌉. -/
def ceilDiv (a b : Nat) : Nat := (a + b - 1) / b

/-- `a` rounded up to a multiple of `b`. -/
def roundUp (a b : Nat) : Nat := ceilDiv a b * b

/-- 56-bit address arithmetic (R124, R281). -/
def addr56 (x : Int) : Nat := wrap x 56

end Sys2Proof.Bits
end

