-- ==== Sys2Proof/Machine/Compress.lean ====
section
/-! DEFINITION. Compression: the encoding of a scratchpad tile (R248, R375) and the tag of an HBM line (R249). Memory and
scratchpad hold their bytes expanded; a line's tag says which of its stored forms HBM holds. -/

namespace Sys2Proof.Compress

/-- The word is an n-bit value sign-extended. -/
def fits (n x : Nat) : Bool := -(2 : Int) ^ (n - 1) ≤ Bits.signed x 32 && Bits.signed x 32 < (2 : Int) ^ (n - 1)

/-- A 16-bit half is a byte sign-extended. -/
def halfByte (x : Nat) : Bool := -128 ≤ Bits.signed x 16 && Bits.signed x 16 < 128

/-- The pattern of a nonzero word (R248): prefix, payload and payload width, the fewest bits and then the lowest prefix. -/
def wordCode (x : Nat) : Nat × Nat × Nat :=
  if fits 4 x then (1, x % 2 ^ 4, 4)
  else if fits 8 x then (2, x % 2 ^ 8, 8)
  else if x % 2 ^ 8 * 0x01010101 = x then (6, x % 2 ^ 8, 8)
  else if fits 16 x then (3, x % 2 ^ 16, 16)
  else if x % 2 ^ 16 = 0 then (4, x / 2 ^ 16, 16)
  else if halfByte (x % 2 ^ 16) && halfByte (x / 2 ^ 16) then (5, x % 2 ^ 8 + 2 ^ 8 * (x / 2 ^ 16 % 2 ^ 8), 16)
  else (7, x, 32)

/-- The bits of a zero run of n words, if one is open: prefix 000 and n − 1. -/
def flushRun (n : Nat) : Nat := if n = 0 then 0 else 6

/-- The length in bits of the encoding of words, with `run` zero words open (R248). -/
def bitsFrom (run : Nat) (ws : List Nat) : Nat :=
  match ws with
  | [] => flushRun run
  | w :: t =>
    if w = 0 then (if run = 8 then 6 + bitsFrom 1 t else bitsFrom (run + 1) t)
    else flushRun run + 3 + (wordCode w).2.2 + bitsFrom 0 t

/-- The 32-bit words of some bytes. -/
def words (n : Nat) (bs : List Byte) : List Nat :=
  match n with
  | 0 => []
  | n + 1 => Bits.leNat (bs.take 4) :: words n (bs.drop 4)

/-- The offset-table entry of a tile (R375): raw flag, length in words, start 0. -/
def tileEntry (bs : List Byte) : BitVec 32 :=
  let len := Bits.ceilDiv (bitsFrom 0 (words 1024 bs)) 32
  if 1024 ≤ len then BitVec.ofNat 32 (2 ^ 21 + 1024 * 2 ^ 10) else BitVec.ofNat 32 (len * 2 ^ 10)

/-- The entry of an all-zero tile, which every tile holds at placement (R246). -/
def zeroEntry : BitVec 32 := BitVec.ofNat 32 (24 * 2 ^ 10)

/-- The bit stream of words with `run` zero words open, and its length (R248): each field least significant bit first. -/
def stream (run : Nat) (ws : List Nat) : Nat × Nat :=
  let zeros (rest : Nat × Nat) : Nat × Nat := if run = 0 then rest else ((run - 1) * 2 ^ 3 + rest.1 * 2 ^ 6, rest.2 + 6)
  match ws with
  | [] => zeros (0, 0)
  | w :: t =>
    if w = 0 then (if run = 8 then zeros (stream 1 t) else stream (run + 1) t)
    else
      let c := wordCode w
      let rest := stream 0 t
      zeros (c.1 + c.2.1 * 2 ^ 3 + rest.1 * 2 ^ (3 + c.2.2), rest.2 + 3 + c.2.2)

/-- The encoding of a tile: the bit stream padded to whole words, or the tile itself when it is stored raw (R248). -/
def encodeTile (bs : List Byte) : List Byte :=
  let r := stream 0 (words 1024 bs)
  let len := Bits.ceilDiv r.2 32
  if 1024 ≤ len then bs else Bits.leBytes (4 * len) r.1

/-- The bits of a payload, and the word that it stands for, by prefix; prefix 000 is a run (R248). -/
def payload (prefix_ x : Nat) : Nat × Nat :=
  let sext (n : Nat) : Nat := Bits.wrap (Bits.signed x n) 32
  let half (y : Nat) : Nat := Bits.wrap (Bits.signed y 8) 16
  match prefix_ with
  | 1 => (4, sext 4)
  | 2 => (8, sext 8)
  | 3 => (16, sext 16)
  | 4 => (16, x % 2 ^ 16 * 2 ^ 16)
  | 5 => (16, half (x % 2 ^ 8) + half (x / 2 ^ 8 % 2 ^ 8) * 2 ^ 16)
  | 6 => (8, x % 2 ^ 8 * 0x01010101)
  | _ => (32, x % 2 ^ 32)

/-- The words of a stream of `bits` bits, `need` of them still to come; none when they are not found exactly, with nothing but the
padding of the last word behind them (R248). -/
def unstream (fuel need bits x : Nat) : Option (List Nat) :=
  if need = 0 then (if bits < 32 ∧ x = 0 then some [] else none)
  else
    match fuel with
    | 0 => none
    | fuel + 1 =>
      if x % 8 = 0 then
        let n := x / 8 % 8 + 1
        if need < n ∨ bits < 6 then none
        else (unstream fuel (need - n) (bits - 6) (x / 2 ^ 6)).map fun ws => List.replicate n 0 ++ ws
      else
        let p := payload (x % 8) (x / 8)
        if bits < 3 + p.1 then none
        else (unstream fuel (need - 1) (bits - (3 + p.1)) (x / 2 ^ (3 + p.1))).map fun ws => p.2 :: ws

/-- The bytes of a tile stored under an offset-table entry, from its 4 KiB home; none is a machine check (R248, R375): a raw entry
of another length than 1,024, an encoding beyond the home, or one that does not hold exactly 1,024 words. -/
def decodeTile (entry : BitVec 32) (home : List Byte) : Option (List Byte) :=
  let len := Bits.field entry.toNat 10 11
  let start := Bits.field entry.toNat 0 10
  if 1024 < start + len then none
  else if entry.getLsbD 21 then (if len = 1024 then some home else none)
  else
    (unstream 1024 1024 (32 * len) (Bits.leNat ((home.drop (4 * start)).take (4 * len)))).map fun ws =>
      ws.flatMap fun w => Bits.leBytes 4 w

/-- Every word's delta from the first, modulo 2^bits, fits k bytes (R249). -/
def deltasFit (bits k : Nat) (ws : List Nat) : Bool :=
  ws.all fun w =>
    let d := Bits.signed (w + 2 ^ bits - ws.headD 0) bits
    d < (2 : Int) ^ (8 * k - 1) && -(2 : Int) ^ (8 * k - 1) ≤ d

/-- The tag of a line to be written back with its compression bit set: the fewest bursts, then the lowest tag (R249). -/
def lineTag (line : VecReg) : BitVec 4 :=
  let a := (List.range 16).map fun i => Bits.field line.toNat (64 * i) 64
  let b := (List.range 32).map fun i => Bits.field line.toNat (32 * i) 32
  if line = 0 then 1
  else if a.all (· == a.headD 0) then 2
  else if deltasFit 64 1 a then 3
  else if deltasFit 64 2 a then 4
  else if deltasFit 32 1 b then 5
  else if deltasFit 32 2 b then 6
  else if deltasFit 64 4 a then 7
  else 0

/-- The layout of a tag (R249): bytes of the base, bytes of a delta, and bursts. -/
def tagShape (tag : Nat) : Nat × Nat × Nat :=
  match tag with
  | 1 => (0, 0, 0)
  | 2 => (8, 0, 1)
  | 3 => (8, 1, 1)
  | 4 => (8, 2, 2)
  | 5 => (4, 1, 2)
  | 6 => (4, 2, 3)
  | 7 => (8, 4, 3)
  | _ => (0, 0, 4)

/-- The bytes that HBM holds of a line under a tag, in whole bursts (R249): the base, the deltas in ascending index, and zeros. -/
def storedBytes (tag : Nat) (line : VecReg) : List Byte :=
  let z := tagShape tag
  if tag = 0 then Bits.leBytes 128 line.toNat
  else
    let word (i : Nat) : Nat := Bits.field line.toNat (8 * z.1 * i) (8 * z.1)
    let deltas := if z.2.1 = 0 then [] else (List.range (128 / z.1)).flatMap fun i =>
      Bits.leBytes z.2.1 ((word i + 2 ^ (8 * z.1) - word 0) % 2 ^ (8 * z.2.1))
    let bs := Bits.leBytes z.1 (word 0) ++ deltas
    bs ++ List.replicate (32 * z.2.2 - bs.length) 0

/-- The line that stored bytes stand for under a tag; none for a reserved tag, which is a machine check (R249). -/
def expandLine (tag : Nat) (bs : List Byte) : Option VecReg :=
  let z := tagShape tag
  if 8 ≤ tag then none
  else if tag = 0 then some (BitVec.ofNat 1024 (Bits.leNat (bs.take 128)))
  else if tag = 1 then some 0
  else
    let base := Bits.leNat (bs.take z.1)
    let n := 128 / z.1
    let delta (i : Nat) : Int :=
      if z.2.1 = 0 then 0 else Bits.signed (Bits.leNat ((bs.drop (z.1 + z.2.1 * i)).take z.2.1)) (8 * z.2.1)
    some (BitVec.ofNat 1024 (Bits.leNat ((List.range n).flatMap fun i =>
      Bits.leBytes z.1 (Bits.wrap ((base : Int) + delta i) (8 * z.1)))))

end Sys2Proof.Compress
end

