-- ==== Sys2Proof/Machine/Num.lean ====
section
/-! DEFINITION. The number formats and every rounding of 02_values: exact values, RoundTo and Overflow (R45, R46), the
destination processing of R49, conversion to integers (R47), the requantise rule (R53), the reduction tree (R55),
and the ticket generator (R57 to R62). Values are exact: a sign, a natural significand and a power of two. -/

namespace Sys2Proof.Num

/-- The floating-point formats of R34. E2M1X is E2M1 with a companion (R35) and has no entry of its own. -/
inductive Fmt where
  | fp32 | bf16 | fp16 | e5m2 | e4m3 | e3m2 | e2m3 | e2m1
  deriving DecidableEq, Repr

/-- Exponent bits (R34). -/
def Fmt.ebits : Fmt → Nat
  | .fp32 => 8 | .bf16 => 8 | .fp16 => 5 | .e5m2 => 5 | .e4m3 => 4 | .e3m2 => 3 | .e2m3 => 2 | .e2m1 => 2

/-- Mantissa bits (R34). -/
def Fmt.mbits : Fmt → Nat
  | .fp32 => 23 | .bf16 => 7 | .fp16 => 10 | .e5m2 => 2 | .e4m3 => 3 | .e3m2 => 2 | .e2m3 => 3 | .e2m1 => 1

/-- Bias (R34). -/
def Fmt.bias : Fmt → Nat
  | .fp32 => 127 | .bf16 => 127 | .fp16 => 15 | .e5m2 => 15 | .e4m3 => 7 | .e3m2 => 3 | .e2m3 => 1 | .e2m1 => 1

/-- The format has infinities (R34). -/
def Fmt.hasInf : Fmt → Bool
  | .fp32 => true | .bf16 => true | .fp16 => true | .e5m2 => true | _ => false

/-- The format has NaN codes (R34). -/
def Fmt.hasNan : Fmt → Bool
  | .e4m3 => true | f => f.hasInf

/-- Width of a code in bits. -/
def Fmt.width (f : Fmt) : Nat := 1 + f.ebits + f.mbits

/-- The canonical NaN (R34); 0 for a format without NaN, which RoundTo gives in its place (R45). -/
def Fmt.canonNan : Fmt → Nat
  | .fp32 => 0x7FC00000 | .bf16 => 0x7FC0 | .fp16 => 0x7E00 | .e5m2 => 0x7E | .e4m3 => 0x7F | _ => 0

/-- The code of the largest finite magnitude (R34). -/
def Fmt.maxCode : Fmt → Nat
  | .fp32 => 0x7F7FFFFF | .bf16 => 0x7F7F | .fp16 => 0x7BFF | .e5m2 => 0x7B | .e4m3 => 0x7E
  | .e3m2 => 0x1F | .e2m3 => 0x1F | .e2m1 => 0x7

/-- The code of +infinity, for a format that has one. -/
def Fmt.infCode (f : Fmt) : Nat := (2 ^ f.ebits - 1) * 2 ^ f.mbits

/-- emax of R53. -/
def Fmt.emax : Fmt → Int
  | .e4m3 => 8 | .e5m2 => 15 | .e3m2 => 4 | .e2m3 => 2 | .e2m1 => 2 | .fp16 => 15 | _ => 127

/-- The sign bit of a code. -/
def Fmt.signBit (f : Fmt) (neg : Bool) : Nat := if neg then 2 ^ (f.ebits + f.mbits) else 0

/-- The sign of a code. -/
def Fmt.negCode (f : Fmt) (c : Nat) : Bool := Bits.bit c (f.ebits + f.mbits)

/-- An exact value: NaN, an infinity, or (-1)^neg * m * 2^e, whose zeros keep a sign. -/
inductive XVal where
  | nan
  | inf (neg : Bool)
  | fin (neg : Bool) (m : Nat) (e : Int)
  deriving DecidableEq, Repr

/-- The value of a code (R34). -/
def decode (f : Fmt) (code : Nat) : XVal :=
  let neg := f.negCode code
  let e := Bits.field code f.mbits f.ebits
  let m := Bits.field code 0 f.mbits
  if f.hasInf && e == 2 ^ f.ebits - 1 then (if m = 0 then .inf neg else .nan)
  else if f = .e4m3 ∧ e = 15 ∧ m = 7 then .nan
  else if e = 0 then .fin neg m (1 - f.bias - f.mbits)
  else .fin neg (2 ^ f.mbits + m) ((e : Int) - f.bias - f.mbits)

/-- +0. -/
def XVal.zero : XVal := .fin false 0 0

/-- The integer n. -/
def XVal.ofInt (n : Int) : XVal := .fin (n < 0) n.natAbs 0

/-- A zero of either sign. -/
def XVal.isZero : XVal → Bool
  | .fin _ 0 _ => true
  | _ => false

/-- Neither NaN nor infinite. -/
def XVal.isFin : XVal → Bool
  | .fin _ _ _ => true
  | _ => false

/-- Sign inversion (R48). -/
def XVal.neg : XVal → XVal
  | .nan => .nan
  | .inf s => .inf (!s)
  | .fin s m e => .fin (!s) m e

/-- Absolute value (R48). -/
def XVal.abs : XVal → XVal
  | .nan => .nan
  | .inf _ => .inf false
  | .fin _ m e => .fin false m e

/-- The sign, false for NaN. -/
def XVal.sign : XVal → Bool
  | .nan => false
  | .inf s => s
  | .fin s _ _ => s

/-- Scale2 of R9. -/
def XVal.scale2 (x : XVal) (k : Int) : XVal :=
  match x with
  | .fin s m e => .fin s m (e + k)
  | y => y

/-- The exact product; infinity times zero is NaN (R39). -/
def XVal.mul (x y : XVal) : XVal :=
  match x, y with
  | .nan, _ => .nan
  | _, .nan => .nan
  | .inf s, .inf t => .inf (s != t)
  | .inf s, .fin t m _ => if m = 0 then .nan else .inf (s != t)
  | .fin s m _, .inf t => if m = 0 then .nan else .inf (s != t)
  | .fin s m e, .fin t n f => .fin (s != t) (m * n) (e + f)

/-- The signed significand of a finite value at exponent `e0`, which must not exceed the value's own. -/
def XVal.units (x : XVal) (e0 : Int) : Int :=
  match x with
  | .fin s m e => let u : Int := (m <<< (e - e0).toNat : Nat); if s then -u else u
  | _ => 0

/-- The least exponent among the nonzero finite values of a list, `d` where there is none. -/
def minExp (xs : List XVal) (d : Int) : Int :=
  xs.foldl (fun a x => match x with | .fin _ m e => if m ≠ 0 ∧ e < a then e else a | _ => a) d

/-- The greatest exponent among the finite values of a list. -/
def maxExp (xs : List XVal) : Int :=
  xs.foldl (fun a x => match x with | .fin _ _ e => if a < e then e else a | _ => a) 0

/-- The exact sum, with the special values and the zero signs of R39; `rdn` says that the mode is RDN. -/
def sum (rdn : Bool) (xs : List XVal) : XVal :=
  if xs.any fun x => x == .nan then .nan
  else if xs.any (· == .inf false) then (if xs.any (· == .inf true) then .nan else .inf false)
  else if xs.any (· == .inf true) then .inf true
  else
    let e0 := minExp xs (maxExp xs)
    let t : Int := xs.foldl (fun a x => if x.isZero then a else a + x.units e0) 0
    if t ≠ 0 then .fin (t < 0) t.natAbs e0
    else if xs.all XVal.isZero then
      (if xs.all XVal.sign && !xs.isEmpty then .fin true 0 0
       else if xs.all fun x => !x.sign then .fin false 0 0
       else .fin rdn 0 0)
    else .fin rdn 0 0

/-- x + y exactly (R140). -/
def add (rdn : Bool) (x y : XVal) : XVal := sum rdn [x, y]

/-- x < y on numbers; zeros of both signs are equal; false with NaN. -/
def XVal.lt (x y : XVal) : Bool :=
  match x, y with
  | .nan, _ => false
  | _, .nan => false
  | .inf s, .inf t => s && !t
  | .inf s, _ => s
  | _, .inf t => !t
  | .fin _ _ e, .fin _ _ f => decide (x.units (min e f) < y.units (min e f))

/-- x = y on numbers; false with NaN. -/
def XVal.eqv (x y : XVal) : Bool :=
  match x, y with
  | .nan, _ => false
  | _, .nan => false
  | _, _ => !x.lt y && !y.lt x

/-- A rounding mode with what it needs: the stochastic mode carries its 16-bit chunk (R41, R62). -/
inductive RMode where
  | rne | rtz | rdn | rup | rna
  | sr (chunk : Nat)
  deriving DecidableEq, Repr

/-- The mode of a 3-bit code 1 to 6 (R41), `chunk` for mode 6; any other code reads as RNE. -/
def RMode.ofCode (c chunk : Nat) : RMode :=
  match c with
  | 2 => .rtz | 3 => .rdn | 4 => .rup | 5 => .rna | 6 => .sr chunk | _ => .rne

/-- The mode is RDN (R39). -/
def RMode.isRdn : RMode → Bool
  | .rdn => true
  | _ => false

/-- m * 2^e as a whole number of units of 2^q, rounded in the mode (R41, R62). -/
def roundUnits (neg : Bool) (m : Nat) (e q : Int) (mode : RMode) : Nat :=
  if q ≤ e then m <<< (e - q).toNat
  else
    let d := (q - e).toNat
    let n := m >>> d
    let r := m - (n <<< d)
    let half := 1 <<< (d - 1)
    if r = 0 then n
    else
      let up := match mode with
        | .rne => decide (half < r) || (decide (r = half) && n % 2 == 1)
        | .rtz => false
        | .rdn => neg
        | .rup => !neg
        | .rna => decide (half ≤ r)
        | .sr u => decide (u < (r <<< 16) >>> d)
      if up then n + 1 else n

/-- m * 2^e < n * 2^f. -/
def magLt (m : Nat) (e : Int) (n : Nat) (f : Int) : Bool :=
  let b := min e f
  decide (m <<< (e - b).toNat < n <<< (f - b).toNat)

/-- What an overflow or an infinite exact value becomes: the table of R46, a saturation (.sat of R49), or the
canonical NaN (.nansat of R46). -/
inductive Over where
  | table | sat | nansat
  deriving DecidableEq, Repr

/-- Overflow of R46, as a code. -/
def overflow (f : Fmt) (neg : Bool) (mode : RMode) : Nat :=
  let toMax := !f.hasInf || (match mode with | .rtz => true | .rdn => !neg | .rup => neg | _ => false)
  f.signBit neg + (if toMax then f.maxCode else f.infCode)

/-- The code of n units of 2^q, where n < 2^(mbits + 1) + 1 and q is at least the format's least quantum. -/
def assemble (f : Fmt) (neg : Bool) (n : Nat) (q : Int) : Nat :=
  let (n, q) := if n = 2 ^ (f.mbits + 1) then (2 ^ f.mbits, q + 1) else (n, q)
  f.signBit neg + (if n < 2 ^ f.mbits then n else (q + f.bias + f.mbits).toNat * 2 ^ f.mbits + (n - 2 ^ f.mbits))

/-- RoundTo of R45 with the overflow treatment `ov`; `ftz` says that R44 applies. -/
def roundTo (f : Fmt) (ftz : Bool) (ov : Over) (mode : RMode) (x : XVal) : Nat :=
  match x with
  | .nan => f.canonNan
  | .inf s =>
    match ov with
    | .sat => f.signBit s + f.maxCode
    | .nansat => if f.hasNan then f.canonNan else f.signBit s + f.maxCode
    | .table => if f.hasInf then f.signBit s + f.infCode else if f.hasNan then f.canonNan else f.signBit s + f.maxCode
  | .fin s m e =>
    if m = 0 then f.signBit s
    else if ftz && magLt m e 1 (1 - f.bias) then f.signBit s
    else
      let qmin : Int := 1 - f.bias - f.mbits
      let q := max qmin (e + (m.log2 : Int) - f.mbits)
      let mx := decode f f.maxCode
      let beyond (n : Nat) : Bool := match mx with | .fin _ mm me => magLt mm me n q | _ => false
      let mode := match mode with
        | .sr u => (match mx with | .fin _ mm me => if magLt mm me m e then .rne else .sr u | _ => .sr u)
        | md => md
      let n := roundUnits s m e q mode
      if beyond n then
        match ov with
        | .sat => f.signBit s + f.maxCode
        | .nansat => if f.hasNan then f.canonNan else f.signBit s + f.maxCode
        | .table => overflow f s mode
      else assemble f s n q

/-- RoundTo without flushing, in the plain treatment of R46. -/
def rnd (f : Fmt) (mode : RMode) (x : XVal) : Nat := roundTo f false .table mode x

/-- The formats on which RND.ftz acts (R44). -/
def Fmt.flushes : Fmt → Bool
  | .fp32 => true | .bf16 => true | .fp16 => true | _ => false

/-- An input after R44: with ftz, a subnormal of a flushing format reads as a zero of its sign. -/
def flushIn (f : Fmt) (ftz : Bool) (x : XVal) : XVal :=
  match x with
  | .fin s m e => if ftz && f.flushes && magLt m e 1 (1 - f.bias) then .fin s 0 0 else .fin s m e
  | y => y

/-- A code after R44: with ftz, a subnormal of a flushing format as a zero of its sign. -/
def flushCode (f : Fmt) (ftz : Bool) (code : Nat) : Nat :=
  match decode f code with
  | .fin s m e => if ftz && f.flushes && magLt m e 1 (1 - f.bias) then (if s then 2 ^ (f.ebits + f.mbits) else 0) else code
  | _ => code

/-- The clamp codes 1 and 2 of R49 on a rounded code: NaN becomes +0 and a zero keeps its sign. -/
def clampCode (f : Fmt) (clamp code : Nat) : Nat :=
  let one := f.bias * 2 ^ f.mbits
  match decode f code with
  | .nan => 0
  | v =>
    if XVal.lt (decode f one) v then one
    else if clamp = 1 then (if v.lt XVal.zero then 0 else code)
    else if v.lt (decode f (f.signBit true + one)) then f.signBit true + one
    else code

/-- The rounding of the steps 1 to 3 of R49: `k` the destination scale, `clamp` the clamp code. -/
def destRounded (f : Fmt) (ftz : Bool) (k : Int) (clamp : Nat) (nansat : Bool) (mode : RMode) (t : XVal) : Nat :=
  roundTo f (ftz && f.flushes) (if clamp = 3 then .sat else if nansat then .nansat else .table) mode (t.scale2 k)

/-- Destination processing (R49). -/
def dest (f : Fmt) (ftz : Bool) (k : Int) (clamp : Nat) (nansat : Bool) (mode : RMode) (t : XVal) : Nat :=
  let c := destRounded f ftz k clamp nansat mode t
  if clamp = 1 ∨ clamp = 2 then clampCode f clamp c else c

/-- The code is a NaN or an infinity (R40). -/
def nonFinite (f : Fmt) (code : Nat) : Bool := !(decode f code).isFin

/-- A value rounded to an integer in the mode (R47); NaN gives 0 and an infinity the bound on its side. -/
def toInt (mode : RMode) (lo hi : Int) (x : XVal) : Int :=
  match x with
  | .nan => 0
  | .inf s => if s then lo else hi
  | .fin s m e =>
    let n : Int := roundUnits s m e 0 mode
    Bits.clampI (if s then -n else n) lo hi

/-- The value rounded to an integer in the mode, kept as an exact value with its sign (FRND, R144). -/
def toIntegral (mode : RMode) (x : XVal) : XVal :=
  match x with
  | .fin s m e => if m = 0 then .fin s 0 0 else .fin s (roundUnits s m e 0 mode) 0
  | y => y

/-- The floor of the base-two logarithm of a nonzero finite magnitude (R53, R144). -/
def floorLog2 (m : Nat) (e : Int) : Int := e + m.log2

/-- The E4M3, E5M2, FP6 and FP4 element formats by their type codes 3 to 8 of R71; 0, 1, 2 the plain formats. -/
def fmtOfCode (c : Nat) : Option Fmt :=
  match c with
  | 0 => some .fp32 | 1 => some .bf16 | 2 => some .fp16 | 3 => some .e5m2 | 4 => some .e4m3
  | 5 => some .e3m2 | 6 => some .e2m3 | 7 => some .e2m1 | 8 => some .e2m1 | _ => none

/-- The value of an element of type code `ty` with scale code `scale` and companion `comp` (R35, R51, R147). -/
def mxVal (ty code scale comp : Nat) : XVal :=
  if scale = 0xFF then .nan
  else
    let f := (fmtOfCode ty).getD .fp32
    let v := if ty = 8 ∧ code % 16 = 8 then decode .e4m3 comp else decode f (code % 2 ^ f.width)
    v.scale2 ((scale : Int) - 127)

/-- An MX block: its scale, its codes and its companion. -/
structure Block where
  scale : Nat
  codes : List Nat
  comp  : Nat
  deriving DecidableEq, Repr

/-- The greatest finite magnitude of a list, and the lowest index that holds it. -/
def amaxOf (xs : List XVal) : Option (XVal × Nat) :=
  (xs.zipIdx.foldl (fun (a : Option (XVal × Nat)) p =>
    match p.1 with
    | .fin _ _ _ => (match a with
      | none => some (p.1.abs, p.2)
      | some (y, j) => if y.lt p.1.abs then some (p.1.abs, p.2) else some (y, j))
    | _ => a) none)

/-- Requantise of R53 on exact FP32 values; `modes i` is the rounding of element i. A block with no finite element has no amax in
R53: it takes the branch of amax = 0 (assumption 68). -/
def requantise (xs : List XVal) (ty : Nat) (modes : List RMode) (nansat : Bool) : Block :=
  let zeros := xs.map fun _ => 0
  let f := (fmtOfCode ty).getD .e4m3
  let isInf (x : XVal) : Bool := match x with | .inf _ => true | _ => false
  let infCode (s : Bool) : Nat := if nansat then Fmt.e5m2.canonNan else Fmt.e5m2.signBit s + Fmt.e5m2.infCode
  if xs.any (· == .nan) then ⟨0xFF, zeros, 0⟩
  else if xs.any isInf && f != .e5m2 then ⟨0xFF, zeros, 0⟩
  else
    match amaxOf xs with
    | none => ⟨0, xs.map fun x => match x with | .inf s => infCode s | _ => 0, 0⟩
    | some (am, j) =>
      match am with
      | .fin _ 0 _ => ⟨0, xs.map fun x => match x with | .inf s => infCode s | _ => 0, 0⟩
      | .fin _ m e =>
        let s := Bits.clampI (floorLog2 m e - f.emax) (-127) 127
        let comp := if ty = 8 then rnd .e4m3 .rne ((xs.getD j .nan).scale2 (-s)) else 0
        let code (p : XVal × Nat) : Nat :=
          if ty = 8 ∧ p.2 = j then 8
          else match p.1 with
            | .inf sg => infCode sg
            | x =>
              let v := roundTo f false (if nansat then .nansat else .sat) (modes.getD p.2 .rne) (x.scale2 (-s))
              if ty = 8 ∧ v % 8 = 0 then 0 else v
        ⟨(s + 127).toNat, xs.zipIdx.map code, comp⟩
      | _ => ⟨0, zeros, 0⟩

/-- FMIN and FMAX of R141 on values: true when A is chosen. -/
def chooseA (isMin : Bool) (a b : XVal) : Bool :=
  if a.lt b then isMin
  else if b.lt a then !isMin
  else if a.isZero && b.isZero && a.sign != b.sign then (if isMin then a.sign else b.sign)
  else true

/-- FMIN and FMAX of R141 on codes: a NaN operand gives the canonical NaN. -/
def minMaxCode (f : Fmt) (isMin : Bool) (a b : Nat) : Nat :=
  let x := decode f a
  let y := decode f b
  if x = .nan ∨ y = .nan then f.canonNan else if chooseA isMin x y then a else b

/-- One level of the tree of R55: absent leaves pass their sibling through. -/
def treeLevel {α : Type} (node : α → α → α) : List (Option α) → List (Option α)
  | [] => []
  | [x] => [x]
  | x :: y :: t =>
    (match x, y with
     | some a, some b => some (node a b)
     | some a, none => some a
     | none, b => b) :: treeLevel node t

/-- The root of the tree of R55 over 32 leaves. -/
def treeRoot {α : Type} (node : α → α → α) (leaves : List (Option α)) : Option α :=
  (treeLevel node (treeLevel node (treeLevel node (treeLevel node (treeLevel node leaves))))).headD none

/-- Rotl of R59. -/
def rotl32 (x : BitVec 32) (n : Nat) : BitVec 32 := x.rotateLeft n

/-- The rounds i, i + 1, … of Generate (R59). -/
def genRounds (n i : Nat) (w0 w1 w2 w3 : BitVec 32) : BitVec 32 × BitVec 32 × BitVec 32 × BitVec 32 :=
  match n with
  | 0 => (w0, w1, w2, w3)
  | n + 1 =>
    let w0 := w0 + w1
    let w3 := rotl32 (w3 ^^^ w0) 16
    let w2 := w2 + w3
    let w1 := rotl32 (w1 ^^^ w2) 12
    let w0 := w0 + w1
    let w3 := rotl32 (w3 ^^^ w0) 8
    let w2 := w2 + w3
    let w1 := rotl32 (w1 ^^^ w2) 7
    let w0 := w0 ^^^ (BitVec.ofNat 32 (0x9E3779B9 * (i + 1)))
    genRounds n (i + 1) w0 w1 w2 w3

/-- Generate of R59. -/
def generate (seed : BitVec 64) (id counter : BitVec 32) : BitVec 128 :=
  let (w0, w1, w2, w3) := genRounds 12 0 counter id (seed.extractLsb' 0 32) (seed.extractLsb' 32 32)
  (w3 ++ w2 ++ w1 ++ w0)

/-- The chunk at a stream index of a counter range that starts at `counter` (R60). -/
def chunkAt (seed : BitVec 64) (id counter : BitVec 32) (index : Nat) : Nat :=
  Bits.field (generate seed id (counter + BitVec.ofNat 32 (index / 8))).toNat (16 * (index % 8)) 16

end Sys2Proof.Num
end

