-- ==== Sys2Proof/Config.lean ====
section
/-! DEFINITION. What an implementation fixes and what the spec leaves open: constants without a body, so that no
statement can rest on a value of theirs. -/

namespace Sys2Proof.Config

/-- The choice among the events that may come next, by the count of choices made so far. The spec gives upper bounds
only (R2), so any enabled event may be the next one (assumption 1). -/
opaque choice : Nat → Nat

/-- A lane instruction reads the older of two values, because no edge orders the scalar stream's write before it (R43, R69,
R277), by the count of choices made so far and the write's number (assumption 41). -/
opaque seesOld : Nat → Nat → Bool

/-- A cache has replaced an entry before an access comes to it, whose replacement the spec leaves open (assumption 42): L1
(0), a die's copy of a host or fabric line (1), a die's TLB (2), the shape cache (3), a core's TLB (4), a node cache (5), by the
count of choices made so far, the cache, and the line, page, record or node. -/
opaque evicted : Nat → Nat → Nat → Bool

/-- A byte the spec leaves open: what an erring engine operation or an abort leaves behind, and the encoding of a
hidden block (R210, R231, R352), by a counter of State that each use advances (assumption 11). -/
opaque freeByte : Nat → Byte

/-- The count of an event whose number depends on cache replacement, which the spec leaves to the implementation (R386),
by the same counter. -/
opaque freeCount : Nat → Word

/-- The modulus and the public exponent that the bytes of an RSA public key carry (R411): the spec gives the key's size and
not its form (assumption 5). -/
opaque rsaKey : List Byte → Nat × Nat

/-- The device's private key of RSASSA-PSS, derived from fuses: modulus and private exponent (R413). -/
opaque deviceRsa : Nat × Nat

/-- The device's private key of SLH-DSA, derived from fuses: its secret seed, its message secret, the public seed and root
(R413). -/
opaque deviceSlh : List Byte

/-- The fused minimum security version when the state of reset is reached (R410, R411). -/
opaque fusedMinimum : Word

/-- What the boot flash holds when the state of reset is reached: slot A, or with true slot B (R408, R411). -/
opaque flashImage : Bool → List Byte

/-- The HBM or link training of a step of the boot sequence fails (R408, R410), by the count of choices made so far and the
step. -/
opaque trainingFails : Nat → Nat → Bool

/-- A transfer to or from a checkpoint's destination fails (R406), by the count of choices made so far. -/
opaque transferFails : Nat → Bool

/-- The length in bytes of an RSA public key as an image carries it (R411), which the spec does not give. -/
opaque rsaKeyBytes : Nat

/-- The SHA-384 digests fused at manufacture: the RSA key's and the SLH-DSA key's (R411). -/
opaque fusedDigest : Bool → List Byte

/-- This device's UALink device number (R234, R360). -/
opaque deviceNumber : BitVec 10

/-- Another device refuses an access of this one (R401), by the count of choices made so far, what it asks for and the
physical address: the other device's export ranges are not this device's state. -/
opaque fabricRefuses : Nat → Nat → Nat → Bool

/-- A fabric device has acknowledged a store (R360), by the count of choices made so far and the store's number. -/
opaque acknowledged : Nat → Nat → Bool

/-- By how much a core's CYCLE is ahead of the package's count (R101): two cores' reads of one cycle differ by at most 16. -/
opaque cycleSkew : Nat → Nat

/-- Which of its two neighbours carries a die's traffic with the die opposite (R11, assumption 70): with true die d XOR 2. -/
opaque viaHop : Nat → Nat → Bool

/-- The core-local SRAM offset that the placer chooses for a ring (R374), by the number of the placement and the ring. -/
opaque ringPlace : Nat → Nat → Nat

/-- The size of a core's SRAM window in units of 64 KiB, which firmware chooses at initialisation (R236). -/
opaque sramWindow : Nat → Nat

/-- An L2 slice, by its die and number, is configured as a window (R236). -/
opaque l2Window : Nat → Nat → Bool

/-- The place of a die's fault record region within its Thexo area, which firmware chooses (R320, R394, R409). -/
opaque faultRegion : Nat → Nat

end Sys2Proof.Config
end

