-- ==== Sys2Proof/Machine/Assoc.lean ====
section
/-! DEFINITION. Sparse data by key: a list of (key, value) pairs with strictly rising keys. `put`, `find?` and `erase`
serve records; `get` and `set` serve bytes and registers, where an unlisted key reads as a default and writing the
default removes the entry, so that equal contents are equal lists. -/

namespace Sys2Proof.Assoc

/-- The first value listed under `k`. -/
def find? {α : Type} (l : List (Nat × α)) (k : Nat) : Option α :=
  match l with
  | [] => none
  | (k', v) :: t => if k' = k then some v else find? t k

/-- `l` without any entry under `k`. -/
def erase {α : Type} (l : List (Nat × α)) (k : Nat) : List (Nat × α) :=
  l.filter fun p => p.1 != k

/-- `v` placed under `k` before the first greater key. -/
def place {α : Type} (l : List (Nat × α)) (k : Nat) (v : α) : List (Nat × α) :=
  match l with
  | [] => [(k, v)]
  | (k', v') :: t => if k < k' then (k, v) :: (k', v') :: t else (k', v') :: place t k v

/-- `k` holds `v` and every other key holds what it held. -/
def put {α : Type} (l : List (Nat × α)) (k : Nat) (v : α) : List (Nat × α) :=
  place (erase l k) k v

/-- What `k` reads as when an unlisted key reads as `d`. -/
def get {α : Type} (d : α) (l : List (Nat × α)) (k : Nat) : α :=
  (find? l k).getD d

/-- As `put`, but writing the default `d` removes the entry. -/
def set {α : Type} [DecidableEq α] (d : α) (l : List (Nat × α)) (k : Nat) (v : α) : List (Nat × α) :=
  if v = d then erase l k else put l k v

/-- The entry under `k`, if there is one, changed by `f`. -/
def modify {α : Type} (l : List (Nat × α)) (k : Nat) (f : α → α) : List (Nat × α) :=
  l.map fun p => if p.1 = k then (p.1, f p.2) else p

/-- Every entry changed by `f`. -/
def mapVals {α : Type} (l : List (Nat × α)) (f : Nat → α → α) : List (Nat × α) :=
  l.map fun p => (p.1, f p.1 p.2)

/-- Keys strictly rise. -/
def sorted {α : Type} (l : List (Nat × α)) : Bool :=
  match l with
  | [] => true
  | [_] => true
  | (k, _) :: (k', v') :: t => decide (k < k') && sorted ((k', v') :: t)

/-- The canonical form: keys strictly rise and no entry equals what its key reads as when unlisted. -/
def canonical {α : Type} [DecidableEq α] (d : Nat → α) (l : List (Nat × α)) : Bool :=
  sorted l && l.all fun p => decide (p.2 ≠ d p.1)

end Sys2Proof.Assoc
end

