-- ==== Sys2Proof/Machine/Hash.lean ====
section
/-! DEFINITION. The hash functions that the firmware's two signature schemes and its measurement name (R410, R411): SHA-256,
SHA-384 and SHA-512 (FIPS 180-4, assumption 5), and the mask generation function MGF1 (RFC 8017). -/

namespace Sys2Proof.Hash

/-- The `n` big-endian bytes of a number. -/
def beBytes (n x : Nat) : List Byte := (Bits.leBytes n x).reverse

/-- The number whose big-endian bytes are given. -/
def beNat (bs : List Byte) : Nat := bs.foldl (fun a b => 256 * a + b.toNat) 0

/-- The greatest number below 2^n above `acc` whose k-th power is at most x, bit by bit. -/
def rootFrom (k x n acc : Nat) : Nat :=
  match n with
  | 0 => acc
  | n + 1 => rootFrom k x n (if (acc + 2 ^ n) ^ k ≤ x then acc + 2 ^ n else acc)

/-- The first 80 primes. -/
def primes : List Nat := (List.range 410).filter fun n => 2 ≤ n && (List.range n).all fun d => d < 2 || n % d != 0

/-- The first 64 bits of the fractional part of a k-th root. -/
def rootBits (k p : Nat) : Nat := rootFrom k (p * 2 ^ (64 * k)) 68 0 % 2 ^ 64

/-- The 80 round constants of SHA-512, whose first 64 hold those of SHA-256 in their high halves. -/
def roundWords : Array Nat := (primes.map (rootBits 3)).toArray

/-- Initial words: the square roots of eight primes. -/
def startWords (from_ : Nat) : List Nat := ((primes.drop from_).take 8).map (rootBits 2)

/-- A member of the SHA-2 family by its word width: its rounds, and the rotations of its four functions, of which the small ones
end with a shift. -/
structure Sha (w : Nat) where
  rounds : Nat
  big0   : Nat × Nat × Nat
  big1   : Nat × Nat × Nat
  small0 : Nat × Nat × Nat
  small1 : Nat × Nat × Nat

/-- SHA-256. -/
def sha256 : Sha 32 := ⟨64, (2, 13, 22), (6, 11, 25), (7, 18, 3), (17, 19, 10)⟩

/-- SHA-512. -/
def sha512 : Sha 64 := ⟨80, (28, 34, 39), (14, 18, 41), (1, 8, 7), (19, 61, 6)⟩

variable {w : Nat}

/-- A function Σ. -/
def bigSum (r : Nat × Nat × Nat) (x : BitVec w) : BitVec w := x.rotateRight r.1 ^^^ x.rotateRight r.2.1 ^^^ x.rotateRight r.2.2

/-- A function σ. -/
def smallSum (r : Nat × Nat × Nat) (x : BitVec w) : BitVec w := x.rotateRight r.1 ^^^ x.rotateRight r.2.1 ^^^ (x >>> r.2.2)

/-- The message schedule, `n` words beyond those it holds. -/
def schedule (c : Sha w) (n : Nat) (ws : Array (BitVec w)) : Array (BitVec w) :=
  match n with
  | 0 => ws
  | n + 1 =>
    let t := ws.size
    let at_ (i : Nat) := ws.getD (t - i) 0
    schedule c n (ws.push (smallSum c.small1 (at_ 2) + at_ 7 + smallSum c.small0 (at_ 15) + at_ 16))

/-- One round on the eight working words. -/
def round (c : Sha w) (v : List (BitVec w)) (k x : BitVec w) : List (BitVec w) :=
  match v with
  | [a, b, d, e, f, g, h, i] =>
    let t1 := i + bigSum c.big1 f + ((f &&& g) ^^^ (~~~f &&& h)) + k + x
    let t2 := bigSum c.big0 a + ((a &&& b) ^^^ (a &&& d) ^^^ (b &&& d))
    [t1 + t2, a, b, d, e + t1, f, g, h]
  | _ => v

/-- The words of a block. -/
def blockWords (n : Nat) (bs : List Byte) : List (BitVec w) :=
  match n with
  | 0 => []
  | n + 1 => BitVec.ofNat w (beNat (bs.take (w / 8))) :: blockWords n (bs.drop (w / 8))

/-- The hash value after one block. -/
def compress (c : Sha w) (h : List (BitVec w)) (block : List Byte) : List (BitVec w) :=
  let ws := schedule c (c.rounds - 16) (blockWords 16 block).toArray
  let v := (List.range c.rounds).foldl (fun v t => round c v (BitVec.ofNat w (roundWords.getD t 0 >>> (64 - w))) (ws.getD t 0)) h
  List.zipWith (· + ·) h v

/-- The hash value after `n` blocks. -/
def runBlocks (c : Sha w) (n : Nat) (h : List (BitVec w)) (bs : List Byte) : List (BitVec w) :=
  match n with
  | 0 => h
  | n + 1 => runBlocks c n (compress c h (bs.take (2 * w))) (bs.drop (2 * w))

/-- A message padded to whole blocks of 2w bytes. -/
def padded (w : Nat) (m : List Byte) : List Byte :=
  let zeros := (2 * w - (m.length + 1 + w / 4) % (2 * w)) % (2 * w)
  m ++ 0x80 :: List.replicate zeros 0 ++ beBytes (w / 4) (8 * m.length)

/-- The hash of a message from initial words, of which the first w bits count. -/
def digest (c : Sha w) (start : List Nat) (m : List Byte) : List Byte :=
  let bs := padded w m
  (runBlocks c (bs.length / (2 * w)) (start.map fun x => BitVec.ofNat w (x >>> (64 - w))) bs).flatMap fun x => beBytes (w / 8) x.toNat

/-- SHA-256. -/
def hash256 (m : List Byte) : List Byte := digest sha256 (startWords 0) m

/-- SHA-512. -/
def hash512 (m : List Byte) : List Byte := digest sha512 (startWords 0) m

/-- SHA-384 (R410, R411). -/
def hash384 (m : List Byte) : List Byte := (digest sha512 (startWords 8) m).take 48

/-- MGF1 of a hash with digests of `len` bytes. -/
def mgf1 (hash : List Byte → List Byte) (len n : Nat) (seed : List Byte) : List Byte :=
  ((List.range (Bits.ceilDiv n len)).flatMap fun i => hash (seed ++ beBytes 4 i)).take n

end Sys2Proof.Hash
end

