-- ==== Sys2Proof/Machine/Sign.lean ====
section
/-! DEFINITION. The two signature schemes of R411 and R413: RSASSA-PSS with SHA-384 and a 3,072-bit key (RFC 8017), and
SLH-DSA-SHA2-256s (FIPS 205). The spec names them and does not restate them (assumption 5). -/

namespace Sys2Proof.Sign

open Sys2Proof.Hash

/-! RSASSA-PSS. -/

/-- Bytes of a 3,072-bit modulus, and so of a signature (R411). -/
def rsaBytes : Nat := 384

/-- b^e mod m, over the low `n` bits of e. -/
def modPow (n b e m : Nat) : Nat :=
  match n with
  | 0 => 1 % m
  | n + 1 =>
    let r := modPow n (b * b % m) (e / 2) m
    if e % 2 = 1 then r * b % m else r

/-- Bytes combined by exclusive or. -/
def xorBytes (a b : List Byte) : List Byte := List.zipWith (· ^^^ ·) a b

/-- The hash that an encoding holds, of the message's hash and a salt. -/
def pssHash (m salt : List Byte) : List Byte := hash384 (List.replicate 8 0 ++ hash384 m ++ salt)

/-- A data block under a mask from a hash, its first bit cleared. -/
def pssMask (db h : List Byte) : List Byte :=
  match xorBytes db (mgf1 hash384 48 335 h) with
  | b :: t => (b &&& 0x7F) :: t
  | [] => []

/-- The data block before a salt of 48 bytes. -/
def pssPrefix : List Byte := List.replicate 286 0 ++ [1]

/-- An encoded message is consistent with a message (EMSA-PSS). -/
def pssOk (m em : List Byte) : Bool :=
  let masked := em.take 335
  let h := (em.drop 335).take 48
  let db := pssMask masked h
  em.length == rsaBytes && em.drop 383 == [0xBC] && !(masked.headD 0).getLsbD 7 && db.take 287 == pssPrefix
    && pssHash m (db.drop 287) == h

/-- A message's encoding with a salt. -/
def pssEncode (m salt : List Byte) : List Byte :=
  let h := pssHash m salt
  pssMask (pssPrefix ++ salt) h ++ h ++ [0xBC]

/-- Verification with the key (modulus, public exponent). -/
def rsaVerify (key : Nat × Nat) (m sig : List Byte) : Bool :=
  let x := beNat sig
  sig.length == rsaBytes && decide (x < key.1) && pssOk m (beBytes rsaBytes (modPow 3072 x key.2 key.1))

/-- A signature with the key (modulus, private exponent) and a salt. -/
def rsaSign (key : Nat × Nat) (m salt : List Byte) : List Byte :=
  beBytes rsaBytes (modPow 3072 (beNat (pssEncode m salt)) key.2 key.1)

/-! SLH-DSA-SHA2-256s: nodes of 32 bytes; a hypertree of 8 layers of 256 leaves; 22 trees of 2^14 leaves for a few-time
signature; chains of 16, 67 of them to a one-time signature. -/

/-- Bytes of a signature: the randomiser, the few-time signature, and the hypertree's. -/
def slhBytes : Nat := 29792

/-- The address of a hash call. -/
structure Adrs where
  layer : Nat
  tree  : Nat
  kind  : Nat
  pair  : Nat
  mid   : Nat
  last  : Nat

/-- Its compressed form of 22 bytes. -/
def Adrs.bytes (a : Adrs) : List Byte :=
  beBytes 1 a.layer ++ beBytes 8 a.tree ++ beBytes 1 a.kind ++ beBytes 4 a.pair ++ beBytes 4 a.mid ++ beBytes 4 a.last

/-- An address of another kind, for a key pair. -/
def Adrs.of (a : Adrs) (kind pair : Nat) : Adrs := ⟨a.layer, a.tree, kind, pair, 0, 0⟩

/-- The address of a tree's node. -/
def Adrs.node (a : Adrs) (height index : Nat) : Adrs := { a with mid := height, last := index }

/-- The hash of one node, and of a secret (F and PRF). -/
def hashF (seed : List Byte) (a : Adrs) (m : List Byte) : List Byte := hash256 (seed ++ List.replicate 32 0 ++ a.bytes ++ m)

/-- The hash of several nodes (H and T). -/
def hashT (seed : List Byte) (a : Adrs) (m : List Byte) : List Byte :=
  (hash512 (seed ++ List.replicate 96 0 ++ a.bytes ++ m)).take 32

/-- `n` digits of `b` bits from bytes, the first from the most significant bits. -/
def digits (b n : Nat) (bs : List Byte) : List Nat :=
  (List.range n).map fun i => Bits.field (beNat bs) (8 * bs.length - b * (i + 1)) b

/-- Node `i` of some nodes laid end to end. -/
def nodeAt (bs : List Byte) (i : Nat) : List Byte := (bs.drop (32 * i)).take 32

/-- A chain walked `n` steps from step `i`. -/
def chain (seed : List Byte) (a : Adrs) (i n : Nat) (x : List Byte) : List Byte :=
  (List.range n).foldl (fun x j => hashF seed { a with last := i + j } x) x

/-- The chain lengths of a node: its 64 digits, and three of their checksum. -/
def wotsDigits (m : List Byte) : List Nat :=
  let d := digits 4 64 m
  d ++ digits 4 3 (beBytes 2 (16 * (d.map (15 - ·)).sum))

/-- The address of chain `i`. -/
def Adrs.chainAt (a : Adrs) (i : Nat) : Adrs := { a with mid := i }

/-- The one-time public key that a signature of a node gives. -/
def wotsKey (seed : List Byte) (a : Adrs) (m sig : List Byte) : List Byte :=
  hashT seed (a.of 1 a.pair)
    ((wotsDigits m).zipIdx.flatMap fun d => chain seed (a.chainAt d.2) d.1 (15 - d.1) (nodeAt sig d.2))

/-- The root that a leaf and the nodes beside its path give; `base` numbers the tree's first leaf. -/
def climb (seed : List Byte) (a : Adrs) (height base idx : Nat) (auth leaf : List Byte) : List Byte :=
  (List.range height).foldl (fun x j =>
    let beside := nodeAt auth j
    hashT seed (a.node (j + 1) ((base + idx) / 2 ^ (j + 1))) (if idx / 2 ^ j % 2 = 0 then x ++ beside else beside ++ x)) leaf

/-- The root of a layer's tree that a signature of a node under leaf `idx` gives. -/
def treeRoot (seed : List Byte) (layer tree idx : Nat) (m sig : List Byte) : List Byte :=
  let a : Adrs := ⟨layer, tree, 0, idx, 0, 0⟩
  climb seed (a.of 2 0) 8 0 idx (sig.drop (32 * 67)) (wotsKey seed a m sig)

/-- The bytes of one layer's signature. -/
def layerBytes : Nat := 32 * 75

/-- The roots of `n` layers above one, each signed by the next. -/
def topRoot (seed : List Byte) (n layer tree idx : Nat) (m sig : List Byte) : List Byte :=
  match n with
  | 0 => m
  | n + 1 => topRoot seed n (layer + 1) (tree / 256) (tree % 256) (treeRoot seed layer tree idx m sig) (sig.drop layerBytes)

/-- The address of the few-time trees under a leaf. -/
def forsAdrs (tree idx : Nat) : Adrs := ⟨0, tree, 3, idx, 0, 0⟩

/-- The few-time public key that a signature of 22 digits gives. -/
def forsKey (seed : List Byte) (a : Adrs) (ds : List Nat) (sig : List Byte) : List Byte :=
  hashT seed (a.of 4 a.pair) (ds.zipIdx.flatMap fun d =>
    let part := sig.drop (32 * 15 * d.2)
    climb seed a 14 (d.2 * 2 ^ 14) d.1 (part.drop 32) (hashF seed (a.node 0 (d.2 * 2 ^ 14 + d.1)) (part.take 32)))

/-- What a message and a randomiser select: the few-time digits, the tree and its leaf. -/
def slhDigest (seed root r m : List Byte) : List Nat × Nat × Nat :=
  let d := mgf1 hash512 64 47 (r ++ seed ++ hash512 (r ++ seed ++ root ++ m))
  (digits 14 22 (d.take 39), beNat ((d.drop 39).take 7), beNat (d.drop 46))

/-- A message with the empty context of pure signing. -/
def slhMessage (m : List Byte) : List Byte := 0 :: 0 :: m

/-- Verification with a public key: its seed, then its root. -/
def slhVerify (key m sig : List Byte) : Bool :=
  let seed := key.take 32
  let root := key.drop 32
  let (ds, tree, idx) := slhDigest seed root (sig.take 32) (slhMessage m)
  let leaf := forsKey seed (forsAdrs tree idx) ds (sig.drop 32)
  key.length == 64 && sig.length == slhBytes && topRoot seed 8 0 tree idx leaf (sig.drop (32 + 32 * 15 * 22)) == root

/-- The secret of chain `i` of a one-time key. -/
def wotsSecret (secret seed : List Byte) (a : Adrs) (i : Nat) : List Byte := hashF seed ((a.of 5 a.pair).chainAt i) secret

/-- A one-time public key. -/
def wotsPublic (secret seed : List Byte) (a : Adrs) : List Byte :=
  hashT seed (a.of 1 a.pair) ((List.range 67).flatMap fun i => chain seed (a.chainAt i) 0 15 (wotsSecret secret seed a i))

/-- A node of a tree over some leaves. -/
def treeNode (seed : List Byte) (a : Adrs) (leaf : Nat → List Byte) (z i : Nat) : List Byte :=
  match z with
  | 0 => leaf i
  | z + 1 => hashT seed (a.node (z + 1) i) (treeNode seed a leaf z (2 * i) ++ treeNode seed a leaf z (2 * i + 1))

/-- The node beside a number. -/
def besideOf (n : Nat) : Nat := if n % 2 = 0 then n + 1 else n - 1

/-- The nodes beside the path of a leaf. -/
def authPath (seed : List Byte) (a : Adrs) (leaf : Nat → List Byte) (height n : Nat) : List Byte :=
  (List.range height).flatMap fun j => treeNode seed a leaf j (besideOf (n / 2 ^ j))

/-- One layer's signature of a node. -/
def layerSign (secret seed : List Byte) (layer tree idx : Nat) (m : List Byte) : List Byte :=
  let a (i : Nat) : Adrs := ⟨layer, tree, 0, i, 0, 0⟩
  ((wotsDigits m).zipIdx.flatMap fun d => chain seed ((a idx).chainAt d.2) 0 d.1 (wotsSecret secret seed (a idx) d.2)) ++
    authPath seed ⟨layer, tree, 2, 0, 0, 0⟩ (fun i => wotsPublic secret seed (a i)) 8 idx

/-- The signatures of `n` layers above one. -/
def topSign (secret seed : List Byte) (n layer tree idx : Nat) (m : List Byte) : List Byte :=
  match n with
  | 0 => []
  | n + 1 =>
    let sig := layerSign secret seed layer tree idx m
    sig ++ topSign secret seed n (layer + 1) (tree / 256) (tree % 256) (treeRoot seed layer tree idx m sig)

/-- A few-time signature of 22 digits. -/
def forsSign (secret seed : List Byte) (a : Adrs) (ds : List Nat) : List Byte :=
  let value (i : Nat) : List Byte := hashF seed ((a.of 6 a.pair).node 0 i) secret
  ds.zipIdx.flatMap fun d => value (d.2 * 2 ^ 14 + d.1) ++
    authPath seed a (fun i => hashF seed (a.node 0 i) (value i)) 14 (d.2 * 2 ^ 14 + d.1)

/-- HMAC with SHA-512. -/
def hmac512 (key m : List Byte) : List Byte :=
  let k := key ++ List.replicate (128 - key.length) 0
  hash512 (k.map (· ^^^ 0x5C) ++ hash512 (k.map (· ^^^ 0x36) ++ m))

/-- A signature with a private key (its secret seed, its message secret, the public seed and root) and 32 random bytes. -/
def slhSign (key m random : List Byte) : List Byte :=
  let secret := nodeAt key 0
  let seed := nodeAt key 2
  let r := (hmac512 (nodeAt key 1) (random ++ slhMessage m)).take 32
  let (ds, tree, idx) := slhDigest seed (nodeAt key 3) r (slhMessage m)
  let fors := forsSign secret seed (forsAdrs tree idx) ds
  r ++ fors ++ topSign secret seed 8 0 tree idx (forsKey seed (forsAdrs tree idx) ds fors)

end Sys2Proof.Sign
end

