-- ==== Sys2Proof/Machine/Image.lean ====
section
/-! DEFINITION. Firmware images (R411) and the choice of the one that the boot ROM runs (R408, R412). -/

namespace Sys2Proof.Machine

/-- `n` bytes of an image from an offset. -/
def part (img : List Byte) (off n : Nat) : List Byte := (img.drop off).take n

/-- The body length that an image's header gives. -/
def imageBody (img : List Byte) : Nat := Bits.leNat (part img 16 8)

/-- The security version that an image's header gives. -/
def imageSvn (img : List Byte) : Nat := Bits.leNat (part img 8 8)

/-- The n bytes of a field, whatever the length of what fills it. -/
def fixedBytes (n : Nat) (l : List Byte) : List Byte := (List.range n).map fun i => l.getD i 0

/-- An SLH-DSA-SHA2-256s public key (assumption 5). -/
def slhKeyBytes : Nat := 64

/-- The signed bytes of an image: its header and its body. -/
def signedBytes (img : List Byte) : Nat := 256 + imageBody img

/-- The bytes of an image: header, body and the two signatures; its keys travel after it (R411). -/
def imageLength (img : List Byte) : Nat := signedBytes img + Sign.rsaBytes + Sign.slhBytes

/-- The measurement of an image: the SHA-384 of its bytes, whatever stands after it (R410, assumption 51). -/
def measurement (img : List Byte) : List Byte := Hash.hash384 (part img 0 (imageLength img))

/-- The header of an image is well formed: magic, format, body length and reserved fields. -/
def headerOk (img : List Byte) : Bool :=
  let n := imageBody img
  Bits.leNat (part img 0 4) == 0x4D495854 && Bits.leNat (part img 4 4) == 1 && n % 4096 == 0 && decide (4096 ≤ n)
    && decide (n ≤ 56 * 2 ^ 20) && (part img 24 232).all (· == 0)

/-- A signature of RSASSA-PSS verifies under the key that some bytes carry, whose modulus has 3,072 bits (R411). -/
def rsaOk (key signed sig : List Byte) : Bool :=
  let k := Config.rsaKey key
  decide (2 ^ 3071 ≤ k.1) && decide (k.1 < 2 ^ 3072) && Sign.rsaVerify k signed sig

/-- An image is valid (R411): both signatures verify, both keys match their fused digests, the reserved fields are zero, and
the security version is at least the fused minimum. -/
def imageValid (img : List Byte) (fusedMin : Word) : Bool :=
  let n := signedBytes img
  let signed := part img 0 n
  let rsaKey := part img (imageLength img) Config.rsaKeyBytes
  let slhKey := part img (imageLength img + Config.rsaKeyBytes) slhKeyBytes
  headerOk img && decide (imageLength img + Config.rsaKeyBytes + slhKeyBytes ≤ img.length)
    && Hash.hash384 rsaKey == Config.fusedDigest false && Hash.hash384 slhKey == Config.fusedDigest true
    && rsaOk rsaKey signed (part img n Sign.rsaBytes)
    && Sign.slhVerify slhKey signed (part img (n + Sign.rsaBytes) Sign.slhBytes)
    && decide (fusedMin.toNat ≤ imageSvn img)

/-- The image that the boot ROM runs: slot A, else slot B (R408); an image that R412 has loaded into slot B since the last reset
comes first, since it runs after this one (assumption 87). -/
def bootChoice (slotA slotB : List Byte) (fusedMin : Word) (loaded : Bool) : Option (Bool × List Byte) :=
  if loaded && imageValid slotB fusedMin then some (true, slotB)
  else if imageValid slotA fusedMin then some (false, slotA)
  else if imageValid slotB fusedMin then some (true, slotB)
  else none

/-- The image that runs when the state of reset is reached: the one that the boot ROM has chosen from the flash (R408, R410). -/
def resetImage : Bool × List Byte :=
  (bootChoice (Config.flashImage false) (Config.flashImage true) Config.fusedMinimum false).getD (false, Config.flashImage false)

/-- Bytes 0x08 to 0x4F of the boot block for an image that runs: its slot, its security version, the fused minimum and its
measurement (R410). -/
def bootBytes (image : Bool × List Byte) (fusedMin : Word) : List Byte :=
  Bits.leBytes 8 (if image.1 then 1 else 0) ++ Bits.leBytes 8 (imageSvn image.2) ++ Bits.leBytes 8 fusedMin.toNat ++
    fixedBytes 48 (measurement image.2)

end Sys2Proof.Machine
end

