-- ==== Sys2Proof/Machine/State.lean ====
section
/-! DEFINITION. The state of the device: every register, memory, queue, table and counter of the five inventories
(R89, R233, R299, R352, R381), the control and mailbox windows (R394, R397), and the model's own fields, as plain
data. -/

namespace Sys2Proof.Machine

/-- Why a step could stop with a fault: the spec describes an outcome for every case, so nothing raises one but the
word below. -/
inductive Fault where
  /-- Raised by step alone, when a stream is chosen to issue and the device runs no firmware (R411): none exists then, so
  no run raises it; safe: nothing is claimed of such a device. -/
  | noFirmware
  deriving DecidableEq, Repr

/-- Why a step is refused. -/
inductive Refusal where
  /-- Raised by exec for an instruction that has no meaning yet; safe. -/
  | notModelled (mnemonic : String)
  /-- Raised by the meaning of an event when the state does not enable the event: an event that cannot happen has no
  effect to give. step picks enabled events only; safe. -/
  | notEnabled (event : String)
  deriving DecidableEq, Repr

/-- What a step answers. -/
abbrev Result (σ : Type) := Host.Outcome σ Fault Refusal

/-- The roles of R17. -/
inductive Role where
  | vector | matrix | copy
  deriving DecidableEq, Repr

/-- An aperture register (R94). -/
structure Aperture where
  valid : Bool
  base  : BitVec 56
  limit : BitVec 32
  deriving DecidableEq, Repr

/-- A join entry of a split's stack (R361). -/
structure Join where
  reconv  : BitVec 32
  id      : Nat
  defer   : Mask
  target  : BitVec 32
  arrived : Mask
  deriving DecidableEq, Repr

/-- The states of a split (R361). -/
inductive SplitState where
  | running | held | joining | frozen
  deriving DecidableEq, Repr

/-- A stream that may issue: the group and, for the lane stream, the split (4 is the handler lane program's, R218). -/
structure Stream where
  key  : Nat
  lane : Option Nat
  deriving DecidableEq, Repr

/-- A split entry (R361) with the header of its clause, its age (R309), its yield hold (R311) and
the address of a fetch that waits for page service (R215), a TRAPPC that names no lane-code address, at which the
split traps as it resumes (R222), and how many of the scalar stream's noted writes an edge orders before its clause
(R69). -/
structure Split where
  valid  : Bool
  st     : SplitState
  former : SplitState
  mask   : Mask
  addr   : BitVec 32
  index  : Nat
  width  : Nat
  hdr    : Header
  joins  : List Join
  age    : Nat
  hold   : List Stream
  fetch  : Option Nat
  bad    : Option Nat
  floor  : Nat
  deriving DecidableEq, Repr

/-- The operations of the atomics (R289, R294) and of the wider read-modify-writes (R266). -/
inductive RmwOp where
  | addI | minS | maxS | minU | maxU | and | or | xor | swap | cas
  | addF32 | addBf16x2
  /-- with the RND.ftz that the instruction samples (R44, R141, R290) -/
  | minF32 (ftz : Bool)
  | maxF32 (ftz : Bool)
  deriving DecidableEq, Repr

/-- What an access does. -/
inductive AccKind where
  | load
  | store (data : List Byte)
  | rmw (op : RmwOp) (operand comparand : Nat)
  deriving DecidableEq, Repr

/-- One access of a memory instruction: its lane, its tangent plane (0 the primal), its address and width, and
whether it returns a value (ARED and stores do not). -/
structure Acc where
  lane    : Nat
  plane   : Nat
  va      : Nat
  bytes   : Nat
  kind    : AccKind
  returns : Bool
  deriving DecidableEq, Repr

/-- The value an access returned. -/
structure Done where
  lane  : Nat
  plane : Nat
  value : Nat
  deriving DecidableEq, Repr

/-- A store that waits for an entry of a full side log: its place among those that wait, its order attribute, and the access
(R272). -/
structure LogWait where
  ticket : Nat
  order  : Nat
  acc    : Acc
  deriving DecidableEq, Repr

/-- Where a lane memory instruction's results go at completion (R279, R284, R288). -/
inductive Dest where
  /-- nothing is written -/
  | none
  /-- lanes of `regs` registers from `reg` on, in an access of `bytes` bytes; `sext` sign-extends, `p6` unpacks FP6
  codes; the planes whose shadows are written -/
  | lanes (reg bytes : Nat) (sext p6 : Bool) (planes : List Nat)
  /-- whole scale registers already formed, by plane -/
  | scales (reg blocks distance : Nat) (planes : List Nat)
  /-- whole vector registers already formed (RNG) -/
  | regs (mask : Mask) (writes : List (Nat × VecReg))
  deriving DecidableEq, Repr

/-- A write of a lane-wise or whole register by a completion (R91): lanes of Vn or of its shadow in a plane, or Qn or its
shadow. -/
inductive RegWrite where
  | v (plane reg : Nat) (lanes : Mask) (value : VecReg)
  | q (plane reg : Nat) (value : ScaleReg)
  deriving DecidableEq, Repr

/-- An outstanding long-latency lane instruction (R91, R215) with its order attribute: accesses still to perform, values returned, and in `far` the
accesses whose data is awaited, since cycle `since`, from host memory (0) or from fabric device n (n + 1). Both hold the
split at the instruction (R214, R215). `again` when the split may repeat it: the service of its accesses has ended or
failed, or its data has come while the split could not run (R215, R222). `logWait` when its remaining stores wait for entries of
a full side log: their place among those that wait, and their order attribute (R272). -/
structure LaneOp where
  id    : Nat
  split : Nat
  mask  : Mask
  order : Nat
  flag  : Option Nat
  dest  : Dest
  write : Bool
  again : Bool
  todo  : List Acc
  done  : List Done
  far   : List (Acc × Nat)
  since : Nat
  logWait : Option (Nat × Nat)
  deriving DecidableEq, Repr

/-- A scalar access whose data is awaited from host memory (`source` 0) or from fabric device n (n + 1): its address, its
instruction's address, and whether that instruction issued in handler state. -/
structure Far where
  source  : Nat
  va      : Nat
  pc      : BitVec 56
  handler : Bool
  since   : Nat
  deriving DecidableEq, Repr

/-- An outstanding scalar access (R292, R294): destination registers with the values they will take; with `far`, it holds
its stream until then (a load from space 10 or 11, R214). -/
structure ScalarOp where
  id    : Nat
  dest  : List (Nat × Word)
  far   : Option Far
  deriving DecidableEq, Repr

/-- What an operation samples at issue (R43, R58, R132, R174, R326). -/
structure Sample where
  rnd     : Word
  width   : Nat
  dplane  : BitVec 56
  dstride : BitVec 56
  cring   : Word
  seed    : Word
  drawid  : BitVec 32
  counter : BitVec 32
  pc      : BitVec 56
  deriving DecidableEq, Repr

/-- The hidden trap state (R217). -/
structure Hidden where
  a15   : Aperture
  pc    : BitVec 56
  split : Option Nat
  entry : BitVec 56
  deriving DecidableEq, Repr

/-- What the scalar stream of a group waits in (R308). -/
inductive Wait where
  | none
  | flags (mask : BitVec 12) (any : Bool)
  | lsync
  | laneQueue
  | matrixQueue
  | msync
  | await
  | waita
  | barrier
  | ring (r : Nat) (push : Bool)
  | transitQueue
  | strmQueue
  | collQueue
  /-- a full grid queue of a die, or launches held (R300, R403) -/
  | gridQueue (die : Nat)
  | frameCount
  | exit
  | handlerLanes
  | service
  | fetch
  | flagLimit (n : Nat)
  | yield
  /-- until no side-log entry of the core touches these bytes, or with none named until the log is empty (R271, R272) -/
  | sideLog (va bytes : Nat)
  /-- a faulting store waits for an entry of a full side log (R272) -/
  | logRoom
  /-- the Basith dispatcher waits for requests (R33, R398) -/
  | dispatch
  | keyFlight
  | ringService
  deriving DecidableEq, Repr

/-- Where a group stands (R27, R363). -/
inductive Status where
  | running | parked | pending | saved
  deriving DecidableEq, Repr

/-- A frame (R363); `parent` is the group that the owner's retirement is reported to; the pending children stand as groups of
status pending, listed here by key. `area` is its place in the core's frame area while it is not held on-core (R364). -/
structure Frame where
  parent  : Option Nat
  count   : Nat
  offcore : Bool
  born    : Nat
  stamp   : Nat
  pending : List Nat
  evicted : Option Nat
  area    : Option Nat
  deriving DecidableEq, Repr

/-- What one of the scalar stream's writes to a register that lane instructions read replaced (R43, R69, R132, R277). -/
inductive Older where
  | s (n : Nat) (v : Word)
  | a (n : Nat) (x : Aperture)
  | rnd (v : Word)
  | dplane (v : BitVec 56)
  | dstride (v : BitVec 56)
  | srseed (v : Word)
  | drawid (v : BitVec 32)
  deriving DecidableEq, Repr

/-- How far an edge from the scalar stream reaches (R69, R125, R129): the writes that were noted before it, and the number of
the next operation. -/
structure Edge where
  floor : Nat
  op    : Nat
  deriving DecidableEq, Repr

/-- A lane program in a lane enqueue queue (R312), with the edge from its LRUN (R125). -/
structure Queued where
  addr : BitVec 32
  edge : Edge
  deriving DecidableEq, Repr

/-- A group: every register of R89 and R99 and the per-group queues and tables. `past` notes what the scalar stream's writes
have replaced while a lane program is queued or runs, oldest first, and `cleared` the edge from the last FCLR of each
flag (R69, R129). `serial` counts the groups of the grid without wrap: GID is its low 32 bits (R100). `due` when a TRET left a
user-level interrupt to be taken before any split issues (R218), and `store` is a scalar store that waits for an entry of a
full side log (R272). `late` holds what completions have written while the group's registers stood in an eviction entry
(R108, R306), `intCycle` is the cycle of the last completion that set the pending interrupt (R380), and `resume` the address of
a scalar instruction whose page service has ended, which completes before a trap or an interrupt (R109, R292). -/
structure Group where
  grid       : Nat
  gid        : BitVec 32
  serial     : Nat
  team       : Nat
  role       : Role
  child      : Bool
  parent     : Option Nat
  launchIdx  : Nat
  core       : Nat
  slot       : Nat
  status     : Status
  priv       : Bool
  pc         : BitVec 56
  s          : List (Nat × Word)
  v          : List (Nat × VecReg)
  q          : List (Nat × ScaleReg)
  p          : List (Nat × Mask)
  a          : List (Nat × Aperture)
  flagSoft   : BitVec 12
  flagCount  : List (Nat × Nat)
  k          : List (Nat × Word)
  rnd        : Word
  tanw       : Nat
  dplane     : BitVec 56
  dstride    : BitVec 56
  srseed     : Word
  cring      : Word
  ulivec     : BitVec 56
  savearea   : BitVec 56
  prdeadline : BitVec 32
  drawid     : BitVec 32
  trapcause  : Word
  trappc     : BitVec 56
  traplanes  : Mask
  trapaddr   : Word
  keysel     : BitVec 6
  draws      : BitVec 32
  alloc      : Nat
  laneQ      : List Queued
  handlerQ   : List Queued
  past       : List Older
  cleared    : List (Nat × Edge)
  splits     : List Split
  hsplit     : Split
  laneOps    : List LaneOp
  scalarOps  : List ScalarOp
  nextOp     : Nat
  handler    : Bool
  hidden     : Hidden
  mismatch   : List (Word × Word)
  xfererr    : Option (BitVec 16 × Word)
  preempt    : Bool
  intPending : Bool
  intCycle   : Option Word
  intState   : Bool
  intReturn  : BitVec 56
  due        : Bool
  store      : Option LogWait
  late       : List RegWrite
  resume     : Option (BitVec 56)
  barrier    : Nat
  arrived    : Bool
  dropped    : BitVec 32
  noRing     : Bool
  recordNo   : Option Nat
  wait       : Wait
  waitMark   : Nat
  waitOp     : Nat
  age        : Nat
  hold       : List Stream
  frame      : Option Frame
  placedAt   : Nat
  cycleMin   : Word
  deriving DecidableEq, Repr

/-- A launch record (R327), its fields read. -/
structure Record where
  scalarBase : BitVec 56
  laneBase   : BitVec 56
  shapeBase  : BitVec 56
  shapes     : Nat
  entry      : Nat
  trapVec    : Nat
  teams      : Nat
  arg        : Word
  seed       : Word
  groups     : Nat
  copies     : Nat
  matrices   : Nat
  width      : Nat
  vecBudget  : Nat
  matBudget  : Nat
  copyBudget : Nat
  tiles      : Nat
  priority   : Nat
  system     : Bool
  dies       : Nat
  scratch    : Nat
  counterA   : Option (Nat × Word)
  counterB   : Option (Nat × Word)
  rnd        : Word
  dplane     : BitVec 56
  dstride    : BitVec 56
  srseed     : Word
  cring      : Word
  ulivec     : BitVec 56
  savePool   : BitVec 56
  saveBytes  : Nat
  status     : BitVec 56
  regions    : List (Nat × Nat)
  rings      : List (Nat × Nat)
  deriving DecidableEq, Repr

/-- A converted operand in the matrix engine (R188, R194): type code, block length, rows, columns, codes by row and
column, block scales and companions by block, and one such image per plane. -/
structure Tile where
  ty     : Nat
  blk    : Nat
  rows   : Nat
  cols   : Nat
  codes  : List (Nat × Nat)
  scales : List (Nat × Nat)
  comps  : List (Nat × Nat)
  deriving DecidableEq, Repr

/-- The matrix commands (R191). -/
inductive MatrixOp where
  | mld (west : Bool)
  | mma
  | mma2
  | mdrain
  | mzero (all : Bool) (tile : Nat)
  | mmode (red : Bool)
  | mvnb
  deriving DecidableEq, Repr

/-- Where an accepted engine command stands with its pages: the address whose page service it waits for, whether that
address belongs to its completion ring, whether that ring has failed (R318), the record number that it has taken while its
record's page is waited for (R318), the fault code and address that it will end with (R210, R344), the bytes that its record
will report (R319), and whether its accesses have been performed. -/
structure Life where
  wait   : Option Nat
  ring   : Bool
  noRing : Bool
  number : Option Nat
  fault  : BitVec 16
  addr   : Nat
  bytes  : Nat
  past   : Bool
  deriving DecidableEq, Repr

/-- A command that has met no fault. -/
def Life.fresh : Life := ⟨none, false, false, none, 0, 0, 0, false⟩

/-- An accepted matrix command (R188, R189, R212): its control word and operand registers, the records of its handles, the
ring positions that it claimed, its operands once read, the transfers of its handles that it has raised and that have ended
(R208, R316: 0 and 1 its operands, 2 a drain's write), the scratchpad as it stood at issue with the drains that had then
written it (R209), and for MVNB the near-bank index of each block of B (R205). -/
structure MatrixCmd where
  id      : Nat
  key     : Nat
  op      : MatrixOp
  flag    : Option Nat
  ctl     : Word
  src     : Word
  other   : Word
  rec1    : BitVec 512
  rec2    : BitVec 512
  claim1  : Option Nat
  claim2  : Option Nat
  sample  : Sample
  child   : Bool
  loaded  : List Tile
  loaded2 : List Tile
  raised  : List Nat
  landed  : List Nat
  early   : List (Nat × Byte)
  early2  : List (Nat × Byte)
  drains  : Nat
  banks   : List Nat
  passes  : Nat
  life    : Life
  deriving DecidableEq, Repr

/-- The matrix engine's state for a team (R188). `stat` and `bypass` hold one image per plane, and `drains` the scratchpad ranges
that drains have written, in the order of their completion (R209). -/
structure Engine where
  stat      : List Tile
  west      : Bool
  bypass    : Option (List Tile)
  redundant : Bool
  accBypass : Bool
  accRed    : Bool
  accRows   : Nat
  queue     : List MatrixCmd
  drains    : List (Nat × Nat)
  deriving DecidableEq, Repr

/-- A stage ring (R314, R374); positions are counted without wrap, and the claims not yet completed are listed. `place` is the
core-local SRAM offset of slot 0. -/
structure Ring where
  slots   : Nat
  size    : Nat
  p       : Nat
  c       : Nat
  full    : BitVec 16
  phase   : BitVec 16
  pushOut : List Nat
  popOut  : List Nat
  data    : List (Nat × Byte)
  place   : Nat
  deriving DecidableEq, Repr

/-- An outstanding RPUSH or RPOP (R337). -/
structure RingOp where
  id    : Nat
  key   : Nat
  flag  : Option Nat
  push  : Bool
  ring  : Nat
  pos   : Nat
  off   : Nat
  bytes : Nat
  width : Nat
  deriving DecidableEq, Repr

/-- A STRM command and, once it runs, its progress (R350); the buffer's images stand as they were loaded or converted, and
`flip` says that an XPOSE has exchanged their rows and columns since; `since` is the cycle at which the program started (R396). -/
structure StrmCmd where
  id     : Nat
  key    : Nat
  prog   : List (BitVec 32)
  handle : Word
  shape  : BitVec 512
  flag   : Option Nat
  sample : Sample
  buf    : List Tile
  flip   : Bool
  l      : List (Nat × BitVec 16)
  mpc    : Nat
  steps  : Nat
  draws  : Nat
  bytes  : Nat
  since  : Nat
  life   : Life
  deriving DecidableEq, Repr

/-- A result waiting for a ring slot (R317), and the command that it belongs to. -/
structure StrmOut where
  id   : Nat
  cmd  : Nat
  key  : Nat
  ring : Nat
  pos  : Nat
  data : List Byte
  deriving DecidableEq, Repr

/-- A team (R14): its share of a core. `request` is the cycle by which a requested save must end (R228), `saved` the order
in which it was saved, and `hidden` the count from which the open bytes of its save area were taken (R229); the results of its
micro-programs stand in it while it is saved (R317). -/
structure Team where
  grid     : Nat
  index    : Nat
  core     : Nat
  placed   : Bool
  tiles    : Nat
  width    : Nat
  w        : Nat
  regions  : List (Nat × Nat)
  scratch  : List (Nat × Byte)
  offsets  : List (Nat × BitVec 32)
  z        : List (Nat × BitVec 32)
  engine   : Engine
  rings    : List (Nat × Ring)
  ringOps  : List RingOp
  strmDone : List StrmCmd
  strmOut  : List StrmOut
  nextOp   : Nat
  request  : Option Nat
  saved    : Option Nat
  hidden   : Nat
  placedAt : Nat
  deriving DecidableEq, Repr

/-- A grid (R300, R329, R384): the count of its groups, of which a child's GID takes the low 32 bits (R100), whether it has entered
its queue, whether its counters have reached their targets, the cycle at which it became eligible, whether its status word
could not be stored (R329), and the team of it that is first and fits no core, with the cycle since which that is so (R307). -/
structure Grid where
  record   : Record
  launcher : Option Nat
  priority : Nat
  die      : Nat
  entered  : Bool
  reached  : Bool
  eligible : Option Nat
  order    : Nat
  nextTeam : Nat
  children : Nat
  nfcount  : BitVec 32
  lost     : Bool
  noStatus : Bool
  aborted  : Nat
  retired  : Nat
  reason   : Nat
  waiting  : Option (Nat × Nat)
  deriving DecidableEq, Repr

/-- A transit or gradient command (R316, R339, R345). -/
inductive TransitOp where
  | copy (desc : BitVec 512)
  | gacc (handle : Word) (off : Nat) (ring : Option Nat) (notify : Bool)
  /-- a handle operand of a team's matrix command (R208) -/
  | fetch (team cmd : Nat) (second : Bool)
  /-- the global write of a team's MDRAIN (R200) -/
  | drain (team cmd : Nat)
  deriving DecidableEq, Repr

/-- A command of the transit queue (R316); `sealing` lists the key slots of a transfer that seals or unseals, with the keys
it took when it started (R379), `crc` is the CRC of what it wrote (R343), `left` says that it has left the execution set for
page service (R316), `early` holds the bytes of a fetch as they stood when it started (R209), and `since` is the cycle of that start
(R396). -/
structure TransitCmd where
  id      : Nat
  key     : Nat
  op      : TransitOp
  flag    : Option Nat
  sample  : Sample
  srcRec  : BitVec 512
  dstRec  : BitVec 512
  srcPos  : Option Nat
  dstPos  : Option Nat
  started : Bool
  sealing : List (Nat × BitVec 512)
  crc     : BitVec 32
  left    : Bool
  early   : List (Nat × Byte)
  since   : Nat
  life    : Life
  deriving DecidableEq, Repr

/-- An L1 line (R241): its data and, for a DC line, the cycle at which its lease ends. -/
structure L1Line where
  data  : VecReg
  lease : Option Nat
  deriving DecidableEq, Repr

/-- A side-log entry (R322); `since` is the cycle at which it was logged, or its page became ready (R396). -/
structure SideEntry where
  id    : Nat
  key   : Nat
  acc   : Acc
  order : Nat
  ready : Bool
  since : Nat
  deriving DecidableEq, Repr

/-- A store or reduction sent to a fabric device and not yet acknowledged (R360). -/
structure Sent where
  id     : Nat
  key    : Nat
  va     : Nat
  device : Nat
  deriving DecidableEq, Repr

/-- A performance counter (R386); `since` is the cycle from which it counts (R391). -/
structure Perf where
  event  : Nat
  filter : Bool
  grid   : Nat
  count  : Word
  since  : Nat
  deriving DecidableEq, Repr

/-- A cached translation: of a core (128 entries), of a die (8,192), or held with an aperture (R95, R358). -/
structure TlbEntry where
  base : Nat
  size : Nat
  leaf : Word
  inc  : BitVec 16
  deriving DecidableEq, Repr

/-- A pointer that a walker's node cache holds (R358): the addresses whose bits above 56 − 10 × level are `prefix_` are walked
from `node`, which is of that level. -/
structure NodeEntry where
  level   : Nat
  prefix_ : Nat
  node    : Nat
  deriving DecidableEq, Repr

/-- What one core holds beside its teams and groups: `strm` is the running micro-program, and `strmDone` lists those that
have ended and whose results wait. `taken` counts the SRAM bytes that L1 has handed back for a placement
that has not ended yet (R240), and `runs` lists the frame runs held with the apertures of its groups, by group and aperture
(R95). -/
structure Core where
  tlb      : List TlbEntry
  runs     : List ((Nat × Nat) × TlbEntry)
  l1       : List (Nat × L1Line)
  taken    : Nat
  sideLog  : List SideEntry
  sent     : List Sent
  transit  : List TransitCmd
  strmQ    : List StrmCmd
  strm     : Option StrmCmd
  strmDone : List StrmCmd
  strmOut  : List StrmOut
  perf     : List (Nat × Perf)
  deriving DecidableEq, Repr

/-- A fault record (R320), with what the servicer's answer needs (R321). -/
structure FaultRecord where
  va        : Nat
  grid      : Nat
  team      : Nat
  gid       : BitVec 32
  kind      : Nat
  detail    : Nat
  code      : BitVec 16
  trapcause : Word
  trappc    : Word
  cycle     : Word
  seq       : Nat
  size      : Nat
  deriving DecidableEq, Repr

/-- A cached shape record of a die (R369). -/
structure ShapeEntry where
  grid  : Nat
  index : Nat
  shape : BitVec 512
  deriving DecidableEq, Repr

/-- The stable states of a region (R243). -/
inductive OrreryState where
  | i | s | e | m
  deriving DecidableEq, Repr

/-- A region entry (R376). `quiet` is the cycle of its creation or last conflict, of which hardware keeps CYCLE[15:0]. -/
structure Region where
  line    : Nat
  j       : Nat
  st      : OrreryState
  holders : BitVec 4
  quiet   : Nat
  age     : Nat
  deriving DecidableEq, Repr

/-- A line of local HBM that an L2 slice holds (R242, R252). -/
structure L2Line where
  dirty : Bool
  cmp   : Bool
  deriving DecidableEq, Repr

/-- What one die holds: `nodes` is what its walkers' node caches hold (R358), `ncLines` its slices' copies of NC lines of host and
fabric memory (R242); `faultPend` lists the records that have not entered the queue, and `faults` those of the queue
that are unserviced (R321, R394). A walk that waits for a migrating node is listed by page with the cycle it began, or with none
once its time has passed (R355). -/
structure Die where
  faultPend : List FaultRecord
  faults    : List FaultRecord
  faultSeq  : Nat
  faultCons : Nat
  tlb       : List TlbEntry
  nodes     : List NodeEntry
  shapes    : List ShapeEntry
  orrery    : List Region
  ncLines   : List (Nat × VecReg)
  status    : List (Nat × BitVec 32)
  walks     : List (Nat × Option Nat)
  deriving DecidableEq, Repr

/-- A key slot (R379). -/
structure KeySlot where
  key    : BitVec 512
  flight : Nat
  deriving DecidableEq, Repr

/-- An incarnation entry (R360). -/
structure Incarnation where
  num  : BitVec 16
  up   : Bool
  deriving DecidableEq, Repr

/-- A collective in flight (R323, R348), with this device's rank and the members of its fabric group as they stood at
acceptance (R378). -/
structure Collective where
  id      : Nat
  key     : Nat
  desc    : BitVec 512
  rank    : Nat
  members : List Nat
  seq     : Nat
  flag    : Option Nat
  sample  : Sample
  life    : Life
  deriving DecidableEq, Repr

/-- An engine command that an abort has cancelled while it might be writing memory (R231). -/
inductive CancelledOp where
  | transit (c : TransitCmd)
  | coll (c : Collective)
  deriving DecidableEq, Repr

/-- A cancelled command with its group and its team as they stood: what it has written by then is open (R231). -/
structure Cancelled where
  group : Group
  team  : Team
  op    : CancelledOp
  deriving DecidableEq, Repr

/-- The control and mailbox windows (R394, R397), and the size of the memory window as a power of two (R393). -/
structure Control where
  init     : Word
  mcheck   : Bool
  ckpt     : Bool
  fatal    : Bool
  ptroot   : Word
  reqbase  : Word
  rspbase  : Word
  winbase  : Word
  fgtidx   : BitVec 8
  exports  : List (Nat × Word)
  ckptdst  : Word
  ckptstat : Word
  mbox     : Word
  mboxHeld : Word
  next     : Word
  barLg    : Nat
  deriving DecidableEq, Repr

/-- A checkpoint or restore under way (R405, R406), and the keys that it took when it started (R256, R379). -/
structure Checkpoint where
  restoring : Bool
  keys      : List (Nat × BitVec 512)
  deriving DecidableEq, Repr

/-- What the outside world does next: an event of the opcode table; the host or another device writing its own memory
(spaces 10 and 11), the host giving the memory window a size (R393), its reading a register or the configuration space, which
no row of the table names, or the beginning of something that goes on in steps. -/
inductive Input where
  | event (i : Instr)
  | outside (address : Nat) (data : List Byte)
  | resizeBar (lg : Nat)
  /-- the host reads a register of the control window, or with `mailbox` of the mailbox window (R394, R397) -/
  | registerRead (mailbox : Bool) (offset : Nat)
  /-- a PCIe configuration request (R408) -/
  | configRequest
  /-- a device reset begins, by a thermal trip or otherwise, and its boot sequence runs step by step (R407, R408) -/
  | resetBegins (trip : Bool)
  /-- firmware begins to rewrite the telemetry block, write by write (R414) -/
  | telemetryBegins (t : Telemetry)
  deriving DecidableEq, Repr

/-- What the device tells the outside world: an MSI-X vector (R393), a read's or AtomicOp's completion (R395), an
Unsupported Request, or an answer to an incoming fabric access (R401). -/
inductive Output where
  | msix (vector : Nat)
  | completion (data : List Byte)
  | unsupported
  /-- the answer to a configuration request: with `retry` the Configuration Request Retry Status (R408) -/
  | configuration (retry : Bool)
  | fabricAnswer (data : List Byte)
  | fabricRefused
  deriving DecidableEq, Repr

/-- The whole device. `svn` and `measured` are the security version and the measurement of the image that runs (R410, R413),
`boot` is the step of R408 that runs, `loaded` says that R412 has put an image into slot B since the last reset, `checking` is
the length of the staged image under check (R412), `nonce` is the nonce of an attestation that has started (R413), `telem` holds
the writes of a telemetry update under way and `energy` what the telemetry last gave (R414), `request` is the dispatcher's copy of
a request that waits (R398), and `thexo` holds the scalar streams of the four management cores (R11). -/
structure State where
  tick      : Nat
  free      : Nat
  cycle     : Word
  cur       : Stream
  core      : Nat
  issue     : List Stream
  ready     : List Stream
  inputs    : List Input
  outputs   : List Output
  mem       : List Host.Cell
  tags      : List (Nat × BitVec 4)
  l2        : List (Nat × L2Line)
  windows   : List (Nat × Nat)
  l2windows : List (Nat × Bool)
  dies      : List (Nat × Die)
  cores     : List (Nat × Core)
  grids     : List (Nat × Grid)
  teams     : List (Nat × Team)
  groups    : List (Nat × Group)
  nextGrid  : Nat
  stamp     : Nat
  depCtrs   : List (Nat × Word)
  keys      : List (Nat × KeySlot)
  incs      : List (Nat × Incarnation)
  links     : List (Nat × Nat)
  fabric    : List (Nat × Word)
  colls     : List Collective
  cancelled : List Cancelled
  collSeq   : List (Nat × Nat)
  nextColl  : Nat
  ctl       : Control
  ckpt      : Option Checkpoint
  slotA     : List Byte
  slotB     : List Byte
  fusedMin  : Word
  svn       : Word
  measured  : List Byte
  bootStat  : Nat
  boot      : Option Nat
  loaded    : Bool
  checking  : Option Nat
  nonce     : Option (List Byte)
  firmware  : Bool
  cap       : Word
  capNext   : Word
  telemSeq  : Word
  telem     : List (Nat × Word)
  energy    : Word
  request   : Option (List Byte)
  thexo     : List Group
  deriving DecidableEq, Repr

/-- No aperture (R94). -/
def Aperture.reset : Aperture := ⟨false, 0, 0⟩

/-- The header of no clause. -/
def blankHeader : Header := ⟨0, false, 0, false, 0, 0, 0, false, false⟩

/-- A free split entry (R361). -/
def Split.free : Split := ⟨false, .running, .running, 0, 0, 15, 0, blankHeader, [], 0, [], none, none, 0⟩

/-- The hidden trap state before any trap (assumption 6). -/
def Hidden.none : Hidden := ⟨Aperture.reset, 0, Option.none, 0⟩

/-- A group with every register at its creation value (R89), before its launch or spawn fills in the rest. -/
def Group.blank : Group where
  grid := 0
  gid := 0
  serial := 0
  team := 0
  role := .vector
  child := false
  parent := none
  launchIdx := 0
  core := 0
  slot := 0
  status := .running
  priv := false
  pc := 0
  s := []
  v := []
  q := []
  p := []
  a := []
  flagSoft := 0
  flagCount := []
  k := []
  rnd := 1
  tanw := 0
  dplane := 0
  dstride := 0
  srseed := 0
  cring := 0
  ulivec := 0
  savearea := 0
  prdeadline := 250000
  drawid := 0
  trapcause := 0
  trappc := 0
  traplanes := 0
  trapaddr := 0
  keysel := 0
  draws := 0
  alloc := 0
  laneQ := []
  handlerQ := []
  past := []
  cleared := []
  splits := [Split.free, Split.free, Split.free, Split.free]
  hsplit := Split.free
  laneOps := []
  scalarOps := []
  nextOp := 0
  handler := false
  hidden := Hidden.none
  mismatch := []
  xfererr := none
  preempt := false
  intPending := false
  intCycle := none
  intState := false
  intReturn := 0
  due := false
  store := none
  late := []
  resume := none
  barrier := 0
  arrived := false
  dropped := 0
  noRing := false
  recordNo := none
  wait := .none
  waitMark := 0
  waitOp := 0
  age := 0
  hold := []
  frame := none
  placedAt := 0
  cycleMin := 0

/-- A performance counter at reset (R386). -/
def Perf.reset : Perf := ⟨0, false, 0, 0, 0⟩

/-- A core at reset. -/
def Core.reset : Core := ⟨[], [], [], 0, [], [], [], [], none, [], [], []⟩

/-- A die at reset: no record, no cached translation or record, no region, every counter 0. -/
def Die.reset : Die := ⟨[], [], 0, 0, [], [], [], [], [], [], []⟩

/-- The engine of a newly placed team (R188): S is BF16 +0 with no scales, in the primal and in each tangent tile. -/
def Engine.reset (width : Nat) : Engine :=
  ⟨List.replicate (width + 1) ⟨1, 32, 128, 128, [], [], []⟩, false, none, false, false, false, 0, [], []⟩

/-- A launch record with every field 0, for a grid that does not exist. -/
def Record.blank : Record where
  scalarBase := 0
  laneBase := 0
  shapeBase := 0
  shapes := 0
  entry := 0
  trapVec := 0
  teams := 0
  arg := 0
  seed := 0
  groups := 0
  copies := 0
  matrices := 0
  width := 0
  vecBudget := 0
  matBudget := 0
  copyBudget := 0
  tiles := 0
  priority := 0
  system := false
  dies := 0
  scratch := 0
  counterA := none
  counterB := none
  rnd := 1
  dplane := 0
  dstride := 0
  srseed := 0
  cring := 0
  ulivec := 0
  savePool := 0
  saveBytes := 0
  status := 0
  regions := []
  rings := []

/-- A grid from its record. -/
def Grid.ofRecord (r : Record) (launcher : Option Nat) (die order : Nat) : Grid where
  record := r
  launcher := launcher
  priority := r.priority
  die := die
  entered := false
  reached := false
  eligible := none
  order := order
  nextTeam := 0
  children := 32 * r.teams
  nfcount := 0
  lost := false
  noStatus := false
  aborted := 0
  retired := 0
  reason := 0
  waiting := none

/-- A grid that does not exist. -/
def Grid.blank : Grid := Grid.ofRecord Record.blank none 0 0

/-- A team with nothing in it. -/
def Team.blank : Team where
  grid := 0
  index := 0
  core := 0
  placed := false
  tiles := 0
  width := 0
  w := 0
  regions := []
  scratch := []
  offsets := []
  z := []
  engine := Engine.reset 0
  rings := []
  ringOps := []
  strmDone := []
  strmOut := []
  nextOp := 0
  request := none
  saved := none
  hidden := 0
  placedAt := 0

/-- The windows at reset (R394, R397). -/
def Control.reset : Control := ⟨0, false, false, false, 0, 0, 0, 0, 0, [], 0, 0, 0, 0, 0, 40⟩

/-- The physical address of the boot block: the start of die 0's Thexo area (R409). -/
def bootBlock : Nat := 0x2FC0000000

/-- What a byte of memory reads as before anything has written it: 0 (R250, R409; for host and fabric memory
assumption 3), but for the boot block, whose status is 1 and whose other fields are the running image's (R410). -/
def resetByte (a : Nat) : Byte :=
  if a < bootBlock ∨ bootBlock + 0x50 ≤ a then 0
  else if a < bootBlock + 8 then (if a = bootBlock then 1 else 0)
  else (bootBytes resetImage Config.fusedMinimum).getD (a - bootBlock - 8) 0

/-- The memory's canonical form: addresses strictly rising, no entry equal to what its address reads as unlisted. -/
abbrev Memory.wf (m : List Host.Cell) : Prop := Assoc.canonical resetByte m = true

/-- The Basith dispatcher's grid, which Thexo firmware places at reset (R32): a system grid of one team on core 0. Its record,
as far as R32 and R99 leave it open, is the model's (assumption 46). -/
def dispatcherGrid : Grid :=
  { Grid.ofRecord { Record.blank with teams := 1, groups := 1, system := true, dies := 1, priority := 3 } none 0 0 with
    entered := true
    reached := true
    eligible := some 0
    nextTeam := 1 }

/-- The dispatcher's team (R32). -/
def dispatcherTeam : Team := { Team.blank with placed := true }

/-- The dispatcher's group (R32, R99): PRIV is 1, and its stream waits for requests, which DISPATCH_REQUEST serves (R398). -/
def dispatcherGroup : Group := { Group.blank with priv := true, wait := .dispatch }

/-- The L2 slices of a die (R11). -/
def sliceCount : Nat := 384

/-- The core SRAM windows that firmware configures (R236, R408): of each core, the units of 64 KiB, at most seven of its eight, since
it keeps 32 KiB for L1 (R240). -/
def sramWindows : List (Nat × Nat) :=
  (List.range 768).filterMap fun c => if Config.sramWindow c % 8 = 0 then none else some (c, Config.sramWindow c % 8)

/-- The L2 slices that firmware configures as windows (R236, R408). -/
def l2Windows : List (Nat × Bool) :=
  (List.range (4 * sliceCount)).filterMap fun i => if Config.l2Window (i / sliceCount) (i % sliceCount) then some (i, true) else none

/-- The Thexo management cores, all on die 0 (R11): what firmware does on them stands as events (R403, R408). -/
def managementCores : Nat := 4

/-- A Thexo management core's scalar stream (R11, R99): PRIV is 1; what firmware runs on it stands as events (assumption 46). -/
def managementStream : Group := { Group.blank with priv := true }

/-- The device at the end of step 4 of R408: every item at its reset value (R409). -/
def State.reset : State where
  tick := 0
  free := 0
  cycle := 0
  cur := ⟨0, none⟩
  core := 0
  issue := []
  ready := []
  inputs := []
  outputs := []
  mem := []
  tags := [(bootBlock / 128, 0)]
  l2 := []
  windows := sramWindows
  l2windows := l2Windows
  dies := []
  cores := []
  grids := [(0, dispatcherGrid)]
  teams := [(0, dispatcherTeam)]
  groups := [(0, dispatcherGroup)]
  nextGrid := 1
  stamp := 0
  depCtrs := []
  keys := []
  incs := []
  links := []
  fabric := []
  colls := []
  cancelled := []
  collSeq := []
  nextColl := 0
  ctl := Control.reset
  ckpt := none
  slotA := Config.flashImage false
  slotB := Config.flashImage true
  fusedMin := Config.fusedMinimum
  svn := BitVec.ofNat 64 (imageSvn resetImage.2)
  measured := fixedBytes 48 (measurement resetImage.2)
  bootStat := 1
  boot := none
  loaded := false
  checking := none
  nonce := none
  firmware := true
  cap := 3400000
  capNext := 3400000
  telemSeq := 0
  telem := []
  energy := 0
  request := none
  thexo := List.replicate managementCores managementStream

end Sys2Proof.Machine
end

