-- ==== Sys2Proof/Machine/Regs.lean ====
section
/-! DEFINITION. Reading and writing the state's parts by name: groups, teams, grids, cores, dies, and the registers of
a group with the special behaviour of S0 and P0 (R64, R89, R93), flags (R97) and the waits on outstanding results
(R91). -/

namespace Sys2Proof.Machine

/-- The key of a group or a team: its grid and its number within it (R100). -/
def keyOf (grid n : Nat) : Nat := grid * 2 ^ 64 + n

/-- The grid of a key. -/
def gridOfKey (k : Nat) : Nat := k / 2 ^ 64

/-- The key of a group. -/
def Group.key (g : Group) : Nat := keyOf g.grid g.serial

/-- The key of a group's team. -/
def Group.teamKey (g : Group) : Nat := keyOf g.grid g.team

/-- Cores of a cluster, which share one random generator (R11). -/
def clusterCores : Nat := 12

/-- The cluster of a core, numbered over the package: 16 on each die (R11). -/
def clusterOf (core : Nat) : Nat := core / clusterCores

namespace State

/-- The group with key `k`. -/
def groupAt (s : State) (k : Nat) : Group := (Assoc.find? s.groups k).getD Group.blank

/-- The group with key `k` becomes `g`. -/
def putGroup (s : State) (k : Nat) (g : Group) : State := { s with groups := Assoc.put s.groups k g }

/-- The group whose stream issues. -/
def group (s : State) : Group := s.groupAt s.cur.key

/-- The issuing group becomes `g`. -/
def setGroup (s : State) (g : Group) : State := s.putGroup s.cur.key g

/-- The group with key `k`, if it exists, changed by `f`. -/
def modGroup (s : State) (k : Nat) (f : Group → Group) : State := { s with groups := Assoc.modify s.groups k f }

/-- The grid numbered `n`. -/
def gridAt (s : State) (n : Nat) : Grid := (Assoc.find? s.grids n).getD Grid.blank

/-- The grid numbered `n` becomes `x`. -/
def putGrid (s : State) (n : Nat) (x : Grid) : State := { s with grids := Assoc.put s.grids n x }

/-- The grid numbered `n`, if it exists, changed by `f`. -/
def modGrid (s : State) (n : Nat) (f : Grid → Grid) : State := { s with grids := Assoc.modify s.grids n f }

/-- The team with key `k`. -/
def teamAt (s : State) (k : Nat) : Team := (Assoc.find? s.teams k).getD Team.blank

/-- The team with key `k` becomes `t`. -/
def putTeam (s : State) (k : Nat) (t : Team) : State := { s with teams := Assoc.put s.teams k t }

/-- The team with key `k`, if it exists, changed by `f`. -/
def modTeam (s : State) (k : Nat) (f : Team → Team) : State := { s with teams := Assoc.modify s.teams k f }

/-- The core numbered `c` of the package, 0 to 767. -/
def coreAt (s : State) (c : Nat) : Core := (Assoc.find? s.cores c).getD Core.reset

/-- The core numbered `c` becomes `x`. -/
def putCore (s : State) (c : Nat) (x : Core) : State := { s with cores := Assoc.put s.cores c x }

/-- The die numbered `d`. -/
def dieAt (s : State) (d : Nat) : Die := (Assoc.find? s.dies d).getD Die.reset

/-- The die numbered `d` becomes `x`. -/
def putDie (s : State) (d : Nat) (x : Die) : State := { s with dies := Assoc.put s.dies d x }

/-- Every die changed by `f`: the four exist whether listed or not. -/
def modDies (s : State) (f : Die → Die) : State :=
  (List.range 4).foldl (fun s d => s.putDie d (f (s.dieAt d))) s

/-- The issuing group's grid. -/
def grid (s : State) : Grid := s.gridAt s.group.grid

/-- The issuing group's team. -/
def team (s : State) : Team := s.teamAt s.group.teamKey

end State

/-- The die of a core (R11). -/
def dieOfCore (core : Nat) : Nat := core / 192

/-- The groups of a team. -/
def State.teamGroups (s : State) (t : Nat) : List (Nat × Group) := s.groups.filter fun p => p.2.teamKey == t

/-- The groups of a core. -/
def State.coreGroups (s : State) (c : Nat) : List (Nat × Group) := s.groups.filter fun p => p.2.core == c

/-- A performance counter's event happens `n` times on a core in a cycle, for a grid (R386, R391). -/
def Core.perfEvent (c : Core) (cycle event grid n : Nat) : Core :=
  { c with perf := Assoc.mapVals c.perf fun _ p =>
      if p.event = event ∧ p.since ≤ cycle ∧ (!p.filter || p.grid = grid) then { p with count := p.count + BitVec.ofNat 64 n } else p }

/-- The same, in the state. -/
def State.perfEvent (s : State) (core event grid n : Nat) : State :=
  { s with cores := Assoc.modify s.cores core fun c => c.perfEvent s.cycle.toNat event grid n }

namespace Group

/-- S[n]; S0 reads zero (R64). -/
def readS (g : Group) (n : Nat) : Word := if n = 0 then 0 else Assoc.get 0 g.s n

/-- A lane program of the group is queued or runs (R312). -/
def lanesQueued (g : Group) : Bool := !g.laneQ.isEmpty || !g.handlerQ.isEmpty

/-- What a write of the scalar stream replaces is noted while a lane instruction might still read it (R69). -/
def note (g : Group) (x : Older) : Group := { g with past := if g.lanesQueued then g.past ++ [x] else g.past }

/-- S[n] ← v; a write to S0 is discarded (R64). -/
def writeS (g : Group) (n : Nat) (v : Word) : Group :=
  if n = 0 then g else { g.note (.s n (Assoc.get 0 g.s n)) with s := Assoc.set 0 g.s n v }

/-- Vn, or the shadow Vn.dk of plane k. -/
def readV (g : Group) (plane n : Nat) : VecReg := Assoc.get 0 g.v (plane * 512 + n)

/-- Vn ← v, or Vn.dk ← v. -/
def writeV (g : Group) (plane n : Nat) (v : VecReg) : Group := { g with v := Assoc.set 0 g.v (plane * 512 + n) v }

/-- Qn, or Qn.dk. -/
def readQ (g : Group) (plane n : Nat) : ScaleReg := Assoc.get 0 g.q (plane * 512 + n)

/-- Qn ← v, or Qn.dk ← v. -/
def writeQ (g : Group) (plane n : Nat) (v : ScaleReg) : Group := { g with q := Assoc.set 0 g.q (plane * 512 + n) v }

/-- Pn; P0 reads all ones (R93). -/
def readP (g : Group) (n : Nat) : Mask := if n = 0 then BitVec.allOnes 32 else Assoc.get 0 g.p n

/-- Pn ← v; P0 ignores every write (R93). -/
def writeP (g : Group) (n : Nat) (v : Mask) : Group := if n = 0 then g else { g with p := Assoc.set 0 g.p n v }

/-- An. -/
def readA (g : Group) (n : Nat) : Aperture := Assoc.get Aperture.reset g.a n

/-- An ← v. -/
def writeA (g : Group) (n : Nat) (v : Aperture) : Group := { g with a := Assoc.set Aperture.reset g.a n v }

/-- A group with a noted write taken back. -/
def undo (g : Group) (x : Older) : Group :=
  match x with
  | .s n v => { g with s := Assoc.set 0 g.s n v }
  | .a n x => { g with a := Assoc.set Aperture.reset g.a n x }
  | .rnd v => { g with rnd := v }
  | .dplane v => { g with dplane := v }
  | .dstride v => { g with dstride := v }
  | .srseed v => { g with srseed := v }
  | .drawid v => { g with drawid := v }

/-- The group as a lane instruction sees it (R43, R69, R132, R277): of each of the scalar stream's writes that no edge orders
before it, it sees the new value or the old one. -/
def seen (g : Group) (tick floor : Nat) : Group :=
  (g.past.drop floor).zipIdx.foldr (fun x g => if Config.seesOld tick x.2 then g.undo x.1 else g) g

/-- The edge from the scalar stream's position now. -/
def edgeHere (g : Group) : Edge := ⟨g.past.length, g.nextOp⟩

/-- The scalar accesses that an edge orders before it have completed. -/
def edgeMet (g : Group) (e : Edge) : Bool := g.scalarOps.all fun o => decide (e.op ≤ o.id)

/-- Kn. -/
def readK (g : Group) (n : Nat) : Word := Assoc.get 0 g.k n

/-- Kn ← v. -/
def writeK (g : Group) (n : Nat) (v : Word) : Group := { g with k := Assoc.set 0 g.k n v }

/-- The outstanding count of Fn (R97). -/
def flagCnt (g : Group) (n : Nat) : Nat := Assoc.get 0 g.flagCount n

/-- Fn reads set: its software bit or its count is not zero (R97). -/
def flagSet (g : Group) (n : Nat) : Bool := g.flagSoft.getLsbD n || g.flagCnt n != 0

/-- Fn reads clear. -/
def flagClear (g : Group) (n : Nat) : Bool := !g.flagSet n

/-- An operation names flag `f` at its issue (R97). -/
def raiseFlag (g : Group) (f : Option Nat) : Group :=
  match f with
  | none => g
  | some n => { g with flagCount := Assoc.set 0 g.flagCount n (g.flagCnt n + 1) }

/-- The operation completes (R97). -/
def dropFlag (g : Group) (f : Option Nat) : Group :=
  match f with
  | none => g
  | some n => { g with flagCount := Assoc.set 0 g.flagCount n (g.flagCnt n - 1) }

/-- A further operation would raise the count of its flag above 64 (R97). -/
def flagFull (g : Group) (f : Option Nat) : Bool :=
  match f with
  | none => false
  | some n => 64 ≤ g.flagCnt n

/-- The names `mask` bits of flags read clear: all of them, or with `any` at least one; the mask 0 waits for nothing
(R127). -/
def flagsReady (g : Group) (mask : BitVec 12) (any : Bool) : Bool :=
  let named := (List.range 12).filter fun n => mask.getLsbD n
  named.isEmpty || (if any then named.any g.flagClear else named.all g.flagClear)

/-- The scalar stream waits: an outstanding scalar access will write one of these S registers, or holds the stream
(R91, R214). -/
def heldS (g : Group) (regs : List Nat) : Bool :=
  g.scalarOps.any fun o => o.far.isSome || o.dest.any fun d => regs.contains d.1

/-- The scalar stream moves on by `n` bytes (R64). -/
def advance (g : Group) (n : Nat) : Group := { g with pc := g.pc + BitVec.ofNat 56 n, wait := .none }

/-- The tangent width of the split whose stream issues: its clause's (R174). -/
def splitAt (g : Group) (i : Nat) : Split :=
  if i = 4 then g.hsplit else (g.splits[i]?).getD Split.free

/-- Split `i` becomes `x`; 4 is the handler lane program's split. -/
def putSplit (g : Group) (i : Nat) (x : Split) : Group :=
  if i = 4 then { g with hsplit := x } else { g with splits := g.splits.set i x }

/-- The frame of a group, allocated now if it has none (R25, R363). -/
def frameOr (g : Group) (cycle : Nat) : Frame :=
  match g.frame with
  | some f => f
  | none => ⟨g.parent, 0, false, cycle, 0, [], none, none⟩

/-- A group is an evicted continuation: its registers stand in its team's eviction region (R306). -/
def evicted (g : Group) : Bool :=
  match g.frame with
  | some f => f.evicted.isSome
  | none => false

/-- The outstanding-children count (R363). -/
def children (g : Group) : Nat :=
  match g.frame with
  | some f => f.count
  | none => 0

/-- The GID that a ticket carries is DRAWID; the seed is the grid's XOR SRSEED (R57). -/
def seedOf (g : Group) (grid : Grid) : Word := grid.record.seed ^^^ g.srseed

end Group

/-- The rounding mode code and the flush bit of RND (R42, R44). -/
def rndMode (rnd : Word) : Nat := (rnd.extractLsb' 0 3).toNat

/-- RND.ftz. -/
def rndFtz (rnd : Word) : Bool := rnd.getLsbD 3

/-- The bytes of a sparse byte array whose unlisted bytes are 0. -/
def bytesAt (l : List (Nat × Byte)) (a n : Nat) : List Byte := (List.range n).map fun i => Assoc.get 0 l (a + i)

/-- Consecutive bytes written to a sparse byte array. -/
def setBytes (l : List (Nat × Byte)) (a : Nat) (bs : List Byte) : List (Nat × Byte) :=
  match bs with
  | [] => l
  | b :: t => setBytes (Assoc.set 0 l a b) (a + 1) t

end Sys2Proof.Machine
end

