-- ==== Sys2Proof/Machine/Memory.lean ====
section
/-! DEFINITION. Memory: bytes by physical address (R234), the L2 slices and the orrery (R242 to R245, R249, R252), the
page-table walk (R355), the leaf rules (R238), the translation caches (R95, R358), L1 with its leases (R240, R241), and the
accesses of a core (R257, R266, R267). -/

namespace Sys2Proof.Machine

/-- The byte at a physical address. -/
def readByte (s : State) (pa : Nat) : Byte := (Assoc.find? s.mem pa).getD (resetByte pa)

/-- The byte at a physical address becomes `b`. -/
def writeByte (s : State) (pa : Nat) (b : Byte) : State :=
  { s with mem := if b = resetByte pa then Assoc.erase s.mem pa else Assoc.put s.mem pa b }

/-- `n` bytes from a physical address. -/
def readBytes (s : State) (pa n : Nat) : List Byte := (List.range n).map fun i => readByte s (pa + i)

/-- Bytes written from a physical address upwards. -/
def writeBytes (s : State) (pa : Nat) (bs : List Byte) : State :=
  match bs with
  | [] => s
  | b :: t => writeBytes (writeByte s pa b) (pa + 1) t

/-- A little-endian number of `n` bytes at a physical address (R4). -/
def readNat (s : State) (pa n : Nat) : Nat := Bits.leNat (readBytes s pa n)

/-- A little-endian number written at a physical address. -/
def writeNat (s : State) (pa n x : Nat) : State := writeBytes s pa (Bits.leBytes n x)

/-- Physical address bits [51:50] (R234): 0 local HBM, 1 SRAM window, 2 host, 3 fabric. -/
def spaceOf (pa : Nat) : Nat := Bits.field pa 50 2

/-- The end of local HBM: 768 GiB. -/
def hbmEnd : Nat := 768 * 2 ^ 30

/-- The die on which a local HBM address lies (R235). -/
def homeDie (pa : Nat) : Nat := pa / (192 * 2 ^ 30)

/-- The offset of a local HBM address on its die (R235). -/
def dieOffset (pa : Nat) : Nat := pa % (192 * 2 ^ 30)

/-- The HBM stack of a local HBM address, numbered 0 to 11 (R235). -/
def stackOf (pa : Nat) : Nat := 3 * homeDie pa + dieOffset pa / 512 % 3

/-- The offset of a local HBM address within its stack (R235). -/
def stackOffset (pa : Nat) : Nat := dieOffset pa / 1536 * 512 + dieOffset pa % 512

/-- Sets of an L2 slice: 256 KiB in 16-way sets of 128 B lines (R233, R242). -/
def sliceSets : Nat := 256 * 1024 / 128 / 16

/-- The home L2 slice of a local HBM address on its die (R235). -/
def homeSlice (pa : Nat) : Nat := dieOffset pa / 128 % sliceCount

/-- The near-bank index of a local HBM address (R235). -/
def nearBank (pa : Nat) : Nat :=
  let y := dieOffset pa
  192 * homeDie pa + 64 * (y / 512 % 3) + y / 1536 % 64

/-- A space-01 address names a configured window (R234, R236). -/
def windowOk (s : State) (pa : Nat) : Bool :=
  let die := Bits.field pa 48 2
  if Bits.bit pa 47 then
    let slice := Bits.field pa 38 9
    slice < sliceCount && Bits.field pa 18 20 == 0 && Assoc.get false s.l2windows (die * sliceCount + slice)
  else
    let core := Bits.field pa 38 9
    let units := Assoc.get 0 s.windows (die * 192 + core)
    core < 192 && Bits.field pa 19 19 == 0 && 512 * 1024 ≤ Bits.field pa 0 19 + units * 65536

/-- R234 refuses the physical address. -/
def frameFault (s : State) (pa : Nat) : Bool :=
  match spaceOf pa with
  | 0 => hbmEnd ≤ pa % 2 ^ 50
  | 1 => !windowOk s pa
  | 2 => false
  | _ => Bits.field pa 40 10 == Config.deviceNumber.toNat

/-- A leaf entry's fields (R354). -/
def leafMig (e : Word) : Nat := Bits.field e.toNat 60 2
/-- The coherence class: 0 NC, 1 DC, 2 SC. -/
def leafClass (e : Word) : Nat := Bits.field e.toNat 58 2
/-- The memory type: 0 normal, 1 write-combining, 2 device, 3 strongly-ordered. -/
def leafType (e : Word) : Nat := Bits.field e.toNat 56 2
/-- The on-chip home. -/
def leafHome (e : Word) : Nat := Bits.field e.toNat 54 2
/-- The key index. -/
def leafKey (e : Word) : Nat := Bits.field e.toNat 48 6
/-- The frame: physical address bits [51:16]. -/
def leafFrame (e : Word) : Nat := Bits.field e.toNat 12 36
/-- Copy-on-write. -/
def leafCow (e : Word) : Bool := e.getLsbD 11
/-- Compression enable. -/
def leafCmp (e : Word) : Bool := e.getLsbD 10
/-- Writable. -/
def leafW (e : Word) : Bool := e.getLsbD 9
/-- Lane-executable. -/
def leafLx (e : Word) : Bool := e.getLsbD 8
/-- Scalar-executable. -/
def leafSx (e : Word) : Bool := e.getLsbD 7
/-- Accessed. -/
def leafA (e : Word) : Bool := e.getLsbD 6
/-- Dirty. -/
def leafD (e : Word) : Bool := e.getLsbD 5

/-- A leaf that breaks a row of R238, or names a frame that R234 refuses. -/
def leafProt (s : State) (e : Word) (pa : Nat) (write : Bool) : Bool :=
  let space := spaceOf pa
  let home := leafHome e
  let cls := leafClass e
  frameFault s pa || cls == 3
    || (cls == 1 && 2 ≤ space) || (cls == 2 && space < 2)
    || (leafCmp e && (space != 0 || home == 3))
    || (home == 1 && (space != 1 || Bits.bit pa 47)) || (home == 2 && (space != 1 || !Bits.bit pa 47))
    || ((home == 0 || home == 3) && space == 1)
    || (2 ≤ leafType e && home == 0)
    || (leafKey e != 0 && (leafMig e == 2 || (leafMig e == 0 && space != 0)))
    || ((leafLx e || leafSx e) && space != 0)
    || (write && !leafW e && !leafCow e)

/-! L2 (R233, R235, R242, R249). A line's bytes are those of the memory it caches: the orrery lets no die read another's stale copy,
so a slice is held as the lines that it holds, with what their write-back needs. -/

/-- The slice, on whichever die, that may hold the line of an address (R235, R242). -/
def sliceOf (pa : Nat) : Nat :=
  if spaceOf pa = 0 then homeSlice pa else pa % 2 ^ (if spaceOf pa = 3 then 40 else 50) / 128 % sliceCount

/-- The set of its slice that a line belongs to, which the spec leaves open (assumption 62). -/
def sliceSet (pa : Nat) : Nat := pa % 2 ^ 50 / 128 / sliceCount % sliceSets

/-- The slice is an SRAM window and caches nothing (R236). -/
def sliceWindow (s : State) (die slice : Nat) : Bool := Assoc.get false s.l2windows (die * sliceCount + slice)

/-- The place in State.l2 of a die's copy of a local HBM line: the home die's is the line's number. -/
def l2Key (die pa : Nat) : Nat := pa / 128 + 2 ^ 45 * ((die + 4 - homeDie pa % 4) % 4)

/-- The line, as an address, of a place in State.l2. -/
def keyAddr (key : Nat) : Nat := key % 2 ^ 45 * 128

/-- The die that holds the line of a place in State.l2. -/
def keyDie (key : Nat) : Nat := (homeDie (keyAddr key) + key / 2 ^ 45) % 4

/-- The 128 bytes of a line as a number of bytes. -/
def lineOf (bs : List Byte) : VecReg := BitVec.ofNat 1024 (Bits.leNat bs)

/-- L2 writes a line back under the tag that its compression bit and content choose, and holds it clean (R249, R252). -/
def writeBackLine (s : State) (key : Nat) : State :=
  match Assoc.find? s.l2 key with
  | some l =>
    if l.dirty then
      let tag := if l.cmp then Compress.lineTag (lineOf (readBytes s (keyAddr key) 128)) else 0
      { s with tags := Assoc.set 1 s.tags (key % 2 ^ 45) tag, l2 := Assoc.put s.l2 key { l with dirty := false } }
    else s
  | none => s

/-- A slice gives a line up: a dirty one goes back first. -/
def dropLine (s : State) (key : Nat) : State :=
  let s := writeBackLine s key
  { s with l2 := Assoc.erase s.l2 key }

/-- The ways of a set (R242). -/
def sliceWays : Nat := 16

/-- A die's slice has room in a line's set: a full set first gives up a line, the lowest of local HBM before the lowest copy
(assumption 62). -/
def makeRoom (s : State) (die pa : Nat) : State :=
  let same (a : Nat) : Bool := sliceOf a == sliceOf pa && sliceSet a == sliceSet pa
  let own := s.l2.filter fun l => keyDie l.1 == die && same (keyAddr l.1)
  let d := s.dieAt die
  let copies := d.ncLines.filter fun l => same (l.1 * 128)
  if own.length + copies.length < sliceWays then s
  else match own, copies with
    | l :: _, _ => dropLine s l.1
    | [], c :: _ => s.putDie die { d with ncLines := Assoc.erase d.ncLines c.1 }
    | [], [] => s

/-- A die's slice takes a line of local HBM, after it has made room. A slice that is a window takes none: an access of the line goes
straight to memory, and a write leaves it under tag 0 (assumption 78). -/
def fillLine (s : State) (die pa : Nat) (l : L2Line) : State :=
  if sliceWindow s die (sliceOf pa) then (if l.dirty then { s with tags := Assoc.set 1 s.tags (pa / 128) 0 } else s)
  else
    let s := makeRoom s die pa
    { s with l2 := Assoc.put s.l2 (l2Key die pa) l }

/-- The line of an address is held in no slice of the die, and its stored tag is one that is never written: reading it is a
machine check (R249). -/
def badTag (s : State) (die pa : Nat) : Bool :=
  spaceOf pa == 0 && (Assoc.find? s.l2 (l2Key die pa)).isNone && decide (8 ≤ (Assoc.get 1 s.tags (pa / 128)).toNat)

/-- An address in each line that `n` bytes touch. -/
def lineAddrs (pa n : Nat) : List Nat :=
  (List.range (n / 128 + 2)).filterMap fun i =>
    let a := if i = 0 then pa else (pa / 128 + i) * 128
    if a < pa + n then some a else none

/-- A line of some bytes raises a machine check when the die reads them (R249). -/
def badTags (s : State) (die pa n : Nat) : Bool := (lineAddrs pa n).any (badTag s die)

/-! The orrery (R243 to R245, R376, R377). -/

/-- A region covers a line. -/
def Region.covers (r : Region) (line : Nat) : Bool := r.line ≤ line && line < r.line + 2 ^ r.j

/-- Two regions overlap. -/
def Region.overlaps (r : Region) (line j : Nat) : Bool := r.line < line + 2 ^ j && line < r.line + 2 ^ r.j

/-- The largest region around a line that overlaps no entry (R376). -/
def newRegionSize (rs : List Region) (line : Nat) : Nat :=
  (((List.range 10).reverse).find? fun j => !(rs.any fun r => r.overlaps (line / 2 ^ j * 2 ^ j) j)).getD 0

/-- The holder bit of a die. -/
def dieBit (d : Nat) : BitVec 4 := BitVec.ofNat 4 (2 ^ d)

/-- The holders of a region other than the requester, unless that is the home (R244). -/
def Region.others (r : Region) (home requester : Nat) : BitVec 4 :=
  if requester = home then r.holders else r.holders &&& ~~~(dieBit requester)

/-- The entry that a request leaves for its half (R244): a write takes it, a read downgrades it. -/
def resolveRegion (r : Region) (home requester : Nat) (write : Bool) (now : Nat) : List Region :=
  if write then
    if requester = home then [] else [{ r with st := .m, holders := dieBit requester, quiet := now, age := now }]
  else
    let hs := if requester = home then r.holders else r.holders ||| dieBit requester
    [{ r with st := .s, holders := hs, quiet := now, age := now }]

/-- A request for a line of a home die conflicts with an entry (R244). -/
def conflicts (r : Region) (home requester : Nat) (write : Bool) : Bool :=
  r.others home requester != 0 && (write || r.st == .e || r.st == .m)

/-- What some dies' slices do with their lines of a region: they write the dirty ones back, and invalidate them or keep them
clean (R243 to R245). -/
structure Flush where
  region : Region
  dies   : BitVec 4
  drop   : Bool
  deriving DecidableEq, Repr

/-- Entries of a die's directory (R245). -/
def directorySize : Nat := 32768

/-- The entry that a directory gives up when it has no room for `n` more, the least recently used (R245). -/
def victim (rs : List Region) (n : Nat) : Option Region :=
  if rs.length + n ≤ directorySize then none
  else
    let oldest := rs.foldl (fun m r => min m r.age) (rs.foldl (fun m r => max m r.age) 0)
    rs.find? fun r => r.age == oldest

/-- The orrery of die `home` serves a request for one of its lines (R243, R244, R376): its entries then, and what holders do
first. -/
def orreryServe (rs : List Region) (home requester line : Nat) (write : Bool) (now : Nat) : List Region × List Flush :=
  match rs.find? fun r => r.covers line with
  | none =>
    if requester = home then (rs, [])
    else
      let gone := (victim rs 1).toList
      let rs := rs.filter fun x => !gone.contains x
      let j := newRegionSize rs line
      (rs ++ [⟨line / 2 ^ j * 2 ^ j, j, if write then .m else .e, dieBit requester, now, now⟩],
        gone.map fun r => ⟨r, r.holders, true⟩)
  | some r =>
    let rest := rs.filter fun x => x != r
    if conflicts r home requester write then
      let flush (h : Region) : List Flush := [⟨h, h.others home requester, write⟩]
      if r.j = 0 then (rest ++ resolveRegion r home requester write now, flush r)
      else
        let half := r.j - 1
        let lo : Region := { r with j := half, quiet := now }
        let hi : Region := { r with j := half, line := r.line + 2 ^ half, quiet := now }
        let (mine, other) := if lo.covers line then (lo, hi) else (hi, lo)
        let resolved := resolveRegion mine home requester write now
        let gone := (victim rest (resolved.length + 1)).toList
        ((rest.filter fun x => !gone.contains x) ++ resolved ++ [other],
          flush mine ++ gone.map fun r => ⟨r, r.holders, true⟩)
    else if requester = home then (rs, [])
    else if write then (rest ++ [{ r with st := .m, holders := dieBit requester, age := now }], [])
    else (rest ++ [{ r with holders := r.holders ||| dieBit requester, age := now }], [])

/-- The lines of a home die's region that some dies hold are written back, and dropped or kept (R243 to R245). -/
def runFlush (s : State) (home : Nat) (f : Flush) : State :=
  let mine := s.l2.filter fun l =>
    let a := keyAddr l.1
    homeDie a == home && f.region.covers (dieOffset a / 128) && f.dies.getLsbD (keyDie l.1)
  mine.foldl (fun s l => if f.drop then dropLine s l.1 else writeBackLine s l.1) s

/-- A request of die `die` for the line of a local HBM address reaches the orrery of its home (R243). The home's own slice gives
up a line that another die takes to write it. -/
def orreryTouch (s : State) (die pa : Nat) (write : Bool) : State :=
  let home := homeDie pa
  let r := orreryServe (s.dieAt home).orrery home die (dieOffset pa / 128) write s.cycle.toNat
  let s := r.2.foldl (fun s f => runFlush s home f) s
  let s := if write && die != home && (Assoc.find? s.l2 (pa / 128)).isSome then dropLine s (pa / 128) else s
  let d := s.dieAt home
  if r.1 = d.orrery then s else s.putDie home { d with orrery := r.1 }

/-- A die may use the copy that its slice holds without a request: the home's slice serves the home, and another die reads what
it holds, and writes what it alone holds (R242, R243). -/
def ownCopy (s : State) (die pa : Nat) (write : Bool) : Bool :=
  die != homeDie pa && (Assoc.find? s.l2 (l2Key die pa)).isSome &&
    (!write || (s.dieAt (homeDie pa)).orrery.any fun r =>
      r.covers (dieOffset pa / 128) && (r.st == .e || r.st == .m) && r.holders == dieBit die)

/-- A die's access of a line of local HBM goes through its slice (R242, R243); `cmp` is the compression bit that a filled line
takes, and that a written one takes if any (R252). -/
def touchSlice (s : State) (die pa : Nat) (write : Bool) (fill : Bool) (stored : Option Bool) : State :=
  let s := if ownCopy s die pa write then s else orreryTouch s die pa write
  match Assoc.find? s.l2 (l2Key die pa) with
  | none => fillLine s die pa ⟨write, fill⟩
  | some l => if write then { s with l2 := Assoc.put s.l2 (l2Key die pa) ⟨true, stored.getD l.cmp⟩ } else s

/-- The L2 line of an address after an access of a die without a translation (R242, R252): host and fabric accesses and the
walkers' leave the compression bit of a held line, and take a filled line's from its stored tag. -/
def touchFrom (s : State) (die pa : Nat) (write : Bool) : State :=
  if spaceOf pa ≠ 0 then s else touchSlice s die pa write (Assoc.get 1 s.tags (pa / 128) != 0) none

/-- The same, through the line's home slice. -/
def touchRaw (s : State) (pa : Nat) (write : Bool) : State := touchFrom s (homeDie pa) pa write

/-- Bytes written below the translation, as the device's own agents write local HBM (R252). -/
def writeRaw (s : State) (pa : Nat) (bs : List Byte) : State :=
  writeBytes ((lineAddrs pa bs.length).foldl (fun s a => touchRaw s a true) s) pa bs

/-! Translation. -/

/-- A walk for a page no longer waits for a migrating node (R355). -/
def endWalk (s : State) (die va : Nat) : State :=
  let d := s.dieAt die
  let page := va / 65536 * 65536
  if (Assoc.find? d.walks page).isSome then s.putDie die { d with walks := Assoc.erase d.walks page } else s

/-- What a walk ends with (R355). -/
inductive Walk where
  | leaf (e : Word) (at_ level : Nat)
  | prot
  | service (kind level : Nat)
  /-- a node is migrating: the walk re-reads its entry -/
  | waiting (level : Nat)
  /-- a machine check: the translation root names no node (R353), or an entry's line has a reserved tag (R249) -/
  | badRoot
  deriving DecidableEq, Repr

/-- The page size of a leaf at a level (R353). -/
def pageSize (level : Nat) : Nat := 2 ^ (16 + 10 * (3 - level))

/-- R354's rules for a leaf's frame, and R355's reserved bits. -/
def leafShapeOk (e : Word) (level : Nat) : Bool :=
  level != 0 && Bits.field e.toNat 0 5 == 0 && leafFrame e % 2 ^ (10 * (3 - level)) == 0
    && ((leafMig e == 2) == (spaceOf (leafFrame e * 65536) == 3))

/-- The levels of a walk from `node` on (R355). An invalid entry, which has no page size, is met as a 64 KiB page's
(assumption 63). -/
def walkFrom (s : State) (va : Nat) (node : Nat) (levels : List Nat) : Walk :=
  match levels with
  | [] => .prot
  | level :: rest =>
    let at_ := node + 8 * Bits.field va (46 - 10 * level) 10
    let e : Word := BitVec.ofNat 64 (readNat s at_ 8)
    if badTag s (homeDie at_) at_ then .badRoot
    else if !e.getLsbD 63 then .service 1 3
    else if e.getLsbD 62 then
      if !leafShapeOk e level then .prot
      else if leafMig e == 1 || leafMig e == 3 then .service 1 level
      else .leaf e at_ level
    else if level = 3 ∨ Bits.field e.toNat 51 9 ≠ 0 ∨ Bits.field e.toNat 0 12 ≠ 0 then .prot
    else
      let next := Bits.field e.toNat 12 39 * 8192
      match Bits.field e.toNat 60 2 with
      | 0 => if spaceOf next ≠ 0 ∨ hbmEnd ≤ next then .prot else walkFrom s va next rest
      | 1 => .waiting (level + 1)
      | _ => .service 3 (level + 1)

/-- The nodes that a walk from `node` on reaches through resident pointers (R358). -/
def walkNodes (s : State) (va : Nat) (node : Nat) (levels : List Nat) : List NodeEntry :=
  match levels with
  | [] => []
  | level :: rest =>
    let e : Word := BitVec.ofNat 64 (readNat s (node + 8 * Bits.field va (46 - 10 * level) 10) 8)
    let next := Bits.field e.toNat 12 39 * 8192
    if !e.getLsbD 63 || e.getLsbD 62 || level == 3 || Bits.field e.toNat 51 9 != 0 || Bits.field e.toNat 0 12 != 0
        || Bits.field e.toNat 60 2 != 0 || spaceOf next != 0 || decide (hbmEnd ≤ next) then []
    else ⟨level + 1, va / 2 ^ (46 - 10 * level), next⟩ :: walkNodes s va next rest

/-- The translation root (R353). -/
def rootNode (s : State) : Nat := Bits.field s.ctl.ptroot.toNat 13 39 * 8192

/-- A cached node lies on the walk of an address (R358). -/
def NodeEntry.covers (n : NodeEntry) (va : Nat) : Bool := n.prefix_ == va / 2 ^ (56 - 10 * n.level)

/-- Where a die's walk of an address starts: at the lowest node that a node cache holds for it, else at the root (R353,
R358). -/
def walkStart (s : State) (die va : Nat) : Nat × List Nat :=
  let held := (s.dieAt die).nodes.filter fun n => n.covers va && !Config.evicted s.tick 5 n.node
  match [3, 2, 1].findSome? fun l => held.find? fun n => n.level == l with
  | some n => (n.node, (List.range 4).drop n.level)
  | none => (rootNode s, [0, 1, 2, 3])

/-- The addresses of the entries that a walk of an address reads, from where it starts and at the nodes that it reaches. -/
def walkReads (va : Nat) (start : Nat × List Nat) (nodes : List NodeEntry) : List Nat :=
  let entry (node level : Nat) : Nat := node + 8 * Bits.field va (46 - 10 * level) 10
  (start.2.head?.map (entry start.1)).toList ++ nodes.map fun n => entry n.node n.level

/-- A walk of the tables as they stand, from the translation root (R353, R355). -/
def walk (s : State) (va : Nat) : Walk :=
  if spaceOf (rootNode s) ≠ 0 ∨ hbmEnd ≤ rootNode s then .badRoot else walkFrom s va (rootNode s) [0, 1, 2, 3]

/-- A walk by a die's walkers, which may start from a cached node (R355, R358). -/
def walkBy (s : State) (die va : Nat) : Walk :=
  let start := walkStart s die va
  if spaceOf start.1 ≠ 0 ∨ hbmEnd ≤ start.1 then .badRoot else walkFrom s va start.1 start.2

/-- What a translation answers. -/
inductive Xlat where
  | ok (pa : Nat) (leaf : Word)
  | prot
  /-- page service (R215): the record's kind and detail level, and the page or region -/
  | service (kind level base size : Nat)
  /-- the remote device is lost (R360) -/
  | lost (device : Nat)
  /-- the walk waits for a migrating node -/
  | waiting
  /-- a machine check: the translation root names no node (R353), a reserved tag was read (R249), or the region is cut off (R232) -/
  | badRoot
  deriving DecidableEq, Repr

/-- The entry of a list of cached translations that covers a virtual address (R358). -/
def tlbIn (l : List TlbEntry) (va : Nat) : Option TlbEntry := l.find? fun t => t.base ≤ va && va < t.base + t.size

/-- A die's cached translation of a virtual address (R358). -/
def tlbFind (d : Die) (va : Nat) : Option TlbEntry := tlbIn d.tlb va

/-- The incarnation entry of a UALink device (R360). -/
def State.incAt (s : State) (n : Nat) : Incarnation := (Assoc.find? s.incs n).getD ⟨0, false⟩

/-- The device of a space-11 address. -/
def deviceOf (pa : Nat) : Nat := Bits.field pa 40 10

/-- The incarnation number that tags a translation (R358). -/
def incTag (s : State) (pa : Nat) : BitVec 16 := if spaceOf pa = 3 then (s.incAt (deviceOf pa)).num else 0

/-- An entry joins a list of at most `n`, in place of any entry of its page. -/
def tlbPut (l : List TlbEntry) (n : Nat) (e : TlbEntry) : List TlbEntry :=
  e :: (l.filter fun t => !(t.base == e.base && t.size == e.size)).take (n - 1)

/-- A leaf cached in the die's TLB. -/
def cacheLeaf (s : State) (die base size : Nat) (e : Word) : State :=
  let d := s.dieAt die
  s.putDie die { d with tlb := tlbPut d.tlb 8192 ⟨base, size, e, incTag s (leafFrame e * 65536)⟩ }

/-- The walkers' node caches take the nodes that a walk has reached (R358). -/
def cacheNodes (s : State) (die : Nat) (l : List NodeEntry) : State :=
  let d := s.dieAt die
  let fresh := l.filter fun n => !d.nodes.contains n
  if fresh.isEmpty then s
  else s.putDie die { d with nodes := fresh ++ d.nodes.filter fun n => !(fresh.any fun f => f.level == n.level && f.prefix_ == n.prefix_) }

/-- Cached translations that meet a test go, wherever they are held: core and die TLBs and frame runs, and the nodes that meet
another from the node caches (R95, R297, R359). -/
def dropLeaves (s : State) (p : TlbEntry → Bool) (q : NodeEntry → Bool) : State :=
  let s := s.modDies fun d => { d with tlb := d.tlb.filter fun t => !p t, nodes := d.nodes.filter fun n => !q n }
  { s with cores := Assoc.mapVals s.cores fun _ c => { c with
      tlb := c.tlb.filter fun t => !p t
      runs := c.runs.filter fun r => !p r.2 } }

/-- The links between two dies that their traffic takes (R11): one between neighbours, two to the die opposite. -/
def linkRoute (a b : Nat) : List (Nat × Nat) :=
  let link (x y : Nat) : Nat × Nat := (min x y, max x y)
  if a = b then []
  else if a ^^^ b ≠ 3 then [link a b]
  else
    let v := if Config.viaHop a b then a ^^^ 2 else a ^^^ 1
    [link a v, link v b]

/-- The invalidation fan-out of a region of a die has lost one of its holders to a failed link (R232). -/
def Region.cut (r : Region) (s : State) (home : Nat) : Bool :=
  (List.range 4).any fun d => r.holders.getLsbD d && (linkRoute home d).any s.links.contains

/-- An address lies in a region whose fan-out has lost a die: whoever touches it takes a machine check (R232). -/
def cutOff (s : State) (pa : Nat) : Bool :=
  s.links != [] && spaceOf pa == 0 &&
    (s.dieAt (homeDie pa)).orrery.any fun r => r.covers (dieOffset pa / 128) && r.cut s (homeDie pa)

/-- A leaf's answer for `va` in a page at `base`: a machine check, the rows of R238, copy-on-write service, a lost device. -/
def leafAnswer (s : State) (e : Word) (base size va : Nat) (write : Bool) : Xlat :=
  let pa := leafFrame e * 65536 + (va - base)
  if cutOff s pa then .badRoot
  else if leafProt s e pa write then .prot
  else if write && leafCow e then .service 2 0 base size
  else if spaceOf pa = 3 ∧ !(s.incAt (deviceOf pa)).up then .lost (deviceOf pa)
  else .ok pa e

/-- The leaf with the accessed bit and, for a write, the dirty bit set (R355). -/
def markedLeaf (e : Word) (write : Bool) : Word := e ||| 0x40 ||| (if write then 0x20 else 0)

/-- A walk has found a leaf that serves the access: its bits are set at its home, and it is cached (R355, R356, R358). -/
def takeLeaf (s : State) (die va at_ base size : Nat) (e : Word) (write : Bool) : State :=
  let s := endWalk s die va
  let e' := markedLeaf e write
  cacheLeaf (if e' = e then s else writeNat (touchRaw s at_ true) at_ 8 e'.toNat) die base size e'

/-- A walk meets a migrating node (R355): it waits, or after its time goes to table-node service. -/
def awaitNode (s : State) (die va level : Nat) : Xlat × State :=
  let d := s.dieAt die
  let page := va / 65536 * 65536
  let size := 2 ^ (56 - 10 * level)
  match Assoc.find? d.walks page with
  | some none => (.service 3 level (va / size * size) size, s)
  | some (some _) => (.waiting, s)
  | none => (.waiting, s.putDie die { d with walks := Assoc.put d.walks page (some s.cycle.toNat) })

/-- What a walk answers to an access, and its effects (R355, R356, R358): it reads the entries through L2 (R251), and a leaf's bits
are set before the leaf's rules are looked at. -/
def translateByWalk (s : State) (die va : Nat) (write : Bool) : Xlat × State :=
  let start := walkStart s die va
  let w := walkBy s die va
  let nodes := walkNodes s va start.1 start.2
  let s := (walkReads va start nodes).foldl (fun s a => touchFrom s die a false) (cacheNodes s die nodes)
  match w with
  | .leaf e at_ level =>
    let size := pageSize level
    let base := va / size * size
    (leafAnswer s (markedLeaf e write) base size va write, takeLeaf s die va at_ base size e write)
  | .prot => (.prot, endWalk s die va)
  | .service 1 level => (.service 1 level (va / pageSize level * pageSize level) (pageSize level), endWalk s die va)
  | .service kind level =>
    let size := 2 ^ (56 - 10 * level)
    (.service kind level (va / size * size) size, endWalk s die va)
  | .waiting level => awaitNode s die va level
  | .badRoot => (.badRoot, s)

/-- A translation from die `die`: a cached leaf, or a walk (R355, R356, R358). A write through a cached leaf whose dirty bit
is clear walks again, and so does an access whose entry has been replaced. -/
def translate (s : State) (die va : Nat) (write : Bool) : Xlat × State :=
  match tlbFind (s.dieAt die) va with
  | some t =>
    if (write && !leafD t.leaf) || Config.evicted s.tick 2 t.base then translateByWalk s die va write
    else (leafAnswer s t.leaf t.base t.size va write, s)
  | none => translateByWalk s die va write

/-- A core's TLB takes the leaf that its die has cached for an address (R358). -/
def cacheCore (s : State) (core va : Nat) : State :=
  match tlbFind (s.dieAt (dieOfCore core)) va with
  | some t =>
    let c := s.coreAt core
    s.putCore core { c with tlb := tlbPut c.tlb 128 t }
  | none => s

/-- A translation from a core: its own TLB, or its die's (R358). -/
def translateCore (s : State) (core va : Nat) (write : Bool) : Xlat × State :=
  let below : Xlat × State :=
    let r := translate s (dieOfCore core) va write
    (r.1, cacheCore r.2 core va)
  match tlbIn (s.coreAt core).tlb va with
  | some t =>
    if (write && !leafD t.leaf) || Config.evicted s.tick 4 t.base then below
    else (leafAnswer s t.leaf t.base t.size va write, s)
  | none => below

/-- The frame run held with an aperture translates as a TLB entry of its core would (R95). -/
def withRun (s : State) (core key ap : Nat) : State :=
  let c := s.coreAt core
  match c.runs.find? fun r => r.1 == (key, ap) with
  | some r => if c.tlb.contains r.2 then s else s.putCore core { c with tlb := tlbPut c.tlb 128 r.2 }
  | none => s

/-- An aperture takes the frame run of an address that was reached through it (R95). -/
def setRun (s : State) (core key ap va : Nat) : State :=
  let c := s.coreAt core
  match tlbIn c.tlb va with
  | some t => s.putCore core { c with runs := ((key, ap), t) :: c.runs.filter fun r => r.1 != (key, ap) }
  | none => s

/-- The L2 line of a local HBM address after a translated access of die `die` (R242, R249, R251, R252); a page of home 3
is never held, and its writes leave the line under tag 0. -/
def touchLine (s : State) (die pa : Nat) (leaf : Word) (write : Bool) : State :=
  if spaceOf pa ≠ 0 then s
  else
    let line := pa / 128
    if leafHome leaf = 3 then (if write then { s with tags := Assoc.set 1 s.tags line 0 } else s)
    else touchSlice s die pa write (leafCmp leaf) (some (leafCmp leaf))

/-! L1 (R240, R241) and the L2 copies of host and fabric lines (R242). -/

/-- A core's SRAM, less its window (R236). -/
def coreSram (s : State) (core : Nat) : Nat := 512 * 1024 - Assoc.get 0 s.windows core * 65536

/-- The SRAM that a placed team holds: its scratchpad and its rings (R303, R313). -/
def Team.sram (t : Team) : Nat :=
  (t.width + 1) * t.w + (t.rings.map fun x => x.2.slots * x.2.size).foldl (· + ·) 0

/-- The placed teams of a core. -/
def coreTeams (s : State) (core : Nat) : List (Nat × Team) := s.teams.filter fun p => p.2.core == core && p.2.placed

/-- The SRAM of a core that no team holds, less any window (R236, R240). -/
def freeSram (s : State) (core : Nat) : Nat :=
  coreSram s core - ((coreTeams s core).map fun p => p.2.sram).foldl (· + ·) 0

/-- The lines that a core's L1 has room for: what is lent to it, less what it has handed back (R240). -/
def l1Lines (s : State) (core : Nat) : Nat := (freeSram s core - (s.coreAt core).taken) / 128

/-- A page whose lines L1 may hold (R241, R270): home 0, class NC or DC, type normal. -/
def l1Cacheable (pa : Nat) (leaf : Word) : Bool :=
  leafHome leaf == 0 && leafClass leaf != 2 && leafType leaf == 0 && spaceOf pa != 1

/-- Byte i of a line. -/
def lineByte (v : VecReg) (i : Nat) : Byte := v.extractLsb' (8 * i) 8

/-- The line that a die reads below L1: the home's, or its L2 copy of a host or fabric NC line, filled if absent. -/
def dieLine (s : State) (die pa : Nat) (leaf : Word) : VecReg × State :=
  let v := lineOf (readBytes s (pa / 128 * 128) 128)
  if spaceOf pa < 2 ∨ leafClass leaf ≠ 0 then (v, s)
  else
    let fill (s : State) : State :=
      if sliceWindow s die (sliceOf pa) then s
      else
        let s := makeRoom s die pa
        let d := s.dieAt die
        s.putDie die { d with ncLines := Assoc.put d.ncLines (pa / 128) v }
    match Assoc.find? (s.dieAt die).ncLines (pa / 128) with
    | some c => if Config.evicted s.tick 1 (pa / 128) then (v, fill s) else (c, s)
    | none => (v, fill s)

/-- The line's lease has not expired (R241). -/
def L1Line.live (l : L1Line) (now : Nat) : Bool :=
  match l.lease with
  | none => true
  | some e => now < e

/-- A line filled into a core's L1 from what the die reads, with its lease (R241). A full L1 gives up its lowest line
(assumption 62). -/
def fillL1 (s : State) (core pa : Nat) (leaf : Word) : VecReg × State :=
  let r := dieLine s (dieOfCore core) pa leaf
  let c := r.2.coreAt core
  let lease := if leafClass leaf = 1 then some (s.cycle.toNat + 4096) else none
  let kept := Assoc.erase c.l1 (pa / 128)
  let kept := if kept.length < l1Lines s core then kept else kept.drop 1
  (r.1, r.2.putCore core { c with l1 := if l1Lines s core = 0 then kept else Assoc.put kept (pa / 128) ⟨r.1, lease⟩ })

/-- The line that a core reads through its L1: its copy, or one filled now. -/
def l1Line (s : State) (core pa : Nat) (leaf : Word) : VecReg × State :=
  match Assoc.find? (s.coreAt core).l1 (pa / 128) with
  | some l => if l.live s.cycle.toNat && !Config.evicted s.tick 0 (pa / 128) then (l.data, s) else fillL1 s core pa leaf
  | none => fillL1 s core pa leaf

/-- Bytes read through L1, byte by byte across lines. -/
def l1Bytes (s : State) (core pa : Nat) (leaf : Word) (n : Nat) : List Byte × State :=
  match n with
  | 0 => ([], s)
  | n + 1 =>
    let l := l1Line s core pa leaf
    let r := l1Bytes l.2 core (pa + 1) leaf n
    (lineByte l.1 (pa % 128) :: r.1, r.2)

/-- The core invalidates every L1 line, and its die's copies of host and fabric NC lines: the sink of an edge (R271). -/
def invalidateL1 (s : State) (core : Nat) : State :=
  let c := s.coreAt core
  let d := s.dieAt (dieOfCore core)
  let s := if c.l1.isEmpty then s else s.putCore core { c with l1 := [] }
  if d.ncLines.isEmpty then s else s.putDie (dieOfCore core) { d with ncLines := [] }

/-- Lines of a list that lie outside some bytes. -/
def outside {α : Type} (l : List (Nat × α)) (pa n : Nat) : List (Nat × α) :=
  l.filter fun x => !(x.1 * 128 < pa + n && pa < (x.1 + 1) * 128)

/-- Every core's and die's copies of some bytes go: their contents are placed anew (R257). -/
def dropCopies (s : State) (pa n : Nat) : State :=
  let s := s.modDies fun d => { d with ncLines := outside d.ncLines pa n }
  { s with cores := Assoc.mapVals s.cores fun _ c => { c with l1 := outside c.l1 pa n } }

/-- A release, or an atomic, at the home: the bytes are written and no copy of an older value stays (R266, R269). -/
def homeWrite (s : State) (die pa : Nat) (leaf : Word) (bs : List Byte) : State :=
  dropCopies (writeBytes (touchLine s die pa leaf true) pa bs) pa bs.length

/-- The other cores' L1 copies of some bytes go: a synchronising write has been performed at its home, and no read issued after
another group has seen it may return an older value (R269). -/
def dropOthers (s : State) (core pa n : Nat) : State :=
  { s with cores := Assoc.mapVals s.cores fun k c => if k = core then c else { c with l1 := outside c.l1 pa n } }

/-- Bytes read by a core at a physical address through a leaf: an acquire reads at the home, and then invalidates
(R271). -/
def coreRead (s : State) (core pa n : Nat) (leaf : Word) (acq : Bool) : List Byte × State :=
  let s := touchLine s (dieOfCore core) pa leaf false
  if acq then (readBytes s pa n, invalidateL1 s core)
  else if l1Cacheable pa leaf then l1Bytes s core pa leaf n
  else (readBytes s pa n, s)

/-- A line's copy takes a byte. -/
def patchLine (v : VecReg) (i : Nat) (b : Byte) : VecReg := Bits.splice v (8 * i) 8 b.toNat

/-- The issuing core's L1 copy, and its die's NC copy, take a stored byte (R241). -/
def patchCopies (s : State) (core pa : Nat) (b : Byte) : State :=
  let c := s.coreAt core
  let d := s.dieAt (dieOfCore core)
  let s := match Assoc.find? c.l1 (pa / 128) with
    | some l => s.putCore core { c with l1 := Assoc.put c.l1 (pa / 128) { l with data := patchLine l.data (pa % 128) b } }
    | none => s
  match Assoc.find? d.ncLines (pa / 128) with
  | some v => s.putDie (dieOfCore core) { d with ncLines := Assoc.put d.ncLines (pa / 128) (patchLine v (pa % 128) b) }
  | none => s

/-- Copies patched for consecutive bytes. -/
def patchAll (s : State) (core pa : Nat) (bs : List Byte) : State :=
  match bs with
  | [] => s
  | b :: t => patchAll (patchCopies s core pa b) core (pa + 1) t

/-- Bytes stored by a core: at the home, with the core's own copies updated (R241). -/
def coreWrite (s : State) (core pa : Nat) (leaf : Word) (bs : List Byte) : State :=
  let s := touchLine s (dieOfCore core) pa leaf true
  patchAll (writeBytes s pa bs) core pa bs

/-- The value an atomic leaves (R289, R290): signedness and width by the op and the bytes. -/
def rmwResult (op : RmwOp) (bytes old x comparand : Nat) : Nat :=
  let w := 8 * bytes
  let so := Bits.signed old w
  let sx := Bits.signed x w
  match op with
  | .addI => (old + x) % 2 ^ w
  | .minS => if so ≤ sx then old else x
  | .maxS => if sx ≤ so then old else x
  | .minU => min old x
  | .maxU => max old x
  | .and => old &&& x
  | .or => old ||| x
  | .xor => old ^^^ x
  | .swap => x
  | .cas => if old = comparand then x else old
  | .addF32 => Num.rnd .fp32 .rne (Num.add false (Num.decode .fp32 old) (Num.decode .fp32 x))
  | .minF32 ftz => Num.minMaxCode .fp32 true (Num.flushCode .fp32 ftz old) (Num.flushCode .fp32 ftz x)
  | .maxF32 ftz => Num.minMaxCode .fp32 false (Num.flushCode .fp32 ftz old) (Num.flushCode .fp32 ftz x)
  | .addBf16x2 =>
    let h (i : Nat) := Num.decode .bf16 (Bits.field old (16 * i) 16)
    let y (i : Nat) := Num.decode .bf16 (Bits.field x (16 * i) 16)
    Num.rnd .bf16 .rne (Num.add false (h 0) (y 0)) + 2 ^ 16 * Num.rnd .bf16 .rne (Num.add false (h 1) (y 1))

/-- Where an atomic on a page is performed (R266, R267): in the core's L1 only for an NC page of home 0. -/
def atomicInL1 (pa : Nat) (leaf : Word) : Bool := leafClass leaf == 0 && l1Cacheable pa leaf

end Sys2Proof.Machine
end

