-- ==== Sys2Proof/Machine/Ops.lean ====
section
/-! DEFINITION. The operations that instructions share: taking a trap and returning from one (R213 to R222), ending a
team (R231), asking for page service (R215, R321), the children of a frame (R363, R365), the delivery of a completion
(R223), and the form of a scalar instruction (R91, R109). -/

namespace Sys2Proof.Machine

/-- The cause codes of R213 that instructions raise. -/
inductive Cause where
  | illop | privop | roleop | regrange | nonuni | splitdepth | mxdesc | mismatch | swtrap
  | ifetch | page | prot | align | sprange | spct | cow | atomclass | tablenode | remotelost | xfererr | preempt
  deriving DecidableEq, Repr

/-- A cause's value (R213). -/
def Cause.code (c : Cause) : Nat :=
  match c with
  | .illop => 0x01
  | .privop => 0x02
  | .roleop => 0x03
  | .regrange => 0x04
  | .nonuni => 0x05
  | .splitdepth => 0x06
  | .mxdesc => 0x07
  | .mismatch => 0x08
  | .swtrap => 0x09
  | .ifetch => 0x10
  | .page => 0x11
  | .prot => 0x12
  | .align => 0x13
  | .sprange => 0x14
  | .spct => 0x15
  | .cow => 0x16
  | .atomclass => 0x17
  | .tablenode => 0x18
  | .remotelost => 0x19
  | .xfererr => 0x20
  | .preempt => 0x30

/-- The abort reasons of R231. -/
inductive AbortReason where
  | double | noHandler | deadline | machineCheck | tretAbort | saveCheck
  deriving DecidableEq, Repr

/-- A reason's value (R231). -/
def AbortReason.code (r : AbortReason) : Nat :=
  match r with
  | .double => 1
  | .noHandler => 2
  | .deadline => 3
  | .machineCheck => 4
  | .tretAbort => 5
  | .saveCheck => 6

/-- A record joins the pending records of a die (R320). -/
def pendRecord (s : State) (die : Nat) (r : FaultRecord) : State :=
  let d := s.dieAt die
  s.putDie die { d with faultPend := d.faultPend ++ [r] }

/-- A fault joins this record (R321): one kind, grid and page, or one kind, grid and node. -/
def FaultRecord.joins (r q : FaultRecord) : Bool :=
  r.kind ≤ 3 && r.kind == q.kind && r.grid == q.grid && r.va == q.va && (r.kind != 3 || r.detail == q.detail)

/-- An access of a group asks for page service: a record, unless an unserviced one exists (R215, R321). `detail` is the
access of kinds 1 and 2; kind 3 carries the level. -/
def askService (s : State) (die : Nat) (g : Group) (kind level base size detail : Nat) : State :=
  let r : FaultRecord := ⟨base, g.grid, g.team, g.gid, kind, if kind = 3 then level else detail, 0, 0, 0, s.cycle, 0, size⟩
  let d := s.dieAt die
  if d.faultPend.any (r.joins ·) || d.faults.any (r.joins ·) then s else pendRecord s die r

/-- The access detail of a fault record (R320): an atomic sets both write and atomic. -/
def faultDetail (write exec atomic engine : Bool) : Nat :=
  (if write || atomic then 1 else 0) + (if exec then 2 else 0) + (if atomic then 4 else 0) + (if engine then 8 else 0)

/-- The die of a group. -/
def Group.die (g : Group) : Nat := dieOfCore g.core

/-- The abort record of a team (R231, R320). -/
def abortRecord (s : State) (t : Team) (gid : BitVec 32) (reason : AbortReason) (cause pc addr : Word) : FaultRecord :=
  ⟨addr.toNat, t.grid, t.index, gid, 5, reason.code, 0, cause, pc, s.cycle, 0, 0⟩

/-- A team's work leaves a core's queues (R231): transit and coelostat commands, results, side-log entries. -/
def Core.dropTeam (c : Core) (ks : List Nat) : Core :=
  { c with
    transit := c.transit.filter fun x => !ks.contains x.key
    strmQ := c.strmQ.filter fun x => !ks.contains x.key
    strm := c.strm.filter fun x => !ks.contains x.key
    strmDone := c.strmDone.filter fun x => !ks.contains x.key
    strmOut := c.strmOut.filter fun x => !ks.contains x.key
    sideLog := c.sideLog.filter fun x => !ks.contains x.key
    sent := c.sent.filter fun x => !ks.contains x.key
    runs := c.runs.filter fun x => !ks.contains x.1.1 }

/-- The commands of a team that may be writing memory when it ends (R231): started transit commands, the drains through handles
among them, and collectives. -/
def cancelledOf (s : State) (t : Team) (ks : List Nat) : List Cancelled :=
  let mine := (s.cores.flatMap fun c => c.2.transit).filter fun x => ks.contains x.key && x.started
  mine.map (fun x => ⟨s.groupAt x.key, t, .transit x⟩)
    ++ (s.colls.filter fun c => ks.contains c.key).map fun x => ⟨s.groupAt x.key, t, .coll x⟩

/-- Entries have left a core's side log: lane operations that it held are tried again (R271, R272). -/
def wakeLog (s : State) (core : Nat) : State :=
  (s.coreGroups core).foldl (fun s p => s.modGroup p.1 fun g => { g with
    laneOps := g.laneOps.map fun o => if o.todo != [] && o.logWait.isNone then { o with again := true } else o }) s

/-- The unserviced faults of an ended team leave their die's queue (R299, R321), unless another team of the grid is left, whose
accesses may have joined them (assumption 80). -/
def Die.dropFaults (d : Die) (grid team : Nat) (alone : Bool) : Die :=
  let gone (r : FaultRecord) : Bool := alone && r.grid == grid && r.team == team && decide (r.kind ≤ 3)
  { d with faultPend := d.faultPend.filter fun r => !gone r, faults := d.faults.filter fun r => !gone r }

/-- An abort of the team with key `tk` (R231): its groups, queues, side-log entries and resources go, one abort record
is pended, and the grid counts it. -/
def abortTeam (s : State) (tk : Nat) (gid : BitVec 32) (reason : AbortReason) (cause pc addr : Word) : State :=
  let t := s.teamAt tk
  let ks := (s.teamGroups tk).map (·.1)
  let cancelled := s.cancelled ++ cancelledOf s t ks
  let alone := !(s.groups.any fun p => p.2.grid == t.grid && !ks.contains p.1)
  let s := s.modDies fun d => d.dropFaults t.grid t.index alone
  let s := pendRecord s (dieOfCore t.core) (abortRecord s t gid reason cause pc addr)
  let s := { s with cores := Assoc.mapVals s.cores fun _ c => c.dropTeam ks }
  let s := wakeLog s t.core
  let s := s.modGrid t.grid fun x =>
    { x with aborted := x.aborted + 1, reason := if x.aborted = 0 then reason.code else x.reason }
  { s with
    groups := s.groups.filter fun p => !ks.contains p.1
    teams := Assoc.erase s.teams tk
    colls := s.colls.filter fun c => !ks.contains c.key
    cancelled := cancelled }

/-- TRAPCAUSE of a trap (R99, R213): the lane stream's traps carry the split and the index. -/
def causeWord (c : Cause) (detail : Nat) (lane : Option (Nat × Nat)) : Word :=
  BitVec.ofNat 64 (detail % 2 ^ 32 * 2 ^ 32 + c.code + (match lane with
    | none => 0
    | some (split, index) => 2 ^ 15 + split % 4 * 2 ^ 12 + index % 16 * 2 ^ 8))

/-- A split in handler state is frozen and keeps its former state (R362). -/
def Split.freeze (x : Split) : Split := if x.valid then { x with former := x.st, st := .frozen } else x

/-- A split thaws at TRET (R362), which orders it after every write noted so far (R222). -/
def Split.thaw (x : Split) : Split := { x with st := if x.valid && x.st == .frozen then x.former else x.st, floor := 0 }

/-- A queued program follows every write noted so far. -/
def Queued.rebase (q : Queued) : Queued := { q with edge := { q.edge with floor := 0 } }

/-- Trap entry's effect on the group (R217): `pc` is what TRAPPC takes. -/
def Group.enterTrap (g : Group) (vector : BitVec 56) (cause : Word) (pc : BitVec 56) (planes : Mask) (addr : Word)
    (split : Option Nat) : Group :=
  let a15 := g.readA 15
  { g.writeA 15 { a15 with valid := false } with
    hidden := ⟨a15, g.pc, split, pc⟩
    trapcause := cause
    trappc := pc
    traplanes := planes
    trapaddr := addr
    handler := true
    splits := g.splits.map Split.freeze
    handlerQ := []
    hsplit := Split.free
    pc := vector
    wait := .none
    age := 0 }

/-- The address of a lane-code offset (R78). -/
def laneAddr (grid : Grid) (off : BitVec 32) : BitVec 56 := grid.record.laneBase + BitVec.ofNat 56 off.toNat

/-- The grid's trap vector as an address (R217). -/
def trapVector (grid : Grid) : BitVec 56 := grid.record.scalarBase + BitVec.ofNat 56 grid.record.trapVec

/-- The scalar instruction that has waited for page service has not completed yet (R109, R292). -/
def Group.mustComplete (g : Group) : Bool := g.wait == .none && g.resume == some g.pc

/-- No instruction holds the scalar stream (R109, R214, R292): a trap or an interrupt can be delivered to it. -/
def Group.atBoundary (g : Group) : Bool :=
  !g.mustComplete && g.wait != .service && g.wait != .logRoom && g.wait != .ringService && !(g.scalarOps.any (·.far.isSome))

/-- A precise trap of the issuing stream (R216, R217, R219): a double fault or a missing handler ends the team. A split whose
group's scalar stream is held by an instruction meets its condition again once that has completed (R109). -/
def takeTrap (s : State) (c : Cause) (detail : Nat) (planes : Mask) (addr : Word) : State :=
  let g := s.group
  let grid := s.grid
  let split := s.cur.lane
  let at_ := split.map fun i => (i, (g.splitAt i).index)
  let pc := match split with
    | none => g.pc
    | some i => laneAddr grid (g.splitAt i).addr
  let cw := causeWord c detail at_
  if split.isSome && !g.handler && !g.atBoundary then s
  else if g.handler then abortTeam s g.teamKey g.gid .double cw (pc.setWidth 64) addr
  else if grid.record.trapVec = 0 then abortTeam s g.teamKey g.gid .noHandler cw (pc.setWidth 64) addr
  else (s.setGroup (g.enterTrap (trapVector grid) cw pc planes addr split)).perfEvent g.core 10 g.grid 1

/-- The lanes that TRAPLANES names for ILLOP and its like: the split's mask, or 0 for the scalar stream (R213). -/
def streamMask (s : State) : Mask :=
  match s.cur.lane with
  | none => 0
  | some i => (s.group.splitAt i).mask

/-- ILLOP (R81). -/
def trapIllop (s : State) : Result State := .next (takeTrap s .illop 0 (streamMask s) 0)
/-- PRIVOP. -/
def trapPriv (s : State) : Result State := .next (takeTrap s .privop 0 (streamMask s) 0)
/-- ROLEOP (R17). -/
def trapRole (s : State) : Result State := .next (takeTrap s .roleop 0 (streamMask s) 0)
/-- REGRANGE, naming the index, tile or width (R103). -/
def trapRange (s : State) (detail : Nat) : Result State := .next (takeTrap s .regrange detail (streamMask s) 0)
/-- MXDESC, naming the reason (R195). -/
def trapDesc (s : State) (reason : Nat) : Result State := .next (takeTrap s .mxdesc reason 0 0)
/-- A memory cause of the scalar stream: TRAPLANES 0 (R292). -/
def trapMem (s : State) (c : Cause) (detail addr : Nat) : Result State :=
  .next (takeTrap s c detail 0 (BitVec.ofNat 64 addr))

/-- Cancel the replay that a split left at a memory instruction it will not repeat (R222). -/
def Group.dropReplay (g : Group) (split : Nat) : Group :=
  g.laneOps.foldl (fun g o =>
    if o.split = split ∧ (o.todo ≠ [] ∨ o.again) then
      { g.dropFlag o.flag with laneOps := g.laneOps.filter fun x => x.id != o.id }
    else g) g

/-- A user-level interrupt can be delivered (R224). -/
def Group.interruptReady (g : Group) : Bool := !g.handler && !g.intState && g.intPending && g.ulivec != 0

/-- TRET's effect on the group (R222): A15 restored, handler state left, every stream back at its hidden position, the
trapping stream where TRAPPC says, its bits [1:0] ignored by a scalar stream (R66); a value that names no lane-code address is
kept for the split to trap on. TRET is an edge to every resumed lane instruction, so no older value of a register is left to
read (R69). A user-level interrupt that is pending comes before any of them (R218). -/
def Group.leaveTrap (g : Group) (grid : Grid) : Group :=
  let g := { g.writeA 15 g.hidden.a15 with
    handler := false
    due := { g with handler := false }.interruptReady
    past := []
    cleared := []
    laneQ := g.laneQ.map Queued.rebase
    splits := g.splits.map Split.thaw
    handlerQ := []
    hsplit := Split.free
    wait := .none
    age := 0 }
  match g.hidden.split with
  | none => { g with pc := g.trappc &&& ~~~3 }
  | some i =>
    let g := { g with pc := g.hidden.pc }
    if g.trappc = g.hidden.entry then g
    else
      let off := (g.trappc - grid.record.laneBase).toNat
      let x := g.splitAt i
      (g.dropReplay i).putSplit i { x with
        addr := BitVec.ofNat 32 off
        index := 15
        st := .running
        bad := if 2 ^ 32 ≤ off ∨ off % 4 ≠ 0 then some g.trappc.toNat else none }

/-- The return from a trap (R222). -/
def returnFromTrap (s : State) : State := s.setGroup (s.group.leaveTrap s.grid)

/-- The trap of a split that resumes at a TRAPPC that names no lane-code address (R222). The split keeps its mark, so that it
traps again if the handler leaves TRAPPC as it is. -/
def trapBadResume (s : State) (i v : Nat) : State :=
  let g := s.group
  let grid := s.grid
  let cw := causeWord .illop 0 (some (i, 15))
  if g.handler then abortTeam s g.teamKey g.gid .double cw (BitVec.ofNat 64 v) 0
  else if grid.record.trapVec = 0 then abortTeam s g.teamKey g.gid .noHandler cw (BitVec.ofNat 64 v) 0
  else if !g.atBoundary then s
  else (s.setGroup (g.enterTrap (trapVector grid) cw (BitVec.ofNat 56 v) (g.splitAt i).mask 0 (some i))).perfEvent
    g.core 10 g.grid 1

/-- A B cause of the group with key `k` (R213, R216, R217): lane, split and index are 0. -/
def takeBoundary (s : State) (k : Nat) (c : Cause) (detail : Nat) (addr : Word) : State :=
  let g := s.groupAt k
  let grid := s.gridAt g.grid
  let cw := causeWord c detail none
  if grid.record.trapVec = 0 then abortTeam s g.teamKey g.gid .noHandler cw (g.pc.setWidth 64) addr
  else (s.putGroup k (g.enterTrap (trapVector grid) cw g.pc 0 addr none)).perfEvent g.core 10 g.grid 1

/-- The delivery of a completion to its group (R223): a pending interrupt, or a pending XFERERR when there is no handler
for it. -/
def deliver (s : State) (k : Nat) (notify : Bool) (code : BitVec 16) (addr : Word) : State :=
  s.modGroup k fun g =>
    if g.ulivec ≠ 0 then (if notify || code != 0 then { g with intPending := true, intCycle := some s.cycle } else g)
    else if code ≠ 0 ∧ g.xfererr = none then { g with xfererr := some (code, addr) }
    else g

/-- Frames that a core holds in its table (R364). -/
def frameSlots : Nat := 64

/-- The places of a core's frame area (R364). -/
def frameAreas : Nat := 256

/-- Where the i-th of some new frames of a core stands (R25, R364): in the table while that has room, else at a free place of the
frame area, the lowest first (assumption 61). A saved team has no frame on its core. -/
def framePlace (s : State) (core i : Nat) : Option Nat :=
  let frames := ((s.coreGroups core).filter fun p => (s.teamAt p.2.teamKey).saved.isNone).filterMap fun p => p.2.frame
  let room := frameSlots - (frames.filter fun f => f.area.isNone).length
  if i < room then none
  else ((List.range frameAreas).filter fun n => !(frames.any fun f => f.area == some n))[i - room]?

/-- A group has a frame, allocated now if it had none (R25, R363). -/
def State.withFrame (s : State) (k : Nat) : State :=
  s.modGroup k fun g =>
    match g.frame with
    | some _ => g
    | none => { g with frame := some { g.frameOr s.cycle.toNat with area := framePlace s g.core 0 } }

/-- A frame with `n` more outstanding children (R365). -/
def Group.addChildren (g : Group) (cycle n : Nat) (offcore : Bool) : Group :=
  let f := g.frameOr cycle
  { g with frame := some { f with count := f.count + n, offcore := f.offcore || offcore } }

/-- The group's frame counts one child less, and takes its off-core bit (R365). -/
def Group.childDone (g : Group) (offcore : Bool) : Group :=
  match g.frame with
  | none => g
  | some f => { g with frame := some { f with count := f.count - 1, offcore := f.offcore || offcore } }

/-- Does an outstanding lane operation of the split name one of these registers (R91)? `v` and `q` list the vector and
scale registers that an instruction names. -/
def Dest.touches (d : Dest) (v q : List Nat) : Bool :=
  match d with
  | .none => false
  | .lanes reg bytes _ _ _ => v.any fun n => reg ≤ n && n < reg + (if bytes = 8 then 2 else if bytes = 16 then 4 else 1)
  | .scales reg _ _ _ => q.contains reg
  | .regs _ ws => ws.any fun w => v.contains (w.1 % 512)

/-- The split waits at issue on one of these registers (R91). -/
def Group.heldV (g : Group) (split : Nat) (v q : List Nat) : Bool :=
  g.laneOps.any fun o => o.split == split && o.todo.isEmpty && o.dest.touches v q

/-- The form of a scalar instruction that names these S registers (R91, R109): it waits at issue while an outstanding
access will write one of them, or holds the stream. -/
def scalarInstr (regs : List Nat) (s : State) (body : Group → Result State) : Result State :=
  let g := s.group
  if g.heldS regs then .next s else body g

/-- A scalar instruction that computes one register and moves on (R109). -/
def scalarSet (regs : List Nat) (s : State) (dest : Nat) (value : Group → Word) : Result State :=
  scalarInstr (dest :: regs) s fun g => .next (s.setGroup ((g.writeS dest (value g)).advance 4))

/-- The scalar stream waits (R109): nothing but its waiting state changes. -/
def waitIn (s : State) (g : Group) (w : Wait) : Result State := .next (s.setGroup { g with wait := w })

/-- The scalar stream waits for page service at a virtual address (R215, R292); `waitOp` notes which lane operations have issued
before it (R216). -/
def waitService (s : State) (g : Group) (va : Nat) : Result State :=
  .next (s.setGroup { g with wait := .service, waitMark := va, waitOp := g.nextOp })

end Sys2Proof.Machine
end

