-- ==== Sys2Proof/Machine/Flags.lean ====
section
/-! DEFINITION. The flag computations: which completion flag an instruction names (R20, R191, R326), what a mask of
flags waits for (R127), the software bits (R128), the edge of an observation (R129), and the count of non-finite
results (R40). -/

namespace Sys2Proof.Machine

/-- The flag of a queue or matrix instruction: function bits [6:3], 15 for none (R191). -/
def fnFlag (fn : BitVec 7) : Option Nat :=
  let n := (fn.extractLsb' 3 4).toNat
  if n < 12 then some n else none

/-- The flag that a long-latency lane instruction names: A or B of its clause header, if it is valid (R20). -/
def headerFlag (h : Header) (fsel : BitVec 1) : Option Nat :=
  if fsel = 0 then (if h.avalid then some h.anum.toNat else none) else (if h.bvalid then some h.bnum.toNat else none)

/-- FSET sets the software bits of a mask (R128). -/
def Group.setSoft (g : Group) (mask : BitVec 12) : Group := { g with flagSoft := g.flagSoft ||| mask }

/-- FCLR clears the software bits of a mask, and changes no count (R128). -/
def Group.clearSoft (g : Group) (mask : BitVec 12) : Group := { g with flagSoft := g.flagSoft &&& ~~~mask }

/-- The scalar stream observes a flag clear: an edge from the operations that named it, whose sink invalidates the
core's L1 (R129, R271). -/
def observeClear (s : State) : State := invalidateL1 s s.group.core

/-- NFCOUNT rises by `n` and stops at 0xFFFF_FFFF (R99). -/
def Grid.countNf (x : Grid) (n : Nat) : Grid :=
  { x with nfcount := BitVec.ofNat 32 (min (x.nfcount.toNat + n) (2 ^ 32 - 1)) }

/-- The grid of a group counts `n` non-finite results. -/
def countNf (s : State) (grid n : Nat) : State := if n = 0 then s else s.modGrid grid (·.countNf n)

end Sys2Proof.Machine
end

