-- ==== Sys2Proof/Machine/Access.lean ====
section
/-! DEFINITION. One access of memory: the translation of a byte range and the checks of rows 4 and 5 of R282 (R238,
R267, R291), the side log (R272, R322), and the performing of a load, a store or an atomic (R257, R266, R285, R290). -/

namespace Sys2Proof.Machine

/-- A part of a byte range that lies in one page: its physical address, its length and the leaf. -/
structure Piece where
  pa   : Nat
  n    : Nat
  leaf : Word
  deriving DecidableEq, Repr

/-- What the checks of one access answer. -/
inductive Verdict where
  | ok (ps : List Piece)
  | prot
  | atomclass
  | service (kind level base size : Nat)
  | lost (device : Nat)
  | waiting
  | badRoot
  deriving DecidableEq, Repr

/-- A translation that gives no address, as a verdict. -/
def Verdict.ofXlat (x : Xlat) : Verdict :=
  match x with
  | .ok _ _ => .ok []
  | .prot => .prot
  | .service kind level base size => .service kind level base size
  | .lost d => .lost d
  | .waiting => .waiting
  | .badRoot => .badRoot

/-- The bytes of a range before its next 64 KiB boundary: every page size is a multiple of 64 KiB (R237). -/
def firstPart (va n : Nat) : Nat := min n (65536 - va % 65536)

/-- What the translations of the two parts of a range answer together, by the rows of R282. -/
def Verdict.both (v w : Verdict) : Verdict :=
  match v, w with
  | .ok ps, .ok qs => .ok (ps ++ qs)
  | .badRoot, _ => .badRoot
  | _, .badRoot => .badRoot
  | .prot, _ => .prot
  | _, .prot => .prot
  | .lost d, _ => .lost d
  | _, .lost d => .lost d
  | .ok _, w => w
  | v, _ => v

/-- The core's TLB holds no entry for an address (R358, R386). -/
def tlbMisses (s : State) (core va : Nat) : Bool :=
  match tlbIn (s.coreAt core).tlb va with
  | some t => Config.evicted s.tick 4 t.base
  | none => true

/-- Cache events that the stream's access brings, for its core's counters (R386). -/
def cacheEvents (s : State) (core event n : Nat) : State := s.perfEvent core event (s.groupAt s.cur.key).grid n

/-- The translation of the first `n` bytes at an address, which lie in one page. -/
def xlatPart (s : State) (core va n : Nat) (write : Bool) : Verdict × State :=
  let r := translateCore s core va write
  let t := cacheEvents r.2 core 5 (if tlbMisses s core va then 1 else 0)
  match r.1 with
  | .ok pa leaf => (if badTags r.2 (dieOfCore core) pa n then .badRoot else .ok [⟨pa, n, leaf⟩], t)
  | x => (.ofXlat x, t)

/-- The translation of a byte range that crosses at most one page boundary. -/
def xlatRange (s : State) (core va n : Nat) (write : Bool) : Verdict × State :=
  let va := va % 2 ^ 56
  let m := firstPart va n
  let r := xlatPart s core va m write
  if m = n then r
  else
    let q := xlatPart r.2 core ((va + m) % 2 ^ 56) (n - m) write
    (r.1.both q.1, q.2)

/-- The leaf of a virtual address below a node, in whatever migration state, with its level; an entry that R355 refuses gives
none. -/
def rawLeafFrom (s : State) (va node : Nat) (levels : List Nat) : Option (Word × Nat) :=
  match levels with
  | [] => none
  | level :: rest =>
    let e : Word := BitVec.ofNat 64 (readNat s (node + 8 * Bits.field va (46 - 10 * level) 10) 8)
    if !e.getLsbD 63 then none
    else if e.getLsbD 62 then (if leafShapeOk e level then some (e, level) else none)
    else if Bits.field e.toNat 60 2 ≠ 0 ∨ Bits.field e.toNat 51 9 ≠ 0 ∨ Bits.field e.toNat 0 12 ≠ 0 then none
    else rawLeafFrom s va (Bits.field e.toNat 12 39 * 8192) rest

/-- The leaf of a virtual address, in whatever migration state. -/
def rawLeaf (s : State) (va : Nat) : Option Word := (rawLeafFrom s va (rootNode s) [0, 1, 2, 3]).map (·.1)

/-- The page of a virtual address is of type device or strongly-ordered, so that a fault on it holds the stream
(R270, R283). -/
def deviceTyped (s : State) (va : Nat) : Bool :=
  match rawLeaf s va with
  | some e => 2 ≤ leafType e
  | none => false

/-- The access writes. -/
def AccKind.writes (k : AccKind) : Bool :=
  match k with
  | .load => false
  | _ => true

/-- The access is an atomic or a reduction. -/
def AccKind.atomic (k : AccKind) : Bool :=
  match k with
  | .rmw _ _ _ => true
  | _ => false

/-- A page refuses an atomic (R267, R291): its type is not normal, or it is performed at the system home, which takes
only FetchAdd, Swap and CAS. -/
def refusesAtomic (p : Piece) (op : RmwOp) (bytes : Nat) : Bool :=
  leafType p.leaf != 0 ||
    ((leafClass p.leaf == 2 || (leafHome p.leaf == 3 && 2 ≤ spaceOf p.pa)) &&
      !(match op with
        | .addI | .swap => bytes == 4 || bytes == 8
        | .cas => bytes == 4 || bytes == 8 || bytes == 16
        | _ => false))

/-- The device at the other end of a fabric page refuses an access (R401): its export ranges are its own. Kind 0 reads, 1
writes, 2 is an atomic. -/
def fabricRefused (s : State) (kind : Nat) (pa : Nat) : Bool := spaceOf pa == 3 && Config.fabricRefuses s.tick kind pa

/-- What a fabric device is asked for. -/
def AccKind.ask (k : AccKind) : Nat :=
  match k with
  | .load => 0
  | .store _ => 1
  | .rmw _ _ _ => 2

/-- A piece of an access is refused by its fabric device. -/
def refusedPieces (s : State) (k : AccKind) (ps : List Piece) : Bool := ps.any fun p => fabricRefused s k.ask p.pa

/-- The leaf that an access of a core has just met asks for copy-on-write service, and its page refuses the atomic: row 5 of R282
comes before row 7. -/
def refusesBehind (s : State) (core va bytes : Nat) (op : RmwOp) : Bool :=
  match tlbIn (s.coreAt core).tlb (va % 2 ^ 56) with
  | some t => refusesAtomic ⟨leafFrame t.leaf * 65536 + (va % 2 ^ 56 - t.base), bytes, t.leaf⟩ op bytes
  | none => false

/-- Rows 4, 5 and 7 of R282 for one access of a core; a load or atomic that a fabric device refuses faults PROT (R401). -/
def checkAcc (s : State) (core : Nat) (a : Acc) : Verdict × State :=
  match xlatRange s core a.va a.bytes a.kind.writes with
  | (.ok ps, s) =>
    match a.kind with
    | .rmw op _ _ =>
      if ps.any fun p => refusesAtomic p op a.bytes then (.atomclass, s)
      else if a.returns && refusedPieces s a.kind ps then (.prot, s)
      else (.ok ps, s)
    | .load => if refusedPieces s a.kind ps then (.prot, s) else (.ok ps, s)
    | .store _ => (.ok ps, s)
  | (.service 2 level base size, s) =>
    match a.kind with
    | .rmw op _ _ => (if refusesBehind s core a.va a.bytes op then .atomclass else .service 2 level base size, s)
    | _ => (.service 2 level base size, s)
  | x => x

/-- The checks of a list of accesses, in order. -/
def checkAll (s : State) (core : Nat) (accs : List Acc) : List (Acc × Verdict) × State :=
  match accs with
  | [] => ([], s)
  | a :: t =>
    let v := checkAcc s core a
    let r := checkAll v.2 core t
    ((a, v.1) :: r.1, r.2)

/-- Two byte ranges share a byte. -/
def overlap (a n b m : Nat) : Bool := a < b + m && b < a + n

/-- An entry of a side log touches a byte of a range (R272). -/
def SideEntry.touches (e : SideEntry) (va n : Nat) : Bool := overlap e.acc.va e.acc.bytes va n

/-- A side-logged access of the core touches a byte of a range: a load of it waits, and a later store of it stays behind
(R272). -/
def sideTouches (s : State) (core va n : Nat) : Bool := (s.coreAt core).sideLog.any (·.touches va n)

/-- An access retires into its core's side log (R272, R322); `ready` when it needs no page service of its own. -/
def logStore (s : State) (core key order : Nat) (ready : Bool) (a : Acc) : State :=
  let c := s.coreAt core
  let id := (c.sideLog.foldl (fun m e => max m e.id) 0) + 1
  (s.putCore core { c with sideLog := c.sideLog ++ [⟨id, key, a, order, ready, s.cycle.toNat⟩] }).perfEvent core 8 (s.groupAt key).grid 1

/-- Bytes stored to consecutive pieces. -/
def storePieces (s : State) (core : Nat) (ps : List Piece) (bs : List Byte) : State :=
  match ps with
  | [] => s
  | p :: t => storePieces (coreWrite s core p.pa p.leaf (bs.take p.n)) core t (bs.drop p.n)

/-- A record of a dropped store (R273, R320). -/
def droppedRecord (s : State) (grid team : Nat) (gid : BitVec 32) (va : Nat) (code : BitVec 16) : FaultRecord :=
  ⟨va, grid, team, gid, 4, 0, code, 0, 0, s.cycle, 0, 0⟩

/-- A store of a group is lost (R273): a record, the group's count (R295), and the grid's status (R329). -/
def dropStore (s : State) (core key : Nat) (a : Acc) (code : BitVec 16) : State :=
  let g := s.groupAt key
  let s := pendRecord s (dieOfCore core) (droppedRecord s g.grid g.team g.gid a.va code)
  let s := s.modGroup key fun g => { g with dropped := if g.dropped = BitVec.allOnes 32 then g.dropped else g.dropped + 1 }
  s.modGrid g.grid fun x => { x with lost := true }

/-- A store to fabric memory is outstanding until its device acknowledges it (R360); an atomic that returns a value has been
acknowledged when it returns. -/
def sendStore (s : State) (core key : Nat) (a : Acc) (ps : List Piece) : State :=
  match ps.find? fun p => spaceOf p.pa == 3 && !a.returns with
  | none => s
  | some p =>
    let c := s.coreAt core
    s.putCore core { c with sent := c.sent ++ [⟨(c.sent.foldl (fun m e => max m e.id) 0) + 1, key, a.va, deviceOf p.pa⟩] }

/-- Bytes stored, unless the fabric device refuses the access (R401). -/
def storeOrDrop (s : State) (core key : Nat) (a : Acc) (ps : List Piece) (bs : List Byte) : State :=
  if refusedPieces s a.kind ps then dropStore s core key a 2 else sendStore (storePieces s core ps bs) core key a ps

/-- What a source of an edge waits for has been performed (R271): the core's side log and its stores under way. -/
def drained (s : State) (core : Nat) : Bool := (s.coreAt core).sideLog.isEmpty && (s.coreAt core).sent.isEmpty

/-- The stores of a core that their devices have acknowledged by now are outstanding no more (R360). -/
def acknowledge (s : State) (core : Nat) : State :=
  let c := s.coreAt core
  if c.sent.isEmpty then s
  else wakeLog (s.putCore core { c with sent := c.sent.filter fun e => !Config.acknowledged s.tick e.id }) core

/-- The lines of a load that its core's L1 does not hold (R241, R386); an acquire reads at the home. -/
def l1Misses (s : State) (core : Nat) (p : Piece) (acq : Bool) : Nat :=
  let holds (line : Nat) : Bool :=
    match Assoc.find? (s.coreAt core).l1 line with
    | some l => l.live s.cycle.toNat && !Config.evicted s.tick 0 line
    | none => false
  let lines := if p.pa / 128 = (p.pa + p.n - 1) / 128 then [p.pa / 128] else [p.pa / 128, (p.pa + p.n - 1) / 128]
  if acq || !l1Cacheable p.pa p.leaf then 0 else (lines.filter fun x => !holds x).length

/-- Bytes loaded from consecutive pieces. -/
def loadPieces (s : State) (core : Nat) (ps : List Piece) (acq : Bool) : List Byte × State :=
  match ps with
  | [] => ([], s)
  | p :: t =>
    let r := coreRead s core p.pa p.n p.leaf acq
    let r' := loadPieces (cacheEvents r.2 core 4 (l1Misses s core p acq)) core t acq
    (r.1 ++ r'.1, r'.2)

/-- The old value that an atomic reads: through the core's L1 on an NC page of home 0, at the home otherwise (R266). -/
def rmwRead (s : State) (core : Nat) (ps : List Piece) (acq : Bool) : List Byte × State :=
  match ps with
  | [] => ([], s)
  | p :: t =>
    let r := if atomicInL1 p.pa p.leaf then l1Bytes s core p.pa p.leaf p.n else (readBytes s p.pa p.n, s)
    let r' := rmwRead r.2 core t acq
    (r.1 ++ r'.1, if acq then invalidateL1 r'.2 core else r'.2)

/-- A synchronising write on DC pages has been performed (R269): no other core keeps an older copy. -/
def synchronise (s : State) (core : Nat) (ps : List Piece) : State :=
  ps.foldl (fun s p => if leafClass p.leaf = 1 then dropOthers s core p.pa p.n else s) s

/-- An access is performed under an order attribute (R257, R258, R290); the value is what it returns, 0 for a store. -/
def performAcc (s : State) (core key : Nat) (a : Acc) (ps : List Piece) (order : Nat) : Nat × State :=
  match a.kind with
  | .load =>
    let r := loadPieces s core ps (order % 2 == 1)
    (Bits.leNat r.1, r.2)
  | .store bs =>
    let s := storeOrDrop s core key a ps bs
    (0, if 2 ≤ order then synchronise s core ps else s)
  | .rmw op x comparand =>
    let r := rmwRead s core ps (order % 2 == 1)
    let old := Bits.leNat r.1
    (old, synchronise (storeOrDrop r.2 core key a ps (Bits.leBytes a.bytes (rmwResult op a.bytes old x comparand))) core ps)

/-- Checked accesses performed in order, with the values of those that return one. -/
def performAll (s : State) (core key : Nat) (order : Nat) (l : List (Acc × Verdict)) : List Done × State :=
  match l with
  | [] => ([], s)
  | (a, .ok ps) :: t =>
    let r := performAcc s core key a ps order
    let r' := performAll r.2 core key order t
    (if a.returns then ⟨a.lane, a.plane, r.1⟩ :: r'.1 else r'.1, r'.2)
  | _ :: t => performAll s core key order t

/-- The page service that one access asks for, of each page that it touches (R215, R321). -/
def askAcc (s : State) (core : Nat) (g : Group) (a : Acc) : State :=
  let detail := faultDetail a.kind.writes false a.kind.atomic false
  let m := firstPart (a.va % 2 ^ 56) a.bytes
  let parts := if m = a.bytes then [a.va % 2 ^ 56] else [a.va % 2 ^ 56, (a.va + m) % 2 ^ 56]
  parts.foldl (fun s va =>
    match translateCore s core va a.kind.writes with
    | (.service kind level base size, s) => askService s g.die g kind level base size detail
    | _ => s) s

/-- The page service that a list of checked accesses asks for: one record per page (R215, R321). -/
def askAll (s : State) (core : Nat) (g : Group) (l : List (Acc × Verdict)) : State :=
  match l with
  | [] => s
  | (a, .service _ _ _ _) :: t => askAll (askAcc s core g a) core g t
  | _ :: t => askAll s core g t

/-- Another stream of the group is held at an access of a device or strongly-ordered page: no later access to such a page may
be performed before it (R270). `split` is the stream that asks. -/
def deviceHeld (s : State) (g : Group) (split : Option Nat) (va : Nat) : Bool :=
  ((split.isSome && g.wait == .service && deviceTyped s g.waitMark) ||
    g.laneOps.any fun o => some o.split != split && o.todo.any fun a => deviceTyped s a.va) && deviceTyped s va

/-- Faulting stores of a core that wait for an entry of its side log: groups' scalar stores and lane operations (R272). -/
def logWaiters (s : State) (core : Nat) : List Nat :=
  (s.coreGroups core).flatMap fun p => (p.2.store.map (·.ticket)).toList ++ p.2.laneOps.filterMap fun o => o.logWait.map (·.1)

/-- Entries that a core's side log has (R272). -/
def logEntries : Nat := 256

/-- The entries that a new faulting store may take: none while others wait for one (R272). -/
def logRoom (s : State) (core : Nat) : Nat :=
  if (logWaiters s core).isEmpty then logEntries - (s.coreAt core).sideLog.length else 0

/-- The lanes of the accesses whose verdict meets a test. -/
def verdictLanes (l : List (Acc × Verdict)) (p : Verdict → Bool) : Mask :=
  Bits.maskOf fun n => l.any fun x => x.1.lane == n && p x.2

/-- The lowest address of the accesses whose verdict meets a test. -/
def verdictAddr (l : List (Acc × Verdict)) (p : Verdict → Bool) : Nat :=
  (l.filter fun x => p x.2).foldl (fun m x => min m x.1.va) (2 ^ 56)

/-- Tests on verdicts. -/
def Verdict.isProt (v : Verdict) : Bool := v == .prot
/-- Row 5 of R282. -/
def Verdict.isAtom (v : Verdict) : Bool := v == .atomclass
/-- Row 7 of R282. -/
def Verdict.isService (v : Verdict) : Bool :=
  match v with
  | .service _ _ _ _ => true
  | _ => false
/-- The device of a lost frame. -/
def Verdict.isLost (v : Verdict) : Bool :=
  match v with
  | .lost _ => true
  | _ => false
/-- The walk waits for a migrating node (R355). -/
def Verdict.isWaiting (v : Verdict) : Bool := v == .waiting
/-- The translation root is no node (R353). -/
def Verdict.isBadRoot (v : Verdict) : Bool := v == .badRoot
/-- The access can be performed. -/
def Verdict.isOk (v : Verdict) : Bool :=
  match v with
  | .ok _ => true
  | _ => false
/-- Where the data of some pieces comes from: host memory (0), fabric device n (n + 1), or this device. -/
def farSource (ps : List Piece) : Option Nat :=
  match ps.find? fun p => 2 ≤ spaceOf p.pa with
  | some p => some (if spaceOf p.pa = 2 then 0 else deviceOf p.pa + 1)
  | none => none

/-- The accesses of a list whose data is awaited from host or fabric memory (R214). -/
def farOf (l : List (Acc × Verdict)) : List (Acc × Nat) :=
  l.filterMap fun x => match x.2 with
    | .ok ps => if x.1.returns then (farSource ps).map fun n => (x.1, n) else none
    | _ => none

/-- The lost device that a list of verdicts names first. -/
def lostDevice (l : List (Acc × Verdict)) : Nat :=
  match l with
  | [] => 0
  | (_, .lost d) :: _ => d
  | _ :: t => lostDevice t

/-- A team ends because of a machine check (R231, R232): STATUS.mcheck is set and vector 1 raised (R393, R394); in firmware mode Thexo
raises it when it has consumed the machine check's record (R403, duty 4). -/
def machineCheckTeam (s : State) (tk : Nat) (g : Group) : State :=
  let s := abortTeam s tk g.gid .machineCheck g.trapcause (g.trappc.setWidth 64) g.trapaddr
  { s with
    ctl := { s.ctl with mcheck := true }
    outputs := if s.ctl.init.getLsbD 4 then s.outputs ++ [.msix 1] else s.outputs }

/-! The scratchpad (R179, R247, R287). -/

/-- The planes of a team's scratchpad, the primal's included. -/
def Team.planes (t : Team) : Nat := t.width + 1

/-- A scratchpad range touches a compressed region, in any plane (R246, R247). -/
def Team.compressed (t : Team) (o n : Nat) : Bool :=
  t.w != 0 && t.regions.any fun r =>
    (List.range t.planes).any fun k => overlap o n (k * t.w + r.1 * 4096) (r.2 * 4096)

/-- A scratchpad range runs past the plane, or a plane access past the last plane (row 3 of R282). -/
def Team.beyond (t : Team) (plane : Nat) (o : Int) (n : Nat) : Bool :=
  o < 0 || (t.w : Int) < o + n || t.planes * t.w < plane * t.w + o.toNat + n

/-- Scratchpad bytes of a team. -/
def Team.readScratch (t : Team) (o n : Nat) : List Byte := bytesAt t.scratch o n

/-- Scratchpad bytes written. -/
def Team.writeScratch (t : Team) (o : Nat) (bs : List Byte) : Team := { t with scratch := setBytes t.scratch o bs }

/-- The lowest of some offsets, as TRAPADDR reports it. -/
def lowestOffset (l : List Int) : Word := BitVec.ofInt 64 ((l.foldl min (l.headD 0)))

end Sys2Proof.Machine
end

