-- ==== Sys2Proof/Machine/Legal.lean ====
section
/-! DEFINITION. Legality: the field values of every instruction word (R64 to R75, R111, R139, R185, R191, R220, R276 to
R298, R325, R331, R350, R371, R388, R392). What depends on the clause or on state (R20, R78, R103) is checked when the
instruction issues. -/

namespace Sys2Proof

/-- The number of values an SR instruction accepts in dest, src1 and src2 (64: any register; 1: the field is unused
and zero), and the function values it accepts. -/
structure SrRule where
  dest : Nat
  src1 : Nat
  src2 : Nat
  fn   : List Nat
  deriving DecidableEq, Repr

/-- An SR word keeps its rule (R64). -/
def SrRule.ok (r : SrRule) (f : SR) : Bool :=
  f.dest.toNat < r.dest && f.src1.toNat < r.src1 && f.src2.toNat < r.src2 && r.fn.contains f.fn.toNat

/-- The CSR instructions take any CSR number in the function field: R131 checks it at execution. -/
def csrOk (dest src1 : Nat) (f : SR) : Bool := f.dest.toNat < dest && f.src1.toNat < src1 && f.src2 == 0

/-- An SI word: limits on dest and src1, and the accepted f values. -/
def siOk (dest src1 f : Nat) (i : SI) : Bool := i.dest.toNat < dest && i.src1.toNat < src1 && i.f.toNat < f

/-- The function value of a queue or matrix instruction: the flag field [6:3] and the accepted low bits (R191, R326). -/
def flagFn (low : List Nat) : List Nat :=
  ((List.range 12) ++ [15]).flatMap fun n => low.map fun x => 8 * n + x

/-- The legal cond and source fields of BR (R65, R121). -/
def brOk (f : SB) : Bool :=
  let c := f.cond.toNat
  if c == 0 || (8 ≤ c && c ≤ 19) then f.src == 0 else 1 ≤ c && c ≤ 6

/-- The function fields of CSET, CADD and CRD (R388): a class 0 to 3, or class 0 with its attribute bit; bits [6:3] are zero. -/
def counterFn : List Nat := [0, 1, 2, 3, 4]

/-- SATOM's functions: .w, order, .u only with .min and .max, no op 7 (R294). -/
def satomFnOk (fn : Nat) : Bool :=
  let op := fn % 8
  op != 7 && (fn / 8 % 2 == 0 || op == 5 || op == 6)

/-- SCAS's fields: .w and .q not together; with .q even dest and src2 (R294). -/
def scasOk (f : SR) : Bool :=
  let fn := f.fn.toNat
  let q := fn / 8 % 2 == 1
  fn % 8 == 0 && !(q && fn / 64 == 1) && (!q || (f.dest.toNat % 2 == 0 && f.src2.toNat % 2 == 0))

/-- What a lane source field may hold. -/
inductive SrcKind where
  /-- not read: zero -/
  | unused
  /-- any source of R68 but the immediate -/
  | any
  /-- any source of R68, the immediate among them -/
  | orImm
  /-- V0 to V383, or Q0 to Q383 -/
  | vector
  /-- P0 to P7 -/
  | pred
  /-- the low register of a pair, 0 to 382 -/
  | pair
  /-- an S register -/
  | scalar
  /-- an S register or ZERO -/
  | scalarOrZero
  /-- an S register or the immediate -/
  | scalarOrImm
  deriving DecidableEq, Repr

/-- What a lane destination field may hold. -/
inductive DestKind where
  | unused | vector | scale | pred
  deriving DecidableEq, Repr

/-- A register field of R68 other than the reserved values and the immediate. -/
def fieldOk (n : Nat) : Bool := n < 448 || (505 ≤ n && n < 512)

/-- A source field of the given kind. -/
def SrcKind.ok (k : SrcKind) (f : BitVec 9) : Bool :=
  let n := f.toNat
  match k with
  | .unused => n == 0
  | .any => fieldOk n
  | .orImm => fieldOk n || n == 504
  | .vector => n < 384
  | .pred => n < 8
  | .pair => n < 383
  | .scalar => 384 ≤ n && n < 448
  | .scalarOrZero => (384 ≤ n && n < 448) || n == 511
  | .scalarOrImm => (384 ≤ n && n < 448) || n == 504

/-- A destination field of the given kind (R70, R135). -/
def DestKind.ok (k : DestKind) (f : BitVec 9) : Bool :=
  let n := f.toNat
  match k with
  | .unused => n == 0
  | .vector => n < 384 || n == 511
  | .scale => n < 384
  | .pred => n < 8

/-- The legal fields of a lane word: sources, types, which sources carry modifiers, whether the word rounds (and in
which modes), scales, clamps and counts, the long bit, and the function bits. -/
structure LaneRule where
  dest  : DestKind
  a     : SrcKind
  b     : SrcKind
  c     : SrcKind
  types : List Nat
  mods  : Nat
  round : Nat
  scale : Bool
  clamp : Bool
  nf    : Bool
  long  : Bool
  fn    : Nat → Bool

/-- The word is an immediate form (R73). `opb` says whether srcB is a register field. -/
def LaneWord.immForm (w : LaneWord) : Bool := w.srcA == 504 || w.srcB == 504

/-- The 32-bit immediate of an immediate form (R73). -/
def LaneWord.imm (w : LaneWord) : LaneW := w.srcC ++ w.fn.extractLsb' 0 23

/-- The function bits that the instruction reads: in an immediate form only [24:23] (R73). -/
def LaneWord.func (w : LaneWord) : Nat :=
  if w.immForm then w.fn.toNat / 2 ^ 23 * 2 ^ 23 else w.fn.toNat

/-- A lane word keeps its rule (R70 to R75). `round` is the number of rounding values accepted; `mods` is a mask over
the six modifier bits. -/
def LaneRule.ok (r : LaneRule) (w : LaneWord) : Bool :=
  let f := w.func
  r.dest.ok w.dest && r.a.ok w.srcA && r.b.ok w.srcB
    && (if w.immForm then r.c == .unused && w.mods.toNat % 4 == 0 else r.c.ok w.srcC)
    && r.types.contains w.ty.toNat
    && (w.mods.toNat &&& (63 - r.mods)) == 0
    && w.round.toNat < r.round
    && (r.scale || w.dscale == 0) && (r.clamp || w.clamp == 0)
    && (r.nf || f < 2 ^ 24) && r.fn (f % 2 ^ 24)
    && (w.long == if r.long then 1 else 0) && (r.long || w.fsel == 0)

/-- The types of FADD and its relatives. -/
def fpTypes : List Nat := [0, 1, 2]
/-- The types of IADD and its relatives. -/
def intTypes : List Nat := [9, 10, 11, 12, 13, 14]
/-- The MX element types. -/
def mxTypes : List Nat := [3, 4, 5, 6, 7, 8]
/-- Every type but the reserved one. -/
def allTypes : List Nat := List.range 15

/-- No function bit but .nf is used. -/
def fnZero (f : Nat) : Bool := f == 0

/-- A floating-point instruction of R139 with sources a, b and c. -/
def fpRule (a b c : SrcKind) (types : List Nat) (mods round : Nat) : LaneRule :=
  ⟨.vector, a, b, c, types, mods, round, true, true, true, false, fnZero⟩

/-- An integer instruction of R139. -/
def intRule (a b c : SrcKind) (types : List Nat) (mods : Nat) (clamp : Bool) : LaneRule :=
  ⟨.vector, a, b, c, types, mods, 1, false, clamp, false, false, fnZero⟩

/-- An instruction that moves bits: no modifier, no rounding, no scale, no clamp. -/
def moveRule (d : DestKind) (a b c : SrcKind) (types : List Nat) (fn : Nat → Bool) : LaneRule :=
  ⟨d, a, b, c, types, 0, 1, false, false, false, false, fn⟩

/-- Modifier masks: A, B, C. -/
def modA : Nat := 0x30
/-- Modifiers of A and B. -/
def modAB : Nat := 0x3C
/-- Modifiers of A, B and C. -/
def modABC : Nat := 0x3F

/-- A compare's function: a legal combine and, for integers, cc 0 to 5 (R142, R150). -/
def cmpFn (int : Bool) (f : Nat) : Bool := f < 24 && (!int || f % 8 < 6)

/-- A type code is a floating-point one. -/
def isFpType (t : Nat) : Bool := t ≤ 8
/-- The slots per lane of a type (R71). -/
def slotsOf (t : Nat) : Nat :=
  if t == 0 || t == 9 || t == 10 then 1
  else if t == 1 || t == 2 || t == 11 || t == 12 then 2
  else if t == 7 || t == 8 then 8
  else 4

/-- CVT's further checks (R153): part below the ratio, no E2M1X, .nansat and clamp, round and scale as the types allow. -/
def cvtOk (w : LaneWord) : Bool :=
  let d := w.ty.toNat
  let f := w.func
  let s := f / 16 % 16
  let part := f % 8
  let nansat := f / 8 % 2 == 1
  let es := slotsOf s
  let ed := slotsOf d
  d != 8 && s != 8 && d != 15 && s != 15 && part < (if es ≤ ed then ed / es else es / ed)
    && (!nansat || (isFpType d && w.clamp != 3))
    && (isFpType d || (w.dscale == 0 && f < 2 ^ 24 && (isFpType s || w.round == 0)))

/-- The types of PACK and UNPK with their slot width (R154). -/
def packWidth (t : Nat) : Nat :=
  if t == 1 || t == 2 || t == 11 || t == 12 then 16 else if t == 7 || t == 8 then 4 else 8

/-- The types of PACK and UNPK (R154). -/
def packTypes : List Nat := [1, 2, 3, 4, 5, 6, 7, 8, 11, 12, 13, 14]

/-- The types an op of R166 accepts. -/
def treeTypes (op : Nat) : List Nat :=
  if op ≤ 2 then fpTypes else if 4 ≤ op && op ≤ 6 then [9, 10] else if 8 ≤ op && op ≤ 10 then [10] else []

/-- SCAN's and REDUX's fields: op and type, rounding and .nf only for the floating-point ops, no stochastic mode. -/
def treeRule (op : Nat) (fn : Nat → Bool) : LaneRule :=
  ⟨.vector, .any, .unused, .unused, treeTypes op, modA, if op ≤ 2 then 6 else 1, false, false, op ≤ 2, false, fn⟩

/-- SFHL to UNPK need a slot number below 32 / width (R154). -/
def packFn (t f : Nat) : Bool := f < 8 && f < 32 / packWidth t

/-- A tangent move's k and .q (R185). -/
def tangentFn (f : Nat) : Bool := f < 16 && 1 ≤ f % 8 && f % 8 ≤ 4

/-- TCLR: k from 1 to 4, or .all with k 0 (R185). -/
def tclrFn (f : Nat) : Bool := f < 32 && (if f / 16 == 1 then f % 8 == 0 else 1 ≤ f % 8 && f % 8 ≤ 4)

/-- The number of registers of a memory size (R279). -/
def sizeRegs (size : Nat) : Nat := if size == 3 then 2 else if size == 4 then 4 else 1

/-- A data source: a multi-register one must be a vector register (R135). -/
def dataSrc (size : Nat) : SrcKind := if sizeRegs size == 1 then .any else .vector

/-- The fields of the lane memory word's function (R278). -/
structure MemFn where
  ap    : Nat
  order : Nat
  size  : Nat
  off   : Int
  op    : Nat
  deriving DecidableEq, Repr

/-- The function bits of LD, ST, LDX, STX, LDS, STS and ACAS. -/
def memFn (w : LaneWord) : MemFn :=
  let f := w.fn.toNat
  ⟨f / 2 ^ 20 % 16, f / 2 ^ 18 % 4, f / 2 ^ 15 % 8, (w.fn.extractLsb' 0 15).toInt, 0⟩

/-- The function bits of ATOM and ARED: op in [14:11], an 11-bit offset. -/
def atomFn (w : LaneWord) : MemFn :=
  let f := w.fn.toNat
  ⟨f / 2 ^ 20 % 16, f / 2 ^ 18 % 4, f / 2 ^ 15 % 8, (w.fn.extractLsb' 0 11).toInt, f / 2 ^ 11 % 16⟩

/-- A lane memory word (R278): `ap` says whether it names an aperture. -/
def memRule (d : DestKind) (a b c : SrcKind) (types : List Nat) (fn : Nat → Bool) : LaneRule :=
  ⟨d, a, b, c, types, 0, 1, false, false, false, true, fn⟩

/-- The types of a load: .s32 sign-extends .b8 and .b16 (R281). -/
def loadTypes (size : Nat) : List Nat := if size ≤ 1 then [0, 9] else [0]

/-- The order field of a load, a store or an atomic, and a legal size. -/
def orderOk (orders : List Nat) (aperture : Bool) (w : LaneWord) : Bool :=
  let m := memFn w
  orders.contains m.order && m.size < 6 && (aperture || m.ap == 0)

/-- R289's table of ops, types and sizes. -/
def atomOk (red : Bool) (w : LaneWord) : Bool :=
  let m := atomFn w
  let t := w.ty.toNat
  let f32 := t == 0 && m.size == 2 && (m.op ≤ 2 || m.op == 6)
  let bf := t == 1 && m.size == 2 && m.op == 0
  let int := (t == 9 || t == 10) && (m.size == 2 || m.size == 3) && m.op ≤ 6
  (f32 || bf || int) && !(red && m.op == 6)

/-- Every function value is read by the caller. -/
def fnAny (_ : Nat) : Bool := true

/-- The lane instructions' legality. -/
def laneOk (r : LaneRule) (w : LaneWord) (more : Bool) : Bool := r.ok w && more

/-- LDQ and STQ name no immediate; block count, distance and offset take any value (R288). -/
def ldqOrder (w : LaneWord) : Nat := w.fn.toNat / 2 ^ 18 % 4

/-- BRA's word: every field between roff and the predicate, and below it, zero (R168). -/
def braOk (w : LaneWord) : Bool :=
  w.srcB == 0 && w.srcC == 0 && w.ty == 0 && w.mods == 0 && w.clamp == 0 && w.dscale == 0 && w.round == 0
    && w.fsel == 0 && w.long == 0 && w.fn.toNat < 2 ^ 24

/-- TSET's word: srcB carries k and .q, and an immediate A uses srcC and function [22:0] (R185). -/
def tsetOk (w : LaneWord) : Bool :=
  let b := w.srcB.toNat
  let q := b / 8 % 2 == 1
  let isImm := w.srcA == 504
  DestKind.vector.ok w.dest && (if q then SrcKind.vector.ok w.srcA else SrcKind.orImm.ok w.srcA)
    && b < 16 && 1 ≤ b % 8 && b % 8 ≤ 4 && allTypes.contains w.ty.toNat && w.mods == 0 && w.clamp == 0
    && w.dscale == 0 && w.round == 0 && w.fsel == 0 && w.long == 0
    && (if isImm then w.fn.toNat < 2 ^ 23 else w.fn == 0 && w.srcC == 0)

/-- SPAWNL's word (R331). -/
def spawnlOk (w : LaneWord) : Bool :=
  (memRule .unused .pair .scalarOrImm .unused [0] fnAny).ok w && (if w.immForm then w.fn.toNat < 2 ^ 23 else w.fn == 0)

/-- RQNT's and DQNT's blocks: .b16 in bit 0, .nansat in bit 1 of RQNT. -/
def below (n f : Nat) : Bool := f < n

/-- MOVX's two forms (R161). -/
def movxRule (w : LaneWord) : LaneRule :=
  let st := w.fn.toNat / 2 ^ 23 == 1
  moveRule (if st then .unused else .vector) (if st then .any else .unused) .scalar .unused allTypes
    fun f => f % 2 ^ 23 < 2 ^ 16

/-- VOTE's four kinds: ballot writes a vector register (R164). -/
def voteRule (w : LaneWord) : LaneRule :=
  moveRule (if w.fn.toNat % 4 == 3 then .vector else .pred) .pred .unused .unused [0] (below 8)

/-- The word of an instruction is legal. An event has no word. -/
def legalWord (i : Instr) : Bool :=
  match i with
  | .add f | .sub f => SrRule.ok ⟨64, 64, 64, [0, 1, 4, 5, 6, 7]⟩ f
  | .mul f => SrRule.ok ⟨64, 64, 64, [0, 1, 4, 5, 6, 7, 8, 10]⟩ f
  | .div f => SrRule.ok ⟨64, 64, 64, [0, 1, 2, 3, 8, 9, 10, 11]⟩ f
  | .min f | .max f | .shr f => SrRule.ok ⟨64, 64, 64, [0, 1, 2, 3]⟩ f
  | .and f | .or f | .xor f | .bfi f => SrRule.ok ⟨64, 64, 64, [0]⟩ f
  | .shl f | .rotl f => SrRule.ok ⟨64, 64, 64, [0, 1]⟩ f
  | .clz f | .popc f => SrRule.ok ⟨64, 64, 1, [0, 1]⟩ f
  | .bfx f => SrRule.ok ⟨64, 64, 64, [0, 2]⟩ f
  | .cmp f => SrRule.ok ⟨64, 64, 64, [0, 1, 2, 3, 4, 5, 8, 9, 10, 11, 12, 13]⟩ f
  | .sel f => SrRule.ok ⟨64, 64, 64, [0, 8, 9, 10, 11, 12, 13, 14, 15, 16, 17, 18, 19]⟩ f
  | .jr f => SrRule.ok ⟨64, 64, 1, [0]⟩ f
  | .csrr f => csrOk 64 1 f
  | .csrw f => csrOk 1 64 f
  | .csrx f => csrOk 64 64 f
  | .lrun f => f.dest == 0 && f.fn == 0
  | .lsync f | .uliret f | .await f | .exit f | .yield f | .tbar f | .keydel f | .msync f =>
      SrRule.ok ⟨1, 1, 1, [0]⟩ f
  | .addi f => siOk 64 64 2 f
  | .shri f => siOk 64 64 2 f && f.imm.toNat < 64
  | .andi f | .ori f | .xori f => siOk 64 64 1 f
  | .shli f => siOk 64 64 2 f && f.imm.toNat < (if f.f == 1 then 32 else 64)
  | .cmpi f => siOk 64 64 2 f
  | .fwait f => siOk 1 1 2 f
  | .fset f | .fclr f => siOk 1 1 1 f
  | .trap f => siOk 1 1 1 f && f.imm.toNat < 2048
  | .tret f => SrRule.ok ⟨1, 1, 1, [0]⟩ f
  | .tretPark f => SrRule.ok ⟨1, 1, 1, [1]⟩ f
  | .tretAbort f => SrRule.ok ⟨1, 1, 1, [2]⟩ f
  | .lui _ | .addpc _ => true
  | .br f => brOk f
  | .loop f => f.cond == 0 && f.src != 0
  | .li f => f.src1 == 0 && f.fn == 0
  | .liHi f => f.src1 == 0 && f.fn == 1
  | .call f => f.src1 == 0 && f.fn == 0 && f.imm.toNat % 4 == 0
  | .mld f => SrRule.ok ⟨1, 64, 64, flagFn [0, 1]⟩ f
  | .mma f | .mdrain f => SrRule.ok ⟨1, 64, 64, flagFn [0]⟩ f
  | .mma2 f | .mvnb f => SrRule.ok ⟨64, 64, 64, flagFn [0]⟩ f
  | .mzero f => SrRule.ok ⟨1, 1, 1, flagFn [0, 1, 2, 3, 4]⟩ f
  | .mmode f => SrRule.ok ⟨1, 1, 1, flagFn [0, 1]⟩ f
  | .apset f => SrRule.ok ⟨16, 64, 64, [0]⟩ f
  | .apclr f => SrRule.ok ⟨16, 1, 1, [0]⟩ f
  | .satom f => satomFnOk f.fn.toNat
  | .scas f => scasOk f
  | .waita f => SrRule.ok ⟨64, 1, 1, [0]⟩ f
  | .pref f => f.data.toNat < 2 && f.f == 0
  | .tlbinv f => if f.fn == 1 then SrRule.ok ⟨1, 1, 1, [1]⟩ f else SrRule.ok ⟨1, 64, 1, [0]⟩ f
  | .keyld f => SrRule.ok ⟨1, 64, 1, [0]⟩ f
  | .sld _ _ | .sst _ _ => true
  | .shpld f => SrRule.ok ⟨64, 64, 1, [0]⟩ f
  | .shpinv f => if f.fn == 1 then SrRule.ok ⟨1, 1, 1, [1]⟩ f else SrRule.ok ⟨1, 64, 1, [0]⟩ f
  | .cset f | .cadd f => SrRule.ok ⟨64, 64, 64, counterFn⟩ f
  | .crd f => SrRule.ok ⟨64, 64, 1, counterFn⟩ f
  | .pcfg f => SrRule.ok ⟨1, 64, 64, [0]⟩ f
  | .launch f | .commit f => SrRule.ok ⟨64, 64, 1, [0]⟩ f
  | .spawn f => f.dest == 0 && f.fn.toNat < 16 && f.imm.toNat % 4 == 0
  | .rpush f | .rpop f => SrRule.ok ⟨16, 64, 64, flagFn [0]⟩ f
  | .rwait f => SrRule.ok ⟨64, 16, 1, [0, 1]⟩ f
  | .cpy f | .coll f => SrRule.ok ⟨1, 64, 1, flagFn [0]⟩ f
  | .gacc f => SrRule.ok ⟨64, 64, 1, flagFn [0, 1, 2, 3]⟩ f && (f.fn.toNat % 2 == 0 || f.src1.toNat < 16)
  | .strm f => SrRule.ok ⟨1, 64, 64, flagFn [0]⟩ f
  | .fadd w | .fmul w => (fpRule .orImm .orImm .unused fpTypes modAB 7).ok w
  | .ffma w => (fpRule .any .any .any fpTypes modABC 7).ok w
  | .fmin w | .fmax w => (fpRule .orImm .orImm .unused fpTypes modAB 6).ok w
  | .fcmp w => LaneRule.ok ⟨.pred, .any, .any, .unused, [0], modAB, 1, false, false, false, false, cmpFn false⟩ w
  | .fclass w => (intRule .any .unused .unused fpTypes 0 false).ok w
  | .fexp2 w | .flog2 w | .frcp w | .frsq w | .fsqrt w | .fsin w | .fcos w | .ftanh w | .fexpo w =>
      (fpRule .orImm .unused .unused fpTypes modA 7).ok w
  | .frnd w => (fpRule .orImm .unused .unused fpTypes modA 6).ok w
  | .fscl w => (fpRule .orImm .orImm .unused fpTypes modA 7).ok w
  | .fdot w => (fpRule .any .any .any [1, 2, 3, 4, 5, 6] modABC 7).ok w
  | .mxdot w => LaneRule.ok ⟨.vector, .vector, .vector, .any, mxTypes, modABC, 7, true, true, true, false, below 4⟩ w
  | .idot w => (intRule .any .any .any [11, 12, 13, 14] modABC true).ok w
  | .iadd w | .isub w | .imul w => (intRule .orImm .orImm .unused intTypes modAB true).ok w
  | .imad w => (intRule .any .any .any intTypes modABC true).ok w
  | .imulh w | .imin w | .imax w => (intRule .orImm .orImm .unused intTypes modAB false).ok w
  | .icmp w => LaneRule.ok ⟨.pred, .any, .any, .unused, [9, 10], modAB, 1, false, false, false, false, cmpFn true⟩ w
  | .iand w | .ior w | .ixor w => (intRule .orImm .orImm .unused [9, 10] 0 false).ok w
  | .ishl w | .ishr w => (intRule .orImm .orImm .unused intTypes 0 false).ok w
  | .ipopc w | .iclz w => (intRule .any .unused .unused [10, 12, 14] 0 false).ok w
  | .ibfx w => (intRule .any .any .any [9, 10] 0 false).ok w
  | .cvt w => LaneRule.ok ⟨.vector, .any, .unused, .unused, allTypes, modA, 7, true, true, true, false, below 256⟩ w
      && cvtOk w
  | .pack w => (moveRule .vector .any .any .unused packTypes (packFn w.ty.toNat)).ok w
  | .unpk w => (moveRule .vector .any .unused .unused packTypes (packFn w.ty.toNat)).ok w
  | .rqnt w => LaneRule.ok ⟨.vector, .vector, .unused, .unused, mxTypes, modA, 7, false, false, true, false, below 4⟩ w
  | .dqnt w => LaneRule.ok ⟨.vector, .vector, .unused, .unused, mxTypes, 0, 7, true, true, true, false, below 2⟩ w
  | .qmov w => (moveRule .scale .vector .unused .unused [0] fnZero).ok w
  | .qset w => (moveRule .scale .orImm .unused .unused [0] fnZero).ok w
  | .qget w => (moveRule .vector .vector .unused .unused [10] fnZero).ok w
  | .plop w => (moveRule .pred .pred .pred .pred [0] (below 256)).ok w
  | .pset w => (moveRule .pred .orImm .unused .unused [0] fun f => f % 2 ^ 23 == 0).ok w
  | .pmov w => (moveRule (if w.fn.toNat / 2 ^ 23 == 1 then .vector else .pred) .pred .unused .unused [0]
      fun f => f % 2 ^ 23 == 0).ok w
  | .mov w => (moveRule .vector .orImm .unused .unused allTypes fnZero).ok w
  | .movx w => (movxRule w).ok w
  | .selLane w => (moveRule .vector .any .any .unused allTypes (below 16)).ok w
  | .shfl w => (moveRule .vector .any .any .unused allTypes (below 4)).ok w
  | .vote w => (voteRule w).ok w
  | .bcast w => (moveRule .vector .any (if w.func / 2 ^ 23 % 2 == 1 then .unused else .orImm) .unused allTypes
      fun f => f % 2 ^ 23 == 0).ok w
  | .scan w => (treeRule (w.fn.toNat % 16) (below 32)).ok w
  | .redux w => (treeRule (w.fn.toNat % 16) (below 16)).ok w
  | .reduxPair w => LaneRule.ok ⟨.vector, .any, .any, .unused, [0], modAB, 1, false, false, true, false,
      fun f => f == 32⟩ w
  | .bra w => braOk w
  | .stop w => braOk w && w.dest == 0 && w.srcA == 0 && w.pred == 0 && w.pinv == 0 && w.fn == 0
  | .tget w => (moveRule .vector .vector .unused .unused [0] tangentFn).ok w
  | .tset w => tsetOk w
  | .tclr w => (moveRule .vector .unused .unused .unused [0] tclrFn).ok w
  | .tswp w => (moveRule .vector .unused .unused .unused [0] tangentFn).ok w
  | .ld w => (memRule .vector .unused .any .unused (loadTypes (memFn w).size) fnAny).ok w && orderOk [0, 1] true w
  | .st w => (memRule .unused (dataSrc (memFn w).size) .any .unused [0] fnAny).ok w && orderOk [0, 2] true w
  | .ldx w => (memRule .vector .unused .pair .unused (loadTypes (memFn w).size) fnAny).ok w && orderOk [0, 1] false w
  | .stx w => (memRule .unused (dataSrc (memFn w).size) .pair .unused [0] fnAny).ok w && orderOk [0, 2] false w
  | .lds w => (memRule .vector .unused .any .unused (loadTypes (memFn w).size) fnAny).ok w && orderOk [0, 1] false w
  | .sts w => (memRule .unused (dataSrc (memFn w).size) .any .unused [0] fnAny).ok w && orderOk [0, 2] false w
  | .ldq w => (memRule .scale .unused .scalarOrZero .unused [0] fnAny).ok w && [0, 1].contains (ldqOrder w)
  | .stq w => (memRule .unused .vector .scalarOrZero .unused [0] fnAny).ok w && [0, 2].contains (ldqOrder w)
  | .atom w => (memRule .vector (dataSrc (atomFn w).size) .any .unused [0, 1, 9, 10] fnAny).ok w && atomOk false w
  | .acas w => (memRule .vector (dataSrc (memFn w).size) .any (dataSrc (memFn w).size) [0] fnAny).ok w
      && [2, 3, 4].contains (memFn w).size
  | .ared w => (memRule .unused (dataSrc (atomFn w).size) .any .unused [0, 1, 9, 10] fnAny).ok w && atomOk true w
      && [0, 2].contains (atomFn w).order
  | .spawnl w => spawnlOk w
  | .rng w => (memRule .vector .unused .unused .unused [0, 10] (below 4)).ok w
  | .micConv fmt mode => fmt.toNat < 3 && mode.toNat < 7
  | .micQuant fmt _ _ mode => 3 ≤ fmt.toNat && fmt.toNat ≤ 8 && mode.toNat < 7
  | .micStep coord _ => coord.toNat < 3
  | .micEnd | .micLoad | .micXpose | .micPush _ | .micSetc _ _ | .micLoop _ _ | .micZero | .clauseStart _ _
  | .laneProgramStart _ | .splitArrival _ _ | .laneMemoryComplete _ _ | .rngComplete _ _
  | .pendingChildPlacement _ | .continuationResume _ | .continuationEviction _ | .gridEnqueue _
  | .gridEligible _ | .teamPlacement _ | .sramReclaim _ | .gridComplete _ | .matrixPassStart _
  | .matrixCommandComplete _ | .transitCommandStart _ | .transitCopyComplete _ _ | .gaccComplete _ _
  | .collectiveComplete _ _ | .coelostatProgramStart _ | .strmComplete _ | .ringPushComplete _ _
  | .ringPopComplete _ _ | .trapEntry _ | .userInterruptDelivery _ | .preempt _ _
  | .dispatcherPreemptionRequest _ | .teamSave _ | .preemptionDeadline _ | .teamRestore _ | .machineCheck _
  | .dieLinkFailure _ _ _ | .pageWalk _ _ _ | .walkMigratingTimeout _ _ | .faultRecord _
  | .pageServiceComplete _ _ _ _ _ _ | .sideLogReplay _ _ | .leaseExpiry _ _ | .orreryRequest _ _ _ _
  | .regionMerge _ _ | .lineWriteBack _ | .incarnationChange _ | .fabricDeviceUp _ | .fabricPathTimeout _
  | .hostCompletionTimeout _ _ | .hostWrite _ _ | .hostRead _ _ | .hostAtomicop _ _ _ _ _
  | .ualinkIncomingAccess _ _ _ | .mbox _ | .dispatchRequest | .initDone _ | .svcdone _ | .fgtdata _
  | .checkpoint | .restore | .checkpointEnd | .controlRegisterWrite _ _ | .deviceReset | .thermalTrip
  | .telemetryUpdate _ | .recover _ | .fusedMinimumRaise _ | .attestation | .coreCycle
  | .scalarAccessComplete _ _ | .correctedError _ _ | .linkRetry _ _ => true

end Sys2Proof
end

