-- ==== Sys2Proof/WellFormed.lean ====
section
/-! DEFINITION. Well-formed instructions: those whose word R81 does not call illegal. The field values each instruction
accepts stand in Machine/Legal.lean. -/

namespace Sys2Proof

/-- An instruction is well-formed: its word, if it has one, is legal (R64, R72, R81). -/
def Instr.wf (i : Instr) : Bool := legalWord i

end Sys2Proof
end

