-- ==== Sys2Proof/Decode.lean ====
section
/-! DEFINITION. Decoding: the layouts of R63, R67, R76 and R350, the opcode maps of R79, R80 and R350, a decoder that is
total on any word and rejects what R81 calls illegal, and an encoder from the same tables. -/

namespace Sys2Proof

/-- Why a word is no instruction (R81). -/
inductive Reject where
  /-- no instruction has this opcode, or none of its rows this function -/
  | unassigned (opcode : Nat)
  /-- a field holds a value that the instruction does not accept -/
  | illegal (i : Instr)
  /-- a clause header that R77 calls illegal -/
  | badHeader
  deriving DecidableEq, Repr

/-- The fields of an SR word (R63). -/
def SR.ofWord (w : BitVec 32) : SR := ⟨w.extractLsb' 19 6, w.extractLsb' 13 6, w.extractLsb' 7 6, w.extractLsb' 0 7⟩
/-- The fields of an SI word (R63). -/
def SI.ofWord (w : BitVec 32) : SI := ⟨w.extractLsb' 19 6, w.extractLsb' 13 6, w.extractLsb' 1 12, w.extractLsb' 0 1⟩
/-- The fields of an SM word (R63). -/
def SM.ofWord (w : BitVec 32) : SM := ⟨w.extractLsb' 19 6, w.extractLsb' 13 6, w.extractLsb' 1 12, w.extractLsb' 0 1⟩
/-- The fields of an SU word: imm20[19] is bit 25 (R64). -/
def SU.ofWord (w : BitVec 32) : SU := ⟨w.extractLsb' 19 6, w.extractLsb' 25 1 ++ w.extractLsb' 0 19⟩
/-- The fields of an SB word (R63). -/
def SB.ofWord (w : BitVec 32) : SB := ⟨w.extractLsb' 20 5, w.extractLsb' 14 6, w.extractLsb' 0 14⟩
/-- The fields of an SX word and its extension word (R63, R66). -/
def SX.ofWords (w x : BitVec 32) : SX := ⟨w.extractLsb' 19 6, w.extractLsb' 13 6, w.extractLsb' 0 13, x⟩
/-- The fields of a lane word (R67). -/
def LaneWord.ofWord (w : BitVec 96) : LaneWord where
  dest := w.extractLsb' 77 9
  srcA := w.extractLsb' 68 9
  srcB := w.extractLsb' 59 9
  srcC := w.extractLsb' 50 9
  ty := w.extractLsb' 46 4
  pred := w.extractLsb' 43 3
  pinv := w.extractLsb' 42 1
  mods := w.extractLsb' 36 6
  clamp := w.extractLsb' 34 2
  dscale := w.extractLsb' 30 4
  round := w.extractLsb' 27 3
  fsel := w.extractLsb' 26 1
  long := w.extractLsb' 25 1
  fn := w.extractLsb' 0 25

/-- TRET's three functions are three rows (R220). -/
def trets (f : SR) : Option Instr :=
  if f.fn = 0 then some (.tret f) else if f.fn = 1 then some (.tretPark f) else if f.fn = 2 then some (.tretAbort f) else none

/-- LI's two functions are two rows (R118). -/
def lis (f : SX) : Option Instr :=
  if f.fn = 0 then some (.li f) else if f.fn = 1 then some (.liHi f) else none

/-- REDUX with and without .pair are two rows (R166, R167). -/
def reduxes (w : LaneWord) : Option Instr :=
  if w.fn.getLsbD 5 then some (.reduxPair w) else some (.redux w)

/-- The scalar opcode map (R79), before the legality checks. -/
def scalarForm (w x : BitVec 32) : Option Instr :=
  match (w.extractLsb' 25 7).toNat with
  | 0x00 => some (.add (SR.ofWord w))
  | 0x01 => some (.sub (SR.ofWord w))
  | 0x02 => some (.mul (SR.ofWord w))
  | 0x03 => some (.div (SR.ofWord w))
  | 0x04 => some (.min (SR.ofWord w))
  | 0x05 => some (.max (SR.ofWord w))
  | 0x06 => some (.and (SR.ofWord w))
  | 0x07 => some (.or (SR.ofWord w))
  | 0x08 => some (.xor (SR.ofWord w))
  | 0x09 => some (.shl (SR.ofWord w))
  | 0x0A => some (.shr (SR.ofWord w))
  | 0x0B => some (.rotl (SR.ofWord w))
  | 0x0C => some (.clz (SR.ofWord w))
  | 0x0D => some (.popc (SR.ofWord w))
  | 0x0E => some (.bfx (SR.ofWord w))
  | 0x0F => some (.bfi (SR.ofWord w))
  | 0x10 => some (.cmp (SR.ofWord w))
  | 0x11 => some (.sel (SR.ofWord w))
  | 0x12 => some (.jr (SR.ofWord w))
  | 0x13 => some (.csrr (SR.ofWord w))
  | 0x14 => some (.csrw (SR.ofWord w))
  | 0x15 => some (.csrx (SR.ofWord w))
  | 0x16 => some (.lrun (SX.ofWords w x))
  | 0x17 => some (.lsync (SR.ofWord w))
  | 0x18 => some (.addi (SI.ofWord w))
  | 0x19 => some (.andi (SI.ofWord w))
  | 0x1A => some (.ori (SI.ofWord w))
  | 0x1B => some (.xori (SI.ofWord w))
  | 0x1C => some (.shli (SI.ofWord w))
  | 0x1D => some (.shri (SI.ofWord w))
  | 0x1E => some (.cmpi (SI.ofWord w))
  | 0x1F => some (.fwait (SI.ofWord w))
  | 0x20 => some (.fset (SI.ofWord w))
  | 0x21 => some (.fclr (SI.ofWord w))
  | 0x22 => some (.trap (SI.ofWord w))
  | 0x23 => trets (SR.ofWord w)
  | 0x24 => some (.uliret (SR.ofWord w))
  | 0x28 => some (.lui (SU.ofWord w))
  | 0x29 => some (.lui (SU.ofWord w))
  | 0x2A => some (.addpc (SU.ofWord w))
  | 0x2B => some (.addpc (SU.ofWord w))
  | 0x2C => some (.br (SB.ofWord w))
  | 0x2D => some (.loop (SB.ofWord w))
  | 0x2E => lis (SX.ofWords w x)
  | 0x2F => some (.call (SX.ofWords w x))
  | 0x30 => some (.mld (SR.ofWord w))
  | 0x31 => some (.mma (SR.ofWord w))
  | 0x32 => some (.mma2 (SR.ofWord w))
  | 0x33 => some (.mdrain (SR.ofWord w))
  | 0x34 => some (.mzero (SR.ofWord w))
  | 0x35 => some (.mmode (SR.ofWord w))
  | 0x36 => some (.mvnb (SR.ofWord w))
  | 0x37 => some (.msync (SR.ofWord w))
  | 0x40 => some (.apset (SR.ofWord w))
  | 0x41 => some (.apclr (SR.ofWord w))
  | 0x42 => some (.satom (SR.ofWord w))
  | 0x43 => some (.scas (SR.ofWord w))
  | 0x44 => some (.waita (SR.ofWord w))
  | 0x45 => some (.pref (SM.ofWord w))
  | 0x46 => some (.tlbinv (SR.ofWord w))
  | 0x47 => some (.keyld (SR.ofWord w))
  | 0x48 => some (.sld 0 (SM.ofWord w))
  | 0x49 => some (.sld 1 (SM.ofWord w))
  | 0x4A => some (.sld 2 (SM.ofWord w))
  | 0x4B => some (.sld 3 (SM.ofWord w))
  | 0x4C => some (.sst 0 (SM.ofWord w))
  | 0x4D => some (.sst 1 (SM.ofWord w))
  | 0x4E => some (.sst 2 (SM.ofWord w))
  | 0x4F => some (.sst 3 (SM.ofWord w))
  | 0x50 => some (.keydel (SR.ofWord w))
  | 0x51 => some (.shpld (SR.ofWord w))
  | 0x52 => some (.shpinv (SR.ofWord w))
  | 0x53 => some (.cset (SR.ofWord w))
  | 0x54 => some (.cadd (SR.ofWord w))
  | 0x55 => some (.crd (SR.ofWord w))
  | 0x56 => some (.pcfg (SR.ofWord w))
  | 0x58 => some (.launch (SR.ofWord w))
  | 0x59 => some (.spawn (SX.ofWords w x))
  | 0x5A => some (.await (SR.ofWord w))
  | 0x5B => some (.exit (SR.ofWord w))
  | 0x5C => some (.yield (SR.ofWord w))
  | 0x5D => some (.tbar (SR.ofWord w))
  | 0x5E => some (.rpush (SR.ofWord w))
  | 0x5F => some (.rpop (SR.ofWord w))
  | 0x60 => some (.rwait (SR.ofWord w))
  | 0x61 => some (.cpy (SR.ofWord w))
  | 0x62 => some (.gacc (SR.ofWord w))
  | 0x63 => some (.commit (SR.ofWord w))
  | 0x64 => some (.coll (SR.ofWord w))
  | 0x65 => some (.strm (SR.ofWord w))
  | _ => none

/-- The lane opcode map (R80), before the legality checks. -/
def laneForm (op : BitVec 10) (w : LaneWord) : Option Instr :=
  match op.toNat with
  | 0x01 => some (.fadd w)
  | 0x02 => some (.fmul w)
  | 0x03 => some (.ffma w)
  | 0x04 => some (.fmin w)
  | 0x05 => some (.fmax w)
  | 0x06 => some (.fcmp w)
  | 0x07 => some (.fclass w)
  | 0x08 => some (.fexp2 w)
  | 0x09 => some (.flog2 w)
  | 0x0A => some (.frcp w)
  | 0x0B => some (.frsq w)
  | 0x0C => some (.fsqrt w)
  | 0x0D => some (.fsin w)
  | 0x0E => some (.fcos w)
  | 0x0F => some (.ftanh w)
  | 0x10 => some (.frnd w)
  | 0x11 => some (.fscl w)
  | 0x12 => some (.fexpo w)
  | 0x13 => some (.fdot w)
  | 0x14 => some (.mxdot w)
  | 0x15 => some (.idot w)
  | 0x18 => some (.iadd w)
  | 0x19 => some (.isub w)
  | 0x1A => some (.imul w)
  | 0x1B => some (.imad w)
  | 0x1C => some (.imulh w)
  | 0x1D => some (.imin w)
  | 0x1E => some (.imax w)
  | 0x1F => some (.icmp w)
  | 0x20 => some (.iand w)
  | 0x21 => some (.ior w)
  | 0x22 => some (.ixor w)
  | 0x23 => some (.ishl w)
  | 0x24 => some (.ishr w)
  | 0x25 => some (.ipopc w)
  | 0x26 => some (.iclz w)
  | 0x27 => some (.ibfx w)
  | 0x28 => some (.cvt w)
  | 0x29 => some (.pack w)
  | 0x2A => some (.unpk w)
  | 0x2B => some (.rqnt w)
  | 0x2C => some (.dqnt w)
  | 0x2D => some (.qmov w)
  | 0x2E => some (.qset w)
  | 0x2F => some (.qget w)
  | 0x30 => some (.plop w)
  | 0x31 => some (.pset w)
  | 0x32 => some (.pmov w)
  | 0x33 => some (.mov w)
  | 0x34 => some (.movx w)
  | 0x35 => some (.selLane w)
  | 0x38 => some (.shfl w)
  | 0x39 => some (.vote w)
  | 0x3A => some (.bcast w)
  | 0x3B => some (.scan w)
  | 0x3C => reduxes w
  | 0x40 => some (.bra w)
  | 0x41 => some (.stop w)
  | 0x48 => some (.tget w)
  | 0x49 => some (.tset w)
  | 0x4A => some (.tclr w)
  | 0x4B => some (.tswp w)
  | 0x50 => some (.ld w)
  | 0x51 => some (.st w)
  | 0x52 => some (.ldx w)
  | 0x53 => some (.stx w)
  | 0x54 => some (.lds w)
  | 0x55 => some (.sts w)
  | 0x56 => some (.ldq w)
  | 0x57 => some (.stq w)
  | 0x58 => some (.atom w)
  | 0x59 => some (.acas w)
  | 0x5A => some (.ared w)
  | 0x60 => some (.spawnl w)
  | 0x61 => some (.rng w)
  | _ => none

/-- The coelostat micro-operations (R350), every bit not listed zero. -/
def microForm (w : BitVec 32) : Option Instr :=
  let low := (w.extractLsb' 0 26).toNat
  let coord := w.extractLsb' 24 2
  match (w.extractLsb' 26 6).toNat with
  | 0 => if low = 0 then some .micEnd else none
  | 1 => if low = 0 then some .micLoad else none
  | 2 => if low = 0 then some .micXpose else none
  | 3 => if low < 2 ^ 7 then some (.micConv (w.extractLsb' 0 4) (w.extractLsb' 4 3)) else none
  | 4 => if low < 2 ^ 9 then
      some (.micQuant (w.extractLsb' 0 4) (w.extractLsb' 4 1) (w.extractLsb' 5 1) (w.extractLsb' 6 3)) else none
  | 5 => if low < 2 ^ 4 then some (.micPush (w.extractLsb' 0 4)) else none
  | 6 => if w.extractLsb' 16 8 = 0 then some (.micStep coord (w.extractLsb' 0 16)) else none
  | 7 => if w.extractLsb' 16 8 = 0 then some (.micSetc coord (w.extractLsb' 0 16)) else none
  | 8 => if w.extractLsb' 6 18 = 0 then some (.micLoop coord (w.extractLsb' 0 6)) else none
  | 9 => if low = 0 then some .micZero else none
  | _ => none

/-- What a form decodes to: itself when it is legal. -/
def legal (opcode : Nat) (i : Option Instr) : Except Reject Instr :=
  match i with
  | none => .error (.unassigned opcode)
  | some i => if i.wf then .ok i else .error (.illegal i)

/-- The instruction of a scalar word, with the word after it for an SX instruction. -/
def decodeScalar (w x : BitVec 32) : Except Reject Instr := legal (w.extractLsb' 25 7).toNat (scalarForm w x)

/-- The instruction of a lane word. -/
def decodeLane (w : BitVec 96) : Except Reject Instr :=
  legal (w.extractLsb' 86 10).toNat (laneForm (w.extractLsb' 86 10) (LaneWord.ofWord w))

/-- The micro-operation of a coelostat word. -/
def decodeMicro (w : BitVec 32) : Except Reject Instr := legal (w.extractLsb' 26 6).toNat (microForm w)

/-- The clause header of a word (R76, R77). -/
def decodeHeader (w : BitVec 96) : Except Reject Header :=
  let h : Header := ⟨w.extractLsb' 80 12, w.getLsbD 79, w.extractLsb' 75 4, w.getLsbD 74, w.extractLsb' 70 4,
    w.extractLsb' 66 4, w.extractLsb' 63 3, w.getLsbD 62, w.getLsbD 61⟩
  if w.extractLsb' 92 4 = 15 ∧ w.extractLsb' 0 61 = 0 ∧ h.anum.toNat ≤ 11 ∧ h.bnum.toNat ≤ 11
      ∧ (h.avalid ∨ h.anum = 0) ∧ (h.bvalid ∨ h.bnum = 0) ∧ h.count ≠ 0 ∧ h.dual.toNat < 5
  then .ok h else .error .badHeader

/-- A scalar instruction is two words long (R64). -/
def Instr.isSX (i : Instr) : Bool :=
  match i with
  | .lrun _ | .li _ | .liHi _ | .call _ | .spawn _ => true
  | _ => false

/-- The word of an SR instruction. -/
def SR.word (op : BitVec 7) (f : SR) : BitVec 32 := op ++ f.dest ++ f.src1 ++ f.src2 ++ f.fn
/-- The word of an SI instruction. -/
def SI.word (op : BitVec 7) (f : SI) : BitVec 32 := op ++ f.dest ++ f.src1 ++ f.imm ++ f.f
/-- The word of an SM instruction. -/
def SM.word (op : BitVec 7) (f : SM) : BitVec 32 := op ++ f.data ++ f.base ++ f.off ++ f.f
/-- The word of an SU instruction, from the upper six bits of its opcode pair. -/
def SU.word (op : BitVec 6) (f : SU) : BitVec 32 := op ++ f.imm.extractLsb' 19 1 ++ f.dest ++ f.imm.extractLsb' 0 19
/-- The word of an SB instruction. -/
def SB.word (op : BitVec 7) (f : SB) : BitVec 32 := op ++ f.cond ++ f.src ++ f.off
/-- The first word of an SX instruction. -/
def SX.word (op : BitVec 7) (f : SX) : BitVec 32 := op ++ f.dest ++ f.src1 ++ f.fn
/-- The word of a lane instruction. -/
def LaneWord.word (op : BitVec 10) (w : LaneWord) : BitVec 96 :=
  op ++ w.dest ++ w.srcA ++ w.srcB ++ w.srcC ++ w.ty ++ w.pred ++ w.pinv ++ w.mods ++ w.clamp ++ w.dscale ++ w.round
    ++ w.fsel ++ w.long ++ w.fn
/-- The word of a clause header. -/
def Header.word (h : Header) : BitVec 96 :=
  (15 : BitVec 4) ++ h.wait ++ BitVec.ofBool h.avalid ++ h.anum ++ BitVec.ofBool h.bvalid ++ h.bnum ++ h.count ++ h.dual
    ++ BitVec.ofBool h.yield ++ BitVec.ofBool h.stop ++ (0 : BitVec 61)

/-- The words of an instruction. -/
inductive Code where
  | scalar (w : BitVec 32)
  | scalarX (w x : BitVec 32)
  | lane (w : BitVec 96)
  | micro (w : BitVec 32)
  deriving DecidableEq, Repr

/-- What a code decodes to. -/
def decode (c : Code) : Except Reject Instr :=
  match c with
  | .scalar w => decodeScalar w 0
  | .scalarX w x => decodeScalar w x
  | .lane w => decodeLane w
  | .micro w => decodeMicro w

/-- The words of an instruction, from the opcode maps; an event has none. -/
def encode (i : Instr) : Option Code :=
  match i with
  | .add f => some (.scalar (f.word 0x00))
  | .sub f => some (.scalar (f.word 0x01))
  | .mul f => some (.scalar (f.word 0x02))
  | .div f => some (.scalar (f.word 0x03))
  | .min f => some (.scalar (f.word 0x04))
  | .max f => some (.scalar (f.word 0x05))
  | .and f => some (.scalar (f.word 0x06))
  | .or f => some (.scalar (f.word 0x07))
  | .xor f => some (.scalar (f.word 0x08))
  | .shl f => some (.scalar (f.word 0x09))
  | .shr f => some (.scalar (f.word 0x0A))
  | .rotl f => some (.scalar (f.word 0x0B))
  | .clz f => some (.scalar (f.word 0x0C))
  | .popc f => some (.scalar (f.word 0x0D))
  | .bfx f => some (.scalar (f.word 0x0E))
  | .bfi f => some (.scalar (f.word 0x0F))
  | .cmp f => some (.scalar (f.word 0x10))
  | .sel f => some (.scalar (f.word 0x11))
  | .jr f => some (.scalar (f.word 0x12))
  | .csrr f => some (.scalar (f.word 0x13))
  | .csrw f => some (.scalar (f.word 0x14))
  | .csrx f => some (.scalar (f.word 0x15))
  | .lsync f => some (.scalar (f.word 0x17))
  | .uliret f => some (.scalar (f.word 0x24))
  | .mld f => some (.scalar (f.word 0x30))
  | .mma f => some (.scalar (f.word 0x31))
  | .mma2 f => some (.scalar (f.word 0x32))
  | .mdrain f => some (.scalar (f.word 0x33))
  | .mzero f => some (.scalar (f.word 0x34))
  | .mmode f => some (.scalar (f.word 0x35))
  | .mvnb f => some (.scalar (f.word 0x36))
  | .msync f => some (.scalar (f.word 0x37))
  | .apset f => some (.scalar (f.word 0x40))
  | .apclr f => some (.scalar (f.word 0x41))
  | .satom f => some (.scalar (f.word 0x42))
  | .scas f => some (.scalar (f.word 0x43))
  | .waita f => some (.scalar (f.word 0x44))
  | .tlbinv f => some (.scalar (f.word 0x46))
  | .keyld f => some (.scalar (f.word 0x47))
  | .keydel f => some (.scalar (f.word 0x50))
  | .shpld f => some (.scalar (f.word 0x51))
  | .shpinv f => some (.scalar (f.word 0x52))
  | .cset f => some (.scalar (f.word 0x53))
  | .cadd f => some (.scalar (f.word 0x54))
  | .crd f => some (.scalar (f.word 0x55))
  | .pcfg f => some (.scalar (f.word 0x56))
  | .launch f => some (.scalar (f.word 0x58))
  | .await f => some (.scalar (f.word 0x5A))
  | .exit f => some (.scalar (f.word 0x5B))
  | .yield f => some (.scalar (f.word 0x5C))
  | .tbar f => some (.scalar (f.word 0x5D))
  | .rpush f => some (.scalar (f.word 0x5E))
  | .rpop f => some (.scalar (f.word 0x5F))
  | .rwait f => some (.scalar (f.word 0x60))
  | .cpy f => some (.scalar (f.word 0x61))
  | .gacc f => some (.scalar (f.word 0x62))
  | .commit f => some (.scalar (f.word 0x63))
  | .coll f => some (.scalar (f.word 0x64))
  | .strm f => some (.scalar (f.word 0x65))
  | .tret f | .tretPark f | .tretAbort f => some (.scalar (f.word 0x23))
  | .addi f => some (.scalar (f.word 0x18))
  | .andi f => some (.scalar (f.word 0x19))
  | .ori f => some (.scalar (f.word 0x1A))
  | .xori f => some (.scalar (f.word 0x1B))
  | .shli f => some (.scalar (f.word 0x1C))
  | .shri f => some (.scalar (f.word 0x1D))
  | .cmpi f => some (.scalar (f.word 0x1E))
  | .fwait f => some (.scalar (f.word 0x1F))
  | .fset f => some (.scalar (f.word 0x20))
  | .fclr f => some (.scalar (f.word 0x21))
  | .trap f => some (.scalar (f.word 0x22))
  | .pref f => some (.scalar (f.word 0x45))
  | .sld n f => some (.scalar (f.word ((0x12 : BitVec 5) ++ n)))
  | .sst n f => some (.scalar (f.word ((0x13 : BitVec 5) ++ n)))
  | .lui f => some (.scalar (f.word 0x14))
  | .addpc f => some (.scalar (f.word 0x15))
  | .br f => some (.scalar (f.word 0x2C))
  | .loop f => some (.scalar (f.word 0x2D))
  | .lrun f => some (.scalarX (f.word 0x16) f.imm)
  | .li f | .liHi f => some (.scalarX (f.word 0x2E) f.imm)
  | .call f => some (.scalarX (f.word 0x2F) f.imm)
  | .spawn f => some (.scalarX (f.word 0x59) f.imm)
  | .fadd w => some (.lane (w.word 0x01))
  | .fmul w => some (.lane (w.word 0x02))
  | .ffma w => some (.lane (w.word 0x03))
  | .fmin w => some (.lane (w.word 0x04))
  | .fmax w => some (.lane (w.word 0x05))
  | .fcmp w => some (.lane (w.word 0x06))
  | .fclass w => some (.lane (w.word 0x07))
  | .fexp2 w => some (.lane (w.word 0x08))
  | .flog2 w => some (.lane (w.word 0x09))
  | .frcp w => some (.lane (w.word 0x0A))
  | .frsq w => some (.lane (w.word 0x0B))
  | .fsqrt w => some (.lane (w.word 0x0C))
  | .fsin w => some (.lane (w.word 0x0D))
  | .fcos w => some (.lane (w.word 0x0E))
  | .ftanh w => some (.lane (w.word 0x0F))
  | .frnd w => some (.lane (w.word 0x10))
  | .fscl w => some (.lane (w.word 0x11))
  | .fexpo w => some (.lane (w.word 0x12))
  | .fdot w => some (.lane (w.word 0x13))
  | .mxdot w => some (.lane (w.word 0x14))
  | .idot w => some (.lane (w.word 0x15))
  | .iadd w => some (.lane (w.word 0x18))
  | .isub w => some (.lane (w.word 0x19))
  | .imul w => some (.lane (w.word 0x1A))
  | .imad w => some (.lane (w.word 0x1B))
  | .imulh w => some (.lane (w.word 0x1C))
  | .imin w => some (.lane (w.word 0x1D))
  | .imax w => some (.lane (w.word 0x1E))
  | .icmp w => some (.lane (w.word 0x1F))
  | .iand w => some (.lane (w.word 0x20))
  | .ior w => some (.lane (w.word 0x21))
  | .ixor w => some (.lane (w.word 0x22))
  | .ishl w => some (.lane (w.word 0x23))
  | .ishr w => some (.lane (w.word 0x24))
  | .ipopc w => some (.lane (w.word 0x25))
  | .iclz w => some (.lane (w.word 0x26))
  | .ibfx w => some (.lane (w.word 0x27))
  | .cvt w => some (.lane (w.word 0x28))
  | .pack w => some (.lane (w.word 0x29))
  | .unpk w => some (.lane (w.word 0x2A))
  | .rqnt w => some (.lane (w.word 0x2B))
  | .dqnt w => some (.lane (w.word 0x2C))
  | .qmov w => some (.lane (w.word 0x2D))
  | .qset w => some (.lane (w.word 0x2E))
  | .qget w => some (.lane (w.word 0x2F))
  | .plop w => some (.lane (w.word 0x30))
  | .pset w => some (.lane (w.word 0x31))
  | .pmov w => some (.lane (w.word 0x32))
  | .mov w => some (.lane (w.word 0x33))
  | .movx w => some (.lane (w.word 0x34))
  | .selLane w => some (.lane (w.word 0x35))
  | .shfl w => some (.lane (w.word 0x38))
  | .vote w => some (.lane (w.word 0x39))
  | .bcast w => some (.lane (w.word 0x3A))
  | .scan w => some (.lane (w.word 0x3B))
  | .bra w => some (.lane (w.word 0x40))
  | .stop w => some (.lane (w.word 0x41))
  | .tget w => some (.lane (w.word 0x48))
  | .tset w => some (.lane (w.word 0x49))
  | .tclr w => some (.lane (w.word 0x4A))
  | .tswp w => some (.lane (w.word 0x4B))
  | .ld w => some (.lane (w.word 0x50))
  | .st w => some (.lane (w.word 0x51))
  | .ldx w => some (.lane (w.word 0x52))
  | .stx w => some (.lane (w.word 0x53))
  | .lds w => some (.lane (w.word 0x54))
  | .sts w => some (.lane (w.word 0x55))
  | .ldq w => some (.lane (w.word 0x56))
  | .stq w => some (.lane (w.word 0x57))
  | .atom w => some (.lane (w.word 0x58))
  | .acas w => some (.lane (w.word 0x59))
  | .ared w => some (.lane (w.word 0x5A))
  | .spawnl w => some (.lane (w.word 0x60))
  | .rng w => some (.lane (w.word 0x61))
  | .redux w | .reduxPair w => some (.lane (w.word 0x3C))
  | .micEnd => some (.micro 0)
  | .micLoad => some (.micro 0x04000000)
  | .micXpose => some (.micro 0x08000000)
  | .micConv fmt mode => some (.micro ((3 : BitVec 6) ++ (0 : BitVec 19) ++ mode ++ fmt))
  | .micQuant fmt b16 nansat mode => some (.micro ((4 : BitVec 6) ++ (0 : BitVec 17) ++ mode ++ nansat ++ b16 ++ fmt))
  | .micPush ring => some (.micro ((5 : BitVec 6) ++ (0 : BitVec 22) ++ ring))
  | .micStep coord delta => some (.micro ((6 : BitVec 6) ++ coord ++ (0 : BitVec 8) ++ delta))
  | .micSetc ctr n => some (.micro ((7 : BitVec 6) ++ ctr ++ (0 : BitVec 8) ++ n))
  | .micLoop ctr target => some (.micro ((8 : BitVec 6) ++ ctr ++ (0 : BitVec 18) ++ target))
  | .micZero => some (.micro 0x24000000)
  | _ => none

/-- An answer without its reason. -/
def Reject.drop (r : Except Reject Instr) : Option Instr :=
  match r with
  | .ok i => some i
  | .error _ => none

/-- The decoder's answer for a row of the opcode table: a lane word when the row has 96 bits, else a scalar word and
its extension word. A micro-operation's word is a scalar word too, and reads as that (assumption 12). -/
def decodeTableWord (nbits w : Nat) : Option Instr :=
  if nbits = 96 then Reject.drop (decodeLane (BitVec.ofNat 96 w))
  else Reject.drop (decodeScalar (BitVec.ofNat 32 w) (BitVec.ofNat 32 (w / 2 ^ 32)))

end Sys2Proof
end

