-- ==== Sys2Proof/Machine/Real.lean ====
section
/-! DEFINITION. The functions of R145 and exact division, as exact values that RoundTo then rounds once. A result that
is no dyadic number is given by its leading bits (more than 200 of them) and a last odd bit that stands for the
nonzero rest, so that every rounding of R41 and R62 decides as it would on the real number (assumption 10). -/

namespace Sys2Proof.Real

open Sys2Proof.Num

/-- Fraction bits of the fixed-point evaluations. -/
def width : Nat := 640

/-- Low bits of an evaluation that its truncation errors may reach. -/
def guard : Nat := 96

/-- A positive irrational value v / 2^width, given by its leading bits and a sticky last bit. -/
def sticky (neg : Bool) (v : Nat) (scale : Int) : XVal :=
  .fin neg (2 * (v >>> guard) + 1) (scale - width + guard - 1)

/-- A value just below m * 2^e in magnitude. -/
def justBelow (neg : Bool) (m : Nat) (e : Int) : XVal := .fin neg ((m <<< 128) - 1) (e - 128)

/-- A value just above m * 2^e in magnitude. -/
def justAbove (neg : Bool) (m : Nat) (e : Int) : XVal := .fin neg ((m <<< 128) + 1) (e - 128)

/-- Σ z^(2k+1) / (2k+1) from index k on, `p` being z^(2k+1); `alt` alternates the signs. -/
def oddSeries (fuel k : Nat) (p z2 : Int) (alt : Bool) : Int :=
  match fuel with
  | 0 => 0
  | n + 1 =>
    let t := p / (2 * k + 1 : Nat)
    (if alt && k % 2 == 1 then -t else t) + oddSeries n (k + 1) (p * z2 / (2 : Int) ^ width) z2 alt

/-- ln 2 = 2 atanh(1/3). -/
def ln2 : Nat := (2 * oddSeries 230 0 ((2 : Int) ^ width / 3) ((2 : Int) ^ width / 9) false).toNat

/-- π = 16 atan(1/5) − 4 atan(1/239). -/
def pi : Nat :=
  (16 * oddSeries 150 0 ((2 : Int) ^ width / 5) ((2 : Int) ^ width / 25) true
    - 4 * oddSeries 50 0 ((2 : Int) ^ width / 239) ((2 : Int) ^ width / 57121) true).toNat

/-- Σ t^k / k! from index k on, `p` being t^k / k!; `step` 2 with sign changes gives sine and cosine. -/
def expSeries (fuel k : Nat) (p t : Int) : Int :=
  match fuel with
  | 0 => 0
  | n + 1 => p + expSeries n (k + 1) (p * t / (2 : Int) ^ width / (k + 1 : Nat)) t

/-- Σ (−1)^j r^(k + 2j) / (k + 2j)! from index k on, `p` being the term at k. -/
def trigSeries (fuel k : Nat) (p r2 : Int) : Int :=
  match fuel with
  | 0 => 0
  | n + 1 => p + trigSeries n (k + 2) (-(p * r2 / (2 : Int) ^ width / ((k + 1) * (k + 2) : Nat))) r2

/-- ⌊√n⌋ by Newton's descent from `x`. -/
def isqrtFrom (fuel n x : Nat) : Nat :=
  match fuel with
  | 0 => x
  | k + 1 => let y := (x + n / x) / 2; if y < x then isqrtFrom k n y else x

/-- ⌊√n⌋. -/
def isqrt (n : Nat) : Nat := if n = 0 then 0 else isqrtFrom 64 n (2 ^ (n.log2 / 2 + 1))

/-- ln 2 as an exact value. -/
def ln2X : XVal := sticky false ln2 0

/-- The exact quotient; 0 / 0 and ∞ / ∞ are NaN. -/
def div (x y : XVal) : XVal :=
  match x, y with
  | .nan, _ => .nan
  | _, .nan => .nan
  | .inf _, .inf _ => .nan
  | .inf s, .fin t _ _ => .inf (s != t)
  | .fin s _ _, .inf t => .fin (s != t) 0 0
  | .fin s m e, .fin t n f =>
    if n = 0 then (if m = 0 then .nan else .inf (s != t))
    else
      let num := m <<< width
      let q := num / n
      if q * n = num then .fin (s != t) q (e - f - width) else .fin (s != t) (2 * q + 1) (e - f - width - 1)

/-- The value in units of 2^(−width), for a value whose exponent allows it. -/
def toFix (m : Nat) (e : Int) : Nat :=
  if 0 ≤ e + width then m <<< (e + width).toNat else m >>> (-(e + width)).toNat

/-- 2^a. -/
def exp2 (a : XVal) : XVal :=
  match a with
  | .nan => .nan
  | .inf s => if s then XVal.zero else .inf false
  | .fin s m e =>
    if m = 0 then .fin false 1 0
    else if magLt 8192 0 m e then (if s then justAbove false 1 (-8192) else justBelow false 1 8192)
    else if magLt m e 1 (-256) then (if s then justBelow false 1 0 else justAbove false 1 0)
    else
      let v : Int := if s then -(toFix m e : Int) else toFix m e
      let n := v / (2 : Int) ^ width
      let f := v % (2 : Int) ^ width
      if f = 0 then .fin false 1 n
      else sticky false (expSeries 130 0 ((2 : Int) ^ width) (f * ln2 / (2 : Int) ^ width)).toNat n

/-- log2 a. -/
def log2 (a : XVal) : XVal :=
  match a with
  | .nan => .nan
  | .inf s => if s then .nan else .inf false
  | .fin s m e =>
    if m = 0 then .inf true
    else if s then .nan
    else
      let k := m.log2
      let n := e + k
      if m = 2 ^ k then XVal.ofInt n
      else
        let z : Int := ((m - 2 ^ k : Nat) : Int) * (2 : Int) ^ width / (m + 2 ^ k : Nat)
        let l := 2 * oddSeries 230 0 z (z * z / (2 : Int) ^ width) false * (2 : Int) ^ width / ln2
        let t := n * (2 : Int) ^ width + l
        sticky (t < 0) t.natAbs 0

/-- 1 / a. -/
def rcp (a : XVal) : XVal := div (.fin false 1 0) a

/-- m * 2^e with an even exponent. -/
def evenExp (m : Nat) (e : Int) : Nat × Int := if e % 2 = 0 then (m, e) else (2 * m, e - 1)

/-- √a. -/
def sqrt (a : XVal) : XVal :=
  match a with
  | .nan => .nan
  | .inf s => if s then .nan else .inf false
  | .fin s m e =>
    if m = 0 then .fin s 0 0
    else if s then .nan
    else
      let (m, e) := evenExp m e
      let n := m <<< (2 * width)
      let q := isqrt n
      if q * q = n then .fin false q (e / 2 - width) else .fin false (2 * q + 1) (e / 2 - width - 1)

/-- 1 / √a. -/
def rsq (a : XVal) : XVal :=
  match a with
  | .nan => .nan
  | .inf s => if s then .nan else XVal.zero
  | .fin s m e =>
    if m = 0 then .inf s
    else if s then .nan
    else
      let (m, e) := evenExp m e
      let n := (1 <<< (2 * width)) / m
      let q := isqrt n
      if q * q * m = 1 <<< (2 * width) then .fin false q (-(e / 2) - width)
      else .fin false (2 * q + 1) (-(e / 2) - width - 1)

/-- sin r for 0 ≤ r < π / 2, in units of 2^(−width). -/
def sinFix (r : Nat) : Nat := (trigSeries 70 1 r ((r : Int) * r / (2 : Int) ^ width)).toNat

/-- cos r for 0 ≤ r < π / 2, in units of 2^(−width). -/
def cosFix (r : Nat) : Nat := (trigSeries 70 0 ((2 : Int) ^ width) ((r : Int) * r / (2 : Int) ^ width)).toNat

/-- The quadrant and the rest of a magnitude after exact reduction by π / 2. -/
def reduce (m : Nat) (e : Int) : Nat × Nat :=
  let v := toFix m e
  let h := pi / 2
  (v / h % 4, v % h)

/-- sin a, a in radians. -/
def sin (a : XVal) : XVal :=
  match a with
  | .nan => .nan
  | .inf _ => .nan
  | .fin s m e =>
    if m = 0 then .fin s 0 0
    else if magLt m e 1 (-70) then justBelow s m e
    else
      let (q, r) := reduce m e
      sticky (s != decide (2 ≤ q)) (if q % 2 = 0 then sinFix r else cosFix r) 0

/-- cos a, a in radians. -/
def cos (a : XVal) : XVal :=
  match a with
  | .nan => .nan
  | .inf _ => .nan
  | .fin _ m e =>
    if m = 0 then .fin false 1 0
    else if magLt m e 1 (-70) then justBelow false 1 0
    else
      let (q, r) := reduce m e
      sticky (q = 1 || q = 2) (if q % 2 = 0 then cosFix r else sinFix r) 0

/-- tanh a. -/
def tanh (a : XVal) : XVal :=
  match a with
  | .nan => .nan
  | .inf s => .fin s 1 0
  | .fin s m e =>
    if m = 0 then .fin s 0 0
    else if magLt m e 1 (-70) then justBelow s m e
    else if magLt 100 0 m e then justBelow s 1 0
    else
      let v := 2 * toFix m e
      let n := v / ln2
      let x := ((expSeries 130 0 ((2 : Int) ^ width) ((v % ln2 : Nat) : Int)).toNat) <<< n
      let one := 1 <<< width
      sticky s (((x - one) <<< width) / (x + one)) 0

end Sys2Proof.Real
end

