-- ==== Sys2Proof/Machine/Operands.lean ====
section
/-! DEFINITION. The operands of lane instructions: register fields and constants (R68), slots of a type (R71), the source
modifiers (R48), the tangents of a source (R136), and the writing of results under a mask (R70, R93, R134). -/

namespace Sys2Proof.Machine

/-- Bits per slot of a type (R71). -/
def slotBits (ty : Nat) : Nat := 32 / slotsOf ty

/-- The code bits that count in a slot: six of an FP6 byte (R38). -/
def codeBits (ty : Nat) : Nat := if ty = 5 ∨ ty = 6 then 6 else slotBits ty

/-- Slot j of a lane word. -/
def slotCode (ty : Nat) (x : LaneW) (j : Nat) : Nat := Bits.field x.toNat (slotBits ty * j) (codeBits ty)

/-- A lane word with slot j replaced. -/
def setSlot (ty : Nat) (x : LaneW) (j code : Nat) : LaneW := Bits.splice x (slotBits ty * j) (slotBits ty) code

/-- A lane word from its slots. -/
def packSlots (ty : Nat) (f : Nat → Nat) : LaneW :=
  (List.range (slotsOf ty)).foldl (fun w j => setSlot ty w j (f j)) 0

/-- The code of 1, or of −1, in a type (R68). -/
def oneCode (ty : Nat) (neg : Bool) : Nat :=
  match Num.fmtOfCode ty with
  | some f => f.signBit neg + f.bias * 2 ^ f.mbits
  | none => if neg then 2 ^ slotBits ty - 1 else 1

/-- The value 1 or −1 in every element of a type. -/
def oneWord (ty : Nat) (neg : Bool) : LaneW := packSlots ty fun _ => oneCode ty neg

/-- What a lane instruction works on: its group, the group as it sees the scalar stream's registers (R69), grid, split, clause
width, word and active lanes (R74). -/
structure Lane where
  g     : Group
  seen  : Group
  grid  : Grid
  i     : Nat
  sp    : Split
  w     : LaneWord
  act   : Mask
  t     : Nat

/-- The active lanes of a word: the split's lanes for which P[pred] XOR pinv is 1 (R74). -/
def activeLanes (g : Group) (sp : Split) (w : LaneWord) : Mask :=
  let p := g.readP w.pred.toNat
  sp.mask &&& (if w.pinv = 1 then ~~~p else p)

/-- A field names a vector register. -/
def isVec (f : BitVec 9) : Bool := f.toNat < 384

/-- Operand of R68 for lane l: ONE and NEGONE in the word's type. -/
def Lane.operand (c : Lane) (f : BitVec 9) (l : Nat) : LaneW :=
  let n := f.toNat
  if n < 384 then Bits.lane (c.g.readV 0 n) l
  else if n < 448 then (c.seen.readS (n - 384)).setWidth 32
  else if n = 504 then c.w.imm
  else if n = 505 then c.g.gid
  else if n = 506 then BitVec.ofNat 32 c.g.team
  else if n = 507 then BitVec.ofNat 32 c.g.slot
  else if n = 508 then BitVec.ofNat 32 l
  else if n = 509 then oneWord c.w.ty.toNat false
  else if n = 510 then oneWord c.w.ty.toNat true
  else 0

/-- The shadow word of a source: a vector register's; any other source has tangent +0 (R136). -/
def Lane.shadow (c : Lane) (f : BitVec 9) (k l : Nat) : LaneW :=
  if f.toNat < 384 then Bits.lane (c.g.readV k f.toNat) l else 0

/-- The source of a modifier pair: 0 for A, 1 for B, 2 for C; negate then absolute (R67). -/
def Lane.negMod (c : Lane) (src : Nat) : Bool := c.w.mods.getLsbD (5 - 2 * src)
/-- The absolute bit of a source. -/
def Lane.absMod (c : Lane) (src : Nat) : Bool := c.w.mods.getLsbD (4 - 2 * src)

/-- The absolute value, then the negation, of an exact value. -/
def applyMods (neg abs : Bool) (x : Num.XVal) : Num.XVal :=
  let y := if abs then x.abs else x
  if neg then y.neg else y

/-- Source modifiers on a floating-point code (R48): NaNs and zeros as well. -/
def modCode (f : Num.Fmt) (neg abs : Bool) (code : Nat) : Nat :=
  let sign := 2 ^ (f.width - 1)
  let body := code % sign
  let s := if abs then 0 else code / sign % 2
  body + sign * (if neg then 1 - s else s)

/-- Source modifiers on an integer slot of width w (R48). -/
def modInt (signed neg abs : Bool) (w x : Nat) : Nat :=
  let x := x % 2 ^ w
  let x := if abs && signed && 2 ^ (w - 1) ≤ x then (2 ^ w - x) % 2 ^ w else x
  if neg then (2 ^ w - x) % 2 ^ w else x

/-- A modified floating-point source value, after R48 and R44. -/
def Lane.fpVal (c : Lane) (f : Num.Fmt) (src code : Nat) : Num.XVal :=
  Num.flushIn f (rndFtz c.seen.rnd) (Num.decode f (modCode f (c.negMod src) (c.absMod src) code))

/-- The tangent of a source value: negate negates it, absolute value multiplies it by −1 when the primal's sign bit is
set (R136). -/
def Lane.tanVal (c : Lane) (f : Num.Fmt) (src code tcode : Nat) : Num.XVal :=
  let d := Num.decode f tcode
  let d := if c.absMod src && f.negCode code then d.neg else d
  if c.negMod src then d.neg else d

/-- The signed destination scale k (R49). -/
def Lane.k (c : Lane) : Int := c.w.dscale.toInt

/-- The mode code of a word: its field, or RND.mode when that is dynamic (R41, R43). -/
def Lane.modeCode (c : Lane) : Nat := if c.w.round = 0 then rndMode c.seen.rnd else c.w.round.toNat

/-- The word rounds stochastically. -/
def Lane.stochastic (c : Lane) : Bool := c.modeCode == 6

/-- The chunk of a stream index (R57, R60, R61). -/
def Lane.chunk (c : Lane) (index : Nat) : Nat := Num.chunkAt (c.seen.seedOf c.grid) c.seen.drawid c.g.draws index

/-- The rounding mode of element e of lane l, of E per lane (R61). -/
def Lane.mode (c : Lane) (perLane l e : Nat) : Num.RMode :=
  let m := c.modeCode
  Num.RMode.ofCode m (if m = 6 then c.chunk (l * perLane + e) else 0)

/-- The draw counter after a word that rounds E elements per lane stochastically (R58). -/
def Lane.drawn (c : Lane) (perLane : Nat) : BitVec 32 :=
  if c.stochastic then c.g.draws + BitVec.ofNat 32 (4 * perLane) else c.g.draws

/-- The .nf bit (R72). -/
def Lane.nf (c : Lane) : Bool := c.w.fn.getLsbD 24

/-- Vector register `n` of a plane takes `f l` in the lanes of a mask (R134). -/
def Group.writeLanes (g : Group) (plane n : Nat) (mask : Mask) (f : Nat → LaneW) : Group :=
  if mask = 0 then g
  else g.writeV plane n ((Bits.lanesOf mask).foldl (fun v l => Bits.setLane v l (f l)) (g.readV plane n))

/-- A lane-wise result goes to Vd and to its shadows d1 to dT; the destination 511 discards it (R70, R136). -/
def Group.writeResult (g : Group) (dest : BitVec 9) (t : Nat) (mask : Mask) (prim : Nat → LaneW)
    (tan : Nat → Nat → LaneW) : Group :=
  let d := dest.toNat
  if 384 ≤ d then g
  else (List.range t).foldl (fun g k => g.writeLanes (k + 1) d mask (tan (k + 1))) (g.writeLanes 0 d mask prim)

/-- Predicate `n` takes `f l` in the lanes of a mask (R93). -/
def Group.writePred (g : Group) (n : Nat) (mask : Mask) (f : Nat → Bool) : Group :=
  g.writeP n ((g.readP n &&& ~~~mask) ||| (mask &&& Bits.maskOf f))

/-- The combine field of a compare (R142): replace, AND, OR. -/
def combine (cb : Nat) (old c : Bool) : Bool :=
  match cb with
  | 0 => c
  | 1 => old && c
  | _ => old || c

end Sys2Proof.Machine
end

