-- ==== Sys2Proof/Machine/Fetch.lean ====
section
/-! DEFINITION. Fetching instruction words and clause headers (R66, R78, R81), the registers an instruction names (R70,
R91, R135), and the readiness of the streams of a quadrant (R308). -/

namespace Sys2Proof.Machine

/-- What a fetch answers. -/
inductive Fetched where
  | words (ws : List (BitVec 32))
  /-- IFETCH with its detail (R213) -/
  | bad (detail : Nat)
  | service (kind level base size : Nat)
  | waiting
  | badRoot
  deriving DecidableEq, Repr

/-- `n` consecutive 4-byte words of one page of scalar or lane code, under its translation and executable bit (R78), read through
L2 (R251). -/
def fetchPart (s : State) (die : Nat) (lane : Bool) (va : Nat) (n : Nat) : Fetched × State :=
  match translate s die (va % 2 ^ 56) false with
  | (.ok pa leaf, s) =>
    if badTags s die pa (4 * n) then (.badRoot, s)
    else if (if lane then leafLx leaf else leafSx leaf) then
      let s := (lineAddrs pa (4 * n)).foldl (fun s a => touchLine s die a leaf false) s
      (.words ((List.range n).map fun i => BitVec.ofNat 32 (readNat s (pa + 4 * i) 4)), s)
    else (.bad 1, s)
  | (.service kind level base size, s) => (.service kind level base size, s)
  | (.waiting, s) => (.waiting, s)
  | (.badRoot, s) => (.badRoot, s)
  | (_, s) => (.bad 0, s)

/-- `n` consecutive words, each in its own page (R78): the words of the first page and then those of the next. -/
def fetchWords (s : State) (die : Nat) (lane : Bool) (va : Nat) (n : Nat) : Fetched × State :=
  let here := min n ((65536 - va % 65536) / 4)
  match fetchPart s die lane va here with
  | (.words ws, s) =>
    if here = n then (.words ws, s)
    else
      match fetchPart s die lane (va + 4 * here) (n - here) with
      | (.words xs, s) => (.words (ws ++ xs), s)
      | x => x
  | x => x

/-- A scalar word has an extension word (R66): its opcode is an SX one. -/
def hasExtension (w : BitVec 32) : Bool :=
  [0x16, 0x2E, 0x2F, 0x59].contains (w.extractLsb' 25 7).toNat

/-- The scalar word at an address and, for an SX instruction, its extension word. -/
def fetchScalar (s : State) (die : Nat) (va : Nat) : Fetched × State :=
  match fetchWords s die false va 1 with
  | (.words [w], t) => if hasExtension w then fetchWords s die false va 2 else (.words [w], t)
  | x => x

/-- The 96-bit word of three fetched words (R67). -/
def laneBits (ws : List (BitVec 32)) : BitVec 96 :=
  match ws with
  | [a, b, c] => c ++ b ++ a
  | _ => 0

/-- The address of the next word of a split: its header, or instruction `index` of its clause (R78). A clause that runs past lane-code
address 2^32 goes on at 0, which the spec leaves open (assumption 71). -/
def Split.next (x : Split) (grid : Grid) : BitVec 56 :=
  laneAddr grid (if x.index = 15 then x.addr else x.addr + BitVec.ofNat 32 (12 * (x.index + 1)))

/-- The fetch does not wait: its words are there, or the fetch of them traps (R308). -/
def Fetched.ended (f : Fetched) : Bool :=
  match f with
  | .service _ _ _ _ | .waiting => false
  | _ => true

/-- The fetch of the instruction that a split issues next, without effect on the state. -/
def laneFetch (s : State) (g : Group) (x : Split) : Fetched :=
  (fetchWords s g.die true (x.next (s.gridAt g.grid)).toNat 3).1

/-- The lane instruction of fetched words, if they decode. -/
def Fetched.lane (f : Fetched) : Option Instr :=
  match f with
  | .words ws => Reject.drop (decodeLane (laneBits ws))
  | _ => none

/-- The fetch of the instruction that a scalar stream issues next, without effect on the state. -/
def scalarFetch (s : State) (g : Group) : Fetched := (fetchScalar s g.die g.pc.toNat).1

/-- The scalar instruction of fetched words, if they decode. -/
def Fetched.scalar (f : Fetched) : Option Instr :=
  match f with
  | .words [w] => Reject.drop (decodeScalar w 0)
  | .words [w, x] => Reject.drop (decodeScalar w x)
  | _ => none

/-- `count` registers from a field on; a constant, a scalar register or a discarded result names none. -/
def fieldRegs (f : BitVec 9) (count : Nat) : List Nat :=
  if f.toNat < 384 then (List.range count).map (f.toNat + ·) else []

/-- The vector registers and the scale registers that a lane instruction names, in the order destination, A, B, C (R91,
R103, R135). -/
def laneRegs (i : Instr) : List Nat × List Nat :=
  let d (w : LaneWord) := fieldRegs w.dest 1
  let a (w : LaneWord) := fieldRegs w.srcA 1
  let b (w : LaneWord) := fieldRegs w.srcB 1
  let c (w : LaneWord) := if w.immForm then [] else fieldRegs w.srcC 1
  let e (w : LaneWord) := slotsOf w.ty.toNat
  let n (w : LaneWord) := sizeRegs (memFn w).size
  match i with
  | .fadd w | .fmul w | .fmin w | .fmax w | .fscl w | .iadd w | .isub w | .imul w | .imulh w | .imin w | .imax w
  | .iand w | .ior w | .ixor w | .ishl w | .ishr w | .pack w | .selLane w | .shfl w | .bcast w =>
      (d w ++ a w ++ b w, [])
  | .ffma w | .fdot w | .idot w | .imad w | .ibfx w => (d w ++ a w ++ b w ++ c w, [])
  | .mxdot w => (d w ++ a w ++ b w ++ c w, a w ++ b w)
  | .fcmp w | .icmp w => (a w ++ b w, [])
  | .fclass w | .fexp2 w | .flog2 w | .frcp w | .frsq w | .fsqrt w | .fsin w | .fcos w | .ftanh w | .frnd w | .fexpo w
  | .ipopc w | .iclz w | .cvt w | .unpk w | .mov w | .scan w | .redux w => (d w ++ a w, [])
  | .tget w => (d w ++ a w, if w.func / 8 % 2 = 1 then d w ++ a w else [])
  | .tset w => (d w ++ a w, if w.srcB.toNat / 8 % 2 = 1 then d w ++ a w else [])
  | .reduxPair w => (fieldRegs w.dest 2 ++ a w ++ b w, [])
  | .rqnt w => (d w ++ fieldRegs w.srcA (e w), d w)
  | .dqnt w => (fieldRegs w.dest (e w) ++ a w, a w)
  | .qmov w => ([], d w ++ a w)
  | .qset w => (a w, d w)
  | .qget w => (d w, a w)
  | .plop _ | .bra _ | .stop _ => ([], [])
  | .pset w => (a w, [])
  | .pmov w => if w.fn.toNat / 2 ^ 23 = 1 then (d w, []) else ([], [])
  | .vote w => if w.fn.toNat % 4 = 3 then (d w, []) else ([], [])
  | .movx w => if w.fn.toNat / 2 ^ 23 = 1 then (a w, []) else (d w, [])
  | .tclr w | .tswp w => (d w, if w.func / 8 % 2 = 1 then d w else [])
  | .ld w | .lds w => (fieldRegs w.dest (n w) ++ b w, [])
  | .st w | .sts w => (fieldRegs w.srcA (n w) ++ b w, [])
  | .ldx w => (fieldRegs w.dest (n w) ++ fieldRegs w.srcB 2, [])
  | .stx w => (fieldRegs w.srcA (n w) ++ fieldRegs w.srcB 2, [])
  | .ldq w => ([], d w)
  | .stq w => ([], a w)
  | .atom w => (fieldRegs w.dest (sizeRegs (atomFn w).size) ++ fieldRegs w.srcA (sizeRegs (atomFn w).size) ++ b w, [])
  | .ared w => (fieldRegs w.srcA (sizeRegs (atomFn w).size) ++ b w, [])
  | .acas w => (fieldRegs w.dest (n w) ++ fieldRegs w.srcA (n w) ++ b w ++ fieldRegs w.srcC (n w), [])
  | .spawnl w => (fieldRegs w.srcA 2, [])
  | .rng w => (fieldRegs w.dest (w.fn.toNat % 4 + 1), [])
  | _ => ([], [])

/-- The S registers that a scalar instruction reads or writes, for the wait of R91. -/
def scalarRegs (i : Instr) : List Nat :=
  let sr (f : SR) := [f.dest.toNat, f.src1.toNat, f.src2.toNat]
  match i with
  | .scas f =>
    if f.fn.getLsbD 3 then [f.dest.toNat, f.dest.toNat + 1, f.src1.toNat, f.src2.toNat, f.src2.toNat + 1] else sr f
  | .csrr f => [f.dest.toNat]
  | .csrw f => [f.src1.toNat]
  | .csrx f => [f.dest.toNat, f.src1.toNat]
  | .apset f => [f.src1.toNat, f.src2.toNat]
  | .rpush f | .rpop f => [f.src1.toNat, f.src2.toNat]
  | .rwait f => [f.dest.toNat]
  | .gacc f => if f.fn.getLsbD 0 then [f.dest.toNat] else [f.dest.toNat, f.src1.toNat]
  | .add f | .sub f | .mul f | .div f | .min f | .max f | .and f | .or f | .xor f | .shl f | .shr f | .rotl f | .clz f
  | .popc f | .bfx f | .bfi f | .cmp f | .sel f | .jr f | .lsync f | .tret f | .tretPark f | .tretAbort f | .uliret f
  | .mld f | .mma f | .mma2 f | .mdrain f | .mzero f | .mmode f | .mvnb f | .msync f | .apclr f | .satom f | .waita f
  | .tlbinv f | .keyld f | .keydel f | .shpld f | .shpinv f | .cset f | .cadd f | .crd f | .pcfg f | .launch f | .await f
  | .exit f | .yield f | .tbar f | .cpy f | .commit f | .coll f | .strm f => sr f
  | .addi f | .andi f | .ori f | .xori f | .shli f | .shri f | .cmpi f => [f.dest.toNat, f.src1.toNat]
  | .lui f | .addpc f => [f.dest.toNat]
  | .br f | .loop f => [f.src.toNat]
  | .sld _ f | .sst _ f => [f.data.toNat, f.base.toNat]
  | .pref f => [f.base.toNat]
  | .lrun f | .li f | .liHi f | .call f | .spawn f => [f.dest.toNat, f.src1.toNat]
  | _ => []

/-- The flag that a lane instruction would raise: a long-latency one's (R20). -/
def laneFlag (x : Split) (w : LaneWord) : Option Nat := headerFlag x.hdr w.fsel

/-- The word of a lane instruction, if it is one. -/
def longWord (i : Instr) : Option LaneWord :=
  match i with
  | .ld w | .st w | .ldx w | .stx w | .lds w | .sts w | .ldq w | .stq w | .atom w | .acas w | .ared w | .spawnl w
  | .rng w => some w
  | _ => none

/-- The register index that MOVX computes from what it sees of the scalar registers (R161). -/
def movxAt (seen : Group) (w : LaneWord) : Int :=
  Bits.signed (seen.readS (w.srcB.toNat - 384)).toNat 64 + Bits.signed (w.fn.toNat % 2 ^ 16) 16

/-- MOVX waits for its computed register as for a named one (R91, R161). -/
def movxHeld (s : State) (g : Group) (split : Nat) (x : Split) (i : Instr) : Bool :=
  match i with
  | .movx w =>
    let n := movxAt (g.seen s.tick x.floor) w
    decide (0 ≤ n) && g.heldV split [n.toNat] []
  | _ => false

/-- The instruction waits at issue for its flag's count or for a result (R91, R97); one that its split repeats has passed
both (R215). -/
def laneHeld (g : Group) (split : Nat) (x : Split) (i : Instr) : Bool :=
  let r := laneRegs i
  let repeats := g.laneOps.any fun o => o.split == split && (o.todo != [] || o.again || o.far != [])
  !repeats && (g.heldV split r.1 r.2 || (match longWord i with
    | some w => g.flagFull (laneFlag x w)
    | none => false))

/-- A B cause is pending and can be taken (R216, R218). -/
def Group.boundaryPending (g : Group) : Bool := !g.handler && (!g.mismatch.isEmpty || g.xfererr.isSome || g.preempt)

/-- What is to be taken before any split issues: a B cause, and after a TRET a user-level interrupt (R218). -/
def Group.eventsDue (g : Group) : Bool := g.boundaryPending || (g.due && g.interruptReady)

/-- A split holds a lane operation that waits for page service or for data from afar, or the fetch of its next word waits
for service (R214, R215). -/
def Group.splitBlocked (g : Group) (split : Nat) (x : Split) : Bool :=
  x.fetch.isSome || g.laneOps.any fun o => o.split == split && !o.again && (o.todo != [] || o.far != [])

/-- The split runs inside a clause, and nothing but its next instruction can hold it. -/
def Group.splitStands (g : Group) (split : Nat) : Bool :=
  let x := g.splitAt split
  x.valid && g.status == .running && x.st == .running && x.index < 15 && !g.eventsDue && x.hold.isEmpty
    && !g.splitBlocked split x && (split == 4) == g.handler

/-- The split is a lane candidate (R308): it runs, holds its next instruction fetched, and nothing holds it. -/
def laneReady (s : State) (key : Nat) (split : Nat) : Bool :=
  match Assoc.find? s.groups key with
  | none => false
  | some g =>
    let x := g.splitAt split
    let f := laneFetch s g x
    g.splitStands split && f.ended
      && (match f.lane with
          | some i => !laneHeld g split x i && !movxHeld s g split x i
          | none => true)

/-- The yield hold of R311: the other lane candidates of the core's quadrant. -/
def laneCandidates (s : State) (core quadrant : Nat) : List Stream :=
  (s.groups.filter fun p => p.2.core == core && p.2.slot % 4 == quadrant && p.2.status == .running).flatMap fun p =>
    ((List.range 5).filter fun i => laneReady s p.1 i).map fun i => ⟨p.1, some i⟩

end Sys2Proof.Machine
end

