-- ==== Sys2Proof/Machine/Splits.lean ====
section
/-! DEFINITION. The split table (R361, R362): the end of an instruction and of a clause (R19, R311), divergence (R169),
arrival and fusion (R170), STOP (R171), the start and stop of lane programs (R23, R312), and the form of a lane
instruction (R82, R91, R103, R134). -/

namespace Sys2Proof.Machine

/-- The outstanding operations of a split that is freed belong to no split any more. -/
def Group.orphanOps (g : Group) (split : Nat) (heir : Nat) : Group :=
  { g with laneOps := g.laneOps.map fun o => if o.split = split then { o with split := heir } else o }

/-- An entry of the split table frees (R171). -/
def Group.freeSplit (g : Group) (i : Nat) : Group := (g.orphanOps i 9).putSplit i Split.free

/-- An id is held by a join entry of a split. -/
def Split.holds (x : Split) (id : Nat) : Bool := x.joins.any fun j => j.id == id

/-- A split waits at its top join entry, which carries this id (R170). -/
def Split.waitsAt (x : Split) (id : Nat) : Bool :=
  x.st == .joining && (match x.joins with | j :: _ => j.id == id | [] => false)

/-- An entry below a fusion takes the lanes that another split's copy of it holds (R22, R170): at most one of the copies of
an entry has deferred lanes, for the others were made bare (assumption 58). -/
def Join.absorb (j o : Join) : Join :=
  { j with defer := j.defer ||| o.defer, target := if j.defer = 0 then o.target else j.target, arrived := j.arrived ||| o.arrived }

/-- Each entry takes what the entry of the same identifier holds in another stack. -/
def absorbJoins (js others : List Join) : List Join :=
  js.map fun j => (others.filter fun o => o.id == j.id).foldl Join.absorb j

/-- Splits waiting at one join entry fuse once no other split holds its id without having arrived (R170 step 3): the
lowest-indexed one takes the union of the masks, pops the entry and continues at its address. The entries below keep the
lanes that any of the fused splits has deferred or taken as arrived there. -/
def Group.fuse (g : Group) (i : Nat) : Group :=
  let x := g.splitAt i
  match x.joins with
  | [] => g
  | j :: _ =>
    let others := (List.range 4).filter fun n => n != i && (g.splitAt n).valid && (g.splitAt n).holds j.id
    if !x.valid || !x.waitsAt j.id || !(others.all fun n => (g.splitAt n).waitsAt j.id) then g
    else
      let all := i :: others
      let low := all.foldl min i
      let mask := all.foldl (fun m n => m ||| (g.splitAt n).mask) 0
      let below := ((all.filter (· != low)).map fun n => (g.splitAt n).joins.drop 1).foldl absorbJoins
        ((g.splitAt low).joins.drop 1)
      let hold := all.flatMap fun n => (g.splitAt n).hold
      let g := all.foldl (fun g n => if n = low then g else (g.orphanOps n low).putSplit n Split.free) g
      let y := g.splitAt low
      g.putSplit low { y with valid := true, st := .running, mask := mask, addr := j.reconv, index := 15,
                              joins := below, age := 0, hold := hold }

/-- Every possible fusion, in ascending index. -/
def Group.settle (g : Group) : Group := (List.range 4).foldl Group.fuse g

/-- The lane program of a queue has stopped when no split is left (R23): its entry leaves the queue (R312). -/
def Group.programEnd (g : Group) (i : Nat) : Group :=
  if i = 4 then { g with handlerQ := g.handlerQ.drop 1 }
  else if g.splits.any (·.valid) then g
  else { g with laneQ := g.laneQ.drop 1 }

/-- STOP's search through the join entries (R171): an arrived mask continues at its reconvergence address, a deferred one
at its target; an empty entry is popped. -/
def stopJoins (x : Split) (js : List Join) : Option Split :=
  match js with
  | [] => none
  | j :: rest =>
    if j.arrived ≠ 0 then
      some { x with mask := j.arrived, addr := j.reconv, index := 15, joins := { j with arrived := 0 } :: rest, age := 0 }
    else if j.defer ≠ 0 then
      some { x with mask := j.defer, addr := j.target, index := 15, joins := { j with defer := 0 } :: rest, age := 0 }
    else stopJoins x rest

/-- STOP, or the end bit, for split `i` (R19 step 4, R171). `hold` is the yield hold, if the clause yields (R311). -/
def Group.stopSplit (g : Group) (i : Nat) (hold : List Stream) : Group :=
  let x := g.splitAt i
  match stopJoins x x.joins with
  | some y => (g.putSplit i { y with hold := hold }).settle
  | none => ((g.freeSplit i).settle).programEnd i

/-- The address after a clause (R168). -/
def Split.fallThrough (x : Split) : BitVec 32 := x.addr + BitVec.ofNat 32 (12 * (x.hdr.count.toNat + 1))

/-- The instruction that a split has issued is the last of its clause. -/
def Split.atLast (x : Split) : Bool := x.index + 1 == x.hdr.count.toNat

/-- The split's next position after an instruction (R19): the next one of the clause, or after the last one a stop or
the next header. `hold` is the yield hold, if the clause yields. -/
def Group.stepSplit (g : Group) (i : Nat) (hold : List Stream) : Group :=
  let x := g.splitAt i
  if !x.atLast then g.putSplit i { x with index := x.index + 1, age := 0 }
  else if x.hdr.stop then g.stopSplit i hold
  else g.putSplit i { x with addr := x.fallThrough, index := 15, age := 0, hold := hold }

/-- The other streams of a group's quadrant that were candidates in the cycle of an issue, lane or scalar ones (R311, R335). -/
def quadrantRivals (s : State) (g : Group) (lane : Option Nat) : List Stream :=
  s.ready.filter fun c =>
    c.lane.isSome == lane.isSome && c != ⟨g.key, lane⟩ &&
      (s.groupAt c.key).core == g.core && (s.groupAt c.key).slot % 4 == g.slot % 4

/-- The yield hold that a split takes at the end of its clause (R311). -/
def yieldHold (s : State) (g : Group) (i : Nat) (x : Split) : List Stream :=
  if x.atLast && x.hdr.yield then quadrantRivals s g (some i) else []

/-- The issuing split moves on past its instruction. -/
def finishLane (s : State) (g : Group) (i : Nat) : State :=
  let x := g.splitAt i
  s.setGroup (g.stepSplit i (yieldHold s g i x))

/-- A split that stays at the last instruction of a clause that yields is held from its issue on (R311). -/
def Group.holdSplit (g : Group) (s : State) (i : Nat) : Group :=
  g.putSplit i { g.splitAt i with hold := yieldHold s g i (g.splitAt i) }

/-- A split that an operation has kept at its instruction moves on; its yield hold is what its issue left of one (R311). -/
def finishHeld (s : State) (g : Group) (i : Nat) : State := s.setGroup (g.stepSplit i (g.splitAt i).hold)

/-- The lowest divergence identifier that no entry of the group holds (R361). -/
def Group.freshId (g : Group) : Nat :=
  ((List.range 33).find? fun n => !(g.splits.any fun x => x.valid && x.holds n)).getD 32

/-- The split's stack for a divergent branch to reconvergence address `r` (R169): its top entry if it has that address,
else a new one. -/
def joinsFor (g : Group) (x : Split) (r : BitVec 32) : List Join :=
  match x.joins with
  | j :: _ => if j.reconv = r then x.joins else ⟨r, g.freshId, 0, 0, 0⟩ :: x.joins
  | [] => [⟨r, g.freshId, 0, 0, 0⟩]

/-- The lowest free index of the split table. -/
def Group.freeIndex (g : Group) : Option Nat := (List.range 4).find? fun n => !(g.splitAt n).valid

/-- A deferral's stack (R169): a top entry that already defers to another target is kept, and a new one pushed. -/
def deferJoins (g : Group) (js : List Join) (r target : BitVec 32) : List Join :=
  match js with
  | j :: rest => if j.defer ≠ 0 ∧ j.target ≠ target then ⟨r, g.freshId, 0, 0, 0⟩ :: j :: rest else js
  | [] => js

/-- The taken lanes join the top entry's deferred mask (R169). -/
def deferTaken (js : List Join) (taken : Mask) (target : BitVec 32) : List Join :=
  match js with
  | j :: rest => { j with defer := j.defer ||| taken, target := target } :: rest
  | [] => js

/-- A join entry as a new split's stack takes it (R169): its address and identifier. The lanes that the entry has deferred or
that have arrived stay with the branching split, for a lane belongs to one split at a time (R91; assumption 58). -/
def Join.bare (j : Join) : Join := ⟨j.reconv, j.id, 0, 0, 0⟩

/-- A divergent branch's new table (R169), without the branching split's own continuation: none when a push would make a
ninth entry. -/
def Group.diverge (g : Group) (i : Nat) (taken : Mask) (r target : BitVec 32) : Option Group :=
  let x := g.splitAt i
  let js := joinsFor g x r
  let rest := x.mask &&& ~~~taken
  match g.freeIndex with
  | some n =>
    if 8 < js.length then none
    else
      let y : Split := { Split.free with
        valid := true
        mask := taken
        addr := target
        width := x.width
        joins := js.map Join.bare }
      some ((g.putSplit i { x with mask := rest, joins := js }).putSplit n y)
  | none =>
    let js := deferJoins g js r target
    if 8 < js.length then none
    else some (g.putSplit i { x with mask := rest, joins := deferTaken js taken target })

/-- An arriving split (R170): deferred lanes first, then arrived lanes, then it waits and fuses. -/
def Group.arrive (g : Group) (i : Nat) : Group :=
  let x := g.splitAt i
  match x.joins with
  | [] => g
  | j :: rest =>
    if j.defer ≠ 0 then
      g.putSplit i { x with
        mask := j.defer
        addr := j.target
        index := 15
        joins := { j with arrived := j.arrived ||| x.mask, defer := 0 } :: rest }
    else
      (g.putSplit i { x with mask := x.mask ||| j.arrived, st := .joining, joins := { j with arrived := 0 } :: rest }).settle

/-- The lane view of the issuing split (R74, R174). -/
def laneOf (s : State) (w : LaneWord) : Lane :=
  let g := s.group
  let i := s.cur.lane.getD 0
  let x := g.splitAt i
  ⟨g, g.seen s.tick x.floor, s.grid, i, x, w, activeLanes g x w, x.width⟩

/-- The register indices that a lane instruction names, in the order destination, A, B, C (R103, assumption 17): QSET's
destination is the scale register. -/
def laneIndices (i : Instr) : List Nat :=
  match i with
  | .qset _ => (laneRegs i).2 ++ (laneRegs i).1
  | _ => (laneRegs i).1 ++ (laneRegs i).2

/-- The first register index at or beyond the allocation (R103, R135). -/
def outOfRange (g : Group) (r : List Nat) : Option Nat := r.find? fun n => g.alloc ≤ n

/-- The form of a lane instruction (R82, R91, R103): the role check of vector-role opcodes, the register indices, the
wait for outstanding results, then the instruction's own body. -/
def laneInstr (i : Instr) (w : LaneWord) (vectorRole : Bool) (s : State) (body : Lane → Result State) : Result State :=
  let c := laneOf s w
  if vectorRole && c.g.role != .vector then trapRole s
  else match outOfRange c.g (laneIndices i) with
    | some n => trapRange s n
    | none => if laneHeld c.g c.i c.sp i then .next s else body c

/-- A lane-wise result written and counted: the group takes the result, the draws, the count, and the split moves on
(R40, R58, R134). -/
def laneDone (s : State) (c : Lane) (g : Group) (nf : Nat) : Result State :=
  .next (countNf (finishLane s g c.i) c.g.grid (if c.nf then nf else 0))

/-- An instruction that writes Vd and its shadows lane by lane, with no rounding. -/
def laneWrite (s : State) (c : Lane) (prim : Nat → LaneW) (tan : Nat → Nat → LaneW) : Result State :=
  laneDone s c (c.g.writeResult c.w.dest c.t c.act prim tan) 0

end Sys2Proof.Machine
end

