-- ==== Sys2Proof/Machine/LaneMem.lean ====
section
/-! DEFINITION. The lane memory instructions (R278 to R291): addresses and offsets (R281), the checks of R282, page
service and the replay mask (R215, R283), the scratchpad, scale transfers, atomics with their planes (R180, R181), and
the random generator (R392). -/

namespace Sys2Proof.Machine

/-- The form of a long-latency lane instruction: its header flag must be valid (R20), A15 belongs to the handler (R96),
then the form of every lane instruction (R82). -/
def longInstr (i : Instr) (w : LaneWord) (vectorRole : Bool) (ap : Option Nat) (s : State) (body : Lane → Result State) :
    Result State :=
  let g := s.group
  let x := g.splitAt (s.cur.lane.getD 0)
  if laneFlag x w = none then trapIllop s
  else if ap = some 15 ∧ !g.handler then trapPriv s
  else laneInstr i w vectorRole s body

/-- A long-latency operation issues: it raises its flag and stands among the group's outstanding ones (R20, R91). -/
def Group.issueOp (g : Group) (o : LaneOp) : Group :=
  { g.raiseFlag o.flag with laneOps := g.laneOps ++ [o], nextOp := g.nextOp + 1 }

/-- The operation of an issuing instruction. -/
def newOp (c : Lane) (dest : Dest) (todo : List Acc) (done : List Done) (far : List (Acc × Nat)) : LaneOp :=
  ⟨c.g.nextOp, c.i, c.act, 0, laneFlag c.sp c.w, dest, dest == .none, false, todo, done, far, 0, none⟩

/-- The operation, issued; the split moves on unless accesses are held for service or data comes from afar (R214, R215). The last
instruction of a clause that yields leaves its hold at its issue (R311). -/
def issueLane (s : State) (c : Lane) (o : LaneOp) : State :=
  let s := s.setGroup (s.group.issueOp { o with since := s.cycle.toNat })
  if o.todo.isEmpty && o.far.isEmpty then finishLane s s.group c.i else s.setGroup (s.group.holdSplit s c.i)

/-- The four FP6 codes of a lane word as 24 bits, and back (R280). -/
def pack6 (x : Nat) : Nat := (List.range 4).foldl (fun a i => a + Bits.field x (8 * i) 6 * 2 ^ (6 * i)) 0
/-- 24 bits as four FP6 code bytes. -/
def unpack6 (x : Nat) : Nat := (List.range 4).foldl (fun a i => a + Bits.field x (6 * i) 6 * 2 ^ (8 * i)) 0

/-- Register `j` of a loaded value (R279 to R281): extended, unpacked, or one 32-bit part of it. -/
def loadWord (bytes : Nat) (sext p6 : Bool) (value j : Nat) : LaneW :=
  if p6 then BitVec.ofNat 32 (unpack6 value)
  else if sext then BitVec.ofInt 32 (Bits.signed value (8 * bytes))
  else BitVec.ofNat 32 (Bits.field value (32 * j) 32)

/-- The writes of loaded lanes to a plane's registers; a plane without an access of its own takes +0 (R181). -/
def loadedWrites (reg bytes : Nat) (sext p6 : Bool) (done : List Done) (plane : Nat) : List RegWrite :=
  let lanes := Bits.maskOf fun l => done.any fun d => d.lane == l && d.plane == 0
  let value (l : Nat) : Nat :=
    match done.find? fun d => d.lane == l && d.plane == plane with
    | some d => d.value
    | none => 0
  (List.range (Bits.ceilDiv bytes 4)).map fun j =>
    .v plane (reg + j) lanes (Bits.vecOf fun l => loadWord bytes sext p6 (value l) j)

/-- A scale register as LDQ leaves it (R288). -/
def loadedScales (blocks distance scales comps : Nat) : ScaleReg :=
  (List.range 16).foldl (fun q b =>
    if b < blocks then
      Bits.setQbyte (Bits.setQbyte q b (Bits.field scales (8 * b) 8)) (16 + b)
        (if distance = 0 then 0 else Bits.field comps (8 * b) 8)
    else Bits.setQbyte (Bits.setQbyte q b 0x7F) (16 + b) 0) 0

/-- What a completed operation writes, shadows included (R91, R284). -/
def LaneOp.writes (o : LaneOp) : List RegWrite :=
  match o.dest with
  | .none => []
  | .lanes reg bytes sext p6 planes => (0 :: planes).flatMap fun k => loadedWrites reg bytes sext p6 o.done k
  | .scales reg blocks distance planes =>
    let value (k lane : Nat) : Nat :=
      match o.done.find? fun d => d.plane == k && d.lane == lane with
      | some d => d.value
      | none => 0
    (0 :: planes).map fun k => .q k reg (loadedScales blocks distance (value k 0) (value k 1))
  | .regs mask writes => writes.map fun w => .v (w.1 / 512) (w.1 % 512) mask w.2

/-- One write of a register. -/
def Group.putReg (g : Group) (w : RegWrite) : Group :=
  match w with
  | .v plane reg lanes x => g.writeLanes plane reg lanes fun l => Bits.lane x l
  | .q plane reg x => g.writeQ plane reg x

/-- A completion's writes: an evicted continuation keeps them for its registers' return (R108, R306). -/
def Group.completeWrites (g : Group) (l : List RegWrite) : Group :=
  let h := l.foldl Group.putReg g
  if g.evicted then { h with late := h.late ++ l } else h

/-- The registers that a completed operation writes (R91, R284). -/
def Group.writeDest (g : Group) (o : LaneOp) : Group := g.completeWrites o.writes

/-- The group's operation that holds the split at its instruction (R214, R215). -/
def Group.replayOp (g : Group) (split : Nat) : Option LaneOp :=
  g.laneOps.find? fun o => o.split == split && (o.todo != [] || o.again || o.far != [])

/-- An operation of a group takes another form. -/
def Group.putOp (g : Group) (o : LaneOp) : Group :=
  { g with laneOps := g.laneOps.map fun x => if x.id = o.id then o else x }

/-- The results of a held operation's finished lanes, those that await nothing more; a whole-register transfer has none until
all of it is there (R180, R215, R283, R288). -/
def LaneOp.finishedLanes (o : LaneOp) : List Done :=
  match o.dest with
  | .lanes _ _ _ _ _ => o.done.filter fun d => !(o.todo.any fun a => a.lane == d.lane) && !(o.far.any fun a => a.1.lane == d.lane)
  | _ => []

/-- The finished lanes of a held operation write their results at once (R180, R215, R283). -/
def Group.commit (g : Group) (o : LaneOp) : LaneOp × Group :=
  let l := o.finishedLanes
  ({ o with done := o.done.filter fun d => !l.contains d }, g.writeDest { o with done := l })

/-- A held operation that has met a fault stands to be repeated, its finished lanes written (R215). -/
def Group.settleOp (g : Group) (o : LaneOp) : Group :=
  let r := g.commit o
  r.2.putOp { r.1 with again := true }

/-- The lanes that a trap of a held operation names: its replay mask, or the active lanes of a whole-register transfer
(R215, R288). -/
def LaneOp.replayMask (o : LaneOp) : Mask :=
  match o.dest with
  | .scales _ _ _ _ => o.mask
  | _ => Bits.maskOf fun n => o.todo.any fun a => a.lane == n

/-- The lowest unfinished address. -/
def LaneOp.lowest (o : LaneOp) : Nat := o.todo.foldl (fun m a => min m a.va) (2 ^ 56)

/-- A trap for lanes of a lane access (R282). -/
def trapLanes (s : State) (cause : Cause) (detail : Nat) (planes : Mask) (addr : Nat) : State :=
  takeTrap s cause detail planes (BitVec.ofNat 64 addr)

/-- A load lane any of whose accesses waits for service is wholly deferred, and so is an access of a device or strongly-ordered
page after a lane that waits at such a page (R180, R215, R270). -/
def deferred (l : List (Acc × Verdict)) (device : Acc → Bool) (a : Acc) : Bool :=
  l.any fun x => !x.2.isOk && (x.1.lane == a.lane || (x.1.lane ≤ a.lane && device x.1 && device a))

/-- What becomes of the accesses of a store or reduction: performed now, retired into the side log, or held (R272, R283). -/
structure Sorted where
  now  : List (Acc × Verdict)
  log  : List (Acc × Verdict)
  held : List (Acc × Verdict)
  deriving DecidableEq, Repr

/-- One more access is sorted (R270, R272, R283, R285): a faulting access of a device or strongly-ordered page is held, and so are
the later ones of the instruction; another faulting access retires into the side log, and so does one that touches a byte
of an entry or of an access of the instruction that precedes it there. -/
def Sorted.add (z : Sorted) (s : State) (core : Nat) (x : Acc × Verdict) : Sorted :=
  let hits (l : List (Acc × Verdict)) : Bool := l.any fun y => overlap y.1.va y.1.bytes x.1.va x.1.bytes
  let late := !x.2.isOk || sideTouches s core x.1.va x.1.bytes || hits z.log
  if ((late || z.held != []) && deviceTyped s x.1.va) || hits z.held then { z with held := z.held ++ [x] }
  else if late then { z with log := z.log ++ [x] }
  else { z with now := z.now ++ [x] }

/-- The accesses of a store or reduction sorted in their order. -/
def sortStores (s : State) (core : Nat) (l : List (Acc × Verdict)) : Sorted :=
  l.foldl (fun z x => z.add s core x) ⟨[], [], []⟩

/-- Accesses enter the side log, ready if they need no service of their own (R272). -/
def logAll (s : State) (core key order : Nat) (l : List (Acc × Verdict)) : State :=
  l.foldl (fun s x => logStore s core key order (!x.2.isService) x.1) s

/-- The waiting store with a ticket takes a freed entry, and its stream goes on: a scalar store moves past its instruction, a split
repeats its instruction once none of its stores is left (R272). -/
def enterLog (s : State) (core ticket : Nat) : State :=
  let enter (s : State) (key order : Nat) (a : Acc) : State :=
    let r := checkAcc { s with cur := ⟨key, none⟩ } core a
    logStore (askAll r.2 core (s.groupAt key) [(a, r.1)]) core key order (!r.1.isService) a
  match (s.coreGroups core).findSome? fun p => p.2.store.bind fun w => if w.ticket = ticket then some (p.1, w) else none with
  | some (k, w) => (enter s k w.order w.acc).modGroup k fun g => { g with store := none, wait := .none }.advance 4
  | none =>
    match (s.coreGroups core).findSome? fun p =>
      (p.2.laneOps.find? fun o => o.logWait.any fun w => w.1 == ticket).map fun o => (p.1, o) with
    | none => s
    | some (k, o) =>
      let held (l : List Acc) : Bool := l.all fun a => deviceTyped s a.va
      match o.todo with
      | [] => s.modGroup k fun g => g.putOp { o with logWait := none, again := true }
      | a :: rest =>
        (enter s k (o.logWait.elim 0 (·.2)) a).modGroup k fun g =>
          g.putOp { o with todo := rest, logWait := if held rest then none else o.logWait, again := held rest }

/-- The stores that wait for entries of a core's side log take those that are free, in the order in which they met the full
log (R272). -/
def admitLog (s : State) (core n : Nat) : State :=
  match n with
  | 0 => s
  | n + 1 =>
    match (logWaiters s core).min? with
    | none => s
    | some t => if logEntries ≤ (s.coreAt core).sideLog.length then s else admitLog (enterLog s core t) core n

/-- Entries have left a core's side log (R272). -/
def logFreed (s : State) (core : Nat) : State := admitLog (wakeLog s core) core logEntries

/-- The side log holds an operation back (R271, R272): a release until the core's stores are performed, a load or atomic until no
entry touches its bytes. -/
def logBlocks (s : State) (core order : Nat) (accs : List Acc) : Bool :=
  (2 ≤ order && !drained s core) || accs.any fun a => a.returns && sideTouches s core a.va a.bytes

/-- The lanes of a load or atomic whose accesses can all be performed are; while others are left, they write their results at once
(R180, R215, R283). -/
def performLanes (s : State) (core key order : Nat) (o : LaneOp) (l : List (Acc × Verdict)) : LaneOp × State :=
  let device (a : Acc) : Bool := deviceTyped s a.va
  let now := l.filter fun x => !deferred l device x.1
  let todo := (l.filter fun x => deferred l device x.1).map (·.1)
  let p := performAll s core key order now
  let o := { o with todo := todo, done := o.done ++ p.1, far := o.far ++ farOf now, since := s.cycle.toNat }
  if todo = [] then (o, p.2)
  else
    let r := (p.2.groupAt key).commit o
    (r.1, p.2.modGroup key fun _ => r.2)

/-- An operation's accesses, checked, as far as they go now (R180, R215, R270 to R272, R283): what the operation still has to do,
and the state. Loads and atomics with a faulting lane keep those lanes; stores and reductions retire into the side log,
as far as it has room. -/
def proceed (s : State) (core key order : Nat) (o : LaneOp) (l : List (Acc × Verdict)) : LaneOp × State :=
  let g := s.groupAt key
  if logBlocks s core order o.todo then ({ o with again := false }, s)
  else if o.todo.any (·.returns) then
    let p := performLanes s core key order o l
    ({ p.1 with again := l.any (·.2.isWaiting) }, askAll p.2 core g l)
  else
    let z := sortStores s core l
    let p := performAll s core key order z.now
    let s := askAll (askAll p.2 core g z.log) core g z.held
    let room := logRoom s core
    let s := logAll s core key order (z.log.take room)
    let rest := z.log.drop room
    let o := { o with todo := (rest ++ z.held).map (·.1), again := l.any (·.2.isWaiting) }
    if rest = [] then (o, s) else ({ o with logWait := some (s.stamp, order) }, { s with stamp := s.stamp + 1 })

/-- The planes that a trap for a verdict names: the lanes that meet it, or the active lanes of a whole-register transfer. -/
def LaneOp.lanes (o : LaneOp) (l : List (Acc × Verdict)) (p : Verdict → Bool) : Mask :=
  match o.dest with
  | .scales _ _ _ _ => o.mask
  | _ => verdictLanes l p

/-- An operation's held accesses tried again (R215, R283, R222): rows 4 and 5 of R282 and a lost device trap with the
unfinished lanes; those that translate are performed; the rest ask for service again. The split moves on when none is
left. -/
def retryOp (s : State) (k : Nat) (o : LaneOp) : State :=
  let s := { s with cur := ⟨k, some o.split⟩ }
  let core := s.group.core
  let r := checkAll s core o.todo
  let l := r.1
  let s := r.2
  let keep (s : State) : State := s.modGroup k (·.settleOp o)
  if l.any (·.2.isBadRoot) then machineCheckTeam s s.group.teamKey s.group
  else if l.any (·.2.isProt) then trapLanes (keep s) .prot 0 (o.lanes l Verdict.isProt) (verdictAddr l Verdict.isProt)
  else if l.any (·.2.isAtom) then
    trapLanes (keep s) .atomclass 0 (o.lanes l Verdict.isAtom) (verdictAddr l Verdict.isAtom)
  else if l.any (·.2.isLost) then trapLanes (keep s) .remotelost (lostDevice l) o.replayMask o.lowest
  else
    let p := proceed s core k o.order o l
    let s := p.2.modGroup k fun g => g.putOp p.1
    if p.1.todo.isEmpty && p.1.far.isEmpty then finishHeld s s.group o.split else s

/-- Row 2 of R282: the access breaks its natural alignment. -/
def Acc.misaligned (a : Acc) : Bool := a.va % a.bytes != 0

/-- The lanes of the accesses that meet a test. -/
def accLanes (accs : List Acc) (p : Acc → Bool) : Mask := Bits.maskOf fun n => accs.any fun a => a.lane == n && p a

/-- The lowest address of the accesses that meet a test. -/
def accAddr (accs : List Acc) (p : Acc → Bool) : Nat := (accs.filter p).foldl (fun m a => min m a.va) (2 ^ 56)

/-- The aperture of an access takes the frame run of the first address reached through it (R95). -/
def noteRun (s : State) (core key : Nat) (ap : Option Nat) (accs : List Acc) : State :=
  match ap, accs with
  | some n, a :: _ => setRun s core key n (a.va % 2 ^ 56)
  | _, _ => s

/-- A lane memory instruction after its address formation (R282 to R285). `order` is the order attribute; `whole` makes a
trap name the active lanes (R288); `aligned` asks for natural alignment. Loads and atomics with a faulting lane hold
their split; stores and reductions retire into the side log, but for device and strongly-ordered pages. A release waits
until the core's side log has drained (R271), and a load of a logged byte until it has replayed (R272). -/
def laneMemory (s : State) (c : Lane) (order : Nat) (whole aligned : Bool) (ap : Option Nat) (accs : List Acc)
    (dest : Dest) : Result State :=
  let core := c.g.core
  let key := s.cur.key
  match c.g.replayOp c.i with
  | some o => .next (if (o.todo.isEmpty && !o.again) || o.logWait.isSome then s else retryOp s key o)
  | none =>
    if accs ≠ [] ∧ (ap.any fun n => !(c.seen.readA n).valid) then
      .next (trapLanes s .prot 0 c.act (accAddr accs fun a => a.plane == 0))
    else if aligned && accs.any (·.misaligned) then
      .next (trapLanes s .align 0 (if whole then c.act else accLanes accs Acc.misaligned) (accAddr accs Acc.misaligned))
    else
      let r := checkAll (ap.elim s fun n => withRun s core key n) core accs
      let l := r.1
      let s := r.2
      let lanes (p : Verdict → Bool) : Mask := if whole then c.act else verdictLanes l p
      if l.any (·.2.isBadRoot) then .next (machineCheckTeam s c.g.teamKey c.g)
      else if l.any (·.2.isProt) then .next (trapLanes s .prot 0 (lanes Verdict.isProt) (verdictAddr l Verdict.isProt))
      else if l.any (·.2.isAtom) then
        .next (trapLanes s .atomclass 0 (lanes Verdict.isAtom) (verdictAddr l Verdict.isAtom))
      else if l.any (·.2.isLost) then
        .next (trapLanes s .remotelost (lostDevice l) c.act (accAddr accs fun _ => true))
      else if l.any (·.2.isWaiting) || accs.any (fun a => deviceHeld s c.g (some c.i) a.va) then .next s
      else
        let p := proceed (noteRun s core key ap accs) core key order { newOp c dest accs [] [] with order := order } l
        .next (issueLane p.2 c p.1)

/-- TAddr of R178; plane 0 is the primal. -/
def tangentAddr (g : Group) (va plane : Nat) : Nat :=
  if plane = 0 then va else (va + g.dplane.toNat + (plane - 1) * g.dstride.toNat) % 2 ^ 56

/-- The 64-bit offset of R281, as an integer. -/
def Lane.offset (c : Lane) (off : Int) (l : Nat) : Int := (c.operand c.w.srcB l).toNat + off

/-- The aperture's base, 0 when it is not valid (R281). -/
def Lane.base (c : Lane) (ap : Nat) : Int :=
  let a := c.seen.readA ap
  if a.valid then (a.base.toNat : Int) else 0

/-- The address of lane l through an aperture (R281). -/
def Lane.apAddr (c : Lane) (m : MemFn) (l : Nat) : Nat := Bits.addr56 (c.base m.ap + c.offset m.off l)

/-- The address of lane l from a register pair (R281). -/
def Lane.pairAddr (c : Lane) (m : MemFn) (l : Nat) : Nat :=
  let b := c.w.srcB.toNat
  let lo := Bits.lane (c.g.readV 0 b) l
  let hi := Bits.lane (c.g.readV 0 (b + 1)) l
  Bits.addr56 (lo.toNat + 2 ^ 32 * (hi.toNat % 2 ^ 24) + m.off)

/-- The bytes of a size code (R279). -/
def sizeBytes (size : Nat) : Nat :=
  match size with
  | 0 => 1
  | 1 => 2
  | 2 => 4
  | 3 => 8
  | 4 => 16
  | _ => 3

/-- The lane's data word of a field: its plane's shadow for a vector register (R68, R136). -/
def Lane.dataWord (c : Lane) (f : BitVec 9) (plane l : Nat) : LaneW :=
  if plane = 0 then c.operand f l else c.shadow f plane l

/-- The data of lane l from field f on, of a size (R279, R280). -/
def Lane.data (c : Lane) (f : BitVec 9) (size plane l : Nat) : Nat :=
  if size = 5 then pack6 (c.dataWord f plane l).toNat
  else
    let x := (List.range (sizeRegs size)).foldl
      (fun a j => a + (c.dataWord (f + BitVec.ofNat 9 j) plane l).toNat * 2 ^ (32 * j)) 0
    x % 2 ^ (8 * sizeBytes size)

/-- The planes of a clause, the primal first. -/
def Lane.planes (c : Lane) : List Nat := List.range (c.t + 1)

/-- The shadows that an instruction writes: d1 to dT (R134). -/
def Lane.shadows (c : Lane) : List Nat := (List.range c.t).map (· + 1)

/-- One access per active lane and plane, in ascending lane order (R180, R285). -/
def Lane.accesses (c : Lane) (planes : List Nat) (bytes : Nat) (returns : Bool) (va : Nat → Nat)
    (kind : Nat → Nat → AccKind) : List Acc :=
  (Bits.lanesOf c.act).flatMap fun l => planes.map fun k => ⟨l, k, tangentAddr c.seen (va l) k, bytes, kind k l, returns⟩

/-- Where a load's results go; 511 discards them (R70). -/
def Lane.loadDest (c : Lane) (size : Nat) (planes : List Nat) : Dest :=
  if 384 ≤ c.w.dest.toNat then .none
  else .lanes c.w.dest.toNat (sizeBytes size) (c.w.ty == 9) (size == 5) planes

/-- A load of each active lane at an address (R287). -/
def laneLoad (s : State) (c : Lane) (m : MemFn) (ap : Option Nat) (va : Nat → Nat) : Result State :=
  laneMemory s c m.order false (m.size != 5) ap
    (c.accesses c.planes (sizeBytes m.size) true va fun _ _ => .load) (c.loadDest m.size c.shadows)

/-- A store of each active lane at an address (R287). -/
def laneStore (s : State) (c : Lane) (m : MemFn) (ap : Option Nat) (va : Nat → Nat) : Result State :=
  laneMemory s c m.order false (m.size != 5) ap
    (c.accesses c.planes (sizeBytes m.size) false va fun k l =>
      .store (Bits.leBytes (sizeBytes m.size) (c.data c.w.srcA m.size k l))) .none

/-- LD (R287). -/
def execLd (w : LaneWord) (s : State) : Result State :=
  let m := memFn w
  longInstr (.ld w) w false (some m.ap) s fun c => laneLoad s c m (some m.ap) (c.apAddr m)

/-- ST (R287). -/
def execSt (w : LaneWord) (s : State) : Result State :=
  let m := memFn w
  longInstr (.st w) w false (some m.ap) s fun c => laneStore s c m (some m.ap) (c.apAddr m)

/-- LDX (R287). -/
def execLdx (w : LaneWord) (s : State) : Result State :=
  let m := memFn w
  longInstr (.ldx w) w false none s fun c => laneLoad s c m none (c.pairAddr m)

/-- STX (R287). -/
def execStx (w : LaneWord) (s : State) : Result State :=
  let m := memFn w
  longInstr (.stx w) w false none s fun c => laneStore s c m none (c.pairAddr m)

/-! The scratchpad. -/

/-- The lanes and offsets of a scratchpad instruction. -/
def Lane.scratch (c : Lane) (m : MemFn) : List (Nat × Int) := (Bits.lanesOf c.act).map fun l => (l, c.offset m.off l)

/-- The checks of LDS and STS (R282 rows 2, 3 and 6), then the body. -/
def laneScratch (s : State) (c : Lane) (m : MemFn) (store : Bool) (body : Team → Result State) : Result State :=
  let t := s.team
  let n := sizeBytes m.size
  let offs := c.scratch m
  let report (cause : Cause) (bad : List (Nat × Int)) : Result State :=
    .next (takeTrap s cause 0 (Bits.maskOf fun l => bad.any fun x => x.1 == l) (lowestOffset (bad.map (·.2))))
  let odd := if m.size = 5 then [] else offs.filter fun x => x.2 % (n : Int) != 0
  let past := offs.filter fun x => c.planes.any fun k => t.beyond k x.2 n
  let comp := if store then offs.filter fun x => t.compressed x.2.toNat n else []
  if odd ≠ [] then report .align odd
  else if past ≠ [] then report .sprange past
  else if comp ≠ [] then report .spct comp
  else body t

/-- LDS (R287): the values are read at issue and written at completion. -/
def execLds (w : LaneWord) (s : State) : Result State :=
  let m := memFn w
  longInstr (.lds w) w false none s fun c =>
    laneScratch s c m false fun t =>
      let done := (c.scratch m).flatMap fun x => c.planes.map fun k =>
        ⟨x.1, k, Bits.leNat (t.readScratch (x.2.toNat + k * t.w) (sizeBytes m.size))⟩
      .next (issueLane s c (newOp c (c.loadDest m.size c.shadows) [] done []))

/-- STS (R287): lanes in ascending order, planes after the primal (R180, R285). -/
def execSts (w : LaneWord) (s : State) : Result State :=
  let m := memFn w
  longInstr (.sts w) w false none s fun c =>
    laneScratch s c m true fun t =>
      let t' := (c.scratch m).foldl (fun t x => c.planes.foldl (fun t k =>
        t.writeScratch (x.2.toNat + k * t.w) (Bits.leBytes (sizeBytes m.size) (c.data w.srcA m.size k x.1))) t) t
      .next (issueLane (s.putTeam c.g.teamKey t') c (newOp c .none [] [] []))

/-! Scale registers (R288). -/

/-- The fields of LDQ and STQ: block count, companion distance, offset, aperture and order. -/
structure ScaleFn where
  nb    : Nat
  dist  : Nat
  off   : Nat
  ap    : Nat
  order : Nat
  deriving DecidableEq, Repr

/-- The function bits of LDQ and STQ (R288). -/
def scaleFn (w : LaneWord) : ScaleFn :=
  let f := w.fn.toNat
  ⟨Bits.field f 14 4 + 1, Bits.field f 6 8, Bits.field f 0 6, Bits.field f 20 4, Bits.field f 18 2⟩

/-- The accesses of a scale transfer: per plane the scales (lane 0) and, with a distance, the companions (lane 1). Through an
aperture that is not valid the address is formed with base 0, as R281 forms that of the other lane memory instructions
(assumption 89, DEDUCED). -/
def Lane.scaleAccesses (c : Lane) (f : ScaleFn) (returns : Bool) (kind : Nat → Bool → AccKind) : List Acc :=
  let a := Bits.addr56 (c.base f.ap + (c.operand c.w.srcB 0).toNat + f.off)
  if c.act = 0 then []
  else c.planes.flatMap fun k =>
    ⟨0, k, tangentAddr c.seen a k, f.nb, kind k false, returns⟩ ::
      (if f.dist = 0 then []
       else [⟨1, k, tangentAddr c.seen ((a + f.dist) % 2 ^ 56) k, f.nb, kind k true, returns⟩])

/-- LDQ (R288). A trap names the lowest address that fails, which is a + c where the companions alone do (assumption 90,
DEDUCED). -/
def execLdq (w : LaneWord) (s : State) : Result State :=
  let f := scaleFn w
  longInstr (.ldq w) w false (some f.ap) s fun c =>
    laneMemory s c f.order true false (some f.ap) (c.scaleAccesses f true fun _ _ => .load)
      (if c.act = 0 then .none else .scales w.dest.toNat f.nb f.dist c.shadows)

/-- STQ (R288): the companions are written last. -/
def execStq (w : LaneWord) (s : State) : Result State :=
  let f := scaleFn w
  longInstr (.stq w) w false (some f.ap) s fun c =>
    let bytes (k : Nat) (comp : Bool) : List Byte :=
      Bits.leBytes f.nb (Bits.field (c.g.readQ k w.srcA.toNat).toNat (if comp then 128 else 0) (8 * f.nb))
    laneMemory s c f.order true false (some f.ap) (c.scaleAccesses f false fun k comp => .store (bytes k comp)) .none

/-! Atomics (R289 to R291). -/

/-- The operation of ATOM and ARED by op and type, and the sampled RND.ftz for the comparisons of floating-point values (R44,
R141, R289, R290). -/
def atomOp (op ty : Nat) (ftz : Bool) : RmwOp :=
  match op with
  | 0 => if ty = 0 then .addF32 else if ty = 1 then .addBf16x2 else .addI
  | 1 => if ty = 0 then .minF32 ftz else if ty = 9 then .minS else .minU
  | 2 => if ty = 0 then .maxF32 ftz else if ty = 9 then .maxS else .maxU
  | 3 => .and
  | 4 => .or
  | 5 => .xor
  | _ => .swap

/-- A floating-point add has its tangent plane (R181). -/
def RmwOp.tangent (op : RmwOp) : Bool := op == .addF32 || op == .addBf16x2

/-- ATOM and ARED: a separate atomic add on each plane for a floating-point add; no plane otherwise (R181). -/
def laneAtomic (s : State) (c : Lane) (m : MemFn) (returns : Bool) : Result State :=
  let op := atomOp m.op c.w.ty.toNat (rndFtz c.seen.rnd)
  let planes := if op.tangent then c.planes else [0]
  laneMemory s c m.order false true (some m.ap)
    (c.accesses planes (sizeBytes m.size) returns (c.apAddr m) fun k l =>
      .rmw op (c.data c.w.srcA m.size k l) 0)
    (if returns then c.loadDest m.size c.shadows else .none)

/-- ATOM (R289, R290). -/
def execAtom (w : LaneWord) (s : State) : Result State :=
  let m := atomFn w
  longInstr (.atom w) w false (some m.ap) s fun c => laneAtomic s c m true

/-- ARED (R289, R290). -/
def execAred (w : LaneWord) (s : State) : Result State :=
  let m := atomFn w
  longInstr (.ared w) w false (some m.ap) s fun c => laneAtomic s c m false

/-- ACAS (R289, R290): the comparand is A, the new value C; a CAS always writes. -/
def execAcas (w : LaneWord) (s : State) : Result State :=
  let m := memFn w
  longInstr (.acas w) w false (some m.ap) s fun c =>
    laneMemory s c m.order false true (some m.ap)
      (c.accesses [0] (sizeBytes m.size) true (c.apAddr m) fun _ l =>
        .rmw .cas (c.data w.srcC m.size 0 l) (c.data w.srcA m.size 0 l))
      (c.loadDest m.size c.shadows)

/-- RNG (R392): the draws are taken at issue for all lanes; the registers are written at completion, their shadows with
+0. -/
def execRng (w : LaneWord) (s : State) : Result State :=
  longInstr (.rng w) w true none s fun c =>
    let n := w.fn.toNat % 4 + 1
    let e := 2 * n
    let word (r l : Nat) : Nat := c.chunk (l * e + 2 * r) + 2 ^ 16 * c.chunk (l * e + 2 * r + 1)
    let value (r l : Nat) : LaneW :=
      BitVec.ofNat 32 (if w.ty = 0 then Num.rnd .fp32 .rne (.fin false (word r l / 2 ^ 8) (-24)) else word r l)
    let reg (r : Nat) : VecReg := Bits.lanes.foldl (fun v l => Bits.setLane v l (value r l)) 0
    let d := w.dest.toNat
    let writes := (List.range n).flatMap fun r =>
      (d + r, reg r) :: c.shadows.map fun k => (k * 512 + d + r, (0 : VecReg))
    let dest := Dest.regs c.act (if 384 ≤ d then [] else writes)
    let g := { c.g with draws := c.g.draws + BitVec.ofNat 32 (8 * n) }
    let o := newOp c dest [] [] []
    let s := s.setGroup (g.issueOp o)
    .next (finishLane s s.group c.i)

end Sys2Proof.Machine
end

