-- ==== Sys2Proof/Machine/Crypto.lean ====
section
/-! DEFINITION. The checksum of records (CRC-32C of RFC 3720, R319, R320, R343, R405) and sealing (AES-256-XTS of IEEE
1619, R255). -/

namespace Sys2Proof.Crypto

/-- Eight steps of the reflected CRC-32C polynomial. -/
def crcSteps (n : Nat) (c : BitVec 32) : BitVec 32 :=
  match n with
  | 0 => c
  | n + 1 => crcSteps n (if c.getLsbD 0 then (c >>> 1) ^^^ 0x82F63B78 else c >>> 1)

/-- The running CRC over more bytes. -/
def crcRun (c : BitVec 32) (bs : List Byte) : BitVec 32 :=
  match bs with
  | [] => c
  | b :: t => crcRun (crcSteps 8 (c ^^^ b.setWidth 32)) t

/-- CRC-32C of some bytes. -/
def crc32c (bs : List Byte) : BitVec 32 := ~~~(crcRun (BitVec.allOnes 32) bs)

/-- Doubling in the field of AES. -/
def xtime (a : Byte) : Byte := (a <<< 1) ^^^ (if a.getLsbD 7 then 0x1B else 0)

/-- The product of the field of AES, over the low `n` bits of `b`. -/
def gmul (n : Nat) (a b : Byte) : Byte :=
  match n with
  | 0 => 0
  | n + 1 => (if b.getLsbD 0 then a else 0) ^^^ gmul n (xtime a) (b >>> 1)

/-- a to the power 2^n, times the lower such powers but the first: with n = 7, the inverse a^254. -/
def invFrom (n : Nat) (a acc : Byte) : Byte :=
  match n with
  | 0 => acc
  | n + 1 =>
    let a2 := gmul 8 a a
    invFrom n a2 (gmul 8 acc a2)

/-- The S-box. -/
def sbox (a : Byte) : Byte :=
  let b := invFrom 7 a 1
  b ^^^ b.rotateLeft 1 ^^^ b.rotateLeft 2 ^^^ b.rotateLeft 3 ^^^ b.rotateLeft 4 ^^^ 0x63

/-- The inverse S-box: undo the affine map, then invert. -/
def invSbox (a : Byte) : Byte :=
  let b := a.rotateLeft 1 ^^^ a.rotateLeft 3 ^^^ a.rotateLeft 6 ^^^ 0x05
  invFrom 7 b 1

/-- Bytes of two lists combined by exclusive or. -/
def xorBytes (a b : List Byte) : List Byte := a.zipWith (· ^^^ ·) b

/-- The words of the key schedule of AES-256 from word i on, newest first (FIPS 197 with Nk = 8). -/
def expand (n i : Nat) (rcon : Byte) (ws : List (List Byte)) : List (List Byte) :=
  match n with
  | 0 => ws
  | n + 1 =>
    let last := ws.headD []
    let old := (ws[7]?).getD []
    let t :=
      if i % 8 = 0 then xorBytes ((last.drop 1 ++ last.take 1).map sbox) [rcon, 0, 0, 0]
      else if i % 8 = 4 then last.map sbox
      else last
    expand n (i + 1) (if i % 8 = 0 then xtime rcon else rcon) (xorBytes old t :: ws)

/-- The 15 round keys of a 32-byte key. -/
def roundKeys (key : List Byte) : List (List Byte) :=
  let ws := (expand 52 8 1 ((List.range 8).map fun i => (key.drop (4 * i)).take 4).reverse).reverse
  (List.range 15).map fun r => ((ws.drop (4 * r)).take 4).flatten

/-- Byte `i` of a block. -/
def at_ (b : List Byte) (i : Nat) : Byte := b.getD i 0

/-- ShiftRows, or its inverse, of a column-major block. -/
def shiftRows (inverse : Bool) (b : List Byte) : List Byte :=
  (List.range 16).map fun i =>
    let r := i % 4
    let c := i / 4
    at_ b (4 * ((if inverse then c + 4 - r else c + r) % 4) + r)

/-- MixColumns with the given coefficients. -/
def mixColumns (k : List Byte) (b : List Byte) : List Byte :=
  (List.range 16).map fun i =>
    let c := i / 4
    (List.range 4).foldl (fun a j => a ^^^ gmul 8 (at_ b (4 * c + j)) (k.getD ((j + 4 - i % 4) % 4) 0)) 0

/-- The rounds of encryption after the first key. -/
def encRounds (ks : List (List Byte)) (b : List Byte) : List Byte :=
  match ks with
  | [] => b
  | [k] => xorBytes (shiftRows false (b.map sbox)) k
  | k :: t => encRounds t (xorBytes (mixColumns [2, 3, 1, 1] (shiftRows false (b.map sbox))) k)

/-- AES-256 encryption of a block under round keys. -/
def encrypt (ks : List (List Byte)) (b : List Byte) : List Byte :=
  match ks with
  | [] => b
  | k :: t => encRounds t (xorBytes b k)

/-- The rounds of decryption after the last key. -/
def decRounds (ks : List (List Byte)) (b : List Byte) : List Byte :=
  match ks with
  | [] => b
  | [k] => xorBytes ((shiftRows true b).map invSbox) k
  | k :: t => decRounds t (mixColumns [14, 11, 13, 9] (xorBytes ((shiftRows true b).map invSbox) k))

/-- AES-256 decryption of a block under round keys. -/
def decrypt (ks : List (List Byte)) (b : List Byte) : List Byte :=
  match ks.reverse with
  | [] => b
  | k :: t => decRounds t (xorBytes b k)

/-- The tweak of the next block: times the primitive element, little-endian (IEEE 1619). -/
def nextTweak (t : List Byte) : List Byte :=
  let x := 2 * Bits.leNat t
  let y := x % 2 ^ 128
  Bits.leBytes 16 (if 2 ^ 128 ≤ x then Nat.xor y 0x87 else y)

/-- The blocks of a data unit of whole blocks. -/
def xtsBlocks (ks : List (List Byte)) (seal_ : Bool) (n : Nat) (tweak : List Byte) (bs : List Byte) : List Byte :=
  match n with
  | 0 => []
  | n + 1 =>
    let x := xorBytes (bs.take 16) tweak
    xorBytes (if seal_ then encrypt ks x else decrypt ks x) tweak ++ xtsBlocks ks seal_ n (nextTweak tweak) (bs.drop 16)

/-- One 4 KiB unit sealed or unsealed (R255): the 64-byte key's halves, and the unit number as a tweak. -/
def xtsUnit (key : List Byte) (seal_ : Bool) (unit : Nat) (bs : List Byte) : List Byte :=
  xtsBlocks (roundKeys (key.take 32)) seal_ 256 (encrypt (roundKeys (key.drop 32)) (Bits.leBytes 16 unit)) bs

/-- Whole units from a virtual address on (R255). -/
def xts (key : List Byte) (seal_ : Bool) (n va : Nat) (bs : List Byte) : List Byte :=
  match n with
  | 0 => []
  | n + 1 => xtsUnit key seal_ (va / 4096) (bs.take 4096) ++ xts key seal_ n (va + 4096) (bs.drop 4096)

end Sys2Proof.Crypto
end

