-- ==== Sys2Proof/Machine/ScalarMem.lean ====
section
/-! DEFINITION. The scalar memory instructions: apertures (R276), loads and stores (R292, R293), atomics (R294), WAITA,
PREF (R295, R296), and the maintenance of translations and keys (R297, R298). A structure that an instruction reads at
issue is read as SLD reads (R326). -/

namespace Sys2Proof.Machine

/-- A scalar address names the team's scratchpad (R293). -/
def scratchWindow (va : Nat) : Bool := Bits.field va 32 24 == 0xFFFFFF

/-- A checked access of the scalar stream (R214, R282, R292): rows 4 and 5 and a lost device trap; page service holds the
stream; otherwise the access goes on with the pieces and the state that the translation left. -/
def scalarAccess (s : State) (g : Group) (va n : Nat) (kind : AccKind) (k : List Piece → State → Result State) :
    Result State :=
  match checkAcc s g.core ⟨0, 0, va, n, kind, true⟩ with
  | (.ok ps, s) => k ps s
  | (.prot, s) => trapMem s .prot 0 va
  | (.atomclass, s) => trapMem s .atomclass 0 va
  | (.lost d, s) => trapMem s .remotelost d va
  | (.service kd level base size, s) =>
    waitService (askService s g.die g kd level base size (faultDetail kind.writes false kind.atomic false)) g va
  | (.waiting, s) => .next s
  | (.badRoot, s) => .next (machineCheckTeam s g.teamKey g)

/-- The bytes of a structure, or of a scalar load, read plainly (R292, R293, R326): the scratchpad window, or memory; a
byte that the side log holds is waited for (R272). -/
def readPlain (s : State) (g : Group) (va n : Nat) (acq : Bool) (k : List Byte → List Piece → State → Result State) :
    Result State :=
  if scratchWindow va then
    let t := s.teamAt g.teamKey
    let o := va % 2 ^ 32
    if t.w < o + n then trapMem s .sprange 0 o else k (t.readScratch o n) [] s
  else if sideTouches s g.core va n then waitIn s g (.sideLog va n)
  else if deviceHeld s g none va then .next s
  else scalarAccess s g va n .load fun ps s =>
    let r := loadPieces s g.core ps acq
    k r.1 ps r.2

/-- A structure at an address of the given alignment (R326). -/
def readStruct (s : State) (g : Group) (va n align : Nat) (k : List Byte → State → Result State) : Result State :=
  if va % align ≠ 0 then trapMem s .align 0 va else readPlain s g va n false fun bs _ s => k bs s

/-- An S register as a 56-bit address. -/
def Group.addr (g : Group) (n : Nat) : Nat := (g.readS n).toNat % 2 ^ 56

/-! Apertures. -/

/-- The frame run of an aperture that is written goes (R95). -/
def dropRun (s : State) (key ap : Nat) : State :=
  let core := (s.groupAt key).core
  let c := s.coreAt core
  if c.runs.any fun r => r.1 == (key, ap) then s.putCore core { c with runs := c.runs.filter fun r => r.1 != (key, ap) } else s

/-- APSET and APCLR name A15 in handler state only (R96). -/
def apertureInstr (f : SR) (regs : List Nat) (s : State) (body : Group → Aperture) : Result State :=
  scalarInstr regs s fun g =>
    if f.dest = 15 ∧ !g.handler then trapPriv s
    else
      .next ((dropRun s s.cur.key f.dest.toNat).setGroup
        (((g.note (.a f.dest.toNat (g.readA f.dest.toNat))).writeA f.dest.toNat (body g)).advance 4))

/-- APSET (R276). -/
def execApset (f : SR) (s : State) : Result State :=
  apertureInstr f [f.src1.toNat, f.src2.toNat] s fun g =>
    ⟨true, (g.readS f.src1.toNat).setWidth 56,
      BitVec.ofNat 32 (min (g.readS f.src2.toNat).toNat (2 ^ 32 - 1))⟩

/-- APCLR (R276): base and limit are kept. -/
def execApclr (f : SR) (s : State) : Result State :=
  apertureInstr f [] s fun g => { g.readA f.dest.toNat with valid := false }

/-! Loads and stores. -/

/-- The address of an SM word (R292). -/
def smAddr (g : Group) (f : SM) : Nat := Bits.addr56 ((g.readS f.base.toNat).toNat + f.off.toInt)

/-- A scalar access returns values for S registers, which are written when it completes (R91, R292). -/
def Group.issueScalar (g : Group) (cycle : Nat) (dest : List (Nat × Word)) (va : Nat) (ps : List Piece) : Group :=
  { g with
    scalarOps := g.scalarOps ++
      [⟨g.nextOp, dest.filter fun d => d.1 != 0, (farSource ps).map fun n => ⟨n, va, g.pc, g.handler, cycle⟩⟩]
    nextOp := g.nextOp + 1 }

/-- SLD (R292, R293). -/
def execSld (n : BitVec 2) (f : SM) (s : State) : Result State :=
  scalarInstr [f.data.toNat, f.base.toNat] s fun g =>
    let bytes := 2 ^ n.toNat
    let va := smAddr g f
    if va % bytes ≠ 0 then trapMem s .align 0 va
    else readPlain s g va bytes (f.f == 1) fun bs ps s =>
      .next (s.setGroup ((g.issueScalar s.cycle.toNat [(f.data.toNat, BitVec.ofNat 64 (Bits.leNat bs))] va ps).advance 4))

/-- A store of the scalar stream retires into the side log, or waits for an entry of a full one (R272). -/
def retireStore (s : State) (g : Group) (order : Nat) (ready : Bool) (a : Acc) : Result State :=
  if logRoom s g.core = 0 then
    .next ({ s with stamp := s.stamp + 1 }.setGroup { g with wait := .logRoom, store := some ⟨s.stamp, order, a⟩ })
  else .next ((logStore s g.core s.cur.key order ready a).setGroup (g.advance 4))

/-- SST (R292, R293): a faulting store retires into the side log, but for a device or strongly-ordered page. -/
def execSst (n : BitVec 2) (f : SM) (s : State) : Result State :=
  scalarInstr [f.data.toNat, f.base.toNat] s fun g =>
    let bytes := 2 ^ n.toNat
    let va := smAddr g f
    let data := Bits.leBytes bytes (g.readS f.data.toNat).toNat
    let t := s.team
    let order := if f.f = 1 then 2 else 0
    if va % bytes ≠ 0 then trapMem s .align 0 va
    else if scratchWindow va then
      let o := va % 2 ^ 32
      if t.w < o + bytes then trapMem s .sprange 0 o
      else if t.compressed o bytes then trapMem s .spct 0 va
      else .next ((s.putTeam g.teamKey (t.writeScratch o data)).setGroup (g.advance 4))
    else if deviceHeld s g none va then .next s
    else
      let a : Acc := ⟨0, 0, va, bytes, .store data, false⟩
      let held := 2 ≤ order && !drained s g.core
      match checkAcc s g.core a with
      | (.service kd level base size, s') =>
        let s' := askService s' g.die g kd level base size (faultDetail true false false false)
        if deviceTyped s va then waitService s' g va
        else if held then waitIn s' g (.sideLog 0 0)
        else retireStore s' g order false a
      | _ => scalarAccess s g va bytes a.kind fun ps s' =>
        if held then waitIn s' g (.sideLog 0 0)
        else if sideTouches s g.core va bytes then retireStore s' g order true a
        else
          let t := (performAcc s' g.core s.cur.key a ps order).2
          .next (t.setGroup (t.group.advance 4))

/-! Atomics. -/

/-- The operation of SATOM (R294). -/
def satomOp (fn : Nat) : RmwOp :=
  let unsigned := Bits.bit fn 3
  match fn % 8 with
  | 0 => .addI
  | 1 => .swap
  | 2 => .and
  | 3 => .or
  | 4 => .xor
  | 5 => if unsigned then .minU else .minS
  | _ => if unsigned then .maxU else .maxS

/-- A scalar atomic of `bytes` bytes (R266, R291, R294): the old value returns to registers. -/
def scalarAtomic (s : State) (g : Group) (va bytes order : Nat) (op : RmwOp) (x comparand : Nat)
    (dest : Nat → List (Nat × Word)) : Result State :=
  if va % bytes ≠ 0 then trapMem s .align 0 va
  else if scratchWindow va then trapMem s .atomclass 0 va
  else if 2 ≤ order && !drained s g.core then waitIn s g (.sideLog 0 0)
  else if sideTouches s g.core va bytes then waitIn s g (.sideLog va bytes)
  else if deviceHeld s g none va then .next s
  else
    let a : Acc := ⟨0, 0, va, bytes, .rmw op x comparand, true⟩
    scalarAccess s g va bytes a.kind fun ps s =>
      let r := performAcc s g.core s.cur.key a ps order
      .next (r.2.setGroup ((g.issueScalar s.cycle.toNat (dest r.1) va ps).advance 4))

/-- SATOM (R294). -/
def execSatom (f : SR) (s : State) : Result State :=
  scalarInstr [f.dest.toNat, f.src1.toNat, f.src2.toNat] s fun g =>
    let fn := f.fn.toNat
    let bytes := if Bits.bit fn 6 then 4 else 8
    scalarAtomic s g (g.addr f.src1.toNat) bytes (Bits.field fn 4 2) (satomOp fn)
      ((g.readS f.src2.toNat).toNat % 2 ^ (8 * bytes)) 0 fun old => [(f.dest.toNat, BitVec.ofNat 64 old)]

/-- An S register, or a pair of them, as a number of the access's width (R294): the form of 4 bytes takes the low half, for the
comparand too (assumption 75). -/
def Group.wide (g : Group) (n bytes : Nat) : Nat :=
  ((g.readS n).toNat + (if bytes = 16 then 2 ^ 64 * (g.readS (n + 1)).toNat else 0)) % 2 ^ (8 * bytes)

/-- SCAS (R294): the comparand in dest, the new value in src2; 16 bytes in even pairs. -/
def execScas (f : SR) (s : State) : Result State :=
  let fn := f.fn.toNat
  let quad := Bits.bit fn 3
  let bytes := if quad then 16 else if Bits.bit fn 6 then 4 else 8
  let d := f.dest.toNat
  let n := f.src2.toNat
  scalarInstr ([d, f.src1.toNat, n] ++ if quad then [d + 1, n + 1] else []) s fun g =>
    scalarAtomic s g (g.addr f.src1.toNat) bytes (Bits.field fn 4 2) .cas (g.wide n bytes) (g.wide d bytes) fun old =>
      (d, BitVec.ofNat 64 (old % 2 ^ 64)) :: if quad then [(d + 1, BitVec.ofNat 64 (old / 2 ^ 64))] else []

/-- The group has stores that have not been performed: in the side log, waiting for an entry of it, or under way to a fabric
device (R272, R295, R360). -/
def accessesOut (s : State) (key : Nat) : Bool :=
  let c := s.coreAt (s.groupAt key).core
  (c.sideLog.any fun e => e.key == key) || (c.sent.any fun e => e.key == key) || (s.groupAt key).laneOps.any (·.logWait.isSome)

/-- WAITA (R295): every access but a side-logged one has been performed when its instruction issued. -/
def execWaita (f : SR) (s : State) : Result State :=
  scalarInstr [f.dest.toNat] s fun g =>
    if accessesOut s s.cur.key then waitIn s g .waita
    else .next (s.setGroup (({ g with dropped := 0 }.writeS f.dest.toNat (g.dropped.setWidth 64)).advance 4))

/-! Prefetch. -/

/-- A translation that sets no accessed bit and fills no cache (R296). -/
def peekXlat (s : State) (va : Nat) : Xlat :=
  match walk s va with
  | .leaf e _ level =>
    let size := pageSize level
    leafAnswer s e (va / size * size) size va false
  | _ => .waiting

/-- PREF (R296): a fill of a line of L2, or of L1 too; dropped in every other case. -/
def execPref (f : SM) (s : State) : Result State :=
  scalarInstr [f.base.toNat] s fun g =>
    let s' := s.setGroup (g.advance 4)
    match peekXlat s (smAddr g f) with
    | .ok pa leaf =>
      if leafClass leaf == 2 || leafHome leaf == 3 || leafType leaf != 0 then .next s'
      else if f.data = 1 then
        if l1Cacheable pa leaf then .next (fillL1 (touchLine s' g.die pa leaf false) g.core pa leaf).2 else .next s'
      else .next (dieLine (touchLine s' g.die pa leaf false) g.die pa leaf).2
    | _ => .next s'

/-! Maintenance. -/

/-- A system-only instruction traps PRIVOP in user mode (R82, R99). -/
def systemInstr (regs : List Nat) (s : State) (body : Group → Result State) : Result State :=
  scalarInstr regs s fun g => if g.priv then body g else trapPriv s

/-- The cached translations of the page that holds an address go, on every die, with the nodes of its walk (R297, R359). -/
def dropPage (s : State) (va : Nat) : State := dropLeaves s (fun t => t.base ≤ va && va < t.base + t.size) (·.covers va)

/-- TLBINV (R297): it follows the page-table writes that precede it, so it waits until the core's side log has drained, and its
completion is an edge to the issuer's later operations (R271). -/
def execTlbinv (f : SR) (s : State) : Result State :=
  systemInstr [f.src1.toNat] s fun g =>
    if !drained s g.core then waitIn s g (.sideLog 0 0)
    else
      let s' := invalidateL1 (s.setGroup (g.advance 4)) g.core
      .next (if f.fn = 1 then dropLeaves s' (fun _ => true) fun _ => true else dropPage s' (g.addr f.src1.toNat))

/-- KEYLD (R298): the slot that KEYSEL names takes the 64 bytes at S[src1], read from local HBM or an SRAM window. -/
def execKeyld (f : SR) (s : State) : Result State :=
  systemInstr [f.src1.toNat] s fun g =>
    let va := g.addr f.src1.toNat
    let slot := g.keysel.toNat
    if slot = 0 then trapIllop s
    else if va % 64 ≠ 0 then trapMem s .align 0 va
    else if sideTouches s g.core va 64 then waitIn s g (.sideLog va 64)
    else if deviceHeld s g none va then .next s
    else scalarAccess s g va 64 .load fun ps s' =>
      if ps.any fun p => 2 ≤ spaceOf p.pa then trapMem s .prot 0 va
      else
        let r := loadPieces s' g.core ps false
        let flight := ((Assoc.find? r.2.keys slot).map (·.flight)).getD 0
        let s' := { r.2 with keys := Assoc.put r.2.keys slot ⟨BitVec.ofNat 512 (Bits.leNat r.1), flight⟩ }
        .next (s'.setGroup (g.advance 4))

/-- KEYDEL (R298): it waits for the transfers in flight under the slot. -/
def execKeydel (_ : SR) (s : State) : Result State :=
  systemInstr [] s fun g =>
    let slot := g.keysel.toNat
    if slot = 0 then trapIllop s
    else match Assoc.find? s.keys slot with
      | some k =>
        if k.flight ≠ 0 then waitIn s g .keyFlight
        else .next ({ s with keys := Assoc.erase s.keys slot }.setGroup (g.advance 4))
      | none => .next (s.setGroup (g.advance 4))

end Sys2Proof.Machine
end

