-- ==== Sys2Proof/Machine/Tiles.lean ====
section
/-! DEFINITION. Tiles of elements: the layouts of R194 and R253, their codes and values (R51, R147), conversion and
requantisation of a whole tile (R53, R200, R341, R350), and the accumulator tiles (R98, R196). -/

namespace Sys2Proof.Machine

open Sys2Proof.Num (XVal)

/-- Bits of an element in memory form (R38, R71); code 9 stands for the byte elements of R339. -/
def elemBits (ty : Nat) : Nat :=
  match ty with
  | 0 => 32
  | 1 | 2 => 16
  | 3 | 4 => 8
  | 5 | 6 => 6
  | 7 | 8 => 4
  | _ => 8

/-- A format has block scales (R193). -/
def isMx (ty : Nat) : Bool := 3 ≤ ty && ty ≤ 8

/-- Bytes of a block's codes: Bb of R253. -/
def blockBytes (ty len : Nat) : Nat := len * elemBits ty / 8

/-- Blocks per group: B of R253. -/
def groupBlocks (ty len : Nat) : Nat :=
  match elemBits ty with
  | 8 => if len = 16 then 120 else 60
  | 6 => if len = 16 then 149 else 80
  | _ => if ty = 8 then (if len = 16 then 192 else 112) else (if len = 16 then 224 else 120)

/-- Trailer lines of a group: t of R253. -/
def trailerLines (ty len : Nat) : Nat :=
  match elemBits ty with
  | 8 => 1
  | 6 => if len = 16 then 2 else 1
  | _ => if ty = 8 then (if len = 16 then 4 else 2) else (if len = 16 then 2 else 1)

/-- The byte offset of a block's codes, of its scale and of its companion in a tensor (R253). -/
def blockPlace (ty len n : Nat) : Nat × Nat × Nat :=
  let b := groupBlocks ty len
  let g := n / b * 2048
  let j := n % b
  let tr := g + (16 - trailerLines ty len) * 128
  (g + j * blockBytes ty len, tr + j, tr + b + j)

/-- The bytes of a tensor of `n` elements in one piece (R194, R253). -/
def tensorBytes (ty len n : Nat) : Nat :=
  if isMx ty then 2048 * Bits.ceilDiv (Bits.ceilDiv n len) (groupBlocks ty len) else n * elemBits ty / 8

/-- Where element (i, j) of a source or destination lies: a byte offset, or for MX an element index; none when it is out
of bounds. -/
structure View where
  ty   : Nat
  len  : Nat
  rows : Nat
  cols : Nat
  at_  : Nat → Nat → Option Nat
  fill : Bool
  /-- the blocks of the tensor, for a format with scales (R253) -/
  blocks : Nat

/-- Bytes per element of a format without scales. -/
def View.bytes (v : View) : Nat := elemBits v.ty / 8

/-- The byte offsets that element (i, j) occupies, its scale and companion among them. -/
def View.touched (v : View) (i j : Nat) : List Nat :=
  match v.at_ i j with
  | none => []
  | some e =>
    if isMx v.ty then
      let (c, sc, co) := blockPlace v.ty v.len (e / v.len)
      let bit := e % v.len * elemBits v.ty
      let first := c + bit / 8
      let last := c + (bit + elemBits v.ty - 1) / 8
      [first, last, sc] ++ if v.ty = 8 then [co] else []
    else [e, e + v.bytes - 1]

/-- A list of the nonzero values of a function on 0 … n − 1, by key. -/
def sparse (n : Nat) (f : Nat → Nat) : List (Nat × Nat) :=
  (List.range n).filterMap fun k => if f k = 0 then none else some (k, f k)

/-- The value at each key 0 … n − 1 of a sorted sparse list. -/
def dense (n k : Nat) (l : List (Nat × Nat)) : List Nat :=
  match n with
  | 0 => []
  | n + 1 =>
    match l with
    | (k', v) :: t => if k' = k then v :: dense n (k + 1) t else 0 :: dense n (k + 1) l
    | [] => 0 :: dense n (k + 1) []

/-- A tile read from bytes: out-of-bounds elements take the fill value (R367). -/
def View.read (v : View) (rd : Nat → Byte) : Tile :=
  let f := (Num.fmtOfCode v.ty).getD .fp32
  let code (k : Nat) : Nat :=
    match v.at_ (k / v.cols) (k % v.cols) with
    | none => if isMx v.ty || !v.fill then 0 else f.canonNan
    | some e =>
      if isMx v.ty then
        let bit := e % v.len * elemBits v.ty
        let c := (blockPlace v.ty v.len (e / v.len)).1 + bit / 8
        Bits.field ((rd c).toNat + 256 * (rd (c + 1)).toNat) (bit % 8) (elemBits v.ty)
      else Bits.leNat ((List.range v.bytes).map fun i => rd (e + i))
  let block (comp : Bool) (b : Nat) : Nat :=
    match v.at_ (b * v.len / v.cols) (b * v.len % v.cols) with
    | none => if comp then 0 else if v.fill then 0xFF else 0
    | some e =>
      let p := blockPlace v.ty v.len (e / v.len)
      (rd (if comp then p.2.2 else p.2.1)).toNat
  let n := v.rows * v.cols
  let nb := if isMx v.ty then n / v.len else 0
  { ty := v.ty
    blk := v.len
    rows := v.rows
    cols := v.cols
    codes := sparse n code
    scales := sparse nb (block false)
    comps := if v.ty = 8 then sparse nb (block true) else [] }

/-- A row-major tensor in one piece: rows of `stride` bytes without scales, or the interleaved layout (R194, R340). -/
def View.linear (ty len rows cols stride : Nat) : View :=
  { ty := ty
    len := len
    rows := rows
    cols := cols
    at_ := fun i j => some (if isMx ty then i * cols + j else i * stride + j * (elemBits ty / 8))
    fill := false
    blocks := rows * cols / len }

namespace Tile

/-- The number of elements. -/
def size (t : Tile) : Nat := t.rows * t.cols

/-- The number of blocks. -/
def blocks (t : Tile) : Nat := if isMx t.ty then t.size / t.blk else 0

/-- Every element's code, row by row. -/
def codeList (t : Tile) : Array Nat := (dense t.size 0 t.codes).toArray

/-- Every element's exact value, row by row (R51, R147). -/
def values (t : Tile) : Array XVal :=
  let f := (Num.fmtOfCode t.ty).getD .fp32
  let cs := dense t.size 0 t.codes
  if isMx t.ty then
    let sc := (dense t.blocks 0 t.scales).toArray
    let co := (dense t.blocks 0 t.comps).toArray
    (cs.zipIdx.map fun p => Num.mxVal t.ty p.1 (sc.getD (p.2 / t.blk) 0) (co.getD (p.2 / t.blk) 0)).toArray
  else (cs.map fun c => Num.decode f c).toArray

/-- The element at row i, column j of a list of values. -/
def pick (t : Tile) (vs : Array XVal) (i j : Nat) : XVal :=
  if i < t.rows ∧ j < t.cols then vs.getD (i * t.cols + j) XVal.zero else XVal.zero

/-- Rows and columns exchanged; the blocks stay those of the source (R197, R350). -/
def transposeCodes (t : Tile) : Tile :=
  let cs := t.codeList
  { t with
    rows := t.cols
    cols := t.rows
    codes := sparse t.size fun k => cs.getD (k % t.rows * t.cols + k / t.rows) 0 }

end Tile

/-- How a conversion rounds: the mode code and the chunk of each element's stream index (R61), .nansat, and R44. -/
structure Rounding where
  mode   : Nat
  seed   : Word
  id     : BitVec 32
  start  : BitVec 32
  nansat : Bool
  ftz    : Bool
  deriving DecidableEq, Repr

/-- The rounding of a sampled operation; mode code 0 is the sampled mode (R43, R339). -/
def Sample.rounding (x : Sample) (mode : Nat) (nansat : Bool) (counter : BitVec 32) : Rounding :=
  ⟨if mode = 0 then rndMode x.rnd else mode, x.seed, x.drawid, counter, nansat, rndFtz x.rnd⟩

/-- Tangent conversions round in RNE, without .nansat and without R44 (R136, R182). -/
def Rounding.tangent (r : Rounding) : Rounding := { r with mode := 1, nansat := false, ftz := false }

/-- The mode of the element with stream index `i`. -/
def Rounding.at_ (r : Rounding) (i : Nat) : Num.RMode :=
  Num.RMode.ofCode r.mode (if r.mode = 6 then Num.chunkAt r.seed r.id r.start i else 0)

/-- The counter values that a conversion of `n` elements takes in stochastic mode (R58). -/
def Rounding.draws (r : Rounding) (n : Nat) : Nat := if r.mode = 6 then Bits.ceilDiv n 8 else 0

/-- The values of a rows × cols tile of a source format converted to a format (R43, R44, R46, R53): blocks along rows for MX. -/
def convertTile (ty len rows cols : Nat) (vs : Array XVal) (src : Option Num.Fmt) (r : Rounding) : Tile :=
  let f := (Num.fmtOfCode ty).getD .fp32
  let n := rows * cols
  let v (k : Nat) : XVal := match src with
    | some g => Num.flushIn g r.ftz (vs.getD k XVal.zero)
    | none => vs.getD k XVal.zero
  if isMx ty then
    let bs := ((List.range (n / len)).map fun b =>
      Num.requantise ((List.range len).map fun j => v (b * len + j)) ty
        ((List.range len).map fun j => r.at_ (b * len + j)) r.nansat).toArray
    let get (b : Nat) : Num.Block := bs.getD b ⟨0, [], 0⟩
    { ty := ty
      blk := len
      rows := rows
      cols := cols
      codes := sparse n fun k => (get (k / len)).codes.getD (k % len) 0
      scales := sparse (n / len) fun b => (get b).scale
      comps := if ty = 8 then sparse (n / len) fun b => (get b).comp else [] }
  else
    { ty := ty
      blk := len
      rows := rows
      cols := cols
      codes := sparse n fun k =>
        Num.roundTo f (r.ftz && f.flushes) (if r.nansat then .nansat else .table) (r.at_ k) (v k)
      scales := []
      comps := [] }

/-- A code of a tile is not finite (R40); E2M1X's 0b1000 stands for its block's companion, an E4M3 code (R35). -/
def Tile.nonFiniteAt (t : Tile) (i code : Nat) : Bool :=
  if t.ty = 8 ∧ code = 8 then Num.nonFinite .e4m3 (Assoc.get 0 t.comps (i / t.blk))
  else Num.nonFinite ((Num.fmtOfCode t.ty).getD .fp32) code

/-- The count of .nf for a written tile: non-finite codes and block scales 0xFF (R40, R200, R341). -/
def Tile.nonFinite (t : Tile) : Nat :=
  (t.codes.filter fun p => t.nonFiniteAt p.1 p.2).length +
    (t.scales.filter fun p => p.2 == 0xFF).length

/-! Bytes of a tile. -/

/-- The code bytes of one block (R253). -/
def packBlock (bits n : Nat) (codes : List Nat) : List Byte :=
  Bits.leBytes n ((codes.zipIdx.foldl (fun a p => a + p.1 % 2 ^ bits * 2 ^ (bits * p.2)) 0))

/-- Zero bytes. -/
def zeros (n : Nat) : List Byte := List.replicate n 0

/-- A tile in the interleaved layout, padding and the blocks beyond the last one as zeros (R253). -/
def Tile.mxBytes (t : Tile) : List Byte :=
  let cs := t.codeList
  let sc := (dense t.blocks 0 t.scales).toArray
  let co := (dense t.blocks 0 t.comps).toArray
  let b := groupBlocks t.ty t.blk
  let bb := blockBytes t.ty t.blk
  let data := (16 - trailerLines t.ty t.blk) * 128
  let group (g : Nat) : List Byte :=
    let ns := (List.range b).map fun j => g * b + j
    let codes := ns.flatMap fun n => packBlock (elemBits t.ty) bb ((List.range t.blk).map fun i => cs.getD (n * t.blk + i) 0)
    let trailer := ns.map (fun n => BitVec.ofNat 8 (sc.getD n 0)) ++
      if t.ty = 8 then ns.map (fun n => BitVec.ofNat 8 (co.getD n 0)) else []
    (codes ++ zeros (data - codes.length)) ++ (trailer ++ zeros (2048 - data - trailer.length))
  (List.range (Bits.ceilDiv t.blocks b)).flatMap group

/-- A tile's codes row by row in memory form, without scales (R194: formats without scales, and the split drain). -/
def Tile.codeBytes (t : Tile) : List Byte :=
  let cs := dense t.size 0 t.codes
  packBlock (elemBits t.ty) (t.size * elemBits t.ty / 8) cs

/-- A tile in its own layout in one piece (R194). -/
def Tile.linearBytes (t : Tile) : List Byte := if isMx t.ty then t.mxBytes else t.codeBytes

/-- Bytes by ascending offset. -/
def fromOffset (o : Nat) (bs : List Byte) : List (Nat × Byte) := bs.zipIdx.map fun p => (o + p.2, p.1)

/-- The bytes that a tile writes through a view: element by element, or block by block with scale and companion; out of
bounds nothing (R367). -/
def View.write (v : View) (t : Tile) : List (Nat × Byte) :=
  let cs := t.codeList
  if isMx v.ty then
    let sc := (dense t.blocks 0 t.scales).toArray
    let co := (dense t.blocks 0 t.comps).toArray
    (List.range t.blocks).flatMap fun b =>
      match v.at_ (b * t.blk / t.cols) (b * t.blk % t.cols) with
      | none => []
      | some e =>
        let p := blockPlace v.ty v.len (e / v.len)
        let codes := packBlock (elemBits v.ty) (blockBytes v.ty v.len)
          ((List.range t.blk).map fun i => cs.getD (b * t.blk + i) 0)
        fromOffset p.1 codes ++ [(p.2.1, BitVec.ofNat 8 (sc.getD b 0))] ++
          if v.ty = 8 then [(p.2.2, BitVec.ofNat 8 (co.getD b 0))] else []
  else
    (List.range t.size).flatMap fun k =>
      match v.at_ (k / t.cols) (k % t.cols) with
      | none => []
      | some e => fromOffset e (Bits.leBytes v.bytes (cs.getD k 0))

/-- The bytes of a group that belong to no block of the tensor: padding, and the blocks beyond the last one (R253). -/
def View.padding (v : View) (g : Nat) : List (Nat × Byte) :=
  let b := groupBlocks v.ty v.len
  let live := min b (v.blocks - g * b)
  let tr := (16 - trailerLines v.ty v.len) * 128
  let used (o : Nat) : Bool :=
    decide (o < live * blockBytes v.ty v.len) || (decide (tr ≤ o) && decide (o < tr + live))
      || (v.ty == 8 && decide (tr + b ≤ o) && decide (o < tr + b + live))
  (List.range 2048).filterMap fun o => if used o then none else some (g * 2048 + o, 0)

/-- What a whole-tile writer leaves in memory: the tile's bytes, and zeros in the padding of the groups that it writes (R253). -/
def View.image (v : View) (t : Tile) : List (Nat × Byte) :=
  if isMx v.ty then
    let groups := ((List.range t.blocks).filterMap fun b =>
      (v.at_ (b * t.blk / t.cols) (b * t.blk % t.cols)).map fun e => e / v.len / groupBlocks v.ty v.len).eraseDups
    v.write t ++ groups.flatMap v.padding
  else v.write t

/-! Accumulator tiles (R98, R196). -/

/-- The first key of a plane of tile Z. -/
def zBase (tile plane : Nat) : Nat := (tile * 5 + plane) * 16384

/-- The codes of a plane of a tile, row by row. -/
def Team.readZ (t : Team) (tile plane : Nat) : List Nat :=
  let b := zBase tile plane
  dense 16384 0 ((t.z.filter fun p => b ≤ p.1 && p.1 < b + 16384).map fun p => (p.1 - b, p.2.toNat))

/-- A plane of a tile takes codes, row by row. -/
def Team.writeZ (t : Team) (tile plane : Nat) (cs : List Nat) : Team :=
  let b := zBase tile plane
  { t with z := (t.z.filter fun p => p.1 < b)
      ++ (cs.zipIdx.filterMap fun p => if p.1 = 0 then none else some (b + p.2, BitVec.ofNat 32 p.1))
      ++ (t.z.filter fun p => b + 16384 ≤ p.1) }

/-- One accumulation step (R54, R196): the exact sum of a step's products, rounded once onto the element, which a sum
of exactly zero leaves as it is. -/
def accumulate (mode : Num.RMode) (old : Nat) (products : List XVal) : Nat :=
  let p := Num.sum false products
  if p.isZero then old else Num.rnd .fp32 mode (Num.add mode.isRdn (Num.decode .fp32 old) p)

/-- The mode of an accumulation: the sampled one, stochastic replaced by RNE (R54). -/
def accMode (rnd : Word) : Num.RMode := Num.RMode.ofCode (if rndMode rnd = 6 then 1 else rndMode rnd) 0

/-- The step length of a product (R52, R54). -/
def stepLength (a b : Tile) : Nat :=
  let la := if isMx a.ty then a.blk else 32
  let lb := if isMx b.ty then b.blk else 32
  if isMx a.ty && isMx b.ty then min la lb else if isMx a.ty then la else if isMx b.ty then lb else 32

/-- An output element after every step of a contraction of length `n`, taken in ascending order (R196). -/
def contract (mode : Num.RMode) (old n len : Nat) (f : Nat → XVal) : Nat :=
  (List.range (Bits.ceilDiv n len)).foldl (fun z j =>
    accumulate mode z ((List.range (min len (n - j * len))).map fun i => f (j * len + i))) old

end Sys2Proof.Machine
end

