-- ==== Sys2Proof/Machine/Shapes.lean ====
section
/-! DEFINITION. Shape records and tile handles (R366 to R369): the record's fields and checks, the resolution of a
handle, sampling through the die's shape cache, and SHPLD and SHPINV (R371 to R373). -/

namespace Sys2Proof.Machine

/-- The fields of a shape record (R366). -/
structure Shape where
  base0     : Nat
  base1     : Nat
  fmt       : Nat
  len       : Nat
  key       : Nat
  bank      : Bool
  b1valid   : Bool
  shadow    : Nat
  acc       : Nat
  promote   : Bool
  counter   : Nat
  threshold : Nat
  n         : Nat
  fill      : Bool
  s         : List Nat
  b         : List Nat
  st        : List Nat
  deriving DecidableEq, Repr

/-- A record's fields from its 64 bytes, with s_d read as 1 for d ≥ n (R366). -/
def Shape.ofBits (r : BitVec 512) : Shape :=
  let x := r.toNat
  let f (lo w : Nat) : Nat := Bits.field x lo w
  { base0 := f 0 56
    base1 := f 64 56
    fmt := f 56 4
    len := if f 60 1 = 1 then 16 else 32
    key := f 120 6
    bank := Bits.bit x 126
    b1valid := Bits.bit x 127
    shadow := f 128 56
    acc := f 184 2
    promote := Bits.bit x 186
    counter := f 192 32
    threshold := f 224 16
    n := f 240 3
    fill := Bits.bit x 243
    s := (List.range 5).map fun d => if d < f 240 3 then f (256 + 20 * d) 20 else 1
    b := (List.range 3).map fun d => f (356 + 12 * d) 12 + 1
    st := 1 :: (List.range 4).map fun d => f (392 + 30 * d) 30 }

/-- The bits that hardware writes: bank, promote and counter (R369). -/
def hotBits : BitVec 512 := BitVec.ofNat 512 (2 ^ 126 + 2 ^ 186 + (2 ^ 32 - 1) * 2 ^ 192)

/-- The lowest failing check of R372, but for the index: 1, 3, 4 or 5; 0 when none fails. -/
def shapeReason (r : BitVec 512) : Nat :=
  let x := r.toNat
  let f (lo w : Nat) : Nat := Bits.field x lo w
  let sh := Shape.ofBits r
  let mx := isMx sh.fmt
  let dims := List.range 5
  let size (d : Nat) : Nat := f (256 + 20 * d) 20
  let stride (d : Nat) : Nat := f (392 + 30 * (d - 1)) 30
  let len := sh.len
  let esize := if mx then 2048 else elemBits sh.fmt / 8
  if f 61 3 ≠ 0 ∨ f 187 5 ≠ 0 ∨ f 244 12 ≠ 0 then 1
  else if 8 < sh.fmt ∨ (f 60 1 = 1 ∧ !mx) ∨ !(if sh.fmt = 1 then sh.acc = 1 ∨ sh.acc = 2 else sh.acc = 0) then 3
  else if sh.n = 0 ∨ 5 < sh.n
      ∨ (dims.any fun d => if d < sh.n then size d = 0 else size d ≠ 0)
      ∨ ((List.range 3).any fun d => sh.n ≤ d && f (356 + 12 * d) 12 != 0)
      ∨ (mx && (size 0 % len != 0 || (f 356 12 + 1) % len != 0)) then 4
  else if sh.base0 % esize ≠ 0 ∨ sh.base1 % esize ≠ 0 ∨ (sh.acc = 2 ∧ sh.shadow % 4096 ≠ 0)
      ∨ ([1, 2, 3, 4].any fun d => if d < sh.n then mx && stride d % len != 0 else stride d != 0) then 5
  else 0

/-- A size, an extent or a stride of a dimension. -/
def Shape.sz (sh : Shape) (d : Nat) : Nat := sh.s.getD d 1
/-- A box extent. -/
def Shape.bx (sh : Shape) (d : Nat) : Nat := sh.b.getD d 1
/-- A stride in elements. -/
def Shape.str (sh : Shape) (d : Nat) : Nat := sh.st.getD d 0
/-- The tile count of dimension d (R367). -/
def Shape.nt (sh : Shape) (d : Nat) : Nat := Bits.ceilDiv (sh.sz d) (sh.bx d)

/-- The record index of a handle and its tile coordinates (R367). -/
def handleIndex (h : Word) : Nat := Bits.field h.toNat 48 16
/-- Coordinate d of a handle. -/
def handleT (h : Word) (d : Nat) : Nat := Bits.field h.toNat (16 * d) 16

/-- The handle's coordinates are legal (R368). -/
def Shape.legal (sh : Shape) (h : Word) : Bool :=
  handleT h 0 < sh.nt 0 && handleT h 1 < sh.nt 1 && handleT h 2 < sh.nt 2 * sh.sz 3 * sh.sz 4

/-- The tile index of a handle's tile (R367). -/
def Shape.tileIndex (sh : Shape) (h : Word) : Nat :=
  handleT h 0 + sh.nt 0 * (handleT h 1 + sh.nt 1 * handleT h 2)

/-- The base that a use selects; `inactive` inverts the bank (R340, R367). -/
def Shape.base (sh : Shape) (inactive : Bool) : Nat := if sh.bank != inactive then sh.base1 else sh.base0

/-- The bank that a use selects exists (R368). -/
def Shape.bankOk (sh : Shape) (inactive : Bool) : Bool := sh.b1valid || !(sh.bank != inactive)

/-- The tensor's element index of box element (i0, i1, i2), or none when it is out of bounds (R367). -/
def Shape.element (sh : Shape) (h : Word) (i0 i1 i2 : Nat) : Option Nat :=
  let t2 := handleT h 2
  let c (d : Nat) : Nat :=
    match d with
    | 0 => handleT h 0 * sh.bx 0 + i0
    | 1 => handleT h 1 * sh.bx 1 + i1
    | 2 => t2 % sh.nt 2 * sh.bx 2 + i2
    | 3 => t2 / sh.nt 2 % sh.sz 3
    | _ => t2 / (sh.nt 2 * sh.sz 3)
  if (List.range 5).all fun d => c d < sh.sz d then
    some ((List.range 5).foldl (fun e d => e + c d * sh.str d) 0)
  else none

/-- The greatest element index of the tensor (R367). -/
def Shape.last (sh : Shape) : Nat := (List.range 5).foldl (fun e d => e + (sh.sz d - 1) * sh.str d) 0

/-- A handle's box: b1 × b2 rows of b0 elements, relative to the base (R367). -/
def Shape.view (sh : Shape) (h : Word) : View :=
  { ty := sh.fmt
    len := sh.len
    rows := sh.bx 1 * sh.bx 2
    cols := sh.bx 0
    at_ := fun i j => (sh.element h j (i % sh.bx 1) (i / sh.bx 1)).map fun e =>
      if isMx sh.fmt then e else e * (elemBits sh.fmt / 8)
    fill := sh.fill
    blocks := Bits.ceilDiv (sh.last + 1) sh.len }

/-- The address of record i of a grid (R366). -/
def shapeAddr (grid : Grid) (i : Nat) : Nat := (grid.record.shapeBase.toNat + 64 * i) % 2 ^ 56

/-- The cached record of a die (R369). -/
def Die.cachedShape (d : Die) (grid i : Nat) : Option (BitVec 512) :=
  (d.shapes.find? fun e => e.grid == grid && e.index == i).map (·.shape)

/-- A record goes from a die's cache. -/
def Die.dropShape (d : Die) (grid i : Nat) : Die :=
  { d with shapes := d.shapes.filter fun e => !(e.grid == grid && e.index == i) }

/-- A record enters a die's cache of 1,024 (R369). -/
def installShape (s : State) (die grid i : Nat) (r : BitVec 512) : State :=
  let d := (s.dieAt die).dropShape grid i
  s.putDie die { d with shapes := ⟨grid, i, r⟩ :: d.shapes.take 1023 }

/-- The pieces of a record read at their home; no older copy of them stays that a later read could find (R263, R369). -/
def readHome (s : State) (die : Nat) (ps : List Piece) : BitVec 512 × State :=
  (BitVec.ofNat 512 (Bits.leNat (ps.flatMap fun p => readBytes s p.pa p.n)),
    ps.foldl (fun s p => dropCopies (touchLine s die p.pa p.leaf false) p.pa p.n) s)

/-- The 64 bytes of a record read at their home (R369, R372), under the faults of R326; a byte that the side log holds is waited
for (R272), and so is a held access to a device page (R270). -/
def readShape (s : State) (g : Group) (i : Nat) (k : BitVec 512 → State → Result State) : Result State :=
  let va := shapeAddr (s.gridAt g.grid) i
  if sideTouches s g.core va 64 then waitIn s g (.sideLog va 64)
  else if deviceHeld s g none va then .next s
  else scalarAccess s g va 64 .load fun ps s =>
    let r := readHome s g.die ps
    k r.1 r.2

/-- A handle's record as an operation samples it: descriptive fields through the die's shape cache, the others at home;
none for an index beyond the table (R368, R369). -/
def sampleShape (s : State) (g : Group) (h : Word) (k : Option (BitVec 512) → State → Result State) : Result State :=
  let i := handleIndex h
  if (s.gridAt g.grid).record.shapes ≤ i then k none s
  else readShape s g i fun r s =>
    match if Config.evicted s.tick 3 i then none else (s.dieAt g.die).cachedShape g.grid i with
    | some c => k (some ((c &&& ~~~hotBits) ||| (r &&& hotBits))) s
    | none => k (some r) (installShape s g.die g.grid i r)

/-- A sampled record is usable by a handle (R368). -/
def shapeUsable (r : Option (BitVec 512)) (h : Word) (inactive : Bool) : Option Shape :=
  match r with
  | none => none
  | some x =>
    let sh := Shape.ofBits x
    if shapeReason x = 0 ∧ sh.legal h ∧ sh.bankOk inactive then some sh else none

/-- SHPLD (R372). -/
def execShpld (f : SR) (s : State) : Result State :=
  scalarInstr [f.dest.toNat, f.src1.toNat] s fun g =>
    let i := handleIndex (g.readS f.src1.toNat)
    let done (s : State) (v : Nat) : Result State :=
      .next (s.setGroup ((g.writeS f.dest.toNat (BitVec.ofNat 64 v)).advance 4))
    if (s.gridAt g.grid).record.shapes ≤ i then done s (2 ^ 63 + 2)
    else readShape s g i fun r s =>
      let reason := shapeReason r
      if reason = 0 then done (installShape s g.die g.grid i r) 0
      else done (s.putDie g.die ((s.dieAt g.die).dropShape g.grid i)) (2 ^ 63 + reason)

/-- SHPINV (R373): it waits until every earlier store of its group has been performed at its home. -/
def execShpinv (f : SR) (s : State) : Result State :=
  scalarInstr [f.src1.toNat] s fun g =>
    if accessesOut s s.cur.key then waitIn s g .waita
    else
      let i := handleIndex (g.readS f.src1.toNat)
      let s' := s.modDies fun d =>
        if f.fn = 1 then { d with shapes := d.shapes.filter fun e => e.grid != g.grid } else d.dropShape g.grid i
      .next (s'.setGroup (g.advance 4))

end Sys2Proof.Machine
end

