-- ==== Sys2Proof/Machine/Traps.lean ====
section
/-! DEFINITION. TRAP, TRET, TRET.abort and ULIRET (R220 to R222, R225). -/

namespace Sys2Proof.Machine

/-- TRAP (R221): it completes, then traps SWTRAP. -/
def execTrap (f : SI) (s : State) : Result State :=
  scalarInstr [] s fun g =>
    .next (takeTrap (s.setGroup (g.advance 4)) .swtrap f.imm.toNat 0 (g.pc.setWidth 64))

/-- What every TRET waits for and checks (R220, R222): handler state, no handler lane program left, and the end of the
handler's own accesses, which the resumed streams follow. -/
def tretInstr (s : State) (body : Group → Result State) : Result State :=
  scalarInstr [] s fun g =>
    if !g.handler then trapPriv s
    else if g.handlerQ ≠ [] ∨ g.hsplit.valid then waitIn s g .handlerLanes
    else if g.scalarOps ≠ [] then .next s
    else body g

/-- TRET (R222). -/
def execTret (_ : SR) (s : State) : Result State := tretInstr s fun _ => .next (returnFromTrap s)

/-- TRET.abort (R222, R231). -/
def execTretAbort (_ : SR) (s : State) : Result State :=
  tretInstr s fun g =>
    .next (abortTeam s g.teamKey g.gid .tretAbort g.trapcause (g.trappc.setWidth 64) g.trapaddr)

/-- ULIRET (R225). -/
def execUliret (_ : SR) (s : State) : Result State :=
  scalarInstr [] s fun g =>
    if g.intState then .next (s.setGroup { g with pc := g.intReturn, intState := false, wait := .none })
    else trapPriv s

end Sys2Proof.Machine
end

