-- ==== Sys2Proof/Machine/Engine.lean ====
section
/-! DEFINITION. What the engines share: sampling at issue (R326), stage rings (R314), the pages and places that an
operand or a destination lies in (R178, R179, R182, R194, R215, R368), and the end of a command with its completion
record (R210, R223, R318, R319). -/

namespace Sys2Proof.Machine

/-- What an operation samples at issue (R43, R58, R132, R174, R326). -/
def sampleOf (s : State) (g : Group) : Sample where
  rnd := g.rnd
  width := g.tanw
  dplane := g.dplane
  dstride := g.dstride
  cring := g.cring
  seed := g.seedOf (s.gridAt g.grid)
  drawid := g.drawid
  counter := g.draws
  pc := g.pc

/-- The planes of a sampled operation, the primal first (R182). -/
def Sample.planes (x : Sample) : List Nat := List.range (x.width + 1)

/-- TAddr of R178 with the sampled DPLANE and DSTRIDE. -/
def Sample.planeAddr (x : Sample) (va k : Nat) : Nat :=
  if k = 0 then va % 2 ^ 56 else (va + x.dplane.toNat + (k - 1) * x.dstride.toNat) % 2 ^ 56

/-- The counter values that stochastic rounding of `n` elements takes at issue (R58, R61); mode code 0 is the sampled
mode (R339). -/
def Sample.drawsFor (x : Sample) (mode n : Nat) : Nat :=
  if (if mode = 0 then rndMode x.rnd else mode) = 6 then Bits.ceilDiv n 8 else 0

/-- A group's draw counter rises by `n` (R58). -/
def Group.draw (g : Group) (n : Nat) : Group := { g with draws := g.draws + BitVec.ofNat 32 n }

/-! Stage rings (R314); positions are counted without wrap. -/

/-- The team's ring `r`, if it declared it. -/
def Team.ring (t : Team) (r : Nat) : Option Ring := Assoc.find? t.rings r

/-- A ring of the team changed by `f`. -/
def Team.modRing (t : Team) (r : Nat) (f : Ring → Ring) : Team := { t with rings := Assoc.modify t.rings r f }

/-- A push claims the producer position (R314). -/
def Ring.claimPush (x : Ring) : Ring := { x with p := x.p + 1, pushOut := x.pushOut ++ [x.p] }

/-- A pop claims the consumer position (R314). -/
def Ring.claimPop (x : Ring) : Ring := { x with c := x.c + 1, popOut := x.popOut ++ [x.c] }

/-- The pop at position x has completed. -/
def Ring.popped (x : Ring) (n : Nat) : Bool := n < x.c && !x.popOut.contains n

/-- The push at position x has completed. -/
def Ring.pushed (x : Ring) (n : Nat) : Bool := n < x.p && !x.pushOut.contains n

/-- The turn of the push at a position has come (R314). -/
def Ring.pushTurn (x : Ring) (n : Nat) : Bool := n < x.slots || x.popped (n - x.slots)

/-- The turn of the pop at a position has come (R314). -/
def Ring.popTurn (x : Ring) (n : Nat) : Bool := x.pushed n

/-- A bit of a ring's 16-bit tables takes a value. -/
def putBit (v : BitVec 16) (i : Nat) (b : Bool) : BitVec 16 :=
  let m := BitVec.ofNat 16 (2 ^ i)
  if b then v ||| m else v &&& ~~~m

/-- The push at a position completes: the slot is full, in the claimed phase (R314). -/
def Ring.endPush (x : Ring) (n : Nat) : Ring :=
  { x with
    pushOut := x.pushOut.filter (· != n)
    full := putBit x.full (n % x.slots) true
    phase := putBit x.phase (n % x.slots) (n / x.slots % 2 == 1) }

/-- The pop at a position completes: the slot is empty (R314). -/
def Ring.endPop (x : Ring) (n : Nat) : Ring :=
  { x with popOut := x.popOut.filter (· != n), full := putBit x.full (n % x.slots) false }

/-- Bytes of the slot of a position. -/
def Ring.read (x : Ring) (n o len : Nat) : List Byte := bytesAt x.data (n % x.slots * x.size + o) len

/-- Bytes written to the slot of a position. -/
def Ring.write (x : Ring) (n o : Nat) (bs : List Byte) : Ring :=
  { x with data := setBytes x.data (n % x.slots * x.size + o) bs }

/-- The turn of a claimed pop, or of a claimed push, has come; a command without a claim does not wait. -/
def Team.turn (t : Team) (push : Bool) (r : Nat) (claim : Option Nat) : Bool :=
  match claim, t.ring r with
  | some n, some x => if push then x.pushTurn n else x.popTurn n
  | _, _ => true

/-- A ring claim of an accepted command (R314): the position that it takes. -/
def Team.claim (t : Team) (push : Bool) (r : Nat) : Option Nat × Team :=
  match t.ring r with
  | none => (none, t)
  | some x => if push then (some x.p, t.modRing r Ring.claimPush) else (some x.c, t.modRing r Ring.claimPop)

/-- The claim of an operand, if it is a ring slot. -/
def Team.claimIf (t : Team) (needed push : Bool) (r : Nat) : Option Nat × Team :=
  if needed then t.claim push r else (none, t)

/-! Pages. -/

/-- A 64 KiB page as an engine reaches it. -/
structure PagePlace where
  page : Nat
  pa   : Nat
  leaf : Word
  deriving DecidableEq, Repr

/-- What translating the pages of an operation answers. -/
inductive Reach where
  | ok (ps : List PagePlace)
  | fault (code : BitVec 16) (va : Nat)
  | service (kind level base size va : Nat)
  | waiting
  | badRoot
  deriving DecidableEq, Repr

/-- The lowest of some addresses in each 64 KiB page that they touch. -/
def onePerPage (l : List Nat) : List Nat :=
  (l.foldl (fun m a => Assoc.put m (a / 65536) (min a ((Assoc.find? m (a / 65536)).getD a))) ([] : List (Nat × Nat))).map (·.2)

/-- The translations of an operation's pages, by one address in each; a nonzero key must be every page's (R368). -/
def reachPages (s : State) (die key : Nat) (write : Bool) (l : List Nat) : Reach × State :=
  match l with
  | [] => (.ok [], s)
  | a :: t =>
    match translate s die a write with
    | (.ok pa leaf, s) =>
      if (key ≠ 0 ∧ leafKey leaf ≠ key) ∨ fabricRefused s (if write then 1 else 0) pa then (.fault 2 a, s)
      else match reachPages s die key write t with
        | (.ok ps, s) => (.ok (⟨a / 65536, pa - a % 65536, leaf⟩ :: ps), s)
        | x => x
    | (.prot, s) => (.fault 2 a, s)
    | (.lost _, s) => (.fault 6 a, s)
    | (.service kind level base size, s) => (.service kind level base size a, s)
    | (.waiting, s) => (.waiting, s)
    | (.badRoot, s) => (.badRoot, s)

/-- The physical address and leaf of a virtual address among reached pages. -/
def reachAddr (ps : List PagePlace) (va : Nat) : Nat × Word :=
  match ps.find? fun p => p.page == va / 65536 with
  | some p => (p.pa + va % 65536, p.leaf)
  | none => (0, 0)

/-- An access of some bytes through reached pages meets a line whose stored tag is reserved (R249). -/
def tagsBad (s : State) (die : Nat) (ps : List PagePlace) (addrs : List Nat) : Bool :=
  addrs.any fun va => badTag s die (reachAddr ps va).1

/-- The translations of an operation's pages, by all its addresses. -/
def reachAll (s : State) (die key : Nat) (write : Bool) (addrs : List Nat) : Reach × State :=
  match reachPages s die key write (onePerPage addrs) with
  | (.ok ps, s) => (if tagsBad s die ps addrs then .badRoot else .ok ps, s)
  | x => x

/-- A byte that an engine reads: the home's, or its die's copy of a host or fabric NC line (R242). -/
def engineByte (s : State) (die : Nat) (ps : List PagePlace) (va : Nat) : Byte :=
  let (pa, leaf) := reachAddr ps va
  if spaceOf pa < 2 ∨ leafClass leaf ≠ 0 then readByte s pa
  else match Assoc.find? (s.dieAt die).ncLines (pa / 128) with
    | some v => if Config.evicted s.tick 1 (pa / 128) then readByte s pa else lineByte v (pa % 128)
    | none => readByte s pa

/-- A byte that an engine writes, at the home and in its die's copy. -/
def engineStore (s : State) (die : Nat) (ps : List PagePlace) (va : Nat) (b : Byte) : State :=
  let (pa, leaf) := reachAddr ps va
  let s := writeByte (touchLine s die pa leaf true) pa b
  let d := s.dieAt die
  match Assoc.find? d.ncLines (pa / 128) with
  | some v => s.putDie die { d with ncLines := Assoc.put d.ncLines (pa / 128) (patchLine v (pa % 128) b) }
  | none => s

/-- The lines that an engine reads are filled into L2 (R252). -/
def touchReads (s : State) (die : Nat) (ps : List PagePlace) (l : List Nat) : State :=
  (l.map (· / 128)).eraseDups.foldl (fun s n =>
    let (pa, leaf) := reachAddr ps (n * 128)
    touchLine s die pa leaf false) s

/-! Places of operands and destinations. -/

/-- Where an operand or a destination lies: at a virtual address, at a scratchpad offset, or in the slot of a ring
position, with images of `bytes` bytes (R179, R182, R194). -/
inductive Place where
  | mem (base : Nat)
  | scratch (off : Nat)
  | slot (r pos bytes : Nat)
  deriving DecidableEq, Repr

/-- The virtual addresses of some offsets in every plane; none outside memory. -/
def Place.addrs (p : Place) (x : Sample) (offs : List Nat) : List Nat :=
  match p with
  | .mem base => x.planes.flatMap fun k => offs.map fun o => x.planeAddr (base + o) k
  | _ => []

/-- Byte `o` of plane `k` of a place. -/
def Place.byte (p : Place) (s : State) (t : Team) (ps : List PagePlace) (x : Sample) (k o : Nat) : Byte :=
  match p with
  | .mem base => engineByte s (dieOfCore t.core) ps (x.planeAddr (base + o) k)
  | .scratch off => Assoc.get 0 t.scratch (off + k * t.w + o)
  | .slot r pos bytes =>
    match t.ring r with
    | some ring => (ring.read pos (k * bytes + o) 1).headD 0
    | none => 0

/-- The offset-table entries of the compressed tiles that a scratchpad write touched (R247, R375); an entry stands under
its plane and its tile. -/
def Team.recompress (t : Team) (k o n : Nat) : Team :=
  let tiles := t.regions.flatMap fun r =>
    ((List.range r.2).map (r.1 + ·)).filter fun i => overlap o n (i * 4096) 4096
  { t with offsets := tiles.foldl (fun l i =>
      Assoc.put l (k * 2 ^ 20 + i) (Compress.tileEntry (t.readScratch (k * t.w + i * 4096) 4096))) t.offsets }

/-- Bytes written to plane `k` of a place, by offset. -/
def Place.store (p : Place) (s : State) (tk : Nat) (ps : List PagePlace) (x : Sample) (k : Nat) (bs : List (Nat × Byte)) :
    State :=
  match p with
  | .mem base =>
    bs.foldl (fun s b => engineStore s (dieOfCore (s.teamAt tk).core) ps (x.planeAddr (base + b.1) k) b.2) s
  | .scratch off => s.modTeam tk fun t =>
    let t := { t with scratch := bs.foldl (fun l b => Assoc.set 0 l (off + k * t.w + b.1) b.2) t.scratch }
    match bs with
    | [] => t
    | b :: _ =>
      let lo := bs.foldl (fun m c => min m c.1) b.1
      let hi := bs.foldl (fun m c => max m c.1) b.1
      t.recompress k (off + lo) (hi + 1 - lo)
  | .slot r pos bytes => s.modTeam tk fun t => t.modRing r fun ring =>
    { ring with data := bs.foldl (fun l b => Assoc.set 0 l (pos % ring.slots * ring.size + k * bytes + b.1) b.2) ring.data }

/-- An erring command leaves any subset of the bytes that it was writing (R210, R344): each byte whose page can be reached stays,
or takes its new value, as a free bit says. The number counts the bytes taken. -/
def spoil (s : State) (p : Place) (tk : Nat) (ps : List PagePlace) (x : Sample) (images : List (List (Nat × Byte))) :
    Nat × State :=
  images.zipIdx.foldl (fun a y => y.1.foldl (fun a b =>
    let reached := match p with
      | .mem base => ps.any fun q => q.page == x.planeAddr (base + b.1) y.2 / 65536
      | _ => true
    let s' := { a.2 with free := a.2.free + 1 }
    if reached && (Config.freeByte a.2.free).getLsbD 0 then (a.1 + 1, p.store s' tk ps x y.2 [b]) else (a.1, s')) a) (0, s)

/-- The pages that an erring access can reach, each tried by itself: its chunks are unordered, so a refused page leaves no other
untried (R257, R344). -/
def reachEach (s : State) (die key : Nat) (write : Bool) (addrs : List Nat) : List PagePlace :=
  (onePerPage addrs).flatMap fun a => match (reachAll s die key write [a]).1 with
    | .ok ps => ps
    | _ => []

/-- The bytes that two readings of an operand agree on: those that no unreached source byte bears on (R344). -/
def sureImages (a b : List (List (Nat × Byte))) : List (List (Nat × Byte)) :=
  List.zipWith (fun x y => (x.zip y).filterMap fun p => if p.1 = p.2 then some p.1 else none) a b

/-- The byte offsets that a view's elements occupy. -/
def View.offsets (v : View) : List Nat :=
  (List.range v.rows).flatMap fun i => (List.range v.cols).flatMap fun j => v.touched i j

/-- A byte that another agent may be writing while an engine reads it (R209): the older or the newer value, one choice for each
16 B chunk of the address space that it lies in. -/
def raced (free addr : Nat) (old new : Byte) : Byte :=
  if old = new || (Config.freeByte (free + addr / 16)).getLsbD 0 then new else old

/-- Bytes at some addresses as they stand, where their pages can be seen (R209). -/
def bytesNow (s : State) (addrs : List Nat) : List (Nat × Byte) :=
  addrs.filterMap fun va => match peekXlat s va with
    | .ok pa _ => some (va, readByte s pa)
    | _ => none

/-- The free values that the chunks of one operand take. -/
def chunkCount : Nat := 2 ^ 52

/-- The tiles of an operand, one per plane (R182, R184). -/
def Place.tiles (p : Place) (s : State) (t : Team) (ps : List PagePlace) (x : Sample) (v : View) : List Tile :=
  x.planes.map fun k => v.read (p.byte s t ps x k)

/-- The same where some pages could not be reached, their bytes read as `fill`. -/
def Place.tilesOr (p : Place) (s : State) (t : Team) (ps : List PagePlace) (x : Sample) (v : View) (fill : Byte) : List Tile :=
  x.planes.map fun k => v.read fun o =>
    let reached := match p with
      | .mem base => ps.any fun q => q.page == x.planeAddr (base + o) k / 65536
      | _ => true
    if reached then p.byte s t ps x k o else fill

/-! The life of a command. -/

/-- A command waits for page service at an address (R215, R316). -/
def Life.hold (l : Life) (va : Nat) (ring : Bool) : Life := { l with wait := some va, ring := ring }

/-- A command waits for page service of its completion ring, with the record number that it has taken (R318). -/
def Life.holdRing (l : Life) (va : Nat) (number : Option Nat) : Life := { l.hold va true with number := number }

/-- A command will end with a fault. -/
def Life.fail (l : Life) (code : BitVec 16) (va : Nat) : Life := { l with fault := code, addr := va }

/-- An engine's access of some pages: `hold` when one needs service, `fail` when one refuses, else the rest with their
places. -/
def withPages (s : State) (tk : Nat) (g : Group) (key : Nat) (write : Bool) (addrs : List Nat)
    (hold : Nat → State → Result State) (fail : BitVec 16 → Nat → State → Result State)
    (k : List PagePlace → State → Result State) : Result State :=
  let die := dieOfCore (s.teamAt tk).core
  match reachAll s die key write addrs with
  | (.ok ps, s) => k ps s
  | (.fault code va, s) => fail code va s
  | (.service kind level base size va, s) =>
    hold va (askService s die g kind level base size (faultDetail write false false true))
  | (.waiting, s) => .next s
  | (.badRoot, s) => .next (machineCheckTeam s tk g)

/-! Completion records (R318, R319). -/

/-- The size exponent of a completion ring (R99). -/
def ringLg (cring : Word) : Nat := Bits.field cring.toNat 0 4

/-- The base of a completion ring. -/
def ringBase (cring : Word) : Nat := Bits.field cring.toNat 9 47 * 512

/-- What a record says. -/
structure RecordBody where
  tag    : Nat
  bytes  : Nat
  fault  : BitVec 16
  kind   : Nat
  error  : Bool
  notify : Bool
  deriving DecidableEq, Repr

/-- The 32 bytes of record number `q` of a ring (R319). -/
def RecordBody.image (b : RecordBody) (lg q : Nat) : List Byte :=
  let status := (1 - q / 2 ^ lg % 2) + (if b.error then 2 else 0) + (if b.notify then 4 else 0)
  let body := Bits.leBytes 8 b.tag ++ Bits.leBytes 8 b.bytes ++ Bits.leBytes 4 q ++ Bits.leBytes 2 b.fault.toNat ++
    Bits.leBytes 1 b.kind ++ Bits.leBytes 1 status ++ Bits.leBytes 4 0
  body ++ Bits.leBytes 4 (Crypto.crc32c body).toNat

/-- A page that a completion ring may lie in (R318). -/
def ringPageOk (leaf : Word) : Bool := leafClass leaf != 0 && leafType leaf == 0

/-- A record page's access: service is waited for, and a page that refuses or is of another class leaves the completion
without a record (R318). -/
def ringAccess (s : State) (g : Group) (va : Nat) (hold : Nat → State → Result State) (none_ : State → Result State)
    (k : Nat → Word → State → Result State) : Result State :=
  match translate s g.die va true with
  | (.ok pa leaf, s) => if ringPageOk leaf && !fabricRefused s 1 pa then k pa leaf s else none_ s
  | (.service kind level base size, s) =>
    hold va (askService s g.die g kind level base size (faultDetail true false false true))
  | (.waiting, s) => .next s
  | (_, s) => none_ s

/-- The completion writer takes its number from the header's count, which rises by one; a number once taken stays the
operation's while its record's page is waited for (R318 step 2). -/
def takeNumber (s : State) (g : Group) (base : Nat) (number : Option Nat) (hold : Nat → Option Nat → State → Result State)
    (none_ : State → Result State) (k : Nat → State → Result State) : Result State :=
  match number with
  | some q => k q s
  | none => ringAccess s g ((base + 2 ^ 56 - 32) % 2 ^ 56) (hold · none) none_ fun head leaf s =>
    let q := readNat s head 8
    k q (homeWrite s g.die head leaf (Bits.leBytes 8 ((q + 1) % 2 ^ 64)))

/-- The completion writer (R318): the count, then the record, then the rest of the completion. -/
def writeRecord (s : State) (g : Group) (cring : Word) (noRing : Bool) (number : Option Nat) (body : RecordBody)
    (hold : Nat → Option Nat → State → Result State) (k : State → Result State) : Result State :=
  let lg := ringLg cring
  let base := ringBase cring
  if lg = 0 ∨ noRing then k s
  else takeNumber s g base number hold k fun q s =>
    ringAccess s g ((base + 32 * (q % 2 ^ lg)) % 2 ^ 56) (hold · (some q)) k fun at_ leaf s =>
      k (homeWrite s g.die at_ leaf (body.image lg q))

/-- What a command's end does in its group: the flag falls, the frame counts one child less, and the completion is
delivered (R97, R223, R365). -/
def endCommand (s : State) (k : Nat) (flag : Option Nat) (child notify : Bool) (code : BitVec 16) (addr : Nat) : State :=
  let s := s.modGroup k fun g => if child then (g.dropFlag flag).childDone true else g.dropFlag flag
  deliver s k notify code (BitVec.ofNat 64 addr)

/-- A completion record's content for a command of a kind. -/
def recordOf (kind tag : Nat) (life : Life) (notify : Bool) : RecordBody :=
  ⟨tag, life.bytes, life.fault, kind, life.fault != 0, notify⟩

/-! Handles. -/

/-- A sampled record as an engine reads it: its fields. -/
def shapeOf (r : BitVec 512) : Shape := Shape.ofBits r

/-- What holds an engine instruction at issue: its flag's count or its frame's (R97, R332), or a store of its core that has
not been performed, since engine issue is the source of an edge (R271, R272). -/
def engineStall (s : State) (g : Group) (flag : Option Nat) (child : Bool) : Option Wait :=
  if g.flagFull flag then some (.flagLimit (flag.getD 0))
  else if child && 65535 ≤ g.children then some .frameCount
  else if !drained s g.core then some (.sideLog 0 0)
  else none

/-- An accepted engine command of the issuing group: its flag rises, it is a child if it is an engine child, and the
stream moves on (R30, R97, R365). -/
def acceptCommand (s : State) (g : Group) (flag : Option Nat) (child : Bool) : State :=
  let s := if child then s.withFrame g.key else s
  let g := ({ g with frame := (s.groupAt g.key).frame }.raiseFlag flag).advance 4
  s.setGroup (if child then g.addChildren s.cycle.toNat 1 true else g)

end Sys2Proof.Machine
end

