-- ==== Sys2Proof/Machine/Matrix.lean ====
section
/-! DEFINITION. The matrix instructions (R191 to R206): the control word, the checks of R195, and the acceptance of a
command into the engine's queue (R189, R190). What the engine does with a command stands in MatrixRun.lean. -/

namespace Sys2Proof.Machine

/-- A control word's fields (R192). -/
structure Ctl where
  kind     : Nat
  b16      : Bool
  fmt      : Nat
  kind2    : Nat
  b16b     : Bool
  fmt2     : Nat
  rows     : Nat
  za       : Nat
  zb       : Nat
  nf       : Bool
  nansat   : Bool
  clr      : Bool
  split    : Bool
  ring     : Nat
  ring2    : Nat
  qbase    : Nat
  reserved : Bool
  deriving DecidableEq, Repr

/-- The fields of a control word (R192). -/
def Ctl.ofWord (w : Word) : Ctl :=
  let f (lo n : Nat) : Nat := Bits.field w.toNat lo n
  { kind := f 0 3
    b16 := f 3 1 == 1
    fmt := f 4 4
    kind2 := f 8 3
    b16b := f 11 1 == 1
    fmt2 := f 12 4
    rows := f 16 8
    za := f 32 2
    zb := f 34 2
    nf := f 36 1 == 1
    nansat := f 37 1 == 1
    clr := f 38 1 == 1
    split := f 39 1 == 1
    ring := f 40 4
    ring2 := f 44 4
    qbase := f 55 9
    reserved := f 24 8 != 0 || f 48 7 != 0 }

/-- A block length from a b16 bit (R193). -/
def blockLen (b16 : Bool) : Nat := if b16 then 16 else 32

/-- M of R198. -/
def Ctl.m (c : Ctl) : Nat := c.rows + 1

/-- The second operand's fields are all zero. -/
def Ctl.noSecond (c : Ctl) : Bool := c.kind2 == 0 && !c.b16b && c.fmt2 == 0 && c.ring2 == 0

/-- The drain's fields are all zero. -/
def Ctl.noDrain (c : Ctl) : Bool := !c.nf && !c.nansat && !c.clr && !c.split && c.qbase == 0

/-- The format code of a handle's record fits a product (R197, R198). -/
def productFmt (ty : Nat) : Bool := 1 ≤ ty && ty ≤ 8

/-- Bytes of an operand of `rows` rows of `cols` elements (R194). -/
def operandBytes (ty len rows cols : Nat) (split : Bool) : Nat :=
  if split then rows * cols * elemBits ty / 8 else tensorBytes ty len (rows * cols)

/-- An operand or a destination as a control word names it. -/
structure OperandSpec where
  kinds  : List Nat
  kind   : Nat
  fmts   : List Nat
  fmt    : Nat
  b16    : Bool
  ring   : Nat
  reg    : BitVec 6
  value  : Word
  rows   : Nat
  cols   : Nat
  split  : Bool
  /-- the record's box fits; a matrix command takes boxes of two dimensions (R367) -/
  boxOk  : Shape → Bool

/-- Bytes of one image of an operand. -/
def OperandSpec.bytes (o : OperandSpec) : Nat := operandBytes o.fmt (blockLen o.b16) o.rows o.cols o.split

/-- The reasons of R195 that an operand gives, its sampled record included. -/
def OperandSpec.reasons (o : OperandSpec) (t : Team) (shape : Option Shape) : List Nat :=
  let align := if isMx o.fmt && !o.split then 2048 else 256
  let small : Bool := match t.ring o.ring with
    | some r => decide (r.size < t.planes * o.bytes)
    | none => true
  (if o.ring ≠ 0 ∧ o.kind ≠ 1 then [1] else [])
  ++ (if !o.kinds.contains o.kind || ((o.kind == 1 || o.kind == 3) && o.reg != 0) then [2] else [])
  ++ (if !(if o.kind = 2 then [0] else o.fmts).contains o.fmt || (o.b16 && !isMx o.fmt) then [3] else [])
  ++ (if o.kind = 0 ∧ (2 ^ 32 ≤ o.value.toNat ∨ o.value.toNat % align ≠ 0) then [5] else [])
  ++ (if o.kind = 1 ∧ small then [6] else [])
  ++ (if o.kind = 2 ∧ !(match shape with | some sh => o.boxOk sh | none => false) then [7] else [])

/-- The lowest offset of a scratchpad operand beyond the team's scratchpad (R195 step 4). -/
def OperandSpec.beyond (o : OperandSpec) (t : Team) : Option Nat :=
  if o.kind = 0 ∧ t.w < o.value.toNat + o.bytes then some (max o.value.toNat t.w) else none

/-- The outcome of the checks of R195. -/
inductive Checked where
  | pass
  | range (detail : Nat)
  | desc (reason : Nat)
  | scratch (offset : Nat)
  deriving DecidableEq, Repr

/-- The first failing check of R195. -/
def checked (range : List Nat) (reasons : List Nat) (beyond : List Nat) : Checked :=
  match range, reasons, beyond with
  | d :: _, _, _ => .range d
  | [], r :: rs, _ => .desc (rs.foldl min r)
  | [], [], o :: os => .scratch (os.foldl min o)
  | [], [], [] => .pass

/-- A check's trap, or what follows when every check passes. -/
def onChecked (s : State) (c : Checked) (k : Unit → Result State) : Result State :=
  match c with
  | .pass => k ()
  | .range d => trapRange s d
  | .desc r => trapDesc s r
  | .scratch o => trapMem s .sprange 0 o

/-- The tiles of some indices that the team was not granted (R98, R195 step 1). -/
def Team.badTiles (t : Team) (l : List Nat) : List Nat := l.filter fun z => t.tiles ≤ z

/-- A handle operand's record, sampled at issue; nothing is read for another kind (R193, R369). -/
def withRecord (s : State) (g : Group) (needed : Bool) (h : Word) (k : Option (BitVec 512) → State → Result State) :
    Result State :=
  if needed then sampleShape s g h k else k none s

/-- The role check of the matrix instructions (R17). -/
def matrixRole (regs : List Nat) (s : State) (body : Group → Result State) : Result State :=
  scalarInstr regs s fun g => if g.role ≠ .matrix then trapRole s else body g

/-- The operand B of MVNB: the tensor that the handle names (R204). -/
def nearPlace (h : Word) (record : BitVec 512) : Place × View × Nat :=
  let sh := shapeOf record
  (.mem (sh.base false), sh.view h, sh.key)

/-- The bytes of B as they stand when MVNB issues (R209). -/
def nearEarly (s : State) (g : Group) (op : MatrixOp) (h : Word) (record : BitVec 512) : List (Nat × Byte) :=
  let b := nearPlace h record
  if op = .mvnb then bytesNow s (b.1.addrs (sampleOf s g) b.2.1.offsets) else []

/-- A command as it is accepted, before its ring claims. -/
def newCommand (s : State) (g : Group) (t : Team) (op : MatrixOp) (f : SR) (child : Bool) (r1 r2 : Option (BitVec 512)) :
    MatrixCmd where
  id := t.nextOp
  key := g.key
  op := op
  flag := fnFlag f.fn
  ctl := g.readS f.src2.toNat
  src := g.readS f.src1.toNat
  other := g.readS f.dest.toNat
  rec1 := r1.getD 0
  rec2 := r2.getD 0
  claim1 := none
  claim2 := none
  sample := sampleOf s g
  child := child
  loaded := []
  loaded2 := []
  raised := []
  landed := []
  early := t.scratch
  early2 := nearEarly s g op (g.readS f.dest.toNat) (r2.getD 0)
  drains := t.engine.drains.length
  banks := []
  passes := 0
  life := Life.fresh

/-- The engine's acceptance of a command (R189, R190, R191): it waits for room in the queue, for its flag's count and for
its frame's count; then it claims its ring slots, and takes its counter values. -/
def acceptMatrix (s : State) (g : Group) (c : MatrixCmd) (push : Bool) (ring1 ring2 : Option Nat) (draws : Nat)
    (engine : Engine → Engine) : Result State :=
  let tk := g.teamKey
  let t := s.teamAt tk
  if 16 ≤ t.engine.queue.length then waitIn s g .matrixQueue
  else match engineStall s g c.flag c.child with
    | some w => waitIn s g w
    | none =>
      let a := t.claimIf ring1.isSome push (ring1.getD 0)
      let b := a.2.claimIf ring2.isSome false (ring2.getD 0)
      let c := { c with claim1 := a.1, claim2 := b.1 }
      let e := engine b.2.engine
      let t := { b.2 with nextOp := t.nextOp + 1, engine := { e with queue := e.queue ++ [c] } }
      .next (acceptCommand (s.putTeam tk t) (g.draw draws) c.flag c.child)

/-- The operand of MLD (R197). -/
def mldOperand (g : Group) (f : SR) (c : Ctl) : OperandSpec where
  kinds := [0, 1, 2]
  kind := c.kind
  fmts := [1, 2, 3, 4, 5, 6, 7, 8]
  fmt := c.fmt
  b16 := c.b16
  ring := c.ring
  reg := f.src1
  value := g.readS f.src1.toNat
  rows := 128
  cols := 128
  split := false
  boxOk := fun sh => productFmt sh.fmt && sh.bx 0 == 128 && sh.bx 1 == 128 && sh.bx 2 == 1

/-- MLD (R197). -/
def execMld (f : SR) (s : State) : Result State :=
  matrixRole [f.src1.toNat, f.src2.toNat] s fun g =>
    let c := Ctl.ofWord (g.readS f.src2.toNat)
    let o := mldOperand g f c
    withRecord s g (c.kind == 2) o.value fun r s =>
      let t := s.teamAt g.teamKey
      let reasons := (if c.reserved || !c.noSecond || !c.noDrain || c.za != 0 || c.zb != 0 then [1] else [])
        ++ (if c.rows ≠ 127 then [4] else []) ++ o.reasons t (shapeUsable r o.value false)
      onChecked s (checked [] reasons (o.beyond t).toList) fun _ =>
        acceptMatrix s g (newCommand s g t (.mld (f.fn.getLsbD 0)) f (c.kind == 2) r none) false
          (if c.kind = 1 then some c.ring else none) none 0 id

/-- The operand A of MMA, or the operand X of MMA2 (R198, R199). -/
def productOperand (g : Group) (f : SR) (c : Ctl) (kinds : List Nat) : OperandSpec :=
  { mldOperand g f c with
    kinds := kinds
    fmts := if c.kind = 3 then [0] else [1, 2, 3, 4, 5, 6, 7, 8]
    rows := c.m
    boxOk := fun sh => productFmt sh.fmt && sh.bx 0 == 128 && sh.bx 1 == c.m && sh.bx 2 == 1 }

/-- MMA (R198). From the bypass, rows must be 0 and M is the stored row count; rows that are not 0 there are given reason 4
(assumption 65). -/
def execMma (f : SR) (s : State) : Result State :=
  matrixRole [f.src1.toNat, f.src2.toNat] s fun g =>
    let c := Ctl.ofWord (g.readS f.src2.toNat)
    let o := productOperand g f c [0, 1, 2, 3]
    onChecked s (checked ((s.teamAt g.teamKey).badTiles [c.za]) [] []) fun _ => withRecord s g (c.kind == 2) o.value fun r s =>
      let t := s.teamAt g.teamKey
      let e := t.engine
      let m := if c.kind = 3 then e.accRows else c.m
      let reasons := (if c.reserved || !c.noSecond || !c.noDrain || c.zb != 0 then [1] else [])
        ++ (if 128 < c.m ∨ (c.kind = 3 ∧ c.rows ≠ 0) then [4] else []) ++ o.reasons t (shapeUsable r o.value false)
        ++ (if c.kind = 3 ∧ !e.accBypass then [9] else []) ++ (if e.accRed ∧ 64 < m then [11] else [])
      onChecked s (checked [] reasons (o.beyond t).toList) fun _ =>
        acceptMatrix s g (newCommand s g t .mma f (c.kind == 2) r none) false
          (if c.kind = 1 then some c.ring else none) none 0
          fun e => if c.kind = 3 then { e with accBypass := false } else e

/-- The operand W of MMA2 (R199). -/
def secondOperand (g : Group) (f : SR) (c : Ctl) : OperandSpec :=
  { mldOperand g f c with
    kind := c.kind2
    fmt := c.fmt2
    b16 := c.b16b
    ring := c.ring2
    reg := f.dest
    value := g.readS f.dest.toNat }

/-- MMA2 (R199); X claims its slot before W (R315). -/
def execMma2 (f : SR) (s : State) : Result State :=
  matrixRole [f.dest.toNat, f.src1.toNat, f.src2.toNat] s fun g =>
    let c := Ctl.ofWord (g.readS f.src2.toNat)
    let x := productOperand g f c [0, 1, 2]
    let w := secondOperand g f c
    onChecked s (checked ((s.teamAt g.teamKey).badTiles [c.za, c.zb]) [] []) fun _ =>
     withRecord s g (c.kind == 2) x.value fun r1 s =>
      withRecord s g (c.kind2 == 2) w.value fun r2 s =>
        let t := s.teamAt g.teamKey
        let reasons := (if c.reserved || !c.noDrain then [1] else []) ++ (if 128 < c.m then [4] else [])
          ++ x.reasons t (shapeUsable r1 x.value false) ++ w.reasons t (shapeUsable r2 w.value false)
          ++ (if c.za = c.zb then [8] else []) ++ (if t.engine.accRed then [11] else [])
        onChecked s (checked [] reasons ((x.beyond t).toList ++ (w.beyond t).toList)) fun _ =>
          acceptMatrix s g (newCommand s g t .mma2 f (c.kind == 2 || c.kind2 == 2) r1 r2) false
            (if c.kind = 1 then some c.ring else none) (if c.kind2 = 1 then some c.ring2 else none) 0 id

/-- The destination of MDRAIN (R200). -/
def drainDest (g : Group) (f : SR) (c : Ctl) : OperandSpec :=
  { mldOperand g f c with
    kinds := [0, 1, 2, 3]
    fmts := if c.kind = 3 then [1, 3, 4, 5, 6, 7, 8] else [0, 1, 2, 3, 4, 5, 6, 7, 8]
    rows := c.m
    split := c.split && c.kind == 0 && isMx c.fmt
    boxOk := fun sh => sh.bx 0 == 128 && sh.bx 1 == c.m && sh.bx 2 == 1 }

/-- The number of Q registers of a split drain (R200). -/
def drainRegs (c : Ctl) : Nat := Bits.ceilDiv (128 * c.m / blockLen c.b16) 16

/-- MDRAIN (R200): the conditional fields of its table, the Q registers of a split drain, and the counter values. -/
def execMdrain (f : SR) (s : State) : Result State :=
  matrixRole [f.src1.toNat, f.src2.toNat] s fun g =>
    let c := Ctl.ofWord (g.readS f.src2.toNat)
    let o := drainDest g f c
    let range := (s.teamAt g.teamKey).badTiles [c.za]
      ++ if o.split ∧ g.alloc < c.qbase + drainRegs c then [max c.qbase g.alloc] else []
    onChecked s (checked range [] []) fun _ => withRecord s g (c.kind == 2) o.value fun r s =>
      let t := s.teamAt g.teamKey
      let e := t.engine
      let sh := shapeUsable r o.value false
      let ty := if c.kind = 2 then (sh.map (·.fmt)).getD 0 else c.fmt
      let nsOk := if c.kind = 2 then (match sh with | some h => isMx h.fmt | none => true) else isMx c.fmt
      let reasons := (if c.reserved || !c.noSecond || c.zb != 0 || (c.split && !o.split)
            || (c.qbase != 0 && !(c.kind == 0 && isMx c.fmt))
            || (c.nansat && !nsOk) then [1] else [])
        ++ (if 128 < c.m then [4] else []) ++ o.reasons t sh
        ++ (if c.kind = 3 ∧ e.accBypass then [10] else []) ++ (if e.accRed ∧ 64 < c.m then [11] else [])
      onChecked s (checked [] reasons (o.beyond t).toList) fun _ =>
        let x := sampleOf s g
        acceptMatrix s g (newCommand s g t .mdrain f (c.kind == 2) r none) true
          (if c.kind = 1 then some c.ring else none) none (if ty = 0 then 0 else x.drawsFor 0 (128 * c.m))
          fun e => if c.kind = 3 then { e with accBypass := true, accRows := c.m } else e

/-- MZERO (R202). -/
def execMzero (f : SR) (s : State) : Result State :=
  matrixRole [] s fun g =>
    let t := s.teamAt g.teamKey
    let all := f.fn.getLsbD 2
    let tile := f.fn.toNat % 4
    onChecked s (checked (if all then [] else t.badTiles [tile]) [] []) fun _ =>
      acceptMatrix s g (newCommand s g t (.mzero all tile) f false none none) false none none 0 id

/-- MMODE (R203). -/
def execMmode (f : SR) (s : State) : Result State :=
  matrixRole [] s fun g =>
    let t := s.teamAt g.teamKey
    let red := f.fn.getLsbD 0
    acceptMatrix s g (newCommand s g t (.mmode red) f false none none) false none none 0 fun e => { e with accRed := red }

/-- The operand A of MVNB: M rows of K elements, K the extent of B along k (R204). -/
def nearOperand (g : Group) (f : SR) (c : Ctl) (k : Nat) : OperandSpec :=
  { mldOperand g f c with
    kinds := [0, 1]
    fmts := [0, 1]
    rows := c.m
    cols := k
    boxOk := fun _ => true }

/-- A record fits B of MVNB (R204): MX, blocks along k, which is the record's first dimension; K × N elements. -/
def nearBox (sh : Shape) : Bool :=
  isMx sh.fmt && sh.bx 0 % 32 == 0 && sh.bx 0 ≤ 4096 && sh.bx 1 ≤ 128 && sh.bx 2 == 1

/-- MVNB (R204). -/
def execMvnb (f : SR) (s : State) : Result State :=
  matrixRole [f.dest.toNat, f.src1.toNat, f.src2.toNat] s fun g =>
    let c := Ctl.ofWord (g.readS f.src2.toNat)
    let h := g.readS f.dest.toNat
    onChecked s (checked ((s.teamAt g.teamKey).badTiles [c.za]) [] []) fun _ => sampleShape s g h fun r s =>
      let t := s.teamAt g.teamKey
      let sh := shapeUsable r h false
      let fits := match sh with
        | some x => nearBox x
        | none => false
      let o := nearOperand g f c ((sh.map (·.bx 0)).getD 0)
      let reasons := (if c.reserved || !c.noSecond || !c.noDrain || c.zb != 0 then [1] else [])
        ++ (if 7 < c.rows then [4] else []) ++ o.reasons t none ++ (if fits then [] else [7])
        ++ (if t.engine.accRed then [11] else [])
      onChecked s (checked [] reasons (o.beyond t).toList) fun _ =>
        acceptMatrix s g (newCommand s g t .mvnb f true none r) false
          (if c.kind = 1 then some c.ring else none) none 0 id

/-- MSYNC (R206): every matrix command of the group has completed. -/
def execMsync (_ : SR) (s : State) : Result State :=
  matrixRole [] s fun g =>
    if (s.teamAt g.teamKey).engine.queue.any fun c => c.key == g.key then waitIn s g .msync
    else .next (observeClear (s.setGroup (g.advance 4)))

end Sys2Proof.Machine
end

