-- ==== Sys2Proof/Machine/MatrixRun.lean ====
section
/-! DEFINITION. The matrix engine at work: the passes of the command at the head of its queue (R184, R189, R196 to R205)
and the end of a command (R200, R201, R207, R210). -/

namespace Sys2Proof.Machine

open Sys2Proof.Num (XVal)

/-- The passes of a command (R184): a product makes 2T + 1, every other command one. -/
def MatrixCmd.total (c : MatrixCmd) : Nat :=
  match c.op with
  | .mma | .mma2 | .mvnb => 2 * c.sample.width + 1
  | _ => 1

/-- A command's control word. -/
def MatrixCmd.word (c : MatrixCmd) : Ctl := Ctl.ofWord c.ctl

/-- The head of the engine's queue becomes `c`. -/
def Team.setHead (t : Team) (c : MatrixCmd) : Team :=
  { t with engine := { t.engine with queue := c :: t.engine.queue.drop 1 } }

/-- The same in the state, for the team with key `tk`. -/
def State.setHead (s : State) (tk : Nat) (c : MatrixCmd) : State := s.modTeam tk (·.setHead c)

/-- The place of an operand of `rows` × `cols` elements: scratchpad, slot of the claimed position, or the handle's tensor
(R193). -/
def operandPlace (kind ring : Nat) (claim : Option Nat) (value : Word) (bytes : Nat) (record : BitVec 512) : Place :=
  match kind with
  | 0 => .scratch value.toNat
  | 1 => .slot ring (claim.getD 0) bytes
  | _ => .mem ((shapeOf record).base false)

/-- The layout of an operand: its own in the scratchpad or a slot, the record's through a handle (R194, R367). -/
def operandView (kind fmt : Nat) (b16 : Bool) (value : Word) (rows cols : Nat) (record : BitVec 512) : View :=
  if kind = 2 then (shapeOf record).view value
  else View.linear fmt (blockLen b16) rows cols (cols * elemBits fmt / 8)

/-- The first operand of a command: its place, its view and its record's key. -/
def MatrixCmd.first (c : MatrixCmd) (rows cols : Nat) : Place × View × Nat :=
  let w := c.word
  (operandPlace w.kind w.ring c.claim1 c.src (operandBytes w.fmt (blockLen w.b16) rows cols false) c.rec1,
    operandView w.kind w.fmt w.b16 c.src rows cols c.rec1, if w.kind = 2 then (shapeOf c.rec1).key else 0)

/-- The second operand of MMA2. -/
def MatrixCmd.second (c : MatrixCmd) : Place × View × Nat :=
  let w := c.word
  (operandPlace w.kind2 w.ring2 c.claim2 c.other (operandBytes w.fmt2 (blockLen w.b16b) 128 128 false) c.rec2,
    operandView w.kind2 w.fmt2 w.b16b c.other 128 128 c.rec2, if w.kind2 = 2 then (shapeOf c.rec2).key else 0)

/-- The head command's slots are available (R189, R200). -/
def MatrixCmd.available (c : MatrixCmd) (t : Team) : Bool :=
  t.turn (c.op == .mdrain) c.word.ring c.claim1 && t.turn false c.word.ring2 c.claim2

/-- The transfers that a command makes through tile handles (R208, R316): its operands, or a drain's write once it has read its
rows. -/
def MatrixCmd.transfers (c : MatrixCmd) : List Nat :=
  let w := c.word
  match c.op with
  | .mld _ | .mma => if w.kind = 2 then [0] else []
  | .mma2 => (if w.kind = 2 then [0] else []) ++ if w.kind2 = 2 then [1] else []
  | .mdrain => if w.kind = 2 ∧ c.loaded ≠ [] then [2] else []
  | _ => []

/-- Every transfer of a command has ended. -/
def MatrixCmd.settled (c : MatrixCmd) : Bool := c.transfers.all c.landed.contains

/-- The engine of a placed team has a pass to start: its head command waits for no page, has met no fault, has passes left and
its handles' operands, and finds its slots. -/
def passReady (t : Team) : Bool :=
  match t.engine.queue with
  | c :: _ => t.placed && c.life.wait.isNone && c.life.fault == 0 && decide (c.passes < c.total)
      && (c.passes != 0 || (c.available t && c.settled))
  | [] => false

/-- A trap to a matrix-role group of the team waits to be delivered, and the engine starts no pass until it is (R211). A
PREEMPT that no handler takes is delivered at once, at whatever boundary the group stands (R217). -/
def enginePaused (s : State) (tk : Nat) : Bool :=
  (s.teamGroups tk).any fun p =>
    p.2.role == .matrix && p.2.status == .running && p.2.boundaryPending
      && ((s.gridAt p.2.grid).record.trapVec != 0 || !p.2.mismatch.isEmpty || p.2.xfererr.isSome)

/-- A command's claimed pops, and its claimed push, complete: the slots are freed, or filled (R197, R198, R200). -/
def Team.endClaims (t : Team) (c : MatrixCmd) : Team :=
  let finish (t : Team) (push : Bool) (r : Nat) (claim : Option Nat) : Team :=
    match claim with
    | none => t
    | some n => t.modRing r fun x => if push then x.endPush n else x.endPop n
  finish (finish t (c.op == .mdrain) c.word.ring c.claim1) false c.word.ring2 c.claim2

/-- A scratchpad byte as a command reads it (R209): as it stood at issue or stands now, but as it stands now where a drain of the
engine has written it since. -/
def MatrixCmd.scratchByte (c : MatrixCmd) (t : Team) (free a : Nat) : Byte :=
  let new := Assoc.get 0 t.scratch a
  if (t.engine.drains.drop c.drains).any fun r => r.1 ≤ a && a < r.1 + r.2 then new
  else raced free a (Assoc.get 0 c.early a) new

/-- An operand of the head command, plane by plane (R182, R209): read from the scratchpad or its slot, or brought by its
transfer. -/
def takeOperand (s : State) (tk : Nat) (c : MatrixCmd) (o : Place × View × Nat) (brought : List Tile) : List Tile × State :=
  let t := s.teamAt tk
  match o.1 with
  | .mem _ => (brought, s)
  | .scratch off => (c.sample.planes.map fun k => o.2.1.read fun b => c.scratchByte t s.free (off + k * t.w + b),
      { s with free := s.free + chunkCount })
  | .slot .. => (o.1.tiles s t [] c.sample o.2.1, s)

/-- An operand in memory, plane by plane, each 16 B chunk as it stood at first or as it stands now (R209). -/
def racedTiles (s : State) (die : Nat) (ps : List PagePlace) (x : Sample) (early : List (Nat × Byte)) (o : Place × View × Nat) :
    List Tile × State :=
  (x.planes.map fun k => o.2.1.read fun b =>
    let va := match o.1 with
      | .mem base => x.planeAddr (base + b) k
      | _ => 0
    let new := engineByte s die ps va
    raced s.free va ((Assoc.find? early va).getD new) new, { s with free := s.free + chunkCount })

/-- A tile of a list, one per plane. -/
def tileOf (l : List Tile) (k : Nat) : Tile := l.getD k ⟨1, 32, 0, 0, [], [], []⟩

/-- Which plane of each operand a pass multiplies, and into which plane (R184): A's, S's, Z's. -/
def passPlanes (p : Nat) : Nat × Nat × Nat :=
  if p = 0 then (0, 0, 0) else if p % 2 = 1 then ((p + 1) / 2, 0, (p + 1) / 2) else (0, p / 2, p / 2)

/-- The rounding of a pass: the sampled mode in pass 0, RNE in a tangent pass (R184, R196). -/
def passMode (x : Sample) (p : Nat) : Num.RMode := if p = 0 then accMode x.rnd else .rne

/-- Z[m][n] += Σ A[m][k] × B[k][n] over a tile's rows below `rows` and columns below `cols` (R196). -/
def addProduct (t : Team) (tile plane : Nat) (mode : Num.RMode) (rows cols depth len : Nat) (a b : Nat → Nat → XVal)
    (double : Bool) : Team :=
  let z := (t.readZ tile plane).toArray
  let sum (m n : Nat) : Nat := contract mode (z.getD (m * 128 + n) 0) depth len fun k => (a m k).mul (b k n)
  t.writeZ tile plane ((List.range 16384).map fun i =>
    let m := i / 128
    let n := i % 128
    let src := if double && 64 ≤ m then m - 64 else m
    if src < rows && n < cols then
      (if double then contract mode (z.getD i 0) depth len fun k => (a src k).mul (b k n) else sum m n)
    else z.getD i 0)

/-- S[k][n] in the orientation that MLD gave it (R197). -/
def stationary (e : Engine) (plane : Nat) : Tile × (Nat → Nat → XVal) :=
  let t := tileOf e.stat plane
  let vs := t.values
  (t, fun k n => if e.west then t.pick vs n k else t.pick vs k n)

/-- A pass of MMA (R198, R203). -/
def passMma (t : Team) (c : MatrixCmd) : Team :=
  let (pa, pb, pz) := passPlanes c.passes
  let a := tileOf c.loaded pa
  let vs := a.values
  let (st, sv) := stationary t.engine pb
  addProduct t c.word.za pz (passMode c.sample c.passes) a.rows 128 128 (stepLength a st) (a.pick vs) sv t.engine.redundant

/-- A pass of MMA2 (R199): both products. -/
def passMma2 (t : Team) (c : MatrixCmd) : Team :=
  let (pa, pb, pz) := passPlanes c.passes
  let w := c.word
  let x := tileOf c.loaded pa
  let y := tileOf c.loaded2 pa
  let xv := x.values
  let yv := y.values
  let (st, gv) := stationary t.engine pb
  let mode := passMode c.sample c.passes
  let t := addProduct t w.za pz mode 128 128 w.m (stepLength x st) (fun k m => x.pick xv m k) gv false
  addProduct t w.zb pz mode 128 w.m 128 (stepLength y st) (y.pick yv) (fun n m => gv m n) false

/-- An output element of MVNB (R205): a partial sum for each near-bank index in ascending order, each from +0. -/
def nearSum (mode : Num.RMode) (old len : Nat) (banks : List Nat) (f : Nat → XVal) : Nat :=
  let qs := (banks.foldl (fun m q => Assoc.put m q ()) []).map (·.1)
  qs.foldl (fun z q =>
    let p := (banks.zipIdx.filter fun b => b.1 == q).foldl (fun z b =>
      accumulate .rne z ((List.range len).map fun i => f (b.2 * len + i))) 0
    Num.rnd .fp32 mode (Num.add mode.isRdn (Num.decode .fp32 z) (Num.decode .fp32 p))) old

/-- A pass of MVNB (R204, R205). Block b of row n of B, in plane k, has its bank at index (k × N + n) × K/L + b. -/
def passMvnb (t : Team) (c : MatrixCmd) : Team :=
  let (pa, pb, pz) := passPlanes c.passes
  let a := tileOf c.loaded pa
  let b := tileOf c.loaded2 pb
  let av := a.values
  let bv := b.values
  let z := (t.readZ c.word.za pz).toArray
  let per := b.cols / b.blk
  t.writeZ c.word.za pz ((List.range 16384).map fun i =>
    let m := i / 128
    let n := i % 128
    if m < c.word.m && n < b.rows then
      nearSum (passMode c.sample c.passes) (z.getD i 0) b.blk (((c.banks.drop ((pb * b.rows + n) * per)).take per))
        fun k => (a.pick av m k).mul (b.pick bv n k)
    else z.getD i 0)

/-- The near-bank index of each block of B: that of the line that holds the block's first byte (R205); an MXFP6 block
whose bytes lie in two lines goes to the first of them (assumption 83). A block beyond the tensor's bounds, which has no line, counts
as one of bank 0 (assumption 73). -/
def bankList (x : Sample) (base : Nat) (v : View) (ps : List PagePlace) : List Nat :=
  x.planes.flatMap fun k => (List.range v.rows).flatMap fun n => (List.range (v.cols / v.len)).map fun b =>
    match v.at_ n (b * v.len) with
    | none => 0
    | some e => nearBank (reachAddr ps (x.planeAddr (base + (blockPlace v.ty v.len (e / v.len)).1) k)).1

/-- The slices, whichever dies' they are, write back the dirty lines of some addresses (R204). -/
def writeBackAll (s : State) (ps : List PagePlace) (l : List Nat) : State :=
  (l.map (· / 128)).eraseDups.foldl (fun s n =>
    let pa := (reachAddr ps (n * 128)).1
    (List.range 4).foldl (fun s die => writeBackLine s (l2Key die pa)) s) s

/-- The first difference of a redundant drain (R201): the planes in ascending order, then the rows (assumption 84). -/
def mismatchAt (t : Team) (tile m planes : Nat) : Option (Nat × Nat) :=
  (List.range planes).findSome? fun k =>
    let z := t.readZ tile k
    let row (i : Nat) : List Nat := (z.drop (i * 128)).take 128
    ((List.range m).find? fun i => row i != row (i + 64)).map fun i => (k, i)

/-- The converted rows of a drain, plane by plane (R200). -/
def drainTiles (t : Team) (c : MatrixCmd) : List Tile :=
  let w := c.word
  let sh := shapeOf c.rec1
  let ty := if w.kind = 2 then sh.fmt else w.fmt
  let len := if w.kind = 2 then sh.len else blockLen w.b16
  c.sample.planes.map fun k =>
    let codes := (t.readZ w.za k).take (128 * w.m)
    if ty = 0 then ⟨0, 32, w.m, 128, sparse (128 * w.m) fun i => codes.getD i 0, [], []⟩
    else
      let r := c.sample.rounding 0 w.nansat c.sample.counter
      convertTile ty len w.m 128 (codes.map (Num.decode .fp32)).toArray (some .fp32) (if k = 0 then r else r.tangent)

/-- A tile and its shadows take +0 (R202). -/
def Team.clearTile (t : Team) (tile : Nat) : Team :=
  (List.range t.planes).foldl (fun t k => t.writeZ tile k []) t

/-- A drain's pass (R200, R201): the rows are read and converted, and with clr cleared; when the redundant copies differ
nothing is read. -/
def passDrain (t : Team) (c : MatrixCmd) : Team × MatrixCmd :=
  let w := c.word
  if t.engine.redundant ∧ mismatchAt t w.za w.m t.planes ≠ none then (t, c)
  else
    let tiles := drainTiles t c
    let t := if w.clr then t.clearTile w.za else t
    (if w.kind = 3 then { t with engine := { t.engine with bypass := some tiles } } else t, { c with loaded := tiles })

/-- The head command's pass has run (R386 counts it): its count rises, and after its last pass a product's slots are freed. -/
def endPass (s : State) (tk : Nat) (t : Team) (c : MatrixCmd) : State :=
  let c := { c with passes := c.passes + 1 }
  let t := t.setHead c
  let pops := match c.op with
    | .mdrain => false
    | _ => true
  let s := s.perfEvent t.core 6 t.grid 1
  if pops && c.passes == c.total then
    s.putTeam tk ((t.endClaims c).setHead { c with claim1 := none, claim2 := none })
  else s.putTeam tk t

/-- What an MMA reads from a bypass that is empty when it runs, because the drain that was to fill it met a mismatch (R198,
R201): the spec states no operand, so its rows and its elements are free values (assumption 30). -/
def freeBypass (s : State) (c : MatrixCmd) (redundant : Bool) : List Tile × State :=
  let n := (Config.freeByte s.free).toNat % (if redundant then 64 else 128) + 1
  let code (k i : Nat) : Nat :=
    Bits.leNat ((List.range 2).map fun b => Config.freeByte (s.free + 1 + (k * 16384 + i) * 2 + b))
  (c.sample.planes.map fun k => ⟨1, 32, n, 128, sparse (n * 128) (code k), [], []⟩,
    { s with free := s.free + 1 + 32768 * (c.sample.width + 1) })

/-- The operands of the head command are there, and its first pass starts (R189, R207, R209). -/
def firstPass (s : State) (tk : Nat) (c : MatrixCmd) : Result State :=
  let t := s.teamAt tk
  let w := c.word
  match c.op with
  | .mld west =>
    let r := takeOperand s tk c (c.first 128 128) c.loaded
    .next (endPass r.2 tk { t with engine := { t.engine with stat := r.1, west := west } } { c with loaded := r.1 })
  | .mma =>
    let r := if w.kind = 3 then (match t.engine.bypass with
        | some tiles => (tiles, s)
        | none => freeBypass s c t.engine.redundant)
      else takeOperand s tk c (c.first w.m 128) c.loaded
    let t := if w.kind = 3 then { t with engine := { t.engine with bypass := none } } else t
    let c := { c with loaded := r.1 }
    .next (endPass r.2 tk (passMma t c) c)
  | .mma2 =>
    let x := takeOperand s tk c (c.first w.m 128) c.loaded
    let y := takeOperand x.2 tk c c.second c.loaded2
    let c := { c with loaded := x.1, loaded2 := y.1 }
    .next (endPass y.2 tk (passMma2 t c) c)
  | .mvnb =>
    let sh := shapeOf c.rec2
    let b := nearPlace c.other c.rec2
    let addrs := b.1.addrs c.sample b.2.1.offsets
    let a := takeOperand s tk c (c.first w.m (sh.bx 0)) c.loaded
    withPages a.2 tk (s.groupAt c.key) b.2.2 false addrs
      (fun va s => .next (s.setHead tk { c with life := c.life.hold va false }))
      (fun code va s => .next (s.setHead tk { c with life := c.life.fail code va }))
      fun ps s =>
        match (onePerPage addrs).find? fun va => spaceOf (reachAddr ps va).1 != 0 with
        | some va => .next (s.setHead tk { c with life := c.life.fail 7 va })
        | none =>
          let r := racedTiles (writeBackAll s ps addrs) (dieOfCore t.core) ps c.sample c.early2 b
          let s := r.2
          let c := { c with
            loaded := a.1
            loaded2 := r.1
            banks := bankList c.sample (sh.base false) b.2.1 ps }
          .next (endPass s tk (passMvnb (s.teamAt tk) c) c)
  | .mdrain =>
    let r := passDrain t c
    .next (endPass s tk r.1 r.2)
  | .mzero all tile =>
    .next (endPass s tk ((if all then List.range t.tiles else [tile]).foldl Team.clearTile t) c)
  | .mmode red => .next (endPass s tk { t with engine := { t.engine with redundant := red } } c)

/-- MATRIX_PASS_START (R207): the head command's next pass. -/
def execMatrixPassStart (tk : Nat) (s : State) : Result State :=
  let t := s.teamAt tk
  match t.engine.queue with
  | [] => .refused (.notEnabled "MATRIX_PASS_START")
  | c :: _ =>
    if !passReady t || enginePaused s tk then .refused (.notEnabled "MATRIX_PASS_START")
    else if c.passes = 0 then firstPass s tk c
    else match c.op with
      | .mma2 => .next (endPass s tk (passMma2 t c) c)
      | .mvnb => .next (endPass s tk (passMvnb t c) c)
      | _ => .next (endPass s tk (passMma t c) c)

/-- The head command of a placed team has run its passes or has met a fault, its transfers have ended, and it waits for no
page. -/
def matrixDone (t : Team) : Bool :=
  match t.engine.queue with
  | c :: _ => t.placed && c.life.wait.isNone && (c.life.fault != 0 || (decide (c.total ≤ c.passes) && c.settled))
      && c.raised.all c.landed.contains
  | [] => false

/-- The scale registers that a split drain writes (R51, R200). -/
def Tile.scaleRegs (t : Tile) : List ScaleReg :=
  let sc := (dense t.blocks 0 t.scales).toArray
  let co := (dense t.blocks 0 t.comps).toArray
  (List.range (Bits.ceilDiv t.blocks 16)).map fun i => (List.range 16).foldl (fun q b =>
    let n := 16 * i + b
    if n < t.blocks then Bits.setQbyte (Bits.setQbyte q b (sc.getD n 0)) (16 + b) (co.getD n 0)
    else Bits.setQbyte q b 0x7F) 0

/-- A drain's scales go to Q registers and their shadows (R200). -/
def Group.takeScales (g : Group) (base : Nat) (tiles : List Tile) : Group :=
  g.completeWrites (tiles.zipIdx.flatMap fun t => t.1.scaleRegs.zipIdx.map fun q => .q t.2 (base + q.2) q.1)

/-- A scratchpad write covers only whole tiles of the compressed regions that it touches (R247). -/
def Team.wholeTiles (t : Team) (o n : Nat) : Bool :=
  t.regions.all fun r => ((List.range r.2).map fun i => (r.1 + i) * 4096).all fun a =>
    !overlap o n a 4096 || (o ≤ a && a + 4096 ≤ o + n)

/-- The bytes that a drain writes in a plane, by offset (R194, R200, R367). -/
def drainBytes (c : MatrixCmd) (tile : Tile) : List (Nat × Byte) :=
  let w := c.word
  if w.kind = 2 then ((shapeOf c.rec1).view c.src).image tile
  else fromOffset 0 (if w.split then tile.codeBytes else tile.linearBytes)

/-- The images that a drain writes, one per plane. -/
def drainImages (c : MatrixCmd) : List (List (Nat × Byte)) := c.loaded.map (drainBytes c)

/-- The bytes of some images, for a completion record (R319). -/
def imageBytes (l : List (List (Nat × Byte))) : Nat := (l.map (·.length)).foldl (· + ·) 0

/-- The scratchpad ranges that a drain writes, for the commands behind it (R209). -/
def Team.noteDrain (t : Team) (c : MatrixCmd) (n : Nat) : Team :=
  { t with engine := { t.engine with drains := t.engine.drains ++ c.sample.planes.map fun k => (c.src.toNat + k * t.w, n) } }

/-- The writes of a drain to the scratchpad or a slot at its completion (R200): the command with any fault and the bytes
written; the write through a handle has been a transfer, and the bypass was filled by the pass. -/
def finishDrain (s : State) (tk : Nat) (c : MatrixCmd) : MatrixCmd × State :=
  let t := s.teamAt tk
  let w := c.word
  let o := c.first w.m 128
  let images := drainImages c
  let n := (images.headD []).length
  let past (l : Life) : MatrixCmd := { c with passes := c.passes + 1, life := l }
  if c.loaded = [] ∨ 2 ≤ w.kind then (past c.life, s)
  else if w.kind = 0 ∧ !t.wholeTiles c.src.toNat n then (past (c.life.fail 5 0), s)
  else
    let s := images.zipIdx.foldl (fun s b => o.1.store s tk [] c.sample b.2 b.1) s
    let s := if w.kind = 0 then s.modTeam tk (·.noteDrain c n) else s
    let s := if w.split then s.modGroup c.key (·.takeScales w.qbase c.loaded) else s
    (past { c.life with bytes := imageBytes images }, s)

/-- The bytes that a command reads through its handles, for its completion record (R319). -/
def MatrixCmd.readBytes (c : MatrixCmd) : Nat :=
  let count (v : View) (l : List Tile) : Nat := (l.map fun t => (v.write t).length).foldl (· + ·) 0
  let w := c.word
  match c.op with
  | .mvnb => count ((shapeOf c.rec2).view c.other) c.loaded2
  | .mma2 =>
    (if w.kind = 2 then count (c.first w.m 128).2.1 c.loaded else 0)
      + (if w.kind2 = 2 then count c.second.2.1 c.loaded2 else 0)
  | _ => count (c.first w.m 128).2.1 c.loaded

/-- The bypass as the accepted commands will leave it, from what it holds now (R195, R201). -/
def Engine.foretell (e : Engine) : Engine :=
  let rows := match e.bypass with
    | some (t :: _) => t.rows
    | _ => e.accRows
  e.queue.foldl (fun e c =>
    if c.word.kind ≠ 3 then e
    else match c.op with
      | .mma => { e with accBypass := false }
      | .mdrain => { e with accBypass := true, accRows := c.word.m }
      | _ => e) { e with accBypass := e.bypass.isSome, accRows := rows }

/-- The end of the head command (R97, R187, R210, R223): its record, its flag, its child, and the mismatch of R201, which stands
behind those that wait already (assumption 66). A push that the drain claimed completes with its turn (assumption 64). -/
def endMatrix (s : State) (tk : Nat) (c : MatrixCmd) : Result State :=
  let g := s.groupAt c.key
  let w := c.word
  let t := s.teamAt tk
  let mismatch := if c.op = .mdrain ∧ c.loaded = [] ∧ c.life.fault = 0 then mismatchAt t w.za w.m t.planes else none
  let finish (s : State) : Result State :=
    let t := (s.teamAt tk).endClaims c
    let q := t.engine.queue.drop 1
    let e := { t.engine with queue := q, drains := if q = [] then [] else t.engine.drains }
    let s := s.putTeam tk { t with engine := if mismatch.isSome && w.kind == 3 then e.foretell else e }
    let nf := if w.nf && c.op == .mdrain && c.life.fault == 0 then (tileOf c.loaded 0).nonFinite else 0
    let s := countNf s t.grid nf
    let s := match mismatch with
      | none => s
      | some (k, m) => s.modGroup c.key fun g => { g with
          mismatch := g.mismatch ++ [(BitVec.ofNat 64 (m + 2 ^ 8 * w.za + 2 ^ 10 * k), c.sample.pc.setWidth 64)] }
    .next (endCommand s c.key c.flag c.child false c.life.fault c.life.addr)
  if c.child then
    writeRecord s g c.sample.cring c.life.noRing c.life.number
      (recordOf (if c.op = .mvnb then 3 else 2) c.sample.pc.toNat c.life false)
      (fun va q s => .next (s.setHead tk { c with life := c.life.holdRing va q })) finish
  else finish s

/-- MATRIX_COMMAND_COMPLETE (R207): a drain writes its destination, then the command ends. -/
def execMatrixCommandComplete (tk : Nat) (s : State) : Result State :=
  let t := s.teamAt tk
  match t.engine.queue with
  | [] => .refused (.notEnabled "MATRIX_COMMAND_COMPLETE")
  | c :: _ =>
    if !matrixDone t then .refused (.notEnabled "MATRIX_COMMAND_COMPLETE")
    else if c.op = .mdrain then
      let r := if c.passes = c.total ∧ c.life.fault = 0 then finishDrain s tk c else (c, s)
      endMatrix r.2 tk r.1
    else endMatrix s tk { c with life := { c.life with bytes := if c.life.fault = 0 then c.readBytes else 0 } }

end Sys2Proof.Machine
end

