-- ==== Sys2Proof/Machine/Transit.lean ====
section
/-! DEFINITION. Transit copies: the descriptor and its checks (R339, R340), CPY, the start of a command (R316, R379), and
the copy at its completion: conversion and transposition (R341), sealing (R342, R254, R255) and the CRC (R343). -/

namespace Sys2Proof.Machine

open Sys2Proof.Num (XVal)

/-- One end of a transit descriptor (R339). -/
structure CopyEnd where
  kind    : Nat
  ring    : Nat
  value   : Word
  stride  : Nat
  fmt     : Nat
  b16     : Bool
  bytes   : Bool
  fmtByte : Nat
  kindBit : Bool
  deriving DecidableEq, Repr

/-- End `i` of a descriptor: 0 the source, 1 the destination. -/
def copyEnd (d : BitVec 512) (i : Nat) : CopyEnd :=
  let b (off n : Nat) : Nat := Bits.field d.toNat (8 * off) (8 * n)
  let k := b (0x28 + i) 1
  let f := b (0x2A + i) 1
  { kind := k % 8
    ring := k / 16
    value := BitVec.ofNat 64 (b (8 * i) 8)
    stride := b (0x18 + 8 * i) 8
    fmt := f % 16
    b16 := Bits.bit f 4
    bytes := Bits.bit f 5
    fmtByte := f
    kindBit := Bits.bit k 3 }

/-- The format of an end's elements, its block length, and bytes as format 9 (R339, R340). -/
def CopyEnd.ty (e : CopyEnd) (sh : Option Shape) : Nat × Nat :=
  match e.kind, sh with
  | 3, some s => (s.fmt, s.len)
  | _, _ => (if e.bytes then 9 else e.fmt, blockLen e.b16)

/-- The fields of a descriptor that belong to no end. -/
structure CopyDesc where
  cols     : Nat
  rows     : Nat
  flags    : Nat
  mode     : Nat
  tag      : Nat
  reserved : Bool
  deriving DecidableEq, Repr

/-- The common fields of a descriptor (R339). -/
def copyDesc (d : BitVec 512) : CopyDesc :=
  let b (off n : Nat) : Nat := Bits.field d.toNat (8 * off) (8 * n)
  ⟨b 0x10 4, b 0x14 4, b 0x2C 1, b 0x2D 1, b 0x30 4, b 0x2E 2 != 0 || b 0x34 12 != 0⟩

/-- .xpose -/
def CopyDesc.xpose (d : CopyDesc) : Bool := Bits.bit d.flags 0
/-- .unseal -/
def CopyDesc.opens (d : CopyDesc) : Bool := Bits.bit d.flags 1
/-- .crc -/
def CopyDesc.crc (d : CopyDesc) : Bool := Bits.bit d.flags 2
/-- .notify -/
def CopyDesc.notify (d : CopyDesc) : Bool := Bits.bit d.flags 3
/-- .nansat -/
def CopyDesc.nansat (d : CopyDesc) : Bool := Bits.bit d.flags 4
/-- .nf -/
def CopyDesc.nf (d : CopyDesc) : Bool := Bits.bit d.flags 5
/-- .inactive -/
def CopyDesc.inactive (d : CopyDesc) : Bool := Bits.bit d.flags 6

/-- Rows and columns of the source, taken from a handle's box where an end has one (R340). -/
def copySize (d : CopyDesc) (a b : Option Shape) : Nat × Nat :=
  match a, b with
  | some s, _ => (s.bx 1 * s.bx 2, s.bx 0)
  | none, some s => if d.xpose then (s.bx 0, s.bx 1 * s.bx 2) else (s.bx 1 * s.bx 2, s.bx 0)
  | none, none => (d.rows, d.cols)

/-- Rows and columns of an end. -/
def endSize (d : CopyDesc) (dest : Bool) (rc : Nat × Nat) : Nat × Nat := if dest && d.xpose then (rc.2, rc.1) else rc

/-- The row stride of an end without scales; 0 means the row size (R340). -/
def CopyEnd.step (e : CopyEnd) (ty cols : Nat) : Nat := if e.stride = 0 then cols * elemBits ty / 8 else e.stride

/-- The bytes that an end of one image spans. -/
def CopyEnd.span (e : CopyEnd) (ty len rows cols : Nat) : Nat :=
  if isMx ty then tensorBytes ty len (rows * cols) else (rows - 1) * e.step ty cols + cols * elemBits ty / 8

/-- The reasons that an end gives by itself (R326, R340). -/
def CopyEnd.reasons (e : CopyEnd) : List Nat :=
  (if e.kindBit || decide (64 ≤ e.fmtByte) || (e.kind != 2 && e.ring != 0) || (e.kind == 1 && decide (2 ^ 32 ≤ e.value.toNat))
      || (e.kind == 2 && (e.value != 0 || e.stride != 0)) || (e.kind == 3 && (e.fmtByte != 0 || e.stride != 0))
      || (e.bytes && e.fmtByte % 32 != 0) then [1] else [])
  ++ (if 3 < e.kind then [2] else [])
  ++ (if e.kind ≠ 3 ∧ !e.bytes ∧ (8 < e.fmt ∨ (e.b16 ∧ !isMx e.fmt)) then [3] else [])

/-- The reasons that an end's size and layout give (R340); a stride of an MX end is given 5 (assumption 86). -/
def CopyEnd.layoutReasons (e : CopyEnd) (t : Team) (width : Nat) (sh : Option Shape) (rows cols : Nat) : List Nat :=
  let (ty, len) := e.ty sh
  let small : Bool := match t.ring e.ring with
    | some r => decide (r.size < (width + 1) * e.span ty len rows cols)
    | none => true
  if e.kind = 3 then []
  else
    (if isMx ty ∧ cols % len ≠ 0 then [4] else [])
    ++ (if isMx ty ∧ (e.stride ≠ 0 ∨ (e.kind ≠ 2 ∧ e.value.toNat % 2048 ≠ 0)) then [5] else [])
    ++ (if e.kind = 2 ∧ small then [6] else [])

/-- The lowest offset of a scratchpad end beyond the team's scratchpad (R195, R340). -/
def CopyEnd.beyond (e : CopyEnd) (t : Team) (rows cols : Nat) : List Nat :=
  let ty := (e.ty none).1
  let len := (e.ty none).2
  if e.kind ≠ 1 then []
  else if isMx ty then (if t.w < e.value.toNat + e.span ty len rows cols then [max e.value.toNat t.w] else [])
  else
    let n := cols * elemBits ty / 8
    ((List.range rows).map fun i => e.value.toNat + i * e.step ty cols).filterMap fun o =>
      if t.w < o + n then some (max o t.w) else none

/-- The checks of R340. -/
def copyChecks (d : BitVec 512) (t : Team) (width : Nat) (a b : Option Shape) : Checked :=
  let src := copyEnd d 0
  let dst := copyEnd d 1
  let c := copyDesc d
  let handle := src.kind == 3 || dst.kind == 3
  let rc := copySize c a b
  let (r1, c1) := rc
  let (r2, c2) := endSize c true rc
  let fits : Bool := match b with
    | some s => s.bx 1 * s.bx 2 == r2 && s.bx 0 == c2
    | none => true
  let reasons :=
    (if c.reserved || decide (128 ≤ c.flags) || decide (6 < c.mode) || (handle && (c.cols != 0 || c.rows != 0))
        || (c.inactive && !handle) then [1] else [])
    ++ src.reasons ++ dst.reasons
    ++ (if src.bytes != dst.bytes || (src.bytes && (c.xpose || c.nansat)) then [3] else [])
    ++ (if !handle && (r1 == 0 || decide (65536 < r1) || c1 == 0) || (c.xpose && (r1 % 32 != 0 || c1 % 32 != 0)) then [4]
        else [])
    ++ (if (src.kind == 3 && a.isNone) || (dst.kind == 3 && b.isNone) || !fits then [7] else [])
    ++ src.layoutReasons t width a r1 c1 ++ dst.layoutReasons t width b r2 c2
  checked [] reasons (src.beyond t r1 c1 ++ dst.beyond t r2 c2)

/-- A copy converts: its ends differ in format or block length, or it transposes (R341). -/
def copyConverts (d : BitVec 512) (a b : Option Shape) : Bool :=
  let x := (copyEnd d 0).ty a
  let y := (copyEnd d 1).ty b
  (copyDesc d).xpose || x.1 != y.1 || (isMx x.1 && x.2 != y.2)

/-- A command as it is accepted into the transit queue, before its ring claims. -/
def newTransit (s : State) (g : Group) (op : TransitOp) (flag : Option Nat) (r1 r2 : Option (BitVec 512)) : TransitCmd where
  id := ((s.coreAt g.core).transit.foldl (fun m c => max m (c.id + 1)) 0)
  key := g.key
  op := op
  flag := flag
  sample := sampleOf s g
  srcRec := r1.getD 0
  dstRec := r2.getD 0
  srcPos := none
  dstPos := none
  started := false
  sealing := []
  crc := 0
  left := false
  early := []
  since := 0
  life := Life.fresh

/-- Acceptance into the transit queue (R316, R332): room, the flag's count, the frame's count, then the ring claims. -/
def acceptTransit (s : State) (g : Group) (c : TransitCmd) (pop push : Option Nat) (draws : Nat) : Result State :=
  let core := s.coreAt g.core
  if 32 ≤ core.transit.length then waitIn s g .transitQueue
  else match engineStall s g c.flag true with
    | some w => waitIn s g w
    | none =>
      let a := (s.teamAt g.teamKey).claimIf pop.isSome false (pop.getD 0)
      let b := a.2.claimIf push.isSome true (push.getD 0)
      let c := { c with srcPos := a.1, dstPos := b.1 }
      let s := (s.putTeam g.teamKey b.2).putCore g.core { core with transit := core.transit ++ [c] }
      .next (acceptCommand s (g.draw draws) c.flag true)

/-- CPY (R339, R340): a copy-role instruction. -/
def execCpy (f : SR) (s : State) : Result State :=
  scalarInstr [f.src1.toNat] s fun g =>
    if g.role ≠ .copy then trapRole s
    else readStruct s g (g.addr f.src1.toNat) 64 64 fun bs s =>
      let d : BitVec 512 := BitVec.ofNat 512 (Bits.leNat bs)
      let src := copyEnd d 0
      let dst := copyEnd d 1
      let c := copyDesc d
      withRecord s g (src.kind == 3) src.value fun r1 s => withRecord s g (dst.kind == 3) dst.value fun r2 s =>
        let a := shapeUsable r1 src.value c.inactive
        let b := shapeUsable r2 dst.value c.inactive
        onChecked s (copyChecks d (s.teamAt g.teamKey) g.tanw a b) fun _ =>
          let x := sampleOf s g
          let rc := copySize c a b
          acceptTransit s g (newTransit s g (.copy d) (fnFlag f.fn) r1 r2)
            (if src.kind = 2 then some src.ring else none) (if dst.kind = 2 then some dst.ring else none)
            (if copyConverts d a b then x.drawsFor c.mode (rc.1 * rc.2) else 0)

/-! Key slots in flight (R256, R379). -/

/-- A transfer takes a slot's key: one more in flight. -/
def takeKey (s : State) (slot : Nat) : Option (BitVec 512) × State :=
  match Assoc.find? s.keys slot with
  | some k => (some k.key, { s with keys := Assoc.put s.keys slot { k with flight := k.flight + 1 } })
  | none => (none, s)

/-- The keys of several slots; empty slots give none. -/
def takeKeys (s : State) (slots : List Nat) : List (Nat × BitVec 512) × State :=
  slots.foldl (fun a n =>
    match takeKey a.2 n with
    | (some k, s) => (Assoc.put a.1 n k, s)
    | (none, s) => (a.1, s)) ([], s)

/-- The transfers of some slots end: each has one less in flight. -/
def dropKeys (s : State) (l : List (Nat × BitVec 512)) : State :=
  { s with keys := l.foldl (fun ks x => Assoc.modify ks x.1 fun k => { k with flight := k.flight - 1 }) s.keys }

/-! The ends of a copy in memory, scratchpad or a slot. -/

/-- An end of a running copy: its place, its view and its record's key. -/
def CopyEnd.place (e : CopyEnd) (sh : Option Shape) (inactive : Bool) (pos : Option Nat) (rows cols : Nat) :
    Place × View × Nat :=
  let (ty, len) := e.ty sh
  match e.kind, sh with
  | 3, some s => (.mem (s.base inactive), s.view e.value, s.key)
  | 3, none => (.mem 0, View.linear ty len rows cols 0, 0)
  | k, _ =>
    let v := View.linear ty len rows cols (e.step ty cols)
    (if k = 0 then .mem (e.value.toNat % 2 ^ 56)
      else if k = 1 then .scratch e.value.toNat
      else .slot e.ring (pos.getD 0) (e.span ty len rows cols), v, 0)

/-- The bytes that a tile writes at an end (R253, R340, R367). -/
def CopyEnd.image (e : CopyEnd) (v : View) (t : Tile) : List (Nat × Byte) :=
  if e.kind ≠ 3 ∧ isMx v.ty then fromOffset 0 t.mxBytes else v.image t

/-- The destination tile of a source tile (R341, R182): copied, or placed, transposed and converted. -/
def copyTile (d : BitVec 512) (a b : Option Shape) (x : Sample) (plane : Nat) (src : Tile) : Tile :=
  let c := copyDesc d
  let (ty, len) := (copyEnd d 1).ty b
  if !copyConverts d a b then { src with blk := if isMx src.ty then src.blk else len }
  else
    let vs := src.values
    let rows := if c.xpose then src.cols else src.rows
    let cols := if c.xpose then src.rows else src.cols
    let placed := if c.xpose then ((List.range src.size).map fun k =>
      vs.getD (k % src.rows * src.cols + k / src.rows) XVal.zero).toArray else vs
    let r := x.rounding c.mode c.nansat x.counter
    convertTile ty len rows cols placed (Num.fmtOfCode src.ty) (if plane = 0 then r else r.tangent)

/-- The primal bytes of a copy in ascending order, each once (R343). -/
def inOrder (bs : List (Nat × Byte)) : List Byte :=
  (bs.foldl (fun l b => Assoc.put l b.1 b.2) ([] : List (Nat × Byte))).map (·.2)

/-- A scratchpad destination that touches a compressed region covers whole tiles (R247, R340). -/
def Team.coversTiles (t : Team) (off : Nat) (offs : List Nat) : Bool :=
  t.regions.all fun r => ((List.range r.2).map (r.1 + ·)).all fun i =>
    let n := ((offs.map (off + ·)).filter fun o => o / 4096 == i).eraseDups.length
    n == 0 || n == 4096

/-- The transit command `c` takes its own place in its core's queue; one that waits for page service has left the execution set
(R316). -/
def State.putTransit (s : State) (core : Nat) (c : TransitCmd) : State :=
  let k := s.coreAt core
  let c := { c with left := c.left || c.life.wait.isSome }
  s.putCore core { k with transit := k.transit.map fun x => if x.id = c.id then c else x }

/-- A command leaves its core's queue. -/
def State.dropTransit (s : State) (core id : Nat) : State :=
  let k := s.coreAt core
  s.putCore core { k with transit := k.transit.filter fun x => x.id != id }

/-- The command is in execution: started, and not out of the execution set for page service (R316). -/
def TransitCmd.running (c : TransitCmd) : Bool := c.started && !c.left && c.life.wait.isNone

/-- The command can enter execution: it has not started, or its page service has ended (R316). -/
def TransitCmd.enters (c : TransitCmd) : Bool := (!c.started || c.left) && c.life.wait.isNone

/-- The slots that a copy of bytes between addresses may seal or unseal under, as its pages stand now (R342): every loaded slot
while a page cannot be seen (assumption 67). -/
def sealSlots (s : State) (c : TransitCmd) : List Nat :=
  match c.op with
  | .copy d =>
    let src := copyEnd d 0
    let dst := copyEnd d 1
    let base := if (copyDesc d).opens then dst.value.toNat else src.value.toNat
    if src.kind ≠ 0 ∨ dst.kind ≠ 0 ∨ !src.bytes then []
    else
      let pages := (c.sample.planes.flatMap fun k =>
        (List.range ((copyDesc d).cols / 65536 + 2)).map fun i =>
          c.sample.planeAddr (base + min (i * 65536) ((copyDesc d).cols - 1)) k).map (peekXlat s)
      if pages.all fun x => match x with
          | .ok _ _ => true
          | _ => false then
        (pages.filterMap fun x => match x with
          | .ok _ leaf => if leafKey leaf = 0 then none else some (leafKey leaf)
          | _ => none).eraseDups
      else s.keys.map (·.1)
  | _ => []

/-- The matrix command of a team with a number. -/
def Team.matrixCmd (t : Team) (id : Nat) : Option MatrixCmd := t.engine.queue.find? fun c => c.id == id

/-- A matrix command takes its own place in its team's queue. -/
def State.putMatrix (s : State) (tk : Nat) (c : MatrixCmd) : State :=
  s.modTeam tk fun t => { t with engine := { t.engine with queue := t.engine.queue.map fun x => if x.id = c.id then c else x } }

/-- The operand that a transfer brings: its place, its view and its record's key. -/
def MatrixCmd.fetched (c : MatrixCmd) (second : Bool) : Place × View × Nat :=
  if second then c.second else c.first c.word.m 128

/-- What a transit command takes when it starts: its slots' keys (R379), and a fetch the bytes as they stand (R209). -/
def startTransit (s : State) (c : TransitCmd) : TransitCmd × State :=
  let r := takeKeys s (sealSlots s c)
  let early := match c.op with
    | .fetch tk id second => match (s.teamAt tk).matrixCmd id with
      | some x => bytesNow s ((x.fetched second).1.addrs x.sample (x.fetched second).2.1.offsets)
      | none => []
    | _ => []
  ({ c with started := true, sealing := r.1, early := early, since := s.cycle.toNat }, r.2)

/-- TRANSIT_COMMAND_START (R316): the first command that is to enter execution, when fewer than eight are in it. -/
def execTransitCommandStart (core : Nat) (s : State) : Result State :=
  let k := s.coreAt core
  match k.transit.find? (·.enters) with
  | some c =>
    if 8 ≤ (k.transit.filter (·.running)).length then .refused (.notEnabled "TRANSIT_COMMAND_START")
    else
      let r := if c.started then (c, s) else startTransit s c
      .next (r.2.putTransit core { r.1 with left := false })
  | none => .refused (.notEnabled "TRANSIT_COMMAND_START")

/-- The turns of a command's claimed slots have come (R314). -/
def TransitCmd.turns (c : TransitCmd) (t : Team) : Bool :=
  match c.op with
  | .copy d => t.turn false (copyEnd d 0).ring c.srcPos && t.turn true (copyEnd d 1).ring c.dstPos
  | .gacc _ _ ring _ => t.turn false (ring.getD 0) c.srcPos
  | .fetch .. | .drain .. => true

/-- A command's claimed slots complete (R314). -/
def TransitCmd.endClaims (c : TransitCmd) (t : Team) : Team :=
  let finish (t : Team) (push : Bool) (r : Nat) (pos : Option Nat) : Team :=
    match pos with
    | some n => t.modRing r fun x => if push then x.endPush n else x.endPop n
    | none => t
  match c.op with
  | .copy d => finish (finish t false (copyEnd d 0).ring c.srcPos) true (copyEnd d 1).ring c.dstPos
  | .gacc _ _ ring _ => finish t false (ring.getD 0) c.srcPos
  | .fetch .. | .drain .. => t

/-- The end of a transit or gradient command (R97, R223, R318, R344, R345). -/
def endTransit (s : State) (core : Nat) (c : TransitCmd) (kind tag : Nat) (notify : Bool) : Result State :=
  let g := s.groupAt c.key
  writeRecord s g c.sample.cring c.life.noRing c.life.number (recordOf kind tag c.life notify)
    (fun va q s => .next (s.putTransit core { c with life := c.life.holdRing va q }))
    fun s =>
      let s := (dropKeys s c.sealing).dropTransit core c.id
      let s := s.modTeam g.teamKey c.endClaims
      .next (endCommand s c.key c.flag true notify c.life.fault c.life.addr)

/-- The tag of a copy's record (R343). -/
def copyTag (d : CopyDesc) (c : TransitCmd) : Nat := d.tag + (if d.crc && c.life.fault == 0 then c.crc.toNat * 2 ^ 32 else 0)

/-- A copy ends with a fault, or with its bytes written. -/
def endCopy (s : State) (core : Nat) (d : BitVec 512) (c : TransitCmd) : Result State :=
  let x := copyDesc d
  endTransit s core c 1 (copyTag x c) x.notify

/-- What a copy of bytes between addresses does to its pages (R342). -/
inductive Sealing where
  | plain
  /-- seals, or with `opened` unseals, each unit under the key index of its page -/
  | crypt (opened : Bool)
  | bad (code : BitVec 16)
  deriving DecidableEq, Repr

/-- The sealing of a copy from its reached pages (R342, R254 to R256); every plane is whole units (R182). -/
def sealingOf (d : BitVec 512) (c : TransitCmd) (from_ to_ : List PagePlace) (n : Nat) : Sealing :=
  let x := copyDesc d
  let src := copyEnd d 0
  let dst := copyEnd d 1
  let sealed_ := from_.any (fun p => leafKey p.leaf != 0) && to_.any fun p => 2 ≤ spaceOf p.pa
  let form := src.kind == 0 && dst.kind == 0 && src.bytes && x.rows == 1 && !x.xpose
  let odd (base : Word) : Bool := n % 4096 != 0 || c.sample.planes.any fun k => c.sample.planeAddr base.toNat k % 4096 != 0
  let has (slot : Nat) : Bool := (Assoc.find? c.sealing slot).isSome
  if x.opens then
    if !form || to_.any fun p => leafKey p.leaf == 0 then .bad 0x100
    else if odd dst.value then .bad 4
    else if !(to_.all fun p => has (leafKey p.leaf)) then .bad 3
    else .crypt true
  else if sealed_ then
    if !form then .bad 0x100
    else if odd src.value then .bad 4
    else if !(from_.all fun p => leafKey p.leaf == 0 || has (leafKey p.leaf)) then .bad 3
    else .crypt false
  else .plain

/-- The key that a transfer uses for a slot: the one it took at its start (R256). -/
def keyFor (c : TransitCmd) (slot : Nat) : List Byte := Bits.leBytes 64 ((Assoc.find? c.sealing slot).getD 0).toNat

/-- The bytes of a plane sealed or unsealed, unit by unit (R255): the tweak is the address in the sealed page. -/
def cryptBytes (c : TransitCmd) (opened : Bool) (va : Nat) (ps : List PagePlace) (n : Nat) (bs : List Byte) :
    List Byte :=
  match n with
  | 0 => []
  | n + 1 =>
    let slot := leafKey (reachAddr ps va).2
    let unit := bs.take 4096
    (if slot = 0 then unit else Crypto.xtsUnit (keyFor c slot) (!opened) (va / 4096) unit)
      ++ cryptBytes c opened (va + 4096) ps n (bs.drop 4096)

/-- The destination images of a copy of some source tiles, one per plane (R182, R341, R342). -/
def copyImagesOf (d : BitVec 512) (c : TransitCmd) (a b : Option Shape) (dst : Place × View × Nat)
    (from_ to_ : List PagePlace) (crypt : Sealing) (source : List Tile) : List Tile × List (List (Nat × Byte)) :=
  let tiles := source.zipIdx.map fun x => copyTile d a b c.sample x.2 x.1
  let images := tiles.map ((copyEnd d 1).image dst.2.1)
  (tiles, match crypt with
    | .crypt opened =>
      let base := if opened then (copyEnd d 1).value.toNat else (copyEnd d 0).value.toNat
      images.zipIdx.map fun x => fromOffset 0
        (cryptBytes c opened (c.sample.planeAddr base x.2) (if opened then to_ else from_) (x.1.length / 4096)
          (x.1.map (·.2)))
    | _ => images)

/-- The destination images of a copy (R341, R342). -/
def copyImages (s : State) (t : Team) (d : BitVec 512) (c : TransitCmd) (a b : Option Shape) (src dst : Place × View × Nat)
    (from_ to_ : List PagePlace) (crypt : Sealing) : List Tile × List (List (Nat × Byte)) :=
  copyImagesOf d c a b dst from_ to_ crypt (src.1.tiles s t from_ c.sample src.2.1)

/-- What a running copy works on: the shapes of its ends, their places, and the destination's rows and columns. -/
structure CopyPlan where
  a    : Option Shape
  b    : Option Shape
  src  : Place × View × Nat
  dst  : Place × View × Nat
  rows : Nat
  cols : Nat

/-- The plan of a copy (R339, R340). -/
def copyPlan (d : BitVec 512) (c : TransitCmd) : CopyPlan :=
  let x := copyDesc d
  let srcEnd := copyEnd d 0
  let dstEnd := copyEnd d 1
  let a := if srcEnd.kind = 3 then some (shapeOf c.srcRec) else none
  let b := if dstEnd.kind = 3 then some (shapeOf c.dstRec) else none
  let rc := copySize x a b
  let rd := endSize x true rc
  ⟨a, b, srcEnd.place a x.inactive c.srcPos rc.1 rc.2, dstEnd.place b x.inactive c.dstPos rd.1 rd.2, rd.1, rd.2⟩

/-- A tile without content, of the destination's form. -/
def CopyPlan.blank (p : CopyPlan) : Tile := ⟨p.dst.2.1.ty, p.dst.2.1.len, p.rows, p.cols, [], [], []⟩

/-- The addresses that a copy reads. -/
def CopyPlan.reads (p : CopyPlan) (c : TransitCmd) : List Nat := p.src.1.addrs c.sample p.src.2.1.offsets

/-- The offsets that a copy writes in a plane. -/
def CopyPlan.offsets (p : CopyPlan) (d : BitVec 512) : List Nat := ((copyEnd d 1).image p.dst.2.1 p.blank).map (·.1)

/-- The addresses that a copy writes. -/
def CopyPlan.writes (p : CopyPlan) (d : BitVec 512) (c : TransitCmd) : List Nat := p.dst.1.addrs c.sample (p.offsets d)

/-- The bytes that an erring copy may have written (R344): those that follow from the source pages that it can reach, whatever
the others hold (assumption 82). -/
def abortImages (s : State) (t : Team) (d : BitVec 512) (c : TransitCmd) (from_ to_ : List PagePlace) :
    List (List (Nat × Byte)) :=
  let p := copyPlan d c
  match sealingOf d c from_ to_ p.cols with
  | .bad _ => []
  | crypt =>
    let images (fill : Byte) := (copyImagesOf d c p.a p.b p.dst from_ to_ crypt
      (p.src.1.tilesOr s t from_ c.sample p.src.2.1 fill)).2
    sureImages (images 0) (images 0xFF)

/-- A copy ends with an unrecoverable fault: its destination holds any subset of its bytes (R344, R210). -/
def abortCopy (s : State) (core : Nat) (d : BitVec 512) (c : TransitCmd) (code : BitVec 16) (va : Nat) : Result State :=
  let p := copyPlan d c
  let tk := (s.groupAt c.key).teamKey
  let t := s.teamAt tk
  let die := dieOfCore t.core
  let from_ := reachEach s die p.src.2.2 false (p.reads c)
  let to_ := reachEach s die p.dst.2.2 true (p.writes d c)
  let r := spoil s p.dst.1 tk to_ c.sample (abortImages s t d c from_ to_)
  endCopy r.2 core d { c with life := { c.life.fail code va with past := true, bytes := r.1 } }

/-- A copy performs its accesses (R341 to R344). -/
def runCopy (s : State) (core : Nat) (d : BitVec 512) (c : TransitCmd) : Result State :=
  let x := copyDesc d
  let p := copyPlan d c
  let tk := (s.groupAt c.key).teamKey
  let g := s.groupAt c.key
  let t := s.teamAt tk
  let reads := p.reads c
  let hold (va : Nat) (s : State) : Result State := .next (s.putTransit core { c with life := c.life.hold va false })
  let abort (code : BitVec 16) (va : Nat) (s : State) : Result State := abortCopy s core d c code va
  let stop (code : BitVec 16) (s : State) : Result State :=
    endCopy s core d { c with life := { c.life.fail code 0 with past := true } }
  if (copyEnd d 1).kind = 1 ∧ !t.coversTiles (copyEnd d 1).value.toNat (p.offsets d) then stop 5 s
  else
    withPages s tk g p.src.2.2 false reads hold abort fun from_ s =>
      withPages s tk g p.dst.2.2 true (p.writes d c) hold abort fun to_ s =>
        match sealingOf d c from_ to_ p.cols with
        | .bad code => stop code s
        | crypt =>
          let r := copyImages s (s.teamAt tk) d c p.a p.b p.src p.dst from_ to_ crypt
          let s := touchReads s (dieOfCore t.core) from_ reads
          let s := r.2.zipIdx.foldl (fun s y => p.dst.1.store s tk to_ c.sample y.2 y.1) s
          let nf := if x.nf && p.dst.2.1.ty != 9 then (r.1.headD p.blank).nonFinite else 0
          let c := { c with
            crc := Crypto.crc32c (inOrder (r.2.headD []))
            life := { c.life with past := true, bytes := (r.2.map (·.length)).foldl (· + ·) 0 } }
          endCopy (countNf (s.putTransit core c) g.grid nf) core d c

/-- The transfer of a handle's operand (R208 to R210): each 16 B chunk as it stood at the start or stands now. -/
def runFetch (s : State) (core : Nat) (x : TransitCmd) (tk id : Nat) (second : Bool) : Result State :=
  match (s.teamAt tk).matrixCmd id with
  | none => .next (s.dropTransit core x.id)
  | some c =>
    let o := c.fetched second
    let addrs := o.1.addrs c.sample o.2.1.offsets
    let c := { c with landed := c.landed ++ [if second then 1 else 0] }
    let stop (code : BitVec 16) (va : Nat) (s : State) : Result State :=
      .next ((s.dropTransit core x.id).putMatrix tk (if c.life.fault = 0 then { c with life := c.life.fail code va } else c))
    if x.life.fault ≠ 0 then stop x.life.fault x.life.addr s
    else withPages s tk (s.groupAt c.key) o.2.2 false addrs
      (fun va s => .next (s.putTransit core { x with life := x.life.hold va false })) stop fun ps s =>
        let die := dieOfCore core
        let r := racedTiles s die ps c.sample x.early o
        let c := if second then { c with loaded2 := r.1 } else { c with loaded := r.1 }
        let s := touchReads r.2 die ps addrs
        .next ((s.dropTransit core x.id).putMatrix tk c)

/-- The global write of a drain through its handle (R200, R210). -/
def runDrain (s : State) (core : Nat) (x : TransitCmd) (tk id : Nat) : Result State :=
  match (s.teamAt tk).matrixCmd id with
  | none => .next (s.dropTransit core x.id)
  | some c =>
    let o := c.first c.word.m 128
    let images := drainImages c
    let addrs := o.1.addrs c.sample ((images.headD []).map (·.1))
    let done (l : Life) (s : State) : Result State :=
      .next ((s.dropTransit core x.id).putMatrix tk { c with landed := c.landed ++ [2], passes := c.passes + 1, life := l })
    let abort (code : BitVec 16) (va : Nat) (s : State) : Result State :=
      let r := spoil s o.1 tk (reachEach s (dieOfCore core) o.2.2 true addrs) c.sample images
      done { c.life.fail code va with bytes := r.1 } r.2
    if x.life.fault ≠ 0 then abort x.life.fault x.life.addr s
    else withPages s tk (s.groupAt c.key) o.2.2 true addrs
      (fun va s => .next (s.putTransit core { x with life := x.life.hold va false })) abort fun ps s =>
        let s := images.zipIdx.foldl (fun s b => o.1.store s tk ps c.sample b.2 b.1) s
        done { c.life with bytes := imageBytes images } s

/-- The transfers of a matrix command that it has not raised enter the transit queue while that has room (R316). -/
def raiseFor (s : State) (core tk : Nat) (c : MatrixCmd) : State :=
  ((c.transfers.filter fun n => !c.raised.contains n).foldl (fun (a : State × MatrixCmd) n =>
    let k := a.1.coreAt core
    if 32 ≤ k.transit.length then a
    else
      let op := if n = 2 then TransitOp.drain tk c.id else .fetch tk c.id (n == 1)
      let x := { newTransit a.1 (a.1.groupAt c.key) op none (some (if n = 1 then c.rec2 else c.rec1)) none with
        key := c.key, sample := c.sample }
      let c := { a.2 with raised := a.2.raised ++ [n] }
      ((a.1.putCore core { k with transit := k.transit ++ [x] }).putMatrix tk c, c)) (s, c)).1

/-- Every placed team's engine raises the transfers that its commands have come to, in acceptance order (R208, R316). -/
def raiseTransfers (s : State) : State :=
  s.teams.foldl (fun s p =>
    if p.2.placed then p.2.engine.queue.foldl (fun s c => raiseFor s p.2.core p.1 c) s else s) s

/-- TRANSIT_COPY_COMPLETE (R341, R316): a command in execution that is no GACC, and whose slots' turns have come. -/
def execTransitCopyComplete (core id : Nat) (s : State) : Result State :=
  let stop : Result State := .refused (.notEnabled "TRANSIT_COPY_COMPLETE")
  match (s.coreAt core).transit.find? fun c => c.id == id with
  | some c =>
    if !c.running || !c.turns (s.teamAt (s.groupAt c.key).teamKey) then stop
    else match c.op with
      | .copy d =>
        if c.life.past then endCopy s core d c
        else if c.life.fault ≠ 0 then abortCopy s core d c c.life.fault c.life.addr
        else runCopy s core d c
      | .gacc .. => stop
      | .fetch tk cmd second => runFetch s core c tk cmd second
      | .drain tk cmd => runDrain s core c tk cmd
  | none => stop

end Sys2Proof.Machine
end

