-- ==== Sys2Proof/Machine/Coll.lean ====
section
/-! DEFINITION. Collectives (R323, R348, R349, R378): the descriptor, the fabric group that it names, COLL, and the
completion of a collective with what the other members bring. -/

namespace Sys2Proof.Machine

open Sys2Proof.Num (XVal)

/-- A collective descriptor (R348). -/
structure CollDesc where
  send     : Nat
  recv     : Nat
  count    : Nat
  op       : Nat
  fmt      : Nat
  group    : Nat
  root     : Nat
  notify   : Bool
  tag      : Nat
  reserved : Bool
  deriving DecidableEq, Repr

/-- The fields of a descriptor's 64 bytes. -/
def collDesc (d : BitVec 512) : CollDesc :=
  let b (off n : Nat) : Nat := Bits.field d.toNat (8 * off) (8 * n)
  { send := b 0 8
    recv := b 8 8
    count := b 0x10 8
    op := b 0x18 1
    fmt := b 0x19 1
    group := b 0x1A 2
    root := b 0x1C 2
    notify := Bits.bit (b 0x1E 1) 0
    tag := b 0x20 4
    reserved := 1 < b 0x1E 1 || b 0x1F 1 != 0 || b 0x24 28 != 0 }

/-- A fabric group as an entry of the table names it (R378): its rank for this device, and the device numbers by rank. -/
structure FabricGroup where
  rank    : Nat
  members : List Nat
  deriving DecidableEq, Repr

/-- The members of a fabric group. -/
def FabricGroup.size (x : FabricGroup) : Nat := x.members.length

/-- The fabric group of a table entry, or none when the entry names no group (R378). -/
def fabricGroup (s : State) (entry : Word) : Option FabricGroup :=
  let n := Bits.field entry.toNat 1 11
  let rank := Bits.field entry.toNat 12 10
  let at_ := 2 * Bits.field entry.toNat 24 40
  let members := (List.range n).map fun r => readNat s (at_ + 2 * r) 2
  let own := Config.deviceNumber.toNat
  if !entry.getLsbD 0 || decide (1024 < n) || decide (n ≤ rank) || decide (hbmEnd < at_ + 2 * n)
      || members.any (fun m => decide (1024 ≤ m)) || members.getD rank 0 != own
      || (members.filter (· == own)).length != 1 then none
  else some ⟨rank, members⟩

/-- The reasons of COLL's checks (R326, R348); a receive buffer must be aligned as the send buffer is (assumption 85). -/
def collReasons (s : State) (x : CollDesc) : List Nat :=
  let grp := if x.group < 256 then fabricGroup s (Assoc.get 0 s.fabric x.group) else none
  let n := match grp with
    | some g => g.size
    | none => 1
  (if x.reserved || decide (4 < x.op) || (x.op != 4 && x.root != 0) then [1] else [])
  ++ (if !([0, 1, 9].contains x.fmt) then [3] else [])
  ++ (if x.count = 0 ∨ 2 ^ 32 < x.count ∨ ((x.op = 2 ∨ x.op = 3) ∧ x.count % n ≠ 0) then [4] else [])
  ++ (if x.send % 16 ≠ 0 ∨ x.recv % 16 ≠ 0 then [5] else [])
  ++ (if grp = none ∨ (x.op = 4 ∧ n ≤ x.root) then [7] else [])

/-- COLL (R323, R348): any role; a full queue stalls. -/
def execColl (f : SR) (s : State) : Result State :=
  scalarInstr [f.src1.toNat] s fun g =>
    readStruct s g (g.addr f.src1.toNat) 64 64 fun bs s =>
      let d : BitVec 512 := BitVec.ofNat 512 (Bits.leNat bs)
      let x := collDesc d
      onChecked s (checked [] (collReasons s x) []) fun _ =>
        if 64 ≤ s.colls.length then waitIn s g .collQueue
        else match engineStall s g (fnFlag f.fn) true with
          | some w => waitIn s g w
          | none =>
            let seq := Assoc.get 0 s.collSeq x.group
            let grp := (fabricGroup s (Assoc.get 0 s.fabric x.group)).getD ⟨0, []⟩
            let c : Collective := ⟨s.nextColl, g.key, d, grp.rank, grp.members, seq, fnFlag f.fn, sampleOf s g, Life.fresh⟩
            let s := { s with
              colls := s.colls ++ [c]
              nextColl := s.nextColl + 1
              collSeq := Assoc.set 0 s.collSeq x.group (seq + 1) }
            .next (acceptCommand s g c.flag true)

/-- Bytes of an element: BF16 2, FP32 and S32 4 (R348). -/
def CollDesc.width (x : CollDesc) : Nat := if x.fmt = 1 then 2 else 4

/-- The elements that a member sends, in a group of `n` (R349): an all-gather sends its share. -/
def CollDesc.sent (x : CollDesc) (n : Nat) : Nat := if x.op = 3 then x.count / n else x.count

/-- The elements that a member receives: a reduce-scatter leaves its share. -/
def CollDesc.received (x : CollDesc) (n : Nat) : Nat := if x.op = 2 then x.count / n else x.count

/-- A little-endian element of a buffer's bytes. -/
def elementOf (w : Nat) (bs : Array Byte) (e : Nat) : Nat :=
  Bits.leNat ((List.range w).map fun i => bs.getD (w * e + i) 0)

/-- The result element of a reduction in rank order (R349). S32 adds wrap, and S32 compares as signed. -/
def reduceElement (op fmt : Nat) (xs : List Nat) : Nat :=
  let f := if fmt = 1 then Num.Fmt.bf16 else Num.Fmt.fp32
  match xs with
  | [] => 0
  | x :: t =>
    if op = 1 then
      t.foldl (fun a y => if fmt = 9 then (if Bits.signed y 32 ≤ Bits.signed a 32 then a else y)
        else Num.minMaxCode f false a y) x
    else if fmt = 9 then t.foldl (fun a y => (a + y) % 2 ^ 32) x
    else
      let a := t.foldl (fun (a : XVal) y =>
        Num.decode .fp32 (Num.rnd .fp32 .rne (Num.add false a (Num.decode f y)))) (Num.decode f x)
      Num.rnd f .rne a

/-- The bytes that a member receives in one plane, from every rank's send buffer (R349, R378). -/
def collResult (x : CollDesc) (grp : FabricGroup) (bufs : List (List Byte)) : List Byte :=
  let w := x.width
  let n := grp.size
  let arrays := bufs.map List.toArray
  let buf (r : Nat) : Array Byte := arrays.getD r #[]
  let from_ (e : Nat) : List Byte :=
    if n = 1 then Bits.leBytes w (elementOf w (buf 0) e)
    else match x.op with
      | 3 => Bits.leBytes w (elementOf w (buf (e / (x.count / n))) (e % (x.count / n)))
      | 4 => Bits.leBytes w (elementOf w (buf x.root) e)
      | _ =>
        let e := if x.op = 2 then grp.rank * (x.count / n) + e else e
        Bits.leBytes w (reduceElement (if x.op = 1 then 1 else 0) x.fmt (arrays.map fun b => elementOf w b e))
  (List.range (x.received n)).flatMap from_

/-- What the members bring agrees with this member's collective (R323). -/
def partAgrees (p : MemberPart) (x : CollDesc) : Bool := p.op == x.op && p.fmt == x.fmt && p.count == x.count

/-- A member's part holds the buffers of every plane. -/
def partFull (p : MemberPart) (x : CollDesc) (n planes : Nat) : Bool :=
  decide (planes ≤ p.images.length) && p.images.all fun b => b.length == x.sent n * x.width

/-- The collective numbered `id` leaves the queue, or takes its new form. -/
def State.putColl (s : State) (c : Collective) : State :=
  { s with colls := s.colls.map fun x => if x.id = c.id then c else x }

/-- The end of a collective at this member (R349): its record has kind 5 and the software tag. -/
def endColl (s : State) (x : CollDesc) (c : Collective) : Result State :=
  let g := s.groupAt c.key
  writeRecord s g c.sample.cring c.life.noRing c.life.number (recordOf 5 x.tag c.life x.notify)
    (fun va q s => .next (s.putColl { c with life := c.life.holdRing va q }))
    fun s =>
      let s := { s with colls := s.colls.filter fun y => y.id != c.id }
      .next (endCommand s c.key c.flag true x.notify c.life.fault c.life.addr)

/-- The bytes of a buffer in one plane, at its home. -/
def bufferBytes (s : State) (die : Nat) (ps : List PagePlace) (x : Sample) (base n plane : Nat) : List Byte :=
  (List.range n).map fun o => engineByte s die ps (x.planeAddr (base + o) plane)

/-- The collective reads its send buffer, reduces or gathers, and writes its receive buffer, plane by plane (R349,
R182). -/
def runColl (s : State) (x : CollDesc) (c : Collective) (grp : FabricGroup) (others : List MemberPart) : Result State :=
  let g := s.groupAt c.key
  let n := grp.size
  let ins := x.sent n * x.width
  let outs := x.received n * x.width
  let reads := (Place.mem x.send).addrs c.sample (List.range ins)
  let writes := (Place.mem x.recv).addrs c.sample (List.range outs)
  let hold (va : Nat) (s : State) : Result State := .next (s.putColl { c with life := c.life.hold va false })
  let stop (code : BitVec 16) (va : Nat) (s : State) : Result State :=
    endColl s x { c with life := { c.life.fail code va with past := true } }
  withPages s g.teamKey g 0 false reads hold stop fun from_ s =>
    withPages s g.teamKey g 0 true writes hold stop fun to_ s =>
      match (from_ ++ to_).find? fun p => spaceOf p.pa != 0 || leafType p.leaf != 0 || decide (1 < leafClass p.leaf) with
      | some _ => stop 0x104 0 s
      | none =>
        let die := g.die
        let images := c.sample.planes.map fun k =>
          let own := bufferBytes s die from_ c.sample x.send ins k
          let parts := others.map fun p => p.images.getD k []
          collResult x grp (parts.take grp.rank ++ own :: parts.drop grp.rank)
        let s := touchReads s die from_ reads
        let s := images.zipIdx.foldl (fun s y =>
          (Place.mem x.recv).store s g.teamKey to_ c.sample y.2 (fromOffset 0 y.1)) s
        let c := { c with life := { c.life with past := true, bytes := outs * (c.sample.width + 1) } }
        endColl (s.putColl c) x c

/-- COLLECTIVE_COMPLETE (R349): with the parts of the other members in rank order; a lost member ends it with fault
0x0006, and parts that differ with 0x0008. -/
def execCollectiveComplete (id : Nat) (others : List MemberPart) (s : State) : Result State :=
  match s.colls.find? fun c => c.id == id with
  | none => .refused (.notEnabled "COLLECTIVE_COMPLETE")
  | some c =>
    let x := collDesc c.desc
    let grp : FabricGroup := ⟨c.rank, c.members⟩
    let n := grp.size
    let lost := (grp.members.filter (· != Config.deviceNumber.toNat)).any fun m => !(s.incAt m).up
    let failed (code : BitVec 16) : Result State :=
      endColl s x { c with life := { c.life.fail code 0 with past := true } }
    if c.life.wait.isSome then .refused (.notEnabled "COLLECTIVE_COMPLETE")
    else if c.life.past || c.life.fault != 0 then endColl s x c
    else if lost then failed 6
    else if others.length + 1 ≠ n then .refused (.notEnabled "COLLECTIVE_COMPLETE")
    else if others.any fun p => !partAgrees p x then failed 8
    else if others.any fun p => !partFull p x n (c.sample.width + 1) then .refused (.notEnabled "COLLECTIVE_COMPLETE")
    else runColl s x c grp others

end Sys2Proof.Machine
end

