-- ==== Sys2Proof/Machine/Gacc.lean ====
section
/-! DEFINITION. Gradient accumulation (R345, R346) and the guarded commit (R347). -/

namespace Sys2Proof.Machine

open Sys2Proof.Num (XVal)

/-- The bytes of the FP32 tile that a GACC adds to the box of a record. -/
def gaccBytes (sh : Shape) : Nat := 4 * (sh.bx 1 * sh.bx 2) * sh.bx 0

/-- The checks of GACC (R326, R345): the reasons, and the scratchpad range. -/
def gaccChecks (g : Group) (t : Team) (ring : Option Nat) (off : Word) (sh : Option Shape) : Checked :=
  let usable := match sh with
    | some x => decide (x.fmt ≤ 1)
    | none => false
  let n := match sh with
    | some x => gaccBytes x
    | none => 0
  let o := off.toNat
  checked []
    ((if usable then [] else [7])
      ++ (match ring with
        | none => if o % 256 ≠ 0 then [5] else []
        | some r => match t.ring r with
          | some x => if x.size < (g.tanw + 1) * n then [6] else []
          | none => [6]))
    (if ring.isNone && decide (t.w < o + n) then [max o t.w] else [])

/-- GACC (R345). -/
def execGacc (f : SR) (s : State) : Result State :=
  let ringed := f.fn.getLsbD 0
  scalarInstr (f.dest.toNat :: if ringed then [] else [f.src1.toNat]) s fun g =>
    let h := g.readS f.dest.toNat
    let off : Word := if ringed then 0 else ((g.readS f.src1.toNat).setWidth 32).setWidth 64
    let ring := if ringed then some f.src1.toNat else none
    sampleShape s g h fun r s =>
      let sh := shapeUsable r h false
      onChecked s (gaccChecks g (s.teamAt g.teamKey) ring off sh) fun _ =>
        let x := sampleOf s g
        let draws := match sh with
          | some y => if y.fmt = 1 ∧ !y.promote then x.drawsFor 0 (y.bx 0 * (y.bx 1 * y.bx 2)) else 0
          | none => 0
        acceptTransit s g (newTransit s g (.gacc h off.toNat ring (f.fn.getLsbD 1)) (fnFlag f.fn) r none) ring none draws

/-- One addition at the home (R266): the element's code after it. Plane 0 honours R44; a tangent rounds in RNE (R182). -/
def gaccSum (fmt : Num.Fmt) (ftz : Bool) (mode : Num.RMode) (old : Nat) (x : XVal) : Nat :=
  Num.roundTo fmt ftz .table mode
    (Num.add mode.isRdn (Num.flushIn fmt ftz (Num.decode fmt old)) (Num.flushIn .fp32 ftz x))

/-- A little-endian code of `n` bytes at a virtual address of reached pages. -/
def engineCode (s : State) (die : Nat) (ps : List PagePlace) (va n : Nat) : Nat :=
  Bits.leNat ((List.range n).map fun i => engineByte s die ps (va + i))

/-- A little-endian code written at a virtual address of reached pages, as an atomic at the home (R266, R269). -/
def putCode (s : State) (die : Nat) (ps : List PagePlace) (va n x : Nat) : State :=
  let s := (Bits.leBytes n x).zipIdx.foldl (fun s b => engineStore s die ps (va + b.2) b.1) s
  dropCopies s (reachAddr ps va).1 n

/-- The tiles of a tensor (R367). -/
def Shape.tiles (sh : Shape) : Nat := sh.nt 0 * sh.nt 1 * sh.nt 2 * sh.sz 3 * sh.sz 4

/-- The byte of the shadow's bitmap that holds a tile's bit (R346). -/
def Shape.bitmapByte (sh : Shape) (tile : Nat) : Nat := (sh.shadow + tile / 8) % 2 ^ 56

/-- The address of an element in the FP32 shadow (R346). -/
def Shape.shadowAddr (sh : Shape) (e : Nat) : Nat :=
  (sh.shadow + Bits.roundUp (Bits.ceilDiv sh.tiles 8) 4096 + 4 * e) % 2 ^ 56

/-- The in-bounds elements of a handle's box: the row-major position in the box, and the byte offset in the tensor. -/
def View.inside (v : View) : List (Nat × Nat) :=
  (List.range (v.rows * v.cols)).filterMap fun i => (v.at_ (i / v.cols) (i % v.cols)).map fun e => (i, e)

/-- PromoteTile (R346): a tile whose bit is clear is converted exactly into the shadow, and its bit is set. -/
def promoteTile (s : State) (die : Nat) (ps : List PagePlace) (sh : Shape) (h : Word) (els : List (Nat × Nat)) : State :=
  let at_ := sh.bitmapByte (sh.tileIndex h)
  let b := engineByte s die ps at_
  let bit := sh.tileIndex h % 8
  if b.getLsbD bit then s
  else
    let s := els.foldl (fun s e =>
      let x := Num.rnd .fp32 .rne (Num.decode .bf16 (engineCode s die ps (sh.base false + e.2) 2))
      putCode s die ps (sh.shadowAddr (e.2 / 2)) 4 x) s
    putCode s die ps at_ 1 (b ||| BitVec.ofNat 8 (2 ^ bit)).toNat

/-- A value is finite. -/
def finite (x : XVal) : Bool :=
  match x with
  | .fin _ _ _ => true
  | _ => false

/-- The additions to one plane: the count of absorbed ones, and the state (R345). -/
def gaccPlane (s : State) (die : Nat) (ps : List PagePlace) (c : TransitCmd) (sh : Shape) (plane : Nat)
    (els : List (Nat × Nat)) (xs : Array XVal) : Nat × State :=
  let ftz := rndFtz c.sample.rnd && plane == 0
  els.foldl (fun a e =>
    let x := xs.getD e.1 XVal.zero
    let va := c.sample.planeAddr (sh.base false + e.2) plane
    if sh.fmt = 0 then (a.1, putCode a.2 die ps va 4 (gaccSum .fp32 ftz .rne (engineCode a.2 die ps va 4) x))
    else if plane = 0 ∧ sh.promote then
      let va := sh.shadowAddr (e.2 / 2)
      (a.1, putCode a.2 die ps va 4 (gaccSum .fp32 ftz .rne (engineCode a.2 die ps va 4) x))
    else
      let old := engineCode a.2 die ps va 2
      let mode := if plane = 0 then (c.sample.rounding 0 false c.sample.counter).at_ e.1 else .rne
      let new := gaccSum .bf16 ftz mode old x
      let taken := plane == 0 && finite x && !x.isZero && finite (Num.decode .bf16 old) && new == old
      (if taken then a.1 + 1 else a.1, putCode a.2 die ps va 2 new)) (0, s)

/-- The record's counter and promote bit after a GACC (R345). -/
def gaccRecord (s : State) (die : Nat) (ps : List PagePlace) (sh : Shape) (record absorbed : Nat) : State :=
  let old := engineCode s die ps (record + 0x18) 4
  let n := min (old + absorbed) (2 ^ 32 - 1)
  if absorbed = 0 then s
  else
    let s := putCode s die ps (record + 0x18) 4 n
    if sh.acc = 2 ∧ sh.threshold < n then
      putCode s die ps (record + 23) 1 (engineByte s die ps (record + 23) ||| 4).toNat
    else s

/-- A page that GACC may act on (R345). -/
def PagePlace.gaccOk (p : PagePlace) : Bool := leafClass p.leaf == 1 && spaceOf p.pa == 0

/-- The end of a GACC: its record has kind 4, and its tag is the instruction's address (R345). -/
def endGacc (s : State) (core : Nat) (c : TransitCmd) (notify : Bool) : Result State :=
  endTransit s core c 4 c.sample.pc.toNat notify

/-- A GACC performs its additions (R345, R346). -/
def runGacc (s : State) (core : Nat) (c : TransitCmd) (h : Word) (off : Nat) (ring : Option Nat) (notify : Bool) :
    Result State :=
  let g := s.groupAt c.key
  let tk := g.teamKey
  let die := dieOfCore core
  let sh := shapeOf c.srcRec
  let v := sh.view h
  let record := shapeAddr (s.gridAt g.grid) (handleIndex h)
  let els := v.inside
  let tensor := (Place.mem (sh.base false)).addrs c.sample v.offsets
  let shadow := if sh.fmt = 1 ∧ (sh.acc = 2 ∨ sh.promote) then
      sh.bitmapByte (sh.tileIndex h) :: els.flatMap fun e => [sh.shadowAddr (e.2 / 2), sh.shadowAddr (e.2 / 2) + 3]
    else []
  let hold (va : Nat) (s : State) : Result State := .next (s.putTransit core { c with life := c.life.hold va false })
  let stop (code : BitVec 16) (va : Nat) (s : State) : Result State :=
    endGacc s core { c with life := { c.life.fail code va with past := true } } notify
  withPages s tk g sh.key true (tensor ++ shadow) hold stop fun ps s =>
    withPages s tk g 0 true [record + 0x18] hold stop fun qs s =>
      match (ps ++ qs).find? fun p => !p.gaccOk with
      | some _ => stop 0x101 0 s
      | none =>
        let pages := ps ++ qs
        let src : Place := match ring with
          | some r => .slot r (c.srcPos.getD 0) (gaccBytes sh)
          | none => .scratch off
        let tiles := src.tiles s (s.teamAt tk) [] c.sample (View.linear 0 32 v.rows v.cols (4 * v.cols))
        let s := if sh.fmt = 1 ∧ sh.promote then promoteTile s die pages sh h els else s
        let r := tiles.zipIdx.foldl (fun a t =>
          let b := gaccPlane a.2 die pages c sh t.2 els t.1.values
          (a.1 + b.1, b.2)) (0, s)
        let s := if sh.fmt = 1 then gaccRecord r.2 die pages sh record r.1 else r.2
        let wide := if sh.fmt = 0 ∨ sh.promote then 4 else 2
        let n := els.length * (wide + c.sample.width * (if sh.fmt = 0 then 4 else 2))
        let c := { c with life := { c.life with past := true, bytes := n } }
        endGacc (s.putTransit core c) core c notify

/-- GACC_COMPLETE (R345): a started GACC whose slot is full and which waits for no page. -/
def execGaccComplete (core id : Nat) (s : State) : Result State :=
  match (s.coreAt core).transit.find? fun c => c.id == id with
  | some c =>
    match c.op with
    | .gacc h off ring notify =>
      if !c.running || !c.turns (s.teamAt (s.groupAt c.key).teamKey) then .refused (.notEnabled "GACC_COMPLETE")
      else if c.life.past || c.life.fault != 0 then endGacc s core c notify
      else runGacc s core c h off ring notify
    | _ => .refused (.notEnabled "GACC_COMPLETE")
  | none => .refused (.notEnabled "GACC_COMPLETE")

/-- The record that COMMIT may flip (R347): usable, with a second bank, through a handle whose coordinates are zero. -/
def commitUsable (r : Option (BitVec 512)) (h : Word) : Bool :=
  match shapeUsable r h false with
  | some sh => sh.b1valid && h.toNat % 2 ^ 48 == 0
  | none => false

/-- The bank bit of a record at its home flips, and every cached copy of the record goes (R347). -/
def flipBank (s : State) (g : Group) (i : Nat) (ps : List Piece) : State :=
  let s := match ps with
    | p :: _ => homeWrite s g.die (p.pa + 7) p.leaf [readByte s (p.pa + 7) ^^^ 0x40]
    | [] => s
  s.modDies fun d => d.dropShape g.grid i

/-- A page that can be written but is of another class than DC stands at an address (R347). -/
def notDc (s : State) (core va n : Nat) : Bool :=
  match (checkAcc s core ⟨0, 0, va, n, .store [], true⟩).1 with
  | .ok ps => ps.any fun p => leafClass p.leaf != 1
  | _ => false

/-- COMMIT (R347): the record word's access, the completion record, then the flip. Its issue is the source of an edge (R326), so
it waits until its core's side log has drained (R271, R272), and it passes no held access to a device page (R270). -/
def execCommit (f : SR) (s : State) : Result State :=
  scalarInstr [f.dest.toNat, f.src1.toNat] s fun g =>
    let h := g.readS f.src1.toNat
    let i := handleIndex h
    sampleShape s g h fun r s =>
      if !commitUsable r h then trapDesc s 7
      else
        let va := (shapeAddr (s.gridAt g.grid) i + 8) % 2 ^ 56
        if notDc s g.core va 8 then trapMem s .prot 0 va
        else if !drained s g.core then waitIn s g (.sideLog 0 0)
        else if deviceHeld s g none va then .next s
        else scalarAccess s g va 8 (.rmw .xor 0 0) fun ps s =>
          let clean := (s.gridAt g.grid).nfcount == 0
          let body : RecordBody := ⟨g.pc.toNat, 0, if clean then 0 else 0x102, 7, false, false⟩
          writeRecord s g g.cring g.noRing g.recordNo body
            (fun va q s => .next (s.setGroup { g with wait := .ringService, waitMark := va, recordNo := q }))
            fun s =>
              let s := if clean then flipBank s g i ps else s
              let g := { g with noRing := false, recordNo := none }
              .next (s.setGroup ((g.writeS f.dest.toNat (if clean then 1 else 0)).advance 4))

end Sys2Proof.Machine
end

