-- ==== Sys2Proof/Machine/ScalarAlu.lean ====
section
/-! DEFINITION. The scalar arithmetic, shift, bit-field, compare, select and constant instructions (R112 to R120). -/

namespace Sys2Proof.Machine

/-- The modifier bits .w, .u, .sat and .hi or .rem of a function field (R112). -/
structure AluMods where
  w   : Bool
  u   : Bool
  sat : Bool
  hi  : Bool
  deriving DecidableEq, Repr

/-- The modifiers of a function value. -/
def aluMods (fn : BitVec 7) : AluMods := ⟨fn.getLsbD 0, fn.getLsbD 1, fn.getLsbD 2, fn.getLsbD 3⟩

/-- The operation width (R113). -/
def AluMods.bits (m : AluMods) : Nat := if m.w then 32 else 64

/-- A source as an integer of unbounded width (R113). -/
def AluMods.read (m : AluMods) (x : Word) : Int :=
  if m.u then ((x.toNat % 2 ^ m.bits : Nat) : Int) else Bits.signed x.toNat m.bits

/-- Saturation (R113). -/
def AluMods.clamp (m : AluMods) (t : Int) : Int :=
  if m.sat then
    if m.u then Bits.clampI t 0 (2 ^ m.bits - 1) else Bits.clampI t (-(2 ^ (m.bits - 1))) (2 ^ (m.bits - 1) - 1)
  else t

/-- A result wrapped to the width and extended to 64 bits (R113, R114). -/
def AluMods.extend (m : AluMods) (t : Int) : Word :=
  let r := Bits.wrap t m.bits
  if m.u then BitVec.ofNat 64 r else BitVec.ofInt 64 (Bits.signed r m.bits)

/-- The computation of R113 with the operation given as a function of the two integers. -/
def arith (fn : BitVec 7) (op : AluMods → Int → Int → Int) (x y : Word) : Word :=
  let m := aluMods fn
  m.extend (m.clamp (op m (m.read x) (m.read y)))

/-- An SR arithmetic instruction: S[dest] from S[src1] and S[src2]. -/
def aluSR (f : SR) (s : State) (value : Word → Word → Word) : Result State :=
  scalarSet [f.src1.toNat, f.src2.toNat] s f.dest.toNat fun g => value (g.readS f.src1.toNat) (g.readS f.src2.toNat)

/-- An SI instruction: S[dest] from S[src1] and the sign-extended immediate (R117). -/
def aluSI (f : SI) (s : State) (value : Word → Word → Word) : Result State :=
  scalarSet [f.src1.toNat] s f.dest.toNat fun g => value (g.readS f.src1.toNat) (f.imm.signExtend 64)

/-- The division of R113: by zero the quotient is −1 and the remainder a. -/
def divide (m : AluMods) (a b : Int) : Int :=
  if b = 0 then (if m.hi then a else -1) else if m.hi then Int.tmod a b else Int.tdiv a b

/-- The shifts of R114 on an operand and a count. -/
def shiftLeft (m : AluMods) (x : Word) (k : Nat) : Word := m.extend ((x.toNat % 2 ^ m.bits * 2 ^ k % 2 ^ m.bits : Nat) : Int)
/-- SHR: logical with .u, arithmetic without. -/
def shiftRight (m : AluMods) (x : Word) (k : Nat) : Word := m.extend (m.read x / 2 ^ k)
/-- ROTL. -/
def rotateLeft (m : AluMods) (x : Word) (k : Nat) : Word :=
  let a := x.toNat % 2 ^ m.bits
  m.extend (((a * 2 ^ k % 2 ^ m.bits) ||| (a / 2 ^ (m.bits - k)) : Nat) : Int)

/-- The operand of CLZ and POPC (R115). -/
def countOperand (fn : BitVec 7) (x : Word) : Nat := if fn.getLsbD 0 then x.toNat % 2 ^ 32 else x.toNat

/-- The leading zeros of an operand of n bits (R115). -/
def leadingZeros (n x : Nat) : Nat := if x = 0 then n else n - 1 - x.log2

/-- The field of BFX and BFI: position and width, the width cut at bit 63 (R116). -/
def fieldOf (x : Word) : Nat × Nat :=
  let pos := (x.extractLsb' 0 6).toNat
  let w := min 64 (x.extractLsb' 8 7).toNat
  (pos, min w (64 - pos))

/-- BFX's value (R116). -/
def bitExtract (fn : BitVec 7) (x y : Word) : Word :=
  let (pos, n) := fieldOf y
  if n = 0 then 0
  else
    let f := Bits.field x.toNat pos n
    if fn.getLsbD 1 then BitVec.ofNat 64 f else BitVec.ofInt 64 (Bits.signed f n)

/-- BFI's value: the field of the old destination replaced (R116). -/
def bitInsert (old x y : Word) : Word :=
  let (pos, n) := fieldOf y
  if n = 0 then old else Bits.splice old pos n x.toNat

/-- CMP's condition (R119): function [2:0], with .w on the low 32 bits. -/
def compare (fn : BitVec 7) (x y : Word) : Bool :=
  let n := if fn.getLsbD 3 then 32 else 64
  let ux := x.toNat % 2 ^ n
  let uy := y.toNat % 2 ^ n
  let sx := Bits.signed ux n
  let sy := Bits.signed uy n
  match (fn.extractLsb' 0 3).toNat with
  | 0 => ux == uy
  | 1 => ux != uy
  | 2 => decide (sx < sy)
  | 3 => decide (sy ≤ sx)
  | 4 => decide (ux < uy)
  | _ => decide (uy ≤ ux)

/-- A truth value as a word. -/
def boolWord (b : Bool) : Word := if b then 1 else 0

/-- ADD (R113). -/
def execAdd (f : SR) (s : State) : Result State := aluSR f s (arith f.fn fun _ a b => a + b)
/-- SUB (R113). -/
def execSub (f : SR) (s : State) : Result State := aluSR f s (arith f.fn fun _ a b => a - b)
/-- MUL (R113): .hi gives the high half of the product. -/
def execMul (f : SR) (s : State) : Result State := aluSR f s (arith f.fn fun m a b => if m.hi then a * b / 2 ^ 64 else a * b)
/-- DIV (R113). -/
def execDiv (f : SR) (s : State) : Result State := aluSR f s (arith f.fn divide)
/-- MIN (R113). -/
def execMin (f : SR) (s : State) : Result State := aluSR f s (arith f.fn fun _ a b => min a b)
/-- MAX (R113). -/
def execMax (f : SR) (s : State) : Result State := aluSR f s (arith f.fn fun _ a b => max a b)
/-- AND (R114). -/
def execAnd (f : SR) (s : State) : Result State := aluSR f s (· &&& ·)
/-- OR (R114). -/
def execOr (f : SR) (s : State) : Result State := aluSR f s (· ||| ·)
/-- XOR (R114). -/
def execXor (f : SR) (s : State) : Result State := aluSR f s (· ^^^ ·)
/-- SHL (R114): the count is modulo the width. -/
def execShl (f : SR) (s : State) : Result State :=
  let m := aluMods f.fn
  aluSR f s fun x y => shiftLeft m x (y.toNat % m.bits)
/-- SHR (R114). -/
def execShr (f : SR) (s : State) : Result State :=
  let m := aluMods f.fn
  aluSR f s fun x y => shiftRight m x (y.toNat % m.bits)
/-- ROTL (R114). -/
def execRotl (f : SR) (s : State) : Result State :=
  let m := aluMods f.fn
  aluSR f s fun x y => rotateLeft m x (y.toNat % m.bits)
/-- CLZ (R115). -/
def execClz (f : SR) (s : State) : Result State :=
  scalarSet [f.src1.toNat] s f.dest.toNat fun g =>
    BitVec.ofNat 64 (leadingZeros (if f.fn.getLsbD 0 then 32 else 64) (countOperand f.fn (g.readS f.src1.toNat)))
/-- POPC (R115). -/
def execPopc (f : SR) (s : State) : Result State :=
  scalarSet [f.src1.toNat] s f.dest.toNat fun g =>
    BitVec.ofNat 64 (Bits.popcount 64 (countOperand f.fn (g.readS f.src1.toNat)))
/-- BFX (R116). -/
def execBfx (f : SR) (s : State) : Result State := aluSR f s (bitExtract f.fn)
/-- BFI (R116): it reads its destination. -/
def execBfi (f : SR) (s : State) : Result State :=
  scalarSet [f.src1.toNat, f.src2.toNat] s f.dest.toNat fun g =>
    bitInsert (g.readS f.dest.toNat) (g.readS f.src1.toNat) (g.readS f.src2.toNat)
/-- CMP (R119). -/
def execCmp (f : SR) (s : State) : Result State := aluSR f s fun x y => boolWord (compare f.fn x y)
/-- SEL (R120): by its destination's old value, or by a flag, which it observes when it finds it clear (R129). -/
def execSel (f : SR) (s : State) : Result State :=
  scalarInstr [f.dest.toNat, f.src1.toNat, f.src2.toNat] s fun g =>
    let n := f.fn.toNat
    let first := if n = 0 then g.readS f.dest.toNat != 0 else g.flagSet (n - 8)
    let v := if first then g.readS f.src1.toNat else g.readS f.src2.toNat
    let s' := s.setGroup ((g.writeS f.dest.toNat v).advance 4)
    .next (if n ≠ 0 ∧ !first then observeClear s' else s')

/-- ADDI (R117): with f = 1 as ADD.w. -/
def execAddi (f : SI) (s : State) : Result State := aluSI f s (arith (f.f.setWidth 7) fun _ a b => a + b)
/-- ANDI (R117). -/
def execAndi (f : SI) (s : State) : Result State := aluSI f s (· &&& ·)
/-- ORI (R117). -/
def execOri (f : SI) (s : State) : Result State := aluSI f s (· ||| ·)
/-- XORI (R117). -/
def execXori (f : SI) (s : State) : Result State := aluSI f s (· ^^^ ·)
/-- SHLI (R117): with f = 1 as SHL.w. -/
def execShli (f : SI) (s : State) : Result State :=
  aluSI f s fun x _ => shiftLeft (aluMods (f.f.setWidth 7)) x f.imm.toNat
/-- SHRI (R117): with f = 1 logical. -/
def execShri (f : SI) (s : State) : Result State :=
  aluSI f s fun x _ => shiftRight ⟨false, f.f == 1, false, false⟩ x f.imm.toNat
/-- CMPI (R119): f = 0 tests equality, f = 1 signed less. -/
def execCmpi (f : SI) (s : State) : Result State :=
  aluSI f s fun x y => boolWord (compare (if f.f = 0 then 0 else 2) x y)

/-- LUI (R118). -/
def execLui (f : SU) (s : State) : Result State :=
  scalarSet [] s f.dest.toNat fun _ => f.imm.signExtend 64 <<< 12
/-- ADDPC (R118): modulo 2^56. -/
def execAddpc (f : SU) (s : State) : Result State :=
  scalarSet [] s f.dest.toNat fun g => (g.pc + (f.imm.signExtend 56 <<< 12)).setWidth 64
/-- LI (R118). -/
def execLi (f : SX) (s : State) : Result State :=
  scalarInstr [f.dest.toNat] s fun g => .next (s.setGroup ((g.writeS f.dest.toNat (f.imm.signExtend 64)).advance 8))
/-- LI.hi (R118): the low half is kept. -/
def execLiHi (f : SX) (s : State) : Result State :=
  scalarInstr [f.dest.toNat] s fun g =>
    .next (s.setGroup ((g.writeS f.dest.toNat (f.imm ++ (g.readS f.dest.toNat).setWidth 32)).advance 8))

end Sys2Proof.Machine
end

