-- ==== Sys2Proof/Machine/Control.lean ====
section
/-! DEFINITION. The control transfers, the starting of and waiting for lane programs, the completion-flag instructions
and the control and status registers of the scalar stream (R121 to R133). -/

namespace Sys2Proof.Machine

/-- The test of BR's cond field on its source (R65), flags apart. -/
def branchTest (cond : Nat) (x : Word) : Bool :=
  match cond with
  | 0 => true
  | 1 => x == 0
  | 2 => x != 0
  | 3 => x.msb
  | 4 => !x.msb
  | 5 => !x.msb && x != 0
  | _ => x.msb || x == 0

/-- The target of an SB word (R65). -/
def branchTarget (g : Group) (f : SB) : BitVec 56 := g.pc + (f.off.signExtend 56 <<< 2)

/-- The scalar stream continues at an address. -/
def Group.jump (g : Group) (pc : BitVec 56) : Group := { g with pc := pc, wait := .none }

/-- BR (R65, R121): BR.fs that falls through observes its flag clear (R129). -/
def execBr (f : SB) (s : State) : Result State :=
  scalarInstr [f.src.toNat] s fun g =>
    let c := f.cond.toNat
    let onFlag := decide (8 ≤ c)
    let taken := if onFlag then g.flagSet (c - 8) else branchTest c (g.readS f.src.toNat)
    let s' := s.setGroup (if taken then g.jump (branchTarget g f) else g.advance 4)
    .next (if onFlag && !taken then observeClear s' else s')

/-- LOOP (R122). -/
def execLoop (f : SB) (s : State) : Result State :=
  scalarInstr [f.src.toNat] s fun g =>
    let x := g.readS f.src.toNat - 1
    let g' := g.writeS f.src.toNat x
    .next (s.setGroup (if !x.msb && x != 0 then g'.jump (branchTarget g f) else g'.advance 4))

/-- JR (R123): the target is read before the link is written. -/
def execJr (f : SR) (s : State) : Result State :=
  scalarInstr [f.dest.toNat, f.src1.toNat] s fun g =>
    let target := (g.readS f.src1.toNat).setWidth 56 &&& ~~~3
    .next (s.setGroup ((g.writeS f.dest.toNat ((g.pc + 4).setWidth 64)).jump target))

/-- CALL (R124): to the scalar-code base plus the offset, with a link. -/
def execCall (f : SX) (s : State) : Result State :=
  scalarInstr [f.dest.toNat] s fun g =>
    let target := s.grid.record.scalarBase + f.imm.setWidth 56
    .next (s.setGroup ((g.writeS f.dest.toNat ((g.pc + 8).setWidth 64)).jump target))

/-- The lane enqueue queue that LRUN appends to: the handler's in handler state (R312). -/
def Group.queue (g : Group) : List Queued := if g.handler then g.handlerQ else g.laneQ

/-- LRUN (R125): a misaligned or out-of-range lane-code address traps ILLOP; a full queue stalls (R18). -/
def execLrun (f : SX) (s : State) : Result State :=
  scalarInstr [f.src1.toNat] s fun g =>
    let l := ((g.readS f.src1.toNat).setWidth 56 + f.imm.signExtend 56).toNat
    if 2 ^ 32 ≤ l ∨ l % 4 ≠ 0 then trapIllop s
    else if 4 ≤ g.queue.length then waitIn s g .laneQueue
    else
      -- the notes begin anew when no lane program could still read an older value
      let g := if g.lanesQueued then g else { g with past := [], cleared := [] }
      let q := g.queue ++ [⟨BitVec.ofNat 32 l, g.edgeHere⟩]
      .next (s.setGroup ((if g.handler then { g with handlerQ := q } else { g with laneQ := q }).advance 8))

/-- Every lane program that LSYNC waits for has stopped, and its long-latency instructions have completed (R126, R218). -/
def Group.lanesDone (g : Group) : Bool :=
  if g.handler then g.handlerQ.isEmpty && !(g.laneOps.any fun o => o.split == 4)
  else g.laneQ.isEmpty && g.laneOps.isEmpty

/-- LSYNC (R126). -/
def execLsync (_ : SR) (s : State) : Result State :=
  scalarInstr [] s fun g => if g.lanesDone then .next (s.setGroup (g.advance 4)) else waitIn s g .lsync

/-- FWAIT (R127); with a mask it observes the flags that are clear (R129). -/
def execFwait (f : SI) (s : State) : Result State :=
  scalarInstr [] s fun g =>
    if g.flagsReady f.imm (f.f == 1) then
      let s' := s.setGroup (g.advance 4)
      .next (if f.imm = 0 then s' else observeClear s')
    else waitIn s g (.flags f.imm (f.f == 1))

/-- FSET (R128). -/
def execFset (f : SI) (s : State) : Result State :=
  scalarInstr [] s fun g => .next (s.setGroup ((g.setSoft f.imm).advance 4))

/-- FCLR orders what the scalar stream has done before each clause that waits on one of its flags (R129). -/
def Group.markClear (g : Group) (mask : BitVec 12) : Group :=
  { g with cleared := ((List.range 12).filter fun n => mask.getLsbD n).foldl (fun l n => Assoc.put l n g.edgeHere) g.cleared }

/-- FCLR (R128). -/
def execFclr (f : SI) (s : State) : Result State :=
  scalarInstr [] s fun g => .next (s.setGroup (((g.clearSoft f.imm).markClear f.imm).advance 4))

/-- A role's code in ROLE (R99). -/
def Role.code (r : Role) : Nat :=
  match r with
  | .vector => 0
  | .matrix => 1
  | .copy => 2

/-- CYCLE as a core counts it (R101, assumption 59). -/
def coreCycle (s : State) (core : Nat) : Word := s.cycle + BitVec.ofNat 64 (Config.cycleSkew core % 17)

/-- CYCLE as a group reads it: on a new core not less than its old core had counted when the group was restored (R101). -/
def cycleAt (s : State) (g : Group) : Word := if (coreCycle s g.core).ult g.cycleMin then g.cycleMin else coreCycle s g.core

/-- The value of a control and status register (R99); none for a number that names no register. -/
def csrValue (s : State) (g : Group) (n : Nat) : Option Word :=
  match n with
  | 0x00 => some g.rnd
  | 0x01 => some (BitVec.ofNat 64 g.tanw)
  | 0x02 => some (g.dplane.setWidth 64)
  | 0x03 => some (g.dstride.setWidth 64)
  | 0x04 => some g.srseed
  | 0x05 => some g.cring
  | 0x06 => some (g.ulivec.setWidth 64)
  | 0x07 => some (g.savearea.setWidth 64)
  | 0x08 => some (g.prdeadline.setWidth 64)
  | 0x09 => some (g.drawid.setWidth 64)
  | 0x10 => some g.trapcause
  | 0x11 => some (g.trappc.setWidth 64)
  | 0x12 => some (g.traplanes.setWidth 64)
  | 0x13 => some g.trapaddr
  | 0x20 => some (g.gid.setWidth 64)
  | 0x21 => some (BitVec.ofNat 64 g.team)
  | 0x22 => some (BitVec.ofNat 64 g.grid)
  | 0x23 => some (BitVec.ofNat 64 g.slot)
  | 0x24 => some (BitVec.ofNat 64 g.role.code)
  | 0x28 => some (cycleAt s g)
  | 0x30 => some ((s.gridAt g.grid).nfcount.setWidth 64)
  | 0x38 => some (if g.priv then 1 else 0)
  | 0x39 => some (g.keysel.setWidth 64)
  | _ => if 0x40 ≤ n ∧ n ≤ 0x47 then some (g.readK (n - 0x40)) else none

/-- The registers of R99 marked /S. -/
def csrSystem (n : Nat) : Bool := n == 0x08 || n == 0x38 || n == 0x39

/-- K0 to K7 (R96). -/
def csrHandler (n : Nat) : Bool := 0x40 ≤ n && n ≤ 0x47

/-- The registers with a field that software writes (R99, R131). -/
def csrWritable (n : Nat) : Bool :=
  n == 0x00 || (0x02 ≤ n && n ≤ 0x06) || n == 0x08 || n == 0x09 || n == 0x11 || n == 0x39 || csrHandler n

/-- A value that the register's field map forbids (R131 step 5). -/
def csrRefuses (n : Nat) (v : Word) : Bool :=
  match n with
  | 0x00 => rndMode v == 0 || rndMode v == 7
  | 0x03 => v.extractLsb' 0 7 != 0
  | 0x05 =>
    let lg := (v.extractLsb' 0 4).toNat
    (1 ≤ lg && lg ≤ 3) || (4 ≤ lg && Bits.field v.toNat 9 47 * 512 % (32 * 2 ^ lg) != 0)
  | _ => false

/-- What a write of a CSR that lane instructions sample replaces (R43, R132). -/
def csrNote (g : Group) (n : Nat) : Group :=
  match n with
  | 0x00 => g.note (.rnd g.rnd)
  | 0x02 => g.note (.dplane g.dplane)
  | 0x03 => g.note (.dstride g.dstride)
  | 0x04 => g.note (.srseed g.srseed)
  | 0x09 => g.note (.drawid g.drawid)
  | _ => g

/-- Merge of R130: the writable fields take the new value. -/
def csrMerge (g : Group) (n : Nat) (v : Word) : Group :=
  let g := csrNote g n
  match n with
  | 0x00 => { g with rnd := v &&& 0xF }
  | 0x02 => { g with dplane := v.setWidth 56 }
  | 0x03 => { g with dstride := v.setWidth 56 }
  | 0x04 => { g with srseed := v }
  | 0x05 => { g with cring := v &&& 0x00FFFFFFFFFFFE0F }
  | 0x06 => { g with ulivec := v.setWidth 56 &&& ~~~3 }
  | 0x08 => { g with prdeadline := if (v.setWidth 32).toNat < 12500 then 12500 else v.setWidth 32 }
  | 0x09 => { g with drawid := v.setWidth 32 }
  | 0x11 => { g with trappc := v.setWidth 56 }
  | 0x39 => { g with keysel := v.setWidth 6 }
  | _ => if csrHandler n then g.writeK (n - 0x40) v else g

/-- The checks of R131, in order, before an access; `write` carries the value to be written. -/
def csrAccess (s : State) (g : Group) (n : Nat) (write : Option Word) (k : Word → Result State) : Result State :=
  match csrValue s g n with
  | none => trapIllop s
  | some old =>
    if csrSystem n && !g.priv then trapPriv s
    else if csrHandler n && !g.handler then trapPriv s
    else match write with
      | none => k old
      | some v => if !csrWritable n || csrRefuses n v then trapIllop s else k old

/-- CSRR (R130). -/
def execCsrr (f : SR) (s : State) : Result State :=
  scalarInstr [f.dest.toNat] s fun g =>
    csrAccess s g f.fn.toNat none fun old => .next (s.setGroup ((g.writeS f.dest.toNat old).advance 4))

/-- CSRW (R130). -/
def execCsrw (f : SR) (s : State) : Result State :=
  scalarInstr [f.src1.toNat] s fun g =>
    let v := g.readS f.src1.toNat
    csrAccess s g f.fn.toNat (some v) fun _ => .next (s.setGroup ((csrMerge g f.fn.toNat v).advance 4))

/-- CSRX (R130): reads and writes as one step. -/
def execCsrx (f : SR) (s : State) : Result State :=
  scalarInstr [f.dest.toNat, f.src1.toNat] s fun g =>
    let v := g.readS f.src1.toNat
    csrAccess s g f.fn.toNat (some v) fun old =>
      .next (s.setGroup (((csrMerge g f.fn.toNat v).writeS f.dest.toNat old).advance 4))

end Sys2Proof.Machine
end

