-- ==== Sys2Proof/Machine/Counters.lean ====
section
/-! DEFINITION. Counters (R381 to R391): the dependence counters with the test of the grids that they gate (R301), the
non-finite count, the performance counters and the status counters. -/

namespace Sys2Proof.Machine

/-- Dependence counter i (R382). -/
def State.depCtr (s : State) (i : Nat) : Word := Assoc.get 0 s.depCtrs i

/-- A counter that a launch record may name holds its target (R301). -/
def counterMet (s : State) (c : Option (Nat × Word)) : Bool :=
  match c with
  | none => true
  | some (i, target) => decide (target.toNat ≤ (s.depCtr i).toNat)

/-- Both counters of a grid hold their targets at once (R301, R383). -/
def countersMet (s : State) (r : Record) : Bool := counterMet s r.counterA && counterMet s r.counterB

/-- The entries of the grid queues are tested (R301): a grid whose counters hold their targets will become eligible,
whatever happens to them later. -/
def testGrids (s : State) : State :=
  { s with grids := Assoc.mapVals s.grids fun _ x =>
      if x.entered && !x.reached && countersMet s x.record then { x with reached := true } else x }

/-- A status counter's value (R387): 16 and 17 are occupancies. -/
def statusValue (s : State) (g : Group) (i : Nat) : Word :=
  let d := s.dieAt g.die
  if i < 9 then (Assoc.get 0 d.status i).setWidth 64
  else if i = 16 then BitVec.ofNat 64 (s.coreAt g.core).sideLog.length
  else if i = 17 then BitVec.ofNat 64 d.faults.length
  else 0

/-- A performance counter of a core. -/
def State.perfAt (s : State) (core i : Nat) : Perf := Assoc.get Perf.reset (s.coreAt core).perf i

/-- The classes of R388. -/
inductive CtrClass where
  | dep | nf | perf | stat
  deriving DecidableEq, Repr

/-- The class of a function field (R388). -/
def ctrClass (fn : BitVec 7) : CtrClass :=
  match fn.toNat % 4 with
  | 0 => .dep
  | 1 => .nf
  | 2 => .perf
  | _ => .stat

/-- The index of a class is beyond its counters; a writer's .stat index must be below 9 (R390). -/
def ctrBeyond (c : CtrClass) (write : Bool) (i : Nat) : Bool :=
  match c with
  | .dep => decide (256 ≤ i)
  | .nf => i != 0
  | .perf => decide (8 ≤ i)
  | .stat => decide ((if write then 9 else 32) ≤ i)

/-- A counter's value (R389). -/
def ctrRead (s : State) (g : Group) (c : CtrClass) (i : Nat) : Word :=
  match c with
  | .dep => s.depCtr i
  | .nf => (s.gridAt g.grid).nfcount.setWidth 64
  | .perf => (s.perfAt g.core i).count
  | .stat => statusValue s g i

/-- A counter takes a value (R389); an update of a dependence counter tests the waiting grids. -/
def ctrWrite (s : State) (g : Group) (c : CtrClass) (i : Nat) (v : Word) : State :=
  match c with
  | .dep => testGrids { s with depCtrs := Assoc.set 0 s.depCtrs i v }
  | .nf => s.modGrid g.grid fun x => { x with nfcount := v.setWidth 32 }
  | .perf =>
    let k := s.coreAt g.core
    s.putCore g.core { k with perf := Assoc.set Perf.reset k.perf i { s.perfAt g.core i with count := v } }
  | .stat =>
    let d := s.dieAt g.die
    s.putDie g.die { d with status := Assoc.set 0 d.status i (v.setWidth 32) }

/-- The sum that CADD leaves (R389). -/
def ctrAdd (c : CtrClass) (old x : Word) : Word :=
  match c with
  | .dep | .perf => old + x
  | _ => BitVec.ofInt 64 (Bits.clampI ((old.toNat : Int) + x.toInt) 0 (2 ^ 32 - 1))

/-- The form of CSET, CADD and CRD (R389, R390): the checks in order, a release's wait, the one atomic step, and an
acquire's edge. `update` gives the new value from the old one. -/
def ctrInstr (f : SR) (write : Bool) (update : CtrClass → Group → Word → Word) (s : State) : Result State :=
  scalarInstr [f.dest.toNat, f.src1.toNat, f.src2.toNat] s fun g =>
    let c := ctrClass f.fn
    let i := (g.readS f.src1.toNat).toNat
    let attr := f.fn.getLsbD 2
    if write && c == .stat && !g.priv then trapPriv s
    else if ctrBeyond c write i then trapDesc s 4
    else if write && attr && !drained s g.core then waitIn s g (.sideLog 0 0)
    else
      let old := ctrRead s g c i
      let s := if write then ctrWrite s g c i (update c g old) else s
      let s := s.setGroup ((g.writeS f.dest.toNat old).advance 4)
      .next (if attr && !write then invalidateL1 s g.core else s)

/-- CSET (R389). -/
def execCset (f : SR) (s : State) : Result State := ctrInstr f true (fun _ g _ => g.readS f.src2.toNat) s

/-- CADD (R389). -/
def execCadd (f : SR) (s : State) : Result State := ctrInstr f true (fun c g old => ctrAdd c old (g.readS f.src2.toNat)) s

/-- CRD (R389). -/
def execCrd (f : SR) (s : State) : Result State := ctrInstr f false (fun _ _ old => old) s

/-- PCFG (R391): the event is counted from 16 cc after the issue. -/
def execPcfg (f : SR) (s : State) : Result State :=
  scalarInstr [f.src1.toNat, f.src2.toNat] s fun g =>
    let i := (g.readS f.src1.toNat).toNat
    let v := (g.readS f.src2.toNat).toNat
    if 2 ^ 9 ≤ v ∨ 11 ≤ v % 256 then trapDesc s 1
    else if 8 ≤ i then trapDesc s 4
    else
      let c := s.coreAt g.core
      let p : Perf := ⟨v % 256, Bits.bit v 8, g.grid, 0, s.cycle.toNat + 16⟩
      .next ((s.putCore g.core { c with perf := Assoc.set Perf.reset c.perf i p }).setGroup (g.advance 4))

end Sys2Proof.Machine
end

