-- ==== Sys2Proof/Machine/Groups.lean ====
section
/-! DEFINITION. Slots and granules of a core (R27, R102, R305), the claimants of a slot (R28), the parking of a
continuation (R27), the creation of children (R90, R100, R330), and the retirement of groups and teams (R26, R334). -/

namespace Sys2Proof.Machine

/-- Slots of a core. -/
def slotCount : Nat := 48

/-- Granules of a core (R102). -/
def granuleCount : Nat := 256

/-- The granules that a group of allocation G takes at tangent width T (R102). -/
def granulesFor (width alloc : Nat) : Nat := (width + 1) * alloc / 16

/-- The granules of a group's registers. -/
def Group.granules (g : Group) : Nat := granulesFor g.tanw g.alloc

/-- A group holds a slot (R27). -/
def Group.hasSlot (g : Group) : Bool := g.status == .running

/-- A group holds its granules (R108, R227, R306): a pending child has none yet, an evicted continuation none any more,
and a saved team none. -/
def Group.holdsGranules (s : State) (g : Group) : Bool :=
  g.status != .pending && !(g.status == .parked && g.evicted) && (s.teamAt g.teamKey).saved.isNone

/-- The lowest free slot of a core. -/
def freeSlot (s : State) (core : Nat) : Option Nat :=
  let used := ((s.coreGroups core).filter fun p => p.2.hasSlot).map fun p => p.2.slot
  (List.range slotCount).find? fun n => !used.contains n

/-- The number of free slots of a core. -/
def freeSlots (s : State) (core : Nat) : Nat := slotCount - ((s.coreGroups core).filter fun p => p.2.hasSlot).length

/-- The granules of a core that no group holds. -/
def freeGranules (s : State) (core : Nat) : Nat :=
  granuleCount - ((s.coreGroups core).foldl (fun n p => if p.2.holdsGranules s then n + p.2.granules else n) 0)

/-- A group takes a slot of its core. -/
def Group.take (g : Group) (slot : Nat) : Group := { g with slot := slot, status := .running, age := 0 }

/-- A group can take a slot with the granules that it lacks (R28, R305). -/
def canTake (s : State) (core : Nat) (g : Group) : Bool :=
  (freeSlot s core).isSome && (g.holdsGranules s || decide (g.granules ≤ freeGranules s core))

/-- The parked continuations of a core, the longest-parked first (R28); ties go to the lower key. -/
def parkedOf (s : State) (core : Nat) : List Nat :=
  let l := ((s.coreGroups core).filter fun p => p.2.status == .parked).map fun p =>
    ((match p.2.frame with | some f => f.stamp | none => 0), p.1)
  (l.foldl (fun m x => Assoc.put m (x.1 * 2 ^ 64 + x.2) x.2) ([] : List (Nat × Nat))).map (·.2)

/-- The pending children of a core: the oldest frame first, then the lower owner GID, then in spawn order (R28). -/
def pendingOf (s : State) (core : Nat) : List Nat :=
  let here := (s.coreGroups core).filter fun p => (s.teamAt p.2.teamKey).saved.isNone
  let owners := here.filterMap fun p => p.2.frame.map fun f => ((f.born * 2 ^ 32 + p.2.gid.toNat) * 2 ^ 128 + p.1, f.pending)
  ((owners.foldl (fun m x => Assoc.put m x.1 x.2) ([] : List (Nat × List Nat))).map (·.2)).flatten

/-- The team of a group is saved, or leaves its core on a request (R226, R227): its continuations and pending children are
saved with it and take no slot. -/
def leaving (s : State) (k : Nat) : Bool :=
  let t := s.teamAt (s.groupAt k).teamKey
  t.saved.isSome || t.request.isSome

/-- The pending children of a core whose teams stay. -/
def waitingChildren (s : State) (core : Nat) : List Nat := (pendingOf s core).filter fun k => !leaving s k

/-- The parked continuations of a core whose teams stay and whose children have all retired (R28, class 1). -/
def doneParents (s : State) (core : Nat) : List Nat :=
  (parkedOf s core).filter fun k => (s.groupAt k).children == 0 && !leaving s k

/-- The scalar stream stands in AWAIT, or in EXIT's (R27, R334). -/
def Group.inAwait (g : Group) : Bool := g.wait == .await || g.wait == .exit

/-- The other parked continuations whose teams stay (R28, class 3); one in AWAIT gives its slot up while a child of the core is
pending (R27). -/
def otherParents (s : State) (core : Nat) : List Nat :=
  (parkedOf s core).filter fun k =>
    (s.groupAt k).children != 0 && !leaving s k && !((s.groupAt k).inAwait && !(waitingChildren s core).isEmpty)

/-- The claimants of a slot of a core in the order of R28. -/
def claimants (s : State) (core : Nat) : List Nat :=
  doneParents s core ++ waitingChildren s core ++ otherParents s core

/-- The claimant that takes a free slot of a core now, if one can (R28, R305). -/
def nextClaimant (s : State) (core : Nat) : Option Nat := (claimants s core).find? fun k => canTake s core (s.groupAt k)

/-- The free slots and granules of a core that some claimants leave, when each that can takes its own in turn (R305). -/
def roomAfter (s : State) (core : Nat) (l : List Nat) : Nat × Nat :=
  l.foldl (fun r k =>
    let g := s.groupAt k
    let n := if g.holdsGranules s then 0 else g.granules
    if 0 < r.1 ∧ n ≤ r.2 then (r.1 - 1, r.2 - n) else r) (freeSlots s core, freeGranules s core)

/-- A pending child leaves its parent's list. -/
def unpend (s : State) (k : Nat) : State :=
  { s with groups := Assoc.mapVals s.groups fun _ g =>
      match g.frame with
      | some f => if f.pending.contains k then { g with frame := some { f with pending := f.pending.filter (· != k) } } else g
      | none => g }

/-- A group takes a free slot of its core, if there is one: the lowest, which the spec leaves open (assumption 35). -/
def takeSlot (s : State) (k : Nat) : State :=
  match freeSlot s (s.groupAt k).core with
  | some n => (unpend s k).modGroup k (·.take n)
  | none => s

/-- The group with key `k` is parked (R27): its slot frees and its registers stay in its granules. -/
def parkGroup (s : State) (k : Nat) : State :=
  let g := s.groupAt k
  (s.modGroup k fun g => { g with
    status := .parked
    frame := some { g.frameOr s.cycle.toNat with stamp := s.cycle.toNat } }).perfEvent g.core 9 g.grid 1

/-- A new child of a group (R90, R99, R100, R330). -/
def newChild (s : State) (g : Group) (serial index : Nat) (arg : Word) (entry : BitVec 56) : Group :=
  let base := { Group.blank with
    grid := g.grid
    gid := BitVec.ofNat 32 serial
    serial := serial
    team := g.team
    role := g.role
    child := true
    parent := some g.key
    launchIdx := index
    core := g.core
    status := .pending
    priv := g.priv
    pc := entry
    rnd := g.rnd
    tanw := (s.gridAt g.grid).record.width
    dplane := g.dplane
    dstride := g.dstride
    srseed := g.srseed
    cring := g.cring
    ulivec := g.ulivec
    savearea := g.savearea
    drawid := BitVec.ofNat 32 serial
    alloc := g.alloc
    placedAt := s.stamp }
  ((base.writeS 1 arg).writeS 2 (BitVec.ofNat 64 index)).writeS 3 (g.readS 3)

/-- One child of the group with key `k` is created (R27, R330): it takes a free slot and its granules where the claimants
leave them (R305), or stands pending in its parent's frame. -/
def addChild (s : State) (k index : Nat) (arg : Word) (entry : BitVec 56) : State :=
  let s := s.withFrame k
  let g := s.groupAt k
  let c := newChild s g (s.gridAt g.grid).children index arg entry
  let room := roomAfter s g.core (claimants s g.core)
  let s := s.modGrid g.grid fun x => { x with children := x.children + 1 }
  let s := s.modGroup k (·.addChildren s.cycle.toNat 1 false)
  let s := { s.putGroup c.key c with stamp := s.stamp + 1 }
  if 0 < room.1 ∧ c.granules ≤ room.2 then takeSlot s c.key
  else s.modGroup k fun g => { g with frame := some { g.frameOr s.cycle.toNat with pending := (g.frameOr s.cycle.toNat).pending ++ [c.key] } }

/-- A group's children from number `first` on have been created: when one of them is pending, the group is parked and its slot
passes to its first pending child, if the granules that the claimants before it leave cover the child (R27, R305;
assumption 79). -/
def settleSpawn (s : State) (k first : Nat) : State :=
  match (s.groupAt k).frame with
  | none => s
  | some f =>
    match f.pending with
    | [] => s
    | c :: _ =>
      if !(f.pending.any fun x => keyOf (s.groupAt k).grid first ≤ x) then s
      else
        let g := s.groupAt k
        let x := s.groupAt c
        let room := roomAfter s g.core ((claimants s g.core).takeWhile (· != c))
        let s := parkGroup s k
        if x.granules ≤ room.2 then (unpend s c).modGroup c (·.take g.slot) else s

/-- Children created in order, by index and argument. -/
def addChildren (s : State) (k : Nat) (entry : BitVec 56) (l : List (Nat × Word)) : State :=
  settleSpawn (l.foldl (fun s c => addChild s k c.1 c.2 entry) s) k (s.gridAt (s.groupAt k).grid).children

/-- AWAIT and step 3 of EXIT (R27, R333, R334): with no child left the off-core bit clears, after the edge's sink cost;
otherwise the group waits, parked while a pending child of its core lacks a slot or granules. -/
def awaitChildren (s : State) (g : Group) (w : Wait) (done : State → Group → Result State) : Result State :=
  if g.children = 0 then
    match g.frame with
    | none => done s g
    | some f =>
      let g := { g with frame := some { f with offcore := false } }
      done (if f.offcore then invalidateL1 s g.core else s) g
  else if waitingChildren s g.core = [] then waitIn s g w
  else .next (parkGroup (s.setGroup { g with wait := w }) g.key)

/-- The groups that LAUNCH placed for a team and that have not exited: the participants of its barrier (R336). -/
def participants (s : State) (tk : Nat) : List (Nat × Group) := (s.teamGroups tk).filter fun p => !p.2.child

/-- A group retires (R334): its parent's frame counts one child less and takes its off-core bit, and the last group of a
team retires the team. -/
def retireGroup (s : State) (g : Group) : State :=
  let off := match g.frame with
    | some f => f.offcore
    | none => false
  let s := match g.parent with
    | some p => s.modGroup p (·.childDone off)
    | none => s
  let s := { s with groups := Assoc.erase s.groups g.key }
  if (s.teamGroups g.teamKey).isEmpty then
    let s := { s with teams := Assoc.erase s.teams g.teamKey }
    s.modGrid g.grid fun x => { x with retired := x.retired + 1 }
  else s

/-- An engine child of the group in the transit or the collective queue has not completed (R30, R334 step 2). -/
def Group.enginesOut (s : State) (g : Group) : Bool :=
  s.cores.any (fun c => c.2.transit.any (·.key == g.key)) || s.colls.any (·.key == g.key)

/-- An operation that the group issued, beside its engine children, has not completed (R334 step 2). -/
def Group.busy (s : State) (g : Group) : Bool :=
  let t := s.teamAt g.teamKey
  let c := s.coreAt g.core
  !g.scalarOps.isEmpty || t.engine.queue.any (·.key == g.key) || t.ringOps.any (·.key == g.key)
    || c.strmQ.any (·.key == g.key) || c.strm.any (·.key == g.key) || c.strmDone.any (·.key == g.key)
    || t.strmDone.any (·.key == g.key)

end Sys2Proof.Machine
end

