-- ==== Sys2Proof/Machine/Ready.lean ====
section
/-! DEFINITION. When a waiting scalar stream can go on (R109, R308), and the candidates of a quadrant. -/

namespace Sys2Proof.Machine

/-- The slots that RWAIT counts (R338): the next pops whose turn has come, or the next pushes, up to the ring's slots. -/
def Ring.count (x : Ring) (push : Bool) : Nat :=
  ((List.range x.slots).takeWhile fun i => if push then x.pushTurn (x.p + i) else x.popTurn (x.c + i)).length

/-- Grids of a die's queue that await the first placement of a team (R300). -/
def gridsWaiting (s : State) (die : Nat) : Nat :=
  (s.grids.filter fun p => p.2.die == die && decide (p.2.nextTeam < p.2.record.teams)).length

/-- The die whose queue a grid enters (R300). -/
def queueDie (dies issuer : Nat) : Nat :=
  if Bits.bit dies issuer then issuer else ((List.range 4).find? fun d => Bits.bit dies d).getD issuer

/-- Every participant of the team's barrier has arrived at the generation that a group waits for (R336). -/
def barrierMet (s : State) (g : Group) : Bool :=
  (participants s g.teamKey).all fun p => decide (g.barrier < p.2.barrier) || (p.2.barrier == g.barrier && p.2.arrived)

/-- AWAIT can complete, or its group must give up its slot (R27, R333). -/
def awaitOver (s : State) (g : Group) : Bool := g.children == 0 || !(waitingChildren s g.core).isEmpty

/-- What EXIT waits for (R334 steps 1, 2 and 4) has come about, or its group must give up its slot at step 3. -/
def exitReady (s : State) (g : Group) : Bool :=
  g.lanesDone && !g.busy s && !g.enginesOut s && awaitOver s g && (g.children != 0 || !accessesOut s g.key)

/-- A checkpoint or restore in firmware mode holds launches (R403). -/
def launchHeld (s : State) : Bool := s.ctl.ckpt && !s.ctl.init.getLsbD 5

/-- A waiting instruction of a scalar stream can go on, or is worth issuing again (R109, R308). -/
def waitOver (s : State) (g : Group) : Bool :=
  match g.wait with
  | .none => true
  | .sideLog va n => if n = 0 then drained s g.core else !sideTouches s g.core va n
  | .logRoom | .dispatch => false
  | .flags mask any => g.flagsReady mask any
  | .lsync => g.lanesDone
  | .laneQueue => decide (g.queue.length < 4)
  | .matrixQueue => decide ((s.teamAt g.teamKey).engine.queue.length < 16)
  | .msync => !((s.teamAt g.teamKey).engine.queue.any fun c => c.key == g.key)
  | .await => awaitOver s g
  | .waita => !accessesOut s g.key
  | .barrier => barrierMet s g
  | .ring r push => match (s.teamAt g.teamKey).ring r with
    | some x => x.count push != 0
    | none => true
  | .transitQueue => decide ((s.coreAt g.core).transit.length < 32)
  | .strmQueue => decide ((s.coreAt g.core).strmQ.length < 4)
  | .collQueue => decide (s.colls.length < 64)
  | .gridQueue die => decide (gridsWaiting s die < 64) && !launchHeld s
  | .frameCount => decide (g.children < 65535)
  | .exit => exitReady s g
  | .handlerLanes => !g.hsplit.valid && g.handlerQ == []
  | .service | .ringService | .fetch => false
  | .flagLimit n => decide (g.flagCnt n < 64)
  | .yield => g.hold.isEmpty
  | .keyFlight => match Assoc.find? s.keys g.keysel.toNat with
    | some k => k.flight == 0
    | none => true

/-- A scalar stream can go on as far as its state says: an instruction that its page service has let go on completes before a
trap or an interrupt (R109, R292). -/
def scalarStands (s : State) (g : Group) : Bool :=
  g.status == .running && g.hold.isEmpty && (g.mustComplete || (!g.boundaryPending && !g.interruptReady)) && waitOver s g

/-- A scalar stream is a candidate (R308): it can go on, holds its next instruction fetched, and no result holds that. -/
def scalarReady (s : State) (key : Nat) : Bool :=
  match Assoc.find? s.groups key with
  | none => false
  | some g =>
    let f := scalarFetch s g
    scalarStands s g && f.ended
      && (match f.scalar with
          | some i => !g.heldS (scalarRegs i)
          | none => true)

/-- The scalar candidates of a core's quadrant (R308). -/
def scalarCandidates (s : State) (core quadrant : Nat) : List Stream :=
  (s.groups.filter fun p => p.2.core == core && p.2.slot % 4 == quadrant && scalarReady s p.1).map fun p => ⟨p.1, none⟩

end Sys2Proof.Machine
end

