-- ==== Sys2Proof/Machine/Launch.lean ====
section
/-! DEFINITION. Launching, spawning and joining (R325 to R336): the launch record with its checks (R327, R328), LAUNCH,
SPAWN, SPAWNL, AWAIT, EXIT, YIELD and TBAR. -/

namespace Sys2Proof.Machine

/-- A field of a launch record: `n` bytes at an offset. -/
def recField (bs : List Byte) (off n : Nat) : Nat := Bits.leNat ((bs.drop off).take n)

/-- A dependence counter that a record names (R327). -/
def recCounter (bs : List Byte) (off target : Nat) : Option (Nat × Word) :=
  let c := recField bs off 2
  if Bits.bit c 15 then some (c % 256, BitVec.ofNat 64 (recField bs target 8)) else none

/-- The ring fields of a record: slots and slot bytes, for each of the 16 rings (R327). -/
def recRings (bs : List Byte) : List (Nat × Nat) :=
  (List.range 16).map fun r => (recField bs (0xC0 + 4 * r) 1, recField bs (0xC2 + 4 * r) 2 * 256)

/-- The compressed regions of a record: first tile and tile count (R327). -/
def recRegions (bs : List Byte) : List (Nat × Nat) :=
  ((List.range 4).map fun i => (recField bs (0xB0 + 4 * i) 2, recField bs (0xB2 + 4 * i) 2)).filter fun r => r.2 != 0

/-- The save area of a team (R229, R328): with g = f = 2 × g_max, g_max eviction entries, and every record sized for the
largest allocation. -/
def saveSize (width gmax alloc w tiles : Nat) : Nat :=
  let entry := (width + 1) * 160 * alloc
  let g := 2 * gmax
  Bits.roundUp (0x1000 + Bits.roundUp (gmax * entry) 4096 + g * (4096 + Bits.roundUp entry 4096) + g * 8192
    + (width + 1) * w + tiles * (width + 1) * 65536 + ((width + 1) * 48 * 1024 + 16 * 1024)) 4096

/-- The launch record that 256 bytes hold (R327). -/
def recordOfBytes (bs : List Byte) : Record :=
  let f (off n : Nat) : Nat := recField bs off n
  let width := f 0x43 1
  let w := Bits.roundUp (f 0x50 4) 4096
  let budgets := [f 0x44 2, f 0x46 2, f 0x48 2]
  let allocs := (budgets.filter (· != 0)).map fun b => Bits.roundUp b 16
  let most := allocs.foldl max 0
  let least := allocs.foldl min most
  { scalarBase := BitVec.ofNat 56 (f 0x08 8)
    laneBase := BitVec.ofNat 56 (f 0x10 8)
    shapeBase := BitVec.ofNat 56 (f 0x18 8)
    shapes := f 0x20 4
    entry := f 0x24 4
    trapVec := f 0x28 4
    teams := f 0x2C 4
    arg := BitVec.ofNat 64 (f 0x30 8)
    seed := BitVec.ofNat 64 (f 0x38 8)
    groups := f 0x40 1
    copies := f 0x41 1
    matrices := f 0x42 1
    width := width
    vecBudget := f 0x44 2
    matBudget := f 0x46 2
    copyBudget := f 0x48 2
    tiles := f 0x4A 1
    priority := f 0x4B 1 % 4
    system := Bits.bit (f 0x4B 1) 2
    dies := f 0x4C 1 % 16
    scratch := w
    counterA := recCounter bs 0x54 0x58
    counterB := recCounter bs 0x56 0x60
    rnd := BitVec.ofNat 64 (f 0x68 8)
    dplane := BitVec.ofNat 56 (f 0x70 8)
    dstride := BitVec.ofNat 56 (f 0x78 8)
    srseed := BitVec.ofNat 64 (f 0x80 8)
    cring := BitVec.ofNat 64 (f 0x88 8)
    ulivec := BitVec.ofNat 56 (f 0x90 8)
    savePool := BitVec.ofNat 56 (f 0x98 8)
    saveBytes := saveSize width (granuleCount / max 1 (granulesFor width least)) most w (f 0x4A 1)
    status := BitVec.ofNat 56 (f 0xA8 8)
    regions := recRegions bs
    rings := ((List.range 16).zip (recRings bs)).filterMap fun r => if r.2.1 = 0 then none else some (r.1, r.2.1 + 32 * r.2.2) }

/-- The vector groups of a team (R327). -/
def Record.vectors (r : Record) : Nat := r.groups - r.copies - r.matrices

/-- The allocation of a budget (R102). -/
def allocOf (budget : Nat) : Nat := Bits.roundUp budget 16

/-- The granules that a team's declared groups need (R102). -/
def Record.granules (r : Record) : Nat :=
  r.vectors * granulesFor r.width (allocOf r.vecBudget) + r.matrices * granulesFor r.width (allocOf r.matBudget)
    + r.copies * granulesFor r.width (allocOf r.copyBudget)

/-- Slots and slot bytes of a listed ring. -/
def ringShape (x : Nat) : Nat × Nat := (x % 32, x / 32)

/-- The SRAM that a team needs: its scratchpad and its rings (R303, R313). -/
def Record.sram (r : Record) : Nat :=
  (r.width + 1) * r.scratch + (r.rings.map fun x => (ringShape x.2).1 * (ringShape x.2).2).foldl (· + ·) 0

/-- The cores of a die set, without the dispatcher's (R32, R303). -/
def dieSetCores (dies : Nat) : List Nat := (List.range 768).filter fun c => Bits.bit dies (dieOfCore c) && c != 0

/-- The reasons of R328 for which a record is rejected, the first of which counts: after a link's failure every launch is rejected
with 14 (R402). -/
def launchReasons (s : State) (bs : List Byte) (user : Bool) (priority : Nat) : List Nat :=
  let f (off n : Nat) : Nat := recField bs off n
  let r := recordOfBytes bs
  let rings := recRings bs
  let bad (n : Nat) (b : Bool) : List Nat := if b then [n] else []
  let wide (off : Nat) : Bool := decide (2 ^ 56 ≤ f off 8)
  let budget (count b : Nat) : Bool := if count = 0 then b != 0 else b == 0 || decide (384 < b)
  let csr (n off : Nat) : Bool := csrRefuses n (BitVec.ofNat 64 (f off 8))
  bad 14 s.ctl.fatal
  ++ bad 1 (f 0 4 != 1 || f 4 4 != 0 || decide (8 ≤ f 0x4B 1) || decide (16 ≤ f 0x4C 1) || f 0x4D 3 != 0
    || f 0x54 2 / 256 % 128 != 0 || f 0x56 2 / 256 % 128 != 0
    || (List.range 16).any fun i => f (0xC1 + 4 * i) 1 != 0)
  ++ bad 2 (r.groups == 0 || decide (32 < r.groups) || decide (4 < r.copies) || decide (1 < r.matrices)
    || decide (r.groups < r.copies + r.matrices))
  ++ bad 3 (budget r.vectors r.vecBudget || budget r.matrices r.matBudget || budget r.copies r.copyBudget)
  ++ bad 4 (!([0, 1, 2, 4].contains r.width))
  ++ bad 5 (decide (4 < (r.width + 1) * r.tiles))
  ++ bad 6 (decide (granuleCount < r.granules) || decide (480 * 1024 < r.scratch)
    || r.dies != 0 && !((dieSetCores r.dies).any fun c => decide (r.sram + 32 * 1024 ≤ coreSram s c)))
  ++ bad 7 (r.dies == 0 || (user && (decide (priority < r.priority) || r.system)))
  ++ bad 8 (f 8 8 % 4096 != 0 || f 0x10 8 % 4096 != 0 || f 0x18 8 % 64 != 0 || r.entry % 4 != 0 || r.trapVec % 4 != 0
    || decide (65536 < r.shapes) || r.teams == 0 || decide (2 ^ 24 < r.teams))
  ++ bad 9 (rings.any fun x => if x.1 = 0 then x.2 != 0 else x.1 == 1 || decide (16 < x.1) || x.2 == 0 || decide (65536 < x.2))
  ++ bad 10 (r.regions.any (fun x => decide (r.scratch < (x.1 + x.2) * 4096)) ||
    (r.regions.zipIdx.any fun x => r.regions.zipIdx.any fun y => x.2 != y.2 && overlap x.1.1 x.1.2 y.1.1 y.1.2))
  ++ bad 11 (decide (16 ≤ f 0x68 8) || csr 0 0x68 || wide 0x70 || wide 0x78 || csr 3 0x78 || wide 0x88
    || Bits.field (f 0x88 8) 4 5 != 0 || csr 5 0x88 || wide 0x90 || f 0x90 8 % 4 != 0)
  ++ bad 12 (f 0x98 8 % 4096 != 0 || decide (f 0xA0 8 < r.teams * r.saveBytes))
  ++ bad 13 (f 0xA8 8 % 8 != 0)

/-- The number that the next grid gets: the first from `nextGrid` on, modulo 2^32, that no live grid has (R99, R100). -/
def State.freeGrid (s : State) : Nat :=
  (((List.range (s.grids.length + 1)).map fun i => (s.nextGrid + i) % 2 ^ 32).find? fun n =>
    !(s.grids.any fun p => p.1 == n)).getD (s.nextGrid % 2 ^ 32)

/-- A new grid enters the device (R300, R328): it will enter the queue of its die. -/
def createGrid (s : State) (r : Record) (launcher : Option Nat) (die : Nat) : State :=
  let x := Grid.ofRecord r launcher (queueDie r.dies die) s.stamp
  { s.putGrid s.freeGrid x with nextGrid := s.freeGrid + 1, stamp := s.stamp + 1 }

/-- LAUNCH, SPAWN, AWAIT, EXIT, YIELD and TBAR trap ILLOP in handler state (R218, R326). -/
def plainInstr (regs : List Nat) (s : State) (body : Group → Result State) : Result State :=
  scalarInstr regs s fun g => if g.handler then trapIllop s else body g

/-- LAUNCH (R328). -/
def execLaunch (f : SR) (s : State) : Result State :=
  plainInstr [f.dest.toNat, f.src1.toNat] s fun g =>
    readStruct s g (g.addr f.src1.toNat) 256 64 fun bs s =>
      match launchReasons s bs (!g.priv) (s.gridAt g.grid).priority with
      | reason :: _ => .next (s.setGroup ((g.writeS f.dest.toNat (BitVec.ofNat 64 (2 ^ 63 + reason))).advance 4))
      | [] =>
        let r := recordOfBytes bs
        if 64 ≤ gridsWaiting s (queueDie r.dies g.die) ∨ launchHeld s then waitIn s g (.gridQueue (queueDie r.dies g.die))
        else if 65535 ≤ g.children then waitIn s g .frameCount
        else if !drained s g.core then waitIn s g (.sideLog 0 0)
        else
          let n := s.freeGrid
          let s := s.withFrame g.key
          let g := ({ g with frame := (s.groupAt g.key).frame }.addChildren s.cycle.toNat 1 true).writeS f.dest.toNat (BitVec.ofNat 64 n)
          .next ((createGrid s r (some g.key) g.die).setGroup (g.advance 4))

/-- SPAWN (R330). -/
def execSpawn (f : SX) (s : State) : Result State :=
  plainInstr [f.src1.toNat] s fun g =>
    let n := f.fn.toNat % 16 + 1
    let entry := (s.gridAt g.grid).record.scalarBase + f.imm.setWidth 56
    if 65535 < g.children + n then waitIn s g .frameCount
    else
      let arg := g.readS f.src1.toNat
      .next (addChildren (s.setGroup (g.advance 8)) g.key entry ((List.range n).map fun i => (i, arg)))

/-- SPAWNL (R331): its flag is set at issue and clears once every child has been created, which is within the step. A register of
its beyond the allocation traps REGRANGE before the handler state and the offset make it ILLOP (assumption 88, DEDUCED). -/
def execSpawnl (w : LaneWord) (s : State) : Result State :=
  longInstr (.spawnl w) w false none s fun c =>
    let off := (c.operand w.srcB 0).toNat
    let l := Bits.lanesOf c.act
    let a := w.srcA.toNat
    if c.g.handler ∨ off % 4 ≠ 0 then trapIllop s
    else if 65535 < c.g.children + l.length then .next s
    else
      let arg (n : Nat) : Word := Bits.lane (c.g.readV 0 (a + 1)) n ++ Bits.lane (c.g.readV 0 a) n
      let entry := c.grid.record.scalarBase + BitVec.ofNat 56 off
      .next (addChildren (finishLane s c.g c.i) c.g.key entry (l.map fun n => (n, arg n)))

/-- AWAIT (R333). -/
def execAwait (_ : SR) (s : State) : Result State :=
  plainInstr [] s fun g => awaitChildren s g .await fun s g => .next (s.setGroup (g.advance 4))

/-- EXIT (R334). -/
def execExit (_ : SR) (s : State) : Result State :=
  plainInstr [] s fun g =>
    if !g.lanesDone || g.busy s || g.enginesOut s then waitIn s g .exit
    else awaitChildren s g .exit fun s g' => if accessesOut s g'.key then waitIn s g' .exit else .next (retireGroup s g)

/-- YIELD (R335). -/
def execYield (_ : SR) (s : State) : Result State :=
  plainInstr [] s fun g =>
    .next (s.setGroup { g.advance 4 with hold := quadrantRivals s g none, age := 0 })

/-- TBAR (R336): a participant arrives once at each generation, and goes on when every other has. -/
def execTbar (_ : SR) (s : State) : Result State :=
  plainInstr [] s fun g =>
    if g.child then trapIllop s
    else
      let g := { g with arrived := true }
      let s := s.setGroup g
      if barrierMet s g then .next (s.setGroup { g.advance 4 with barrier := g.barrier + 1, arrived := false })
      else waitIn s g .barrier

end Sys2Proof.Machine
end

