-- ==== Sys2Proof/Machine/Place.lean ====
section
/-! DEFINITION. Grid queues and placement (R300 to R306): entering a queue, becoming eligible, the placer's order and fit, the
placement of a team, the claimants of slots, the eviction of continuations, and the completion of a grid (R329). -/

namespace Sys2Proof.Machine

/-- GRID_ENQUEUE (R300): a launched grid enters the queue of its die, and its counters are tested (R301). -/
def execGridEnqueue (n : Nat) (s : State) : Result State :=
  match Assoc.find? s.grids n with
  | some x =>
    if x.entered then .refused (.notEnabled "GRID_ENQUEUE")
    else
      let s := s.putGrid n { x with entered := true, order := s.stamp }
      .next (testGrids { s with stamp := s.stamp + 1 })
  | none => .refused (.notEnabled "GRID_ENQUEUE")

/-- GRID_ELIGIBLE (R301): its counters have held their targets. -/
def execGridEligible (n : Nat) (s : State) : Result State :=
  match Assoc.find? s.grids n with
  | some x =>
    if x.entered && x.reached && x.eligible.isNone then .next (s.putGrid n { x with eligible := some s.cycle.toNat })
    else .refused (.notEnabled "GRID_ELIGIBLE")
  | none => .refused (.notEnabled "GRID_ELIGIBLE")

/-! What a team needs of a core (R303). -/

/-- Slots, granules, accumulator tiles and SRAM bytes. -/
structure Need where
  slots    : Nat
  granules : Nat
  tiles    : Nat
  sram     : Nat
  deriving DecidableEq, Repr

/-- What the next team of a grid needs. -/
def Record.need (r : Record) : Need := ⟨r.groups, r.granules, (r.width + 1) * r.tiles, r.sram⟩

/-- What a saved team needs (R228): slots for the groups that held slots, granules for those and for its parked
continuations. -/
def savedNeed (s : State) (tk : Nat) : Need :=
  let t := s.teamAt tk
  let gs := (s.teamGroups tk).map (·.2)
  let sum (l : List Group) : Nat := (l.map Group.granules).foldl (· + ·) 0
  ⟨(gs.filter fun g => g.status == .saved).length, sum (gs.filter fun g => g.status != .pending), (t.width + 1) * t.tiles,
    t.sram⟩

/-- The accumulator tiles of a core that no team holds (R98). -/
def freeTiles (s : State) (core : Nat) : Nat :=
  4 - ((coreTeams s core).map fun p => (p.2.width + 1) * p.2.tiles).foldl (· + ·) 0

/-- A team fits a core (R303). -/
def fitsCore (s : State) (core : Nat) (n : Need) : Bool :=
  core != 0 && decide (n.slots ≤ freeSlots s core) && decide (n.granules ≤ freeGranules s core)
    && decide (n.tiles ≤ freeTiles s core) && decide (n.sram + 32 * 1024 ≤ freeSram s core) && (claimants s core).isEmpty

/-- The core that the placer takes (R303): the most free granules, then the lowest number. -/
def bestCore (s : State) (dies : Nat) (n : Need) : Option Nat :=
  ((dieSetCores dies).filter fun c => fitsCore s c n).foldl (fun m c =>
    match m with
    | none => some c
    | some b => if freeGranules s b < freeGranules s c then some c else some b) none

/-- What a placer may place: the next team of a grid, or a saved team. -/
inductive Choice where
  | team (grid : Nat)
  | saved (tk : Nat)
  deriving DecidableEq, Repr

/-- Stores that a saved team left have not been performed: in a side log, or under way to a fabric device (R272, R360). -/
def leftEntries (s : State) (tk : Nat) : Bool :=
  let ks := (s.teamGroups tk).map (·.1)
  s.cores.any fun c => (c.2.sideLog.any fun e => ks.contains e.key) || c.2.sent.any fun e => ks.contains e.key

/-- The choices of a die's placer with their places in R302's order. -/
def placerChoices (s : State) (die : Nat) : List (Nat × Choice) :=
  let top (x : Grid) : Nat := (3 - x.priority) * 2 ^ 200
  let grids := s.grids.filterMap fun p =>
    match p.2.eligible with
    | some c =>
      if p.2.die = die ∧ p.2.nextTeam < p.2.record.teams then
        some (top p.2 + 2 ^ 150 + c * 2 ^ 64 + p.2.order, Choice.team p.1)
      else none
    | none => none
  let saved := s.teams.filterMap fun p =>
    match p.2.saved with
    | some n =>
      let x := s.gridAt p.2.grid
      if x.die = die ∧ !leftEntries s p.1 then some (top x + n, Choice.saved p.1) else none
    | none => none
  grids ++ saved

/-- The first choice of a die's placer: nothing behind it is placed before it (R302). -/
def firstChoice (s : State) (die : Nat) : Option Choice :=
  let l := placerChoices s die
  (l.find? fun x => l.all fun y => decide (x.1 ≤ y.1)).map (·.2)

/-- The grid of a choice. -/
def Choice.grid (c : Choice) (s : State) : Nat :=
  match c with
  | .team n => n
  | .saved tk => (s.teamAt tk).grid

/-- The team of a choice. -/
def Choice.teamKey (c : Choice) (s : State) : Nat :=
  match c with
  | .team n => keyOf n (s.gridAt n).nextTeam
  | .saved tk => tk

/-- What a choice needs. -/
def Choice.need (c : Choice) (s : State) : Need :=
  match c with
  | .team n => (s.gridAt n).record.need
  | .saved tk => savedNeed s tk

/-- The core on which a die's placer can place its first choice now; none while launches are held (R403). -/
def placerCore (s : State) (die : Nat) : Option (Choice × Nat) :=
  match if launchHeld s then none else firstChoice s die with
  | none => none
  | some c => (bestCore s (s.gridAt (c.grid s)).record.dies (c.need s)).map fun n => (c, n)

/-! Placement. -/

/-- The role of the group with index `i` of a team (R90). -/
def Record.roleOf (r : Record) (i : Nat) : Role :=
  if i < r.copies then .copy else if i < r.copies + r.matrices then .matrix else .vector

/-- The register budget of a role. -/
def Record.budget (r : Record) (role : Role) : Nat :=
  match role with
  | .copy => r.copyBudget
  | .matrix => r.matBudget
  | .vector => r.vecBudget

/-- A group that LAUNCH placed, with its creation values (R89, R90, R99, R100, R328). -/
def launchedGroup (r : Record) (grid team i core slot placedAt : Nat) : Group :=
  let gid : BitVec 32 := BitVec.ofNat 32 (team * 32 + i)
  let g := { Group.blank with
    grid := grid
    gid := gid
    serial := team * 32 + i
    team := team
    role := r.roleOf i
    launchIdx := i
    core := core
    slot := slot
    priv := r.system
    pc := r.scalarBase + BitVec.ofNat 56 r.entry
    rnd := r.rnd
    tanw := r.width
    dplane := r.dplane
    dstride := r.dstride
    srseed := r.srseed
    cring := r.cring
    ulivec := r.ulivec
    savearea := r.savePool + BitVec.ofNat 56 (team * r.saveBytes)
    drawid := gid
    alloc := allocOf (r.budget (r.roleOf i))
    placedAt := placedAt }
  ((g.writeS 1 r.arg).writeS 2 (BitVec.ofNat 64 i)).writeS 3 (BitVec.ofNat 64 team)

/-- An empty ring (R314, R374). -/
def Ring.empty (slots size place : Nat) : Ring := ⟨slots, size, 0, 0, 0, 0, [], [], [], place⟩

/-- Where the placer puts a ring of a team that it places (R374), which no one sees (assumption 77). -/
def ringPlace (placedAt r : Nat) : Nat := Config.ringPlace placedAt r % 2 ^ 19

/-- A team as it is placed (R246, R304): zero scratchpad and tiles, empty rings, every compressed tile's entry that of an
all-zero tile. -/
def launchedTeam (r : Record) (grid index core placedAt : Nat) : Team :=
  { Team.blank with
    grid := grid
    index := index
    core := core
    placed := true
    tiles := r.tiles
    width := r.width
    w := r.scratch
    regions := r.regions
    offsets := (List.range (r.width + 1)).foldl (fun l k => r.regions.foldl (fun l x =>
      (List.range x.2).foldl (fun l i => Assoc.put l (k * 2 ^ 20 + x.1 + i) Compress.zeroEntry) l) l) []
    engine := Engine.reset r.width
    rings := r.rings.map fun x => (x.1, Ring.empty (ringShape x.2).1 (ringShape x.2).2 (ringPlace placedAt x.1))
    placedAt := placedAt }

/-- The free slots of a core, lowest first. -/
def freeSlotList (s : State) (core : Nat) : List Nat :=
  let used := ((s.coreGroups core).filter fun p => p.2.hasSlot).map fun p => p.2.slot
  (List.range slotCount).filter fun n => !used.contains n

/-- The next team of a grid is placed on a core (R304); its placement is the sink of the edges from its LAUNCH and its counters
(R261, R271). -/
def placeTeam (s : State) (n core : Nat) : State :=
  let s := invalidateL1 s core
  let x := s.gridAt n
  let i := x.nextTeam
  let t := launchedTeam x.record n i core s.stamp
  let slots := freeSlotList s core
  let k := s.coreAt core
  let s := (s.putTeam (keyOf n i) t).putGrid n { x with nextTeam := i + 1, waiting := none }
  let s := s.putCore core { k with taken := 0 }
  let s := (List.range x.record.groups).foldl (fun s j =>
    let g := launchedGroup x.record n i j core (slots.getD j 0) s.stamp
    s.putGroup g.key g) s
  { s with stamp := s.stamp + 1 }

/-- TEAM_PLACEMENT (R302 to R304): the first choice of a die's placer is a new team, fits, and L1 has handed its SRAM
over. -/
def execTeamPlacement (die : Nat) (s : State) : Result State :=
  match placerCore s die with
  | some (.team n, core) =>
    if (s.coreAt core).taken < (s.gridAt n).record.sram then .refused (.notEnabled "TEAM_PLACEMENT")
    else .next (placeTeam s n core)
  | _ => .refused (.notEnabled "TEAM_PLACEMENT")

/-- The SRAM that the placers want of a core now. -/
def sramWanted (s : State) (core : Nat) : Nat :=
  (List.range 4).foldl (fun m die =>
    match placerCore s die with
    | some (c, n) => if n = core then max m (c.need s).sram else m
    | none => m) 0

/-- SRAM_RECLAIM (R240): a placement needs lent SRAM; L1 invalidates lines and hands it over. -/
def execSramReclaim (core : Nat) (s : State) : Result State :=
  let n := sramWanted s core
  if n ≤ (s.coreAt core).taken then .refused (.notEnabled "SRAM_RECLAIM")
  else .next (s.putCore core { s.coreAt core with l1 := [], taken := n })

/-! Slots (R28, R305, R306). -/

/-- PENDING_CHILD_PLACEMENT (R27, R305): the claimant that takes the free slot is a pending child. -/
def execPendingChildPlacement (core : Nat) (s : State) : Result State :=
  match nextClaimant s core with
  | some k =>
    if (s.groupAt k).status = .pending then .next (takeSlot s k) else .refused (.notEnabled "PENDING_CHILD_PLACEMENT")
  | none => .refused (.notEnabled "PENDING_CHILD_PLACEMENT")

/-- The largest and the smallest allocation among the declared roles (R328). -/
def Record.allocs (r : Record) : Nat × Nat :=
  let l := (([r.vecBudget, r.matBudget, r.copyBudget]).filter (· != 0)).map allocOf
  (l.foldl max 0, l.foldl min (l.foldl max 0))

/-- g_max of R328: the entries of an eviction region. -/
def Record.gmax (r : Record) : Nat := granuleCount / max 1 (granulesFor r.width r.allocs.2)

/-- The bytes of an eviction entry (R229). -/
def Record.entryBytes (r : Record) : Nat := (r.width + 1) * 160 * r.allocs.1

/-- A group's registers as a record or an eviction entry holds them (R229): for each plane the V and then the Q. -/
def Group.registerImage (g : Group) : List Byte :=
  (List.range (g.tanw + 1)).flatMap fun k =>
    ((List.range g.alloc).flatMap fun n => Bits.leBytes 128 (g.readV k n).toNat) ++
      (List.range g.alloc).flatMap fun n => Bits.leBytes 32 (g.readQ k n).toNat

/-- Consecutive addresses, modulo 2^56. -/
def addrRange (va n : Nat) : List Nat := (List.range n).map fun i => (va + i) % 2 ^ 56

/-- Consecutive bytes stored to reached pages. -/
def storeRange (s : State) (die : Nat) (ps : List PagePlace) (va : Nat) (bs : List Byte) : State :=
  bs.zipIdx.foldl (fun s b => engineStore s die ps ((va + b.2) % 2 ^ 56) b.1) s

/-- A reader of a save area: `n` bytes at an offset. -/
abbrev AreaRead := Nat → Nat → List Byte

/-- A little-endian number of a save area. -/
def AreaRead.nat (rd : AreaRead) (o n : Nat) : Nat := Bits.leNat (rd o n)

/-- The registers that stand at an offset of a save area, as in a group record (R229): for each plane the V and then the Q. -/
def restoreRegisters (rd : AreaRead) (o : Nat) (g : Group) : Group :=
  let plane := 160 * g.alloc
  (List.range (g.tanw + 1)).foldl (fun g k =>
    let g := (List.range g.alloc).foldl (fun g n => g.writeV k n (BitVec.ofNat 1024 (rd.nat (o + k * plane + 128 * n) 128))) g
    (List.range g.alloc).foldl (fun g n =>
      g.writeQ k n (BitVec.ofNat 256 (rd.nat (o + k * plane + 128 * g.alloc + 32 * n) 32))) g) g

/-- What reached pages hold of an area at a virtual address; a byte of a page that is not reached reads 0. -/
def readArea (s : State) (die : Nat) (ps : List PagePlace) (va : Nat) : AreaRead := fun o n =>
  (List.range n).map fun i =>
    let a := (va + o + i) % 2 ^ 56
    if ps.any fun p => p.page == a / 65536 then engineByte s die ps a else 0

/-- The bytes of a group's registers in all planes. -/
def Group.registerBytes (g : Group) : Nat := (g.tanw + 1) * 160 * g.alloc

/-- The address of an entry of a group's eviction region (R229). -/
def entryAddr (s : State) (g : Group) (i : Nat) : Nat :=
  g.savearea.toNat + 0x1000 + i * (s.gridAt g.grid).record.entryBytes

/-- The registers of an evicted continuation: those of its entry, with what completions have written since (R91, R306). -/
def Group.fromEntry (g : Group) (rd : AreaRead) : Group := g.late.foldl Group.putReg (restoreRegisters rd 0 g)

/-- An evicted continuation's registers are read back from its entry, which becomes free (R306). -/
def Group.reload (g : Group) (rd : AreaRead) : Group :=
  match g.frame with
  | some f => { g.fromEntry rd with frame := some { f with evicted := none }, late := [] }
  | none => g

/-- The claimant `k`, a parked continuation, takes its slot; an evicted one has its registers read back first, once its entry's
pages can be reached (R306). -/
def resume (s : State) (core k : Nat) : State :=
  let g := s.groupAt k
  match g.frame.bind (·.evicted) with
  | none => takeSlot s k
  | some i =>
    let va := entryAddr s g i
    let die := dieOfCore core
    match reachAll s die 0 false (addrRange va g.registerBytes) with
    | (.ok ps, s) => (takeSlot s k).modGroup k fun g => g.reload (readArea s die ps va)
    | (.service kind level base size _, s) => askService s die g kind level base size (faultDetail false false false true)
    | (_, s) => s

/-- CONTINUATION_RESUME (R28, R305): the claimant that takes the free slot is a parked continuation. -/
def execContinuationResume (core : Nat) (s : State) : Result State :=
  match nextClaimant s core with
  | some k =>
    if (s.groupAt k).status = .parked then .next (resume s core k)
    else .refused (.notEnabled "CONTINUATION_RESUME")
  | none => .refused (.notEnabled "CONTINUATION_RESUME")

/-- The entries of a team's eviction region in use. -/
def usedEntries (s : State) (tk : Nat) : List Nat :=
  (s.teamGroups tk).filterMap fun p => match p.2.frame with
    | some f => f.evicted
    | none => none

/-- The lowest free entry of a team's eviction region. -/
def freeEntry (s : State) (tk : Nat) : Option Nat :=
  let used := usedEntries s tk
  (List.range (s.gridAt (s.teamAt tk).grid).record.gmax).find? fun i => !used.contains i

/-- A core evicts for its first pending child (R306): the claimants before it leave a slot, but not its granules. -/
def evictionWanted (s : State) (core : Nat) : Bool :=
  let room := roomAfter s core (doneParents s core)
  match waitingChildren s core with
  | k :: _ => decide (0 < room.1) && decide (room.2 < (s.groupAt k).granules)
  | [] => false

/-- The continuation that a core evicts next: the longest-parked that holds granules and whose team has a free entry, while
the frame area of 256 has room for the core's frames (R364). -/
def nextEvicted (s : State) (core : Nat) : Option Nat :=
  if frameAreas < ((s.coreGroups core).filter fun p => p.2.frame.isSome).length then none
  else (parkedOf s core).find? fun k =>
    let g := s.groupAt k
    g.holdsGranules s && !g.evicted && (freeEntry s g.teamKey).isSome

/-- The continuation `k` is evicted to entry `i` of its team's region (R306), and its granules lose their contents (R107);
nothing happens while a page of the entry needs service, or refuses. -/
def evict (s : State) (core k i : Nat) : State :=
  let g := s.groupAt k
  let va := entryAddr s g i
  let die := dieOfCore core
  match reachAll s die 0 true (addrRange va g.registerBytes) with
  | (.ok ps, s) =>
    (storeRange s die ps va g.registerImage).modGroup k fun g =>
      { g with v := [], q := [], frame := some { g.frameOr s.cycle.toNat with evicted := some i } }
  | (.service kind level base size _, s) => askService s die g kind level base size (faultDetail true false false true)
  | (_, s) => s

/-- CONTINUATION_EVICTION (R306). -/
def execContinuationEviction (core : Nat) (s : State) : Result State :=
  if !evictionWanted s core then .refused (.notEnabled "CONTINUATION_EVICTION")
  else match nextEvicted s core with
    | some k => match freeEntry s (s.groupAt k).teamKey with
      | some i => .next (evict s core k i)
      | none => .refused (.notEnabled "CONTINUATION_EVICTION")
    | none => .refused (.notEnabled "CONTINUATION_EVICTION")

/-! The end of a grid. -/

/-- Every team of a grid has ended, and its side-log entries have drained (R329). -/
def gridEnded (s : State) (n : Nat) : Bool :=
  match Assoc.find? s.grids n with
  | some x => x.retired + x.aborted == x.record.teams && !(s.cores.any fun c => (c.2.sideLog.any fun e => gridOfKey e.key == n) || c.2.sent.any fun e => gridOfKey e.key == n)
  | none => false

/-- The status word (R329). -/
def Grid.statusWord (x : Grid) : Nat :=
  1 + (if x.aborted = 0 then 0 else 2) + (if x.lost then 4 else 0) + x.reason % 256 * 2 ^ 8 + x.aborted % 2 ^ 32 * 2 ^ 32

/-- The grid leaves the device, and its launcher's frame counts one child less (R329, R365). -/
def dropGrid (s : State) (n : Nat) : State :=
  let s := match (s.gridAt n).launcher with
    | some k => s.modGroup k (·.childDone false)
    | none => s
  let s := s.modDies fun d => { d with shapes := d.shapes.filter fun e => e.grid != n }
  { s with grids := Assoc.erase s.grids n }

/-- GRID_COMPLETE (R329): the status word is stored, a release after which nobody keeps an older copy (R269), then the launcher's
count falls. A store that fails unrecoverably is dropped with a record. -/
def execGridComplete (n : Nat) (s : State) : Result State :=
  if !gridEnded s n then .refused (.notEnabled "GRID_COMPLETE")
  else
    let x := s.gridAt n
    let va := x.record.status.toNat
    let fail (code : BitVec 16) (s : State) : Result State :=
      .next (dropGrid (pendRecord s x.die (droppedRecord s n 0 0 va code)) n)
    if va = 0 ∨ x.noStatus then .next (dropGrid s n)
    else match translate s x.die va true with
      | (.ok pa leaf, s) =>
        if fabricRefused s 1 pa then fail 2 s
        else .next (dropGrid (homeWrite s x.die pa leaf (Bits.leBytes 8 x.statusWord)) n)
      | (.service kind level base size, s) =>
        .next (askService s x.die { Group.blank with grid := n } kind level base size (faultDetail true false false false))
      | (.lost _, s) => fail 6 s
      | (.waiting, s) => .next s
      | (_, s) => fail 2 s

end Sys2Proof.Machine
end

