-- ==== Sys2Proof/Machine/Rings.lean ====
section
/-! DEFINITION. The ring instructions RPUSH, RPOP and RWAIT (R337, R338) and the completion of a push or a pop (R314,
R315, R317). -/

namespace Sys2Proof.Machine

/-- The checks of RPUSH and RPOP, in order (R337): a ring that is undeclared or too small, the count, the offset, the
range, and for a pop a compressed region. -/
def ringChecks (s : State) (g : Group) (f : SR) (push : Bool) (k : Team → Result State) : Result State :=
  let t := s.teamAt g.teamKey
  let c := (g.readS f.src2.toNat).toNat
  let o := (g.readS f.src1.toNat).toNat
  let small : Bool := match t.ring f.dest.toNat with
    | some r => decide (r.size < (g.tanw + 1) * c)
    | none => true
  if small then trapDesc s 6
  else if c = 0 ∨ c % 16 ≠ 0 then trapDesc s 4
  else if o % 16 ≠ 0 ∨ 2 ^ 32 ≤ o then trapDesc s 5
  else if t.w < o + c then trapMem s .sprange 0 (max o t.w)
  else if !push && t.compressed o c then trapMem s .spct 0 o
  else k t

/-- RPUSH and RPOP claim their slot at issue (R314, R337). -/
def ringInstr (f : SR) (push : Bool) (s : State) : Result State :=
  scalarInstr [f.src1.toNat, f.src2.toNat] s fun g =>
    ringChecks s g f push fun t =>
      if g.flagFull (fnFlag f.fn) then waitIn s g (.flagLimit ((fnFlag f.fn).getD 0))
      else
        let r := f.dest.toNat
        let a := t.claim push r
        let op : RingOp := ⟨t.nextOp, g.key, fnFlag f.fn, push, r, a.1.getD 0, (g.readS f.src1.toNat).toNat,
          (g.readS f.src2.toNat).toNat, g.tanw⟩
        let t := { a.2 with ringOps := a.2.ringOps ++ [op], nextOp := t.nextOp + 1 }
        .next (acceptCommand (s.putTeam g.teamKey t) g (fnFlag f.fn) false)

/-- RPUSH (R337). -/
def execRpush (f : SR) (s : State) : Result State := ringInstr f true s

/-- RPOP (R337). -/
def execRpop (f : SR) (s : State) : Result State := ringInstr f false s

/-- RWAIT (R338). -/
def execRwait (f : SR) (s : State) : Result State :=
  scalarInstr [f.dest.toNat] s fun g =>
    let r := f.src1.toNat
    let push := f.fn.getLsbD 0
    match (s.teamAt g.teamKey).ring r with
    | none => trapDesc s 6
    | some x =>
      if x.count push = 0 then waitIn s g (.ring r push)
      else .next (s.setGroup ((g.writeS f.dest.toNat (BitVec.ofNat 64 (x.count push))).advance 4))

/-- An outstanding ring operation of a team whose turn has come. -/
def RingOp.turn (o : RingOp) (t : Team) : Bool := t.turn o.push o.ring (some o.pos)

/-- A push's bytes go to its slot, image after image; a pop's go to the scratchpad, plane after plane (R337). -/
def RingOp.move (o : RingOp) (t : Team) : Team :=
  (List.range (o.width + 1)).foldl (fun t k =>
    if o.push then t.modRing o.ring fun x => x.write o.pos (k * o.bytes) (t.readScratch (o.off + k * t.w) o.bytes)
    else match t.ring o.ring with
      | some x => t.writeScratch (o.off + k * t.w) (x.read o.pos (k * o.bytes) o.bytes)
      | none => t) t

/-- The ring operation completes (R314, R337): the bytes move, the slot's bits change, and the flag falls. -/
def endRingOp (s : State) (tk : Nat) (o : RingOp) : State :=
  let t := o.move (s.teamAt tk)
  let t := t.modRing o.ring fun x => if o.push then x.endPush o.pos else x.endPop o.pos
  let s := s.putTeam tk { t with ringOps := t.ringOps.filter fun x => x.id != o.id }
  s.modGroup o.key fun g => g.dropFlag o.flag

/-- A result of the coelostat that waits for its slot (R317). -/
def outFor (s : State) (tk id : Nat) : Option StrmOut :=
  (s.coreAt (s.teamAt tk).core).strmOut.find? fun o => (s.groupAt o.key).teamKey == tk && o.id == id

/-- RING_PUSH_COMPLETE (R314): an RPUSH, or a result that the coelostat's output queue holds. -/
def execRingPushComplete (tk id : Nat) (s : State) : Result State :=
  let t := s.teamAt tk
  match t.ringOps.find? fun o => o.id == id && o.push with
  | some o => if o.turn t then .next (endRingOp s tk o) else .refused (.notEnabled "RING_PUSH_COMPLETE")
  | none =>
    match outFor s tk id with
    | none => .refused (.notEnabled "RING_PUSH_COMPLETE")
    | some o =>
      if t.turn true o.ring (some o.pos) then
        let t := t.modRing o.ring fun x => (x.write o.pos 0 o.data).endPush o.pos
        let c := s.coreAt t.core
        .next ((s.putTeam tk t).putCore t.core { c with strmOut := c.strmOut.filter fun x => x != o })
      else .refused (.notEnabled "RING_PUSH_COMPLETE")

/-- RING_POP_COMPLETE (R314). -/
def execRingPopComplete (tk id : Nat) (s : State) : Result State :=
  let t := s.teamAt tk
  match t.ringOps.find? fun o => o.id == id && !o.push with
  | some o => if o.turn t then .next (endRingOp s tk o) else .refused (.notEnabled "RING_POP_COMPLETE")
  | none => .refused (.notEnabled "RING_POP_COMPLETE")

end Sys2Proof.Machine
end

