-- ==== Sys2Proof/Machine/Strm.lean ====
section
/-! DEFINITION. The coelostat (R317, R350, R351): STRM with its static checks, the ten micro-operations, and the start and
end of a micro-program. -/

namespace Sys2Proof.Machine

open Sys2Proof.Num (XVal)

/-! The program's text. -/

/-- The program that some words hold, read in order: it ends at an END that no LOOP before it jumps beyond. -/
def programEnds (ws : List (BitVec 32)) : Bool :=
  match ws.getLast? with
  | none => false
  | some w => decide (w = 0) && ws.all fun x =>
      match microForm x with
      | some (.micLoop _ target) => decide (target.toNat < ws.length)
      | _ => true

/-- The words of a micro-program at an address, one by one up to its END, of at most `n` more words (R350). -/
def readProgram (s : State) (g : Group) (va n : Nat) (ws : List (BitVec 32))
    (k : List (BitVec 32) → State → Result State) : Result State :=
  match n with
  | 0 => k ws s
  | n + 1 =>
    readPlain s g (va % 2 ^ 56) 4 false fun bs _ s =>
      let ws := ws ++ [BitVec.ofNat 32 (Bits.leNat bs)]
      if programEnds ws then k ws s else readProgram s g (va + 4) n ws k

/-! The static checks (R351). -/

/-- What is known of the buffer and the counters at a point of the program. -/
structure MicState where
  rows  : Nat
  cols  : Nat
  ty    : Nat
  len   : Nat
  whole : Bool
  l     : List (Nat × BitVec 16)
  mpc   : Nat
  draws : Nat
  fails : List Nat
  deriving DecidableEq, Repr

/-- The counter values that one conversion takes (R58, R351). -/
def MicState.drawn (m : MicState) (x : Sample) (mode : BitVec 3) : MicState :=
  { m with draws := m.draws + x.drawsFor mode.toNat (m.rows * m.cols) }

/-- A failing check. -/
def MicState.fail (m : MicState) (bad : Bool) (reason : Nat) : MicState :=
  if bad then { m with fails := m.fails ++ [reason] } else m

/-- LOOP (R350): the counter falls by one, and the program jumps unless it is 0. -/
def loopNext (l : List (Nat × BitVec 16)) (ctr : BitVec 2) (target : BitVec 6) (mpc : Nat) :
    List (Nat × BitVec 16) × Nat :=
  let v := Assoc.get 0 l ctr.toNat - 1
  (Assoc.set 0 l ctr.toNat v, if v = 0 then mpc + 1 else target.toNat)

/-- One micro-operation of the check: what it makes of the buffer's shape, and its reasons (R351). -/
def MicState.next (m : MicState) (x : Sample) (sh : Shape) (t : Team) (i : Instr) : MicState :=
  let on := { m with mpc := m.mpc + 1 }
  match i with
  | .micLoad => { on with rows := sh.bx 1 * sh.bx 2, cols := sh.bx 0, ty := sh.fmt, len := sh.len, whole := true }
  | .micXpose =>
    { on.fail (m.rows % 32 != 0 || m.cols % 32 != 0) 4 with rows := m.cols, cols := m.rows, whole := false }
  | .micConv fmt mode => { on.drawn x mode with ty := fmt.toNat, len := 32, whole := false }
  | .micQuant fmt b16 _ mode =>
    let len := if b16 = 1 then 16 else 32
    { (on.drawn x mode).fail (m.cols % len != 0) 4 with ty := fmt.toNat, len := len, whole := true }
  | .micPush r =>
    let small := match t.ring r.toNat with
      | some y => decide (y.size < (x.width + 1) * tensorBytes m.ty m.len (m.rows * m.cols))
      | none => true
    (on.fail small 6).fail (isMx m.ty && !m.whole) 3
  | .micSetc ctr n => { on with l := Assoc.set 0 m.l ctr.toNat n }
  | .micLoop ctr target =>
    let r := loopNext m.l ctr target m.mpc
    { m with l := r.1, mpc := r.2 }
  | _ => on

/-- The program followed from its start, for at most `n` micro-operations: its control flow depends on nothing but its
words. One that runs past its 64th word holds no END where it needs one (assumption 69). -/
def followProgram (prog : List (BitVec 32)) (x : Sample) (sh : Shape) (t : Team) (n : Nat) (m : MicState) : MicState :=
  match n with
  | 0 => m
  | n + 1 =>
    match prog[m.mpc]? with
    | none => m.fail true 4
    | some w => match microForm w with
    | none | some .micEnd => m
    | some i => followProgram prog x sh t n (m.next x sh t i)

/-- The most micro-operations that a program executes (R351). -/
def stepLimit : Nat := 2 ^ 20

/-- The reasons that a word of a program gives by itself (R351): a mode of 7 and a STEP of coordinate 3 are given 1
(assumption 43). -/
def wordReasons (t : Team) (w : BitVec 32) : List Nat :=
  match microForm w with
  | none => [1]
  | some (.micConv fmt mode) => (if 3 ≤ fmt.toNat then [3] else []) ++ if mode = 7 then [1] else []
  | some (.micQuant fmt _ _ mode) =>
    (if fmt.toNat < 3 ∨ 8 < fmt.toNat then [3] else []) ++ if mode = 7 then [1] else []
  | some (.micStep coord _) => if coord = 3 then [1] else []
  | some (.micPush r) => if (t.ring r.toNat).isNone then [6] else []
  | _ => []

/-- The shape that a program is followed with where its record is unusable: no size, so that only the checks that need no record
fail. -/
def Shape.unknown : Shape := { Shape.ofBits 0 with fmt := 0, b := [0, 0, 0] }

/-- The static checks of a program, and the counter values that it takes (R350, R351): every reason, of which the lowest counts. -/
def checkProgram (ws : List (BitVec 32)) (x : Sample) (sh : Option Shape) (t : Team) : List Nat × Nat :=
  let words := (if ws.contains 0 then [] else [4]) ++ ws.flatMap (wordReasons t)
  let y := sh.getD Shape.unknown
  let start : MicState := ⟨y.bx 1 * y.bx 2, y.bx 0, y.fmt, y.len, false, [], 0, 0, []⟩
  let big := if 16384 < start.rows * start.cols then [4] else []
  let m := followProgram ws x y t stepLimit start
  (words ++ big ++ m.fails ++ (if sh.isNone then [7] else []), if sh.isNone then 0 else m.draws)

/-- STRM (R350, R351). -/
def execStrm (f : SR) (s : State) : Result State :=
  scalarInstr [f.src1.toNat, f.src2.toNat] s fun g =>
    let va := g.addr f.src1.toNat
    let h := g.readS f.src2.toNat
    if va % 4 ≠ 0 then trapMem s .align 0 va
    else readProgram s g va 64 [] fun prog s => sampleShape s g h fun r s =>
      let x := sampleOf s g
      let c := checkProgram prog x (shapeUsable r h false) (s.teamAt g.teamKey)
      onChecked s (checked [] c.1 []) fun _ =>
        let k := s.coreAt g.core
        if 4 ≤ k.strmQ.length then waitIn s g .strmQueue
        else match engineStall s g (fnFlag f.fn) false with
          | some w => waitIn s g w
          | none =>
            let t := s.teamAt g.teamKey
            let cmd : StrmCmd := ⟨t.nextOp, g.key, prog, h, r.getD 0, fnFlag f.fn, x, [], false, [], 0, 0, 0, 0, 0,
              Life.fresh⟩
            let s := s.putTeam g.teamKey { t with nextOp := t.nextOp + 1 }
            let s := s.putCore g.core { k with strmQ := k.strmQ ++ [cmd] }
            .next (acceptCommand s (g.draw c.2) cmd.flag false)

/-- COELOSTAT_PROGRAM_START (R317): the next queued micro-program, when none runs; a running one holds none of the queue's four
entries (assumption 76). -/
def execCoelostatProgramStart (core : Nat) (s : State) : Result State :=
  let k := s.coreAt core
  match k.strm, k.strmQ with
  | none, c :: rest => .next (s.putCore core { k with strm := some { c with since := s.cycle.toNat }, strmQ := rest })
  | _, _ => .refused (.notEnabled "COELOSTAT_PROGRAM_START")

/-! The micro-operations of the core that step chooses. -/

/-- The running micro-program may execute its next micro-operation (R317): it waits for no page, and the output
queue has room. -/
def Core.micReady (k : Core) : Bool :=
  match k.strm with
  | some c => c.life.wait.isNone && decide (k.strmOut.length < 4)
  | none => false

/-- The next micro-operation of a core. -/
def Core.nextMicro (k : Core) : Option Instr :=
  match k.strm with
  | some c => c.prog[c.mpc]?.bind microForm
  | none => none

/-- The running program takes its new form. -/
def State.putStrm (s : State) (c : StrmCmd) : State :=
  let k := s.coreAt s.core
  s.putCore s.core { k with strm := some c }

/-- The running program ends: its results may still wait (R317, R350). -/
def State.endProgram (s : State) (c : StrmCmd) : State :=
  let k := s.coreAt s.core
  s.putCore s.core { k with strm := none, strmDone := k.strmDone ++ [c] }

/-- The form of a micro-operation: a program that has met a fault ends with it, and one beyond the step limit with
0x0103 (R351). -/
def micInstr (name : String) (s : State) (body : StrmCmd → Result State) : Result State :=
  let k := s.coreAt s.core
  match k.strm with
  | none => .refused (.notEnabled name)
  | some c =>
    if !k.micReady then .refused (.notEnabled name)
    else if c.life.fault ≠ 0 then .next (s.endProgram c)
    else if stepLimit ≤ c.steps then .next (s.endProgram { c with life := c.life.fail 0x103 0 })
    else body { c with steps := c.steps + 1, mpc := c.mpc + 1 }

/-- The buffer before the program has loaded it: the spec gives it the record's box and no contents, so its codes are
free. -/
def freeBuffer (s : State) (c : StrmCmd) : List Tile × State :=
  let sh := shapeOf c.shape
  let n := sh.bx 0 * (sh.bx 1 * sh.bx 2)
  let code (k i : Nat) : Nat :=
    Bits.leNat ((List.range 4).map fun b => Config.freeByte (s.free + (k * n + i) * 4 + b)) % 2 ^ elemBits sh.fmt
  (c.sample.planes.map fun k =>
      { ty := sh.fmt
        blk := sh.len
        rows := sh.bx 1 * sh.bx 2
        cols := sh.bx 0
        codes := sparse n (code k)
        scales := []
        comps := [] },
    { s with free := s.free + 4 * n * (c.sample.width + 1) })

/-- The buffer's images and the state. -/
def bufferOf (s : State) (c : StrmCmd) : List Tile × State := if c.buf = [] then freeBuffer s c else (c.buf, s)

/-- Rows and columns of an image as the program sees it. -/
def seenSize (flip : Bool) (t : Tile) : Nat × Nat := if flip then (t.cols, t.rows) else (t.rows, t.cols)

/-- The values of an image as the program sees it, row by row. -/
def seenValues (flip : Bool) (t : Tile) : Array XVal :=
  let vs := t.values
  if flip then ((List.range t.size).map fun k => vs.getD (k % t.rows * t.cols + k / t.rows) XVal.zero).toArray else vs

/-- CONV and QUANT (R350): every plane converted; the tangents in RNE (R182). -/
def convertBuffer (s : State) (c : StrmCmd) (ty len mode : Nat) (nansat : Bool) : Result State :=
  let r := bufferOf s c
  let rounding := c.sample.rounding mode nansat (c.sample.counter + BitVec.ofNat 32 c.draws)
  let tiles := r.1.zipIdx.map fun t =>
    let z := seenSize c.flip t.1
    convertTile ty len z.1 z.2 (seenValues c.flip t.1) (Num.fmtOfCode t.1.ty) (if t.2 = 0 then rounding else rounding.tangent)
  let n := match r.1 with
    | t :: _ => t.size
    | [] => 0
  .next (r.2.putStrm { c with buf := tiles, flip := false, draws := c.draws + rounding.draws n })

/-- END (R350): the program executes no more. -/
def execMicEnd (s : State) : Result State := micInstr "END" s fun c => .next (s.endProgram c)

/-- The addresses that a program's LOAD reads (R350). -/
def StrmCmd.loads (c : StrmCmd) : List Nat :=
  let sh := shapeOf c.shape
  (Place.mem (sh.base false)).addrs c.sample (sh.view c.handle).offsets

/-- LOAD (R350): the box of the handle; a fault is serviced as for a transit copy (R351). -/
def execMicLoad (s : State) : Result State :=
  micInstr "LOAD" s fun c =>
    let g := s.groupAt c.key
    let sh := shapeOf c.shape
    let v := sh.view c.handle
    let place := Place.mem (sh.base false)
    let addrs := c.loads
    withPages s g.teamKey g sh.key false addrs
      (fun va s => .next (s.putStrm { c with steps := c.steps - 1, mpc := c.mpc - 1, life := c.life.hold va false }))
      (fun code va s => .next (s.endProgram { c with life := c.life.fail code va }))
      fun ps s =>
        let tiles := place.tiles s (s.teamAt g.teamKey) ps c.sample v
        .next ((touchReads s g.die ps addrs).putStrm { c with buf := tiles, flip := false })

/-- XPOSE (R350): rows and columns are exchanged. -/
def execMicXpose (s : State) : Result State :=
  micInstr "XPOSE" s fun c =>
    let r := bufferOf s c
    .next (r.2.putStrm { c with buf := r.1, flip := !c.flip })

/-- CONV (R350). -/
def execMicConv (fmt : BitVec 4) (mode : BitVec 3) (s : State) : Result State :=
  micInstr "CONV" s fun c => convertBuffer s c fmt.toNat 32 mode.toNat false

/-- QUANT (R350). -/
def execMicQuant (fmt : BitVec 4) (b16 nansat : BitVec 1) (mode : BitVec 3) (s : State) : Result State :=
  micInstr "QUANT" s fun c => convertBuffer s c fmt.toNat (if b16 = 1 then 16 else 32) mode.toNat (nansat == 1)

/-- PUSH (R350, R314, R317): the producer position is claimed, and the images wait in the output queue for their slot. -/
def execMicPush (ring : BitVec 4) (s : State) : Result State :=
  micInstr "PUSH" s fun c =>
    let r := bufferOf s c
    let s := r.2
    let tk := (s.groupAt c.key).teamKey
    let a := (s.teamAt tk).claim true ring.toNat
    let data := r.1.flatMap fun t => (if c.flip then t.transposeCodes else t).linearBytes
    let out : StrmOut := ⟨a.2.nextOp, c.id, c.key, ring.toNat, a.1.getD 0, data⟩
    let s := s.putTeam tk { a.2 with nextOp := a.2.nextOp + 1 }
    let k := s.coreAt s.core
    .next ((s.putCore s.core { k with strmOut := k.strmOut ++ [out] }).putStrm
      { c with buf := r.1, bytes := c.bytes + data.length })

/-- STEP (R350): a tile coordinate of the handle moves. -/
def execMicStep (coord : BitVec 2) (delta : BitVec 16) (s : State) : Result State :=
  micInstr "STEP" s fun c =>
    let d := coord.toNat
    .next (s.putStrm { c with handle := Bits.splice c.handle (16 * d) 16 (handleT c.handle d + delta.toNat) })

/-- SETC (R350). -/
def execMicSetc (ctr : BitVec 2) (n : BitVec 16) (s : State) : Result State :=
  micInstr "SETC" s fun c => .next (s.putStrm { c with l := Assoc.set 0 c.l ctr.toNat n })

/-- LOOP (R350). -/
def execMicLoop (ctr : BitVec 2) (target : BitVec 6) (s : State) : Result State :=
  micInstr "STRM_LOOP" s fun c =>
    let r := loopNext c.l ctr target (c.mpc - 1)
    .next (s.putStrm { c with l := r.1, mpc := r.2 })

/-- ZERO (R350): every element takes +0; a block takes the form that R53 and R367 give to zeros. -/
def execMicZero (s : State) : Result State :=
  micInstr "ZERO" s fun c =>
    let r := bufferOf s c
    .next (r.2.putStrm { c with buf := r.1.map fun t => { t with codes := [], scales := [], comps := [] } })

/-- An ended program whose last push has completed, and which waits for no page. -/
def Core.strmReady (k : Core) : Option StrmCmd :=
  k.strmDone.find? fun c => c.life.wait.isNone && !(k.strmOut.any fun o => o.key == c.key && o.cmd == c.id)

/-- STRM_COMPLETE (R317, R351): the program has ended and its last push has completed. -/
def execStrmComplete (core : Nat) (s : State) : Result State :=
  match (s.coreAt core).strmReady with
  | none => .refused (.notEnabled "STRM_COMPLETE")
  | some c =>
    let g := s.groupAt c.key
    let life := { c.life with bytes := c.bytes }
    let same (x : StrmCmd) : Bool := x.key == c.key && x.id == c.id
    let change (s : State) (f : List StrmCmd → List StrmCmd) : State :=
      s.putCore core { s.coreAt core with strmDone := f (s.coreAt core).strmDone }
    writeRecord s g c.sample.cring life.noRing life.number (recordOf 6 c.sample.pc.toNat life false)
      (fun va q s => .next (change s fun l => l.map fun x => if same x then { x with life := c.life.holdRing va q } else x))
      fun s => .next (endCommand (change s fun l => l.filter fun x => !same x) c.key c.flag false false life.fault life.addr)

end Sys2Proof.Machine
end

