-- ==== Sys2Proof/Machine/Save.lean ====
section
/-! DEFINITION. Traps at a boundary, user-level interrupts and pre-emption (R216, R217, R223 to R230), the save area, and
the ends of teams that no instruction causes (R228, R231, R232, R402). -/

namespace Sys2Proof.Machine

/-- USER_INTERRUPT_DELIVERY (R224); a completion of the same cycle leaves the pending bit set (R380). -/
def execUserInterruptDelivery (key : Nat) (s : State) : Result State :=
  let g := s.groupAt key
  if g.status != .running || !g.interruptReady || g.boundaryPending || !g.atBoundary then
    .refused (.notEnabled "USER_INTERRUPT_DELIVERY")
  else .next (s.putGroup key { g with
    intReturn := g.pc
    intPending := g.intCycle == some s.cycle
    intState := true
    due := false
    pc := g.ulivec
    wait := .none
    age := 0 })

/-! Requests (R226, R307). -/

/-- The least PRDEADLINE among a team's groups (R228). -/
def teamDeadline (s : State) (tk : Nat) : Nat :=
  (s.teamGroups tk).foldl (fun m p => min m p.2.prdeadline.toNat) (2 ^ 32)

/-- A pre-emption request for a team (R226, R307): without effect on one that is not placed or is being saved, and on the
dispatcher's (R32). -/
def requestPreempt (s : State) (tk : Nat) : State :=
  match Assoc.find? s.teams tk with
  | some t =>
    if !t.placed || t.request.isSome || t.grid == 0 then s
    else
      let s := s.putTeam tk { t with request := some (s.cycle.toNat + teamDeadline s tk) }
      { s with groups := Assoc.mapVals s.groups fun _ g =>
          if g.teamKey = tk ∧ g.status = .running then { g with preempt := true } else g }
  | none => s

/-- PREEMPT (R307): the control register's write. -/
def execPreempt (grid team : BitVec 32) (s : State) : Result State :=
  .next (requestPreempt s (keyOf grid.toNat team.toNat))

/-- The state as it would be without some teams. -/
def withoutTeams (s : State) (l : List Nat) : State :=
  { s with
    teams := s.teams.filter fun p => !l.contains p.1
    groups := s.groups.filter fun p => !l.contains p.2.teamKey }

/-- The placed teams of lower priority on a die set, the lowest priority first, and within one the latest placed (R307). -/
def victims (s : State) (dies priority : Nat) : List Nat :=
  let l := s.teams.filterMap fun p =>
    let x := s.gridAt p.2.grid
    if p.2.placed && decide (x.priority < priority) && Bits.bit dies (dieOfCore p.2.core) then
      some (x.priority * 2 ^ 128 + (2 ^ 127 - p.2.placedAt), p.1)
    else none
  (l.foldl (fun m x => Assoc.put m (x.1 * 2 ^ 64 + x.2) x.2) ([] : List (Nat × Nat))).map (·.2)

/-- Requests made one after another until the waiting team would fit (R307). -/
def requestUntil (s : State) (dies : Nat) (need : Need) (gone : List Nat) (l : List Nat) : State :=
  match l with
  | [] => s
  | tk :: rest =>
    if (bestCore (withoutTeams s gone) dies need).isSome then s
    else requestUntil (requestPreempt s tk) dies need (tk :: gone) rest

/-- DISPATCHER_PREEMPTION_REQUEST (R307): in firmware mode, for a team of priority high or urgent that has been first
for 250,000 cc without fitting any core. It may request again when that time has passed once more, which the spec leaves open
(assumption 81). -/
def execDispatcherPreemptionRequest (die : Nat) (s : State) : Result State :=
  match firstChoice s die with
  | none => .refused (.notEnabled "DISPATCHER_PREEMPTION_REQUEST")
  | some c =>
    let n := c.grid s
    let x := s.gridAt n
    match x.waiting with
    | some (tk, since) =>
      if s.ctl.init.getLsbD 3 || decide (x.priority < 2) || tk != c.teamKey s || decide (s.cycle.toNat < since + 250000) then
        .refused (.notEnabled "DISPATCHER_PREEMPTION_REQUEST")
      else
        let gone := (s.teams.filter fun p => p.2.placed && p.2.request.isSome).map (·.1)
        let l := (victims s x.record.dies x.priority).filter fun k => !gone.contains k
        .next ((requestUntil s x.record.dies (c.need s) gone l).putGrid n { x with waiting := some (tk, s.cycle.toNat) })
    | none => .refused (.notEnabled "DISPATCHER_PREEMPTION_REQUEST")

/-! The save area (R229). -/

/-- The groups whose records a team's save area holds, in ascending GID: those that held slots, and the parked
continuations. -/
def savedGroups (s : State) (tk : Nat) : List Group :=
  ((s.teamGroups tk).map (·.2)).filter fun g => g.status != .pending

/-- The frames of a team. -/
def frameCount (s : State) (tk : Nat) : Nat := ((s.teamGroups tk).filter fun p => p.2.frame.isSome).length

/-- The bytes of a group record (R229). -/
def recordBytes (g : Group) : Nat := 4096 + Bits.roundUp ((g.tanw + 1) * 160 * g.alloc) 4096

/-- The offset of the first group record. -/
def recordsAt (r : Record) : Nat := 0x1000 + Bits.roundUp (r.gmax * r.entryBytes) 4096

/-- Each group of a team with the offset of its record. -/
def recordOffsets (at_ : Nat) (gs : List Group) : List (Nat × Group) :=
  match gs with
  | [] => []
  | g :: t => (at_, g) :: recordOffsets (at_ + recordBytes g) t

/-- The offsets of the parts behind the group records: frames, scratchpad, tiles, the hidden team block, and the end. -/
structure AreaMap where
  records : List (Nat × Group)
  frames  : Nat
  scratch : Nat
  tiles   : Nat
  block   : Nat
  size    : Nat

/-- The save area of a team as it stands (R229). -/
def areaMap (s : State) (tk : Nat) : AreaMap :=
  let t := s.teamAt tk
  let gs := savedGroups s tk
  let at_ := recordsAt (s.gridAt t.grid).record
  let frames := at_ + (gs.map recordBytes).foldl (· + ·) 0
  let scratch := frames + 8192 * frameCount s tk
  let tiles := scratch + (t.width + 1) * t.w
  let block := tiles + t.tiles * (t.width + 1) * 65536
  ⟨recordOffsets at_ gs, frames, scratch, tiles, block, block + (t.width + 1) * 48 * 1024 + 16 * 1024⟩

/-- An aperture's 16 bytes (R94, R229). -/
def Aperture.image (a : Aperture) : List Byte :=
  Bits.leBytes 16 (a.limit.toNat + a.base.toNat * 2 ^ 32 + (if a.valid then 2 ^ 95 else 0))

/-- The visible bytes of a group record before its hidden block (R229). -/
def Group.visibleImage (g : Group) : List Byte :=
  let word (x : Nat) : List Byte := Bits.leBytes 8 x
  ((List.range 64).flatMap fun n => word (g.readS n).toNat)
    ++ ((List.range 8).flatMap fun n => Bits.leBytes 4 (g.readP n).toNat)
    ++ ((List.range 16).flatMap fun n => (g.readA n).image)
    ++ ((List.range 8).flatMap fun n => word (g.readK n).toNat)
    ++ ([g.rnd.toNat, g.dplane.toNat, g.dstride.toNat, g.srseed.toNat, g.cring.toNat, g.ulivec.toNat, g.trapcause.toNat,
        g.trappc.toNat, g.traplanes.toNat, g.trapaddr.toNat].flatMap word)
    ++ word g.flagSoft.toNat ++ word g.draws.toNat ++ word g.drawid.toNat ++ Bits.leBytes 56 0

/-- The byte that an open place of a team's save area holds (R352): the encoding of hidden blocks is not architectural. -/
def Team.openByte (t : Team) (o : Nat) : Byte := Config.freeByte (t.hidden + o)

/-- Open bytes of a save area. -/
def Team.openBytes (t : Team) (o n : Nat) : List Byte := (List.range n).map fun i => t.openByte (o + i)

/-- A hidden block of a save area (R229): open bytes, and the CRC-32C of them. -/
def Team.hiddenBlock (t : Team) (o n : Nat) : List Byte :=
  let bs := t.openBytes o (n - 4)
  bs ++ Bits.leBytes 4 (Crypto.crc32c bs).toNat

/-- A block ends with the CRC-32C of its other bytes (R230). -/
def blockOk (bs : List Byte) : Bool :=
  let n := bs.length - 4
  bs.drop n == Bits.leBytes 4 (Crypto.crc32c (bs.take n)).toNat

/-- The register bytes of a group's record (R229): an evicted continuation's come from its eviction entry. -/
def State.savedRegisters (s : State) (g : Group) : List Byte :=
  match g.frame.bind (·.evicted) with
  | none => g.registerImage
  | some i =>
    let va := entryAddr s g i
    match (reachAll s g.die 0 false (addrRange va g.registerBytes)).1 with
    | .ok ps => (g.fromEntry (readArea s g.die ps va)).registerImage
    | _ => List.replicate g.registerBytes 0

/-- One tile of a scratchpad plane in its stored form (R229, R246), for the save area's offset `o`. -/
def Team.storedTile (t : Team) (plane i o : Nat) : List Byte :=
  let bs := t.readScratch (plane * t.w + i * 4096) 4096
  if t.regions.any fun r => r.1 ≤ i && i < r.1 + r.2 then
    let e := Compress.encodeTile bs
    e ++ t.openBytes (o + e.length) (4096 - e.length)
  else bs

/-- A plane of an accumulator tile as bytes. -/
def Team.tileImage (t : Team) (z k : Nat) : List Byte := (t.readZ z k).flatMap fun x => Bits.leBytes 4 x

/-- The header of a save area (R229). -/
def saveHeader (s : State) (tk : Nat) : List Byte :=
  let t := s.teamAt tk
  Bits.leBytes 8 1 ++ Bits.leBytes 4 (savedGroups s tk).length ++ Bits.leBytes 1 t.width ++ Bits.leBytes 1 t.tiles ++
    Bits.leBytes 2 (frameCount s tk) ++ Bits.leBytes 8 t.w ++ Bits.leBytes 8 s.cycle.toNat ++ Bits.leBytes 4064 0

/-- One record of a save area, with its hidden block (R229). -/
def recordImage (s : State) (t : Team) (g : Group) (o : Nat) : List (Nat × List Byte) :=
  [(o, g.visibleImage), (o + 0x400, t.hiddenBlock (o + 0x400) 3072), (o + 0x1000, s.savedRegisters g)]

/-- The parts of a save area, by offset. -/
def saveImage (s : State) (tk : Nat) : List (Nat × List Byte) :=
  let t := s.teamAt tk
  let m := areaMap s tk
  [(0, saveHeader s tk)]
    ++ (m.records.flatMap fun r => recordImage s t r.2 r.1)
    ++ ((List.range (frameCount s tk)).map fun i => (m.frames + 8192 * i, t.hiddenBlock (m.frames + 8192 * i) 8192))
    ++ ((List.range (t.width + 1)).flatMap fun k => (List.range (t.w / 4096)).map fun i =>
      (m.scratch + k * t.w + i * 4096, t.storedTile k i (m.scratch + k * t.w + i * 4096)))
    ++ ((List.range t.tiles).flatMap fun z => (List.range (t.width + 1)).map fun k =>
      (m.tiles + (z * (t.width + 1) + k) * 65536, t.tileImage z k))
    ++ [(m.block, t.hiddenBlock m.block (m.size - m.block))]

/-- The base of a team's save area (R328). -/
def saveBase (s : State) (tk : Nat) : Nat :=
  let t := s.teamAt tk
  let r := (s.gridAt t.grid).record
  (r.savePool.toNat + t.index * r.saveBytes) % 2 ^ 56

/-- Pages of a save area that can be reached, and whether one needs service: a page that refuses keeps what it holds. -/
def areaPages (s : State) (die : Nat) (write : Bool) (l : List Nat) : List PagePlace × Option (Nat × Nat × Nat × Nat) × State :=
  match l with
  | [] => ([], none, s)
  | a :: t =>
    match translate s die a write with
    | (.ok pa leaf, s) =>
      let r := areaPages s die write t
      (⟨a / 65536, pa - a % 65536, leaf⟩ :: r.1, r.2)
    | (.service kind level base size, s) => ([], some (kind, level, base, size), s)
    | (_, s) => areaPages s die write t

/-- One address in each page of a save area. -/
def areaAddrs (va size : Nat) : List Nat :=
  (List.range (size / 65536 + 2)).filterMap fun i =>
    let a := if i = 0 then va else (va / 65536 + i) * 65536
    if a < va + size then some (a % 2 ^ 56) else none

/-- Bytes stored to the reached pages of a save area. -/
def storeReached (s : State) (die : Nat) (ps : List PagePlace) (va : Nat) (bs : List Byte) : State :=
  bs.zipIdx.foldl (fun s b =>
    let a := (va + b.2) % 2 ^ 56
    if ps.any fun p => p.page == a / 65536 then engineStore s die ps a b.1 else s) s

/-- A transit command of a team has an end in its scratchpad or its rings, or is a transfer of its matrix engine in
execution. -/
def TransitCmd.local (c : TransitCmd) : Bool :=
  match c.op with
  | .copy d =>
    let a := (copyEnd d 0).kind
    let b := (copyEnd d 1).kind
    a == 1 || a == 2 || b == 1 || b == 2
  | .gacc _ _ _ _ => true
  | .fetch .. | .drain .. => c.running

/-- Every outstanding operation of the group that writes a register has completed, or has recorded its unfinished lanes
for replay (R227 step 1). -/
def canPark (s : State) (g : Group) : Bool :=
  g.scalarOps.isEmpty && g.laneOps.all (fun o => o.write || o.todo != []) &&
    !((s.teamAt g.teamKey).engine.queue.any fun c => c.key == g.key && c.op == .mdrain && c.ctl.getLsbD 39)

/-- What a team's save waits for (R227): no group holds a slot, no operation is left that writes a register of one whose record is
written, and every engine operation on its scratchpad, rings and tiles has completed. The matrix engine is saved between
passes, and blocked ring operations with the ring table. -/
def saveReady (s : State) (tk : Nat) : Bool :=
  match Assoc.find? s.teams tk with
  | some t =>
    let gs := s.teamGroups tk
    let ks := gs.map (·.1)
    let mine (k : Nat) : Bool := ks.contains k
    t.placed && !(gs.any fun p => p.2.status == .running) && (t.request.isSome || gs.any fun p => p.2.status == .saved)
      && gs.all (fun p => p.2.status == .pending || canPark s p.2) && !(t.ringOps.any fun o => o.turn t)
      && s.cores.all fun c =>
        !(c.2.transit.any fun x => mine x.key && x.local) && !(c.2.strmQ.any fun x => mine x.key)
          && !(c.2.strm.any fun x => mine x.key)
  | none => false

/-- A transfer of the team's matrix engine. -/
def TransitCmd.ofEngine (c : TransitCmd) (tk : Nat) : Bool :=
  match c.op with
  | .fetch t _ _ | .drain t _ => t == tk
  | _ => false

/-- The matrix commands of a saved team raise anew the transfers that have not ended (R212). -/
def Engine.settleRaised (e : Engine) : Engine := { e with queue := e.queue.map fun c => { c with raised := c.landed } }

/-- The team leaves its core, with what its micro-programs have left (R227, R317). -/
def leaveCore (s : State) (tk : Nat) : State :=
  let t := s.teamAt tk
  let ks := (s.teamGroups tk).map (·.1)
  let c := s.coreAt t.core
  let s := s.putCore t.core { c with
    transit := c.transit.filter fun x => !x.ofEngine tk
    strmDone := c.strmDone.filter fun x => !ks.contains x.key
    strmOut := c.strmOut.filter fun x => !ks.contains x.key }
  let s := s.putTeam tk { t with
    placed := false
    request := none
    saved := some s.stamp
    engine := t.engine.settleRaised
    strmDone := c.strmDone.filter fun x => ks.contains x.key
    strmOut := c.strmOut.filter fun x => ks.contains x.key }
  { s with stamp := s.stamp + 1 }

/-! Parking for a save (R222, R227). -/

/-- The group leaves its slot for its team's save; a pending PREEMPT is consumed (R222, R227). -/
def Group.park (g : Group) : Group := { g with preempt := false, status := .saved, wait := .none }

/-- A group writes its record and frees its slot (R227 steps 2 to 4); none while a page of the record needs service, which is
asked for. -/
def parkInArea (s : State) (key : Nat) (g : Group) : Option State × State :=
  let tk := g.teamKey
  let t := s.teamAt tk
  let die := g.die
  let s' := s.putGroup key g.park
  match (areaMap s' tk).records.find? fun r => r.2.key == key with
  | none => (some s', s)
  | some (o, g') =>
    let va := saveBase s tk
    match areaPages s die true (areaAddrs ((va + o) % 2 ^ 56) (recordBytes g')) with
    | (_, some (kind, level, base, size), s) =>
      (none, askService s die g kind level base size (faultDetail true false false true))
    | (ps, none, s) =>
      let t := { t with hidden := s.free }
      let s := { (s.putTeam tk t).putGroup key g.park with free := s.free + (areaMap s' tk).size }
      (some ((recordImage s t g' o).foldl (fun s x => storeReached s die ps (va + x.1) x.2) s), s)

/-- PREEMPT without a handler (R217): trap entry, and TRET.park at once; the group parks once it can. -/
def parkNow (s : State) (key : Nat) (g : Group) : Result State :=
  let grid := s.gridAt g.grid
  let h := (g.enterTrap (trapVector grid) (causeWord .preempt 0 none) g.pc 0 0 none).leaveTrap grid
  if canPark s g then
    match parkInArea s key h with
    | (some s, _) => .next (s.perfEvent g.core 10 g.grid 1)
    | (none, s) => .next s
  else .refused (.notEnabled "TRAP_ENTRY")

/-- TRET.park (R222, R227): a group whose register writes are outstanding waits; an ill-formed resumption address traps
when the restored split resumes. -/
def execTretPark (_ : SR) (s : State) : Result State :=
  tretInstr s fun g =>
    if canPark s g then
      match parkInArea s s.cur.key (g.leaveTrap s.grid) with
      | (some s, _) => .next s
      | (none, s) => waitIn s g .handlerLanes
    else waitIn s g .handlerLanes

/-- TRAP_ENTRY (R216, R217): the first pending B cause of a group that is not in handler state, at a pass boundary for the
matrix role (R211). PREEMPT without a handler acts as if one had at once executed TRET.park. -/
def execTrapEntry (key : Nat) (s : State) : Result State :=
  let g := s.groupAt key
  if g.status != .running || !g.boundaryPending || !g.atBoundary then .refused (.notEnabled "TRAP_ENTRY")
  else match g.mismatch, g.xfererr with
    | (detail, addr) :: rest, _ =>
      .next (takeBoundary (s.putGroup key { g with mismatch := rest }) key .mismatch detail.toNat addr)
    | [], some (code, addr) =>
      .next (takeBoundary (s.putGroup key { g with xfererr := none }) key .xfererr code.toNat addr)
    | [], none =>
      if (s.gridAt g.grid).record.trapVec = 0 then parkNow s key g
      else .next (takeBoundary (s.putGroup key { g with preempt := false }) key .preempt 0 0)

/-- The time in which a requested save must end has passed (R228). -/
def Team.late (t : Team) (now : Nat) : Bool :=
  match t.request with
  | some d => decide (d < now)
  | none => false

/-- TEAM_SAVE (R227 to R229): the save area is written in time, and the team's share of its core returns to the pool. -/
def execTeamSave (tk : Nat) (s : State) : Result State :=
  if !saveReady s tk || (s.teamAt tk).late s.cycle.toNat then .refused (.notEnabled "TEAM_SAVE")
  else
    let t := s.teamAt tk
    let die := dieOfCore t.core
    let va := saveBase s tk
    let size := (areaMap s tk).size
    match areaPages s die true (areaAddrs va size) with
    | (_, some (kind, level, base, size), s) =>
      .next (askService s die { Group.blank with grid := t.grid, team := t.index } kind level base size
        (faultDetail true false false true))
    | (ps, none, s) =>
      let s := { s.putTeam tk { t with hidden := s.free } with free := s.free + size }
      let s := (saveImage s tk).foldl (fun s x => storeReached s die ps (va + x.1) x.2) s
      .next (leaveCore s tk)

/-- PREEMPTION_DEADLINE (R228): the team has not been saved in time. -/
def execPreemptionDeadline (tk : Nat) (s : State) : Result State :=
  match Assoc.find? s.teams tk with
  | some t =>
    match t.late s.cycle.toNat, s.teamGroups tk with
    | true, (_, g) :: _ => .next (abortTeam s tk g.gid .deadline g.trapcause (g.trappc.setWidth 64) g.trapaddr)
    | _, _ => .refused (.notEnabled "PREEMPTION_DEADLINE")
  | none => .refused (.notEnabled "PREEMPTION_DEADLINE")

/-- A team whose time has passed: its abort comes before anything else (R228). -/
def overdueTeam (s : State) : Option Nat :=
  (s.teams.find? fun p => p.2.late s.cycle.toNat && !(s.teamGroups p.1).isEmpty).map (·.1)

/-! The restore (R228, R230). -/

/-- The apertures of a group record. -/
def restoreApertures (rd : AreaRead) (o : Nat) (g : Group) : Group :=
  (List.range 16).foldl (fun g n =>
    let x := rd.nat (o + 0x220 + 16 * n) 16
    g.writeA n ⟨Bits.bit x 95, BitVec.ofNat 56 (Bits.field x 32 56), BitVec.ofNat 32 x⟩) g

/-- A group with the visible fields of its record (R230). -/
def restoreGroup (rd : AreaRead) (o : Nat) (g : Group) : Group :=
  let csr (i : Nat) : Word := BitVec.ofNat 64 (rd.nat (o + 0x360 + 8 * i) 8)
  let past := g.past
  let g := (List.range 64).foldl (fun g n => g.writeS n (BitVec.ofNat 64 (rd.nat (o + 8 * n) 8))) g
  let g := (List.range 8).foldl (fun g n => g.writeP n (BitVec.ofNat 32 (rd.nat (o + 0x200 + 4 * n) 4))) g
  let g := (List.range 8).foldl (fun g n => g.writeK n (BitVec.ofNat 64 (rd.nat (o + 0x320 + 8 * n) 8))) g
  restoreRegisters rd (o + 0x1000) { restoreApertures rd o g with
    past := past
    rnd := csr 0
    dplane := (csr 1).setWidth 56
    dstride := (csr 2).setWidth 56
    srseed := csr 3
    cring := csr 4
    ulivec := (csr 5).setWidth 56
    trapcause := csr 6
    trappc := (csr 7).setWidth 56
    traplanes := (csr 8).setWidth 32
    trapaddr := csr 9
    flagSoft := BitVec.ofNat 12 (rd.nat (o + 0x3B0) 8)
    draws := BitVec.ofNat 32 (rd.nat (o + 0x3B8) 8)
    drawid := BitVec.ofNat 32 (rd.nat (o + 0x3C0) 8) }

/-- The reserved fields of a group record are zero, R131 would take its values, and its hidden block has its CRC (R230). -/
def recordOk (rd : AreaRead) (o : Nat) : Bool :=
  let csr (i : Nat) : Word := BitVec.ofNat 64 (rd.nat (o + 0x360 + 8 * i) 8)
  let below (x n : Nat) : Bool := decide (x < 2 ^ n)
  let aps := (List.range 16).all fun n =>
    let x := rd.nat (o + 0x220 + 16 * n) 16
    Bits.field x 88 7 == 0 && Bits.field x 96 32 == 0
  aps && csr 0 &&& 0xF == csr 0 && below (csr 1).toNat 56 && below (csr 2).toNat 56
    && csr 4 &&& 0x00FFFFFFFFFFFE0F == csr 4 && below (csr 5).toNat 56 && (csr 5).toNat % 4 == 0 && below (csr 7).toNat 56
    && below (csr 8).toNat 32 && !csrRefuses 0 (csr 0) && !csrRefuses 3 (csr 2) && !csrRefuses 5 (csr 4)
    && below (rd.nat (o + 0x3B0) 8) 12 && below (rd.nat (o + 0x3B8) 8) 32 && below (rd.nat (o + 0x3C0) 8) 32
    && Bits.field (csr 6).toNat 16 16 == 0 && !(csr 6).getLsbD 14
    && rd.nat (o + 0x3C8) 56 == 0 && blockOk (rd (o + 0x400) 3072)

/-- What a restore checks of a save area (R230): the CRCs of the frames and of the hidden team block, and the header, whose fields
but for its CYCLE are those the save wrote (assumption 45). -/
def areaOk (s : State) (tk : Nat) (rd : AreaRead) : Bool :=
  let m := areaMap s tk
  let h := saveHeader s tk
  rd 0 24 == h.take 24 && rd 32 4064 == h.drop 32 && m.records.all (fun r => recordOk rd r.1)
    && ((List.range (frameCount s tk)).all fun i => blockOk (rd (m.frames + 8192 * i) 8192))
    && blockOk (rd m.block (m.size - m.block))

/-- The scratchpad of a save area, plane by plane and tile by tile; none when a stored tile does not decode (R248). -/
def restoreScratch (t : Team) (rd : AreaRead) (at_ : Nat) : Option Team :=
  (List.range (t.width + 1)).foldl (fun a k => (List.range (t.w / 4096)).foldl (fun a i =>
    match a with
    | none => none
    | some t =>
      let home := rd (at_ + k * t.w + i * 4096) 4096
      let bs := match Assoc.find? t.offsets (k * 2 ^ 20 + i) with
        | some e => Compress.decodeTile e home
        | none => some home
      bs.map fun bs => t.writeScratch (k * t.w + i * 4096) bs) a) (some t)

/-- The accumulator tiles of a save area. -/
def restoreTiles (t : Team) (rd : AreaRead) (at_ : Nat) : Team :=
  (List.range t.tiles).foldl (fun t z => (List.range (t.width + 1)).foldl (fun t k =>
    t.writeZ z k ((List.range 16384).map fun i => rd.nat (at_ + (z * (t.width + 1) + k) * 65536 + 4 * i) 4)) t) t

/-- The team's groups on their new core (R228): those that held slots take the lowest free ones, parked continuations
their granules, and every frame its off-core bit (R365); no later read of CYCLE is below an earlier one (R101). -/
def rejoinGroups (s : State) (tk core : Nat) : State :=
  let ks := ((s.teamGroups tk).filter fun p => p.2.status == .saved).map (·.1)
  let slots := freeSlotList s core
  let slotOf (k : Nat) : Nat := slots.getD ((ks.takeWhile (· != k)).length) 0
  let framed := ((s.teamGroups tk).filter fun p => p.2.frame.isSome).map (·.1)
  let area (k : Nat) : Option Nat := framePlace s core (framed.takeWhile (· != k)).length
  { s with groups := Assoc.mapVals s.groups fun k g =>
      if g.teamKey ≠ tk then g
      else
        let g := { g with
          cycleMin := cycleAt s g
          core := core
          late := []
          frame := g.frame.map fun f => { f with offcore := true, evicted := none, area := area k } }
        if g.status = .saved then g.take (slotOf k) else g }

/-- The team is back on a core: a cross-core sink before its first instruction (R271). -/
def rejoinCore (s : State) (tk core : Nat) (t : Team) : State :=
  let s := invalidateL1 (rejoinGroups s tk core) core
  let c := s.coreAt core
  let s := s.putCore core { c with
    taken := 0
    strmDone := c.strmDone ++ t.strmDone
    strmOut := c.strmOut ++ t.strmOut }
  let s := s.putTeam tk { t with
    core := core
    placed := true
    saved := none
    strmDone := []
    strmOut := []
    rings := t.rings.map fun x => (x.1, { x.2 with place := ringPlace s.stamp x.1 })
    placedAt := s.stamp }
  { s.modGrid t.grid (fun x => { x with waiting := none }) with stamp := s.stamp + 1 }

/-- The restore from a read save area, or the end of the team (R230, R248). -/
def restoreTeam (s : State) (tk core : Nat) (rd : AreaRead) (g0 : Group) : State :=
  let t := s.teamAt tk
  let m := areaMap s tk
  if !areaOk s tk rd then abortTeam s tk g0.gid .saveCheck g0.trapcause (g0.trappc.setWidth 64) g0.trapaddr
  else match restoreScratch t rd m.scratch with
    | none => machineCheckTeam s tk g0
    | some t =>
      let t := restoreTiles t rd m.tiles
      let s := m.records.foldl (fun s r => s.putGroup r.2.key (restoreGroup rd r.1 r.2)) s
      rejoinCore s tk core t

/-- TEAM_RESTORE (R228, R302): the first choice of its die's placer is this saved team, it fits, and its SRAM is there. -/
def execTeamRestore (tk : Nat) (s : State) : Result State :=
  let t := s.teamAt tk
  match placerCore s (s.gridAt t.grid).die, s.teamGroups tk with
  | some (.saved k, core), (_, g0) :: _ =>
    if k ≠ tk ∨ (s.coreAt core).taken < t.sram then .refused (.notEnabled "TEAM_RESTORE")
    else
      let die := dieOfCore core
      let va := saveBase s tk
      let size := (areaMap s tk).size
      match areaPages s die false (areaAddrs va size) with
      | (_, some (kind, level, base, size), s) =>
        .next (askService s die g0 kind level base size (faultDetail false false false true))
      | (ps, none, s) =>
        let rd := readArea s die ps va
        if (areaAddrs va size).any fun a => !(ps.any fun p => p.page == a / 65536) then
          .next (abortTeam s tk g0.gid .saveCheck g0.trapcause (g0.trappc.setWidth 64) g0.trapaddr)
        else .next (restoreTeam s tk core rd g0)
  | _, _ => .refused (.notEnabled "TEAM_RESTORE")

/-! Machine checks (R232, R402). -/

/-- MACHINE_CHECK (R232): an uncorrectable error that a team consumes. -/
def execMachineCheck (tk : Nat) (s : State) : Result State :=
  match Assoc.find? s.teams tk, s.teamGroups tk with
  | some t, (_, g) :: _ =>
    if t.grid = 0 then .refused (.notEnabled "MACHINE_CHECK") else .next (machineCheckTeam s tk g)
  | _, _ => .refused (.notEnabled "MACHINE_CHECK")

/-- A team on a die can be in contact with a region whose fan-out has lost a die: its die is the region's home or one of its
holders (R232, R243). -/
def linkTouches (s : State) (die : Nat) : Bool :=
  (List.range 4).any fun home => (s.dieAt home).orrery.any fun r =>
    r.cut s home && (die == home || r.holders.getLsbD die)

/-- DIE_LINK_FAILURE (R232, R402): a link between two neighbouring dies (R11). The teams that are in contact with a region whose
fan-out has lost a die end, those of `touched` now and others as they come to touch one, and the device takes no further
launch. -/
def execDieLinkFailure (a b : Nat) (touched : List Nat) (s : State) : Result State :=
  if 4 ≤ a ∨ 4 ≤ b ∨ (a ^^^ b ≠ 1 ∧ a ^^^ b ≠ 2) then .refused (.notEnabled "DIE_LINK_FAILURE")
  else
    let s := { s with links := (min a b, max a b) :: s.links }
    let s := touched.foldl (fun s tk =>
      match Assoc.find? s.teams tk, s.teamGroups tk with
      | some t, (_, g) :: _ => if t.grid ≠ 0 ∧ linkTouches s (dieOfCore t.core) then machineCheckTeam s tk g else s
      | _, _ => s) s
    .next { s with
      ctl := { s.ctl with fatal := true, mcheck := true }
      outputs := s.outputs ++ [.msix 1] }

/-! What an abort leaves open in memory (R231). -/

/-- A transit command in execution performs its accesses. -/
def performTransit (s : State) (core : Nat) (c : TransitCmd) : Result State :=
  match c.op with
  | .copy d => runCopy s core d c
  | .gacc h off ring notify => runGacc s core c h off ring notify
  | .fetch tk id second => runFetch s core c tk id second
  | .drain tk id => runDrain s core c tk id

/-- A sample whose command writes no completion record. -/
def Sample.quiet (x : Sample) : Sample := { x with cring := 0 }

/-- What the other members of a collective would have brought, which nothing states. -/
def freeParts (s : State) (x : CollDesc) (n planes : Nat) : List MemberPart :=
  let w := x.sent n * x.width
  (List.range (n - 1)).map fun r =>
    ⟨x.op, x.fmt, x.count, (List.range planes).map fun k => (List.range w).map fun i =>
      Config.freeByte (s.free + (r * planes + k) * w + i)⟩

/-- The state in which a cancelled command would have completed, had it been in execution and met no fault. -/
def Cancelled.run (s : State) (c : Cancelled) : State :=
  let s := (s.putGroup c.group.key c.group).putTeam c.group.teamKey c.team
  let r := match c.op with
    | .transit x =>
      if x.running && !x.life.past && x.life.fault == 0 && x.turns c.team then
        performTransit s c.team.core { x with sample := x.sample.quiet }
      else .next s
    | .coll x =>
      let d := collDesc x.desc
      let planes := x.sample.width + 1
      let n := x.members.length
      if x.life.past || x.life.fault != 0 || x.life.wait.isSome then .next s
      else runColl { s with free := s.free + n * planes * d.sent n * d.width } d { x with sample := x.sample.quiet }
        ⟨x.rank, x.members⟩ (freeParts s d n planes)
  match r with
  | .next s => s
  | _ => s

/-- A byte that an engine has stored to a physical address, at the home and in its die's copy (R242). -/
def landByte (s : State) (die pa : Nat) (b : Byte) : State :=
  let s := writeRaw s pa [b]
  let d := s.dieAt die
  match Assoc.find? d.ncLines (pa / 128) with
  | some v => s.putDie die { d with ncLines := Assoc.put d.ncLines (pa / 128) (patchLine v (pa % 128) b) }
  | none => s

/-- Memory holds any subset of the bytes that a command was writing (R231): each byte by which `new` differs stays, or takes its
value there, as a free bit says. -/
def takeSubset (s : State) (die : Nat) (new : State) : State :=
  ((s.mem ++ new.mem).map (·.1)).eraseDups.foldl (fun s a =>
    let b := readByte new a
    if readByte s a = b then s
    else
      let s' := { s with free := s.free + 1 }
      if (Config.freeByte s.free).getLsbD 0 then landByte s' die a b else s') { s with free := new.free }

/-- The first cancelled command is done with: its key slots are released, and its destination left as open as R231 says. -/
def settleCancelled (s : State) : State :=
  match s.cancelled with
  | [] => s
  | c :: rest =>
    let s := { s with cancelled := rest }
    let s := takeSubset s (dieOfCore c.team.core) (c.run s)
    match c.op with
    | .transit x => dropKeys s x.sealing
    | .coll _ => s

end Sys2Proof.Machine
end

