-- ==== Sys2Proof/Machine/Service.lean ====
section
/-! DEFINITION. Page walks, fault records and page service (R215, R320, R321, R355, R404), the replay of the side log
(R272, R273), and the events of the caches: leases, the orrery and write-backs (R241, R245, R249, R377). -/

namespace Sys2Proof.Machine

/-! Walks (R355). -/

/-- An access to an address has no translation that it can use: none is cached, or a write finds the dirty bit clear
(R356). -/
def needsWalk (s : State) (die va : Nat) (write : Bool) : Bool :=
  match tlbFind (s.dieAt die) va with
  | some t => write && !leafD t.leaf
  | none => true

/-- PAGE_WALK (R355, R356): the walk for an access of a die; service and faults are met by the access itself. -/
def execPageWalk (die : Nat) (va : BitVec 56) (write : Bool) (s : State) : Result State :=
  if 4 ≤ die ∨ !needsWalk s die va.toNat write then .refused (.notEnabled "PAGE_WALK")
  else .next (translate s die va.toNat write).2

/-- WALK_MIGRATING_TIMEOUT (R355): 25,000 cc have passed. -/
def execWalkMigratingTimeout (die : Nat) (va : BitVec 56) (s : State) : Result State :=
  let d := s.dieAt die
  let page := va.toNat / 65536 * 65536
  match Assoc.find? d.walks page with
  | some (some since) =>
    if s.cycle.toNat < since + 25000 then .refused (.notEnabled "WALK_MIGRATING_TIMEOUT")
    else .next (s.putDie die { d with walks := Assoc.put d.walks page none })
  | _ => .refused (.notEnabled "WALK_MIGRATING_TIMEOUT")

/-! The fault record queue (R320, R321, R393, R394). -/

/-- The place of a die's fault record region: 64 KiB of its Thexo area, beyond the blocks of R409. -/
def faultBase (die : Nat) : Nat := die * (192 * 2 ^ 30) + 191 * 2 ^ 30 + (2048 + Config.faultRegion die % 8192) * 65536

/-- Records of a die's queue that its consumer has not passed (R394). -/
def Die.queued (d : Die) : Nat := (d.faultSeq + 2048 - d.faultCons % 2048) % 2048

/-- The 64 bytes of a record (R320). -/
def FaultRecord.image (r : FaultRecord) : List Byte :=
  let body := Bits.leBytes 8 r.va ++ Bits.leBytes 4 r.grid ++ Bits.leBytes 4 r.team ++ Bits.leBytes 4 r.gid.toNat ++
    Bits.leBytes 1 r.kind ++ Bits.leBytes 1 r.detail ++ Bits.leBytes 2 r.code.toNat ++ Bits.leBytes 8 r.trapcause.toNat ++
    Bits.leBytes 8 r.trappc.toNat ++ Bits.leBytes 8 r.cycle.toNat ++ Bits.leBytes 8 0 ++ Bits.leBytes 4 r.seq
  body ++ Bits.leBytes 4 (Crypto.crc32c body).toNat

/-- The vectors that the writing of a record raises (R393, R403): 0 for a record in an empty queue in host-assisted page-fault mode,
1 for an abort record in host-assisted error mode; in firmware mode Thexo consumes the record first. -/
def recordVectors (s : State) (d : Die) (r : FaultRecord) : List Output :=
  (if d.queued = 0 ∧ s.ctl.init.getLsbD 1 then [.msix 0] else []) ++
    (if r.kind = 5 ∧ s.ctl.init.getLsbD 4 then [.msix 1] else [])

/-- FAULT_RECORD (R320, R321): the oldest pending record of a die enters its queue, when that holds fewer than 1,024
unserviced records and has room. -/
def execFaultRecord (die : Nat) (s : State) : Result State :=
  let d := s.dieAt die
  match d.faultPend with
  | r :: rest =>
    if 1024 ≤ d.faults.length ∨ 1024 ≤ d.queued then .refused (.notEnabled "FAULT_RECORD")
    else
      let r := { r with seq := d.faultSeq % 2 ^ 32, cycle := s.cycle }
      let out := recordVectors s d r
      let s := s.putDie die { d with faultPend := rest, faults := d.faults ++ [r], faultSeq := d.faultSeq + 1 }
      let s := writeRaw s (faultBase die + 64 * (r.seq % 1024)) r.image
      .next { s with outputs := s.outputs ++ out }
  | [] => .refused (.notEnabled "FAULT_RECORD")

/-! The completion of service (R215, R321, R359, R404). -/

/-- An address lies in the region of a record. -/
def FaultRecord.holds (r : FaultRecord) (va : Nat) : Bool := r.va ≤ va && va < r.va + r.size

/-- An access waits on a record: it touches its region, and writes if the record is of copy-on-write. -/
def FaultRecord.awaited (r : FaultRecord) (a : Acc) : Bool :=
  overlap a.va a.bytes r.va r.size && (r.kind != 2 || a.kind.writes)

/-- The outcome of a record: serviced, or unrecoverable with a code (R404). -/
inductive Outcome where
  | serviced
  | unrecoverable (code : BitVec 16)
  deriving DecidableEq, Repr

/-- The trap that an unrecoverable record raises, and its detail (R213, R215). -/
def FaultRecord.trap (r : FaultRecord) (code : BitVec 16) : Cause × Nat :=
  match r.kind with
  | 2 => (.cow, code.toNat)
  | 3 => (.tablenode, r.detail)
  | _ => (.page, code.toNat)

/-- The group's stream can trap now: it holds a slot, and is the stream that handler state leaves running (R216, R218). A frozen
split that cannot asks for its pages again when it runs (assumption 74). -/
def Group.canTrap (g : Group) (split : Option Nat) : Bool :=
  g.status == .running && (match split with
    | some i => (i == 4) == g.handler
    | none => true)

/-- The lanes of a held load or atomic that need none of the pages of a failed record, and whose own pages are there by now, are
performed (R215). -/
def finishOthers (s : State) (k : Nat) (r : FaultRecord) (x : LaneOp) : LaneOp × State :=
  let s := { s with cur := ⟨k, some x.split⟩ }
  let core := (s.groupAt k).core
  if !(x.todo.any (·.returns)) || logBlocks s core x.order x.todo then (x, s)
  else
    let c := checkAll s core x.todo
    performLanes c.2 core k x.order x (c.1.map fun y => if r.awaited y.1 then (y.1, Verdict.waiting) else y)

/-- A held lane operation is told the outcome of a record: it repeats its lanes as it issues, or traps with its unfinished
lanes, those that can finish having written their results (R215). Its stores that wait for entries of the side log wait
for no service (R272). While an access of the scalar stream stands before it, it asks again (assumption 74). -/
def serveLaneOp (s : State) (k : Nat) (r : FaultRecord) (o : Outcome) (x : LaneOp) : State :=
  if !(x.todo.any r.awaited) then s
  else
    match o with
    | .unrecoverable code =>
      if (s.groupAt k).canTrap (some x.split) && x.logWait.isNone then
        let t := r.trap code
        let p := finishOthers s k r x
        trapLanes { p.2.modGroup k (·.settleOp p.1) with cur := ⟨k, some x.split⟩ } t.1 t.2 p.1.replayMask p.1.lowest
      else s.modGroup k (·.putOp { x with again := true })
    | .serviced => s.modGroup k (·.putOp { x with again := true })

/-- A fetch of a split is told the outcome (R215, R213). -/
def serveFetch (s : State) (k i : Nat) (r : FaultRecord) (o : Outcome) : State :=
  let g := s.groupAt k
  let x := g.splitAt i
  match x.fetch with
  | some va =>
    if !r.holds va then s
    else
      let s := s.putGroup k (g.putSplit i { x with fetch := none })
      match o with
      | .unrecoverable _ =>
        if g.canTrap (some i) then takeTrap { s with cur := ⟨k, some i⟩ } .ifetch 2 x.mask (BitVec.ofNat 64 va) else s
      | .serviced => s
  | none => s

/-- A waiting scalar stream is told the outcome (R215, R292, R318); a fetch that fails is reported at the address of its
instruction's first word (R66). -/
def serveScalar (s : State) (k : Nat) (r : FaultRecord) (o : Outcome) : State :=
  let g := s.groupAt k
  if !r.holds g.waitMark then s
  else
    let s' := s.putGroup k { g with wait := .none }
    let t := { s' with cur := ⟨k, none⟩ }
    let addr := BitVec.ofNat 64 g.waitMark
    let fetched := BitVec.ofNat 64 g.pc.toNat
    match g.wait, o with
    | .service, .serviced | .ringService, .serviced => s.putGroup k { g with wait := .none, resume := some g.pc }
    | .fetch, .serviced => s'
    | .service, .unrecoverable code => takeTrap t (r.trap code).1 (r.trap code).2 0 addr
    | .fetch, .unrecoverable _ => takeTrap t .ifetch 2 0 fetched
    | .ringService, .unrecoverable _ => s.putGroup k { g with wait := .none, noRing := true }
    | _, _ => s

/-- A fault code of a completion whose XFERERR names the address at which it was met; of the servicer's own codes no description
names one (R213, R319). -/
def namesAddress (code : BitVec 16) : Bool := code == 1 || code == 2 || code == 6 || code == 7

/-- An engine command is told the outcome (R210, R215, R318); a code of 0 stands for 0x0001 (assumption 34). -/
def Life.serve (l : Life) (r : FaultRecord) (o : Outcome) : Life :=
  match l.wait with
  | some va =>
    if !r.holds va then l
    else match o with
      | .serviced => { l with wait := none }
      | .unrecoverable code =>
        if l.ring then { l with wait := none, noRing := true }
        else
          let code := if code = 0 then 1 else code
          { l with wait := none, fault := code, addr := if namesAddress code then va else 0 }
  | none => l

/-- The engine commands of a grid on a core, its team's matrix commands, and its collectives. -/
def serveEngines (s : State) (die : Nat) (r : FaultRecord) (o : Outcome) : State :=
  let mine (key : Nat) : Bool := (s.groupAt key).grid == r.grid && (s.groupAt key).die == die
  let strm (c : StrmCmd) : StrmCmd := if mine c.key then { c with life := c.life.serve r o } else c
  { s with
    cores := Assoc.mapVals s.cores fun _ c => { c with
      transit := c.transit.map fun x => if mine x.key then { x with life := x.life.serve r o } else x
      strmQ := c.strmQ.map strm
      strm := c.strm.map strm
      strmDone := c.strmDone.map strm }
    teams := Assoc.mapVals s.teams fun _ t => { t with
      engine := { t.engine with
        queue := t.engine.queue.map fun x => if mine x.key then { x with life := x.life.serve r o } else x } }
    colls := s.colls.map fun c => if mine c.key then { c with life := c.life.serve r o } else c }

/-- Side-log entries that wait on a record replay, or are dropped (R272, R273). -/
def serveSideLog (s : State) (core : Nat) (r : FaultRecord) (o : Outcome) : State :=
  let c := s.coreAt core
  let hit (e : SideEntry) : Bool := (s.groupAt e.key).grid == r.grid && r.awaited e.acc
  match o with
  | .serviced => s.putCore core { c with sideLog := c.sideLog.map fun e => if hit e then { e with ready := true, since := s.cycle.toNat } else e }
  | .unrecoverable code =>
    let s' := s.putCore core { c with sideLog := c.sideLog.filter fun e => !hit e }
    let gone := c.sideLog.filter hit
    if gone = [] then s else logFreed (gone.foldl (fun s e => dropStore s core e.key e.acc code) s') core

/-- A grid whose status word cannot be stored completes without it (R329). -/
def serveStatus (s : State) (die : Nat) (r : FaultRecord) (o : Outcome) : State :=
  let x := s.gridAt r.grid
  match o with
  | .unrecoverable code =>
    if gridEnded s r.grid && x.die == die && !x.noStatus && r.holds x.record.status.toNat then
      (pendRecord s die (droppedRecord s r.grid 0 0 x.record.status.toNat code)).putGrid r.grid { x with noStatus := true }
    else s
  | .serviced => s

/-- A saved team whose save area cannot be read ends (R230). -/
def serveSaved (s : State) (r : FaultRecord) (o : Outcome) : State :=
  let tk := keyOf r.grid r.team
  match o, Assoc.find? s.teams tk, s.teamGroups tk with
  | .unrecoverable _, some t, (_, g) :: _ =>
    if t.saved.isSome && overlap (saveBase s tk) (areaMap s tk).size r.va r.size then
      abortTeam s tk g.gid .saveCheck g.trapcause (g.trappc.setWidth 64) g.trapaddr
    else s
  | _, _, _ => s

/-- What waits on a record in one group, in the order of its issue (R91, R216): the lane operations that issued before a scalar
access that waits, that access, the other lane operations, and then the fetches. When the first of them traps, the access
of a scalar stream that would trap after it is discarded, and executes again. -/
def serveGroup (s : State) (k : Nat) (r : FaultRecord) (o : Outcome) : State :=
  let g := s.groupAt k
  let scalar := g.wait == .service && r.holds g.waitMark
  let early (x : LaneOp) : Bool := scalar && decide (x.id < g.waitOp)
  let first := match o with
    | .unrecoverable _ => g.laneOps.any fun x => early x && x.todo.any r.awaited && x.logWait.isNone && g.canTrap (some x.split)
    | .serviced => false
  let s := if first then s.putGroup k { g with wait := .none } else s
  let s := (g.laneOps.filter early).foldl (fun s x => serveLaneOp s k r o x) s
  let s := if scalar then serveScalar s k r o else s
  let s := (g.laneOps.filter fun x => !early x).foldl (fun s x => serveLaneOp s k r o x) s
  let s := (List.range 5).foldl (fun s i => serveFetch s k i r o) s
  if scalar then s else serveScalar s k r o

/-- The private leaf that the servicer of a copy-on-write record has written refuses writes (R239). -/
def privateReadOnly (s : State) (r : FaultRecord) : Bool :=
  r.kind == 2 && match rawLeaf s r.va with
    | some e => !leafCow e && !leafW e && leafMig e % 2 == 0
    | none => false

/-- What a serviced record means to the accesses that joined it (R215, R239): the writes of a page whose private leaf refuses them
meet an unrecoverable fault with code 0x0002. -/
def effective (s : State) (r : FaultRecord) (o : Outcome) : Outcome :=
  match o with
  | .serviced => if privateReadOnly s r then .unrecoverable 2 else .serviced
  | .unrecoverable code => .unrecoverable code

/-- The frame that a page's leaf names holds contents that the servicer has placed there, before every other access (R257). -/
def placeContents (s : State) (r : FaultRecord) : State :=
  match rawLeafFrom s r.va (rootNode s) [0, 1, 2, 3] with
  | some (e, level) => dropCopies s (leafFrame e * 65536) (pageSize level)
  | none => s

/-- The translations of a record's region go, on every die (R359). -/
def dropRegion (s : State) (r : FaultRecord) : State :=
  let s := dropLeaves s (fun t => overlap t.base t.size r.va r.size) fun n =>
    overlap (n.prefix_ * 2 ^ (56 - 10 * n.level)) (2 ^ (56 - 10 * n.level)) r.va r.size
  s.modDies fun d => { d with walks := d.walks.filter fun w => !r.holds w.1 }

/-- A record has been serviced (R215, R321, R359, R404): it leaves the unserviced ones; on success the translations of its
region go, on every die; then every fault that joined it is told. -/
def completeService (s : State) (die : Nat) (r : FaultRecord) (o : Outcome) : State :=
  let d := s.dieAt die
  let s := s.putDie die { d with faults := d.faults.filter fun q => q.seq != r.seq }
  if 4 ≤ r.kind then s
  else
    let s := match o with
      | .serviced => placeContents (dropRegion s r) r
      | .unrecoverable _ => s.putDie die { s.dieAt die with walks := (s.dieAt die).walks.filter fun w => !r.holds w.1 }
    let o := effective s r o
    let keys := (s.groups.filter fun p => p.2.grid == r.grid && p.2.die == die).map (·.1)
    let s := serveEngines s die r o
    let s := keys.foldl (fun s k => serveGroup s k r o) s
    let cores := (s.cores.map (·.1)).filter fun c => dieOfCore c == die
    let s := cores.foldl (fun s c => serveSideLog s c r o) s
    serveSaved (serveStatus s die r o) r o

/-- The unserviced record of a die with a sequence number. -/
def State.unserviced (s : State) (die seq : Nat) : Option FaultRecord := (s.dieAt die).faults.find? fun r => r.seq == seq

/-- The host is the servicer of records of a kind (R403): page-fault service, copy-on-write, or error handling. -/
def hostServes (s : State) (kind : Nat) : Bool :=
  s.ctl.init.getLsbD (match kind with
    | 2 => 2
    | 4 | 5 => 4
    | _ => 1)

/-- The servicer's writes of page-table entries, at the entries' homes (R356, R357). -/
def serviceWrites (s : State) (l : List (Nat × Word)) : State :=
  l.foldl (fun s w => writeRaw s w.1 (Bits.leBytes 8 w.2.toNat)) s

/-- The leaves below a node, of the migration states that are asked for: the virtual address that each maps from, its level and
the entry. A pointer that a walk would not follow leads to none (R355). -/
def leavesFrom (s : State) (ok : Word → Bool) (va node : Nat) (levels : List Nat) : List (Nat × Nat × Word) :=
  match levels with
  | [] => []
  | level :: rest => (List.range 1024).flatMap fun i =>
    let e : Word := BitVec.ofNat 64 (readNat s (node + 8 * i) 8)
    let at_ := va + i * 2 ^ (46 - 10 * level)
    let next := Bits.field e.toNat 12 39 * 8192
    if !e.getLsbD 63 then []
    else if e.getLsbD 62 then (if leafShapeOk e level && ok e then [(at_, level, e)] else [])
    else if level == 3 || Bits.field e.toNat 51 9 != 0 || Bits.field e.toNat 0 12 != 0 || Bits.field e.toNat 60 2 != 0
        || spaceOf next != 0 || decide (hbmEnd ≤ next) then []
    else leavesFrom s ok at_ next rest

/-- The virtual address at which a leaf maps a 64 KiB unit, with its entry. -/
def leafAt (u : Nat) (l : Nat × Nat × Word) : Option (Nat × Word) :=
  let base := leafFrame l.2.2 * 65536
  let a := u * 65536
  if base ≤ a ∧ a < base + pageSize l.2.1 then some (l.1 + (a - base), l.2.2) else none

/-- The leaf under which a unit is sealed (R405): the lowest of some with a nonzero key index. -/
def sealLeaf (leaves : List (Nat × Nat × Word)) (u : Nat) : Option (Nat × Word) :=
  ((leaves.filterMap (leafAt u)).filter fun l => leafKey l.2 != 0).foldl (fun m l =>
    match m with
    | none => some l
    | some x => if l.1 < x.1 then some l else some x) none

/-- A unit sealed or unsealed under a key (R255). -/
def cryptUnit (key : BitVec 512) (encrypt : Bool) (va : Nat) (bs : List Byte) : List Byte :=
  (List.range 16).flatMap fun i =>
    Crypto.xtsUnit (Bits.leBytes 64 key.toNat) encrypt (va / 4096 + i) (part bs (4096 * i) 4096)

/-- The leaves of the page tables, of every migration state. -/
def allLeaves (s : State) : List (Nat × Nat × Word) := leavesFrom s (fun _ => true) 0 (rootNode s) [0, 1, 2, 3]

/-- What a 64 KiB unit that the servicer moves becomes on the way (R254): it leaves the device sealed under the key and the virtual
address of the leaf that has mapped it there, and comes back unsealed under those of the leaf by which the tables `s'` map it
then; with an empty slot it is not moved (R256). -/
def movedUnit (s s' : State) (from_ to_ : Nat) (bs : List Byte) : Option (List Byte) :=
  let out := spaceOf from_ < 2
  if out == decide (spaceOf to_ < 2) then some bs
  else match if out then sealLeaf (allLeaves s) (from_ / 65536) else sealLeaf (allLeaves s') (to_ / 65536) with
    | none => some bs
    | some (va, e) => (Assoc.find? s.keys (leafKey e)).map fun k => cryptUnit k.key out va bs

/-- A range of bytes copied below the translation; nobody keeps an older copy of its destination (R257). -/
def copyRaw (s : State) (from_ to_ n : Nat) : State := dropCopies (writeRaw s to_ (readBytes s from_ n)) to_ n

/-- A 64 KiB unit that the servicer moves (R239, R254, R403), to be mapped by the tables of `s'`; none when its key slot is empty. -/
def moveUnit (s s' : State) (c : Nat × Nat) : Option State :=
  (movedUnit s s' c.1 c.2 (readBytes s c.1 65536)).map fun bs => dropCopies (writeRaw s c.2 bs) c.2 65536

/-- Units moved in turn. -/
def moveUnits (s s' : State) (l : List (Nat × Nat)) : Option State :=
  match l with
  | [] => some s
  | c :: t => (moveUnit s s' c).bind fun s => moveUnits s s' t

/-- A physical range lies in the Thexo area of a die (R409), wholly or in part. -/
def inThexo (pa n : Nat) : Bool := (List.range 4).any fun d => overlap pa n (d * (192 * 2 ^ 30) + 191 * 2 ^ 30) (2 ^ 30)

/-- The servicer's writes map no Thexo area (R409): a leaf that names one stood in the tables before. -/
def mapsNoThexo (s s' : State) : Bool :=
  let before := allLeaves s
  (allLeaves s').all fun l => before.contains l || !inThexo (leafFrame l.2.2 * 65536) (pageSize l.2.1)

/-- The page of a copy-on-write record goes to the frame of the private leaf that the servicer has written, which has
copy-on-write clear and is writable, and names no frame of the shared page (R239); none when it has written no such leaf. -/
def copyOnWrite (s s' : State) (r : FaultRecord) : Option State :=
  match rawLeaf s r.va, rawLeaf s' r.va with
  | some old, some new =>
    if leafCow new || !leafW new || (leafCow old && leafFrame new == leafFrame old) then none
    else if leafFrame new = leafFrame old then some s'
    else some (copyRaw s' (leafFrame old * 65536) (leafFrame new * 65536) r.size)
  | _, _ => none

/-- The firmware's consumer index passes the records that have been serviced (R394). -/
def Die.consume (d : Die) : Die :=
  { d with faultCons := (d.faults.foldl (fun m r => min m r.seq) d.faultSeq) % 2048 }

/-- Thexo has consumed an abort record, or the record of a machine check, and raises vector 1 (R403, duty 4). -/
def consumeRecord (s : State) (r : FaultRecord) : State :=
  if r.kind = 5 then { s with outputs := s.outputs ++ [.msix 1] } else s

/-- PAGE_SERVICE_COMPLETE (R215, R403): Thexo firmware completes a record of a duty that it has: it has written page-table
entries and moved 64 KiB units, and for copy-on-write copied the page. -/
def execPageServiceComplete (die seq outcome : Nat) (code : BitVec 16) (writes : List (Nat × Word))
    (copies : List (Nat × Nat)) (s : State) : Result State :=
  let stop : Result State := .refused (.notEnabled "PAGE_SERVICE_COMPLETE")
  match s.unserviced die seq with
  | none => stop
  | some r =>
    let fits := writes.all (fun w => w.1 % 8 == 0 && w.1 + 8 ≤ hbmEnd) &&
      copies.all fun c => c.1 % 65536 == 0 && c.2 % 65536 == 0 && !frameFault s c.1 && !frameFault s c.2
    if hostServes s r.kind || decide (1 < outcome) || !fits then stop
    else
      match moveUnits s (serviceWrites s writes) copies with
      | none => stop
      | some moved =>
        let written := serviceWrites moved writes
        let finish (s : State) (o : Outcome) : Result State :=
          let s := consumeRecord (completeService s die r o) r
          .next (s.putDie die (s.dieAt die).consume)
        if !mapsNoThexo s written then stop
        else if outcome = 1 then finish written (.unrecoverable code)
        else if r.kind = 2 then match copyOnWrite moved written r with
          | some s => finish s .serviced
          | none => stop
        else finish written .serviced

/-- SVCDONE (R394, R404): the host names a record and its outcome; one that names no unserviced record is ignored. -/
def execSvcdone (value : Word) (s : State) : Result State :=
  let v := value.toNat
  let die := Bits.field v 32 2
  match s.unserviced die (Bits.field v 0 32), Bits.field v 34 2 with
  | some r, 0 => .next (completeService s die r .serviced)
  | some r, 1 => .next (completeService s die r (.unrecoverable (BitVec.ofNat 16 (Bits.field v 48 16))))
  | _, _ => .next s

/-! The side log (R272, R273). -/

/-- No older entry of the core touches a byte of the entry: entries of one group replay in program order (R272), and a child's
stand behind its parent's, which happen before them (R260, R261). -/
def SideEntry.first (e : SideEntry) (l : List SideEntry) : Bool :=
  !((l.takeWhile fun x => x.id != e.id).any fun x => x.touches e.acc.va e.acc.bytes)

/-- SIDE_LOG_REPLAY (R272, R273): a ready entry is performed, asks for service again, or is dropped. -/
def execSideLogReplay (core entry : Nat) (s : State) : Result State :=
  let c := s.coreAt core
  match c.sideLog.find? fun e => e.id == entry with
  | none => .refused (.notEnabled "SIDE_LOG_REPLAY")
  | some e =>
    if !e.ready || !e.first c.sideLog then .refused (.notEnabled "SIDE_LOG_REPLAY")
    else
      let g := s.groupAt e.key
      let leave (s : State) : State :=
        let c := s.coreAt core
        logFreed (s.putCore core { c with sideLog := c.sideLog.filter fun x => x.id != e.id }) core
      match checkAcc { s with cur := ⟨e.key, none⟩ } core e.acc with
      | (.ok ps, s) => .next (leave (performAcc s core e.key e.acc ps e.order).2)
      | (.service kind level base size, s) =>
        let s := askService s (dieOfCore core) g kind level base size (faultDetail true false e.acc.kind.atomic false)
        let c := s.coreAt core
        .next (s.putCore core { c with
          sideLog := c.sideLog.map fun x => if x.id = e.id then { x with ready := false } else x })
      | (.lost _, s) => .next (leave (dropStore s core e.key e.acc 6))
      | (.waiting, s) => .next s
      | (.badRoot, s) => .next (machineCheckTeam s g.teamKey g)
      | (_, s) => .next (leave (dropStore s core e.key e.acc 2))

/-! Caches. -/

/-- LEASE_EXPIRY (R241): a DC line of an L1 whose lease has ended. -/
def execLeaseExpiry (core line : Nat) (s : State) : Result State :=
  let c := s.coreAt core
  match Assoc.find? c.l1 line with
  | some l =>
    if l.live s.cycle.toNat then .refused (.notEnabled "LEASE_EXPIRY")
    else .next (s.putCore core { c with l1 := Assoc.erase c.l1 line })
  | none => .refused (.notEnabled "LEASE_EXPIRY")

/-- Lines of a die's local HBM (R376). -/
def dieLines : Nat := 192 * 2 ^ 30 / 128

/-- ORRERY_REQUEST (R244, R377): the home of a line serves a request of a die. -/
def execOrreryRequest (die requester line : Nat) (write : Bool) (s : State) : Result State :=
  if 4 ≤ die ∨ 4 ≤ requester ∨ dieLines ≤ line then .refused (.notEnabled "ORRERY_REQUEST")
  else .next (orreryTouch s requester (die * (192 * 2 ^ 30) + line * 128) write)

/-- A region has met no conflict for 2^16 cc (R245). -/
def Region.still (r : Region) (now : Nat) : Bool := r.quiet + 65536 ≤ now

/-- The parent of two sibling regions (R245). -/
def mergeRegions (a b : Region) (now : Nat) : Region :=
  { a with line := min a.line b.line, j := a.j + 1, quiet := now, age := max a.age b.age }

/-- REGION_MERGE (R245, R377): the region at a line and its sibling merge. -/
def execRegionMerge (die line : Nat) (s : State) : Result State :=
  let d := s.dieAt die
  let now := s.cycle.toNat
  match d.orrery.find? fun r => r.line == line with
  | some a =>
    match d.orrery.find? fun r => r.line == line ^^^ 2 ^ a.j && r.j == a.j with
    | some b =>
      if a.j < 9 ∧ a.st = b.st ∧ a.holders = b.holders ∧ a.still now ∧ b.still now then
        .next (s.putDie die { d with orrery := (d.orrery.filter fun r => r != a && r != b) ++ [mergeRegions a b now] })
      else .refused (.notEnabled "REGION_MERGE")
    | none => .refused (.notEnabled "REGION_MERGE")
  | none => .refused (.notEnabled "REGION_MERGE")

/-- LINE_WRITE_BACK (R249): a dirty line of a slice goes to HBM under its tag; `line` is its place in State.l2. -/
def execLineWriteBack (line : Nat) (s : State) : Result State :=
  match Assoc.find? s.l2 line with
  | some l => if l.dirty then .next (writeBackLine s line) else .refused (.notEnabled "LINE_WRITE_BACK")
  | none => .refused (.notEnabled "LINE_WRITE_BACK")

end Sys2Proof.Machine
end

