-- ==== Sys2Proof/Machine/Fabric.lean ====
section
/-! DEFINITION. Loss and return of a fabric device, and what it ends (R360, R401); the completion timeout of a host access
(R396); incoming fabric accesses (R401). -/

namespace Sys2Proof.Machine

/-! Accesses whose data will not come. -/

/-- The awaited accesses of a lane operation stand to be performed again. -/
def LaneOp.recall (o : LaneOp) (source : Nat) : LaneOp :=
  let back := (o.far.filter fun x => x.2 == source).map (·.1)
  { o with
    todo := o.todo ++ back
    done := o.done.filter fun d => !(back.any fun a => a.lane == d.lane && a.plane == d.plane)
    far := o.far.filter fun x => x.2 != source
    again := true }

/-- A lane operation that awaits data from a source traps with its unfinished lanes, its finished ones having written their
results, or meets its condition when its split runs again (R215, R216, R360). -/
def failLaneOp (s : State) (k source : Nat) (c : Cause) (detail : Nat) (x : LaneOp) : State :=
  if !(x.far.any fun f => f.2 == source) then s
  else
    let y := x.recall source
    let s := s.modGroup k (·.putOp y)
    if (s.groupAt k).canTrap (some x.split) then
      trapLanes { s.modGroup k (·.settleOp y) with cur := ⟨k, some x.split⟩ } c detail y.replayMask y.lowest
    else s

/-- A scalar access that awaits data from a source traps at its instruction; one that a trap has overtaken repeats after
it (R216). -/
def failScalarOp (s : State) (k source : Nat) (c : Cause) (detail : Nat) (x : ScalarOp) : State :=
  match x.far with
  | some f =>
    if f.source ≠ source then s
    else
      let s := s.modGroup k fun g => { g with scalarOps := g.scalarOps.filter fun y => y.id != x.id }
      let g := s.groupAt k
      if g.handler && !f.handler then s.putGroup k { g with hidden := { g.hidden with pc := f.pc } }
      else takeTrap { s.putGroup k { g with pc := f.pc } with cur := ⟨k, none⟩ } c detail 0 (BitVec.ofNat 64 f.va)
  | none => s

/-- A group's accesses, scalar and lane, in the order of their issue. -/
def Group.issued (g : Group) : List (ScalarOp ⊕ LaneOp) :=
  let l := g.scalarOps.foldl (fun m o => Assoc.put m o.id (.inl o)) ([] : List (Nat × (ScalarOp ⊕ LaneOp)))
  (g.laneOps.foldl (fun m o => Assoc.put m o.id (.inr o)) l).map (·.2)

/-- The scalar accesses of a group that issued after an operation and await data from a source are discarded, and execute again
after the trap of that operation (R216). -/
def Group.discardLater (g : Group) (source id : Nat) : Group :=
  let later (o : ScalarOp) : Bool := decide (id < o.id) && o.far.any fun f => f.source == source
  match g.scalarOps.find? later with
  | some o => { g with scalarOps := g.scalarOps.filter fun x => !later x, pc := (o.far.map (·.pc)).getD g.pc }
  | none => g

/-- Every access of a group that awaits data from a source fails, the earliest issued first (R216). -/
def failGroup (s : State) (k source : Nat) (c : Cause) (detail : Nat) : State :=
  (s.groupAt k).issued.foldl (fun s x =>
    match x with
    | .inl o => failScalarOp s k source c detail o
    | .inr o =>
      let traps := o.far.any (fun f => f.2 == source) && (s.groupAt k).canTrap (some o.split)
      failLaneOp (if traps then s.modGroup k (·.discardLater source o.id) else s) k source c detail o) s

/-! Lost devices (R360). -/

/-- A physical address is on fabric device `n`. -/
def onDevice (n pa : Nat) : Bool := spaceOf pa == 3 && deviceOf pa == n

/-- A virtual address maps to fabric device `n`. -/
def mapsToDevice (s : State) (n va : Nat) : Bool :=
  match rawLeaf s va with
  | some e => onDevice n (leafFrame e * 65536)
  | none => false

/-- The addresses that a transit command accesses, but for a GACC's, whose pages are of local HBM (R345). -/
def TransitCmd.addrs (c : TransitCmd) (t : Team) : List Nat :=
  match c.op with
  | .copy d =>
    let p := copyPlan d c
    p.reads c ++ p.writes d c
  | .gacc _ _ _ _ => []
  | .fetch _ id second => match t.matrixCmd id with
    | some m => (m.fetched second).1.addrs m.sample (m.fetched second).2.1.offsets
    | none => []
  | .drain _ id => match t.matrixCmd id with
    | some m => (m.first m.word.m 128).1.addrs m.sample (((drainImages m).headD []).map (·.1))
    | none => []

/-- An engine operation under way whose access at an address has failed ends with a fault code (R360, R396). -/
def Life.lose (l : Life) (code : BitVec 16) (va : Nat) : Life :=
  if l.past || l.fault != 0 then l else { l with wait := none, fault := code, addr := va }

/-- The team whose work a transit command does. -/
def State.transitTeam (s : State) (c : TransitCmd) : Team :=
  s.teamAt (match c.op with
    | .fetch tk _ _ | .drain tk _ => tk
    | _ => (s.groupAt c.key).teamKey)

/-- An address of a transit command whose page meets a condition. -/
def State.transitMeets (s : State) (c : TransitCmd) (p : Nat → Bool) : Option Nat :=
  (onePerPage (c.addrs (s.transitTeam c))).find? p

/-- A transit command under way that touches a lost device will end with fault 0x0006 (R360). -/
def loseCommand (s : State) (n core : Nat) (c : TransitCmd) : State :=
  match s.transitMeets c (mapsToDevice s n) with
  | some va => s.putTransit core { c with life := c.life.lose 6 va }
  | none => s

/-- The transit commands of a core that have started, and what they touch of a lost device. -/
def loseTransit (s : State) (n core : Nat) : State :=
  ((s.coreAt core).transit.filter fun c => c.started && !c.life.past && c.life.fault == 0).foldl
    (fun s c => loseCommand s n core c) s

/-- The micro-programs that wait for a page of the device, and the collectives of which it is a member. -/
def loseRest (s : State) (n : Nat) : State :=
  let waits (c : StrmCmd) : StrmCmd :=
    match c.life.wait with
    | some va => if !c.life.ring && mapsToDevice s n va then { c with life := c.life.lose 6 va } else c
    | none => c
  { s with
    cores := Assoc.mapVals s.cores fun _ c => { c with strm := c.strm.map waits }
    colls := s.colls.map fun c => if c.members.contains n then { c with life := c.life.lose 6 0 } else c }

/-- The side-logged stores of a core to a device are dropped (R273), and those sent to it and not yet acknowledged (R360). -/
def loseStores (s : State) (n core : Nat) : State :=
  let c := s.coreAt core
  let gone := c.sideLog.filter fun e => mapsToDevice s n e.acc.va
  let sent := c.sent.filter fun e => e.device == n
  let s := s.putCore core { c with
    sideLog := c.sideLog.filter fun e => !gone.contains e
    sent := c.sent.filter fun e => e.device != n }
  let s := gone.foldl (fun s e => dropStore s core e.key e.acc 6) s
  let s := sent.foldl (fun s e => dropStore s core e.key ⟨0, 0, e.va, 0, .store [], false⟩ 6) s
  if gone = [] ∧ sent = [] then s else logFreed s core

/-- Device `n` is lost (R360): its incarnation rises, its translations go, and the operations under way end. -/
def loseDevice (s : State) (n : Nat) : State :=
  let s := { s with incs := Assoc.put s.incs n ⟨(s.incAt n).num + 1, false⟩ }
  let s := dropLeaves s (fun t => onDevice n (leafFrame t.leaf * 65536)) fun _ => false
  let cores := s.cores.map (·.1)
  let s := cores.foldl (fun s c => loseStores (loseTransit s n c) n c) s
  let s := loseRest s n
  (s.groups.map (·.1)).foldl (fun s k => failGroup s k (n + 1) .remotelost n) s

/-- A UALink device other than this one (R360). -/
def remoteDevice (n : Nat) : Bool := decide (n < 1024) && n != Config.deviceNumber.toNat

/-- INCARNATION_CHANGE (R360): a reset, a power-down or the loss of the link. -/
def execIncarnationChange (device : Nat) (s : State) : Result State :=
  if remoteDevice device then .next (loseDevice s device) else .refused (.notEnabled "INCARNATION_CHANGE")

/-- FABRIC_PATH_TIMEOUT (R401): every path to an up device has been down for 1,250,000 cc. -/
def execFabricPathTimeout (device : Nat) (s : State) : Result State :=
  if remoteDevice device && (s.incAt device).up then .next (loseDevice s device)
  else .refused (.notEnabled "FABRIC_PATH_TIMEOUT")

/-- FABRIC_DEVICE_UP (R360, R401): a lost device answers a probe. -/
def execFabricDeviceUp (device : Nat) (s : State) : Result State :=
  if remoteDevice device && !(s.incAt device).up then
    .next { s with incs := Assoc.put s.incs device { s.incAt device with up := true } }
  else .refused (.notEnabled "FABRIC_DEVICE_UP")

/-! Completions from the host that do not come (R396). -/

/-- A virtual address maps to host memory. -/
def mapsToHost (s : State) (va : Nat) : Bool :=
  match rawLeaf s va with
  | some e => spaceOf (leafFrame e * 65536) == 2
  | none => false

/-- A transit command in execution, a LOAD of the coelostat and a side-log entry under replay that wait for host memory since a
time that satisfies `late`: each fails with code 0x0001 (R273, R319, R396). -/
def timeoutEngine (s : State) (core key id : Nat) (late : Nat → Bool) : Option State :=
  let c := s.coreAt core
  let copy := c.transit.find? fun x => x.key == key && x.id == id && x.running && !x.life.past && x.life.fault == 0 && late x.since
    && (s.transitMeets x (mapsToHost s)).isSome
  let load := c.strm.filter fun x => x.key == key && x.id == id && x.life.wait.isNone && x.life.fault == 0 && late x.since
    && c.nextMicro == some .micLoad && (onePerPage x.loads).any (mapsToHost s)
  let entry := c.sideLog.find? fun e => e.key == key && e.id == id && e.ready && late e.since && mapsToHost s e.acc.va
  match copy, load, entry with
  | some x, _, _ => some (s.putTransit core { x with life := x.life.lose 1 ((s.transitMeets x (mapsToHost s)).getD 0) })
  | _, some x, _ =>
    let va := ((onePerPage x.loads).find? (mapsToHost s)).getD 0
    some (s.putCore core { c with strm := some { x with life := x.life.lose 1 va } })
  | _, _, some e =>
    let s := s.putCore core { c with sideLog := c.sideLog.filter (· != e) }
    some (logFreed (dropStore s core e.key e.acc 1) core)
  | _, _, _ => none

/-- HOST_COMPLETION_TIMEOUT (R396): an access to host memory whose completion has not come for 12,500,000 cc is
unrecoverable with code 0x0001, be it a lane's, the scalar stream's, an engine's or a side-logged one. -/
def execHostCompletionTimeout (key id : Nat) (s : State) : Result State :=
  let g := s.groupAt key
  let late (since : Nat) : Bool := since + 12500000 ≤ s.cycle.toNat
  match g.laneOps.find? fun o => o.id == id && o.far.any (fun f => f.2 == 0) && late o.since with
  | some o => .next (failLaneOp s key 0 .page 1 o)
  | none =>
    match g.scalarOps.find? fun o => o.id == id && o.far.any fun f => f.source == 0 && late f.since with
    | some o => .next (failScalarOp s key 0 .page 1 o)
    | none =>
      match timeoutEngine s g.core key id late with
      | some t => .next t
      | none => .refused (.notEnabled "HOST_COMPLETION_TIMEOUT")

/-! Accesses from outside, at the home of a line (R395, R401). -/

/-- The result of a PCIe or fabric AtomicOp of `size` bytes. -/
def busResult (op : BusAtomic) (size old operand comparand : Nat) : Nat :=
  match op with
  | .fetchAdd => rmwResult .addI size old operand 0
  | .swap => operand % 2 ^ (8 * size)
  | .cas => if old = comparand % 2 ^ (8 * size) then operand % 2 ^ (8 * size) else old

/-- An AtomicOp that a home performs: FetchAdd, Swap and CAS of 4 and 8 bytes, CAS of 16, at its natural alignment. -/
def busAtomicOk (op : BusAtomic) (size address : Nat) : Bool :=
  (size == 4 || size == 8 || (size == 16 && op == .cas)) && address % size == 0

/-- An AtomicOp performed at its home, with the old bytes; no copy of an older value stays (R266, R269, R395). -/
def homeAtomic (s : State) (pa : Nat) (op : BusAtomic) (size operand comparand : Nat) : List Byte × State :=
  let old := readNat s pa size
  (Bits.leBytes size old, dropCopies (writeRaw s pa (Bits.leBytes size (busResult op size old operand comparand))) pa size)

/-- The lines of a read are filled into L2 (R252). -/
def readRaw (s : State) (pa n : Nat) : List Byte × State :=
  (readBytes s pa n, (lineAddrs pa n).foldl (fun s a => touchRaw s a false) s)

/-- Export range `i`: its two words (R394). -/
def exportWord (s : State) (i w : Nat) : Nat := (Assoc.get (0 : Word) s.ctl.exports (2 * i + w)).toNat

/-- A range of space 00 lies in an export range with a permission (R394, R401). -/
def exported (s : State) (a n perm : Nat) : Bool :=
  (List.range 16).any fun i =>
    let base := Bits.field (exportWord s i 0) 16 36 * 65536
    let size := Bits.field (exportWord s i 1) 16 24 * 65536
    Bits.bit (exportWord s i 0) perm && decide (base ≤ a) && decide (a + n ≤ base + size)

/-- UALINK_INCOMING_ACCESS (R401): an access of another device to an address of local HBM, performed at its home if an export
range allows it, else refused. -/
def execUalinkIncomingAccess (device address : Nat) (access : FabricAccess) (s : State) : Result State :=
  let answer (o : Output) (s : State) : Result State := .next { s with outputs := s.outputs ++ [o] }
  let ok (n perm : Nat) : Bool := decide (address + n ≤ hbmEnd) && exported s address n perm
  if !remoteDevice device then .refused (.notEnabled "UALINK_INCOMING_ACCESS")
  else match access with
    | .load n =>
      if ok n 0 then
        let r := readRaw s address n
        answer (.fabricAnswer r.1) r.2
      else answer .fabricRefused s
    | .store data => if ok data.length 1 then answer (.fabricAnswer []) (writeRaw s address data) else answer .fabricRefused s
    | .atomic op size operand comparand =>
      if busAtomicOk op size address && ok size 2 then
        let r := homeAtomic s address op size operand comparand
        answer (.fabricAnswer r.1) r.2
      else answer .fabricRefused s

end Sys2Proof.Machine
end

