-- ==== Sys2Proof/Machine/Boot.lean ====
section
/-! DEFINITION. Reset and the boot sequence (R407 to R410), firmware images and their loading (R411, R412), attestation
(R413), telemetry and the thermal trip (R414, R415). -/

namespace Sys2Proof.Machine

/-! The boot block (R410). -/

/-- A field of the boot block takes a value. -/
def writeBoot (s : State) (off x : Nat) : State := writeRaw s (bootBlock + off) (Bits.leBytes 8 x)

/-- The boot status. -/
def setStatus (s : State) (n : Nat) : State := writeBoot { s with bootStat := n } 0 n

/-- An image runs (R410): the boot block shows its slot, version and measurement, and the fused minimum. -/
def bootFields (s : State) (image : Bool × List Byte) : State :=
  let s := { s with svn := BitVec.ofNat 64 (imageSvn image.2), measured := fixedBytes 48 (measurement image.2) }
  writeBoot (writeRaw s (bootBlock + 8) (bootBytes image s.fusedMin)) 0x50 0

/-! Reset (R407 to R409). -/

/-- The image that the boot ROM runs (R408, R412). -/
def bootImage (s : State) : Option (Bool × List Byte) := bootChoice s.slotA s.slotB s.fusedMin s.loaded

/-- The device after its registers and memories are discarded: the boot flash, the fuses, and the memories of the host and of
other devices are no part of it. -/
def discarded (s : State) : State :=
  { State.reset with
    tick := s.tick
    free := s.free
    inputs := s.inputs
    outputs := s.outputs
    mem := s.mem.filter fun p => 2 ≤ spaceOf p.1
    slotA := s.slotA
    slotB := s.slotB
    loaded := s.loaded
    fusedMin := s.fusedMin }

/-- Firmware does not run, so that it has configured no window and placed no dispatcher, and no image has booted: of the boot
block's fields only the fused minimum has a value (R408, assumption 51). -/
def halted (s : State) : State :=
  let s := { s with
    firmware := false, windows := [], l2windows := [], grids := [], teams := [], groups := [], svn := 0, measured := [] }
  writeBoot (writeRaw s (bootBlock + 8) (List.replicate 0x48 0)) 0x18 s.fusedMin.toNat

/-- A device reset begins (R407): everything is discarded, and step 1 of R408 runs. -/
def beginReset (s : State) : State := { halted (discarded s) with bootStat := 0, boot := some 1 }

/-- The boot sequence ends early, with a status for which no firmware runs (R408, R410). -/
def bootStops (s : State) (status : Nat) : State := setStatus { halted s with boot := none } status

/-- The step of the boot sequence that runs ends (R408): the boot block appears with status 0; an image is chosen, or none is
valid; links are trained; firmware configures its windows and places the dispatcher. -/
def bootStep (s : State) : State :=
  match s.boot with
  | some 1 => if Config.trainingFails s.tick 1 then bootStops s 3 else setStatus { s with boot := some 2 } 0
  | some 2 =>
    match bootImage s with
    | none => bootStops s 2
    | some image => bootFields { s with boot := some 3, loaded := false } image
  | some 3 => if Config.trainingFails s.tick 3 then bootStops s 3 else { s with boot := some 4 }
  | some _ =>
    let r := State.reset
    setStatus { s with
      boot := none, firmware := true, windows := r.windows, l2windows := r.l2windows, grids := r.grids, teams := r.teams,
      groups := r.groups } 1
  | none => s

/-- The whole boot sequence, to its end or to where it stops (R408). -/
def deviceReset (s : State) : State := bootStep (bootStep (bootStep (bootStep (beginReset s))))

/-- DEVICE_RESET (R407): PERST#, a hot reset or a Function Level Reset, with the boot sequence. -/
def execDeviceReset (s : State) : Result State := .next (deviceReset s)

/-- Every team ends with MACHINECHECK, as a thermal trip has it (R415). -/
def tripTeams (s : State) : State :=
  s.teams.foldl (fun s p => if p.2.grid = 0 then s
    else machineCheckTeam s p.1 (s.groupAt (((s.teamGroups p.1).map (·.1)).headD 0))) s

/-- THERMAL_TRIP (R415): every team ends with MACHINECHECK, then the device resets. -/
def execThermalTrip (s : State) : Result State := .next (deviceReset (tripTeams s))

/-! The memory window while the device boots (R408). -/

/-- The start of recovery staging, and its size (R409). -/
def staging : Nat := bootBlock + 0x100000
/-- 64 MiB. -/
def stagingBytes : Nat := 64 * 2 ^ 20

/-- The address of the boot block's recover field. -/
def recoverField : Nat := bootBlock + 0x50

/-- What the window gives an access of `n` bytes: before the device runs, the boot block can be read once step 1 has ended, and
with status 2 the staging area and recover written (R408). -/
def windowOpen (s : State) (a n : Nat) (write : Bool) : Bool :=
  let within (base size : Nat) : Bool := decide (base ≤ a) && decide (a + n ≤ base + size)
  decide (a + n ≤ hbmEnd) && (s.firmware || (if write then
      s.boot.isNone && s.bootStat == 2 && (within staging stagingBytes || within recoverField 8)
    else s.boot != some 1 && within bootBlock 4096))

/-- An answer to the host. -/
def answer (s : State) (o : Output) : Result State := .next { s with outputs := s.outputs ++ [o] }

/-! Loading an image (R412). -/

/-- A staged image of a length is verified and acted on (R412). -/
def recoverImage (s : State) (n : Nat) : State :=
  let img := readBytes s staging n
  if n ≤ stagingBytes ∧ imageValid img s.fusedMin then setStatus { s with slotB := img, loaded := true } 4 else setStatus s 5

/-- The fused minimum rises to the version of the image that has booted (R412). -/
def raiseMinimum (s : State) : State :=
  if !s.firmware then s
  else
    let m := max s.fusedMin.toNat s.svn.toNat
    writeBoot { s with fusedMin := BitVec.ofNat 64 m } 0x18 m

/-- The check of a staged image ends (R412). -/
def endCheck (s : State) : State :=
  match s.checking with
  | some n => recoverImage { s with checking := none } n
  | none => s

/-- What a new value of recover begins (R412): bit 63 alone raises the fused minimum; a length starts a check while status is 1
or 2. -/
def recoverActs (s : State) (value : Word) : State :=
  if value = 0x8000000000000000 then raiseMinimum s
  else if s.bootStat = 1 ∨ s.bootStat = 2 then { s with checking := some value.toNat }
  else s

/-- A host write of some bytes (R395, R412, R413): one that touches recover acts, or is ignored there while a check is in
progress; one that sets the state word of the attestation request to 1 starts an attestation, which takes the nonce. -/
def hostStore (s : State) (a : Nat) (data : List Byte) : State :=
  let touches (base n : Nat) : Bool := overlap a data.length base n
  let t := writeRaw s a data
  let t := if !touches recoverField 8 then t
    else if s.checking.isSome then writeRaw t recoverField (readBytes s recoverField 8)
    else recoverActs t (BitVec.ofNat 64 (readNat t recoverField 8))
  if t.firmware && touches (bootBlock + 0x2000) 8 && readNat t (bootBlock + 0x2000) 8 == 1 && readNat s (bootBlock + 0x2000) 8 != 1 then
    { t with nonce := some (readBytes t (bootBlock + 0x2008) 32) }
  else t

/-- RECOVER (R412): the host's write of recover, with the check that it starts. -/
def execRecover (value : Word) (s : State) : Result State :=
  if !windowOpen s recoverField 8 true then answer s .unsupported
  else if s.checking.isSome then .next s
  else .next (endCheck (recoverActs (writeBoot s 0x50 value.toNat) value))

/-- FUSED_MINIMUM_RAISE (R412): only the value with bit 63 alone is this event. -/
def execFusedMinimumRaise (value : Word) (s : State) : Result State :=
  if value = 0x8000000000000000 then execRecover value s else .refused (.notEnabled "FUSED_MINIMUM_RAISE")

/-! Attestation (R413). -/

/-- The attestation request block. -/
def attestRequest : Nat := bootBlock + 0x2000

/-- The nonce of an attestation: the one that it took when it started. -/
def attestNonce (s : State) : List Byte := s.nonce.getD (readBytes s (attestRequest + 8) 32)

/-- The body of a report: nonce, measurement, versions and INIT. -/
def attestBody (s : State) : List Byte :=
  fixedBytes 32 (attestNonce s) ++ fixedBytes 48 s.measured ++ Bits.leBytes 8 s.svn.toNat ++
    Bits.leBytes 8 s.fusedMin.toNat ++ Bits.leBytes 8 s.ctl.init.toNat ++ List.replicate 408 0

/-- The two signatures of a body under R411's schemes and the device's keys; their random bytes are free values (R413). -/
def attestSignatures (s : State) (body : List Byte) : List Byte :=
  let random (from_ n : Nat) : List Byte := (List.range n).map fun i => Config.freeByte (s.free + from_ + i)
  fixedBytes Sign.rsaBytes (Sign.rsaSign Config.deviceRsa body (random 0 48)) ++
    fixedBytes Sign.slhBytes (Sign.slhSign Config.deviceSlh body (random 48 32))

/-- ATTESTATION (R413): the request's state word is 1; Thexo writes the report with the nonce that it took, and sets state 2. -/
def execAttestation (s : State) : Result State :=
  if !s.firmware || readNat s attestRequest 8 != 1 then .refused (.notEnabled "ATTESTATION")
  else
    let body := attestBody s
    let t := { s with free := s.free + 80, nonce := none }
    .next (writeRaw (writeRaw t (bootBlock + 0x3000) (body ++ attestSignatures s body)) attestRequest (Bits.leBytes 8 2))

/-! Telemetry (R414). -/

/-- The telemetry block. -/
def telemetryBlock : Nat := bootBlock + 0x1000

/-- The cap that a written value stands for. -/
def capOf (x : Word) : Word := if x = 0 then 3400000 else BitVec.ofNat 64 (min (max x.toNat 1500000) 3400000)

/-- The throttle bits of an update (R414, R415): the power exceeds the cap that is enforced, or a die 105 degrees. -/
def throttleBits (t : Telemetry) (cap : Word) : Nat :=
  (if cap.ult t.power then 1 else 0) + if t.temps.any fun x => 105 * 256 < x.toInt then 2 else 0

/-- A die has reached the temperature of a thermal trip (R415). -/
def tripped (t : Telemetry) : Bool := t.temps.any fun x => 115 * 256 ≤ x.toInt

/-- The writes of an update, in order: seq odd, the fields, seq even (R414). -/
def telemetryWrites (t : Telemetry) (seq energy cap : Word) : List (Nat × Word) :=
  [(0, seq + 1), (0x08, t.power), (0x10, energy)] ++ (List.range 4).map (fun d => (0x18 + 8 * d, t.temps.getD d 0)) ++
    [(0x38, BitVec.ofNat 64 (throttleBits t cap)), (0, seq + 2)]

/-- One write of an update. -/
def telemetryWrite (s : State) (w : Nat × Word) : State := writeRaw s (telemetryBlock + w.1) (Bits.leBytes 8 w.2.toNat)

/-- The writes that are left of an update. -/
def endTelemetry (s : State) : State := { s.telem.foldl telemetryWrite s with telem := [] }

/-- The next write of an update. -/
def nextTelemetry (s : State) : State :=
  match s.telem with
  | [] => s
  | w :: rest => { telemetryWrite s w with telem := rest }

/-- An update begins (R414): the cap read at the last one is enforced, the host's is read, and the energy never decreases. -/
def beginTelemetry (s : State) (t : Telemetry) : State :=
  let s := endTelemetry s
  let energy := if s.energy.ult t.energy then t.energy else s.energy
  { s with
    telem := telemetryWrites t s.telemSeq energy s.capNext
    telemSeq := s.telemSeq + 2
    energy := energy
    cap := s.capNext
    capNext := capOf (BitVec.ofNat 64 (readNat s (telemetryBlock + 0x40) 8)) }

/-- TELEMETRY_UPDATE (R414): a whole update; a temperature of 115 degrees trips the device (R415). -/
def execTelemetryUpdate (t : Telemetry) (s : State) : Result State :=
  if !s.firmware then .refused (.notEnabled "TELEMETRY_UPDATE")
  else if tripped t then execThermalTrip s
  else .next (endTelemetry (beginTelemetry s t))

end Sys2Proof.Machine
end

