-- ==== Sys2Proof/Machine/Hosts.lean ====
section
/-! DEFINITION. The host's edge: the memory window (R395), the mailbox and the dispatcher (R397 to R399), and the control
window (R394, R404) with the fabric group table (R378). -/

namespace Sys2Proof.Machine

/-! The memory window (R395). -/

/-- The space-00 offset that an offset of the memory window reaches (R393, R395). -/
def windowAddr (s : State) (o : Nat) : Nat := if s.ctl.barLg = 40 then o else s.ctl.winbase.toNat + o

/-- HOST_WRITE (R395): performed at the line's home; in die 0's Thexo area it acts as R412 and R413 state. -/
def execHostWrite (offset : Nat) (data : List Byte) (s : State) : Result State :=
  let a := windowAddr s offset
  if 2 ^ s.ctl.barLg < offset + data.length then .refused (.notEnabled "HOST_WRITE")
  else if !windowOpen s a data.length true then answer s .unsupported
  else .next (hostStore s a data)

/-- HOST_READ (R395). -/
def execHostRead (offset bytes : Nat) (s : State) : Result State :=
  let a := windowAddr s offset
  if 2 ^ s.ctl.barLg < offset + bytes then .refused (.notEnabled "HOST_READ")
  else if !windowOpen s a bytes false then answer s .unsupported
  else
    let r := readRaw s a bytes
    answer r.2 (.completion r.1)

/-- HOST_ATOMICOP (R395): FetchAdd, Swap and CAS of 4 and 8 bytes, and CAS of 16, as DC atomics at the home. -/
def execHostAtomicop (offset : Nat) (op : BusAtomic) (size operand comparand : Nat) (s : State) : Result State :=
  let a := windowAddr s offset
  if 2 ^ s.ctl.barLg < offset + size then .refused (.notEnabled "HOST_ATOMICOP")
  else if !busAtomicOk op size a || !windowOpen s a size true || !s.firmware then answer s .unsupported
  else
    let r := homeAtomic s a op size operand comparand
    answer (if overlap a size bootBlock 0x10000 then hostStore s a (readBytes r.2 a size) else r.2) (.completion r.1)

/-! The mailbox and the dispatcher (R397 to R399). -/

/-- A host physical address in space 10 (R234). -/
def hostAddr (x : Nat) : Nat := 2 * 2 ^ 50 + x % 2 ^ 50

/-- Initialisation has ended. -/
def Control.done (c : Control) : Bool := c.init.getLsbD 0

/-- MBOX (R397, R410): a value above the last one makes requests ready, at once or at INIT.done. -/
def execMbox (value : Word) (s : State) : Result State :=
  let c := s.ctl
  if c.done then .next { s with ctl := { c with mbox := if c.mbox.ult value then value else c.mbox } }
  else .next { s with ctl := { c with mboxHeld := if c.mboxHeld.ult value then value else c.mboxHeld } }

/-- The size of the request area as a power of two. -/
def requestLg (s : State) : Nat := Bits.field s.ctl.reqbase.toNat 0 4

/-- A request is ill formed (R398): another sequence number, or a reserved field that is not zero. -/
def requestBad (bs : List Byte) (seq : Nat) : Bool :=
  recField bs 0 8 != seq || recField bs 8 8 / 2 != 0 || (part bs 0x10 48 ++ part bs 0x140 192).any (· != 0)

/-- The result of a request and the state that it leaves (R398): the dispatcher's LAUNCH creates user grids. -/
def requestResult (s : State) (bs : List Byte) (seq : Nat) : Nat × State :=
  let rec_ := part bs 0x40 256
  let r := recordOfBytes rec_
  if requestBad bs seq then (2 ^ 63 + 0x80, s)
  else if r.system then (2 ^ 63 + 0x81, s)
  else match launchReasons s rec_ false 0 with
    | reason :: _ => (2 ^ 63 + reason, s)
    | [] => (s.freeGrid, createGrid s r none 0)

/-- DISPATCH_REQUEST (R398): the next ready request, while initialisation has ended and no link has failed; its LAUNCH waits
for room in its grid queue (R300) and for a checkpoint (R403), and what it launches then is its copy of the request (step 1). -/
def execDispatchRequest (s : State) : Result State :=
  let seq := s.ctl.next.toNat
  let lg := requestLg s
  let bs := s.request.getD (readBytes s (hostAddr (Bits.field s.ctl.reqbase.toNat 12 52 * 4096 + 512 * (seq % 2 ^ lg))) 512)
  let full := 64 ≤ gridsWaiting s (queueDie (recordOfBytes (part bs 0x40 256)).dies 0)
  let r := requestResult s bs seq
  if !s.firmware || !s.ctl.done || s.ctl.fatal || decide (s.ctl.mbox.toNat ≤ seq) then .refused (.notEnabled "DISPATCH_REQUEST")
  else if r.2.stamp != s.stamp && (launchHeld s || full) then
    if s.request.isSome then .refused (.notEnabled "DISPATCH_REQUEST") else .next { s with request := some bs }
  else
    let rsp := hostAddr (Bits.field s.ctl.rspbase.toNat 8 56 * 256 + 16 * (seq % 2 ^ lg))
    let s := writeBytes r.2 rsp (Bits.leBytes 8 seq ++ Bits.leBytes 8 r.1)
    let s := { s with ctl := { s.ctl with next := s.ctl.next + 1 }, request := none }
    .next (if recField bs 8 8 % 2 = 1 then { s with outputs := s.outputs ++ [.msix 3] } else s)

/-! The control window (R394). -/

/-- Initialisation ends (R410): a held mailbox value takes effect. -/
def endInit (s : State) : State :=
  { s with ctl := { s.ctl with mbox := if s.ctl.mbox.ult s.ctl.mboxHeld then s.ctl.mboxHeld else s.ctl.mbox } }

/-- INIT (R394, R403, R410): its fields change only while done is 0. -/
def writeInit (s : State) (value : Word) : State :=
  if s.ctl.done then s
  else
    let s := { s with ctl := { s.ctl with init := value &&& 0x3F } }
    if s.ctl.done then endInit s else s

/-- INIT_DONE (R394): a write of INIT with done set; once it is set, the write is ignored. -/
def execInitDone (value : Word) (s : State) : Result State :=
  if value.getLsbD 0 then .next (writeInit s value) else .refused (.notEnabled "INIT_DONE")

/-- A collective of fabric group `i` is in flight. -/
def groupInUse (s : State) (i : Nat) : Bool := s.colls.any fun c => (collDesc c.desc).group == i

/-- FGTDATA (R378, R394): the entry that FGTIDX names, once its collectives have completed; reserved bits are not kept. -/
def execFgtdata (value : Word) (s : State) : Result State :=
  let i := s.ctl.fgtidx.toNat
  if groupInUse s i then .refused (.notEnabled "FGTDATA")
  else .next { s with fabric := Assoc.set 0 s.fabric i (value &&& 0xFFFFFFFFFF3FFFFF) }

/-! Checkpoint and restore (R405, R406). -/

/-- Units of 64 KiB of space 00. -/
def unitCount : Nat := 12582912

/-- A team of a user grid is placed. -/
def userTeams (s : State) : List Nat :=
  (s.teams.filter fun p => p.2.placed && !(s.gridAt p.2.grid).record.system).map (·.1)

/-- CKPTSTAT takes a result. -/
def ckptResult (s : State) (result units : Nat) : State :=
  { s with ctl := { s.ctl with ckptstat := BitVec.ofNat 64 (units * 2 ^ 32 + result) } }

/-- A checkpoint or restore begins, or is refused (R402, R403, R406); in firmware mode every user team is first
pre-empted. -/
def startCheckpoint (s : State) (restoring : Bool) : State :=
  let hostMode := s.ctl.init.getLsbD 5
  let busy := userTeams s != [] || s.cores.any fun c => c.2.sideLog != []
  if s.ctl.fatal || s.ctl.ckpt || (hostMode && busy) then ckptResult s 1 (s.ctl.ckptstat.toNat / 2 ^ 32)
  else
    let r := takeKeys s (s.keys.map (·.1))
    let s := ckptResult { r.2 with ckpt := some ⟨restoring, r.1⟩, ctl := { s.ctl with ckpt := true } } 0 0
    if hostMode then s else (userTeams s).foldl requestPreempt s

/-- CHECKPOINT (R405): a CKPTCTL write of op 1. -/
def execCheckpoint (s : State) : Result State := .next (startCheckpoint s false)

/-- RESTORE (R406): a CKPTCTL write of op 2. -/
def execRestore (s : State) : Result State := .next (startCheckpoint s true)

/-- The resident leaves. -/
def residentLeaves (s : State) : List (Nat × Nat × Word) :=
  leavesFrom s (fun e => leafMig e == 0) 0 (rootNode s) [0, 1, 2, 3]

/-- The header of an image (R405). -/
def imageHeader : List Byte :=
  let h := Bits.leBytes 4 0x4B43584C ++ Bits.leBytes 4 1 ++ Bits.leBytes 8 unitCount
  h ++ Bits.leBytes 4 (Crypto.crc32c h).toNat ++ List.replicate 4076 0

/-- The places of a unit's directory entry and data in an image (R405). -/
def dirPlace (dst u : Nat) : Nat := dst + 4096 + 16 * u
/-- The data part. -/
def dataPlace (dst u : Nat) : Nat := dst + 4096 + 16 * unitCount + 65536 * u

/-- The directory entry of a unit. -/
def dirEntry (tweak key : Nat) (sealed_ : Bool) (data : List Byte) : List Byte :=
  Bits.leBytes 8 tweak ++ Bits.leBytes 1 key ++ Bits.leBytes 1 (if sealed_ then 1 else 0) ++ Bits.leBytes 2 0 ++
    Bits.leBytes 4 (Crypto.crc32c data).toNat

/-- A unit is written to an image, with the result that the operation has by then. A unit whose key slot is empty is written
as zero, with result 3 (assumption 36). -/
def saveUnit (keys : List (Nat × BitVec 512)) (leaves : List (Nat × Nat × Word)) (dst : Nat) (a : Nat × State) (u : Nat) : Nat × State :=
  let s := a.2
  let bs := readBytes s (u * 65536) 65536
  let put (result tweak key : Nat) (sealed_ : Bool) (data : List Byte) : Nat × State :=
    (result, writeBytes (writeBytes s (dirPlace dst u) (dirEntry tweak key sealed_ data)) (dataPlace dst u) data)
  match sealLeaf leaves u with
  | none => put a.1 0 0 false bs
  | some (va, e) =>
    match Assoc.find? keys (leafKey e) with
    | some k => put a.1 va (leafKey e) true (cryptUnit k true va bs)
    | none => put (if a.1 = 0 then 3 else a.1) va (leafKey e) true (List.replicate 65536 0)

/-- A unit is read back from an image (R406). -/
def loadUnit (keys : List (Nat × BitVec 512)) (src : Nat) (a : Nat × State) (u : Nat) : Nat × State :=
  let s := a.2
  let d := readBytes s (dirPlace src u) 16
  let data := readBytes s (dataPlace src u) 65536
  let put (result : Nat) (bs : List Byte) : Nat × State := (result, writeBytes s (u * 65536) bs)
  let zero := List.replicate 65536 (0 : Byte)
  if recField d 12 4 ≠ (Crypto.crc32c data).toNat then put 2 zero
  else if recField d 9 1 % 2 = 0 then put a.1 data
  else match Assoc.find? keys (recField d 8 1) with
    | some k => put a.1 (cryptUnit k false (recField d 0 8) data)
    | none => put (if a.1 = 0 then 3 else a.1) zero

/-- The tag under which a restored line is stored (R249, R252): its compression bit is that of a resident leaf that maps it. -/
def restoredTag (s : State) (leaves : List (Nat × Nat × Word)) (line : Nat) : BitVec 4 :=
  let cmp := (leaves.filterMap (leafAt (line / 512))).any fun l => leafCmp l.2
  if cmp then Compress.lineTag (lineOf (readBytes s (line * 128) 128)) else 0

/-- The lines that a restore has written are written back (R249, R406): the slices have held all of them in turn, and hold none
at its end. -/
def restoreLines (s : State) (units : Nat) : State :=
  let leaves := residentLeaves s
  let n := 512 * units
  let written := ((List.range n).map fun i => (i, restoredTag s leaves i)).filter fun p => p.2 != 1
  { s with l2 := s.l2.filter fun x => n ≤ x.1 % 2 ^ 45, tags := written ++ s.tags.filter fun x => n ≤ x.1 }

/-- Every translation, every shape record and every copy of a line goes (R359, R369, R406). -/
def dropCaches (s : State) : State :=
  let s := dropLeaves s (fun _ => true) fun _ => true
  let s := s.modDies fun d => { d with shapes := [], ncLines := [] }
  { s with cores := Assoc.mapVals s.cores fun _ c => { c with l1 := [] } }

/-- A checkpoint or restore of some units, and what it answers; the end of a restore drops every cache, however it ends (R406). -/
def runCheckpoint (s : State) (c : Checkpoint) (dst units : Nat) : Nat × State :=
  let l := List.range units
  if c.restoring then
    let r := l.foldl (loadUnit c.keys dst) (if readBytes s dst 4096 = imageHeader then 0 else 2, s)
    (r.1, dropCaches (restoreLines r.2 units))
  else
    let leaves := residentLeaves s
    l.foldl (saveUnit c.keys leaves dst) (0, writeBytes s dst imageHeader)

/-- The destination is an aligned address of host or fabric memory on a device that is up (R394, R406). -/
def destinationOk (s : State) (dst : Nat) : Bool :=
  dst % 4096 == 0 && (spaceOf dst == 2 || (spaceOf dst == 3 && !frameFault s dst && (s.incAt (deviceOf dst)).up))

/-- CHECKPOINT_END (R405, R406): once every user team has left its core in firmware mode; a failed transfer ends it with
result 4. -/
def execCheckpointEnd (s : State) : Result State :=
  match s.ckpt with
  | none => .refused (.notEnabled "CHECKPOINT_END")
  | some c =>
    if !s.ctl.init.getLsbD 5 && userTeams s != [] then .refused (.notEnabled "CHECKPOINT_END")
    else
      let dst := s.ctl.ckptdst.toNat
      let fails := !destinationOk s dst || Config.transferFails s.tick
      let units := if !destinationOk s dst then 0 else if fails then (Config.freeCount s.free).toNat % unitCount else unitCount
      let r := if units ≠ 0 then runCheckpoint s c dst units else (0, if c.restoring then dropCaches s else s)
      let s := { dropKeys r.2 c.keys with ckpt := none, free := r.2.free + 1, ctl := { r.2.ctl with ckpt := false } }
      answer (ckptResult s (if fails then 4 else r.1) units) (.msix 2)

/-! Reads of the control and mailbox windows (R394, R397). -/

/-- STATUS (R394). -/
def Control.statusWord (c : Control) : Nat := (if c.fatal then 1 else 0) + (if c.ckpt then 2 else 0) + (if c.mcheck then 4 else 0)

/-- Die `d`'s fault record region and producer index (R320, R394). -/
def frqWord (s : State) (d : Nat) : Nat := faultBase d / 65536 * 65536 + (s.dieAt d).faultSeq % 2048

/-- What a register of the control window reads (R7, R394): one that is write-only or not listed reads 0. -/
def controlRead (s : State) (offset : Nat) : Nat :=
  let c := s.ctl
  let i := offset / 8
  if offset % 8 ≠ 0 then 0
  else match i with
    | 0 => c.init.toNat
    | 1 => c.statusWord
    | 2 => c.ptroot.toNat
    | 3 => c.reqbase.toNat
    | 4 => c.rspbase.toNat
    | 5 => c.winbase.toNat
    | 8 | 9 | 10 | 11 => frqWord s (i - 8)
    | 12 | 13 | 14 | 15 => (s.dieAt (i - 12)).faultCons
    | 16 => c.fgtidx.toNat
    | 64 => c.ckptdst.toNat
    | 66 => c.ckptstat.toNat
    | _ => if 32 ≤ i ∧ i < 64 then (Assoc.get (0 : Word) c.exports (i - 32)).toNat else 0

/-- What a register of the mailbox window reads (R397): MBOX is write-only. -/
def mailboxRead (s : State) (offset : Nat) : Nat := if offset = 8 then s.ctl.next.toNat else 0

/-- The host reads a register: the completion holds its 8 bytes (R394, R397). -/
def readRegister (mailbox : Bool) (offset : Nat) (s : State) : Result State :=
  answer s (.completion (Bits.leBytes 8 (if mailbox then mailboxRead s offset else controlRead s offset)))

/-! Writes of the control window. -/

/-- The bits that a register or export word keeps of a written value (R394). -/
def kept (mask value : Word) : Word := value &&& mask

/-- A field of the control window that only initialisation may write. -/
def initWrite (s : State) (f : Control → Control) : State := if s.ctl.done then s else { s with ctl := f s.ctl }

/-- CONTROL_REGISTER_WRITE (R394): a register or field that is not listed ignores writes. -/
def execControlRegisterWrite (offset : Nat) (value : Word) (s : State) : Result State :=
  let put (f : Control → Control) : Result State := .next { s with ctl := f s.ctl }
  if offset = 0x0 then .next (writeInit s value)
  else if offset = 0x8 then put fun c => { c with mcheck := c.mcheck && !value.getLsbD 2 }
  else if offset = 0x10 then .next (initWrite s fun c => { c with ptroot := kept 0x000FFFFFFFFFE000 value })
  else if offset = 0x18 then .next (initWrite s fun c => { c with reqbase := kept 0xFFFFFFFFFFFFF00F value })
  else if offset = 0x20 then .next (initWrite s fun c => { c with rspbase := kept 0xFFFFFFFFFFFFFF00 value })
  else if offset = 0x28 then put fun c => { c with winbase := kept 0x0003FFFFC0000000 value }
  else if offset = 0x30 then .next (requestPreempt s (keyOf (value.toNat / 2 ^ 32) (value.toNat % 2 ^ 32)))
  else if offset = 0x38 then execSvcdone value s
  else if 0x60 ≤ offset ∧ offset < 0x80 ∧ offset % 8 = 0 then
    let d := (offset - 0x60) / 8
    .next (s.putDie d { s.dieAt d with faultCons := value.toNat % 2048 })
  else if offset = 0x80 then put fun c => { c with fgtidx := value.setWidth 8 }
  else if offset = 0x88 then execFgtdata value s
  else if 0x100 ≤ offset ∧ offset < 0x200 ∧ offset % 8 = 0 then
    let i := (offset - 0x100) / 8
    let mask : Word := if i % 2 = 0 then 0x000FFFFFFFFF0007 else 0x000000FFFFFF0000
    put fun c => { c with exports := Assoc.set 0 c.exports i (kept mask value) }
  else if offset = 0x200 then put fun c => { c with ckptdst := kept 0x000FFFFFFFFFFFFF value }
  else if offset = 0x208 then
    match value.toNat % 4 with
    | 1 => .next (startCheckpoint s false)
    | 2 => .next (startCheckpoint s true)
    | _ => .next s
  else .next s

end Sys2Proof.Machine
end

