-- ==== Sys2Proof/Machine/Cycle.lean ====
section
/-! DEFINITION. The clock (R101): the issue choice of each quadrant with the ages of its candidates (R309 to R311), the cycle
event of the performance counters (R386), how long a team has waited (R307); and the status counters (R387). -/

namespace Sys2Proof.Machine

/-! Issue (R309). -/

/-- The age of a candidate. -/
def streamAge (s : State) (c : Stream) : Nat :=
  let g := s.groupAt c.key
  match c.lane with
  | none => g.age
  | some i => (g.splitAt i).age

/-- A candidate is trap-class when its group is in handler state (R308). -/
def trapClass (s : State) (c : Stream) : Bool := (s.groupAt c.key).handler

/-- A candidate's place among those of equal age: the slot, then the split. -/
def streamPlace (s : State) (c : Stream) : Nat := (s.groupAt c.key).slot * 8 + c.lane.getD 0

/-- The candidate of greatest age; ties go to the lower place. -/
def oldest (s : State) (l : List Stream) : Option Stream :=
  l.foldl (fun m c =>
    match m with
    | none => some c
    | some b =>
      if streamAge s b < streamAge s c ∨ (streamAge s b = streamAge s c ∧ streamPlace s c < streamPlace s b) then some c
      else some b) none

/-- The grid priority of a candidate. -/
def streamPriority (s : State) (c : Stream) : Nat := (s.gridAt (s.groupAt c.key).grid).priority

/-- The choice of R309 among a quadrant's candidates of one kind. -/
def chooseStream (s : State) (l : List Stream) : Option Stream :=
  match oldest s (l.filter (trapClass s)) with
  | some c => some c
  | none =>
    match oldest s (l.filter fun c => 16 ≤ streamAge s c) with
    | some c => some c
    | none =>
      let top := l.foldl (fun m c => max m (streamPriority s c)) 0
      oldest s (l.filter fun c => streamPriority s c == top)

/-- What one cycle chooses: the candidates of each kind and quadrant, with the choice among them. -/
structure Picked where
  ready  : List Stream
  chosen : Option Stream
  deriving DecidableEq, Repr

/-- The cores that hold a running group, in ascending order. -/
def busyCores (s : State) : List Nat :=
  (s.groups.foldl (fun m p => if p.2.status = .running then Assoc.put m p.2.core () else m) ([] : List (Nat × Unit))).map (·.1)

/-- The claims of one cycle come to a core's rings in this order (R315): the matrix engine's, the transit engine's, then the
others. -/
def claimClass (s : State) (c : Stream) : Nat :=
  match c.lane with
  | some _ => 2
  | none =>
    match (scalarFetch s (s.groupAt c.key)).scalar with
    | some (.mld _) | some (.mma _) | some (.mma2 _) | some (.mdrain _) | some (.mzero _) | some (.mmode _) | some (.mvnb _) => 0
    | some (.cpy _) | some (.gacc _) => 1
    | _ => 2

/-- A stream whose instruction counts its children acts after those of its cycle by which a child may retire (R365). -/
def countsChildren (s : State) (c : Stream) : Bool :=
  let g := s.groupAt c.key
  c.lane.isNone && match (scalarFetch s g).scalar with
    | some (.await _) => true
    | some (.exit _) => g.children != 0
    | _ => false

/-- Streams that issue in one cycle act in this order on the queues, rings and flags that they share: by the order of their
claims, then the lower-numbered slot first (R189, R315, R323), and within a slot the scalar stream before the lane stream
(R216); those that count children come last (R365). -/
def issueOrder (s : State) (l : List Stream) : List Stream :=
  let place (c : Stream) : Nat :=
    let g := s.groupAt c.key
    let late := if countsChildren s c then 1 else 0
    (((late * 1024 + g.core) * 4 + claimClass s c) * 64 + g.slot) * 8 + (match c.lane with | none => 0 | some i => i + 1)
  l.foldl (fun m c => m.takeWhile (fun b => place b ≤ place c) ++ c :: m.dropWhile (fun b => place b ≤ place c)) []

/-- The choices of a cycle, a quadrant's scalar one before its lane one (R216). -/
def pickAll (s : State) : List Picked :=
  (busyCores s).flatMap fun core => (List.range 4).flatMap fun q =>
    let a := scalarCandidates s core q
    let b := laneCandidates s core q
    [⟨a, chooseStream s a⟩, ⟨b, chooseStream s b⟩]

/-- The new age of a stream (R309): 0 unless it was a candidate and was not chosen; it rises in an ordinary cycle. -/
def newAge (s : State) (l : List Picked) (c : Stream) : Nat :=
  match l.find? fun p => p.ready.contains c with
  | some p =>
    if p.chosen = some c then 0
    else if p.chosen.any (trapClass s) then streamAge s c
    else streamAge s c + 1
  | none => 0

/-- The candidates that a yield hold still waits for (R311). -/
def keepHold (l : List Picked) (h : List Stream) : List Stream :=
  h.filter fun c => l.any fun p => p.ready.contains c && p.chosen != some c

/-- A split after a cycle. -/
def Split.afterCycle (x : Split) (s : State) (l : List Picked) (key i : Nat) : Split :=
  { x with age := newAge s l ⟨key, some i⟩, hold := keepHold l x.hold }

/-- A group after a cycle. -/
def Group.afterCycle (g : Group) (s : State) (l : List Picked) (key : Nat) : Group :=
  { g with
    age := newAge s l ⟨key, none⟩
    hold := keepHold l g.hold
    resume := if g.resume = some g.pc then g.resume else none
    splits := g.splits.zipIdx.map fun x => x.1.afterCycle s l key x.2
    hsplit := g.hsplit.afterCycle s l key 4 }

/-- A core's counters of cycles (R386, R391). -/
def Core.countCycle (c : Core) (cycle : Nat) : Core :=
  { c with perf := Assoc.mapVals c.perf fun _ p => if p.event = 1 ∧ p.since ≤ cycle then { p with count := p.count + 1 } else p }

/-- The teams that are their placer's first choice and fit no core, each with its grid (R307). -/
def stuckTeams (s : State) : List (Nat × Nat) :=
  (List.range 4).filterMap fun die =>
    match firstChoice s die with
    | some c =>
      if (bestCore s (s.gridAt (c.grid s)).record.dies (c.need s)).isNone then some (c.grid s, c.teamKey s) else none
    | none => none

/-- Since when the stuck team of a grid has waited; another team's wait does not count for it (R307). -/
def Grid.stuckSince (x : Grid) (team cycle : Nat) : Nat × Nat :=
  match x.waiting with
  | some w => if w.1 = team then w else (team, cycle)
  | none => (team, cycle)

/-- What a cycle brings to the stores of every core and to the transfers of every matrix engine: acknowledged stores are
outstanding no more (R360), waiting ones take free entries of the side log (R272), and transfers enter the transit queue
(R316). -/
def settleStores (s : State) : State :=
  raiseTransfers ((s.cores.map (·.1)).foldl (fun s c => admitLog (acknowledge s c) c logEntries) s)

/-- What a cycle brings to a core: its counters of cycles, and SRAM that L1 has handed back for a placement that is not wanted any
more is lent to it again (R240). -/
def Core.afterCycle (c : Core) (s : State) (n : Nat) : Core :=
  { c.countCycle s.cycle.toNat with taken := min c.taken (sramWanted s n) }

/-- CORE_CYCLE (R101, R309): CYCLE advances from the end of step 4 of R408 on, each quadrant chooses what it issues, and ages, yield holds and counters move
on. -/
def execCoreCycle (s : State) : Result State :=
  let s := settleStores s
  let l := pickAll s
  let stuck := stuckTeams s
  .next { s with
    cycle := if s.firmware then s.cycle + 1 else s.cycle
    issue := issueOrder s (l.filterMap (·.chosen))
    ready := l.flatMap (·.ready)
    groups := Assoc.mapVals s.groups fun k g => g.afterCycle s l k
    cores := Assoc.mapVals s.cores fun n c => c.afterCycle s n
    grids := Assoc.mapVals s.grids fun n x => { x with
      waiting := (stuck.find? fun w => w.1 == n).map fun w => x.stuckSince w.2 s.cycle.toNat } }

/-! Status counters (R387). -/

/-- A status counter of a die rises by 1 and saturates. -/
def countStatus (s : State) (die index : Nat) : State :=
  let d := s.dieAt die
  let v := Assoc.get 0 d.status index
  s.putDie die { d with status := Assoc.set 0 d.status index (if v = BitVec.allOnes 32 then v else v + 1) }

/-- CORRECTED_ERROR (R232, R387). -/
def execCorrectedError (die index : Nat) (s : State) : Result State :=
  if 4 ≤ die ∨ 5 < index then .refused (.notEnabled "CORRECTED_ERROR") else .next (countStatus s die index)

/-- LINK_RETRY (R387). -/
def execLinkRetry (die index : Nat) (s : State) : Result State :=
  if 4 ≤ die ∨ index < 6 ∨ 8 < index then .refused (.notEnabled "LINK_RETRY") else .next (countStatus s die index)

end Sys2Proof.Machine
end

