-- ==== Sys2Proof/Machine/LaneFp.lean ====
section
/-! DEFINITION. The floating-point lane instructions: arithmetic, minima, compares, classes, rounding and scaling, the
transcendental functions, and the dot products (R140 to R147). -/

namespace Sys2Proof.Machine

open Sys2Proof.Num (XVal Fmt RMode)

/-- A floating-point operation on the slots of its sources (R140 to R145): the exact result from the primal values (the
flag tells that the mode is RDN, for the sign of a zero sum), and the exact tangent from y, the primal values and the
tangents. -/
structure FpOp where
  srcs : Nat
  prim : Bool → RMode → List XVal → XVal
  tan  : XVal → List XVal → List XVal → XVal

/-- The source fields A, B and C of a word. -/
def Lane.field (c : Lane) (src : Nat) : BitVec 9 :=
  match src with
  | 0 => c.w.srcA
  | 1 => c.w.srcB
  | _ => c.w.srcC

/-- The modified primal values of slot j of lane l. -/
def Lane.vals (c : Lane) (f : Fmt) (n l j : Nat) : List XVal :=
  (List.range n).map fun src => c.fpVal f src (slotCode c.w.ty.toNat (c.operand (c.field src) l) j)

/-- The modified tangents of slot j of lane l in plane k. -/
def Lane.tans (c : Lane) (f : Fmt) (n k l j : Nat) : List XVal :=
  (List.range n).map fun src =>
    let ty := c.w.ty.toNat
    c.tanVal f src (slotCode ty (c.operand (c.field src) l) j) (slotCode ty (c.shadow (c.field src) k l) j)

/-- A rounded primal lies outside the clamp interval, or is a NaN, under clamp code 1 or 2 (R136). -/
def clamped (f : Fmt) (clamp code : Nat) : Bool :=
  (clamp == 1 || clamp == 2) && (Num.decode f code == .nan || Num.clampCode f clamp code != code)

/-- The primal code of exact value t, and the code before any clamp (R49). -/
def Lane.destCodes (c : Lane) (f : Fmt) (nansat : Bool) (mode : RMode) (t : XVal) : Nat × Nat :=
  let v := Num.destRounded f (rndFtz c.seen.rnd) c.k c.w.clamp.toNat nansat mode t
  let clamp := c.w.clamp.toNat
  (v, if clamp = 1 ∨ clamp = 2 then Num.clampCode f clamp v else v)

/-- A tangent's code: times 2^k, rounded once in RNE, +0 where the primal was clamped (R136). -/
def Lane.tanCode (c : Lane) (f : Fmt) (rounded : Nat) (d : XVal) : Nat :=
  if clamped f c.w.clamp.toNat rounded then 0 else Num.rnd f .rne (d.scale2 c.k)

/-- The number of non-finite codes among the slots of the active lanes (R40). -/
def countLanes (act : Mask) (per : Nat) (bad : Nat → Nat → Bool) : Nat :=
  (Bits.lanesOf act).foldl (fun n l => n + ((List.range per).filter (bad l)).length) 0

/-- A slot-wise floating-point instruction in format `f` (R140 to R145): the exact result of each slot through Dest, the
tangents by the operation's rule, the draws and the count. -/
def fpSlots (s : State) (c : Lane) (f : Fmt) (op : FpOp) : Result State :=
  let e := slotsOf c.w.ty.toNat
  let codes (l j : Nat) : Nat × Nat :=
    let mode := c.mode e l j
    c.destCodes f false mode (op.prim mode.isRdn mode (c.vals f op.srcs l j))
  let prim (l : Nat) : LaneW := packSlots c.w.ty.toNat fun j => (codes l j).2
  let tan (k l : Nat) : LaneW := packSlots c.w.ty.toNat fun j =>
    let v := (codes l j).1
    let y := (Num.decode f v).scale2 (-c.k)
    c.tanCode f v (op.tan y (c.vals f op.srcs l j) (c.tans f op.srcs k l j))
  let g := { c.g.writeResult c.w.dest c.t c.act prim tan with draws := c.drawn e }
  laneDone s c g (if c.nf then countLanes c.act e fun l j => Num.nonFinite f (codes l j).2 else 0)

/-- The format of a floating-point word. -/
def laneFmt (w : LaneWord) : Fmt := (Num.fmtOfCode w.ty.toNat).getD .fp32

/-- A floating-point instruction over its operation. -/
def fpInstr (i : Instr) (w : LaneWord) (op : FpOp) (s : State) : Result State :=
  laneInstr i w true s fun c => fpSlots s c (laneFmt w) op

/-- Element i of a short list of values. -/
def xv (l : List XVal) (i : Nat) : XVal := l.getD i XVal.zero

/-- A sum in RNE's sign rule, for tangents. -/
def tsum (xs : List XVal) : XVal := Num.sum false xs

/-- FADD (R140). -/
def execFadd (w : LaneWord) (s : State) : Result State :=
  fpInstr (.fadd w) w ⟨2, fun rdn _ x => Num.add rdn (xv x 0) (xv x 1), fun _ _ d => tsum [xv d 0, xv d 1]⟩ s
/-- FMUL (R140). -/
def execFmul (w : LaneWord) (s : State) : Result State :=
  fpInstr (.fmul w) w
    ⟨2, fun _ _ x => (xv x 0).mul (xv x 1),
      fun _ x d => tsum [(xv d 0).mul (xv x 1), (xv x 0).mul (xv d 1)]⟩ s
/-- FFMA (R140): exact, one rounding. -/
def execFfma (w : LaneWord) (s : State) : Result State :=
  fpInstr (.ffma w) w
    ⟨3, fun rdn _ x => Num.add rdn ((xv x 0).mul (xv x 1)) (xv x 2),
      fun _ x d => tsum [(xv d 0).mul (xv x 1), (xv x 0).mul (xv d 1), xv d 2]⟩ s
/-- The operation of FMIN and FMAX (R141). -/
def minMaxOp (isMin : Bool) : FpOp where
  srcs := 2
  prim := fun _ _ x =>
    if xv x 0 = .nan ∨ xv x 1 = .nan then .nan else if Num.chooseA isMin (xv x 0) (xv x 1) then xv x 0 else xv x 1
  tan := fun _ x d =>
    if xv x 0 = .nan ∨ xv x 1 = .nan then .nan else if Num.chooseA isMin (xv x 0) (xv x 1) then xv d 0 else xv d 1
/-- FMIN (R141). -/
def execFmin (w : LaneWord) (s : State) : Result State := fpInstr (.fmin w) w (minMaxOp true) s
/-- FMAX (R141). -/
def execFmax (w : LaneWord) (s : State) : Result State := fpInstr (.fmax w) w (minMaxOp false) s

/-- FCMP's conditions (R142). -/
def fpCompare (cc : Nat) (a b : XVal) : Bool :=
  let unord := a == .nan || b == .nan
  match cc with
  | 0 => !unord && a.eqv b
  | 1 => unord || !a.eqv b
  | 2 => !unord && a.lt b
  | 3 => !unord && (a.lt b || a.eqv b)
  | 4 => !unord && b.lt a
  | 5 => !unord && (b.lt a || a.eqv b)
  | 6 => !unord
  | _ => unord

/-- FCMP (R142). -/
def execFcmp (w : LaneWord) (s : State) : Result State :=
  laneInstr (.fcmp w) w true s fun c =>
    let f := w.func
    let p := w.dest.toNat
    let res (l : Nat) : Bool :=
      let x := c.vals .fp32 2 l 0
      combine (f / 8 % 4) ((c.g.readP p).getLsbD l) (fpCompare (f % 8) (xv x 0) (xv x 1))
    laneDone s c (c.g.writePred p c.act res) 0

/-- FCLASS's mask of one code (R143). -/
def classMask (f : Fmt) (code : Nat) : Nat :=
  match Num.decode f code with
  | .nan => 2 ^ 8
  | .inf n => if n then 1 else 2 ^ 7
  | .fin n m e =>
    if m = 0 then (if n then 2 ^ 3 else 2 ^ 4)
    else if Num.magLt m e 1 (1 - f.bias) then (if n then 2 ^ 2 else 2 ^ 5)
    else if n then 2 ^ 1 else 2 ^ 6

/-- FCLASS (R143): R44 does not act on it. -/
def execFclass (w : LaneWord) (s : State) : Result State :=
  laneInstr (.fclass w) w true s fun c =>
    let f := laneFmt w
    let ty := w.ty.toNat
    laneWrite s c (fun l => packSlots ty fun j => classMask f (slotCode ty (c.operand w.srcA l) j)) fun _ _ => 0

/-- FRND's value: the nearest integer in the mode, the sign kept (R144). -/
def execFrnd (w : LaneWord) (s : State) : Result State :=
  fpInstr (.frnd w) w ⟨1, fun _ mode x => Num.toIntegral mode (xv x 0), fun _ _ _ => XVal.zero⟩ s

/-- The scale of FSCL (R144): the whole lane word for .f32, the matching half for a packed slot, signed. -/
def fsclScale (c : Lane) (l j : Nat) : Int :=
  let ty := c.w.ty.toNat
  Bits.signed (slotCode ty (c.operand c.w.srcB l) j) (slotBits ty)

/-- FSCL (R144). -/
def execFscl (w : LaneWord) (s : State) : Result State :=
  laneInstr (.fscl w) w true s fun c =>
    let f := laneFmt w
    let ty := w.ty.toNat
    let e := slotsOf ty
    let codes (l j : Nat) := c.destCodes f false (c.mode e l j) ((xv (c.vals f 1 l j) 0).scale2 (fsclScale c l j))
    let tan (k l : Nat) : LaneW := packSlots ty fun j =>
      c.tanCode f (codes l j).1 ((xv (c.tans f 1 k l j) 0).scale2 (fsclScale c l j))
    let g := { c.g.writeResult w.dest c.t c.act (fun l => packSlots ty fun j => (codes l j).2) tan with
      draws := c.drawn e }
    laneDone s c g (if c.nf then countLanes c.act e fun l j => Num.nonFinite f (codes l j).2 else 0)

/-- The exponent of FEXPO (R144). -/
def exponentOf (x : XVal) : XVal :=
  match x with
  | .nan => .nan
  | .inf _ => .inf false
  | .fin _ m e => if m = 0 then .inf true else XVal.ofInt (Num.floorLog2 m e)

/-- FEXPO (R144). -/
def execFexpo (w : LaneWord) (s : State) : Result State :=
  fpInstr (.fexpo w) w ⟨1, fun _ _ x => exponentOf (xv x 0), fun _ _ _ => XVal.zero⟩ s

/-- A transcendental operation with its tangent rule (R145). -/
def unaryOp (f : XVal → XVal) (tan : XVal → XVal → XVal → XVal) : FpOp :=
  ⟨1, fun _ _ x => f (xv x 0), fun y x d => tan y (xv x 0) (xv d 0)⟩

/-- FEXP2 (R145): the tangent is y ln2 da. -/
def execFexp2 (w : LaneWord) (s : State) : Result State :=
  fpInstr (.fexp2 w) w (unaryOp Real.exp2 fun y _ d => (y.mul Real.ln2X).mul d) s
/-- FLOG2 (R145): da / (a ln2). -/
def execFlog2 (w : LaneWord) (s : State) : Result State :=
  fpInstr (.flog2 w) w (unaryOp Real.log2 fun _ a d => Real.div d (a.mul Real.ln2X)) s
/-- FRCP (R145): −y² da. -/
def execFrcp (w : LaneWord) (s : State) : Result State :=
  fpInstr (.frcp w) w (unaryOp Real.rcp fun y _ d => ((y.mul y).mul d).neg) s
/-- FRSQ (R145): −½ y³ da. -/
def execFrsq (w : LaneWord) (s : State) : Result State :=
  fpInstr (.frsq w) w (unaryOp Real.rsq fun y _ d => ((((y.mul y).mul y).mul d).scale2 (-1)).neg) s
/-- FSQRT (R145): da / (2y). -/
def execFsqrt (w : LaneWord) (s : State) : Result State :=
  fpInstr (.fsqrt w) w (unaryOp Real.sqrt fun y _ d => Real.div d (y.scale2 1)) s
/-- FSIN (R145): cos(a) da. -/
def execFsin (w : LaneWord) (s : State) : Result State :=
  fpInstr (.fsin w) w (unaryOp Real.sin fun _ a d => (Real.cos a).mul d) s
/-- FCOS (R145): −sin(a) da. -/
def execFcos (w : LaneWord) (s : State) : Result State :=
  fpInstr (.fcos w) w (unaryOp Real.cos fun _ a d => ((Real.sin a).mul d).neg) s
/-- FTANH (R145): (1 − y²) da. -/
def execFtanh (w : LaneWord) (s : State) : Result State :=
  fpInstr (.ftanh w) w
    (unaryOp Real.tanh fun y _ d => (tsum [XVal.ofInt 1, (y.mul y).neg]).mul d) s

/-- The value of one slot of a dot product's operand, and of its tangent. -/
structure DotVal where
  v : Nat → Nat → Nat → XVal
  d : Nat → Nat → Nat → Nat → XVal

/-- The sum of E products and C, exactly, through Dest to FP32 (R146, R147); `v src l j` and `d src k l j` give the slot
values of A and B and their tangents. -/
def dotInstr (s : State) (c : Lane) (e : Nat) (x : DotVal) : Result State :=
  let cv (l : Nat) := c.fpVal .fp32 2 (c.operand c.w.srcC l).toNat
  let cd (k l : Nat) := c.tanVal .fp32 2 (c.operand c.w.srcC l).toNat (c.shadow c.w.srcC k l).toNat
  let codes (l : Nat) :=
    let mode := c.mode 1 l 0
    c.destCodes .fp32 false mode
      (Num.sum mode.isRdn (((List.range e).map fun j => (x.v 0 l j).mul (x.v 1 l j)) ++ [cv l]))
  let tan (k l : Nat) : LaneW :=
    let ts := (List.range e).flatMap fun j => [(x.d 0 k l j).mul (x.v 1 l j), (x.v 0 l j).mul (x.d 1 k l j)]
    BitVec.ofNat 32 (c.tanCode .fp32 (codes l).1 (tsum (ts ++ [cd k l])))
  let g := { c.g.writeResult c.w.dest c.t c.act (fun l => BitVec.ofNat 32 (codes l).2) tan with draws := c.drawn 1 }
  laneDone s c g (if c.nf then countLanes c.act 1 fun l _ => Num.nonFinite .fp32 (codes l).2 else 0)

/-- FDOT (R146): Dec of each slot, with no scale. -/
def execFdot (w : LaneWord) (s : State) : Result State :=
  laneInstr (.fdot w) w true s fun c =>
    let f := laneFmt w
    let ty := w.ty.toNat
    let code (src l j : Nat) := slotCode ty (c.operand (c.field src) l) j
    dotInstr s c (slotsOf ty)
      ⟨fun src l j => c.fpVal f src (code src l j),
       fun src k l j => c.tanVal f src (code src l j) (slotCode ty (c.shadow (c.field src) k l) j)⟩

/-- The value of element i of a block-scaled register in a plane (R147), without modifiers. -/
def mxElem (g : Group) (ty plane reg len i : Nat) : XVal :=
  let e := slotsOf ty
  let q := g.readQ plane reg
  let b := i / len
  Num.mxVal ty (slotCode ty (Bits.lane (g.readV plane reg) (i / e)) (i % e)) (Bits.qbyte q b) (Bits.qbyte q (16 + b))

/-- The sign that multiplies a tangent under the modifiers of an MX element: the primal code's sign, or for E2M1X the sign
of the decoded value (R48, R136). -/
def mxTan (c : Lane) (ty src : Nat) (code : Nat) (primal tan : XVal) : XVal :=
  let neg := if ty = 8 then primal.sign else ((Num.fmtOfCode ty).getD .fp32).negCode code
  let d := if c.absMod src && neg then tan.neg else tan
  if c.negMod src then d.neg else d

/-- The modified value of an MX element: on an E2M1X element the modifiers act on the decoded value, and +0 stays +0
(R48). -/
def mxMod (c : Lane) (ty src : Nat) (code : Nat) (v : XVal) : XVal :=
  if ty = 8 ∧ code = 0 then v else applyMods (c.negMod src) (c.absMod src) v

/-- MXDOT (R147): each slot times its block scale, one rounding. -/
def execMxdot (w : LaneWord) (s : State) : Result State :=
  laneInstr (.mxdot w) w true s fun c =>
    let ty := w.ty.toNat
    let e := slotsOf ty
    let len (src : Nat) : Nat := if w.fn.getLsbD src then 16 else 32
    let code (src l j : Nat) := slotCode ty (Bits.lane (c.g.readV 0 (c.field src).toNat) l) j
    let val (src l j : Nat) := mxElem c.g ty 0 (c.field src).toNat (len src) (e * l + j)
    dotInstr s c e
      ⟨fun src l j => mxMod c ty src (code src l j) (val src l j),
       fun src k l j => mxTan c ty src (code src l j) (val src l j)
         (mxElem c.g ty k (c.field src).toNat (len src) (e * l + j))⟩

end Sys2Proof.Machine
end

