-- ==== Sys2Proof/Machine/LaneInt.lean ====
section
/-! DEFINITION. The integer lane instructions: arithmetic, dot products, compares, bitwise, shift, count and field
extraction (R148 to R152). Every one writes +0 tangents (R136). -/

namespace Sys2Proof.Machine

/-- A type's slots are signed (R149). -/
def signedType (ty : Nat) : Bool := ty == 9 || ty == 11 || ty == 13

/-- A slot's code as an integer of unbounded width. -/
def slotInt (ty w x : Nat) : Int := if signedType ty then Bits.signed x w else ((x % 2 ^ w : Nat) : Int)

/-- The range of a type of width w. -/
def typeRange (ty w : Nat) : Int × Int :=
  if signedType ty then (-(2 ^ (w - 1)), 2 ^ (w - 1) - 1) else (0, 2 ^ w - 1)

/-- The clamp codes on an integer result (R49, R149): the type's range, [0, 1] or [−1, 1]. -/
def clampTo (clamp ty w : Nat) (t : Int) : Int :=
  match clamp with
  | 0 => t
  | 1 => Bits.clampI t 0 1
  | 2 => Bits.clampI t (-1) 1
  | _ => Bits.clampI t (typeRange ty w).1 (typeRange ty w).2

/-- The modified integer of slot j of a source. -/
def Lane.int (c : Lane) (src l j : Nat) : Int :=
  let ty := c.w.ty.toNat
  let w := slotBits ty
  slotInt ty w (modInt (signedType ty) (c.negMod src) (c.absMod src) w (slotCode ty (c.operand (c.field src) l) j))

/-- A slot-wise integer instruction (R149). -/
def intSlots (i : Instr) (w : LaneWord) (op : Lane → Nat → Nat → Int) (s : State) : Result State :=
  laneInstr i w true s fun c =>
    let ty := w.ty.toNat
    let n := slotBits ty
    laneWrite s c
      (fun l => packSlots ty fun j => Bits.wrap (clampTo w.clamp.toNat ty n (op c l j)) n) fun _ _ => 0

/-- IADD (R149). -/
def execIadd (w : LaneWord) (s : State) : Result State :=
  intSlots (.iadd w) w (fun c l j => c.int 0 l j + c.int 1 l j) s
/-- ISUB (R149). -/
def execIsub (w : LaneWord) (s : State) : Result State :=
  intSlots (.isub w) w (fun c l j => c.int 0 l j - c.int 1 l j) s
/-- IMUL (R149). -/
def execImul (w : LaneWord) (s : State) : Result State :=
  intSlots (.imul w) w (fun c l j => c.int 0 l j * c.int 1 l j) s
/-- IMAD (R149). -/
def execImad (w : LaneWord) (s : State) : Result State :=
  intSlots (.imad w) w (fun c l j => c.int 0 l j * c.int 1 l j + c.int 2 l j) s
/-- IMULH (R149): the high half of the product. -/
def execImulh (w : LaneWord) (s : State) : Result State :=
  intSlots (.imulh w) w (fun c l j => c.int 0 l j * c.int 1 l j / 2 ^ slotBits w.ty.toNat) s
/-- IMIN (R149). -/
def execImin (w : LaneWord) (s : State) : Result State :=
  intSlots (.imin w) w (fun c l j => min (c.int 0 l j) (c.int 1 l j)) s
/-- IMAX (R149). -/
def execImax (w : LaneWord) (s : State) : Result State :=
  intSlots (.imax w) w (fun c l j => max (c.int 0 l j) (c.int 1 l j)) s

/-- IDOT (R148): the exact sum of products and a 32-bit C, saturated, clamped or wrapped to C's type. -/
def execIdot (w : LaneWord) (s : State) : Result State :=
  laneInstr (.idot w) w true s fun c =>
    let ty := w.ty.toNat
    let cty := if signedType ty then 9 else 10
    let cv (l : Nat) : Int :=
      slotInt cty 32 (modInt (signedType ty) (c.negMod 2) (c.absMod 2) 32 (c.operand w.srcC l).toNat)
    let t (l : Nat) : Int := (List.range (slotsOf ty)).foldl (fun a j => a + c.int 0 l j * c.int 1 l j) (cv l)
    laneWrite s c (fun l => BitVec.ofNat 32 (Bits.wrap (clampTo w.clamp.toNat cty 32 (t l)) 32)) fun _ _ => 0

/-- The integer compares (R142, R150). -/
def intCompare (cc : Nat) (a b : Int) : Bool :=
  match cc with
  | 0 => a == b
  | 1 => a != b
  | 2 => decide (a < b)
  | 3 => decide (a ≤ b)
  | 4 => decide (b < a)
  | _ => decide (b ≤ a)

/-- ICMP (R150). -/
def execIcmp (w : LaneWord) (s : State) : Result State :=
  laneInstr (.icmp w) w true s fun c =>
    let f := w.func
    let p := w.dest.toNat
    laneDone s c (c.g.writePred p c.act fun l =>
      combine (f / 8 % 4) ((c.g.readP p).getLsbD l) (intCompare (f % 8) (c.int 0 l 0) (c.int 1 l 0))) 0

/-- A bitwise instruction on whole lanes (R151). -/
def bitwise (i : Instr) (w : LaneWord) (op : LaneW → LaneW → LaneW) (s : State) : Result State :=
  laneInstr i w true s fun c => laneWrite s c (fun l => op (c.operand w.srcA l) (c.operand w.srcB l)) fun _ _ => 0

/-- IAND (R151). -/
def execIand (w : LaneWord) (s : State) : Result State := bitwise (.iand w) w (· &&& ·) s
/-- IOR (R151). -/
def execIor (w : LaneWord) (s : State) : Result State := bitwise (.ior w) w (· ||| ·) s
/-- IXOR (R151). -/
def execIxor (w : LaneWord) (s : State) : Result State := bitwise (.ixor w) w (· ^^^ ·) s

/-- A shift by slot j of B modulo the width (R151). -/
def shiftSlots (i : Instr) (w : LaneWord) (op : Nat → Nat → Nat → Nat → Int) (s : State) : Result State :=
  laneInstr i w true s fun c =>
    let ty := w.ty.toNat
    let n := slotBits ty
    laneWrite s c (fun l => packSlots ty fun j =>
      Bits.wrap (op ty n (slotCode ty (c.operand w.srcA l) j) (slotCode ty (c.operand w.srcB l) j % n)) n) fun _ _ => 0

/-- ISHL (R151). -/
def execIshl (w : LaneWord) (s : State) : Result State := shiftSlots (.ishl w) w (fun _ _ a k => ((a * 2 ^ k : Nat) : Int)) s
/-- ISHR (R151): arithmetic for .s types, logical for .z types. -/
def execIshr (w : LaneWord) (s : State) : Result State := shiftSlots (.ishr w) w (fun ty n a k => slotInt ty n a / 2 ^ k) s

/-- A count per slot (R151). -/
def countSlots (i : Instr) (w : LaneWord) (op : Nat → Nat → Nat) (s : State) : Result State :=
  laneInstr i w true s fun c =>
    let ty := w.ty.toNat
    laneWrite s c (fun l => packSlots ty fun j => op (slotBits ty) (slotCode ty (c.operand w.srcA l) j)) fun _ _ => 0

/-- IPOPC (R151). -/
def execIpopc (w : LaneWord) (s : State) : Result State := countSlots (.ipopc w) w Bits.popcount s
/-- ICLZ (R151): of a zero slot the width. -/
def execIclz (w : LaneWord) (s : State) : Result State :=
  countSlots (.iclz w) w (fun n x => if x = 0 then n else n - 1 - x.log2) s

/-- The field that IBFX extracts (R152). -/
def laneField (ty a pos wd : Nat) : Nat :=
  let n := min (min 32 wd) (32 - pos)
  if n = 0 then 0
  else
    let f := Bits.field a pos n
    if ty = 9 then Bits.wrap (Bits.signed f n) 32 else f

/-- IBFX (R152). -/
def execIbfx (w : LaneWord) (s : State) : Result State :=
  laneInstr (.ibfx w) w true s fun c =>
    laneWrite s c
      (fun l => BitVec.ofNat 32 (laneField w.ty.toNat (c.operand w.srcA l).toNat ((c.operand w.srcB l).toNat % 32)
        ((c.operand w.srcC l).toNat % 64))) fun _ _ => 0

end Sys2Proof.Machine
end

