-- ==== Sys2Proof/Machine/LaneCvt.lean ====
section
/-! DEFINITION. Conversion, packing and microscaled blocks in registers (R153 to R157). -/

namespace Sys2Proof.Machine

open Sys2Proof.Num (XVal Fmt RMode)

/-- The two types and the slot plan of a CVT (R153). -/
structure CvtPlan where
  d    : Nat
  s    : Nat
  part : Nat
  deriving DecidableEq, Repr

/-- A CVT word's plan. -/
def cvtPlan (w : LaneWord) : CvtPlan := ⟨w.ty.toNat, w.func / 16 % 16, w.func % 8⟩

/-- The slots converted per lane: min(Es, Ed) (R153). -/
def CvtPlan.count (p : CvtPlan) : Nat := min (slotsOf p.s) (slotsOf p.d)
/-- The source slot of conversion j. -/
def CvtPlan.src (p : CvtPlan) (j : Nat) : Nat := if slotsOf p.s ≤ slotsOf p.d then j else p.part * slotsOf p.d + j
/-- The destination slot of conversion j. -/
def CvtPlan.dst (p : CvtPlan) (j : Nat) : Nat := if slotsOf p.s ≤ slotsOf p.d then p.part * slotsOf p.s + j else j

/-- Conv of R153 on a source slot: the code written, and for floating point to floating point the code before any
clamp. -/
def cvtCode (c : Lane) (p : CvtPlan) (mode : RMode) (code : Nat) : Nat × Nat :=
  let nansat := c.w.func / 8 % 2 == 1
  let clamp := c.w.clamp.toNat
  let dw := slotBits p.d
  match Num.fmtOfCode p.s, Num.fmtOfCode p.d with
  | some fs, some fd => c.destCodes fd nansat mode (c.fpVal fs 0 code)
  | some fs, none =>
    let r := typeRange p.d dw
    let n := Bits.wrap (clampTo clamp p.d dw (Num.toInt mode r.1 r.2 (c.fpVal fs 0 code))) dw
    (n, n)
  | none, some fd =>
    let sw := slotBits p.s
    c.destCodes fd nansat mode (XVal.ofInt (slotInt p.s sw (modInt (signedType p.s) (c.negMod 0) (c.absMod 0) sw code)))
  | none, none =>
    let sw := slotBits p.s
    let v := slotInt p.s sw (modInt (signedType p.s) (c.negMod 0) (c.absMod 0) sw code)
    let n := Bits.wrap (clampTo clamp p.d dw v) dw
    (n, n)

/-- The tangent of a converted slot: the source's, rounded, between floating-point formats; else +0 (R153). -/
def cvtTan (c : Lane) (p : CvtPlan) (rounded code tcode : Nat) : Nat :=
  match Num.fmtOfCode p.s, Num.fmtOfCode p.d with
  | some fs, some fd => c.tanCode fd rounded (c.tanVal fs 0 code tcode)
  | _, _ => 0

/-- The word of a CVT's source: the constants ONE and NEGONE stand in the source type, which a CVT names apart from its
destination's (R68). -/
def Lane.cvtWord (c : Lane) (p : CvtPlan) (l : Nat) : LaneW :=
  if c.w.srcA = 509 then oneWord p.s false
  else if c.w.srcA = 510 then oneWord p.s true
  else c.operand c.w.srcA l

/-- The draw counter after a CVT (R58, R153): between integer types nothing is rounded, and no value is taken. -/
def cvtDraws (c : Lane) (p : CvtPlan) : BitVec 32 :=
  if (Num.fmtOfCode p.s).isNone && (Num.fmtOfCode p.d).isNone then c.g.draws else c.drawn p.count

/-- CVT (R153): slots not named keep their codes and their tangents. -/
def execCvt (w : LaneWord) (s : State) : Result State :=
  laneInstr (.cvt w) w true s fun c =>
    let p := cvtPlan w
    let n := p.count
    let d := w.dest.toNat
    let codes (l j : Nat) := cvtCode c p (c.mode n l j) (slotCode p.s (c.cvtWord p l) (p.src j))
    let put (old : LaneW) (f : Nat → Nat) : LaneW :=
      (List.range n).foldl (fun x j => setSlot p.d x (p.dst j) (f j)) old
    let prim (l : Nat) : LaneW := put (Bits.lane (c.g.readV 0 d) l) fun j => (codes l j).2
    let tan (k l : Nat) : LaneW := put (Bits.lane (c.g.readV k d) l) fun j =>
      cvtTan c p (codes l j).1 (slotCode p.s (c.cvtWord p l) (p.src j))
        (slotCode p.s (c.shadow w.srcA k l) (p.src j))
    let g := { c.g.writeResult w.dest c.t c.act prim tan with draws := cvtDraws c p }
    let f := (Num.fmtOfCode p.d).getD .fp32
    laneDone s c g (if c.nf then countLanes c.act n fun l j => Num.nonFinite f (codes l j).2 else 0)

/-- A word with slot n of the given width replaced by A's low slot; an FP6 slot has bits [7:6] zero (R154). -/
def packWord (ty n : Nat) (a b : LaneW) : LaneW :=
  let w := packWidth ty
  Bits.splice b (w * n) w (a.toNat % 2 ^ (if ty = 5 ∨ ty = 6 then 6 else w))

/-- Slot n of a word, zero-extended, or sign-extended for .s types (R154). -/
def unpackWord (ty n : Nat) (a : LaneW) : LaneW :=
  let w := packWidth ty
  let x := Bits.field a.toNat (w * n) w
  BitVec.ofNat 32 (if signedType ty then Bits.wrap (Bits.signed x w) 32 else x)

/-- PACK (R154): tangents move with the bits. -/
def execPack (w : LaneWord) (s : State) : Result State :=
  laneInstr (.pack w) w true s fun c =>
    let n := w.func % 8
    laneWrite s c (fun l => packWord w.ty.toNat n (c.operand w.srcA l) (c.operand w.srcB l))
      fun k l => packWord w.ty.toNat n (c.shadow w.srcA k l) (c.shadow w.srcB k l)

/-- UNPK (R154): the shadow's slot n moves to slot 0 and the remaining bits are zero. -/
def execUnpk (w : LaneWord) (s : State) : Result State :=
  laneInstr (.unpk w) w true s fun c =>
    let n := w.func % 8
    let pw := packWidth w.ty.toNat
    laneWrite s c (fun l => unpackWord w.ty.toNat n (c.operand w.srcA l))
      fun k l => BitVec.ofNat 32 (Bits.field (c.shadow w.srcA k l).toNat (pw * n) pw)

/-- Block b of a register of type `ty` with block length `len`: its lanes. -/
def blockLanes (ty len b : Nat) : List Nat :=
  let per := len / slotsOf ty
  (List.range per).map fun i => b * per + i

/-- The blocks of a register (R51). -/
def blockCount (ty len : Nat) : Nat := 32 * slotsOf ty / len

/-- The scale register after a requantisation of whole blocks (R155): unused bytes take 0x7F and 0x00. -/
def scaleImage (old : ScaleReg) (nb : Nat) (blk : Nat → Option Num.Block) : ScaleReg :=
  (List.range 16).foldl (fun q b =>
    if b < nb then
      match blk b with
      | some x => Bits.setQbyte (Bits.setQbyte q b x.scale) (16 + b) x.comp
      | none => q
    else Bits.setQbyte (Bits.setQbyte q b 0x7F) (16 + b) 0) old

/-- A vector register after a requantisation of whole blocks (R155). -/
def blockImage (old : VecReg) (ty len nb : Nat) (blk : Nat → Option Num.Block) : VecReg :=
  let e := slotsOf ty
  (List.range nb).foldl (fun v b =>
    match blk b with
    | none => v
    | some x => (blockLanes ty len b).foldl (fun v l =>
        Bits.setLane v l (packSlots ty fun j => x.codes.getD ((l - b * (len / e)) * e + j) 0)) v) old

/-- The blocks that a plane of RQNT forms, one for each block whose lanes are all active (R155). -/
def rqntBlocks (c : Lane) (ty len : Nat) (nansat : Bool) (mode : Nat → RMode) (val : Nat → Nat → XVal) (b : Nat) :
    Option Num.Block :=
  let e := slotsOf ty
  if (blockLanes ty len b).all fun l => c.act.getLsbD l then
    let is := (List.range len).map fun j => b * len + j
    some (Num.requantise (is.map fun i => val (i / e) (i % e)) ty (is.map mode) nansat)
  else none

/-- The count of .nf of a requantisation: non-finite codes and scales 0xFF (R155). -/
def blockNf (ty nb : Nat) (blk : Nat → Option Num.Block) : Nat :=
  let f := (Num.fmtOfCode ty).getD .fp32
  (List.range nb).foldl (fun n b => match blk b with
    | none => n
    | some x => n + (if x.scale = 0xFF then 1 else 0) + (x.codes.filter fun k =>
        !(ty == 8 && k == 8) && Num.nonFinite f k).length) 0

/-- RQNT (R155). -/
def execRqnt (w : LaneWord) (s : State) : Result State :=
  laneInstr (.rqnt w) w true s fun c =>
    let ty := w.ty.toNat
    let e := slotsOf ty
    let len := if w.fn.getLsbD 0 then 16 else 32
    let nb := blockCount ty len
    let a := w.srcA.toNat
    let code (l j : Nat) := (Bits.lane (c.g.readV 0 (a + j)) l).toNat
    let m := c.modeCode
    let mode (i : Nat) := RMode.ofCode m (if m = 6 then c.chunk i else 0)
    let prim := rqntBlocks c ty len (w.fn.getLsbD 1) mode fun l j => c.fpVal .fp32 0 (code l j)
    let tan (k : Nat) := rqntBlocks c ty len false (fun _ => .rne) fun l j =>
      c.tanVal .fp32 0 (code l j) (Bits.lane (c.g.readV k (a + j)) l).toNat
    let d := w.dest.toNat
    let put (g : Group) (k : Nat) (blk : Nat → Option Num.Block) : Group :=
      (g.writeV k d (blockImage (c.g.readV k d) ty len nb blk)).writeQ k d (scaleImage (c.g.readQ k d) nb blk)
    let g := if 384 ≤ d ∨ c.act = 0 then c.g
      else (List.range c.t).foldl (fun g k => put g (k + 1) (tan (k + 1))) (put c.g 0 prim)
    laneDone s c { g with draws := c.drawn e } (if c.nf then blockNf ty nb prim else 0)

/-- DQNT (R156): E registers of FP32 from one MX register. -/
def execDqnt (w : LaneWord) (s : State) : Result State :=
  laneInstr (.dqnt w) w true s fun c =>
    let ty := w.ty.toNat
    let e := slotsOf ty
    let len := if w.fn.getLsbD 0 then 16 else 32
    let a := w.srcA.toNat
    let d := w.dest.toNat
    let codes (l j : Nat) := c.destCodes .fp32 false (c.mode e l j) (mxElem c.g ty 0 a len (e * l + j))
    let tan (k l j : Nat) := c.tanCode .fp32 (codes l j).1 (mxElem c.g ty k a len (e * l + j))
    let g := if 384 ≤ d then c.g
      else (List.range e).foldl (fun g j =>
        (List.range c.t).foldl (fun g k => g.writeLanes (k + 1) (d + j) c.act fun l => BitVec.ofNat 32 (tan (k + 1) l j))
          (g.writeLanes 0 (d + j) c.act fun l => BitVec.ofNat 32 (codes l j).2)) c.g
    laneDone s c { g with draws := c.drawn e }
      (if c.nf then countLanes c.act e fun l j => Num.nonFinite .fp32 (codes l j).2 else 0)

/-- Byte l of a scale register takes `f l` in the active lanes, in planes 0 to T (R157). -/
def writeScaleBytes (g : Group) (d t : Nat) (act : Mask) (f : Nat → Nat → Nat) : Group :=
  (List.range (t + 1)).foldl (fun g k =>
    g.writeQ k d ((Bits.lanesOf act).foldl (fun q l => Bits.setQbyte q l (f k l)) (g.readQ k d))) g

/-- QMOV (R157). -/
def execQmov (w : LaneWord) (s : State) : Result State :=
  laneInstr (.qmov w) w true s fun c =>
    laneDone s c (writeScaleBytes c.g w.dest.toNat c.t c.act fun k l => Bits.qbyte (c.g.readQ k w.srcA.toNat) l) 0

/-- QSET (R157). -/
def execQset (w : LaneWord) (s : State) : Result State :=
  laneInstr (.qset w) w true s fun c =>
    laneDone s c (writeScaleBytes c.g w.dest.toNat c.t c.act fun k l =>
      (if k = 0 then c.operand w.srcA l else c.shadow w.srcA k l).toNat % 256) 0

/-- QGET (R157). -/
def execQget (w : LaneWord) (s : State) : Result State :=
  laneInstr (.qget w) w true s fun c =>
    laneWrite s c (fun l => BitVec.ofNat 32 (Bits.qbyte (c.g.readQ 0 w.srcA.toNat) l))
      fun k l => BitVec.ofNat 32 (Bits.qbyte (c.g.readQ k w.srcA.toNat) l)

end Sys2Proof.Machine
end

