-- ==== Sys2Proof/Machine/LaneEvents.lean ====
section
/-! DEFINITION. The events of a group's streams: the start of a lane program and of a clause (R19, R78, R312), a split's
arrival (R170), the completion of long-latency instructions (R91, R284, R392) and of scalar accesses (R292). -/

namespace Sys2Proof.Machine

/-- The group's lane stream runs: it holds a slot, split 4 runs in handler state and the others outside it, and no trap or
user-level interrupt is due (R216, R218). -/
def Group.splitRuns (g : Group) (split : Nat) : Bool :=
  let x := g.splitAt split
  g.status == .running && x.valid && x.st == .running && (split == 4) == g.handler && !g.eventsDue

/-- A split that has come to the reconvergence address of its top join entry (R170). -/
def Split.atJoin (x : Split) : Bool :=
  x.index == 15 && x.bad.isNone &&
    match x.joins with
    | j :: _ => j.reconv == x.addr
    | [] => false

/-- The start of a lane program: all 32 lanes as one split (R18). -/
def Split.start (addr : BitVec 32) : Split := { Split.free with valid := true, mask := BitVec.allOnes 32, addr := addr }

/-- LANE_PROGRAM_START (R312, R218): the head of the queue, when no split of it runs, and what its LRUN follows has completed
(R125). -/
def execLaneProgramStart (key : Nat) (s : State) : Result State :=
  match Assoc.find? s.groups key with
  | none => .refused (.notEnabled "LANE_PROGRAM_START")
  | some g =>
    let busy := if g.handler then g.hsplit.valid else g.splits.any (·.valid)
    match g.status == .running && !busy, g.queue with
    | true, a :: _ =>
      if g.edgeMet a.edge then .next (s.putGroup key (g.putSplit (if g.handler then 4 else 0) (Split.start a.addr)))
      else .refused (.notEnabled "LANE_PROGRAM_START")
    | _, _ => .refused (.notEnabled "LANE_PROGRAM_START")

/-- The tangent width that a header asks for (R174). -/
def headerWidth (g : Group) (h : Header) : Nat :=
  match h.dual.toNat with
  | 0 => g.tanw
  | 1 => 0
  | 2 => 1
  | 3 => 2
  | _ => 4

/-- The edges that order the scalar stream before a clause: its program's LRUN, and the FCLRs of the flags that it waits
on (R69, R125, R129). -/
def clauseEdges (g : Group) (h : Header) : List Edge :=
  (g.queue.take 1).map (·.edge) ++ ((List.range 12).filter fun n => h.wait.getLsbD n).filterMap (Assoc.find? g.cleared)

/-- A clause starts under its header once its wait mask is clear, having observed those flags (R19, R129); until then the
split is held (R361, R362). -/
def beginClause (s : State) (key i : Nat) (h : Header) : Result State :=
  let s := { s with cur := ⟨key, some i⟩ }
  let g := s.group
  let x := g.splitAt i
  if !g.flagsReady h.wait false then
    if x.st = .held then .refused (.notEnabled "CLAUSE_START")
    else .next (s.setGroup (g.putSplit i { x with st := .held, hdr := h }))
  else if !((clauseEdges g h).all g.edgeMet) then .refused (.notEnabled "CLAUSE_START")
  else
    let floor := (clauseEdges g h).foldl (fun m e => max m e.floor) 0
    let s := s.setGroup (g.putSplit i
      { x with st := .running, index := 0, hdr := h, width := headerWidth g h, age := 0, floor := floor })
    .next (if h.wait = 0 then s else invalidateL1 s g.core)

/-- A fetched header: an illegal one and a width beyond TANW trap with index 15; else the clause starts or the split is held
(R19, R81, R103). -/
def startClause (s : State) (key i : Nat) (ws : List (BitVec 32)) : Result State :=
  let s := { s with cur := ⟨key, some i⟩ }
  let g := s.group
  match decodeHeader (laneBits ws) with
  | .error _ => trapIllop s
  | .ok h => if g.tanw < headerWidth g h then trapRange s (headerWidth g h) else beginClause s key i h

/-- A split's fetch waits for page service (R215). -/
def holdFetch (s : State) (key i va : Nat) : State :=
  s.modGroup key fun g => g.putSplit i { g.splitAt i with fetch := some va }

/-- A split of a running lane stream is held at a clause's wait mask (R361). -/
def Group.splitHeld (g : Group) (split : Nat) : Bool :=
  (g.putSplit split { g.splitAt split with st := .running }).splitRuns split && (g.splitAt split).st == .held

/-- CLAUSE_START (R19, R78): the header at the split's address is fetched and its clause begins, or a held split's does. -/
def execClauseStart (key i : Nat) (s : State) : Result State :=
  let g := s.groupAt key
  let x := g.splitAt i
  if g.splitHeld i then beginClause s key i x.hdr
  else if !g.splitRuns i || x.index != 15 || x.atJoin || x.fetch.isSome || !x.hold.isEmpty then
    .refused (.notEnabled "CLAUSE_START")
  else
    let t := { s with cur := ⟨key, some i⟩ }
    match x.bad with
    | some v => .next (trapBadResume t i v)
    | none =>
      let va := (x.next (s.gridAt g.grid)).toNat
      match fetchWords t g.die true va 3 with
      | (.words ws, s) => startClause s key i ws
      | (.bad detail, s) => .next (takeTrap s .ifetch detail x.mask (BitVec.ofNat 64 va))
      | (.service kind level base size, s) =>
        .next (holdFetch (askService s g.die g kind level base size (faultDetail false true false false)) key i (max va base))
      | (.waiting, s) => .next s
      | (.badRoot, s) => .next (machineCheckTeam s g.teamKey g)

/-- SPLIT_ARRIVAL (R170). -/
def execSplitArrival (key i : Nat) (s : State) : Result State :=
  let g := s.groupAt key
  if !g.splitRuns i || !(g.splitAt i).atJoin then .refused (.notEnabled "SPLIT_ARRIVAL")
  else .next (s.putGroup key (g.arrive i))

/-- An operation writes its registers, its flag falls, and it is outstanding no more (R20, R91); a split that it has held
moves on, or repeats the instruction without effect once it runs again (R214). -/
def endLaneOp (s : State) (key : Nat) (g : Group) (o : LaneOp) : State :=
  let h := (g.writeDest o).dropFlag o.flag
  let h := { h with laneOps := h.laneOps.filter fun x => x.id != o.id }
  if o.far.isEmpty then s.putGroup key h
  else if g.splitRuns o.split then finishHeld { s.putGroup key h with cur := ⟨key, some o.split⟩ } h o.split
  else s.putGroup key { h with laneOps := h.laneOps ++
    [{ o with flag := none, dest := .none, write := true, again := true, done := [], far := [] }] }

/-- The operation is RNG's. -/
def LaneOp.random (o : LaneOp) : Bool :=
  match o.dest with
  | .regs _ _ => true
  | _ => false

/-- A finished operation of a group, by its number. -/
def Group.finished (g : Group) (id : Nat) (random : Bool) : Option LaneOp :=
  g.laneOps.find? fun o => o.id == id && o.todo.isEmpty && !o.again && o.random == random

/-- LANE_MEMORY_COMPLETE (R284): every access of the instruction has been performed. -/
def execLaneMemoryComplete (key id : Nat) (s : State) : Result State :=
  match (s.groupAt key).finished id false with
  | some o => .next (endLaneOp s key (s.groupAt key) o)
  | none => .refused (.notEnabled "LANE_MEMORY_COMPLETE")

/-- RNG_COMPLETE (R392). -/
def execRngComplete (key id : Nat) (s : State) : Result State :=
  match (s.groupAt key).finished id true with
  | some o => .next (endLaneOp s key (s.groupAt key) o)
  | none => .refused (.notEnabled "RNG_COMPLETE")

/-- SCALAR_ACCESS_COMPLETE (R91, R292): the S registers take their values. -/
def execScalarAccessComplete (key id : Nat) (s : State) : Result State :=
  let g := s.groupAt key
  match g.scalarOps.find? fun o => o.id == id with
  | some o =>
    let g := o.dest.foldl (fun g d => g.writeS d.1 d.2) g
    .next (s.putGroup key { g with scalarOps := g.scalarOps.filter fun x => x.id != id })
  | none => .refused (.notEnabled "SCALAR_ACCESS_COMPLETE")

end Sys2Proof.Machine
end

