-- ==== Sys2Proof/Machine/LaneMove.lean ====
section
/-! DEFINITION. Predicates, moves and selects, the instructions across lanes, branches and stops, and the tangent moves
(R158 to R171, R185, R186). -/

namespace Sys2Proof.Machine

open Sys2Proof.Num (XVal Fmt RMode)

/-- PLOP (R158): a lookup by three predicates. -/
def execPlop (w : LaneWord) (s : State) : Result State :=
  laneInstr (.plop w) w true s fun c =>
    let p (f : BitVec 9) (l : Nat) : Nat := if (c.g.readP f.toNat).getLsbD l then 1 else 0
    laneDone s c (c.g.writePred w.dest.toNat c.act fun l =>
      Bits.bit w.func (4 * p w.srcA l + 2 * p w.srcB l + p w.srcC l)) 0

/-- PSET and PSET.mask (R159). -/
def execPset (w : LaneWord) (s : State) : Result State :=
  laneInstr (.pset w) w true s fun c =>
    let mask := w.fn.getLsbD 23
    laneDone s c (c.g.writePred w.dest.toNat c.act fun l =>
      if mask then (c.operand w.srcA l).getLsbD l else c.operand w.srcA l != 0) 0

/-- PMOV and PMOV.tov (R159). -/
def execPmov (w : LaneWord) (s : State) : Result State :=
  laneInstr (.pmov w) w true s fun c =>
    let p := c.g.readP w.srcA.toNat
    if w.fn.getLsbD 23 then laneWrite s c (fun _ => p) fun _ _ => 0
    else laneDone s c (c.g.writePred w.dest.toNat c.act fun l => p.getLsbD l) 0

/-- MOV (R160): bit for bit, with A's tangent. -/
def execMov (w : LaneWord) (s : State) : Result State :=
  laneInstr (.mov w) w true s fun c => laneWrite s c (fun l => c.operand w.srcA l) fun k l => c.shadow w.srcA k l

/-- MOVX's index (R161): full width. -/
def movxIndex (c : Lane) : Int := movxAt c.seen c.w

/-- MOVX (R161): a computed index outside the allocation traps REGRANGE with its low 32 bits; the wait of R91 holds for the
computed register as for a named one. -/
def execMovx (w : LaneWord) (s : State) : Result State :=
  laneInstr (.movx w) w true s fun c =>
    let i := movxIndex c
    if i < 0 ∨ (c.g.alloc : Int) ≤ i then trapRange s (Bits.wrap i 32)
    else
      let n := i.toNat
      if c.g.heldV c.i [n] [] then .next s
      else if w.fn.getLsbD 23 then
        laneDone s c (c.g.writeResult (BitVec.ofNat 9 n) c.t c.act (fun l => c.operand w.srcA l)
          fun k l => c.shadow w.srcA k l) 0
      else laneWrite s c (fun l => Bits.lane (c.g.readV 0 n) l) fun k l => Bits.lane (c.g.readV k n) l

/-- SEL of the lane stream (R162). -/
def execSelLane (w : LaneWord) (s : State) : Result State :=
  laneInstr (.selLane w) w true s fun c =>
    let p := c.g.readP (w.func % 8)
    let inv := w.func / 8 % 2 == 1
    let src (l : Nat) := if p.getLsbD l != inv then w.srcA else w.srcB
    laneWrite s c (fun l => c.operand (src l) l) fun k l => c.shadow (src l) k l

/-- The lane that SHFL reads for lane l (R163); outside 0 to 31, its own. -/
def shflLane (mode b l : Nat) : Nat :=
  let n : Int := match mode with
    | 0 => b
    | 1 => (l : Int) - b
    | 2 => (l : Int) + b
    | _ => (l ^^^ b % 32 : Nat)
  if 0 ≤ n ∧ n < 32 then n.toNat else l

/-- SHFL (R163): lane s need not be active. -/
def execShfl (w : LaneWord) (s : State) : Result State :=
  laneInstr (.shfl w) w true s fun c =>
    let from_ (l : Nat) := shflLane (w.func % 4) (c.operand w.srcB l).toNat l
    laneWrite s c (fun l => c.operand w.srcA (from_ l)) fun k l => c.shadow w.srcA k (from_ l)

/-- VOTE (R164). -/
def execVote (w : LaneWord) (s : State) : Result State :=
  laneInstr (.vote w) w true s fun c =>
    let f := w.func
    let p := c.g.readP w.srcA.toNat
    let yes := c.act &&& (if f / 4 % 2 = 1 then ~~~p else p)
    match f % 4 with
    | 3 => laneWrite s c (fun _ => yes) fun _ _ => 0
    | k =>
      let r := match k with
        | 0 => yes == c.act
        | 1 => yes != 0
        | _ => yes == c.act || yes == 0
      laneDone s c (c.g.writePred w.dest.toNat c.act fun _ => r) 0

/-- The lanes of a mask whose operand differs from that of the lowest one (R165, R370). -/
def differing (c : Lane) (f : BitVec 9) : Mask :=
  match Bits.lowestLane c.act with
  | none => 0
  | some l0 => c.act &&& Bits.maskOf fun l => c.operand f l != c.operand f l0

/-- BCAST and BCAST.first (R165): a B that differs between active lanes, whatever its source, traps NONUNI (R370). -/
def execBcast (w : LaneWord) (s : State) : Result State :=
  laneInstr (.bcast w) w true s fun c =>
    let first := w.func / 2 ^ 23 % 2 == 1
    let bad := if first then 0 else differing c w.srcB
    if bad ≠ 0 then .next (takeTrap s .nonuni 0 bad 0)
    else
      let low := (Bits.lowestLane c.act).getD 0
      let n := if first then low else (c.operand w.srcB low).toNat % 32
      laneWrite s c (fun _ => c.operand w.srcA n) fun k _ => c.shadow w.srcA k n

/-- A leaf or a node's value of a lane tree: a code, one tangent code for each plane, and its place in the tree, by which
nodes are told apart (leaf l is 32 + l). -/
structure TreeVal where
  code : Nat
  tans : List Nat
  node : Nat
  deriving DecidableEq, Repr

/-- The node of a floating-point op of R166: op 0 adds with one rounding, 1 and 2 choose by R141. -/
def fpNode (f : Fmt) (ftz : Bool) (modeAt : Nat → RMode) (op : Nat) (x y : TreeVal) : TreeVal :=
  let n := x.node / 2
  let mode := modeAt n
  let a := Num.flushIn f ftz (Num.decode f x.code)
  let b := Num.flushIn f ftz (Num.decode f y.code)
  let put (t : XVal) := Num.roundTo f (ftz && f.flushes) .table mode t
  if op = 0 then
    ⟨put (Num.add mode.isRdn a b),
     (x.tans.zip y.tans).map fun p => Num.rnd f .rne (Num.add false (Num.decode f p.1) (Num.decode f p.2)), n⟩
  else if a = .nan ∨ b = .nan then ⟨f.canonNan, x.tans.map fun _ => f.canonNan, n⟩
  else if Num.chooseA (op == 1) a b then ⟨put a, x.tans, n⟩
  else ⟨put b, y.tans, n⟩

/-- The node of an integer or bitwise op of R166; tangents are +0. -/
def intNode (ty op : Nat) (x y : TreeVal) : TreeVal :=
  let a := slotInt ty 32 x.code
  let b := slotInt ty 32 y.code
  let r := match op with
    | 4 => (x.code + y.code) % 2 ^ 32
    | 5 => if a ≤ b then x.code else y.code
    | 6 => if b ≤ a then x.code else y.code
    | 8 => x.code &&& y.code
    | 9 => x.code ||| y.code
    | _ => x.code ^^^ y.code
  ⟨r, x.tans.map fun _ => 0, x.node / 2⟩

/-- The identity that an exclusive SCAN gives a lane without a tree (R166). -/
def treeIdentity (ty op : Nat) : Nat :=
  let f := (Num.fmtOfCode ty).getD .fp32
  match op with
  | 1 => f.infCode
  | 2 => f.signBit true + f.infCode
  | 5 => if ty = 9 then 2 ^ 31 - 1 else 2 ^ 32 - 1
  | 6 => if ty = 9 then 2 ^ 31 else 0
  | 8 => 2 ^ 32 - 1
  | _ => 0

/-- The leaf of lane l, slot j (R48, R166). -/
def treeLeaf (c : Lane) (l j : Nat) : TreeVal :=
  let ty := c.w.ty.toNat
  let code := slotCode ty (c.operand c.w.srcA l) j
  match Num.fmtOfCode ty with
  | some f =>
    ⟨modCode f (c.negMod 0) (c.absMod 0) code, (List.range c.t).map fun k =>
      let t := slotCode ty (c.shadow c.w.srcA (k + 1) l) j
      let flip := (c.absMod 0 && f.negCode code) != c.negMod 0
      if flip then modCode f true false t else t, 32 + l⟩
  | none => ⟨modInt (signedType ty) (c.negMod 0) (c.absMod 0) 32 code, List.replicate c.t 0, 32 + l⟩

/-- The rounding of node `node` of lane l's tree in slot j. In stochastic mode, which only RND.mode can give (R166), the spec
does not state which chunk a node takes: it is a free value (assumption 20). -/
def treeMode (c : Lane) (free l j node : Nat) : RMode :=
  let m := c.modeCode
  let at_ := free + ((2 * l + j) * 64 + node) * 2
  RMode.ofCode m (if m = 6 then Bits.leNat [Config.freeByte at_, Config.freeByte (at_ + 1)] else 0)

/-- The root of the tree over the active lanes for which `p` holds (R55, R56), rounded as lane l's tree. -/
def treeOver (c : Lane) (free op l j : Nat) (p : Nat → Bool) : Option TreeVal :=
  let ty := c.w.ty.toNat
  let node := match Num.fmtOfCode ty with
    | some f => fpNode f (rndFtz c.seen.rnd) (treeMode c free l j) op
    | none => intNode ty op
  Num.treeRoot node (Bits.lanes.map fun m => if c.act.getLsbD m && p m then some (treeLeaf c m j) else none)

/-- The result of a tree, with the identity and +0 tangents where it is absent. -/
def treeValue (c : Lane) (op : Nat) (r : Option TreeVal) : TreeVal :=
  r.getD ⟨treeIdentity c.w.ty.toNat op, List.replicate c.t 0, 0⟩

/-- A tree instruction: each active lane takes, per slot, the tree over the lanes that `p l` selects (R166), or the one tree
of all lanes. In stochastic mode it takes its draws as every instruction that rounds (R58). -/
def treeInstr (s : State) (c : Lane) (op : Nat) (one : Bool) (p : Nat → Nat → Bool) : Result State :=
  let ty := c.w.ty.toNat
  let e := slotsOf ty
  let val (l j : Nat) := treeValue c op (treeOver c s.free op (if one then 0 else l) j (p l))
  let g := c.g.writeResult c.w.dest c.t c.act (fun l => packSlots ty fun j => (val l j).code)
    fun k l => packSlots ty fun j => (val l j).tans.getD (k - 1) 0
  let draws := c.stochastic && isFpType ty
  let g := if draws then { g with draws := c.drawn e } else g
  laneDone { s with free := if draws then s.free + 8192 else s.free } c g (if c.nf then
      countLanes c.act e fun l j => match Num.fmtOfCode ty with
        | some f => Num.nonFinite f (val l j).code
        | none => false
    else 0)

/-- SCAN (R56, R166). -/
def execScan (w : LaneWord) (s : State) : Result State :=
  laneInstr (.scan w) w true s fun c =>
    let excl := w.fn.getLsbD 4
    treeInstr s c (w.fn.toNat % 16) false fun l m => if excl then decide (m < l) else decide (m ≤ l)

/-- REDUX (R55, R166). -/
def execRedux (w : LaneWord) (s : State) : Result State :=
  laneInstr (.redux w) w true s fun c => treeInstr s c (w.fn.toNat % 16) true fun _ _ => true

/-- The node of REDUX.pair (R167) on pairs of FP32 codes. -/
def pairNode (ftz : Bool) (x y : Nat × Nat) : Nat × Nat :=
  let v (code : Nat) := Num.flushIn .fp32 ftz (Num.decode .fp32 code)
  let put (t : XVal) := Num.roundTo .fp32 ftz .table .rne t
  let h := Num.add false (v x.1) (v y.1)
  if v x.1 = .nan ∨ v x.2 = .nan ∨ v y.1 = .nan ∨ v y.2 = .nan ∨ h = .nan then (Fmt.canonNan .fp32, 0)
  else
    let sCode := put h
    let sv := Num.decode .fp32 sCode
    if !sv.isFin then (sCode, 0)
    else
      let e := Num.add false h sv.neg
      let t := Num.decode .fp32 (put (Num.sum false [v x.2, v y.2, e]))
      let hi := put (Num.add false sv t)
      (hi, put (Num.sum false [sv, t, (Num.decode .fp32 hi).neg]))

/-- The pair tree of one plane over the active lanes (R167). -/
def pairRoot (c : Lane) (leaf : Nat → Nat × Nat) (ftz : Bool) : Nat × Nat :=
  (Num.treeRoot (pairNode ftz) (Bits.lanes.map fun l => if c.act.getLsbD l then some (leaf l) else none)).getD (0, 0)

/-- REDUX.pair (R167): h to Vd and lo to V(d+1), and the tangent pairs by the same node. -/
def execReduxPair (w : LaneWord) (s : State) : Result State :=
  laneInstr (.reduxPair w) w true s fun c =>
    let ftz := rndFtz c.seen.rnd
    let code (src l : Nat) := (c.operand (c.field src) l).toNat
    let tanCode (src k l : Nat) : Nat :=
      let t := (c.shadow (c.field src) k l).toNat
      if (c.absMod src && Fmt.negCode .fp32 (code src l)) != c.negMod src then modCode .fp32 true false t else t
    let prim := pairRoot c
      (fun l => (modCode .fp32 (c.negMod 0) (c.absMod 0) (code 0 l), modCode .fp32 (c.negMod 1) (c.absMod 1) (code 1 l))) ftz
    let tan (k : Nat) := pairRoot c (fun l => (tanCode 0 k l, tanCode 1 k l)) false
    let g := c.g.writeResult w.dest c.t c.act (fun _ => BitVec.ofNat 32 prim.1) fun k _ => BitVec.ofNat 32 (tan k).1
    let g := if 384 ≤ w.dest.toNat then g
      else g.writeResult (w.dest + 1) c.t c.act (fun _ => BitVec.ofNat 32 prim.2) fun k _ => BitVec.ofNat 32 (tan k).2
    laneDone s c g (if c.nf then countLanes c.act 2 fun _ j =>
      Num.nonFinite .fp32 (if j = 0 then prim.1 else prim.2) else 0)

/-- The offsets of BRA (R168): roff in [85:68], toff in [23:0], in words from the header. -/
def braOffset (w : LaneWord) : BitVec 32 × BitVec 32 :=
  ((w.dest ++ w.srcA).signExtend 32 <<< 2, (w.fn.extractLsb' 0 24).signExtend 32 <<< 2)

/-- BRA (R168, R169): all taken, none taken, or a divergence; a ninth join entry traps SPLITDEPTH; a divergence in a
handler lane program traps ILLOP (R218); it must be the last instruction of its clause (R78). -/
def execBra (w : LaneWord) (s : State) : Result State :=
  let c := laneOf s w
  if !c.sp.atLast then trapIllop s
  else
    let (roff, toff) := braOffset w
    let r := c.sp.addr + roff
    let target := c.sp.addr + toff
    let hold := yieldHold s c.g c.i c.sp
    let onward (g : Group) : Group := g.stepSplit c.i hold
    let goTo (g : Group) : Group :=
      g.putSplit c.i { g.splitAt c.i with addr := target, index := 15, age := 0, hold := hold }
    if c.act = c.sp.mask then .next (s.setGroup (goTo c.g))
    else if c.act = 0 then .next (s.setGroup (onward c.g))
    else if c.i = 4 then trapIllop s
    else match c.g.diverge c.i c.act r target with
      | none => .next (takeTrap s .splitdepth 0 c.sp.mask 0)
      | some g =>
        let s' := s.setGroup (onward g)
        .next (if c.g.freeIndex = none then s'.perfEvent c.g.core 7 c.g.grid 1 else s')

/-- STOP (R171); it must be the last instruction of its clause (R78). -/
def execStop (w : LaneWord) (s : State) : Result State :=
  let c := laneOf s w
  if !c.sp.atLast then trapIllop s else .next (s.setGroup (c.g.stopSplit c.i (yieldHold s c.g c.i c.sp)))

/-- A tangent move (R186): the index is tested against the clause's width, naming d, or a for TGET. -/
def tangentMove (i : Instr) (w : LaneWord) (k named : Nat) (s : State) (body : Lane → Group) : Result State :=
  laneInstr i w true s fun c =>
    if c.t < k then trapRange s (named + 65536 * k) else laneDone s c (body c) 0

/-- Bytes of scale registers move with .q: byte l of the destination takes byte l of the source (R186). -/
def moveScale (g : Group) (q : Bool) (act : Mask) (kd d : Nat) (src : Nat → Nat) : Group :=
  if !q || 384 ≤ d then g
  else g.writeQ kd d ((Bits.lanesOf act).foldl (fun x l => Bits.setQbyte x l (src l)) (g.readQ kd d))

/-- TGET (R186): Vd's shadows are unchanged. -/
def execTget (w : LaneWord) (s : State) : Result State :=
  let k := w.func % 8
  let a := w.srcA.toNat
  tangentMove (.tget w) w k a s fun c =>
    let g := if 384 ≤ w.dest.toNat then c.g else c.g.writeLanes 0 w.dest.toNat c.act fun l => Bits.lane (c.g.readV k a) l
    moveScale g (w.func / 8 % 2 == 1) c.act 0 w.dest.toNat fun l => Bits.qbyte (c.g.readQ k a) l

/-- TSET (R186): a bit copy into the shadow. -/
def execTset (w : LaneWord) (s : State) : Result State :=
  let b := w.srcB.toNat
  let k := b % 8
  let d := w.dest.toNat
  tangentMove (.tset w) w k d s fun c =>
    let g := if 384 ≤ d then c.g else c.g.writeLanes k d c.act fun l => c.operand w.srcA l
    moveScale g (b / 8 % 2 == 1) c.act k d fun l => Bits.qbyte (c.g.readQ 0 w.srcA.toNat) l

/-- TCLR (R186): one shadow, or every shadow up to the clause's width. -/
def execTclr (w : LaneWord) (s : State) : Result State :=
  let f := w.func
  let d := w.dest.toNat
  let k := f % 8
  tangentMove (.tclr w) w k d s fun c =>
    let ks := if f / 16 % 2 = 1 then (List.range c.t).map (· + 1) else [k]
    if 384 ≤ d then c.g
    else ks.foldl (fun g k => moveScale (g.writeLanes k d c.act fun _ => 0) (f / 8 % 2 == 1) c.act k d fun _ => 0) c.g

/-- TSWP (R186). -/
def execTswp (w : LaneWord) (s : State) : Result State :=
  let f := w.func
  let d := w.dest.toNat
  let k := f % 8
  let q := f / 8 % 2 == 1
  tangentMove (.tswp w) w k d s fun c =>
    if 384 ≤ d then c.g
    else
      let g := (c.g.writeLanes 0 d c.act fun l => Bits.lane (c.g.readV k d) l).writeLanes k d c.act
        fun l => Bits.lane (c.g.readV 0 d) l
      moveScale (moveScale g q c.act 0 d fun l => Bits.qbyte (c.g.readQ k d) l) q c.act k d
        fun l => Bits.qbyte (c.g.readQ 0 d) l

end Sys2Proof.Machine
end

