-- ==== Sys2Proof/Machine/Dispatch.lean ====
section
/-! DEFINITION. One arm per instruction: its meaning. -/

namespace Sys2Proof.Machine

/-- The effect of an instruction in a state. -/
def exec (i : Instr) (s : State) : Host.Outcome State Fault Refusal :=
  match i with
  | .add f => Sys2Proof.Machine.execAdd f s
  | .sub f => Sys2Proof.Machine.execSub f s
  | .mul f => Sys2Proof.Machine.execMul f s
  | .div f => Sys2Proof.Machine.execDiv f s
  | .min f => Sys2Proof.Machine.execMin f s
  | .max f => Sys2Proof.Machine.execMax f s
  | .and f => Sys2Proof.Machine.execAnd f s
  | .or f => Sys2Proof.Machine.execOr f s
  | .xor f => Sys2Proof.Machine.execXor f s
  | .shl f => Sys2Proof.Machine.execShl f s
  | .shr f => Sys2Proof.Machine.execShr f s
  | .rotl f => Sys2Proof.Machine.execRotl f s
  | .clz f => Sys2Proof.Machine.execClz f s
  | .popc f => Sys2Proof.Machine.execPopc f s
  | .bfx f => Sys2Proof.Machine.execBfx f s
  | .bfi f => Sys2Proof.Machine.execBfi f s
  | .cmp f => Sys2Proof.Machine.execCmp f s
  | .sel f => Sys2Proof.Machine.execSel f s
  | .jr f => Sys2Proof.Machine.execJr f s
  | .csrr f => Sys2Proof.Machine.execCsrr f s
  | .csrw f => Sys2Proof.Machine.execCsrw f s
  | .csrx f => Sys2Proof.Machine.execCsrx f s
  | .lrun f => Sys2Proof.Machine.execLrun f s
  | .lsync f => Sys2Proof.Machine.execLsync f s
  | .addi f => Sys2Proof.Machine.execAddi f s
  | .andi f => Sys2Proof.Machine.execAndi f s
  | .ori f => Sys2Proof.Machine.execOri f s
  | .xori f => Sys2Proof.Machine.execXori f s
  | .shli f => Sys2Proof.Machine.execShli f s
  | .shri f => Sys2Proof.Machine.execShri f s
  | .cmpi f => Sys2Proof.Machine.execCmpi f s
  | .fwait f => Sys2Proof.Machine.execFwait f s
  | .fset f => Sys2Proof.Machine.execFset f s
  | .fclr f => Sys2Proof.Machine.execFclr f s
  | .trap f => Sys2Proof.Machine.execTrap f s
  | .tret f => Sys2Proof.Machine.execTret f s
  | .tretPark f => Sys2Proof.Machine.execTretPark f s
  | .tretAbort f => Sys2Proof.Machine.execTretAbort f s
  | .uliret f => Sys2Proof.Machine.execUliret f s
  | .lui f => Sys2Proof.Machine.execLui f s
  | .addpc f => Sys2Proof.Machine.execAddpc f s
  | .br f => Sys2Proof.Machine.execBr f s
  | .loop f => Sys2Proof.Machine.execLoop f s
  | .li f => Sys2Proof.Machine.execLi f s
  | .liHi f => Sys2Proof.Machine.execLiHi f s
  | .call f => Sys2Proof.Machine.execCall f s
  | .mld f => Sys2Proof.Machine.execMld f s
  | .mma f => Sys2Proof.Machine.execMma f s
  | .mma2 f => Sys2Proof.Machine.execMma2 f s
  | .mdrain f => Sys2Proof.Machine.execMdrain f s
  | .mzero f => Sys2Proof.Machine.execMzero f s
  | .mmode f => Sys2Proof.Machine.execMmode f s
  | .mvnb f => Sys2Proof.Machine.execMvnb f s
  | .msync f => Sys2Proof.Machine.execMsync f s
  | .apset f => Sys2Proof.Machine.execApset f s
  | .apclr f => Sys2Proof.Machine.execApclr f s
  | .satom f => Sys2Proof.Machine.execSatom f s
  | .scas f => Sys2Proof.Machine.execScas f s
  | .waita f => Sys2Proof.Machine.execWaita f s
  | .pref f => Sys2Proof.Machine.execPref f s
  | .tlbinv f => Sys2Proof.Machine.execTlbinv f s
  | .keyld f => Sys2Proof.Machine.execKeyld f s
  | .sld n f => Sys2Proof.Machine.execSld n f s
  | .sst n f => Sys2Proof.Machine.execSst n f s
  | .keydel f => Sys2Proof.Machine.execKeydel f s
  | .shpld f => Sys2Proof.Machine.execShpld f s
  | .shpinv f => Sys2Proof.Machine.execShpinv f s
  | .cset f => Sys2Proof.Machine.execCset f s
  | .cadd f => Sys2Proof.Machine.execCadd f s
  | .crd f => Sys2Proof.Machine.execCrd f s
  | .pcfg f => Sys2Proof.Machine.execPcfg f s
  | .launch f => Sys2Proof.Machine.execLaunch f s
  | .spawn f => Sys2Proof.Machine.execSpawn f s
  | .await f => Sys2Proof.Machine.execAwait f s
  | .exit f => Sys2Proof.Machine.execExit f s
  | .yield f => Sys2Proof.Machine.execYield f s
  | .tbar f => Sys2Proof.Machine.execTbar f s
  | .rpush f => Sys2Proof.Machine.execRpush f s
  | .rpop f => Sys2Proof.Machine.execRpop f s
  | .rwait f => Sys2Proof.Machine.execRwait f s
  | .cpy f => Sys2Proof.Machine.execCpy f s
  | .gacc f => Sys2Proof.Machine.execGacc f s
  | .commit f => Sys2Proof.Machine.execCommit f s
  | .coll f => Sys2Proof.Machine.execColl f s
  | .strm f => Sys2Proof.Machine.execStrm f s
  | .fadd w => Sys2Proof.Machine.execFadd w s
  | .fmul w => Sys2Proof.Machine.execFmul w s
  | .ffma w => Sys2Proof.Machine.execFfma w s
  | .fmin w => Sys2Proof.Machine.execFmin w s
  | .fmax w => Sys2Proof.Machine.execFmax w s
  | .fcmp w => Sys2Proof.Machine.execFcmp w s
  | .fclass w => Sys2Proof.Machine.execFclass w s
  | .fexp2 w => Sys2Proof.Machine.execFexp2 w s
  | .flog2 w => Sys2Proof.Machine.execFlog2 w s
  | .frcp w => Sys2Proof.Machine.execFrcp w s
  | .frsq w => Sys2Proof.Machine.execFrsq w s
  | .fsqrt w => Sys2Proof.Machine.execFsqrt w s
  | .fsin w => Sys2Proof.Machine.execFsin w s
  | .fcos w => Sys2Proof.Machine.execFcos w s
  | .ftanh w => Sys2Proof.Machine.execFtanh w s
  | .frnd w => Sys2Proof.Machine.execFrnd w s
  | .fscl w => Sys2Proof.Machine.execFscl w s
  | .fexpo w => Sys2Proof.Machine.execFexpo w s
  | .fdot w => Sys2Proof.Machine.execFdot w s
  | .mxdot w => Sys2Proof.Machine.execMxdot w s
  | .idot w => Sys2Proof.Machine.execIdot w s
  | .iadd w => Sys2Proof.Machine.execIadd w s
  | .isub w => Sys2Proof.Machine.execIsub w s
  | .imul w => Sys2Proof.Machine.execImul w s
  | .imad w => Sys2Proof.Machine.execImad w s
  | .imulh w => Sys2Proof.Machine.execImulh w s
  | .imin w => Sys2Proof.Machine.execImin w s
  | .imax w => Sys2Proof.Machine.execImax w s
  | .icmp w => Sys2Proof.Machine.execIcmp w s
  | .iand w => Sys2Proof.Machine.execIand w s
  | .ior w => Sys2Proof.Machine.execIor w s
  | .ixor w => Sys2Proof.Machine.execIxor w s
  | .ishl w => Sys2Proof.Machine.execIshl w s
  | .ishr w => Sys2Proof.Machine.execIshr w s
  | .ipopc w => Sys2Proof.Machine.execIpopc w s
  | .iclz w => Sys2Proof.Machine.execIclz w s
  | .ibfx w => Sys2Proof.Machine.execIbfx w s
  | .cvt w => Sys2Proof.Machine.execCvt w s
  | .pack w => Sys2Proof.Machine.execPack w s
  | .unpk w => Sys2Proof.Machine.execUnpk w s
  | .rqnt w => Sys2Proof.Machine.execRqnt w s
  | .dqnt w => Sys2Proof.Machine.execDqnt w s
  | .qmov w => Sys2Proof.Machine.execQmov w s
  | .qset w => Sys2Proof.Machine.execQset w s
  | .qget w => Sys2Proof.Machine.execQget w s
  | .plop w => Sys2Proof.Machine.execPlop w s
  | .pset w => Sys2Proof.Machine.execPset w s
  | .pmov w => Sys2Proof.Machine.execPmov w s
  | .mov w => Sys2Proof.Machine.execMov w s
  | .movx w => Sys2Proof.Machine.execMovx w s
  | .selLane w => Sys2Proof.Machine.execSelLane w s
  | .shfl w => Sys2Proof.Machine.execShfl w s
  | .vote w => Sys2Proof.Machine.execVote w s
  | .bcast w => Sys2Proof.Machine.execBcast w s
  | .scan w => Sys2Proof.Machine.execScan w s
  | .redux w => Sys2Proof.Machine.execRedux w s
  | .reduxPair w => Sys2Proof.Machine.execReduxPair w s
  | .bra w => Sys2Proof.Machine.execBra w s
  | .stop w => Sys2Proof.Machine.execStop w s
  | .tget w => Sys2Proof.Machine.execTget w s
  | .tset w => Sys2Proof.Machine.execTset w s
  | .tclr w => Sys2Proof.Machine.execTclr w s
  | .tswp w => Sys2Proof.Machine.execTswp w s
  | .ld w => Sys2Proof.Machine.execLd w s
  | .st w => Sys2Proof.Machine.execSt w s
  | .ldx w => Sys2Proof.Machine.execLdx w s
  | .stx w => Sys2Proof.Machine.execStx w s
  | .lds w => Sys2Proof.Machine.execLds w s
  | .sts w => Sys2Proof.Machine.execSts w s
  | .ldq w => Sys2Proof.Machine.execLdq w s
  | .stq w => Sys2Proof.Machine.execStq w s
  | .atom w => Sys2Proof.Machine.execAtom w s
  | .acas w => Sys2Proof.Machine.execAcas w s
  | .ared w => Sys2Proof.Machine.execAred w s
  | .spawnl w => Sys2Proof.Machine.execSpawnl w s
  | .rng w => Sys2Proof.Machine.execRng w s
  | .micEnd => Sys2Proof.Machine.execMicEnd s
  | .micLoad => Sys2Proof.Machine.execMicLoad s
  | .micXpose => Sys2Proof.Machine.execMicXpose s
  | .micConv fmt mode => Sys2Proof.Machine.execMicConv fmt mode s
  | .micQuant fmt b16 nansat mode => Sys2Proof.Machine.execMicQuant fmt b16 nansat mode s
  | .micPush ring => Sys2Proof.Machine.execMicPush ring s
  | .micStep coord delta => Sys2Proof.Machine.execMicStep coord delta s
  | .micSetc ctr n => Sys2Proof.Machine.execMicSetc ctr n s
  | .micLoop ctr target => Sys2Proof.Machine.execMicLoop ctr target s
  | .micZero => Sys2Proof.Machine.execMicZero s
  | .clauseStart key split => Sys2Proof.Machine.execClauseStart key split s
  | .laneProgramStart key => Sys2Proof.Machine.execLaneProgramStart key s
  | .splitArrival key split => Sys2Proof.Machine.execSplitArrival key split s
  | .laneMemoryComplete key id => Sys2Proof.Machine.execLaneMemoryComplete key id s
  | .rngComplete key id => Sys2Proof.Machine.execRngComplete key id s
  | .pendingChildPlacement core => Sys2Proof.Machine.execPendingChildPlacement core s
  | .continuationResume core => Sys2Proof.Machine.execContinuationResume core s
  | .continuationEviction core => Sys2Proof.Machine.execContinuationEviction core s
  | .gridEnqueue grid => Sys2Proof.Machine.execGridEnqueue grid s
  | .gridEligible grid => Sys2Proof.Machine.execGridEligible grid s
  | .teamPlacement die => Sys2Proof.Machine.execTeamPlacement die s
  | .sramReclaim core => Sys2Proof.Machine.execSramReclaim core s
  | .gridComplete grid => Sys2Proof.Machine.execGridComplete grid s
  | .matrixPassStart team => Sys2Proof.Machine.execMatrixPassStart team s
  | .matrixCommandComplete team => Sys2Proof.Machine.execMatrixCommandComplete team s
  | .transitCommandStart core => Sys2Proof.Machine.execTransitCommandStart core s
  | .transitCopyComplete core id => Sys2Proof.Machine.execTransitCopyComplete core id s
  | .gaccComplete core id => Sys2Proof.Machine.execGaccComplete core id s
  | .collectiveComplete id others => Sys2Proof.Machine.execCollectiveComplete id others s
  | .coelostatProgramStart core => Sys2Proof.Machine.execCoelostatProgramStart core s
  | .strmComplete core => Sys2Proof.Machine.execStrmComplete core s
  | .ringPushComplete team id => Sys2Proof.Machine.execRingPushComplete team id s
  | .ringPopComplete team id => Sys2Proof.Machine.execRingPopComplete team id s
  | .trapEntry key => Sys2Proof.Machine.execTrapEntry key s
  | .userInterruptDelivery key => Sys2Proof.Machine.execUserInterruptDelivery key s
  | .preempt grid team => Sys2Proof.Machine.execPreempt grid team s
  | .dispatcherPreemptionRequest die => Sys2Proof.Machine.execDispatcherPreemptionRequest die s
  | .teamSave team => Sys2Proof.Machine.execTeamSave team s
  | .preemptionDeadline team => Sys2Proof.Machine.execPreemptionDeadline team s
  | .teamRestore team => Sys2Proof.Machine.execTeamRestore team s
  | .machineCheck team => Sys2Proof.Machine.execMachineCheck team s
  | .dieLinkFailure a b touched => Sys2Proof.Machine.execDieLinkFailure a b touched s
  | .pageWalk die va write => Sys2Proof.Machine.execPageWalk die va write s
  | .walkMigratingTimeout die va => Sys2Proof.Machine.execWalkMigratingTimeout die va s
  | .faultRecord die => Sys2Proof.Machine.execFaultRecord die s
  | .pageServiceComplete die seq outcome code writes copies => Sys2Proof.Machine.execPageServiceComplete die seq outcome code writes copies s
  | .sideLogReplay core entry => Sys2Proof.Machine.execSideLogReplay core entry s
  | .leaseExpiry core line => Sys2Proof.Machine.execLeaseExpiry core line s
  | .orreryRequest die requester line write => Sys2Proof.Machine.execOrreryRequest die requester line write s
  | .regionMerge die line => Sys2Proof.Machine.execRegionMerge die line s
  | .lineWriteBack line => Sys2Proof.Machine.execLineWriteBack line s
  | .incarnationChange device => Sys2Proof.Machine.execIncarnationChange device s
  | .fabricDeviceUp device => Sys2Proof.Machine.execFabricDeviceUp device s
  | .fabricPathTimeout device => Sys2Proof.Machine.execFabricPathTimeout device s
  | .hostCompletionTimeout key id => Sys2Proof.Machine.execHostCompletionTimeout key id s
  | .hostWrite offset data => Sys2Proof.Machine.execHostWrite offset data s
  | .hostRead offset bytes => Sys2Proof.Machine.execHostRead offset bytes s
  | .hostAtomicop offset op size operand comparand => Sys2Proof.Machine.execHostAtomicop offset op size operand comparand s
  | .ualinkIncomingAccess device address access => Sys2Proof.Machine.execUalinkIncomingAccess device address access s
  | .mbox value => Sys2Proof.Machine.execMbox value s
  | .dispatchRequest => Sys2Proof.Machine.execDispatchRequest s
  | .initDone value => Sys2Proof.Machine.execInitDone value s
  | .svcdone value => Sys2Proof.Machine.execSvcdone value s
  | .fgtdata value => Sys2Proof.Machine.execFgtdata value s
  | .checkpoint => Sys2Proof.Machine.execCheckpoint s
  | .restore => Sys2Proof.Machine.execRestore s
  | .checkpointEnd => Sys2Proof.Machine.execCheckpointEnd s
  | .controlRegisterWrite offset value => Sys2Proof.Machine.execControlRegisterWrite offset value s
  | .deviceReset => Sys2Proof.Machine.execDeviceReset s
  | .thermalTrip => Sys2Proof.Machine.execThermalTrip s
  | .telemetryUpdate t => Sys2Proof.Machine.execTelemetryUpdate t s
  | .recover value => Sys2Proof.Machine.execRecover value s
  | .fusedMinimumRaise value => Sys2Proof.Machine.execFusedMinimumRaise value s
  | .attestation => Sys2Proof.Machine.execAttestation s
  | .coreCycle => Sys2Proof.Machine.execCoreCycle s
  | .scalarAccessComplete key id => Sys2Proof.Machine.execScalarAccessComplete key id s
  | .correctedError die index => Sys2Proof.Machine.execCorrectedError die index s
  | .linkRetry die index => Sys2Proof.Machine.execLinkRetry die index s

end Sys2Proof.Machine
end

