-- ==== Sys2Proof/Machine/Issue.lean ====
section
/-! DEFINITION. What a step does: the fetch, decoding and execution of a chosen stream's instruction (R64, R66, R78, R81,
R308), the events that the device's own state makes possible, and the choice among them and what the outside world does
(R2). -/

namespace Sys2Proof.Machine

/-! An instruction issues. -/

/-- The issue moved the stream: it changed the group's position, or left no wait behind. -/
def streamMoved (s t : State) (c : Stream) : Bool :=
  match Assoc.find? t.groups c.key with
  | none => true
  | some h =>
    let g := s.groupAt c.key
    match c.lane with
    | none => h.wait == .none
    | some i =>
      let x := g.splitAt i
      let y := h.splitAt i
      x.valid != y.valid || x.addr != y.addr || x.index != y.index || x.mask != y.mask || g.handler != h.handler

/-- The issue ended in a precise trap, which undoes the instruction (R81, R216); TRAP traps after it completes (R221), and
TRET.abort ends its team as its own effect (R222). -/
def issueTrapped (i : Instr) (s t : State) (c : Stream) : Bool :=
  let g := s.groupAt c.key
  match i with
  | .trap _ | .tretAbort _ => false
  | _ =>
    match Assoc.find? t.groups c.key with
    | some h => !g.handler && h.handler
    | none => (s.gridAt g.grid).aborted != (t.gridAt g.grid).aborted

/-- An issued instruction counts for the performance counters (R386): event 2 or 3. -/
def countIssue (i : Instr) (s t : State) (c : Stream) : State :=
  if streamMoved s t c && !issueTrapped i s t c then
    t.perfEvent (s.groupAt c.key).core (if c.lane.isSome then 2 else 3) (s.groupAt c.key).grid 1
  else t

/-- A decoded instruction takes its effect, or ILLOP is taken, which changes nothing else (R81). -/
def runDecoded (s : State) (c : Stream) (r : Except Reject Instr) : Result State :=
  match r with
  | .error _ => trapIllop s
  | .ok i =>
    match exec i s with
    | .next t => .next (countIssue i s t c)
    | x => x

/-- The fetch of a scalar instruction that needs page service holds the stream (R215). -/
def waitFetch (s : State) (key va : Nat) : State := s.modGroup key fun g => { g with wait := .fetch, waitMark := va }

/-- The scalar stream of the issuing group issues (R64, R66, R78, R81, R213). -/
def issueScalarStream (c : Stream) (s : State) : Result State :=
  let g := s.groupAt c.key
  let va := g.pc.toNat
  match fetchScalar s g.die va with
  | (.words [w], s) => runDecoded s c (decodeScalar w 0)
  | (.words (w :: x :: _), s) => runDecoded s c (decodeScalar w x)
  | (.words [], s) => .next s
  | (.bad detail, s) => .next (takeTrap s .ifetch detail 0 (BitVec.ofNat 64 va))
  | (.service kind level base size, s) =>
    .next (waitFetch (askService s g.die g kind level base size (faultDetail false true false false)) c.key (max va base))
  | (.waiting, s) => .next s
  | (.badRoot, s) => .next (machineCheckTeam s g.teamKey g)

/-- A split of the issuing group issues the next instruction of its clause (R78, R81, R213). -/
def issueLaneStream (c : Stream) (i : Nat) (s : State) : Result State :=
  let g := s.groupAt c.key
  let x := g.splitAt i
  let va := (x.next (s.gridAt g.grid)).toNat
  match fetchWords s g.die true va 3 with
  | (.words ws, s) => runDecoded s c (decodeLane (laneBits ws))
  | (.bad detail, s) => .next (takeTrap s .ifetch detail x.mask (BitVec.ofNat 64 va))
  | (.service kind level base size, s) =>
    .next (holdFetch (askService s g.die g kind level base size (faultDetail false true false false)) c.key i (max va base))
  | (.waiting, s) => .next s
  | (.badRoot, s) => .next (machineCheckTeam s g.teamKey g)

/-- The stream is still a candidate (R308). -/
def stillReady (s : State) (c : Stream) : Bool :=
  match c.lane with
  | none => scalarReady s c.key
  | some i => laneReady s c.key i

/-- A chosen stream issues, if an instruction of the same cycle has not stopped it (R309). -/
def issueStream (c : Stream) (s : State) : Result State :=
  if !s.firmware then .fault .noFirmware
  else if !stillReady s c then .next s
  else
    let s := { s with cur := c, core := (s.groupAt c.key).core }
    match c.lane with
    | none => issueScalarStream c s
    | some i => issueLaneStream c i s

/-! What may come next. -/

/-- Something that may come next: an event, a core's next micro-operation, or the outside world's next input. -/
inductive Move where
  | event (i : Instr)
  /-- the fetch of a stream's next word meets a page that needs service, or a walk that must wait (R215, R355) -/
  | fetch (c : Stream)
  | micro (core : Nat) (i : Instr)
  | input (x : Input) (rest : List Input)
  /-- the boot sequence's step ends (R408) -/
  | boot
  /-- the check of a staged image ends (R412) -/
  | check
  /-- the next write of a telemetry update (R414) -/
  | telemetry
  deriving DecidableEq, Repr

/-- An event that only the outside world, a failing part or the firmware causes. -/
def external (i : Instr) : Bool :=
  match i with
  | .collectiveComplete _ _ | .preempt _ _ | .machineCheck _ | .dieLinkFailure _ _ _ | .pageWalk _ _ _
  | .pageServiceComplete _ _ _ _ _ _ | .orreryRequest _ _ _ _ | .incarnationChange _ | .fabricDeviceUp _
  | .fabricPathTimeout _ | .hostWrite _ _ | .hostRead _ _ | .hostAtomicop _ _ _ _ _ | .ualinkIncomingAccess _ _ _
  | .mbox _ | .initDone _ | .svcdone _ | .fgtdata _ | .checkpoint | .restore | .controlRegisterWrite _ _ | .deviceReset
  | .thermalTrip | .telemetryUpdate _ | .recover _ | .fusedMinimumRaise _ | .correctedError _ _ | .linkRetry _ _ => true
  | _ => false

/-- The fetch of a stream's next word, when that is not there yet (R215, R308, R355). -/
def execFetch (c : Stream) (s : State) : Result State :=
  let g := s.groupAt c.key
  let s := { s with cur := c, core := g.core }
  let stands := match c.lane with
    | none => scalarStands s g && !(scalarFetch s g).ended
    | some i => g.splitStands i && !(laneFetch s g (g.splitAt i)).ended
  if !stands then .refused (.notEnabled "FETCH")
  else match c.lane with
    | none => issueScalarStream c s
    | some i => issueLaneStream c i s

/-- The streams of a group. -/
def groupStreams (k : Nat) : List Stream := ⟨k, none⟩ :: (List.range 5).map fun i => ⟨k, some i⟩

/-- What a move does. -/
def runMove (m : Move) (s : State) : Result State :=
  match m with
  | .event i => exec i s
  | .fetch c => execFetch c s
  | .micro core i => exec i { s with core := core }
  | .input (.event i) rest =>
    if external i then exec i { s with inputs := rest } else .refused (.notEnabled "INPUT")
  | .input (.outside address data) rest =>
    let s := { s with inputs := rest }
    .next (if 2 ≤ spaceOf address ∧ 2 ≤ spaceOf (address + data.length) then writeBytes s address data else s)
  | .input (.resizeBar lg) rest =>
    let s := { s with inputs := rest }
    .next (if 30 ≤ lg ∧ lg ≤ 40 then { s with ctl := { s.ctl with barLg := lg } } else s)
  | .input (.registerRead mailbox offset) rest => readRegister mailbox offset { s with inputs := rest }
  | .input .configRequest rest => answer { s with inputs := rest } (.configuration (s.boot == some 1 || s.boot == some 2))
  | .input (.resetBegins trip) rest =>
    let s := { s with inputs := rest }
    .next (beginReset (if trip then tripTeams s else s))
  | .input (.telemetryBegins t) rest =>
    let s := { s with inputs := rest }
    if !s.firmware then .next s
    else .next (if tripped t then beginReset (tripTeams s) else beginTelemetry s t)
  | .boot => if s.boot.isSome then .next (bootStep s) else .refused (.notEnabled "BOOT")
  | .check => if s.checking.isSome then .next (endCheck s) else .refused (.notEnabled "CHECK")
  | .telemetry => if s.telem.isEmpty then .refused (.notEnabled "TELEMETRY") else .next (nextTelemetry s)

/-- A move is possible: it answers a next state. -/
def Move.enabled (m : Move) (s : State) : Bool :=
  match runMove m s with
  | .next _ => true
  | _ => false

/-- The events that a group may meet. -/
def groupEvents (k : Nat) (g : Group) : List Instr :=
  [.laneProgramStart k, .trapEntry k, .userInterruptDelivery k]
    ++ (List.range 5).flatMap (fun i => [.clauseStart k i, .splitArrival k i])
    ++ g.laneOps.flatMap (fun o => [.laneMemoryComplete k o.id, .rngComplete k o.id, .hostCompletionTimeout k o.id])
    ++ g.scalarOps.flatMap fun o => [.scalarAccessComplete k o.id, .hostCompletionTimeout k o.id]

/-- The events that a core may meet. -/
def coreEvents (n : Nat) (c : Core) : List Instr :=
  [.pendingChildPlacement n, .continuationResume n, .continuationEviction n, .transitCommandStart n,
    .coelostatProgramStart n, .strmComplete n]
    ++ c.transit.flatMap (fun x => [.transitCopyComplete n x.id, .gaccComplete n x.id, .hostCompletionTimeout x.key x.id])
    ++ c.strm.toList.map (fun x => .hostCompletionTimeout x.key x.id)
    ++ c.sideLog.flatMap (fun e => [.sideLogReplay n e.id, .hostCompletionTimeout e.key e.id])
    ++ c.l1.map fun l => .leaseExpiry n l.1

/-- The events that a team may meet. -/
def teamEvents (k : Nat) (t : Team) (outs : List StrmOut) : List Instr :=
  [.matrixPassStart k, .matrixCommandComplete k, .teamSave k, .preemptionDeadline k, .teamRestore k]
    ++ t.ringOps.flatMap (fun o => [.ringPushComplete k o.id, .ringPopComplete k o.id])
    ++ outs.map fun o => .ringPushComplete k o.id

/-- The events that a die may meet. -/
def dieEvents (n : Nat) (d : Die) : List Instr :=
  [.teamPlacement n, .dispatcherPreemptionRequest n, .faultRecord n]
    ++ d.walks.flatMap (fun w => [.walkMigratingTimeout n (BitVec.ofNat 56 w.1), .pageWalk n (BitVec.ofNat 56 w.1) false])
    ++ d.orrery.map fun r => .regionMerge n r.line

/-- The cores that hold anything. -/
def usedCores (s : State) : List Nat := ((s.cores.map (·.1)) ++ s.groups.map (·.2.core)).eraseDups

/-- The cores that a placement wants SRAM of. -/
def wantedCores (s : State) : List Nat := (List.range 4).filterMap fun d => (placerCore s d).map (·.2)

/-- The events that the device's own state may make possible; each is offered only if it is. -/
def internalEvents (s : State) : List Instr :=
  s.groups.flatMap (fun p => groupEvents p.1 p.2)
    ++ (usedCores s).flatMap (fun n => coreEvents n (s.coreAt n))
    ++ (wantedCores s).map (fun n => .sramReclaim n)
    ++ s.teams.flatMap (fun p => teamEvents p.1 p.2 (s.coreAt p.2.core).strmOut)
    ++ s.grids.flatMap (fun p => [.gridEnqueue p.1, .gridEligible p.1, .gridComplete p.1])
    ++ (List.range 4).flatMap (fun n => dieEvents n (s.dieAt n))
    ++ (s.l2.filter (·.2.dirty)).map (fun l => .lineWriteBack l.1)
    ++ s.colls.map (fun c => .collectiveComplete c.id [])
    ++ [.dispatchRequest, .checkpointEnd, .attestation]

/-- The micro-operations that may run (R317). -/
def microMoves (s : State) : List Move :=
  s.cores.filterMap fun p => if p.2.micReady then p.2.nextMicro.map (Move.micro p.1) else none

/-- The moves that are possible, but for a cycle of the clock. -/
def possibleMoves (s : State) : List Move :=
  ((internalEvents s).map Move.event ++ s.groups.flatMap (fun p => (groupStreams p.1).map Move.fetch) ++ microMoves s ++
    ([.boot, .check, .telemetry] : List Move) ++ (match s.inputs with
    | x :: rest => [Move.input x rest]
    | [] => [])).filter (·.enabled s)

/-- The choice among the possible moves and a cycle of the clock: the spec gives upper bounds only (R2, assumption 1). -/
def chooseMove (n : Nat) (l : List Move) : Move :=
  match l with
  | [] => .event .coreCycle
  | _ => (l[n % (l.length + 1)]?).getD (.event .coreCycle)

/-- What happens next: what an abort has cancelled is settled (R231), a team ends whose time to be saved has passed (R228), a
chosen stream issues (R309), or a possible move is made. -/
def nextAction (s : State) : Result State :=
  if s.cancelled ≠ [] then .next (settleCancelled s)
  else match overdueTeam s with
  | some tk => execPreemptionDeadline tk s
  | none =>
  match s.issue with
    | c :: rest => issueStream c { s with issue := rest }
    | [] => runMove (chooseMove (Config.choice s.tick) (possibleMoves s)) s

/-! A place for a single instruction. -/

/-- The role that an instruction asks for (R17), if it asks for one. -/
def placeRole (i : Option Instr) : Role :=
  match i with
  | some (.mld _) | some (.mma _) | some (.mma2 _) | some (.mdrain _) | some (.mzero _) | some (.mmode _) | some (.mvnb _)
  | some (.msync _) => .matrix
  | some (.cpy _) => .copy
  | _ => .vector

/-- The record of a grid that holds one instruction: code at virtual address 0x10000, a trap vector, a team of one group of a
role with the largest register allocation, in system mode. -/
def fetchRecord (role : Role) : Record :=
  { Record.blank with
    scalarBase := 0x10000
    laneBase := 0x10000
    trapVec := 0x100
    teams := 1
    groups := 1
    copies := if role = .copy then 1 else 0
    matrices := if role = .matrix then 1 else 0
    vecBudget := if role = .vector then 384 else 0
    matBudget := if role = .matrix then 384 else 0
    copyBudget := if role = .copy then 384 else 0
    system := true
    dies := 1 }

/-- The page tables of a place for code: nodes below 0x10000, and the page 0x10000 in the frame 0x20000, executable by both
streams. -/
def fetchTables (s : State) : State :=
  let pointer (pa : Nat) : Nat := 2 ^ 63 + pa / 8192 * 4096
  let leaf : Nat := 2 ^ 63 + 2 ^ 62 + 2 ^ 58 + 2 * 4096 + 0x1E0
  let s := writeNat s 0x8000 8 (pointer 0xA000)
  let s := writeNat s 0xA000 8 (pointer 0xC000)
  let s := writeNat s 0xC000 8 (pointer 0xE000)
  let s := writeNat s 0xE008 8 leaf
  { s with ctl := { s.ctl with ptroot := 0x8000 } }

/-- The group that issues a placed instruction: its scalar stream at the code's start, or for a lane instruction a split of
all lanes in a clause of one instruction whose header names both flags. -/
def fetchGroup (role : Role) (lane : Bool) : Group :=
  let g := launchedGroup (fetchRecord role) 1 0 0 1 0 0
  if lane then
    g.putSplit 0 { Split.start 0 with index := 0, hdr := { blankHeader with count := 1, avalid := true, bvalid := true, bnum := 1 } }
  else g

/-- The state with one instruction placed where the next step fetches it, on a device of which firmware has configured no window
(assumption 40). -/
def placeWord (s : State) (nbits w : Nat) : State :=
  let lane := nbits = 96
  let r := fetchRecord (placeRole (decodeTableWord nbits w))
  let g := fetchGroup (placeRole (decodeTableWord nbits w)) lane
  let s := fetchTables s
  let s := if lane then writeNat s 0x2000C 12 w else writeNat s 0x20000 8 w
  let s := s.putGrid 1 { Grid.ofRecord r none 0 0 with entered := true, reached := true, eligible := some 0, nextTeam := 1 }
  let s := s.putTeam (keyOf 1 0) (launchedTeam r 1 0 1 0)
  let s := s.putGroup g.key g
  { s with windows := [], l2windows := [], nextGrid := 2, issue := [⟨g.key, if lane then some 0 else none⟩] }

end Sys2Proof.Machine
end

