-- ==== Sys2Proof/Machine/Step.lean ====
section
/-! DEFINITION. One step of the device, and the state with one instruction placed for it. -/

namespace Sys2Proof.Machine

/-- One step: one thing happens, and the choices are counted. -/
def step (s : State) : Host.Outcome State Fault Refusal :=
  nextAction { s with tick := s.tick + 1 }

/-- The state in which the very next step fetches and runs an instruction's bits as the scalar or lane stream of a group that
a launch has placed (assumption 40). -/
def State.withFetchWord (s : State) (nbits w : Nat) : State := placeWord s nbits w

end Sys2Proof.Machine
end

