-- ==== Sys2Proof/Safety.lean ====
section
/-! DEFINITION. The vocabulary of the statements: a step that goes on, the invariant of memory, what a frame leaves alone, and
the values of the scalar instructions written once more as the spec's tables give them, in bit-vector arithmetic. -/

namespace Sys2Proof.Safety

open Sys2Proof.Machine

/-! Steps. -/

/-- An instruction or a step goes on to a next state of which `p` holds: neither a fault nor a refusal. -/
def Goes (r : Result State) (p : State → Prop) : Prop := ∃ t, r = .next t ∧ p t

/-- The invariant of the memory: its canonical form. -/
abbrev Inv (s : State) : Prop := Memory.wf s.mem

/-! Frames. -/

/-- Every byte of memory reads as before. -/
def SameBytes (s t : State) : Prop := ∀ a, readByte t a = readByte s a

/-- Every byte outside `n` bytes from `a` reads as before. -/
def SameBytesBut (s t : State) (a n : Nat) : Prop := ∀ b, b < a ∨ a + n ≤ b → readByte t b = readByte s b

/-- The bytes of some pieces. -/
def InPieces (ps : List Piece) (a : Nat) : Prop := ∃ p ∈ ps, p.pa ≤ a ∧ a < p.pa + p.n

/-- Nothing of the device but its groups differs, and of the groups only the issuing one. -/
def OnlyGroup (s t : State) : Prop :=
  t = { s with groups := t.groups } ∧ ∀ k, k ≠ s.cur.key → Assoc.find? t.groups k = Assoc.find? s.groups k

/-- Nothing of the device but its groups differs, and of the groups only the one with this key. -/
def GroupOnly (s t : State) (key : Nat) : Prop :=
  t = { s with groups := t.groups } ∧ ∀ k, k ≠ key → Assoc.find? t.groups k = Assoc.find? s.groups k

/-- Every S register but those listed reads as before. -/
def SameS (g h : Group) (but : List Nat) : Prop := ∀ n, n ∉ but → h.readS n = g.readS n

/-- Every vector, scale and predicate register and every aperture reads as before. -/
def SameLanes (g h : Group) : Prop := h.v = g.v ∧ h.q = g.q ∧ h.p = g.p ∧ h.a = g.a

/-- Every flag reads as before. -/
def SameFlags (g h : Group) : Prop := ∀ n, h.flagSet n = g.flagSet n

/-- Every control and status register that the group holds, and the mode, is as before, but for the draw counter. -/
def SameHeld (g h : Group) : Prop :=
  h.rnd = g.rnd ∧ h.tanw = g.tanw ∧ h.dplane = g.dplane ∧ h.dstride = g.dstride ∧ h.srseed = g.srseed ∧
  h.cring = g.cring ∧ h.ulivec = g.ulivec ∧ h.savearea = g.savearea ∧ h.prdeadline = g.prdeadline ∧
  h.drawid = g.drawid ∧ h.keysel = g.keysel ∧ h.k = g.k ∧ h.priv = g.priv

/-- The same, with the draw counter. -/
def SameCsrs (g h : Group) : Prop := SameHeld g h ∧ h.draws = g.draws

/-- The registers of a trap, and the trap and interrupt states, are as before. -/
def SameTrap (g h : Group) : Prop :=
  h.trapcause = g.trapcause ∧ h.trappc = g.trappc ∧ h.traplanes = g.traplanes ∧ h.trapaddr = g.trapaddr ∧
  h.handler = g.handler ∧ h.hidden = g.hidden ∧ h.intState = g.intState ∧ h.intPending = g.intPending ∧
  h.intReturn = g.intReturn

/-! The scalar stream. -/

/-- No outstanding access of the group holds the scalar stream or will write one of these S registers (R91). -/
abbrev Free (s : State) (regs : List Nat) : Prop := s.group.heldS regs = false

/-- The state in which S[d] has taken `v` and the scalar stream has moved on by `n` bytes (R64, R109). -/
def wrote (s : State) (d : Nat) (v : Word) (n : Nat) : State := s.setGroup ((s.group.writeS d v).advance n)

/-- The state in which the scalar stream has only moved on. -/
def movedOn (s : State) (n : Nat) : State := s.setGroup (s.group.advance n)

/-- A source of R113: its low 32 bits with `w`, read as unsigned with `u`, else as signed. -/
def intIn (w u : Bool) (x : Word) : Int :=
  match w, u with
  | true, true => ((x.setWidth 32).toNat : Int)
  | true, false => (x.setWidth 32).toInt
  | false, true => (x.toNat : Int)
  | false, false => x.toInt

/-- A result of R113 or R114 wrapped to the width and extended to 64 bits. -/
def intOut (w u : Bool) (t : Int) : Word :=
  match w, u with
  | true, true => (BitVec.ofInt 32 t).setWidth 64
  | true, false => (BitVec.ofInt 32 t).signExtend 64
  | false, _ => BitVec.ofInt 64 t

/-- The saturation of R113. -/
def intSat (w u sat : Bool) (t : Int) : Int :=
  let n : Nat := if w then 32 else 64
  if !sat then t
  else if u then max 0 (min t (2 ^ n - 1))
  else max (-(2 ^ (n - 1))) (min t (2 ^ (n - 1) - 1))

/-- R113 for one function value: the operation `op` on the two sources, saturated, wrapped and extended. -/
def r113 (fn : BitVec 7) (op : Int → Int → Int) (x y : Word) : Word :=
  let w := fn.getLsbD 0
  let u := fn.getLsbD 1
  intOut w u (intSat w u (fn.getLsbD 2) (op (intIn w u x) (intIn w u y)))

/-- DIV and DIV.rem (R113): by zero −1 or a, else the truncated quotient or a minus it times b. -/
def r113div (rem : Bool) (a b : Int) : Int :=
  if b = 0 then (if rem then a else -1) else if rem then a - Int.tdiv a b * b else Int.tdiv a b

/-- SHL (R114), of 32 bits or of 64. -/
def r114shl (w : Bool) (x y : Word) : Word :=
  if w then ((x.setWidth 32) <<< (y.toNat % 32)).signExtend 64 else x <<< (y.toNat % 64)

/-- SHR (R114): logical with `u`, else arithmetic. -/
def r114shr (w u : Bool) (x : Word) (k : Nat) : Word :=
  match w, u with
  | true, true => ((x.setWidth 32) >>> k).setWidth 64
  | true, false => ((x.setWidth 32).sshiftRight k).signExtend 64
  | false, true => x >>> k
  | false, false => x.sshiftRight k

/-- ROTL (R114). -/
def r114rotl (w : Bool) (x y : Word) : Word :=
  if w then ((x.setWidth 32).rotateLeft (y.toNat % 32)).signExtend 64 else x.rotateLeft (y.toNat % 64)

/-- The last bit of the field of BFX and BFI (R116), of a width that is not 0. -/
def r116end (y : Word) : Nat := min 63 ((y.extractLsb' 0 6).toNat + min 64 (y.extractLsb' 8 7).toNat - 1)

/-- CMP's condition by its function bits (R119). -/
def r119 (fn : BitVec 7) (x y : Word) : Bool :=
  let cond {n : Nat} (a b : BitVec n) : Bool :=
    match (fn.extractLsb' 0 3).toNat with
    | 0 => a == b
    | 1 => a != b
    | 2 => a.slt b
    | 3 => b.sle a
    | 4 => a.ult b
    | _ => b.ule a
  if fn.getLsbD 3 then cond (x.setWidth 32) (y.setWidth 32) else cond x y

/-- A branch's condition on its source (R65): cond 0 to 6. -/
def r65 (cond : Nat) (x : Word) : Bool :=
  match cond with
  | 0 => true
  | 1 => x == 0
  | 2 => x != 0
  | 3 => decide (x.toInt < 0)
  | 4 => decide (0 ≤ x.toInt)
  | 5 => decide (0 < x.toInt)
  | _ => decide (x.toInt ≤ 0)

/-- A branch's target: PC + 4 × offset (R65). -/
def r65target (pc : BitVec 56) (off : BitVec 14) : BitVec 56 := BitVec.ofInt 56 ((pc.toNat : Int) + 4 * off.toInt)

/-- Merge of R130 for the writable registers of R99: the value that the register reads as afterwards. -/
def r130 (n : Nat) (v : Word) : Word :=
  match n with
  | 0x00 => v &&& 0xF
  | 0x02 => v &&& 0x00FFFFFFFFFFFFFF
  | 0x03 => v &&& 0x00FFFFFFFFFFFFFF
  | 0x05 => v &&& 0x00FFFFFFFFFFFE0F
  | 0x06 => v &&& 0x00FFFFFFFFFFFFFC
  | 0x08 => if (v &&& 0xFFFFFFFF).ult 12500 then 12500 else v &&& 0xFFFFFFFF
  | 0x09 => v &&& 0xFFFFFFFF
  | 0x11 => v &&& 0x00FFFFFFFFFFFFFF
  | 0x39 => v &&& 0x3F
  | _ => v

/-- The numbers of the registers of R99 with a field that software writes. -/
def r99writable : List Nat := [0, 2, 3, 4, 5, 6, 8, 9, 0x11, 0x39, 0x40, 0x41, 0x42, 0x43, 0x44, 0x45, 0x46, 0x47]

/-- The numbers of the registers of R99 that software only reads. -/
def r99readOnly : List Nat := [1, 7, 0x10, 0x12, 0x13, 0x20, 0x21, 0x22, 0x23, 0x24, 0x28, 0x30, 0x38]

/-- The mode and the state in which a register of R99 may be accessed (R131 steps 2 and 3). -/
abbrev r131open (g : Group) (n : Nat) : Prop :=
  (n ∈ [0x08, 0x38, 0x39] → g.priv = true) ∧ (0x40 ≤ n → g.handler = true)

/-- A written value that a field map forbids (R131 step 5). -/
abbrev r131bad (n : Nat) (v : Word) : Prop :=
  (n = 0x00 ∧ (v.toNat % 8 = 0 ∨ v.toNat % 8 = 7)) ∨ (n = 0x03 ∧ v.toNat % 128 ≠ 0) ∨
  (n = 0x05 ∧ (1 ≤ v.toNat % 16 ∧ v.toNat % 16 ≤ 3 ∨
    4 ≤ v.toNat % 16 ∧ (v.toNat % 2 ^ 56 / 512 * 512) % (32 * 2 ^ (v.toNat % 16)) ≠ 0))

/-- The scalar stream has moved on by `n` bytes, and of the registers of the device's groups only the S registers listed, of
the issuing group, may read otherwise than before. -/
def Moved (s t : State) (n : Nat) (but : List Nat) : Prop :=
  t.group.pc = s.group.pc + BitVec.ofNat 56 n ∧ SameS s.group t.group but ∧ SameLanes s.group t.group ∧
  SameFlags s.group t.group ∧ SameCsrs s.group t.group ∧ SameTrap s.group t.group ∧
  ∀ k, k ≠ s.cur.key → Assoc.find? t.groups k = Assoc.find? s.groups k

/-- An access of the scalar stream passes its checks: the pieces that its bytes lie in, and the state that the translation
leaves (R282, R292). -/
abbrev Reaches (s : State) (va n : Nat) (kind : AccKind) (ps : List Piece) (s' : State) : Prop :=
  checkAcc s s.group.core ⟨0, 0, va, n, kind, true⟩ = (.ok ps, s')

/-- The same access is refused with this verdict, in the state that the translation leaves. -/
abbrev Refused (s : State) (va n : Nat) (kind : AccKind) (v : Verdict) (s' : State) : Prop :=
  checkAcc s s.group.core ⟨0, 0, va, n, kind, true⟩ = (v, s')

/-- No store of the issuing core stands in its side log, waits for an entry of it or is under way to a fabric device, and no stream
of the issuing group is held at a page (R270 to R272). -/
abbrev NoLog (s : State) : Prop :=
  (s.coreAt s.group.core).sideLog = [] ∧ (s.coreAt s.group.core).sent = [] ∧ logWaiters s s.group.core = [] ∧
  s.group.wait ≠ .service ∧ ∀ o ∈ s.group.laneOps, o.todo = []

/-- An address of the scalar stream lies in the scratchpad's window (R293). -/
abbrev InWindow (va : Nat) : Prop := va / 2 ^ 32 % 2 ^ 24 = 0xFFFFFF

/-- The new outstanding access of the scalar stream, which will write these values when it completes (R91, R292). -/
def Issued (g h : Group) (dest : List (Nat × Word)) : Prop :=
  ∃ o : ScalarOp, h.scalarOps = g.scalarOps ++ [o] ∧ o.dest = dest.filter (fun d => d.1 != 0)

/-- A structure or an operand record of the issuing group's instruction is read without a fault: what follows the read goes on
with its bytes, in the state that the read leaves (R326). -/
def Structure (s : State) (va n align : Nat) (bs : List Byte) (s' : State) : Prop :=
  ∀ k, readStruct s s.group va n align k = k bs s'

/-- The record of a handle is sampled without a fault, if it is needed (R369): none for an index beyond the table. -/
def Samples (s : State) (g : Group) (needed : Bool) (h : Word) (r : Option (BitVec 512)) (s' : State) : Prop :=
  ∀ k, withRecord s g needed h k = k r s'

/-! Engine commands. -/

/-- The issuing group stands under its own key, and the flag's count and the frame's count have room for one more operation (R97,
R332). -/
def Room (s : State) (flag : Option Nat) (child : Bool) : Prop :=
  s.cur.key = s.group.key ∧ (∀ n, flag = some n → s.group.flagCnt n < 64) ∧ (child = true → s.group.children < 65535)

/-- The scalar stream of the issuing group has moved on by 4 bytes past an instruction whose operation has been accepted: its
flag's count rises by 1, an engine child counts in its frame, and no register of any group reads otherwise than before, but for
the draw counter of the group. -/
def Accepted (s t : State) (flag : Option Nat) (child : Bool) : Prop :=
  let g := s.group
  let h := t.group
  h.pc = g.pc + 4 ∧ SameS g h [] ∧ SameLanes g h ∧ SameHeld g h ∧ SameTrap g h ∧ h.flagSoft = g.flagSoft ∧
  (∀ m, h.flagCnt m = g.flagCnt m + if flag = some m then 1 else 0) ∧
  h.children = g.children + (if child then 1 else 0) ∧
  ∀ k, k ≠ s.cur.key → Assoc.find? t.groups k = Assoc.find? s.groups k

/-- An operand of a matrix instruction passes the checks of R193 to R195: a scratchpad range, a ring slot, a handle's box, or
the bypass. -/
def OperandFits (t : Team) (o : OperandSpec) (r : Option (BitVec 512)) : Prop :=
  o.kind ∈ o.kinds ∧ (o.kind ≠ 1 → o.ring = 0) ∧ (o.kind = 1 ∨ o.kind = 3 → o.reg = 0) ∧
  o.fmt ∈ (if o.kind = 2 then [0] else o.fmts) ∧ (o.b16 = true → isMx o.fmt = true) ∧
  (o.kind = 0 → o.value.toNat % (if isMx o.fmt && !o.split then 2048 else 256) = 0 ∧ o.value.toNat < 2 ^ 32 ∧
    o.value.toNat + o.bytes ≤ t.w) ∧
  (o.kind = 1 → ∃ x, t.ring o.ring = some x ∧ t.planes * o.bytes ≤ x.size) ∧
  (o.kind = 2 → ∃ sh, shapeUsable r o.value false = some sh ∧ o.boxOk sh = true)

/-- A matrix command stands last in the engine's queue of the issuing group's team, with what its instruction named. -/
def Enqueued (s t : State) (f : SR) (op : MatrixOp) (child : Bool) (r1 r2 : Option (BitVec 512)) : Prop :=
  ∃ c : MatrixCmd, t.team.engine.queue = s.team.engine.queue ++ [c] ∧ c.op = op ∧ c.key = s.group.key ∧
    c.ctl = s.group.readS f.src2.toNat ∧ c.src = s.group.readS f.src1.toNat ∧ c.other = s.group.readS f.dest.toNat ∧
    c.flag = fnFlag f.fn ∧ c.child = child ∧ c.passes = 0 ∧ c.rec1 = r1.getD 0 ∧ c.rec2 = r2.getD 0

/-- What the end of a command of a group leaves in it (R97, R223, R365): its flag's count falls by 1, an engine child counts in its
frame no more, and its registers and its scalar stream are as they were. -/
def CommandEnded (s t : State) (key : Nat) (flag : Option Nat) (child : Bool) : Prop :=
  let g := s.groupAt key
  let h := t.groupAt key
  (∀ n, h.flagCnt n = if flag = some n then g.flagCnt n - 1 else g.flagCnt n) ∧
  h.children = g.children - (if child then 1 else 0) ∧ SameS g h [] ∧ SameLanes g h ∧ h.pc = g.pc

/-- A command leaves no completion record: its group names no completion ring, or the ring has refused it (R318). -/
abbrev NoRecord (x : Sample) (l : Life) : Prop := ringLg x.cring = 0 ∨ l.noRing = true

/-- Some images, one per plane, have been written to the places `at_` of their bytes: a byte to which none of them goes reads as
before, and one on which all that go there agree reads as they say. -/
def Placed (before after : Nat → Byte) (images : List (List (Nat × Byte))) (at_ : Nat → Nat → Nat) : Prop :=
  let goes (k : Nat) (x : Nat × Byte) (a : Nat) : Prop := ∃ im, images[k]? = some im ∧ x ∈ im ∧ at_ k x.1 = a
  ∀ a, ((∀ k x, ¬goes k x a) → after a = before a) ∧
    ∀ k x, goes k x a → (∀ l y, goes l y a → y.2 = x.2) → after a = x.2

/-- Some images, one per plane, have been written in part to the places `at_` of their bytes: every byte reads as before, or as one
of the bytes that go there. -/
def PartlyPlaced (before after : Nat → Byte) (images : List (List (Nat × Byte))) (at_ : Nat → Nat → Nat) : Prop :=
  ∀ a, after a = before a ∨ ∃ k im, ∃ x ∈ im, images[k]? = some im ∧ at_ k x.1 = a ∧ after a = x.2

/-- The running micro-program of the coelostat at work may execute a micro-operation (R317, R351). -/
abbrev MicRuns (s : State) (c : StrmCmd) : Prop :=
  (s.coreAt s.core).strm = some c ∧ c.life.wait = none ∧ c.life.fault = 0 ∧ (s.coreAt s.core).strmOut.length < 4 ∧ c.steps < 2 ^ 20

/-- Nothing but the core at work, the teams and the count of free values has changed, so that every byte of memory and every
group stands as before. -/
def MicKept (s t : State) : Prop :=
  t = { s with cores := t.cores, teams := t.teams, free := t.free } ∧ ∀ n, n ≠ s.core → t.coreAt n = s.coreAt n

/-! The lane stream. -/

/-- The lane instruction is not held back: its registers lie in the allocation (R103), and no outstanding result and no full flag
holds it (R91, R97). -/
abbrev LaneStarts (s : State) (i : Instr) (w : LaneWord) : Prop :=
  outOfRange (laneOf s w).g (laneIndices i) = none ∧ laneHeld (laneOf s w).g (laneOf s w).i (laneOf s w).sp i = false

/-- A long-latency instruction starts: its flag is valid in its clause's header (R20), its split repeats no access, and
aperture A15 is named in handler state only (R96). -/
abbrev LongStarts (s : State) (i : Instr) (w : LaneWord) (ap : Option Nat) : Prop :=
  LaneStarts s i w ∧ laneFlag (laneOf s w).sp w ≠ none ∧ (ap = some 15 → s.group.handler = true) ∧
  s.group.replayOp (laneOf s w).i = none

/-- Every byte of memory, every S register and aperture, every CSR but the draw counter, every trap register, the scalar stream
and every other group are as before. -/
def LaneKept (s t : State) : Prop :=
  let g := s.group
  let h := t.group
  h.pc = g.pc ∧ h.s = g.s ∧ h.a = g.a ∧ SameHeld g h ∧ SameTrap g h ∧ t.mem = s.mem ∧
  ∀ k, k ≠ s.cur.key → Assoc.find? t.groups k = Assoc.find? s.groups k

/-- The issuing split has moved on (R19): to the next instruction of its clause, or past its end to the next header. -/
def SplitOn (t : State) (c : Lane) : Prop :=
  let y := t.group.splitAt c.i
  (c.i = 4 ∨ c.i < c.g.splits.length) →
    (c.sp.atLast = false → y = { c.sp with index := c.sp.index + 1, age := 0 }) ∧
    (c.sp.atLast = true → c.sp.hdr.stop = false →
      y = { c.sp with addr := c.sp.fallThrough, index := 15, age := 0, hold := y.hold })

/-- What every lane instruction of short latency leaves: the split has moved on, no flag and nothing of `LaneKept` has
changed. -/
def LaneOn (s t : State) (c : Lane) : Prop := LaneKept s t ∧ SplitOn t c ∧ SameFlags s.group t.group

/-- A long-latency operation of the issuing split has issued (R20, R91): its flag's count has risen by 1, the operation stands
outstanding under a number of its own, and of the device's registers nothing has changed. -/
def LaneIssued (s t : State) (c : Lane) (flag : Option Nat) (o : LaneOp) : Prop :=
  let g := c.g
  let h := t.group
  h.pc = g.pc ∧ h.s = g.s ∧ h.v = g.v ∧ h.q = g.q ∧ h.p = g.p ∧ h.a = g.a ∧ SameHeld g h ∧ SameTrap g h ∧ h.draws = g.draws ∧
  h.flagSoft = g.flagSoft ∧ (∀ n, h.flagCnt n = g.flagCnt n + if flag = some n then 1 else 0) ∧
  (∀ k, k ≠ s.cur.key → Assoc.find? t.groups k = Assoc.find? s.groups k) ∧
  o.id = g.nextOp ∧ o.split = c.i ∧ o.mask = c.act ∧ o.flag = flag ∧ o.random = false

/-- Every access of a list passes its checks, in the state that the aperture's frame run and then each translation leave: the
accesses with their pieces, and that state (R95, R282). -/
def CheckedAll (s : State) (core : Nat) (ap : Option Nat) (accs : List Acc) (l : List (Acc × Verdict)) (s' : State) : Prop :=
  checkAll (ap.elim s fun n => withRun s core s.cur.key n) core accs = (l, s') ∧ ∀ x ∈ l, ∃ ps, x.2 = .ok ps

/-- Two pieces share no byte. -/
def PieceApart (p q : Piece) : Prop := p.pa + p.n ≤ q.pa ∨ q.pa + q.n ≤ p.pa

/-- Vd takes `f l` in the active lanes and its shadows d1 to dT take `tan k l`; no other lane, vector, scale or predicate
register changes, and a destination that is no vector register discards the result (R70, R134). -/
def LaneValues (t : State) (c : Lane) (f : Nat → LaneW) (tan : Nat → Nat → LaneW) : Prop :=
  let d := c.w.dest.toNat
  let h := t.group
  h.q = c.g.q ∧ h.p = c.g.p ∧ (384 ≤ d → h.v = c.g.v) ∧
  (d < 384 → ∀ k n l, n < 512 → l < 32 → Bits.lane (h.readV k n) l =
    if n = d ∧ k ≤ c.t ∧ c.act.getLsbD l = true then (if k = 0 then f l else tan k l) else Bits.lane (c.g.readV k n) l)

/-- P[dest] takes `f l` in the active lanes, P0 never changes, and no other register does (R93). -/
def LanePred (t : State) (c : Lane) (f : Nat → Bool) : Prop :=
  let n := c.w.dest.toNat
  let h := t.group
  h.v = c.g.v ∧ h.q = c.g.q ∧
  ∀ m l, l < 32 → (h.readP m).getLsbD l =
    if m = n ∧ m ≠ 0 ∧ c.act.getLsbD l = true then f l else (c.g.readP m).getLsbD l

/-- The modified primal value of slot j of lane l of a source: 0 for A, 1 for B, 2 for C (R44, R48, R68, R71). -/
def fpIn (c : Lane) (src l j : Nat) : Num.XVal :=
  c.fpVal (laneFmt c.w) src (slotCode c.w.ty.toNat (c.operand (c.field src) l) j)

/-- Its modified tangent in plane k (R136). -/
def fpTan (c : Lane) (src k l j : Nat) : Num.XVal :=
  c.tanVal (laneFmt c.w) src (slotCode c.w.ty.toNat (c.operand (c.field src) l) j)
    (slotCode c.w.ty.toNat (c.shadow (c.field src) k l) j)

/-- The primal code of slot j of lane l, with the code before any clamp, from an exact value (R41, R49, R61). -/
def fpCodes (c : Lane) (x : Num.RMode → Nat → Nat → Num.XVal) (l j : Nat) : Nat × Nat :=
  c.destCodes (laneFmt c.w) false (c.mode (slotsOf c.w.ty.toNat) l j) (x (c.mode (slotsOf c.w.ty.toNat) l j) l j)

/-- The rule of a slot-wise floating-point instruction (R49, R58, R134, R136): each slot of Vd is the exact value `x`, scaled,
rounded once and clamped; each slot of a shadow is the exact tangent `dx` of y, rounded in RNE; and the draw counter moves on
when the rounding is stochastic. -/
def FpRule (s t : State) (c : Lane) (x : Num.RMode → Nat → Nat → Num.XVal)
    (dx : Num.XVal → Nat → Nat → Nat → Num.XVal) : Prop :=
  let f := laneFmt c.w
  let e := slotsOf c.w.ty.toNat
  LaneOn s t c ∧ t.group.draws = (if c.modeCode = 6 then c.g.draws + BitVec.ofNat 32 (4 * e) else c.g.draws) ∧
  LaneValues t c (fun l => packSlots c.w.ty.toNat fun j => (fpCodes c x l j).2)
    (fun k l => packSlots c.w.ty.toNat fun j =>
      c.tanCode f (fpCodes c x l j).1 (dx ((Num.decode f (fpCodes c x l j).1).scale2 (-c.k)) k l j))

/-- The rule of a slot-wise integer instruction (R136, R149): each slot of Vd is the clamped integer, wrapped, and every
tangent is +0. -/
def IntRule (s t : State) (c : Lane) (x : Nat → Nat → Int) : Prop :=
  let ty := c.w.ty.toNat
  LaneOn s t c ∧ t.group.draws = c.g.draws ∧
  LaneValues t c (fun l => packSlots ty fun j =>
    Bits.wrap (clampTo c.w.clamp.toNat ty (slotBits ty) (x l j)) (slotBits ty)) fun _ _ => 0

/-- A short instruction that writes these lanes and shadows, with no rounding. -/
def MoveRule (s t : State) (c : Lane) (f : Nat → LaneW) (tan : Nat → Nat → LaneW) : Prop :=
  LaneOn s t c ∧ t.group.draws = c.g.draws ∧ LaneValues t c f tan

/-- A short instruction that writes lanes of a predicate. -/
def PredRule (s t : State) (c : Lane) (f : Nat → Bool) : Prop :=
  LaneOn s t c ∧ t.group.draws = c.g.draws ∧ LanePred t c f

/-- Lane by lane, scale registers take bytes: byte l of Qd in the planes listed, for the active lanes; no other byte changes. -/
def ScaleBytes (t : State) (c : Lane) (planes : List Nat) (v : Nat → Nat → Nat) : Prop :=
  ∀ k n l, n < 512 → l < 32 → Bits.qbyte (t.group.readQ k n) l =
    if n = c.w.dest.toNat ∧ k ∈ planes ∧ c.act.getLsbD l = true then v k l else Bits.qbyte (c.g.readQ k n) l

/-- The value of node `n` of a level of the tree of R55, over leaves of which some are absent. -/
def r55 {α : Type} (node : α → α → α) (leaf : Nat → Option α) (level n : Nat) : Option α :=
  match level with
  | 0 => leaf n
  | k + 1 =>
    match r55 node leaf k (2 * n), r55 node leaf k (2 * n + 1) with
    | some x, some y => some (node x y)
    | some x, none => some x
    | none, y => y

/-- A floating-point node of R166 on the codes and the tangents of one plane: a sum rounded once with the sum of the tangents, or
the child that R141 chooses, with its tangent. -/
def r166fp (f : Num.Fmt) (ftz : Bool) (mode : Num.RMode) (op : Nat) (x y : Nat × Nat) : Nat × Nat :=
  let a := Num.flushIn f ftz (Num.decode f x.1)
  let b := Num.flushIn f ftz (Num.decode f y.1)
  let put (v : Num.XVal) : Nat := Num.roundTo f (ftz && f.flushes) .table mode v
  if op = 0 then (put (Num.add mode.isRdn a b), Num.rnd f .rne (Num.add false (Num.decode f x.2) (Num.decode f y.2)))
  else if a = .nan ∨ b = .nan then (f.canonNan, f.canonNan)
  else if Num.chooseA (op == 1) a b then (put a, x.2)
  else (put b, y.2)

/-- An integer node of R166. -/
def r166int (signed : Bool) (op : Nat) (x y : BitVec 32) : BitVec 32 :=
  match op with
  | 4 => x + y
  | 5 => if (if signed then x.sle y else x.ule y) then x else y
  | 6 => if (if signed then y.sle x else y.ule x) then x else y
  | 8 => x &&& y
  | 9 => x ||| y
  | _ => x ^^^ y

/-- The identities of R166. -/
def r166identity (ty op : Nat) : Nat :=
  let f := (Num.fmtOfCode ty).getD .fp32
  match op with
  | 1 => f.infCode
  | 2 => f.signBit true + f.infCode
  | 5 => if ty = 9 then 0x7FFFFFFF else 0xFFFFFFFF
  | 6 => if ty = 9 then 0x80000000 else 0
  | 8 => 0xFFFFFFFF
  | _ => 0

/-- The node of R167 on pairs of FP32 codes: the sum, its exact error with the low parts, and the renormalised pair. -/
def r167 (ftz : Bool) (x y : Nat × Nat) : Nat × Nat :=
  let v (n : Nat) : Num.XVal := Num.flushIn .fp32 ftz (Num.decode .fp32 n)
  let put (z : Num.XVal) : Nat := Num.roundTo .fp32 ftz .table .rne z
  let sum := Num.add false (v x.1) (v y.1)
  let s := Num.decode .fp32 (put sum)
  let t := Num.decode .fp32 (put (Num.sum false [v x.2, v y.2, Num.add false sum s.neg]))
  let h := put (Num.add false s t)
  if v x.1 = .nan ∨ v x.2 = .nan ∨ v y.1 = .nan ∨ v y.2 = .nan ∨ sum = .nan then (Num.Fmt.canonNan .fp32, 0)
  else if s.isFin = false then (put sum, 0)
  else (h, put (Num.sum false [s, t, (Num.decode .fp32 h).neg]))

/-- An FP32 code of a pair's tangent under the modifiers of its source (R48, R136): the primal code's sign under the absolute value,
and the negation. -/
def pairTan (c : Lane) (src k l : Nat) : Nat :=
  let t := (c.shadow (c.field src) k l).toNat
  if (c.absMod src && Num.Fmt.negCode .fp32 (c.operand (c.field src) l).toNat) != c.negMod src then modCode .fp32 true false t
  else t

/-! Traps. -/

/-- The issuing group is outside handler state and its grid has a trap vector: a trap goes to the handler (R217, R219), for a lane
stream once no instruction holds the scalar stream (R109). -/
abbrev TrapsToHandler (s : State) : Prop :=
  s.group.handler = false ∧ s.grid.record.trapVec ≠ 0 ∧ (s.cur.lane = none ∨ s.group.atBoundary = true)

/-- TRAPCAUSE (R99): the cause, the index and split of a lane trap with the lane bit, and the detail. -/
def r99cause (cause detail : Nat) (lane : Option (Nat × Nat)) : Word :=
  match lane with
  | none => BitVec.ofNat 64 (cause + detail % 2 ^ 32 * 2 ^ 32)
  | some (split, index) =>
    BitVec.ofNat 64 (cause + 256 * (index % 16) + 4096 * (split % 4) + 32768 + detail % 2 ^ 32 * 2 ^ 32)

/-- `t` is the state that trap entry leaves of `s` (R217): the trap registers, A15 saved and cleared, handler state, every
split frozen where it stood, and the scalar stream at the trap vector; S, V, Q, P and K registers, the other apertures,
the flags and every byte of memory as they were. -/
def TrapTaken (s t : State) (cause detail : Nat) (lane : Option (Nat × Nat)) (pc : BitVec 56) (planes : Mask)
    (addr : Word) : Prop :=
  let g := s.group
  let h := t.group
  h.trapcause = r99cause cause detail lane ∧ h.trappc = pc ∧ h.traplanes = planes ∧ h.trapaddr = addr ∧
  h.handler = true ∧ h.pc = s.grid.record.scalarBase + BitVec.ofNat 56 s.grid.record.trapVec ∧
  h.hidden.a15 = g.readA 15 ∧ h.hidden.pc = g.pc ∧ h.hidden.split = s.cur.lane ∧
  (h.readA 15).valid = false ∧ (∀ n, n ≠ 15 → h.readA n = g.readA n) ∧
  h.splits = g.splits.map Split.freeze ∧
  h.s = g.s ∧ h.v = g.v ∧ h.q = g.q ∧ h.p = g.p ∧ h.k = g.k ∧ SameFlags g h ∧ h.priv = g.priv ∧
  t.mem = s.mem ∧ ∀ k, k ≠ s.cur.key → Assoc.find? t.groups k = Assoc.find? s.groups k

/-- An instruction of the scalar stream traps: a next state that trap entry leaves (R217), with no lane named. -/
def Traps (r : Result State) (s : State) (cause detail : Nat) (addr : Word) : Prop :=
  Goes r fun t => TrapTaken s t cause detail none s.group.pc 0 addr

/-- A lane instruction traps in the state that its checks have left: a next state that trap entry leaves, with its split, its place
and these lanes named (R217, R282). -/
def LaneTraps (r : Result State) (s : State) (c : Lane) (cause detail : Nat) (lanes : Mask) (addr : Word) : Prop :=
  Goes r fun t => TrapTaken s t cause detail (some (c.i, c.sp.index))
    (s.grid.record.laneBase + BitVec.ofNat 56 c.sp.addr.toNat) lanes addr

/-- The lanes of some accesses. -/
def lanesWith (l : List Acc) : Mask := Bits.maskOf fun n => l.any fun a => a.lane == n

/-- The lowest address of some accesses. -/
def lowestVa (l : List Acc) : Word := BitVec.ofNat 64 (l.foldl (fun m a => min m a.va) (2 ^ 56))

/-- The traps of a lane instruction of memory (rows 1, 2, 4 and 5 of R282, and R360), the first that applies, with the lanes that
meet it and their lowest address: through an aperture that is not valid; of a misaligned access, if it asks for alignment; and of
what the translations answer. A whole-register transfer, and a lost device, name the active lanes. -/
def LaneMemoryTraps (s s' : State) (j : Instr) (c : Lane) (ap : Option Nat) (whole aligned : Bool) (accs : List Acc)
    (l : List (Acc × Verdict)) : Prop :=
  let odd := accs.filter fun a => a.va % a.bytes != 0
  let met (v : Verdict) : List Acc := (l.filter fun x => x.2 == v).map (·.1)
  let named (as : List Acc) : Mask := if whole = true then c.act else lanesWith as
  let lost := l.filterMap fun x => match x.2 with
    | .lost d => some d
    | _ => none
  let invalid : Prop := ∃ n, ap = some n ∧ (c.seen.readA n).valid = false
  (invalid → accs ≠ [] → LaneTraps (exec j s) s c 0x12 0 c.act (lowestVa (accs.filter fun a => a.plane == 0))) ∧
  (¬invalid → aligned = true → odd ≠ [] → LaneTraps (exec j s) s c 0x13 0 (named odd) (lowestVa odd)) ∧
  (¬invalid → aligned = false ∨ odd = [] →
    checkAll (ap.elim s fun n => withRun s c.g.core s.cur.key n) c.g.core accs = (l, s') → met .badRoot = [] →
    (met .prot ≠ [] → LaneTraps (exec j s) s' c 0x12 0 (named (met .prot)) (lowestVa (met .prot))) ∧
    (met .prot = [] → met .atomclass ≠ [] →
      LaneTraps (exec j s) s' c 0x17 0 (named (met .atomclass)) (lowestVa (met .atomclass))) ∧
    (∀ d rest, met .prot = [] → met .atomclass = [] → lost = d :: rest → LaneTraps (exec j s) s' c 0x19 d c.act (lowestVa accs)))

/-- The traps of a lane instruction of the scratchpad (rows 2, 3 and 6 of R282), the first that applies: an offset that breaks its
alignment, one past the scratchpad in some plane, and for a store one in a compressed region; with the lanes that meet it and
their lowest offset. -/
def LaneScratchTraps (s : State) (j : Instr) (c : Lane) (m : MemFn) (store : Bool) : Prop :=
  let n := sizeBytes m.size
  let odd := (c.scratch m).filter fun x => m.size != 5 && x.2 % (n : Int) != 0
  let past := (c.scratch m).filter fun x => c.planes.any fun k => s.team.beyond k x.2 n
  let packed := (c.scratch m).filter fun x => store && s.team.compressed x.2.toNat n
  let traps (cause : Nat) (l : List (Nat × Int)) : Prop :=
    LaneTraps (exec j s) s c cause 0 (Bits.maskOf fun i => l.any fun x => x.1 == i) (lowestOffset (l.map (·.2)))
  (odd ≠ [] → traps 0x13 odd) ∧ (odd = [] → past ≠ [] → traps 0x14 past) ∧
  (odd = [] → past = [] → packed ≠ [] → traps 0x15 packed)

/-- Parts of a save area, by their offsets, have been written at `va`: `n` bytes from offset `o` in the pages that could be reached.
Every other byte of memory reads as before; and where those bytes have places of their own, each part stands there (R229). -/
def AreaWritten (s t : State) (ps : List PagePlace) (va o n : Nat) (parts : List (Nat × List Byte)) : Prop :=
  let place (i : Nat) : Nat := (reachAddr ps ((va + i) % 2 ^ 56)).1
  let there (i : Nat) : Prop := o ≤ i ∧ i < o + n ∧ ∃ p ∈ ps, p.page = (va + i) % 2 ^ 56 / 65536
  (∀ a, (∀ i, there i → place i ≠ a) → readByte t a = readByte s a) ∧
  ((∀ i j, there i → there j → place i = place j → i = j) →
    ∀ x ∈ parts, ∀ j b, x.2[j]? = some b → there (x.1 + j) → readByte t (place (x.1 + j)) = b)

/-- The parts of a group's record at an offset of its team's save area (R229): the visible fields, the hidden block with its CRC, and
the vector and scale registers. -/
def recordParts (t : Team) (g : Group) (o : Nat) : List (Nat × List Byte) :=
  [(o, g.visibleImage), (o + 0x400, t.hiddenBlock (o + 0x400) 3072), (o + 0x1000, g.registerImage)]

/-- A group has come back from the record at an offset of its team's save area (R228, R230): what it holds of each register and
control and status register is what the record says. -/
def RecordRestored (rd : AreaRead) (o : Nat) (g h : Group) : Prop :=
  let word (at_ n : Nat) : Nat := Bits.leNat (rd (o + at_) n)
  let csr (i : Nat) : Word := BitVec.ofNat 64 (word (0x360 + 8 * i) 8)
  (∀ n, 0 < n → n < 64 → h.readS n = BitVec.ofNat 64 (word (8 * n) 8)) ∧
  (∀ n, 0 < n → n < 8 → h.readP n = BitVec.ofNat 32 (word (0x200 + 4 * n) 4)) ∧
  (∀ n, n < 16 → let x := word (0x220 + 16 * n) 16
    h.readA n = ⟨Bits.bit x 95, BitVec.ofNat 56 (Bits.field x 32 56), BitVec.ofNat 32 x⟩) ∧
  (∀ n, n < 8 → h.readK n = BitVec.ofNat 64 (word (0x320 + 8 * n) 8)) ∧
  h.rnd = csr 0 ∧ h.dplane = (csr 1).setWidth 56 ∧ h.dstride = (csr 2).setWidth 56 ∧ h.srseed = csr 3 ∧ h.cring = csr 4 ∧
  h.ulivec = (csr 5).setWidth 56 ∧ h.trapcause = csr 6 ∧ h.trappc = (csr 7).setWidth 56 ∧ h.traplanes = (csr 8).setWidth 32 ∧
  h.trapaddr = csr 9 ∧ h.flagSoft = BitVec.ofNat 12 (word 0x3B0 8) ∧ h.draws = BitVec.ofNat 32 (word 0x3B8 8) ∧
  h.drawid = BitVec.ofNat 32 (word 0x3C0 8) ∧
  (g.alloc ≤ 512 → ∀ k n, k ≤ g.tanw → n < g.alloc →
    h.readV k n = BitVec.ofNat 1024 (word (0x1000 + k * (160 * g.alloc) + 128 * n) 128) ∧
    h.readQ k n = BitVec.ofNat 256 (word (0x1000 + k * (160 * g.alloc) + 128 * g.alloc + 32 * n) 32))

/-- `t` is a state in which the team with key `tk` has ended (R231): none of its groups is left, nor the team, nor a command
of one of its groups in a core's transit queue or side log, and one abort record of the reason is pending on its die. -/
def TeamEnded (s t : State) (tk reason : Nat) : Prop :=
  (∀ p ∈ t.groups, p.2.teamKey ≠ tk) ∧ Assoc.find? t.teams tk = none ∧
  (∀ k g, (k, g) ∈ s.groups → g.teamKey = tk → ∀ c ∈ t.cores,
    (∀ e ∈ c.2.sideLog, e.key ≠ k) ∧ (∀ x ∈ c.2.transit, x.key ≠ k)) ∧
  ∃ r : FaultRecord, r.kind = 5 ∧ r.detail = reason ∧ r.grid = (s.teamAt tk).grid ∧ r.team = (s.teamAt tk).index ∧
    r ∈ (t.dieAt (dieOfCore (s.teamAt tk).core)).faultPend

end Sys2Proof.Safety
end

