-- ==== Sys2Proof/Certificates/Slice0/Obligations.lean ====
section
/-! DEFINITION. The statements for the provers, from the numbered rules of the spec. What each one names beyond the machine itself
stands in Sys2Proof/Safety.lean. -/

open Sys2Proof Sys2Proof.Machine Sys2Proof.Safety

/-- R113: each of ADD, SUB, MUL, DIV, MIN and MAX goes on, whatever its modifiers, with S[dest] holding the rule's value and
the scalar stream 4 bytes on; a destination S0 discards it. -/
def Obligations.ScalarArithmeticResult : Prop :=
  ∀ (f : SR) (s : State),
    let x := s.group.readS f.src1.toNat
    let y := s.group.readS f.src2.toNat
    let d := f.dest.toNat
    Free s [d, f.src1.toNat, f.src2.toNat] →
    exec (.add f) s = .next (wrote s d (r113 f.fn (· + ·) x y) 4) ∧
    exec (.sub f) s = .next (wrote s d (r113 f.fn (· - ·) x y) 4) ∧
    exec (.mul f) s =
      .next (wrote s d (r113 f.fn (fun a b => if f.fn.getLsbD 3 then (a * b).fdiv (2 ^ 64) else a * b) x y) 4) ∧
    exec (.div f) s = .next (wrote s d (r113 f.fn (r113div (f.fn.getLsbD 3)) x y) 4) ∧
    exec (.min f) s = .next (wrote s d (r113 f.fn min x y) 4) ∧
    exec (.max f) s = .next (wrote s d (r113 f.fn max x y) 4)

/-- R114: AND, OR, XOR act on all 64 bits; SHL, SHR and ROTL shift by S[src2] modulo the width, and sign-extend from it but
for the logical SHR. -/
def Obligations.LogicAndShiftResult : Prop :=
  ∀ (f : SR) (s : State),
    let x := s.group.readS f.src1.toNat
    let y := s.group.readS f.src2.toNat
    let d := f.dest.toNat
    let w := f.fn.getLsbD 0
    Free s [d, f.src1.toNat, f.src2.toNat] →
    exec (.and f) s = .next (wrote s d (x &&& y) 4) ∧
    exec (.or f) s = .next (wrote s d (x ||| y) 4) ∧
    exec (.xor f) s = .next (wrote s d (x ^^^ y) 4) ∧
    ((Instr.shl f).wf = true → exec (.shl f) s = .next (wrote s d (r114shl w x y) 4)) ∧
    ((Instr.shr f).wf = true →
      exec (.shr f) s = .next (wrote s d (r114shr w (f.fn.getLsbD 1) x (y.toNat % (if w then 32 else 64))) 4)) ∧
    ((Instr.rotl f).wf = true → exec (.rotl f) s = .next (wrote s d (r114rotl w x y) 4))

/-- R115 and R116: CLZ and POPC count in S[src1] or with .w in its low half; BFX writes the field or 0, and BFI replaces the
field of its destination and keeps the other bits. R117 and R118: the immediate forms compute as their register forms do,
and LUI, ADDPC, LI and LI.hi write their constants. -/
def Obligations.BitFieldAndImmediateResult : Prop :=
  (∀ (f : SR) (s : State),
      let x := s.group.readS f.src1.toNat
      let y := s.group.readS f.src2.toNat
      let d := f.dest.toNat
      let w := f.fn.getLsbD 0
      let pos := (y.extractLsb' 0 6).toNat
      let e := r116end y
      Free s [d, f.src1.toNat, f.src2.toNat] →
      exec (.clz f) s =
        .next (wrote s d (if w then (x.setWidth 32).clz.setWidth 64 else x.clz) 4) ∧
      exec (.popc f) s =
        .next (wrote s d (BitVec.ofNat 64 ((List.range (if w then 32 else 64)).filter fun n => x.getLsbD n).length) 4) ∧
      exec (.bfx f) s = .next (wrote s d
        (if y.extractLsb' 8 7 = 0 then 0
         else if f.fn.getLsbD 1 then (x.extractLsb' pos (e - pos + 1)).setWidth 64
         else (x.extractLsb' pos (e - pos + 1)).signExtend 64) 4) ∧
      Goes (exec (.bfi f) s) fun t => ∃ v : Word, t = wrote s d v 4 ∧
        ∀ n, n < 64 → v.getLsbD n =
          (if y.extractLsb' 8 7 ≠ 0 ∧ pos ≤ n ∧ n ≤ e then x.getLsbD (n - pos) else (s.group.readS d).getLsbD n)) ∧
  (∀ (f : SI) (u : SU) (l : SX) (s : State),
      let x := s.group.readS f.src1.toNat
      let d := f.dest.toNat
      let m : Word := f.imm.signExtend 64
      (Free s [d, f.src1.toNat] →
        exec (.addi f) s = .next (wrote s d (if f.f = 1 then (x.setWidth 32 + m.setWidth 32).signExtend 64 else x + m) 4) ∧
        exec (.andi f) s = .next (wrote s d (x &&& m) 4) ∧
        exec (.ori f) s = .next (wrote s d (x ||| m) 4) ∧
        exec (.xori f) s = .next (wrote s d (x ^^^ m) 4) ∧
        ((Instr.shli f).wf = true →
          exec (.shli f) s = .next (wrote s d
            (if f.f = 1 then ((x.setWidth 32) <<< f.imm.toNat).signExtend 64 else x <<< f.imm.toNat) 4)) ∧
        ((Instr.shri f).wf = true →
          exec (.shri f) s = .next (wrote s d (if f.f = 1 then x >>> f.imm.toNat else x.sshiftRight f.imm.toNat) 4))) ∧
      (Free s [u.dest.toNat] →
        exec (.lui u) s = .next (wrote s u.dest.toNat (BitVec.ofInt 64 (u.imm.toInt * 4096)) 4) ∧
        exec (.addpc u) s = .next (wrote s u.dest.toNat
          (BitVec.ofInt 64 (((s.group.pc.toNat : Int) + u.imm.toInt * 4096) % 2 ^ 56)) 4)) ∧
      (Free s [l.dest.toNat] →
        exec (.li l) s = .next (wrote s l.dest.toNat (l.imm.signExtend 64) 8) ∧
        exec (.liHi l) s = .next (wrote s l.dest.toNat
          ((l.imm.setWidth 64 <<< 32) ||| (s.group.readS l.dest.toNat &&& 0xFFFFFFFF)) 8)))

/-- R119, R120 and R129: CMP and CMPI write 1 or 0; SEL chooses by its destination's old value or by a flag; CMP's unlisted
functions are illegal. When SEL finds the flag clear that is an observation, at which the model empties the core's whole L1: that
is its own choice (log entry 21), since R271 asks for less at an edge within one core. -/
def Obligations.CompareAndSelectResult : Prop :=
  ∀ (f : SR) (i : SI) (s : State),
    let x := s.group.readS f.src1.toNat
    let y := s.group.readS f.src2.toNat
    let d := f.dest.toNat
    (Free s [d, f.src1.toNat, f.src2.toNat] →
      exec (.cmp f) s = .next (wrote s d (if r119 f.fn x y then 1 else 0) 4) ∧
      (f.fn = 0 → exec (.sel f) s = .next (wrote s d (if s.group.readS d ≠ 0 then x else y) 4)) ∧
      (8 ≤ f.fn.toNat → s.group.flagSet (f.fn.toNat - 8) = true → exec (.sel f) s = .next (wrote s d x 4)) ∧
      (8 ≤ f.fn.toNat → s.group.flagSet (f.fn.toNat - 8) = false →
        exec (.sel f) s = .next (observeClear (wrote s d y 4)))) ∧
    (f.fn.toNat ∈ [6, 7, 14, 15] → (Instr.cmp f).wf = false) ∧
    (Free s [i.dest.toNat, i.src1.toNat] →
      exec (.cmpi i) s = .next (wrote s i.dest.toNat
        (if (if i.f = 0 then s.group.readS i.src1.toNat == i.imm.signExtend 64
             else (s.group.readS i.src1.toNat).slt (i.imm.signExtend 64)) then 1 else 0) 4))

/-- R65, R121 to R124: BR goes to its target when its condition holds and else falls through, observing its flag; LOOP
decrements and tests; JR and CALL link and jump; the reserved conditions and the fields named there are illegal. That the
observation empties the core's whole L1 is the model's choice (log entry 21). -/
def Obligations.ControlTransferResult : Prop :=
  ∀ (b : SB) (f : SR) (x : SX) (s : State),
    let g := s.group
    let c := b.cond.toNat
    let a := b.src.toNat
    let target := r65target g.pc b.off
    (Free s [a] →
      (c ≤ 6 → exec (.br b) s =
        .next (if r65 c (g.readS a) then s.setGroup { g with pc := target, wait := .none } else movedOn s 4)) ∧
      (8 ≤ c → c ≤ 19 → exec (.br b) s =
        .next (if g.flagSet (c - 8) then s.setGroup { g with pc := target, wait := .none }
               else observeClear (movedOn s 4))) ∧
      exec (.loop b) s = .next (
        let h := g.writeS a (g.readS a - 1)
        if 0 < (g.readS a - 1).toInt then s.setGroup { h with pc := target, wait := .none }
        else s.setGroup (h.advance 4))) ∧
    (c = 7 ∨ 20 ≤ c ∨ ((c = 0 ∨ 8 ≤ c) ∧ b.src ≠ 0) → (Instr.br b).wf = false) ∧ (b.src = 0 → (Instr.loop b).wf = false) ∧
    (x.imm.toNat % 4 ≠ 0 → (Instr.call x).wf = false) ∧
    (Free s [f.dest.toNat, f.src1.toNat] →
      exec (.jr f) s = .next (s.setGroup { g.writeS f.dest.toNat ((g.pc + 4).setWidth 64) with
        pc := BitVec.ofNat 56 ((g.readS f.src1.toNat).toNat / 4 * 4), wait := .none })) ∧
    (Free s [x.dest.toNat] →
      exec (.call x) s = .next (s.setGroup { g.writeS x.dest.toNat ((g.pc + 8).setWidth 64) with
        pc := (s.gridAt g.grid).record.scalarBase + x.imm.setWidth 56, wait := .none }))

/-- R125 and R126: LRUN appends its program to the enqueue queue of the group, or in handler state to the handler's, and
goes on, waits when four programs stand there, and traps ILLOP for an address that is misaligned or beyond 2^32; LSYNC goes on when
its queue is empty and no lane instruction is outstanding. -/
def Obligations.LaneProgramInstructions : Prop :=
  ∀ (f : SX) (r : SR) (s : State),
    let g := s.group
    let l := ((g.readS f.src1.toNat).toNat + f.imm.toInt) % 2 ^ 56
    let full := 4 ≤ (if g.handler then g.handlerQ.length else g.laneQ.length)
    (Free s [f.src1.toNat] → l < 2 ^ 32 → l % 4 = 0 →
      (¬full → Goes (exec (.lrun f) s) fun t =>
        let h := t.group
        OnlyGroup s t ∧ h.pc = g.pc + 8 ∧ SameS g h [] ∧ SameLanes g h ∧ SameFlags g h ∧ SameCsrs g h ∧ SameTrap g h ∧
        h.splits = g.splits ∧ h.laneOps = g.laneOps ∧
        (g.handler = false → h.laneQ.map (·.addr) = g.laneQ.map (·.addr) ++ [BitVec.ofInt 32 l] ∧ h.handlerQ = g.handlerQ) ∧
        (g.handler = true → h.handlerQ.map (·.addr) = g.handlerQ.map (·.addr) ++ [BitVec.ofInt 32 l] ∧ h.laneQ = g.laneQ)) ∧
      (full → exec (.lrun f) s = .next (s.setGroup { g with wait := .laneQueue }))) ∧
    (Free s [f.src1.toNat] → 2 ^ 32 ≤ l ∨ l % 4 ≠ 0 → s.cur.lane = none → TrapsToHandler s → Traps (exec (.lrun f) s) s 1 0 0) ∧
    (Free s [] →
      (if g.handler then g.handlerQ = [] ∧ ∀ o ∈ g.laneOps, o.split ≠ 4 else g.laneQ = [] ∧ g.laneOps = []) →
      exec (.lsync r) s = .next (movedOn s 4))

/-- R97, R127 and R128: FSET sets and FCLR clears the software bits of the flags that its mask names, no count changes, and
a flag still reads set while its count is not 0; FWAIT goes on when all, or with its form .any one, of the flags named read
clear, and else waits. That an observation empties the core's whole L1 is the model's choice (log entry 21). -/
def Obligations.FlagInstructions : Prop :=
  ∀ (f : SI) (s : State),
    let g := s.group
    Free s [] →
    Goes (exec (.fset f) s) (fun t =>
      let h := t.group
      OnlyGroup s t ∧ h.pc = g.pc + 4 ∧ h.flagCount = g.flagCount ∧
      (∀ n, n < 12 → h.flagSet n = (f.imm.getLsbD n || g.flagSet n)) ∧
      SameS g h [] ∧ SameLanes g h ∧ SameCsrs g h ∧ SameTrap g h) ∧
    Goes (exec (.fclr f) s) (fun t =>
      let h := t.group
      OnlyGroup s t ∧ h.pc = g.pc + 4 ∧ h.flagCount = g.flagCount ∧
      (∀ n, n < 12 → h.flagSet n = if f.imm.getLsbD n then decide (g.flagCnt n ≠ 0) else g.flagSet n) ∧
      SameS g h [] ∧ SameLanes g h ∧ SameCsrs g h ∧ SameTrap g h) ∧
    (f.imm = 0 → exec (.fwait f) s = .next (movedOn s 4)) ∧
    (f.imm ≠ 0 → f.f = 0 → (∀ n, n < 12 → f.imm.getLsbD n = true → g.flagSet n = false) →
      exec (.fwait f) s = .next (observeClear (movedOn s 4))) ∧
    (f.imm ≠ 0 → f.f = 1 → (∃ n, n < 12 ∧ f.imm.getLsbD n = true ∧ g.flagSet n = false) →
      exec (.fwait f) s = .next (observeClear (movedOn s 4))) ∧
    (f.imm ≠ 0 → f.f = 0 → (∃ n, n < 12 ∧ f.imm.getLsbD n = true ∧ g.flagSet n = true) →
      exec (.fwait f) s = .next (s.setGroup { g with wait := .flags f.imm false })) ∧
    (f.imm ≠ 0 → f.f = 1 → (∀ n, n < 12 → f.imm.getLsbD n = true → g.flagSet n = true) →
      exec (.fwait f) s = .next (s.setGroup { g with wait := .flags f.imm true }))

/-- R99, R130 and R131: a permitted CSRR, CSRW or CSRX goes on; the read returns the register, the write leaves it reading
as its field map lets it, and every other register of R99 reads as before. R131, in its order: a number that names no
register traps ILLOP, a register marked /S in user mode and a K register outside handler state trap PRIVOP, and a write to a
read-only register or of a value that the field map forbids traps ILLOP. -/
def Obligations.CsrAccess : Prop :=
  (∀ (f : SR) (s : State),
      let g := s.group
      let n := f.fn.toNat
      let v := g.readS f.src1.toNat
      r131open g n →
      (n ∈ r99writable ++ r99readOnly → ∃ old, csrValue s g n = some old ∧
        (Free s [f.dest.toNat] → exec (.csrr f) s = .next (wrote s f.dest.toNat old 4))) ∧
      (n ∈ r99writable → ¬r131bad n v → ∃ old, csrValue s g n = some old ∧
        (Free s [f.src1.toNat] → Goes (exec (.csrw f) s) fun t =>
          let h := t.group
          OnlyGroup s t ∧ h.pc = g.pc + 4 ∧ csrValue t h n = some (r130 n v) ∧
          (∀ m, m ≠ n → csrValue t h m = csrValue s g m) ∧ SameS g h [] ∧ SameLanes g h ∧ SameFlags g h ∧
          h.handler = g.handler ∧ h.priv = g.priv) ∧
        (Free s [f.dest.toNat, f.src1.toNat] → Goes (exec (.csrx f) s) fun t =>
          let h := t.group
          OnlyGroup s t ∧ h.pc = g.pc + 4 ∧ csrValue t h n = some (r130 n v) ∧
          (∀ m, m ≠ n → csrValue t h m = csrValue s g m) ∧
          h.readS f.dest.toNat = (if f.dest = 0 then 0 else old) ∧ SameS g h [f.dest.toNat] ∧ SameLanes g h ∧ SameFlags g h ∧
          h.handler = g.handler ∧ h.priv = g.priv))) ∧
  (∀ (f : SR) (s : State),
      let g := s.group
      let n := f.fn.toNat
      let v := g.readS f.src1.toNat
      let known := n ∈ r99writable ++ r99readOnly
      Free s [f.dest.toNat, f.src1.toNat] → s.cur.lane = none → TrapsToHandler s →
      (¬known → Traps (exec (.csrr f) s) s 1 0 0 ∧ Traps (exec (.csrw f) s) s 1 0 0 ∧ Traps (exec (.csrx f) s) s 1 0 0) ∧
      (known → ¬r131open g n →
        Traps (exec (.csrr f) s) s 2 0 0 ∧ Traps (exec (.csrw f) s) s 2 0 0 ∧ Traps (exec (.csrx f) s) s 2 0 0) ∧
      (known → r131open g n → n ∈ r99readOnly ∨ r131bad n v →
        Traps (exec (.csrw f) s) s 1 0 0 ∧ Traps (exec (.csrx f) s) s 1 0 0))

/-- R213, R216, R217 and R221: a precise trap of the scalar stream and of a split enters handler state with its cause,
address and lanes saved, at the trap vector; TRAP completes first, so that TRAPPC is the address after it and TRAPADDR its
own. The position that each stopped split keeps hidden is the form that the model gives the hidden state of R217 (log entry
6). -/
def Obligations.TrapEntry : Prop :=
  ∀ (f : SI) (c : Cause) (detail : Nat) (planes : Mask) (addr : Word) (s : State),
    TrapsToHandler s →
    (s.cur.lane = none → TrapTaken s (takeTrap s c detail planes addr) c.code detail none s.group.pc planes addr) ∧
    (∀ i, s.cur.lane = some i → TrapTaken s (takeTrap s c detail planes addr) c.code detail
      (some (i, (s.group.splitAt i).index)) (s.grid.record.laneBase + BitVec.ofNat 56 (s.group.splitAt i).addr.toNat)
      planes addr) ∧
    (s.cur.lane = none → Free s [] → Goes (exec (.trap f) s) fun t =>
      TrapTaken (movedOn s 4) t 9 f.imm.toNat none (s.group.pc + 4) 0 (s.group.pc.setWidth 64))

/-- R217, R219, R231 and R222: a trap in handler state ends the team with reason 1, one of a grid without a trap vector with
reason 2, and TRET.abort with reason 5; LAUNCH, SPAWN, AWAIT, EXIT, YIELD and TBAR in handler state are such traps (R218).
-/
def Obligations.TrapEndsTheTeam : Prop :=
  ∀ (f : SR) (x : SX) (c : Cause) (detail : Nat) (planes : Mask) (addr : Word) (s : State),
    let k := s.group.teamKey
    (s.group.handler = true →
      TeamEnded s (takeTrap s c detail planes addr) k 1 ∧
      (s.group.handlerQ = [] → s.group.hsplit.valid = false → s.group.scalarOps = [] →
        Goes (exec (.tretAbort f) s) fun t => TeamEnded s t k 5) ∧
      (s.cur.lane = none → Free s [f.dest.toNat, f.src1.toNat, x.src1.toNat] → ∀ i ∈
        [Instr.launch f, .spawn x, .await f, .exit f, .yield f, .tbar f], Goes (exec i s) fun t => TeamEnded s t k 1)) ∧
    (s.group.handler = false → s.grid.record.trapVec = 0 → s.cur.lane = none ∨ s.group.atBoundary = true →
      TeamEnded s (takeTrap s c detail planes addr) k 2)

/-- R66, R222, R225 and R227: TRET leaves handler state, restores A15 and resumes every stream where it stood, the trapped one
where TRAPPC says, a scalar one without its low two bits; TRET.park also writes the group's record into its team's save area, which
is all it writes, and frees its slot, once the pages of the record are reached (R229); ULIRET resumes the interrupted stream and
leaves interrupt state, and nothing else changes. -/
def Obligations.TrapReturn : Prop :=
  (∀ (f : SR) (s s1 : State) (ps : List PagePlace) (o : Nat) (x : Group),
      let g := s.group
      let back (h : Group) : Prop :=
        h.handler = false ∧ h.readA 15 = g.hidden.a15 ∧ (∀ n, n ≠ 15 → h.readA n = g.readA n) ∧
        h.s = g.s ∧ h.v = g.v ∧ h.q = g.q ∧ h.p = g.p ∧ h.k = g.k ∧
        h.trapcause = g.trapcause ∧ h.trappc = g.trappc ∧ h.traplanes = g.traplanes ∧ h.trapaddr = g.trapaddr ∧
        (g.hidden.split = none → h.pc = g.trappc &&& ~~~3 ∧ h.splits = g.splits.map Split.thaw ∧ SameFlags g h) ∧
        (∀ i, g.hidden.split = some i → h.pc = g.hidden.pc ∧
          (g.trappc = g.hidden.entry → h.splits = g.splits.map Split.thaw ∧ SameFlags g h) ∧
          (g.trappc ≠ g.hidden.entry → i < 4 → g.splits.length = 4 →
            (h.splitAt i).addr = BitVec.ofNat 32 (g.trappc - s.grid.record.laneBase).toNat ∧ (h.splitAt i).index = 15 ∧
            ∀ j, j < 4 → j ≠ i → h.splitAt j = (g.splitAt j).thaw))
      Free s [] → g.handler = true → g.handlerQ = [] → g.hsplit.valid = false → g.scalarOps = [] →
      Goes (exec (.tret f) s) (fun t => OnlyGroup s t ∧ back t.group ∧ t.group.status = g.status ∧
        t.group.preempt = g.preempt) ∧
      ((∀ o ∈ g.laneOps, o.write = true ∨ o.todo ≠ []) →
        (∀ c ∈ (s.teamAt g.teamKey).engine.queue, c.key = g.key → c.op = .mdrain → c.word.split = false) →
        g.frame.bind (·.evicted) = none →
        (areaMap (s.setGroup (g.leaveTrap s.grid).park) g.teamKey).records.find? (fun r => r.2.key == s.cur.key) = some (o, x) →
        areaPages s g.die true (areaAddrs ((saveBase s g.teamKey + o) % 2 ^ 56) (recordBytes x)) = (ps, none, s1) →
        Goes (exec (.tretPark f) s) fun t => back t.group ∧ t.group.status = .saved ∧ t.group.preempt = false ∧
          AreaWritten s1 t ps (saveBase s g.teamKey) o (recordBytes x) (recordParts (t.teamAt g.teamKey) t.group o) ∧
          ∀ k, k ≠ s.cur.key → Assoc.find? t.groups k = Assoc.find? s.groups k)) ∧
  (∀ (f : SR) (s : State), Free s [] → s.group.intState = true →
      exec (.uliret f) s =
        .next (s.setGroup { s.group with pc := s.group.intReturn, intState := false, wait := .none }))

/-- R82, R220 and R225: an instruction outside the mode or state that it needs traps PRIVOP: TLBINV, KEYLD and KEYDEL in
user mode, the TRETs outside handler state, ULIRET outside interrupt state. -/
def Obligations.PrivilegeTraps : Prop :=
  ∀ (f : SR) (s : State),
    let g := s.group
    Free s [f.src1.toNat, f.src2.toNat] → s.cur.lane = none → TrapsToHandler s →
    (g.priv = false → ∀ i ∈ [Instr.tlbinv f, .keyld f, .keydel f], Traps (exec i s) s 2 0 0) ∧
    (∀ i ∈ [Instr.tret f, .tretPark f, .tretAbort f], Traps (exec i s) s 2 0 0) ∧
    (g.intState = false → Traps (exec (.uliret f) s) s 2 0 0)

/-- R94, R95 and R276: APSET gives an aperture its base and its limit, saturated at 32 bits, and makes it valid; APCLR only
clears its valid bit; the frame run held with it goes; every other aperture and register is as before; a number above 15 is
illegal, and A15 outside handler state traps PRIVOP. -/
def Obligations.ApertureInstructions : Prop :=
  ∀ (f : SR) (s : State),
    let g := s.group
    let n := f.dest.toNat
    let same (t : State) : Prop :=
      t = { s with groups := t.groups, cores := t.cores } ∧
      (∀ k, k ≠ s.cur.key → Assoc.find? t.groups k = Assoc.find? s.groups k) ∧
      (∀ c, t.coreAt c = { s.coreAt c with runs := (t.coreAt c).runs }) ∧
      (∀ r, r ∈ (t.coreAt g.core).runs ↔ r ∈ (s.coreAt g.core).runs ∧ r.1 ≠ (s.cur.key, n)) ∧
      t.group.pc = g.pc + 4 ∧ (∀ m, m ≠ n → t.group.readA m = g.readA m) ∧ SameS g t.group [] ∧
      t.group.v = g.v ∧ t.group.q = g.q ∧ t.group.p = g.p ∧ SameFlags g t.group ∧ SameCsrs g t.group ∧ SameTrap g t.group
    ((n = 15 → g.handler = true) → n < 16 →
      (Free s [f.src1.toNat, f.src2.toNat] → Goes (exec (.apset f) s) fun t => same t ∧
        t.group.readA n = ⟨true, (g.readS f.src1.toNat).setWidth 56,
          if (g.readS f.src2.toNat).toNat < 2 ^ 32 then (g.readS f.src2.toNat).setWidth 32 else BitVec.allOnes 32⟩) ∧
      (Free s [] → Goes (exec (.apclr f) s) fun t => same t ∧
        t.group.readA n = { g.readA n with valid := false })) ∧
    (16 ≤ n → (Instr.apset f).wf = false ∧ (Instr.apclr f).wf = false) ∧
    (n = 15 → Free s [f.src1.toNat, f.src2.toNat] → s.cur.lane = none → TrapsToHandler s →
      Traps (exec (.apset f) s) s 2 0 0 ∧ Traps (exec (.apclr f) s) s 2 0 0)

/-- R91, R241, R292 and R293: an aligned SLD completes with its bytes read from the scratchpad window, or from memory through the
core's L1 where that may hold the page, and at their home where it may not or where the load acquires (R271); S[data] takes the
zero-extended value as its outstanding access ends. -/
def Obligations.ScalarLoad : Prop :=
  ∀ (n : BitVec 2) (f : SM) (s s' : State) (ps : List Piece),
    let g := s.group
    let d := f.data.toNat
    let bytes := 2 ^ n.toNat
    let va := (((g.readS f.base.toNat).toNat + f.off.toInt) % 2 ^ 56).toNat
    Free s [d, f.base.toNat] → va % bytes = 0 →
    (InWindow va → va % 2 ^ 32 + bytes ≤ s.team.w → Goes (exec (.sld n f) s) fun t =>
      OnlyGroup s t ∧ Moved s t 4 [] ∧
      Issued g t.group [(d, BitVec.ofNat 64 (Bits.leNat (s.team.readScratch (va % 2 ^ 32) bytes)))]) ∧
    (¬InWindow va → NoLog s → Reaches s va bytes .load ps s' → Goes (exec (.sld n f) s) fun t =>
      let v := Bits.leNat (loadPieces s' g.core ps (f.f == 1)).1
      Moved s t 4 [] ∧ SameBytes s' t ∧ Issued g t.group [(d, BitVec.ofNat 64 v)] ∧ v < 2 ^ (8 * bytes) ∧
      ∃ p, ps = [p] ∧ p.n = bytes ∧ (f.f = 1 ∨ l1Cacheable p.pa p.leaf = false → v = readNat s' p.pa bytes))

/-- R292, R293 and R272: an aligned SST writes the low bytes of S[data] to the scratchpad or to memory and to no other byte;
one whose page needs service retires into the side log, unless the page is of a device. -/
def Obligations.ScalarStore : Prop :=
  ∀ (n : BitVec 2) (f : SM) (s s' : State) (ps : List Piece) (kd level base size : Nat),
    let g := s.group
    let bytes := 2 ^ n.toNat
    let va := (((g.readS f.base.toNat).toNat + f.off.toInt) % 2 ^ 56).toNat
    let data := Bits.leBytes bytes (g.readS f.data.toNat).toNat
    let kind : AccKind := .store data
    Free s [f.data.toNat, f.base.toNat] → va % bytes = 0 →
    (InWindow va → va % 2 ^ 32 + bytes ≤ s.team.w → s.team.compressed (va % 2 ^ 32) bytes = false → Goes (exec (.sst n f) s) fun t =>
      Moved s t 4 [] ∧ t.mem = s.mem ∧ t.team = { s.team with scratch := t.team.scratch } ∧
      ∀ o, t.team.readScratch o 1 =
        if va % 2 ^ 32 ≤ o ∧ o < va % 2 ^ 32 + bytes then (data.drop (o - va % 2 ^ 32)).take 1 else s.team.readScratch o 1) ∧
    (¬InWindow va → NoLog s → checkAcc s g.core ⟨0, 0, va, bytes, kind, false⟩ = (.ok ps, s') →
      refusedPieces s' kind ps = false → Goes (exec (.sst n f) s) fun t =>
      Moved s t 4 [] ∧ ∃ p, ps = [p] ∧ p.n = bytes ∧ readBytes t p.pa bytes = data ∧ SameBytesBut s' t p.pa bytes) ∧
    (¬InWindow va → NoLog s →
      checkAcc s g.core ⟨0, 0, va, bytes, kind, false⟩ = (.service kd level base size, s') →
      deviceTyped s va = false → Goes (exec (.sst n f) s) fun t =>
      Moved s t 4 [] ∧ SameBytes s' t ∧ ∃ e : SideEntry, (t.coreAt g.core).sideLog = [e] ∧ e.key = s.cur.key ∧
      e.acc = ⟨0, 0, va, bytes, kind, false⟩)

/-- R266, R290 and R294 (SCAS of 4 bytes as log entry 75 reads it: the low halves of its registers): SATOM and SCAS complete: they read the old value, at its home unless the page's atomics are performed in
L1, leave the operation's result in its place and nowhere else, and return the old value to their destinations. R289 and R294:
what an atomic of an integer operation leaves, in arithmetic of its width. -/
def Obligations.ScalarAtomics : Prop :=
  (∀ (f : SR) (s s' : State) (ps : List Piece),
      let g := s.group
      let fn := f.fn.toNat
      let va := (g.readS f.src1.toNat).toNat % 2 ^ 56
      let d := f.dest.toNat
      let m := f.src2.toNat
      let old := Bits.leNat (rmwRead s' g.core ps (f.fn.getLsbD 4)).1
      let effect (t : State) (bytes : Nat) (op : RmwOp) (x comparand : Nat) : Prop :=
        Moved s t 4 [] ∧ ∃ p, ps = [p] ∧ p.n = bytes ∧ old < 2 ^ (8 * bytes) ∧
        (atomicInL1 p.pa p.leaf = false → old = readNat s' p.pa bytes) ∧
        readNat t p.pa bytes = rmwResult op bytes old x comparand % 2 ^ (8 * bytes) ∧ SameBytesBut s' t p.pa bytes
      ¬InWindow va → NoLog s →
      (∀ bytes, bytes = (if f.fn.getLsbD 6 then 4 else 8) → va % bytes = 0 → Free s [d, f.src1.toNat, m] →
        Reaches s va bytes (.rmw (satomOp fn) ((g.readS m).toNat % 2 ^ (8 * bytes)) 0) ps s' →
        Goes (exec (.satom f) s) fun t => effect t bytes (satomOp fn) ((g.readS m).toNat % 2 ^ (8 * bytes)) 0 ∧
          Issued g t.group [(d, BitVec.ofNat 64 old)]) ∧
      (f.fn.getLsbD 3 = false → ∀ bytes, bytes = (if f.fn.getLsbD 6 then 4 else 8) → va % bytes = 0 →
        Free s [d, f.src1.toNat, m] →
        Reaches s va bytes (.rmw .cas ((g.readS m).toNat % 2 ^ (8 * bytes)) ((g.readS d).toNat % 2 ^ (8 * bytes))) ps s' →
        Goes (exec (.scas f) s) fun t =>
          effect t bytes .cas ((g.readS m).toNat % 2 ^ (8 * bytes)) ((g.readS d).toNat % 2 ^ (8 * bytes)) ∧
          Issued g t.group [(d, BitVec.ofNat 64 old)]) ∧
      (f.fn.getLsbD 3 = true → va % 16 = 0 → Free s [d, f.src1.toNat, m, d + 1, m + 1] →
        let x := (g.readS m).toNat + 2 ^ 64 * (g.readS (m + 1)).toNat
        let y := (g.readS d).toNat + 2 ^ 64 * (g.readS (d + 1)).toNat
        Reaches s va 16 (.rmw .cas x y) ps s' →
        Goes (exec (.scas f) s) fun t => effect t 16 .cas x y ∧
          Issued g t.group [(d, BitVec.ofNat 64 old), (d + 1, BitVec.ofNat 64 (old / 2 ^ 64))])) ∧
  (∀ (bytes : Nat) (a b c : BitVec (8 * bytes)), 0 < bytes →
      let r (op : RmwOp) : Nat := rmwResult op bytes a.toNat b.toNat c.toNat
      r .addI = (a + b).toNat ∧ r .minS = (if a.sle b then a else b).toNat ∧ r .maxS = (if b.sle a then a else b).toNat ∧
      r .minU = (if a.ule b then a else b).toNat ∧ r .maxU = (if b.ule a then a else b).toNat ∧ r .and = (a &&& b).toNat ∧
      r .or = (a ||| b).toNat ∧ r .xor = (a ^^^ b).toNat ∧ r .swap = b.toNat ∧ r .cas = (if a = c then b else a).toNat)

/-- R281, R282, R291 to R294 and R360: a misaligned scalar access traps ALIGN, one past the scratchpad SPRANGE, a store to a compressed
region SPCT, an atomic of the scratchpad window ATOMCLASS, and one that its page or device refuses PROT, ATOMCLASS or
REMOTELOST. A lane instruction of memory or of the scratchpad traps by the first row of R282 that applies to any of its lanes, with
the lanes that meet it and their lowest address. -/
def Obligations.MemoryTraps : Prop :=
  (∀ (n : BitVec 2) (f : SM) (r : SR) (s s' : State) (dev : Nat),
    let g := s.group
    let bytes := 2 ^ n.toNat
    let va := (((g.readS f.base.toNat).toNat + f.off.toInt) % 2 ^ 56).toNat
    let data := Bits.leBytes bytes (g.readS f.data.toNat).toNat
    let wa := (g.readS r.src1.toNat).toNat % 2 ^ 56
    let width := if r.fn.getLsbD 6 then 4 else 8
    let x := (g.readS r.src2.toNat).toNat % 2 ^ (8 * width)
    let kind : AccKind := .rmw (satomOp r.fn.toNat) x 0
    let quad := r.fn.getLsbD 3
    let size := if quad then 16 else width
    let word (m : Nat) : Nat := ((g.readS m).toNat + (if quad then 2 ^ 64 * (g.readS (m + 1)).toNat else 0)) % 2 ^ (8 * size)
    let swap : AccKind := .rmw .cas (word r.src2.toNat) (word r.dest.toNat)
    s.cur.lane = none → TrapsToHandler s →
    (Free s [f.data.toNat, f.base.toNat] →
      (va % bytes ≠ 0 →
        Traps (exec (.sld n f) s) s 0x13 0 (BitVec.ofNat 64 va) ∧ Traps (exec (.sst n f) s) s 0x13 0 (BitVec.ofNat 64 va)) ∧
      (va % bytes = 0 → InWindow va → s.team.w < va % 2 ^ 32 + bytes →
        Traps (exec (.sld n f) s) s 0x14 0 (BitVec.ofNat 64 (va % 2 ^ 32)) ∧
        Traps (exec (.sst n f) s) s 0x14 0 (BitVec.ofNat 64 (va % 2 ^ 32))) ∧
      (va % bytes = 0 → InWindow va → va % 2 ^ 32 + bytes ≤ s.team.w → s.team.compressed (va % 2 ^ 32) bytes = true →
        Traps (exec (.sst n f) s) s 0x15 0 (BitVec.ofNat 64 va)) ∧
      (va % bytes = 0 → ¬InWindow va → NoLog s →
        (Refused s va bytes .load .prot s' → Traps (exec (.sld n f) s) s' 0x12 0 (BitVec.ofNat 64 va)) ∧
        (Refused s va bytes .load (.lost dev) s' → Traps (exec (.sld n f) s) s' 0x19 dev (BitVec.ofNat 64 va)) ∧
        (Refused s va bytes (.store data) .prot s' → Traps (exec (.sst n f) s) s' 0x12 0 (BitVec.ofNat 64 va)) ∧
        (Refused s va bytes (.store data) (.lost dev) s' → Traps (exec (.sst n f) s) s' 0x19 dev (BitVec.ofNat 64 va)))) ∧
    (Free s [r.dest.toNat, r.src1.toNat, r.src2.toNat] →
      (wa % width ≠ 0 → Traps (exec (.satom r) s) s 0x13 0 (BitVec.ofNat 64 wa)) ∧
      (wa % width = 0 → InWindow wa → Traps (exec (.satom r) s) s 0x17 0 (BitVec.ofNat 64 wa)) ∧
      (wa % width = 0 → ¬InWindow wa → NoLog s →
        (Refused s wa width kind .prot s' → Traps (exec (.satom r) s) s' 0x12 0 (BitVec.ofNat 64 wa)) ∧
        (Refused s wa width kind .atomclass s' → Traps (exec (.satom r) s) s' 0x17 0 (BitVec.ofNat 64 wa)) ∧
        (Refused s wa width kind (.lost dev) s' → Traps (exec (.satom r) s) s' 0x19 dev (BitVec.ofNat 64 wa)))) ∧
    (Free s ([r.dest.toNat, r.src1.toNat, r.src2.toNat] ++ if quad then [r.dest.toNat + 1, r.src2.toNat + 1] else []) →
      (wa % size ≠ 0 → Traps (exec (.scas r) s) s 0x13 0 (BitVec.ofNat 64 wa)) ∧
      (wa % size = 0 → InWindow wa → Traps (exec (.scas r) s) s 0x17 0 (BitVec.ofNat 64 wa)) ∧
      (wa % size = 0 → ¬InWindow wa → NoLog s →
        (Refused s wa size swap .prot s' → Traps (exec (.scas r) s) s' 0x12 0 (BitVec.ofNat 64 wa)) ∧
        (Refused s wa size swap .atomclass s' → Traps (exec (.scas r) s) s' 0x17 0 (BitVec.ofNat 64 wa)) ∧
        (Refused s wa size swap (.lost dev) s' → Traps (exec (.scas r) s) s' 0x19 dev (BitVec.ofNat 64 wa))))) ∧
  (∀ (w : LaneWord) (s s' : State) (l : List (Acc × Verdict)),
    let c := laneOf s w
    let m := memFn w
    let q := scaleFn w
    let at_ := atomFn w
    let op := atomOp at_.op w.ty.toNat (rndFtz c.seen.rnd)
    let loads (va : Nat → Nat) := c.accesses c.planes (sizeBytes m.size) true va fun _ _ => .load
    let stores (va : Nat → Nat) := c.accesses c.planes (sizeBytes m.size) false va fun k n =>
      .store (Bits.leBytes (sizeBytes m.size) (c.data w.srcA m.size k n))
    let scales (k : Nat) (comp : Bool) : AccKind :=
      .store (Bits.leBytes q.nb (Bits.field (c.g.readQ k w.srcA.toNat).toNat (if comp then 128 else 0) (8 * q.nb)))
    let atoms (returns : Bool) := c.accesses (if op.tangent then c.planes else [0]) (sizeBytes at_.size) returns (c.apAddr at_)
      fun k n => .rmw op (c.data w.srcA at_.size k n) 0
    let cas := c.accesses [0] (sizeBytes m.size) true (c.apAddr m) fun _ n =>
      .rmw .cas (c.data w.srcC m.size 0 n) (c.data w.srcA m.size 0 n)
    let plain (j : Instr) (ap : Option Nat) (aligned : Bool) (accs : List Acc) : Prop :=
      LongStarts s j w ap → LaneMemoryTraps s s' j c ap false aligned accs l
    let whole (j : Instr) (accs : List Acc) : Prop :=
      LongStarts s j w (some q.ap) → LaneMemoryTraps s s' j c (some q.ap) true false accs l
    s.cur.lane = some c.i → TrapsToHandler s →
    plain (.ld w) (some m.ap) (m.size != 5) (loads (c.apAddr m)) ∧ plain (.ldx w) none (m.size != 5) (loads (c.pairAddr m)) ∧
    plain (.st w) (some m.ap) (m.size != 5) (stores (c.apAddr m)) ∧ plain (.stx w) none (m.size != 5) (stores (c.pairAddr m)) ∧
    plain (.atom w) (some at_.ap) true (atoms true) ∧ plain (.ared w) (some at_.ap) true (atoms false) ∧
    plain (.acas w) (some m.ap) true cas ∧
    whole (.ldq w) (c.scaleAccesses q true fun _ _ => .load) ∧ whole (.stq w) (c.scaleAccesses q false scales) ∧
    (LongStarts s (.lds w) w none → LaneScratchTraps s (.lds w) c m false) ∧
    (LongStarts s (.sts w) w none → LaneScratchTraps s (.sts w) c m true))

/-- R295 to R298 and R373: WAITA, once the group's stores have been performed, returns the count of dropped stores and clears it;
PREF changes no byte and no register whatever its address; TLBINV, once the core's stores have been, drops translations on every
die and in every core and empties its own core's L1; KEYLD loads a key slot and KEYDEL clears it; SHPINV drops records. -/
def Obligations.MaintenanceInstructions : Prop :=
  ∀ (f : SR) (m : SM) (s s' : State) (ps : List Piece),
    let g := s.group
    let va := (g.readS f.src1.toNat).toNat % 2 ^ 56
    let slot := g.keysel.toNat
    (accessesOut s s.cur.key = false → Free s [f.dest.toNat] → Goes (exec (.waita f) s) fun t =>
      OnlyGroup s t ∧ Moved s t 4 [f.dest.toNat] ∧ t.group.dropped = 0 ∧
      t.group.readS f.dest.toNat = if f.dest = 0 then 0 else g.dropped.setWidth 64) ∧
    (Free s [m.base.toNat] → Goes (exec (.pref m) s) fun t => Moved s t 4 [] ∧ t.mem = s.mem) ∧
    (accessesOut s s.cur.key = false → Free s [f.src1.toNat] → Goes (exec (.shpinv f) s) fun t =>
      Moved s t 4 [] ∧ t.mem = s.mem ∧ ∀ d, d < 4 → ∀ e, e ∈ (t.dieAt d).shapes ↔ e ∈ (s.dieAt d).shapes ∧
        ¬(e.grid = g.grid ∧ (f.fn = 1 ∨ e.index = (g.readS f.src1.toNat).toNat / 2 ^ 48))) ∧
    (g.priv = true →
      (Free s [f.src1.toNat] → drained s g.core = true → Goes (exec (.tlbinv f) s) fun t =>
        let stays (e : TlbEntry) : Prop := f.fn ≠ 1 ∧ ¬(e.base ≤ va ∧ va < e.base + e.size)
        Moved s t 4 [] ∧ t.mem = s.mem ∧ (t.coreAt g.core).l1 = [] ∧
        (∀ d, d < 4 → ∀ e, e ∈ (t.dieAt d).tlb ↔ e ∈ (s.dieAt d).tlb ∧ stays e) ∧
        ∀ n e, e ∈ (t.coreAt n).tlb ↔ e ∈ (s.coreAt n).tlb ∧ stays e) ∧
      (Free s [f.src1.toNat] → slot ≠ 0 → va % 64 = 0 → NoLog s → Reaches s va 64 .load ps s' →
        (∀ p ∈ ps, spaceOf p.pa < 2) → Goes (exec (.keyld f) s) fun t => Moved s t 4 [] ∧ SameBytes s' t ∧
          (∀ k, Assoc.find? t.keys slot = some k →
            k.key = BitVec.ofNat 512 (Bits.leNat (loadPieces s' g.core ps false).1)) ∧
          (Assoc.find? t.keys slot).isSome = true ∧ ∀ j, j ≠ slot → Assoc.find? t.keys j = Assoc.find? s.keys j) ∧
      (Free s [] → slot ≠ 0 → (∀ k, Assoc.find? s.keys slot = some k → k.flight = 0) → Goes (exec (.keydel f) s) fun t =>
        Moved s t 4 [] ∧ t.mem = s.mem ∧ Assoc.find? t.keys slot = none ∧
        ∀ j, j ≠ slot → Assoc.find? t.keys j = Assoc.find? s.keys j))

/-- R366, R369 and R372: SHPLD returns 0 and caches the record when no check fails, and else 2^63 plus the lowest reason and
leaves it uncached; reason 2 is an index beyond the table. -/
def Obligations.ShapeLoad : Prop :=
  ∀ (f : SR) (s s' : State) (ps : List Piece),
    let g := s.group
    let i := (g.readS f.src1.toNat).toNat / 2 ^ 48
    let r := BitVec.ofNat 512 (Bits.leNat (ps.flatMap fun p => readBytes s' p.pa p.n))
    let returns (t : State) (v : Nat) : Prop :=
      Moved s t 4 [f.dest.toNat] ∧ t.group.readS f.dest.toNat = if f.dest = 0 then 0 else BitVec.ofNat 64 v
    Free s [f.dest.toNat, f.src1.toNat] →
    (s.grid.record.shapes ≤ i → Goes (exec (.shpld f) s) fun t => OnlyGroup s t ∧ returns t (2 ^ 63 + 2)) ∧
    (i < s.grid.record.shapes → NoLog s → Reaches s ((s.grid.record.shapeBase.toNat + 64 * i) % 2 ^ 56) 64 .load ps s' →
      Goes (exec (.shpld f) s) fun t => SameBytes s' t ∧
        (shapeReason r = 0 → returns t 0 ∧ (t.dieAt g.die).cachedShape g.grid i = some r) ∧
        (shapeReason r ≠ 0 → returns t (2 ^ 63 + shapeReason r) ∧ (t.dieAt g.die).cachedShape g.grid i = none))

/-- R382 to R390: CRD returns a counter, CSET and CADD return it and leave the operand or the sum; no other dependence
counter, no byte and no other register changes. The non-finite count saturates at both ends. R386 to R391: CRD, CSET and
CADD act on the performance counters of the group's core, but for the free counts of events 4 and 5, and on the status
counters of its die, which only system mode writes, the sum clamped; PCFG gives a performance counter its event and filter and the
count 0. CSET and CADD of a status counter in user mode trap PRIVOP; then an index beyond its class traps MXDESC with reason 4; so
does PCFG's, after reason 1 for a configuration that is no event and filter. -/
def Obligations.CounterInstructions : Prop :=
  (∀ (f : SR) (s : State),
      let g := s.group
      let i := (g.readS f.src1.toNat).toNat
      let x := g.readS f.src2.toNat
      let d := f.dest.toNat
      let nf := s.grid.nfcount
      let returns (t : State) (v : Word) : Prop :=
        Moved s t 4 [d] ∧ t.mem = s.mem ∧ t.group.readS d = if d = 0 then 0 else v
      (Free s [d, f.src1.toNat, f.src2.toNat] → NoLog s →
        (f.fn.toNat % 4 = 0 → i < 256 →
          Goes (exec (.crd f) s) (fun t => returns t (s.depCtr i) ∧ ∀ j, t.depCtr j = s.depCtr j) ∧
          Goes (exec (.cset f) s) (fun t => returns t (s.depCtr i) ∧ ∀ j, t.depCtr j = if j = i then x else s.depCtr j) ∧
          Goes (exec (.cadd f) s) (fun t => returns t (s.depCtr i) ∧
            ∀ j, t.depCtr j = if j = i then s.depCtr i + x else s.depCtr j)) ∧
        (f.fn.toNat % 4 = 1 → i = 0 → (Assoc.find? s.grids g.grid).isSome = true →
          Goes (exec (.crd f) s) (fun t => returns t (nf.setWidth 64) ∧ (t.gridAt g.grid).nfcount = nf) ∧
          Goes (exec (.cset f) s) (fun t => returns t (nf.setWidth 64) ∧ (t.gridAt g.grid).nfcount = x.setWidth 32) ∧
          Goes (exec (.cadd f) s) (fun t => returns t (nf.setWidth 64) ∧
            (t.gridAt g.grid).nfcount = BitVec.ofInt 32 (max 0 (min ((nf.toNat : Int) + x.toInt) (2 ^ 32 - 1))))))) ∧
  (∀ (f : SR) (s : State),
      let g := s.group
      let i := (g.readS f.src1.toNat).toNat
      let x := g.readS f.src2.toNat
      let d := f.dest.toNat
      let p := s.perfAt g.core i
      let returns (t : State) (v : Word) : Prop :=
        Moved s t 4 [d] ∧ t.mem = s.mem ∧ t.group.readS d = if d = 0 then 0 else v
      let perf (t : State) (v : Perf) : Prop := ∀ j, t.perfAt g.core j = if j = i then v else s.perfAt g.core j
      (Free s [d, f.src1.toNat, f.src2.toNat] → NoLog s →
        (f.fn.toNat % 4 = 2 → i < 8 →
          Goes (exec (.crd f) s) (fun t => returns t p.count ∧ perf t p) ∧
          Goes (exec (.cset f) s) (fun t => returns t p.count ∧ perf t { p with count := x }) ∧
          Goes (exec (.cadd f) s) (fun t => returns t p.count ∧ perf t { p with count := p.count + x })) ∧
        (f.fn.toNat % 4 = 3 → i < 32 → Goes (exec (.crd f) s) fun t => returns t (statusValue s g i)) ∧
        (f.fn.toNat % 4 = 3 → i < 9 → g.priv = true → Goes (exec (.cset f) s) fun t =>
          returns t (statusValue s g i) ∧ statusValue t g i = (x.setWidth 32).setWidth 64 ∧
          ∀ j, j ≠ i → statusValue t g j = statusValue s g j) ∧
        (f.fn.toNat % 4 = 3 → i < 9 → g.priv = true → Goes (exec (.cadd f) s) fun t =>
          returns t (statusValue s g i) ∧
          statusValue t g i = BitVec.ofInt 64 (max 0 (min (((statusValue s g i).toNat : Int) + x.toInt) (2 ^ 32 - 1))) ∧
          ∀ j, j ≠ i → statusValue t g j = statusValue s g j)) ∧
      (Free s [f.src1.toNat, f.src2.toNat] → i < 8 → x.toNat < 512 → x.toNat % 256 < 11 →
        Goes (exec (.pcfg f) s) fun t => Moved s t 4 [] ∧ t.mem = s.mem ∧
          perf t ⟨x.toNat % 256, x.getLsbD 8, g.grid, 0, s.cycle.toNat + 16⟩)) ∧
  (∀ (f : SR) (s : State),
      let g := s.group
      let i := (g.readS f.src1.toNat).toNat
      let x := g.readS f.src2.toNat
      let class_ := f.fn.toNat % 4
      let beyond (stat : Nat) : Prop := (class_ = 0 ∧ 256 ≤ i) ∨ (class_ = 1 ∧ i ≠ 0) ∨ (class_ = 2 ∧ 8 ≤ i) ∨ (class_ = 3 ∧ stat ≤ i)
      s.cur.lane = none → TrapsToHandler s →
      (Free s [f.dest.toNat, f.src1.toNat, f.src2.toNat] →
        (beyond 32 → Traps (exec (.crd f) s) s 7 4 0) ∧
        (class_ = 3 → g.priv = false → Traps (exec (.cset f) s) s 2 0 0 ∧ Traps (exec (.cadd f) s) s 2 0 0) ∧
        (class_ ≠ 3 ∨ g.priv = true → beyond 9 → Traps (exec (.cset f) s) s 7 4 0 ∧ Traps (exec (.cadd f) s) s 7 4 0)) ∧
      (Free s [f.src1.toNat, f.src2.toNat] →
        (512 ≤ x.toNat ∨ 11 ≤ x.toNat % 256 → Traps (exec (.pcfg f) s) s 7 1 0) ∧
        (x.toNat < 512 → x.toNat % 256 < 11 → 8 ≤ i → Traps (exec (.pcfg f) s) s 7 4 0)))

/-- R271, R300, R327 and R328: LAUNCH of a record that no check refuses, once the core's stores have been performed, creates a grid,
returns its number and counts a child; a record that checks refuse is turned away with 2^63 plus a reason, and no grid is
created. That the reason is the lowest that applies, but for reason 14 of a device that has lost a link, is log entry 35. -/
def Obligations.GridLaunch : Prop :=
  ∀ (f : SR) (s s' : State) (bs : List Byte),
    let g := s.group
    let d := f.dest.toNat
    let r := recordOfBytes bs
    let reasons := launchReasons s' bs (!g.priv) (s'.gridAt g.grid).priority
    Free s [d, f.src1.toNat] → g.handler = false →
    Structure s ((g.readS f.src1.toNat).toNat % 2 ^ 56) 256 64 bs s' →
    (reasons = [] → gridsWaiting s' (queueDie r.dies g.die) < 64 → launchHeld s' = false → Room s none true →
      drained s' g.core = true → Goes (exec (.launch f) s) fun t => Moved s t 4 [d] ∧ SameBytes s' t ∧
        t.group.readS d = (if d = 0 then 0 else BitVec.ofNat 64 s'.freeGrid) ∧ s'.freeGrid < 2 ^ 32 ∧
        t.group.children = g.children + 1 ∧
        ∃ x, Assoc.find? t.grids s'.freeGrid = some x ∧ x.record = r ∧ x.launcher = some g.key ∧ x.priority = r.priority ∧
          x.entered = false ∧ x.nextTeam = 0 ∧ x.nfcount = 0) ∧
    (∀ n rest, reasons = n :: rest → Goes (exec (.launch f) s) fun t => Moved s t 4 [d] ∧ SameBytes s' t ∧
      t.group.readS d = (if d = 0 then 0 else BitVec.ofNat 64 (2 ^ 63 + n)) ∧ t.grids = s'.grids ∧
      t.group.children = g.children)

/-- R26, R27, R90, R100 and R330: SPAWN creates as many children as it names, numbered from the grid's counter, with the
parent's role and the argument in S1 and the index in S2, and the parent goes on. -/
def Obligations.SpawnCreatesChildren : Prop :=
  ∀ (f : SX) (s : State),
    let g := s.group
    let n := f.fn.toNat % 16 + 1
    let first := s.grid.children
    Free s [f.src1.toNat] → g.handler = false → g.children + n ≤ 65535 → s.cur.key = g.key →
    (Assoc.find? s.groups g.key).isSome = true → (Assoc.find? s.grids g.grid).isSome = true →
    (∀ i, i < n → first + i ≠ g.serial) →
    Goes (exec (.spawn f) s) fun t =>
      t.mem = s.mem ∧ t.group.pc = g.pc + 8 ∧ SameS g t.group [] ∧ SameLanes g t.group ∧ SameFlags g t.group ∧
      SameCsrs g t.group ∧ SameTrap g t.group ∧ t.group.children = g.children + n ∧
      (t.gridAt g.grid).children = first + n ∧
      ∀ i, i < n → ∃ c, Assoc.find? t.groups (keyOf g.grid (first + i)) = some c ∧
        c.gid = BitVec.ofNat 32 (first + i) ∧ c.parent = some g.key ∧ c.child = true ∧ c.role = g.role ∧ c.launchIdx = i ∧
        c.pc = s.grid.record.scalarBase + f.imm.setWidth 56 ∧ c.readS 1 = g.readS f.src1.toNat ∧
        c.readS 2 = BitVec.ofNat 64 i ∧ c.readS 3 = g.readS 3 ∧ c.priv = g.priv ∧ c.core = g.core ∧ c.alloc = g.alloc

/-- R333 to R336: with no child left AWAIT goes on; EXIT with nothing outstanding retires the group, and its parent counts one child
less; YIELD goes on behind the scalar streams of its quadrant that were candidates beside it; TBAR goes on with the last
participant's arrival, and else waits, and a spawned child's traps ILLOP. -/
def Obligations.JoinAndBarrier : Prop :=
  ∀ (f : SR) (s : State),
    let g := s.group
    let here := s.setGroup { g with arrived := true }
    let all := ∀ p ∈ participants here g.teamKey, g.barrier < p.2.barrier ∨ (p.2.barrier = g.barrier ∧ p.2.arrived = true)
    Free s [] → g.handler = false →
    (g.children = 0 →
      Goes (exec (.await f) s) (fun t => Moved s t 4 [] ∧ t.mem = s.mem ∧ t.group.children = 0) ∧
      (g.laneQ = [] → g.laneOps = [] → g.busy s = false → g.enginesOut s = false → accessesOut s g.key = false →
        Goes (exec (.exit f) s) fun t => Assoc.find? t.groups g.key = none ∧ t.mem = s.mem ∧
          (∀ k, k ≠ g.key → g.parent ≠ some k → Assoc.find? t.groups k = Assoc.find? s.groups k) ∧
          ∀ k, k ≠ g.key → g.parent = some k → (t.groupAt k).children = (s.groupAt k).children - 1)) ∧
    Goes (exec (.yield f) s) (fun t => OnlyGroup s t ∧ Moved s t 4 [] ∧ t.group.hold = s.ready.filter fun c =>
      c.lane.isNone && c.key != g.key && (s.groupAt c.key).core == g.core && (s.groupAt c.key).slot % 4 == g.slot % 4) ∧
    (g.child = false → all → Goes (exec (.tbar f) s) fun t =>
      OnlyGroup s t ∧ Moved s t 4 [] ∧ t.group.barrier = g.barrier + 1 ∧ t.group.arrived = false) ∧
    (g.child = false → ¬all → exec (.tbar f) s = .next (s.setGroup { g with arrived := true, wait := .barrier })) ∧
    (g.child = true → s.cur.lane = none → TrapsToHandler s → Traps (exec (.tbar f) s) s 1 0 0)

/-- R313, R314, R337 and R338: RPUSH and RPOP whose checks pass claim the ring's producer or consumer position and go on
with their transfer outstanding; RWAIT returns the count of slots whose turn has come, once it is not 0. -/
def Obligations.RingInstructions : Prop :=
  ∀ (f : SR) (s : State) (x : Ring),
    let g := s.group
    let o := (g.readS f.src1.toNat).toNat
    let c := (g.readS f.src2.toNat).toNat
    let r := f.dest.toNat
    let flag := fnFlag f.fn
    let op (push : Bool) (pos : Nat) : RingOp := ⟨s.team.nextOp, g.key, flag, push, r, pos, o, c, g.tanw⟩
    (Free s [f.src1.toNat, f.src2.toNat] → s.team.ring r = some x → (g.tanw + 1) * c ≤ x.size → c ≠ 0 → c % 16 = 0 →
      o % 16 = 0 → o < 2 ^ 32 → o + c ≤ s.team.w → Room s flag false →
      Goes (exec (.rpush f) s) (fun t => Accepted s t flag false ∧ t.mem = s.mem ∧
        t.team.ringOps = s.team.ringOps ++ [op true x.p] ∧
        t.team.ring r = some { x with p := x.p + 1, pushOut := x.pushOut ++ [x.p] } ∧
        ∀ q, q ≠ r → t.team.ring q = s.team.ring q) ∧
      (s.team.compressed o c = false → Goes (exec (.rpop f) s) fun t => Accepted s t flag false ∧ t.mem = s.mem ∧
        t.team.ringOps = s.team.ringOps ++ [op false x.c] ∧
        t.team.ring r = some { x with c := x.c + 1, popOut := x.popOut ++ [x.c] } ∧
        ∀ q, q ≠ r → t.team.ring q = s.team.ring q)) ∧
    (Free s [f.dest.toNat] → s.team.ring f.src1.toNat = some x → x.count (f.fn.getLsbD 0) ≠ 0 →
      exec (.rwait f) s = .next (wrote s f.dest.toNat (BitVec.ofNat 64 (x.count (f.fn.getLsbD 0))) 4))

/-- R271, R316, R323, R332, R339, R345 and R348: CPY, GACC and COLL whose structures are readable and whose checks pass are accepted
once the core's stores have been performed: the command joins its queue, is an engine child, and raises its flag. -/
def Obligations.EngineCommandsAccepted : Prop :=
  ∀ (f : SR) (s s1 s2 s3 : State) (bs : List Byte) (r1 r2 : Option (BitVec 512)),
    let g := s.group
    let va := (g.readS f.src1.toNat).toNat % 2 ^ 56
    let d := BitVec.ofNat 512 (Bits.leNat bs)
    let flag := fnFlag f.fn
    let src := copyEnd d 0
    let dst := copyEnd d 1
    let x := copyDesc d
    let h := g.readS f.dest.toNat
    let ringed := f.fn.getLsbD 0
    let off : Word := if ringed then 0 else g.readS f.src1.toNat &&& 0xFFFFFFFF
    let queued (t : State) (before : State) (op : TransitOp) (q1 q2 : Option (BitVec 512)) : Prop :=
      ∃ c : TransitCmd, (t.coreAt g.core).transit = (before.coreAt g.core).transit ++ [c] ∧ c.op = op ∧ c.key = g.key ∧
        c.flag = flag ∧ c.started = false ∧ c.srcRec = q1.getD 0 ∧ c.dstRec = q2.getD 0
    (Free s [f.src1.toNat] → g.role = .copy → Structure s va 64 64 bs s1 →
      Samples s1 g (src.kind == 3) src.value r1 s2 → Samples s2 g (dst.kind == 3) dst.value r2 s3 →
      copyChecks d (s3.teamAt g.teamKey) g.tanw (shapeUsable r1 src.value x.inactive)
        (shapeUsable r2 dst.value x.inactive) = .pass →
      (s3.coreAt g.core).transit.length < 32 → Room s flag true → drained s3 g.core = true →
      Goes (exec (.cpy f) s) fun t => Accepted s t flag true ∧ SameBytes s3 t ∧ queued t s3 (.copy d) r1 r2) ∧
    (Free s [f.dest.toNat, f.src1.toNat] → Samples s g true h r1 s1 →
      gaccChecks g (s1.teamAt g.teamKey) (if ringed then some f.src1.toNat else none) off (shapeUsable r1 h false) = .pass →
      (s1.coreAt g.core).transit.length < 32 → Room s flag true → drained s1 g.core = true →
      Goes (exec (.gacc f) s) fun t => Accepted s t flag true ∧ SameBytes s1 t ∧
        queued t s1 (.gacc h off.toNat (if ringed then some f.src1.toNat else none) (f.fn.getLsbD 1)) r1 none) ∧
    (Free s [f.src1.toNat] → Structure s va 64 64 bs s1 → collReasons s1 (collDesc d) = [] → s1.colls.length < 64 →
      Room s flag true → drained s1 g.core = true →
      Goes (exec (.coll f) s) fun t => Accepted s t flag true ∧ SameBytes s1 t ∧
        ∃ c : Collective, t.colls = s1.colls ++ [c] ∧ c.desc = d ∧ c.key = g.key ∧ c.flag = flag ∧ c.id = s1.nextColl ∧
          c.seq = Assoc.get 0 s1.collSeq (collDesc d).group ∧
          Assoc.get 0 t.collSeq (collDesc d).group = c.seq + 1)

/-- R317, R347, R350 and R351: STRM whose program and shape pass the static checks joins the coelostat's queue; COMMIT
returns 1 and flips its record's bank bit when the grid has counted no non-finite result, and else returns 0 and leaves it.
-/
def Obligations.StreamAndCommit : Prop :=
  ∀ (f : SR) (s s1 s2 : State) (prog : List (BitVec 32)) (r : Option (BitVec 512)) (ps : List Piece) (draws : Nat),
    let g := s.group
    let flag := fnFlag f.fn
    let va := (g.readS f.src1.toNat).toNat % 2 ^ 56
    let m := g.readS f.src2.toNat
    let h := g.readS f.src1.toNat
    let at_ := (shapeAddr (s1.gridAt g.grid) (h.toNat / 2 ^ 48) + 8) % 2 ^ 56
    let clean := (s2.gridAt g.grid).nfcount = 0
    (Free s [f.src1.toNat, f.src2.toNat] → va % 4 = 0 → (∀ k, readProgram s g va 64 [] k = k prog s1) →
      Samples s1 g true m r s2 →
      checkProgram prog (sampleOf s2 g) (shapeUsable r m false) (s2.teamAt g.teamKey) = ([], draws) →
      (s2.coreAt g.core).strmQ.length < 4 → Room s flag false → drained s2 g.core = true →
      Goes (exec (.strm f) s) fun t => Accepted s t flag false ∧ SameBytes s2 t ∧
        t.group.draws = g.draws + BitVec.ofNat 32 draws ∧
        ∃ c : StrmCmd, (t.coreAt g.core).strmQ = (s2.coreAt g.core).strmQ ++ [c] ∧ c.key = g.key ∧ c.prog = prog ∧
          c.handle = m ∧ c.flag = flag ∧ c.mpc = 0 ∧ c.steps = 0) ∧
    (Free s [f.dest.toNat, f.src1.toNat] → g.cring.toNat % 16 = 0 → Samples s g true h r s1 → commitUsable r h = true → NoLog s1 →
      checkAcc s1 g.core ⟨0, 0, at_, 8, .rmw .xor 0 0, true⟩ = (.ok ps, s2) → (∀ p ∈ ps, leafClass p.leaf = 1) →
      Goes (exec (.commit f) s) fun t => Moved s t 4 [f.dest.toNat] ∧
        t.group.readS f.dest.toNat = (if f.dest = 0 then 0 else if clean then 1 else 0) ∧
        (¬clean → SameBytes s2 t) ∧
        (∀ p rest, clean → ps = p :: rest → SameBytesBut s2 t (p.pa + 7) 1 ∧
          readByte t (p.pa + 7) = readByte s2 (p.pa + 7) ^^^ 0x40))

/-- R189 to R199 and R204: MLD, MMA, MMA2 and MVNB whose control word, tiles and operands pass the checks of R195 join the
engine's queue, with their flag raised; a command with a handle operand is an engine child. -/
def Obligations.MatrixProductsAccepted : Prop :=
  ∀ (f : SR) (s s1 s2 : State) (r1 r2 : Option (BitVec 512)),
    let g := s.group
    let c := Ctl.ofWord (g.readS f.src2.toNat)
    let flag := fnFlag f.fn
    let t1 := s1.teamAt g.teamKey
    let t2 := s2.teamAt g.teamKey
    let child := c.kind == 2
    g.role = .matrix → c.reserved = false → c.noDrain = true →
    (Free s [f.src1.toNat, f.src2.toNat] → c.noSecond = true → c.zb = 0 →
      Samples s g child (g.readS f.src1.toNat) r1 s1 → t1.engine.queue.length < 16 → Room s flag child →
      drained s1 g.core = true →
      (c.za = 0 → c.rows = 127 → OperandFits t1 (mldOperand g f c) r1 → Goes (exec (.mld f) s) fun t =>
        Accepted s t flag child ∧ SameBytes s1 t ∧ Enqueued s t f (.mld (f.fn.getLsbD 0)) child r1 none) ∧
      (c.za < t1.tiles → c.m ≤ 128 → OperandFits t1 (productOperand g f c [0, 1, 2, 3]) r1 →
        (c.kind = 3 → c.rows = 0 ∧ t1.engine.accBypass = true) →
        (t1.engine.accRed = true → (if c.kind = 3 then t1.engine.accRows else c.m) ≤ 64) → Goes (exec (.mma f) s) fun t =>
        Accepted s t flag child ∧ SameBytes s1 t ∧ Enqueued s t f .mma child r1 none)) ∧
    (Free s [f.dest.toNat, f.src1.toNat, f.src2.toNat] →
      (Samples s g child (g.readS f.src1.toNat) r1 s1 → Samples s1 g (c.kind2 == 2) (g.readS f.dest.toNat) r2 s2 →
        t2.engine.queue.length < 16 → Room s flag (child || c.kind2 == 2) → drained s2 g.core = true → c.za < t2.tiles → c.zb < t2.tiles → c.za ≠ c.zb →
        c.m ≤ 128 → t2.engine.accRed = false → OperandFits t2 (productOperand g f c [0, 1, 2]) r1 →
        OperandFits t2 (secondOperand g f c) r2 → Goes (exec (.mma2 f) s) fun t =>
        Accepted s t flag (child || c.kind2 == 2) ∧ SameBytes s2 t ∧ Enqueued s t f .mma2 (child || c.kind2 == 2) r1 r2) ∧
      (∀ sh, Samples s g true (g.readS f.dest.toNat) r1 s1 → shapeUsable r1 (g.readS f.dest.toNat) false = some sh →
        nearBox sh = true → c.noSecond = true → c.zb = 0 → c.za < t1.tiles → c.m ≤ 8 → t1.engine.accRed = false →
        OperandFits t1 (nearOperand g f c (sh.bx 0)) none → t1.engine.queue.length < 16 → Room s flag true →
        drained s1 g.core = true → Goes (exec (.mvnb f) s) fun t =>
        Accepted s t flag true ∧ SameBytes s1 t ∧ Enqueued s t f .mvnb true none r1))

/-- R200, R202, R203 and R206: MDRAIN whose checks pass, MZERO of granted tiles and MMODE join the engine's queue, and MSYNC
goes on when no matrix command of the group is left, which is an edge (R206, R271). -/
def Obligations.MatrixDrainsAccepted : Prop :=
  ∀ (f : SR) (s s1 : State) (r : Option (BitVec 512)),
    let g := s.group
    let c := Ctl.ofWord (g.readS f.src2.toNat)
    let o := drainDest g f c
    let flag := fnFlag f.fn
    let t1 := s1.teamAt g.teamKey
    let child := c.kind == 2
    let sh := shapeUsable r o.value false
    let ty := if c.kind = 2 then (sh.map (·.fmt)).getD 0 else c.fmt
    let mx := if c.kind = 2 then (∀ h, sh = some h → isMx h.fmt = true) else isMx c.fmt = true
    let red := f.fn.getLsbD 0
    g.role = .matrix →
    (Free s [f.src1.toNat, f.src2.toNat] → Samples s g child (g.readS f.src1.toNat) r s1 → c.reserved = false →
      c.noSecond = true → c.zb = 0 → (c.split = true → c.kind = 0 ∧ isMx c.fmt = true) → (c.qbase ≠ 0 → c.kind = 0 ∧ isMx c.fmt = true) →
      (c.nansat = true → mx) → c.m ≤ 128 → c.za < t1.tiles → (c.split = true → c.qbase + drainRegs c ≤ g.alloc) →
      (c.kind = 3 → t1.engine.accBypass = false) → (t1.engine.accRed = true → c.m ≤ 64) → OperandFits t1 o r →
      t1.engine.queue.length < 16 → Room s flag child → drained s1 g.core = true → Goes (exec (.mdrain f) s) fun t =>
      Accepted s t flag child ∧ SameBytes s1 t ∧ Enqueued s t f .mdrain child r none ∧
      t.group.draws = g.draws + BitVec.ofNat 32 (if ty ≠ 0 ∧ rndMode g.rnd = 6 then 16 * c.m else 0)) ∧
    (Free s [] → s.team.engine.queue.length < 16 → Room s flag false → drained s g.core = true →
      ((f.fn.getLsbD 2 = true ∨ f.fn.toNat % 4 < s.team.tiles) → Goes (exec (.mzero f) s) fun t =>
        Accepted s t flag false ∧ t.mem = s.mem ∧
        Enqueued s t f (.mzero (f.fn.getLsbD 2) (f.fn.toNat % 4)) false none none) ∧
      Goes (exec (.mmode f) s) fun t =>
        Accepted s t flag false ∧ t.mem = s.mem ∧ Enqueued s t f (.mmode red) false none none ∧
        t.team.engine.accRed = red) ∧
    (Free s [] → (∀ x ∈ s.team.engine.queue, x.key ≠ g.key) → exec (.msync f) s = .next (observeClear (movedOn s 4)))

/-- R17, R98 and R195: a matrix instruction of a group of another role, and CPY outside the copy role, trap ROLEOP; a
product or a drain on a tile that the team was not granted traps REGRANGE with the tile's index; reserved control bits trap
MXDESC with reason 1. -/
def Obligations.EngineChecksTrap : Prop :=
  ∀ (f : SR) (s : State),
    let g := s.group
    let c := Ctl.ofWord (g.readS f.src2.toNat)
    s.cur.lane = none → TrapsToHandler s → Free s [f.dest.toNat, f.src1.toNat, f.src2.toNat] →
    (g.role ≠ .matrix → ∀ i ∈ [Instr.mld f, .mma f, .mma2 f, .mdrain f, .mzero f, .mmode f, .mvnb f, .msync f],
      Traps (exec i s) s 3 0 0) ∧
    (g.role ≠ .copy → Traps (exec (.cpy f) s) s 3 0 0) ∧
    (g.role = .matrix → c.kind ≠ 2 → c.kind2 ≠ 2 →
      (s.team.tiles ≤ c.za → ∀ i ∈ [Instr.mma f, .mma2 f, .mdrain f], Traps (exec i s) s 4 c.za 0) ∧
      (f.fn.getLsbD 2 = false → s.team.tiles ≤ f.fn.toNat % 4 → Traps (exec (.mzero f) s) s 4 (f.fn.toNat % 4) 0) ∧
      (c.reserved = true → Traps (exec (.mld f) s) s 7 1 0 ∧
        (c.za < s.team.tiles → Traps (exec (.mma f) s) s 7 1 0 ∧
          (c.zb < s.team.tiles → Traps (exec (.mma2 f) s) s 7 1 0))))

/-- R350: END ends the program; XPOSE exchanges rows and columns; STEP moves a coordinate of the handle, SETC sets a counter
and LOOP counts down and jumps unless it reaches 0; ZERO clears every image; CONV rounds every element as the program sees it to
the named format and QUANT requantises each row's blocks, the tangents in RNE; PUSH claims its ring's position and queues the
images in the layout of R194. Every one but END counts one step. R350 and R351: LOAD, once
every page of the handle's box is reached, fills the buffer with one image per plane and goes on; a page that refuses ends
the program with that fault; and any micro-operation past the limit of 2^20 steps ends it with fault 0x0103. -/
def Obligations.MicroOperations : Prop :=
  (∀ (s : State) (c : StrmCmd) (fmt ring : BitVec 4) (mode : BitVec 3) (b16 nansat : BitVec 1) (coord ctr : BitVec 2)
      (delta n : BitVec 16) (target : BitVec 6),
      let k := s.coreAt s.core
      let runs (t : State) (d : StrmCmd) : Prop :=
        (t.coreAt s.core).strm = some d ∧ d.steps = c.steps + 1 ∧ d.key = c.key ∧ d.prog = c.prog ∧ d.life = c.life
      let value (r : Rounding) (x : Tile) (n : Nat) : Sys2Proof.Num.XVal :=
        let v := (seenValues c.flip x).getD n Sys2Proof.Num.XVal.zero
        ((Sys2Proof.Num.fmtOfCode x.ty).map fun f => Sys2Proof.Num.flushIn f r.ftz v).getD v
      let converted (d : StrmCmd) (mode : Nat) (nansat : Bool) (p : Rounding → Tile → Tile → Prop) : Prop :=
        let r := c.sample.rounding mode nansat (c.sample.counter + BitVec.ofNat 32 c.draws)
        d.flip = false ∧ (c.buf ≠ [] → d.buf.length = c.buf.length ∧ d.draws = c.draws + r.draws ((c.buf.map Tile.size).headD 0)) ∧
        ∀ i x y, c.buf[i]? = some x → d.buf[i]? = some y → (y.rows, y.cols) = seenSize c.flip x ∧
          p (if i = 0 then r else r.tangent) x y
      MicRuns s c →
      Goes (exec .micEnd s) (fun t => MicKept s t ∧ t.teams = s.teams ∧ (t.coreAt s.core).strm = none ∧
        ∃ d, (t.coreAt s.core).strmDone = k.strmDone ++ [d] ∧ d.key = c.key ∧ d.id = c.id ∧ d.life = c.life) ∧
      Goes (exec .micXpose s) (fun t => MicKept s t ∧ t.teams = s.teams ∧ ∃ d, runs t d ∧ d.mpc = c.mpc + 1 ∧
        d.flip = !c.flip ∧ (c.buf ≠ [] → d.buf = c.buf)) ∧
      Goes (exec (.micStep coord delta) s) (fun t => MicKept s t ∧ t.teams = s.teams ∧ ∃ d, runs t d ∧ d.mpc = c.mpc + 1 ∧
        d.buf = c.buf ∧ d.l = c.l ∧ ∀ j, j < 4 → handleT d.handle j =
          if j = coord.toNat then (handleT c.handle j + delta.toNat) % 2 ^ 16 else handleT c.handle j) ∧
      Goes (exec (.micSetc ctr n) s) (fun t => MicKept s t ∧ t.teams = s.teams ∧ ∃ d, runs t d ∧ d.mpc = c.mpc + 1 ∧
        d.buf = c.buf ∧ d.handle = c.handle ∧
        ∀ j, Assoc.get 0 d.l j = if j = ctr.toNat then n else Assoc.get 0 c.l j) ∧
      Goes (exec (.micLoop ctr target) s) (fun t => MicKept s t ∧ t.teams = s.teams ∧ ∃ d, runs t d ∧ d.buf = c.buf ∧
        d.handle = c.handle ∧
        (∀ j, Assoc.get 0 d.l j = if j = ctr.toNat then Assoc.get 0 c.l j - 1 else Assoc.get 0 c.l j) ∧
        d.mpc = if Assoc.get 0 c.l ctr.toNat = 1 then c.mpc + 1 else target.toNat) ∧
      Goes (exec .micZero s) (fun t => MicKept s t ∧ t.teams = s.teams ∧ ∃ d, runs t d ∧ d.mpc = c.mpc + 1 ∧
        d.flip = c.flip ∧ (∀ x ∈ d.buf, x.codes = [] ∧ x.scales = [] ∧ x.comps = []) ∧
        (c.buf ≠ [] → d.buf.map (fun x => (x.ty, x.blk, x.rows, x.cols)) = c.buf.map fun x => (x.ty, x.blk, x.rows, x.cols))) ∧
      Goes (exec (.micConv fmt mode) s) (fun t => MicKept s t ∧ t.teams = s.teams ∧ ∃ d, runs t d ∧ d.mpc = c.mpc + 1 ∧
        (∀ x ∈ d.buf, x.ty = fmt.toNat) ∧ (fmt.toNat < 3 → converted d mode.toNat false fun r x y =>
          let f := (Sys2Proof.Num.fmtOfCode fmt.toNat).getD .fp32
          ∀ n, n < y.rows * y.cols → Assoc.get 0 y.codes n =
            Sys2Proof.Num.roundTo f (r.ftz && f.flushes) .table (r.at_ n) (value r x n))) ∧
      Goes (exec (.micQuant fmt b16 nansat mode) s) (fun t => MicKept s t ∧ t.teams = s.teams ∧ ∃ d, runs t d ∧
        d.mpc = c.mpc + 1 ∧ (∀ x ∈ d.buf, x.ty = fmt.toNat ∧ x.blk = if b16 = 1 then 16 else 32) ∧
        (3 ≤ fmt.toNat → fmt.toNat ≤ 8 → converted d mode.toNat (nansat == 1) fun r x y => ∀ b, (b + 1) * y.blk ≤ y.rows * y.cols →
          let q := Sys2Proof.Num.requantise ((List.range y.blk).map fun j => value r x (b * y.blk + j)) fmt.toNat
            ((List.range y.blk).map fun j => r.at_ (b * y.blk + j)) r.nansat
          Assoc.get 0 y.scales b = q.scale ∧ (fmt = 8 → Assoc.get 0 y.comps b = q.comp) ∧
          ∀ j, j < y.blk → b * y.blk + j < y.rows * y.cols → Assoc.get 0 y.codes (b * y.blk + j) = q.codes.getD j 0)) ∧
      Goes (exec (.micPush ring) s) (fun t => MicKept s t ∧ ∃ d o, runs t d ∧ d.mpc = c.mpc + 1 ∧
        (t.coreAt s.core).strmOut = k.strmOut ++ [o] ∧ o.key = c.key ∧ o.cmd = c.id ∧ o.ring = ring.toNat ∧
        d.bytes = c.bytes + o.data.length ∧
        (c.buf ≠ [] → d.buf = c.buf ∧ o.data = c.buf.flatMap fun x => (if c.flip then x.transposeCodes else x).linearBytes) ∧
        (∀ j, j ≠ ring.toNat → (t.teamAt (s.groupAt c.key).teamKey).ring j = (s.teamAt (s.groupAt c.key).teamKey).ring j) ∧
        ∀ x, (s.teamAt (s.groupAt c.key).teamKey).ring ring.toNat = some x → o.pos = x.p ∧
          (t.teamAt (s.groupAt c.key).teamKey).ring ring.toNat = some { x with p := x.p + 1, pushOut := x.pushOut ++ [x.p] })) ∧
  (∀ (s s' : State) (c : StrmCmd) (ps : List PagePlace) (code : BitVec 16) (va : Nat) (i : Instr) (fmt ring : BitVec 4)
      (mode : BitVec 3) (b16 nansat : BitVec 1) (coord ctr : BitVec 2) (delta n : BitVec 16) (target : BitVec 6),
      let g := s.groupAt c.key
      let sh := shapeOf c.shape
      let place := Place.mem (sh.base false)
      let addrs := place.addrs c.sample (sh.view c.handle).offsets
      let die := dieOfCore (s.teamAt g.teamKey).core
      (MicRuns s c →
        (reachAll s die sh.key false addrs = (.ok ps, s') → Goes (exec .micLoad s) fun t =>
          SameBytes s' t ∧ t.groups = s.groups ∧ ∃ d, (t.coreAt s.core).strm = some d ∧ d.mpc = c.mpc + 1 ∧
            d.steps = c.steps + 1 ∧ d.flip = false ∧ d.buf = place.tiles s' (s'.teamAt g.teamKey) ps c.sample (sh.view c.handle)) ∧
        (reachAll s die sh.key false addrs = (.fault code va, s') → Goes (exec .micLoad s) fun t =>
          SameBytes s' t ∧ t.groups = s.groups ∧ (t.coreAt s.core).strm = none ∧
          ∃ d ∈ (t.coreAt s.core).strmDone, d.key = c.key ∧ d.id = c.id ∧ d.life.fault = code ∧ d.life.addr = va)) ∧
      ((s.coreAt s.core).strm = some c → c.life.wait = none → c.life.fault = 0 → (s.coreAt s.core).strmOut.length < 4 →
        2 ^ 20 ≤ c.steps → i ∈ [Instr.micEnd, .micLoad, .micXpose, .micZero, .micConv fmt mode, .micQuant fmt b16 nansat mode,
          .micPush ring, .micStep coord delta, .micSetc ctr n, .micLoop ctr target] → Goes (exec i s) fun t =>
          MicKept s t ∧ (t.coreAt s.core).strm = none ∧ ∃ d ∈ (t.coreAt s.core).strmDone, d.key = c.key ∧ d.id = c.id ∧
            d.life.fault = 0x103))

/-- R49, R134, R136, R140 and R141: FADD, FMUL and FFMA round the exact sum, product or product-sum of their slots once,
FMIN and FMAX choose a source, and the shadows take the exact tangents of the rule. That FMIN and FMAX round stochastically, with
their draws, when RND.mode is 6 is log entry 20. -/
def Obligations.LaneFloatArithmetic : Prop :=
  ∀ (w : LaneWord) (s : State),
    let c := laneOf s w
    let a := fpIn c 0
    let b := fpIn c 1
    let d := fpIn c 2
    let da := fpTan c 0
    let db := fpTan c 1
    let dd := fpTan c 2
    let choose (isMin : Bool) (l j : Nat) (x y : Sys2Proof.Num.XVal) : Sys2Proof.Num.XVal :=
      if a l j = .nan ∨ b l j = .nan then .nan else if Sys2Proof.Num.chooseA isMin (a l j) (b l j) then x else y
    s.group.role = .vector →
    (LaneStarts s (.fadd w) w → Goes (exec (.fadd w) s) fun t => FpRule s t c (fun m l j => Sys2Proof.Num.add m.isRdn (a l j) (b l j))
      fun _ k l j => Sys2Proof.Num.sum false [da k l j, db k l j]) ∧
    (LaneStarts s (.fmul w) w → Goes (exec (.fmul w) s) fun t => FpRule s t c (fun _ l j => (a l j).mul (b l j))
      fun _ k l j => Sys2Proof.Num.sum false [(da k l j).mul (b l j), (a l j).mul (db k l j)]) ∧
    (LaneStarts s (.ffma w) w → Goes (exec (.ffma w) s) fun t => FpRule s t c
      (fun m l j => Sys2Proof.Num.add m.isRdn ((a l j).mul (b l j)) (d l j))
      fun _ k l j => Sys2Proof.Num.sum false [(da k l j).mul (b l j), (a l j).mul (db k l j), dd k l j]) ∧
    (LaneStarts s (.fmin w) w → Goes (exec (.fmin w) s) fun t => FpRule s t c
      (fun _ l j => choose true l j (a l j) (b l j)) fun _ k l j => choose true l j (da k l j) (db k l j)) ∧
    (LaneStarts s (.fmax w) w → Goes (exec (.fmax w) s) fun t => FpRule s t c
      (fun _ l j => choose false l j (a l j) (b l j)) fun _ k l j => choose false l j (da k l j) (db k l j))

/-- R144 and R145: FRND, FEXPO, FSCL and the eight functions round the named value of their slot once, and their shadows
take the derivative's value times the source's tangent. The values of the functions are the model's, of more than 200 bits with a
sticky bit (log entry 10); that FRND takes draws when RND.mode is 6 is log entry 20. -/
def Obligations.LaneFloatFunctions : Prop :=
  ∀ (w : LaneWord) (s : State),
    let c := laneOf s w
    let a := fpIn c 0
    let da := fpTan c 0
    let n := fsclScale c
    s.group.role = .vector →
    (LaneStarts s (.frnd w) w → Goes (exec (.frnd w) s) fun t => FpRule s t c (fun m l j => Sys2Proof.Num.toIntegral m (a l j))
      fun _ _ _ _ => Sys2Proof.Num.XVal.zero) ∧
    (LaneStarts s (.fexpo w) w → Goes (exec (.fexpo w) s) fun t => FpRule s t c (fun _ l j => exponentOf (a l j))
      fun _ _ _ _ => Sys2Proof.Num.XVal.zero) ∧
    (LaneStarts s (.fscl w) w → Goes (exec (.fscl w) s) fun t => FpRule s t c (fun _ l j => (a l j).scale2 (n l j))
      fun _ k l j => (da k l j).scale2 (n l j)) ∧
    (LaneStarts s (.fexp2 w) w → Goes (exec (.fexp2 w) s) fun t => FpRule s t c (fun _ l j => Sys2Proof.Real.exp2 (a l j))
      fun y k l j => (y.mul Sys2Proof.Real.ln2X).mul (da k l j)) ∧
    (LaneStarts s (.flog2 w) w → Goes (exec (.flog2 w) s) fun t => FpRule s t c (fun _ l j => Sys2Proof.Real.log2 (a l j))
      fun _ k l j => Sys2Proof.Real.div (da k l j) ((a l j).mul Sys2Proof.Real.ln2X)) ∧
    (LaneStarts s (.frcp w) w → Goes (exec (.frcp w) s) fun t => FpRule s t c (fun _ l j => Sys2Proof.Real.rcp (a l j))
      fun y k l j => ((y.mul y).mul (da k l j)).neg) ∧
    (LaneStarts s (.frsq w) w → Goes (exec (.frsq w) s) fun t => FpRule s t c (fun _ l j => Sys2Proof.Real.rsq (a l j))
      fun y k l j => ((((y.mul y).mul y).mul (da k l j)).scale2 (-1)).neg) ∧
    (LaneStarts s (.fsqrt w) w → Goes (exec (.fsqrt w) s) fun t => FpRule s t c (fun _ l j => Sys2Proof.Real.sqrt (a l j))
      fun y k l j => Sys2Proof.Real.div (da k l j) (y.scale2 1)) ∧
    (LaneStarts s (.fsin w) w → Goes (exec (.fsin w) s) fun t => FpRule s t c (fun _ l j => Sys2Proof.Real.sin (a l j))
      fun _ k l j => (Sys2Proof.Real.cos (a l j)).mul (da k l j)) ∧
    (LaneStarts s (.fcos w) w → Goes (exec (.fcos w) s) fun t => FpRule s t c (fun _ l j => Sys2Proof.Real.cos (a l j))
      fun _ k l j => ((Sys2Proof.Real.sin (a l j)).mul (da k l j)).neg) ∧
    (LaneStarts s (.ftanh w) w → Goes (exec (.ftanh w) s) fun t => FpRule s t c (fun _ l j => Sys2Proof.Real.tanh (a l j))
      fun y k l j => (Sys2Proof.Num.sum false [Sys2Proof.Num.XVal.ofInt 1, (y.mul y).neg]).mul (da k l j))

/-- R58, R136, R146 to R148: FDOT and MXDOT round the exact sum of their slots' products and C once, MXDOT with each slot times its
block scale, take four draws when the rounding is stochastic, and write the sum of the products' derivatives to their shadows; IDOT
clamps or wraps the exact integer sum. -/
def Obligations.LaneDotProducts : Prop :=
  ∀ (w : LaneWord) (s : State),
    let c := laneOf s w
    let ty := w.ty.toNat
    let e := slotsOf ty
    let cv (l : Nat) := c.fpVal .fp32 2 (c.operand w.srcC l).toNat
    let len (src : Nat) := if w.fn.getLsbD src then 16 else 32
    let mx (src l j : Nat) := mxMod c ty src (slotCode ty (Bits.lane (c.g.readV 0 (c.field src).toNat) l) j)
      (mxElem c.g ty 0 (c.field src).toNat (len src) (e * l + j))
    let dmx (src k l j : Nat) := mxTan c ty src (slotCode ty (Bits.lane (c.g.readV 0 (c.field src).toNat) l) j)
      (mxElem c.g ty 0 (c.field src).toNat (len src) (e * l + j)) (mxElem c.g ty k (c.field src).toNat (len src) (e * l + j))
    let dc (k l : Nat) := c.tanVal .fp32 2 (c.operand w.srcC l).toNat (c.shadow w.srcC k l).toNat
    let codes (x : Nat → Nat → Nat → Sys2Proof.Num.XVal) (l : Nat) : Nat × Nat :=
      let m := c.mode 1 l 0
      c.destCodes .fp32 false m
        (Sys2Proof.Num.sum m.isRdn (((List.range e).map fun j => (x 0 l j).mul (x 1 l j)) ++ [cv l]))
    let dot (t : State) (x : Nat → Nat → Nat → Sys2Proof.Num.XVal) (dx : Nat → Nat → Nat → Nat → Sys2Proof.Num.XVal) : Prop :=
      LaneOn s t c ∧ t.group.draws = (if c.modeCode = 6 then c.g.draws + 4 else c.g.draws) ∧
      LaneValues t c (fun l => BitVec.ofNat 32 (codes x l).2) fun k l => BitVec.ofNat 32 (c.tanCode .fp32 (codes x l).1
        (Sys2Proof.Num.sum false (((List.range e).flatMap fun j =>
          [(dx 0 k l j).mul (x 1 l j), (x 0 l j).mul (dx 1 k l j)]) ++ [dc k l])))
    let cty := if signedType ty then 9 else 10
    s.group.role = .vector →
    (LaneStarts s (.fdot w) w → Goes (exec (.fdot w) s) fun t => dot t (fpIn c) (fpTan c)) ∧
    (LaneStarts s (.mxdot w) w → Goes (exec (.mxdot w) s) fun t => dot t mx dmx) ∧
    (LaneStarts s (.idot w) w → Goes (exec (.idot w) s) fun t => MoveRule s t c (fun l => BitVec.ofNat 32 (Bits.wrap
      (clampTo w.clamp.toNat cty 32 (slotInt cty 32 (modInt (signedType ty) (c.negMod 2) (c.absMod 2) 32
        (c.operand w.srcC l).toNat) + ((List.range e).map fun j => c.int 0 l j * c.int 1 l j).sum)) 32)) fun _ _ => 0)

/-- R142, R143, R150, R158, R159 and R164: FCMP, ICMP, PLOP, PSET, PMOV and VOTE write their condition into the active lanes
of the destination predicate, and FCLASS, PMOV.tov and VOTE.ballot into a vector register, with tangents +0. -/
def Obligations.LanePredicates : Prop :=
  ∀ (w : LaneWord) (s : State),
    let c := laneOf s w
    let f := w.func
    let ty := w.ty.toNat
    let old (l : Nat) := (c.g.readP w.dest.toNat).getLsbD l
    let p (x : BitVec 9) (l : Nat) : Nat := if (c.g.readP x.toNat).getLsbD l then 1 else 0
    let src := c.g.readP w.srcA.toNat
    let yes := c.act &&& (if f / 4 % 2 = 1 then ~~~src else src)
    let all := yes = c.act
    s.group.role = .vector →
    (LaneStarts s (.fcmp w) w → Goes (exec (.fcmp w) s) fun t => PredRule s t c fun l =>
      combine (f / 8 % 4) (old l) (fpCompare (f % 8) (c.fpVal .fp32 0 (slotCode ty (c.operand w.srcA l) 0))
        (c.fpVal .fp32 1 (slotCode ty (c.operand w.srcB l) 0)))) ∧
    (LaneStarts s (.icmp w) w → Goes (exec (.icmp w) s) fun t => PredRule s t c fun l =>
      combine (f / 8 % 4) (old l) (intCompare (f % 8) (c.int 0 l 0) (c.int 1 l 0))) ∧
    (LaneStarts s (.plop w) w → Goes (exec (.plop w) s) fun t => PredRule s t c fun l =>
      Nat.testBit f (4 * p w.srcA l + 2 * p w.srcB l + p w.srcC l)) ∧
    (LaneStarts s (.pset w) w → Goes (exec (.pset w) s) fun t => PredRule s t c fun l =>
      if w.fn.getLsbD 23 then (c.operand w.srcA l).getLsbD l else c.operand w.srcA l != 0) ∧
    (LaneStarts s (.pmov w) w → Goes (exec (.pmov w) s) fun t =>
      if w.fn.getLsbD 23 then MoveRule s t c (fun _ => src) fun _ _ => 0 else PredRule s t c fun l => src.getLsbD l) ∧
    (LaneStarts s (.vote w) w → Goes (exec (.vote w) s) fun t =>
      if f % 4 = 3 then MoveRule s t c (fun _ => yes) fun _ _ => 0
      else PredRule s t c fun _ => decide (if f % 4 = 0 then all else if f % 4 = 1 then yes ≠ 0 else all ∨ yes = 0)) ∧
    (LaneStarts s (.fclass w) w → Goes (exec (.fclass w) s) fun t => MoveRule s t c
      (fun l => packSlots ty fun j => classMask (laneFmt w) (slotCode ty (c.operand w.srcA l) j)) fun _ _ => 0)

/-- R149, R151 and R152: the integer lane instructions compute each slot from the exact integers of their sources, clamped
or wrapped; the bitwise ones act on whole lanes; the tangents are +0. -/
def Obligations.LaneIntegerArithmetic : Prop :=
  ∀ (w : LaneWord) (s : State),
    let c := laneOf s w
    let ty := w.ty.toNat
    let n := slotBits ty
    let a := c.int 0
    let b := c.int 1
    let x (l : Nat) := c.operand w.srcA l
    let y (l : Nat) := c.operand w.srcB l
    let plain (t : State) (f : Nat → LaneW) : Prop := MoveRule s t c f fun _ _ => 0
    s.group.role = .vector →
    (LaneStarts s (.iadd w) w → Goes (exec (.iadd w) s) fun t => IntRule s t c fun l j => a l j + b l j) ∧
    (LaneStarts s (.isub w) w → Goes (exec (.isub w) s) fun t => IntRule s t c fun l j => a l j - b l j) ∧
    (LaneStarts s (.imul w) w → Goes (exec (.imul w) s) fun t => IntRule s t c fun l j => a l j * b l j) ∧
    (LaneStarts s (.imad w) w → Goes (exec (.imad w) s) fun t => IntRule s t c fun l j => a l j * b l j + c.int 2 l j) ∧
    (LaneStarts s (.imulh w) w → Goes (exec (.imulh w) s) fun t => IntRule s t c fun l j => (a l j * b l j).fdiv (2 ^ n)) ∧
    (LaneStarts s (.imin w) w → Goes (exec (.imin w) s) fun t => IntRule s t c fun l j => min (a l j) (b l j)) ∧
    (LaneStarts s (.imax w) w → Goes (exec (.imax w) s) fun t => IntRule s t c fun l j => max (a l j) (b l j)) ∧
    (LaneStarts s (.iand w) w → Goes (exec (.iand w) s) fun t => plain t fun l => x l &&& y l) ∧
    (LaneStarts s (.ior w) w → Goes (exec (.ior w) s) fun t => plain t fun l => x l ||| y l) ∧
    (LaneStarts s (.ixor w) w → Goes (exec (.ixor w) s) fun t => plain t fun l => x l ^^^ y l) ∧
    (LaneStarts s (.ishl w) w → Goes (exec (.ishl w) s) fun t => plain t fun l => packSlots ty fun j =>
      slotCode ty (x l) j * 2 ^ (slotCode ty (y l) j % n) % 2 ^ n) ∧
    (LaneStarts s (.ishr w) w → Goes (exec (.ishr w) s) fun t => plain t fun l => packSlots ty fun j =>
      Bits.wrap ((slotInt ty n (slotCode ty (x l) j)).fdiv (2 ^ (slotCode ty (y l) j % n))) n) ∧
    (LaneStarts s (.ipopc w) w → Goes (exec (.ipopc w) s) fun t => plain t fun l => packSlots ty fun j =>
      ((List.range n).filter fun i => (slotCode ty (x l) j).testBit i).length) ∧
    (LaneStarts s (.iclz w) w → Goes (exec (.iclz w) s) fun t => plain t fun l => packSlots ty fun j =>
      if slotCode ty (x l) j = 0 then n else n - 1 - (slotCode ty (x l) j).log2) ∧
    (LaneStarts s (.ibfx w) w → Goes (exec (.ibfx w) s) fun t => plain t fun l => BitVec.ofNat 32
      (laneField ty (x l).toNat ((y l).toNat % 32) ((c.operand w.srcC l).toNat % 64)))

/-- R154, R157 and R160 to R165: PACK, UNPK, QGET, MOV, MOVX, SEL, SHFL and BCAST move bits and their tangents; QMOV and
QSET move bytes of scale registers; BCAST of a B that differs between active lanes traps NONUNI with the lanes that differ from
the lowest (R370). -/
def Obligations.LaneMoves : Prop :=
  ∀ (w : LaneWord) (s : State),
    let c := laneOf s w
    let f := w.func
    let ty := w.ty.toNat
    let pw := packWidth ty
    let x (l : Nat) := c.operand w.srcA l
    let dx (k l : Nat) := c.shadow w.srcA k l
    let i := movxIndex c
    let from_ (l : Nat) := shflLane (f % 4) (c.operand w.srcB l).toNat l
    let pick (l : Nat) := if (c.g.readP (f % 8)).getLsbD l != (f / 8 % 2 == 1) then w.srcA else w.srcB
    let low := (Bits.lowestLane c.act).getD 0
    let first := f / 2 ^ 23 % 2 = 1
    let scales (t : State) (v : Nat → Nat → Nat) : Prop :=
      LaneOn s t c ∧ t.group.v = c.g.v ∧ t.group.p = c.g.p ∧ ∀ k n l, n < 512 → l < 32 → Bits.qbyte (t.group.readQ k n) l =
        if n = w.dest.toNat ∧ k ≤ c.t ∧ c.act.getLsbD l = true then v k l % 256 else Bits.qbyte (c.g.readQ k n) l
    s.group.role = .vector →
    (LaneStarts s (.pack w) w → Goes (exec (.pack w) s) fun t => MoveRule s t c
      (fun l => packWord ty (f % 8) (x l) (c.operand w.srcB l))
      fun k l => packWord ty (f % 8) (dx k l) (c.shadow w.srcB k l)) ∧
    (LaneStarts s (.unpk w) w → Goes (exec (.unpk w) s) fun t => MoveRule s t c (fun l => unpackWord ty (f % 8) (x l))
      fun k l => BitVec.ofNat 32 (Bits.field (dx k l).toNat (pw * (f % 8)) pw)) ∧
    (LaneStarts s (.qget w) w → Goes (exec (.qget w) s) fun t => MoveRule s t c
      (fun l => BitVec.ofNat 32 (Bits.qbyte (c.g.readQ 0 w.srcA.toNat) l))
      fun k l => BitVec.ofNat 32 (Bits.qbyte (c.g.readQ k w.srcA.toNat) l)) ∧
    (LaneStarts s (.mov w) w → Goes (exec (.mov w) s) fun t => MoveRule s t c x dx) ∧
    (LaneStarts s (.movx w) w → 0 ≤ i → i < c.g.alloc → c.g.alloc ≤ 384 → c.g.heldV c.i [i.toNat] [] = false →
      Goes (exec (.movx w) s) fun t =>
        if w.fn.getLsbD 23 then
          LaneOn s t c ∧ LaneValues t { c with w := { w with dest := BitVec.ofNat 9 i.toNat } } x dx
        else MoveRule s t c (fun l => Bits.lane (c.g.readV 0 i.toNat) l) fun k l => Bits.lane (c.g.readV k i.toNat) l) ∧
    (LaneStarts s (.selLane w) w → Goes (exec (.selLane w) s) fun t => MoveRule s t c (fun l => c.operand (pick l) l)
      fun k l => c.shadow (pick l) k l) ∧
    (LaneStarts s (.shfl w) w → Goes (exec (.shfl w) s) fun t => MoveRule s t c (fun l => x (from_ l))
      fun k l => dx k (from_ l)) ∧
    (LaneStarts s (.bcast w) w → first ∨
        (∀ l, l < 32 → c.act.getLsbD l = true → c.operand w.srcB l = c.operand w.srcB low) →
      Goes (exec (.bcast w) s) fun t =>
        let n := if first then low else (c.operand w.srcB low).toNat % 32
        MoveRule s t c (fun _ => x n) fun k _ => dx k n) ∧
    (LaneStarts s (.bcast w) w → ¬first → s.cur.lane = some c.i → TrapsToHandler s → ∀ lanes : Mask, lanes ≠ 0 →
      (∀ l, l < 32 → (lanes.getLsbD l = true ↔ c.act.getLsbD l = true ∧ c.operand w.srcB l ≠ c.operand w.srcB low)) →
      LaneTraps (exec (.bcast w) s) s c 5 0 lanes 0) ∧
    (w.dest.toNat < 384 →
      (LaneStarts s (.qmov w) w → Goes (exec (.qmov w) s) fun t => scales t fun k l => Bits.qbyte (c.g.readQ k w.srcA.toNat) l) ∧
      (LaneStarts s (.qset w) w → Goes (exec (.qset w) s) fun t => scales t fun k l => (if k = 0 then x l else dx k l).toNat))

/-- R58, R70, R91, R153, R155 and R156: CVT converts min(Es, Ed) slots of each active lane and keeps the others of Vd, in the
primal and in the shadows, and takes draws unless both types are integers; RQNT forms the blocks whose lanes are all active, in
each plane from its own values, writes their elements, scales and companions, keeps the other blocks, and gives the unused bytes
0x7F and 0x00; DQNT writes each element times its scale, and the tangents, to its E registers. A destination that is no vector
register discards the result. -/
def Obligations.LaneConversions : Prop :=
  ∀ (w : LaneWord) (s : State),
    let c := laneOf s w
    let d := w.dest.toNat
    let ty := w.ty.toNat
    let e := slotsOf ty
    let p := cvtPlan w
    let float (x : Nat) := (Sys2Proof.Num.fmtOfCode x).isSome
    let drawn (t : State) (n : Nat) : Prop :=
      t.group.draws = if c.modeCode = 6 then c.g.draws + BitVec.ofNat 32 (4 * n) else c.g.draws
    let source (l j : Nat) := slotCode p.s (c.cvtWord p l) (p.src j)
    let code (l j : Nat) := cvtCode c p (c.mode p.count l j) (source l j)
    let tangent (k l j : Nat) := cvtTan c p (code l j).1 (source l j) (slotCode p.s (c.shadow w.srcA k l) (p.src j))
    let put (old : LaneW) (f : Nat → Nat) : LaneW := (List.range p.count).foldl (fun x j => setSlot p.d x (p.dst j) (f j)) old
    let len := if w.fn.getLsbD 0 then 16 else 32
    let nb := 32 * e / len
    let full (b : Nat) : Prop := ∀ l, b * len ≤ e * l → e * l < (b + 1) * len → c.act.getLsbD l = true
    let word (k i : Nat) := (Bits.lane (c.g.readV k (w.srcA.toNat + i % e)) (i / e)).toNat
    let elements (b : Nat) (f : Nat → Sys2Proof.Num.XVal) := (List.range len).map fun j => f (b * len + j)
    let m := c.modeCode
    let block (k b : Nat) : Sys2Proof.Num.Block :=
      if k = 0 then Sys2Proof.Num.requantise (elements b fun i => c.fpVal .fp32 0 (word 0 i)) ty
        ((List.range len).map fun j => Sys2Proof.Num.RMode.ofCode m (if m = 6 then c.chunk (b * len + j) else 0)) (w.fn.getLsbD 1)
      else Sys2Proof.Num.requantise (elements b fun i => c.tanVal .fp32 0 (word 0 i) (word k i)) ty
        ((List.range len).map fun _ => Sys2Proof.Num.RMode.rne) false
    s.group.role = .vector →
    (LaneStarts s (.cvt w) w → Goes (exec (.cvt w) s) fun t => LaneOn s t c ∧
      (if float p.s ∨ float p.d then drawn t p.count else t.group.draws = c.g.draws) ∧
      LaneValues t c (fun l => put (Bits.lane (c.g.readV 0 d) l) fun j => (code l j).2)
        fun k l => put (Bits.lane (c.g.readV k d) l) fun j => tangent k l j) ∧
    (LaneStarts s (.rqnt w) w → 3 ≤ ty → ty ≤ 8 → Goes (exec (.rqnt w) s) fun t => LaneOn s t c ∧ drawn t e ∧
      t.group.p = c.g.p ∧ (384 ≤ d ∨ c.act = 0 → t.group.v = c.g.v ∧ t.group.q = c.g.q) ∧
      (∀ k n, n < 512 → n ≠ d ∨ c.t < k → t.group.readV k n = c.g.readV k n ∧ t.group.readQ k n = c.g.readQ k n) ∧
      (d < 384 → c.act ≠ 0 → ∀ k b, k ≤ c.t → b < 16 →
        let q := t.group.readQ k d
        (nb ≤ b → Bits.qbyte q b = 0x7F ∧ Bits.qbyte q (16 + b) = 0) ∧
        (b < nb → full b → Bits.qbyte q b = (block k b).scale % 256 ∧ Bits.qbyte q (16 + b) = (block k b).comp % 256 ∧
          ∀ l, b * len ≤ e * l → e * l < (b + 1) * len → Bits.lane (t.group.readV k d) l =
            packSlots ty fun j => (block k b).codes.getD (e * l + j - b * len) 0) ∧
        (b < nb → ¬full b → Bits.qbyte q b = Bits.qbyte (c.g.readQ k d) b ∧
          Bits.qbyte q (16 + b) = Bits.qbyte (c.g.readQ k d) (16 + b) ∧
          ∀ l, b * len ≤ e * l → e * l < (b + 1) * len → Bits.lane (t.group.readV k d) l = Bits.lane (c.g.readV k d) l))) ∧
    (LaneStarts s (.dqnt w) w → Goes (exec (.dqnt w) s) fun t => LaneOn s t c ∧ drawn t e ∧ t.group.q = c.g.q ∧
      t.group.p = c.g.p ∧ ∀ k n l, n < 512 → l < 32 →
        let j := n - d
        let value := c.destCodes .fp32 false (c.mode e l j) (mxElem c.g ty 0 w.srcA.toNat len (e * l + j))
        Bits.lane (t.group.readV k n) l =
          if d < 384 ∧ d ≤ n ∧ n < d + e ∧ k ≤ c.t ∧ c.act.getLsbD l = true then
            BitVec.ofNat 32 (if k = 0 then value.2
              else c.tanCode .fp32 value.1 (mxElem c.g ty k w.srcA.toNat len (e * l + j)))
          else Bits.lane (c.g.readV k n) l)

/-- R44, R55, R56, R58, R166 and R167: REDUX gives every active lane the value at the root of the tree of its operation over the active
lanes, in each slot, and SCAN that of the tree of the lanes up to its own, or below it with .excl, the identity where that is empty;
REDUX.pair gives the pair at the root of its tree to Vd and V(d+1); the tangents go up the same trees. Integer sums are the sums of
the lanes. When RND.mode is 6 the draws are taken, and the roundings of the nodes are free values (log entry 20). Only active lanes
are written. -/
def Obligations.LaneTrees : Prop :=
  ∀ (w : LaneWord) (s : State),
    let c := laneOf s w
    let d := w.dest.toNat
    let value (l : Nat) : Nat := modInt (signedType w.ty.toNat) (c.negMod 0) (c.absMod 0) 32 (c.operand w.srcA l).toNat
    let sum (p : Nat → Bool) : LaneW := BitVec.ofNat 32 (((Bits.lanesOf c.act).filter p).map value).sum
    let only (t : State) (regs : List Nat) : Prop :=
      LaneOn s t c ∧ t.group.q = c.g.q ∧ t.group.p = c.g.p ∧ ∀ k n l, n < 512 → l < 32 →
        n ∉ regs ∨ 384 ≤ d ∨ c.t < k ∨ c.act.getLsbD l = false →
        Bits.lane (t.group.readV k n) l = Bits.lane (c.g.readV k n) l
    let ty := w.ty.toNat
    let op := w.fn.toNat % 16
    let ftz := rndFtz c.seen.rnd
    let code (l j : Nat) := slotCode ty (c.operand w.srcA l) j
    let root (p : Nat → Bool) (k j : Nat) : Nat × Nat := match Sys2Proof.Num.fmtOfCode ty with
      | some f => (r55 (r166fp f ftz (Sys2Proof.Num.RMode.ofCode c.modeCode 0) op) (fun l => if c.act.getLsbD l && p l then
          some (modCode f (c.negMod 0) (c.absMod 0) (code l j),
            let x := slotCode ty (c.shadow w.srcA k l) j
            if (c.absMod 0 && f.negCode (code l j)) != c.negMod 0 then modCode f true false x else x) else none) 5 0).getD
          (r166identity ty op, 0)
      | none => (((r55 (r166int (signedType ty) op) (fun l => if c.act.getLsbD l && p l then some (BitVec.ofNat 32 (value l))
          else none) 5 0).map (·.toNat)).getD (r166identity ty op), 0)
    let rooted (t : State) (p : Nat → Nat → Bool) : Prop :=
      only t [d] ∧
      t.group.draws = (if c.modeCode = 6 ∧ (Sys2Proof.Num.fmtOfCode ty).isSome = true then
        c.g.draws + BitVec.ofNat 32 (4 * slotsOf ty) else c.g.draws) ∧
      (d < 384 → c.modeCode ≠ 6 ∨ (Sys2Proof.Num.fmtOfCode ty).isSome = false → ∀ k l, k ≤ c.t → l < 32 → c.act.getLsbD l = true →
        Bits.lane (t.group.readV k d) l = packSlots ty fun j => if k = 0 then (root (p l) 1 j).1 else (root (p l) k j).2)
    let pair (k : Nat) : Nat × Nat := (r55 (r167 (k == 0 && ftz)) (fun l => if c.act.getLsbD l = true then
      some (if k = 0 then (modCode .fp32 (c.negMod 0) (c.absMod 0) (c.operand w.srcA l).toNat,
          modCode .fp32 (c.negMod 1) (c.absMod 1) (c.operand w.srcB l).toNat)
        else (pairTan c 0 k l, pairTan c 1 k l)) else none) 5 0).getD (0, 0)
    s.group.role = .vector →
    (LaneStarts s (.redux w) w → Goes (exec (.redux w) s) fun t => rooted t (fun _ _ => true) ∧
      (w.ty = 9 ∨ w.ty = 10 → w.fn.toNat % 16 = 4 → d < 384 → ∀ l, l < 32 → c.act.getLsbD l = true →
        Bits.lane (t.group.readV 0 d) l = sum fun _ => true)) ∧
    (LaneStarts s (.scan w) w → Goes (exec (.scan w) s) fun t =>
      rooted t (fun l m => if w.fn.getLsbD 4 then decide (m < l) else decide (m ≤ l)) ∧
      (w.ty = 9 ∨ w.ty = 10 → w.fn.toNat % 16 = 4 → d < 384 → ∀ l, l < 32 → c.act.getLsbD l = true →
        Bits.lane (t.group.readV 0 d) l = sum fun m => if w.fn.getLsbD 4 then m < l else m ≤ l)) ∧
    (LaneStarts s (.reduxPair w) w → Goes (exec (.reduxPair w) s) fun t => only t [d, d + 1] ∧ t.group.draws = c.g.draws ∧
      (d + 1 < 384 → ∀ k l, k ≤ c.t → l < 32 → c.act.getLsbD l = true →
        Bits.lane (t.group.readV k d) l = BitVec.ofNat 32 (pair k).1 ∧
        Bits.lane (t.group.readV k (d + 1)) l = BitVec.ofNat 32 (pair k).2))

/-- R78, R168, R169 and R171: at the end of its clause BRA sends a split whose lanes all take it to its target and lets one
with none fall through, and a divergence with a free entry splits the mask in two; STOP of a split with no lanes left behind
frees it. That the new split's copy of the stack holds addresses and identifiers only is log entry 58. -/
def Obligations.LaneBranches : Prop :=
  ∀ (w : LaneWord) (s : State),
    let c := laneOf s w
    let g := s.group
    let target := c.sp.addr + (braOffset w).2
    let kept (t : State) : Prop :=
      LaneKept s t ∧ SameFlags g t.group ∧ t.group.v = g.v ∧ t.group.q = g.q ∧ t.group.p = g.p ∧ t.group.draws = g.draws
    c.sp.atLast = true → c.i < 4 → g.splits.length = 4 →
    (c.act = c.sp.mask → Goes (exec (.bra w) s) fun t => kept t ∧ (t.group.splitAt c.i).addr = target ∧
      (t.group.splitAt c.i).index = 15 ∧ (t.group.splitAt c.i).mask = c.sp.mask ∧
      ∀ j, j < 4 → j ≠ c.i → t.group.splitAt j = g.splitAt j) ∧
    (c.act ≠ c.sp.mask → c.act = 0 → Goes (exec (.bra w) s) fun t => kept t ∧ (c.sp.hdr.stop = false →
      (t.group.splitAt c.i).addr = c.sp.fallThrough ∧ (t.group.splitAt c.i).mask = c.sp.mask)) ∧
    (∀ n, c.act ≠ c.sp.mask → c.act ≠ 0 → g.freeIndex = some n → (joinsFor g c.sp (c.sp.addr + (braOffset w).1)).length ≤ 8 →
      c.sp.valid = true → Goes (exec (.bra w) s) fun t => kept t ∧ (c.sp.hdr.stop = false →
        (t.group.splitAt n).mask = c.act ∧ (t.group.splitAt n).addr = target ∧ (t.group.splitAt n).valid = true ∧
        (t.group.splitAt c.i).mask = c.sp.mask &&& ~~~c.act ∧ (t.group.splitAt c.i).addr = c.sp.fallThrough ∧
        (t.group.splitAt n).joins = (t.group.splitAt c.i).joins.map Join.bare)) ∧
    (c.sp.joins = [] → Goes (exec (.stop w) s) fun t => kept t ∧ (t.group.splitAt c.i).valid = false ∧
      ((∀ j, j < 4 → j ≠ c.i → (g.splitAt j).valid = false) → t.group.laneQ = g.laneQ.drop 1))

/-- R185 and R186: TGET, TSET, TCLR and TSWP move, clear or exchange the lanes of Vd and its shadow of the plane they name, within the
clause's width, and with .q so do the bytes of Qd and its shadow; without it every scale register is as before; a destination that is
no register discards the result; a wider plane traps REGRANGE with the register and the plane. -/
def Obligations.TangentMoves : Prop :=
  ∀ (w : LaneWord) (s : State),
    let c := laneOf s w
    let d := w.dest.toNat
    let a := w.srcA.toNat
    let f := w.func
    let k := f % 8
    let kb := w.srcB.toNat % 8
    let moved (t : State) (q : Bool) (planes : List Nat) (v : Nat → Nat → LaneW) (b : Nat → Nat → Nat) : Prop :=
      LaneOn s t c ∧ t.group.p = c.g.p ∧ t.group.draws = c.g.draws ∧ (q = false → t.group.q = c.g.q) ∧
      (384 ≤ d → t.group.v = c.g.v ∧ t.group.q = c.g.q) ∧
      (d < 384 → (∀ m n l, n < 512 → l < 32 → Bits.lane (t.group.readV m n) l =
          if n = d ∧ m ∈ planes ∧ c.act.getLsbD l = true then v m l else Bits.lane (c.g.readV m n) l) ∧
        (q = true → ScaleBytes t c planes b))
    let wide (j : Instr) (plane named : Nat) : Prop := c.t < plane → s.cur.lane = some c.i → TrapsToHandler s →
      LaneTraps (exec j s) s c 4 (named + 65536 * plane) c.sp.mask 0
    let q := f / 8 % 2 == 1
    s.group.role = .vector →
    (LaneStarts s (.tget w) w → wide (.tget w) k a ∧ (k ≤ c.t → Goes (exec (.tget w) s) fun t =>
      moved t q [0] (fun _ l => Bits.lane (c.g.readV k a) l) fun _ l => Bits.qbyte (c.g.readQ k a) l)) ∧
    (LaneStarts s (.tset w) w → wide (.tset w) kb d ∧ (kb ≤ c.t → Goes (exec (.tset w) s) fun t =>
      moved t (w.srcB.toNat / 8 % 2 == 1) [kb] (fun _ l => c.operand w.srcA l) fun _ l => Bits.qbyte (c.g.readQ 0 a) l)) ∧
    (LaneStarts s (.tclr w) w → wide (.tclr w) k d ∧ (k ≤ c.t → Goes (exec (.tclr w) s) fun t =>
      moved t q (if f / 16 % 2 = 1 then (List.range c.t).map (· + 1) else [k]) (fun _ _ => 0) fun _ _ => 0)) ∧
    (LaneStarts s (.tswp w) w → wide (.tswp w) k d ∧ (k ≤ c.t → k ≠ 0 → Goes (exec (.tswp w) s) fun t =>
      moved t q [0, k] (fun m l => Bits.lane (c.g.readV (if m = 0 then k else 0) d) l)
        fun m l => Bits.qbyte (c.g.readQ (if m = 0 then k else 0) d) l))

/-- R20, R91, R95, R281 to R288: a load of memory or of the scratchpad whose checks pass issues: it stands outstanding with its
flag raised and with the value of each active lane in each plane, read in order from memory through the core's L1 where that may
hold the page, at its home where it may not or where the load acquires; and it writes no byte and no register until it
completes. The split moves on unless data comes from host or fabric memory. -/
def Obligations.LaneLoads : Prop :=
  ∀ (w : LaneWord) (s s' : State) (l : List (Acc × Verdict)),
    let c := laneOf s w
    let m := memFn w
    let q := scaleFn w
    let flag := laneFlag c.sp w
    let issued (t : State) (dest : Dest) (o : LaneOp) : Prop :=
      LaneIssued s t c flag o ∧ o.dest = dest ∧ t.group.laneOps = c.g.laneOps ++ [o] ∧ o.todo = []
    let issues (t : State) (order : Nat) (ap : Option Nat) (dest : Dest) (lanes : List Acc) : Prop :=
      let r := performAll (noteRun s' c.g.core s.cur.key ap lanes) c.g.core s.cur.key order l
      SameBytes s' t ∧ ∃ o, issued t dest o ∧ o.far = farOf l ∧ (farOf l = [] → SplitOn t c) ∧ o.done = r.1 ∧
        o.done.map (fun d => (d.lane, d.plane)) = lanes.map (fun a => (a.lane, a.plane)) ∧
        ∀ (j : Nat) (d : Done) (a : Acc) (ps : List Piece), o.done[j]? = some d → l[j]? = some (a, .ok ps) → d.value < 2 ^ (8 * (ps.map (·.n)).sum) ∧
          (order % 2 = 1 ∨ (∀ p ∈ ps, l1Cacheable p.pa p.leaf = false) →
            d.value = Bits.leNat (ps.flatMap fun p => readBytes s' p.pa p.n))
    let near (ap : Option Nat) (accs : List Acc) : Prop := NoLog s ∧ CheckedAll s c.g.core ap accs l s'
    let clean (accs : List Acc) : Prop := m.size ≠ 5 → ∀ a ∈ accs, a.misaligned = false
    let loads (va : Nat → Nat) := c.accesses c.planes (sizeBytes m.size) true va fun _ _ => .load
    let valid (n : Nat) := (c.seen.readA n).valid = true
    let scales := c.scaleAccesses q true fun _ _ => .load
    (LongStarts s (.ld w) w (some m.ap) → valid m.ap → near (some m.ap) (loads (c.apAddr m)) → clean (loads (c.apAddr m)) →
      Goes (exec (.ld w) s) fun t => issues t m.order (some m.ap) (c.loadDest m.size c.shadows) (loads (c.apAddr m))) ∧
    (LongStarts s (.ldx w) w none → near none (loads (c.pairAddr m)) → clean (loads (c.pairAddr m)) →
      Goes (exec (.ldx w) s) fun t => issues t m.order none (c.loadDest m.size c.shadows) (loads (c.pairAddr m))) ∧
    (LongStarts s (.ldq w) w (some q.ap) → valid q.ap → near (some q.ap) scales → Goes (exec (.ldq w) s) fun t =>
      issues t q.order (some q.ap) (if c.act = 0 then .none else .scales w.dest.toNat q.nb q.dist c.shadows) scales) ∧
    (LongStarts s (.lds w) w none → (m.size ≠ 5 → ∀ x ∈ c.scratch m, x.2 % (sizeBytes m.size : Int) = 0) →
      (∀ x ∈ c.scratch m, ∀ k ∈ c.planes, s.team.beyond k x.2 (sizeBytes m.size) = false) →
      Goes (exec (.lds w) s) fun t => SameBytes s t ∧ SplitOn t c ∧ ∃ o, issued t (c.loadDest m.size c.shadows) o ∧ o.far = [] ∧
        o.done.map (fun d => (d.lane, d.plane)) = (loads fun _ => 0).map (fun a => (a.lane, a.plane)) ∧ ∀ d ∈ o.done, d.value =
          Bits.leNat (s.team.readScratch ((c.offset m.off d.lane).toNat + d.plane * s.team.w) (sizeBytes m.size)))

/-- R95, R257, R269, R281 to R291: a lane store, scale store, reduction or atomic whose checks pass issues and is performed access
by access, in the order of its lanes. It changes no byte outside the pieces of its accesses. An access whose bytes no other of
the instruction touches leaves the stored bytes, or the operation's result, in its place, and an atomic returns the old value; a
reduction returns nothing. STS writes the scratchpad and no byte of memory. -/
def Obligations.LaneStoresAndAtomics : Prop :=
  ∀ (w : LaneWord) (s s' : State) (l : List (Acc × Verdict)),
    let c := laneOf s w
    let m := memFn w
    let at_ := atomFn w
    let q := scaleFn w
    let flag := laneFlag c.sp w
    let issued (t : State) (o : LaneOp) : Prop :=
      LaneIssued s t c flag o ∧ t.group.laneOps = c.g.laneOps ++ [o] ∧ o.todo = []
    let pieces (x : Acc × Verdict) : List Piece := match x.2 with
      | .ok ps => ps
      | _ => []
    let alone (j : Nat) (ps : List Piece) : Prop :=
      ps.Pairwise PieceApart ∧ ∀ i x, i ≠ j → l[i]? = some x → ∀ p ∈ ps, ∀ r ∈ pieces x, PieceApart p r
    let content (t : State) (ps : List Piece) : List Byte := ps.flatMap fun p => readBytes t p.pa p.n
    let performed (t : State) (order : Nat) (ap : Option Nat) (accs : List Acc) : Prop :=
      let r := performAll (noteRun s' c.g.core s.cur.key ap accs) c.g.core s.cur.key order l
      t.mem = r.2.mem ∧ (∀ a, ¬InPieces (l.flatMap pieces) a → readByte t a = readByte s' a) ∧
      ∀ (j : Nat) (a : Acc) (ps : List Piece), l[j]? = some (a, .ok ps) → alone j ps → refusedPieces s' a.kind ps = false → (ps.map (·.n)).sum = a.bytes →
        match a.kind with
        | .load => True
        | .store bs => bs.length = a.bytes → content t ps = bs
        | .rmw op x y => (∀ p ∈ ps, atomicInL1 p.pa p.leaf = false) →
          content t ps = Bits.leBytes a.bytes (rmwResult op a.bytes (Bits.leNat (content s' ps)) x y)
    let writes (t : State) (order : Nat) (ap : Option Nat) (accs : List Acc) : Prop :=
      performed t order ap accs ∧ SplitOn t c ∧ ∃ o, issued t o ∧ o.dest = .none ∧ o.write = true ∧ o.done = []
    let returns (t : State) (ap : Nat) (dest : Dest) (order : Nat) (accs : List Acc) : Prop :=
      performed t order (some ap) accs ∧ ∃ o, issued t o ∧ o.dest = dest ∧ o.far = farOf l ∧ (farOf l = [] → SplitOn t c) ∧
        o.done = (performAll (noteRun s' c.g.core s.cur.key (some ap) accs) c.g.core s.cur.key order l).1 ∧
        o.done.map (fun d => (d.lane, d.plane)) = accs.map (fun a => (a.lane, a.plane)) ∧
        ∀ (j : Nat) (d : Done) (a : Acc) (ps : List Piece), o.done[j]? = some d → l[j]? = some (a, .ok ps) → alone j ps →
          (∀ p ∈ ps, atomicInL1 p.pa p.leaf = false) → d.value = Bits.leNat (content s' ps)
    let near (ap : Option Nat) (accs : List Acc) : Prop := NoLog s ∧ CheckedAll s c.g.core ap accs l s'
    let stores (va : Nat → Nat) := c.accesses c.planes (sizeBytes m.size) false va fun k n =>
      .store (Bits.leBytes (sizeBytes m.size) (c.data w.srcA m.size k n))
    let scaleBytes (k : Nat) (comp : Bool) : AccKind :=
      .store (Bits.leBytes q.nb (Bits.field (c.g.readQ k w.srcA.toNat).toNat (if comp then 128 else 0) (8 * q.nb)))
    let scales := c.scaleAccesses q false scaleBytes
    let op := atomOp at_.op w.ty.toNat (rndFtz c.seen.rnd)
    let atoms (returns : Bool) := c.accesses (if op.tangent then c.planes else [0]) (sizeBytes at_.size) returns (c.apAddr at_)
      fun k n => .rmw op (c.data w.srcA at_.size k n) 0
    let cas := c.accesses [0] (sizeBytes m.size) true (c.apAddr m) fun _ n =>
      .rmw .cas (c.data w.srcC m.size 0 n) (c.data w.srcA m.size 0 n)
    let aligned (accs : List Acc) : Prop := ∀ a ∈ accs, a.misaligned = false
    let valid (n : Nat) := (c.seen.readA n).valid = true
    (LongStarts s (.st w) w (some m.ap) → valid m.ap → near (some m.ap) (stores (c.apAddr m)) →
      (m.size ≠ 5 → aligned (stores (c.apAddr m))) →
      Goes (exec (.st w) s) fun t => writes t m.order (some m.ap) (stores (c.apAddr m))) ∧
    (LongStarts s (.stx w) w none → near none (stores (c.pairAddr m)) → (m.size ≠ 5 → aligned (stores (c.pairAddr m))) →
      Goes (exec (.stx w) s) fun t => writes t m.order none (stores (c.pairAddr m))) ∧
    (LongStarts s (.stq w) w (some q.ap) → valid q.ap → near (some q.ap) scales →
      Goes (exec (.stq w) s) fun t => writes t q.order (some q.ap) scales) ∧
    (LongStarts s (.ared w) w (some at_.ap) → valid at_.ap → near (some at_.ap) (atoms false) → aligned (atoms false) →
      Goes (exec (.ared w) s) fun t => writes t at_.order (some at_.ap) (atoms false)) ∧
    (LongStarts s (.atom w) w (some at_.ap) → valid at_.ap → near (some at_.ap) (atoms true) → aligned (atoms true) →
      Goes (exec (.atom w) s) fun t => returns t at_.ap (c.loadDest at_.size c.shadows) at_.order (atoms true)) ∧
    (LongStarts s (.acas w) w (some m.ap) → valid m.ap → near (some m.ap) cas → aligned cas →
      Goes (exec (.acas w) s) fun t => returns t m.ap (c.loadDest m.size c.shadows) m.order cas) ∧
    (LongStarts s (.sts w) w none → (m.size ≠ 5 → ∀ x ∈ c.scratch m, x.2 % (sizeBytes m.size : Int) = 0) →
      (∀ x ∈ c.scratch m, ∀ k ∈ c.planes, s.team.beyond k x.2 (sizeBytes m.size) = false) →
      (∀ x ∈ c.scratch m, s.team.compressed x.2.toNat (sizeBytes m.size) = false) →
      Goes (exec (.sts w) s) fun t => SameBytes s t ∧ SplitOn t c ∧
        (∃ o, issued t o ∧ o.dest = .none ∧ o.write = true ∧ o.done = [] ∧ o.far = []) ∧
        (∀ o, (∀ x ∈ c.scratch m, ∀ k ∈ c.planes, o < x.2.toNat + k * s.team.w ∨
          x.2.toNat + k * s.team.w + sizeBytes m.size ≤ o) → t.team.readScratch o 1 = s.team.readScratch o 1) ∧
        ∀ x ∈ c.scratch m, ∀ k ∈ c.planes,
          (∀ y ∈ c.scratch m, ∀ i ∈ c.planes, (x, k) ≠ (y, i) →
            x.2.toNat + k * s.team.w + sizeBytes m.size ≤ y.2.toNat + i * s.team.w ∨
            y.2.toNat + i * s.team.w + sizeBytes m.size ≤ x.2.toNat + k * s.team.w) →
          t.team.readScratch (x.2.toNat + k * s.team.w) (sizeBytes m.size) =
            Bits.leBytes (sizeBytes m.size) (c.data w.srcA m.size k x.1))

/-- R26, R27, R58, R90, R100, R331 and R392: SPAWNL creates one child for each active lane, in lane order and numbered from the
grid's counter, with the lane's argument pair in S1 and the lane in S2; RNG takes its draws at issue and stands outstanding with
the words that its registers take in the active lanes, their shadows with +0. Their split moves on. -/
def Obligations.LaneSpawnAndRandom : Prop :=
  ∀ (w : LaneWord) (s : State),
    let c := laneOf s w
    let g := s.group
    let lanes := Bits.lanesOf c.act
    let first := s.grid.children
    let off := (c.operand w.srcB 0).toNat
    let n := w.fn.toNat % 4 + 1
    let u (r l : Nat) : Nat := c.chunk (2 * n * l + 2 * r) + 2 ^ 16 * c.chunk (2 * n * l + 2 * r + 1)
    let word (r l : Nat) : Nat :=
      if w.ty = 0 then Sys2Proof.Num.rnd .fp32 .rne (.fin false (u r l / 2 ^ 8) (-24)) else u r l
    (LongStarts s (.spawnl w) w none → g.handler = false → off % 4 = 0 → g.children + lanes.length ≤ 65535 → s.cur.key = g.key →
      (Assoc.find? s.groups g.key).isSome = true → (Assoc.find? s.grids g.grid).isSome = true →
      (∀ i, i < lanes.length → first + i ≠ g.serial) →
      Goes (exec (.spawnl w) s) fun t => t.mem = s.mem ∧ t.group.pc = g.pc ∧ SameS g t.group [] ∧ SameLanes g t.group ∧
        SameFlags g t.group ∧ SameCsrs g t.group ∧ SameTrap g t.group ∧ SplitOn t c ∧
        t.group.children = g.children + lanes.length ∧ (t.gridAt g.grid).children = first + lanes.length ∧
        ∀ i m, lanes[i]? = some m → ∃ h, Assoc.find? t.groups (keyOf g.grid (first + i)) = some h ∧
          h.gid = BitVec.ofNat 32 (first + i) ∧ h.launchIdx = m ∧ h.parent = some g.key ∧ h.child = true ∧ h.role = g.role ∧
          h.pc = s.grid.record.scalarBase + BitVec.ofNat 56 off ∧ h.priv = g.priv ∧ h.core = g.core ∧ h.alloc = g.alloc ∧
          h.readS 1 = Bits.lane (g.readV 0 (w.srcA.toNat + 1)) m ++ Bits.lane (g.readV 0 w.srcA.toNat) m ∧
          h.readS 2 = BitVec.ofNat 64 m ∧ h.readS 3 = g.readS 3) ∧
    (LongStarts s (.rng w) w none → g.role = .vector → Goes (exec (.rng w) s) fun t => LaneKept s t ∧ SplitOn t c ∧
      t.group.v = g.v ∧ t.group.q = g.q ∧ t.group.p = g.p ∧ t.group.flagSoft = g.flagSoft ∧
      (∀ m, t.group.flagCnt m = g.flagCnt m + if laneFlag c.sp w = some m then 1 else 0) ∧
      t.group.draws = g.draws + BitVec.ofNat 32 (8 * n) ∧
      ∃ o ws, t.group.laneOps = g.laneOps ++ [o] ∧ o.id = g.nextOp ∧ o.flag = laneFlag c.sp w ∧ o.todo = [] ∧
        o.dest = .regs c.act ws ∧ (384 ≤ w.dest.toNat → ws = []) ∧
        (w.dest.toNat < 384 → ∀ x v, (x, v) ∈ ws → ∃ r k, r < n ∧ k ≤ c.t ∧ x = 512 * k + w.dest.toNat + r ∧
          ∀ l, l < 32 → Bits.lane v l = if k = 0 then BitVec.ofNat 32 (word r l) else 0) ∧
        (w.dest.toNat < 384 → ∀ r k, r < n → k ≤ c.t → 512 * k + w.dest.toNat + r ∈ ws.map (·.1)))

/-- R18, R19, R170, R218 and R312: a queued lane program starts as one split of all lanes; a clause starts at its header
once its wait mask reads clear; and a split that arrives at its reconvergence address takes the deferred lanes, or goes on
past the join with the lanes that had arrived. -/
def Obligations.LaneStreamEvents : Prop :=
  ∀ (key i : Nat) (s s1 : State),
    let g := s.groupAt key
    let x := g.splitAt i
    let at_ := if g.handler = true then 4 else 0
    g.splits.length = 4 →
    (∀ a rest, Assoc.find? s.groups key = some g → g.status = .running → g.queue = a :: rest →
      (if g.handler = true then g.hsplit.valid = false else ∀ y ∈ g.splits, y.valid = false) → g.edgeMet a.edge = true →
      Goes (exec (.laneProgramStart key) s) fun t => GroupOnly s t key ∧
        (t.groupAt key).splitAt at_ = Split.start a.addr ∧ SameS g (t.groupAt key) []) ∧
    (∀ ws h, Assoc.find? s.groups key = some g → i < 5 → g.splitRuns i = true → x.index = 15 → x.atJoin = false →
      x.fetch = none → x.hold = [] → x.bad = none →
      fetchWords { s with cur := ⟨key, some i⟩ } g.die true (x.next (s.gridAt g.grid)).toNat 3 = (.words ws, s1) →
      decodeHeader (laneBits ws) = .ok h → headerWidth g h ≤ g.tanw → g.flagsReady h.wait false = true →
      (clauseEdges g h).all g.edgeMet = true →
      Goes (exec (.clauseStart key i) s) fun t => SameBytes s1 t ∧ SameS g (t.groupAt key) [] ∧
        let y := (t.groupAt key).splitAt i
        y.index = 0 ∧ y.hdr = h ∧ y.width = headerWidth g h ∧ y.mask = x.mask ∧ y.addr = x.addr ∧ y.joins = x.joins) ∧
    (∀ j rest, i < 4 → g.splitRuns i = true → x.atJoin = true → x.joins = j :: rest →
      Goes (exec (.splitArrival key i) s) fun t => GroupOnly s t key ∧ SameS g (t.groupAt key) [] ∧
        let y := (t.groupAt key).splitAt i
        (j.defer ≠ 0 → y.mask = j.defer ∧ y.addr = j.target ∧ y.st = .running ∧
          y.joins = { j with arrived := j.arrived ||| x.mask, defer := 0 } :: rest) ∧
        (j.defer = 0 → (∀ n, n < 4 → n ≠ i → (g.splitAt n).valid = true → (g.splitAt n).holds j.id = false) →
          y.mask = x.mask ||| j.arrived ∧ y.addr = j.reconv ∧ y.st = .running ∧ y.joins = rest))

/-- R91, R97, R181, R214, R284, R288, R292, R392 and R396: a long-latency operation whose accesses have all been performed leaves
the outstanding ones, its flag's count falls, and its registers take their values, in every plane it names; one whose split data
from afar has held moves the split on, or stands to be repeated without effect when the split runs again; a scalar access writes
its S registers; and a scalar or lane access to host memory that has had no answer for 12,500,000 cc traps with PAGE, code
0x0001, at its instruction, a lane access with its unfinished lanes. -/
def Obligations.AccessCompletionEvents : Prop :=
  ∀ (key id : Nat) (s : State),
    let g := s.groupAt key
    let record := (s.gridAt g.grid).record
    let results (t : State) (o : LaneOp) : Prop :=
      let h := t.groupAt key
      let value (k l : Nat) := ((o.done.find? fun x => x.lane == l && x.plane == k).map (·.value)).getD 0
      let scale (k l : Nat) := ((o.done.find? fun x => x.plane == k && x.lane == l).map (·.value)).getD 0
      t.mem = s.mem ∧ (∀ k, k ≠ key → Assoc.find? t.groups k = Assoc.find? s.groups k) ∧ SameS g h [] ∧ h.p = g.p ∧ h.a = g.a ∧
      (∀ n, h.flagCnt n = if o.flag = some n then g.flagCnt n - 1 else g.flagCnt n) ∧
      match o.dest with
      | .none => h.v = g.v ∧ h.q = g.q
      | .lanes reg bytes sext p6 planes => h.q = g.q ∧ (reg < 384 → bytes ≤ 16 → ∀ k n l, n < 512 → l < 32 →
          Bits.lane (h.readV k n) l =
            if (k = 0 ∨ k ∈ planes) ∧ reg ≤ n ∧ n < reg + (bytes + 3) / 4 ∧
                o.done.any (fun x => x.lane == l && x.plane == 0) = true then
              loadWord bytes sext p6 (value k l) (n - reg)
            else Bits.lane (g.readV k n) l)
      | .scales reg blocks distance planes => h.v = g.v ∧ (reg < 512 → ∀ k n, n < 512 →
          if (k = 0 ∨ k ∈ planes) ∧ n = reg then ∀ b, b < 16 →
            Bits.qbyte (h.readQ k n) b = (if b < blocks then Bits.field (scale k 0) (8 * b) 8 else 0x7F) ∧
            Bits.qbyte (h.readQ k n) (16 + b) = if b < blocks ∧ distance ≠ 0 then Bits.field (scale k 1) (8 * b) 8 else 0
          else h.readQ k n = g.readQ k n)
      | .regs mask ws => h.q = g.q ∧ ((ws.map (·.1)).Nodup → ∀ x ∈ ws, ∀ l, l < 32 →
          Bits.lane (h.readV (x.1 / 512) (x.1 % 512)) l =
            if mask.getLsbD l = true then Bits.lane x.2 l else Bits.lane (g.readV (x.1 / 512) (x.1 % 512)) l)
    let ended (r : Result State) (o : LaneOp) : Prop := Goes r fun t =>
      let h := t.groupAt key
      results t o ∧ (o.far = [] → GroupOnly s t key ∧ h.laneOps = g.laneOps.filter fun x => x.id != o.id) ∧
      (o.far ≠ [] → if g.splitRuns o.split = true then h.laneOps = g.laneOps.filter (fun x => x.id != o.id)
        else ∃ y, h.laneOps = g.laneOps.filter (fun x => x.id != o.id) ++ [y] ∧ y.split = o.split ∧ y.again = true ∧
          y.dest = .none ∧ y.flag = none ∧ y.todo = [] ∧ y.far = [])
    (∀ o, g.finished id false = some o → ended (exec (.laneMemoryComplete key id) s) o) ∧
    (∀ o, g.finished id true = some o → ended (exec (.rngComplete key id) s) o) ∧
    (∀ o, g.scalarOps.find? (fun x => x.id == id) = some o → Goes (exec (.scalarAccessComplete key id) s) fun t =>
      let h := t.groupAt key
      GroupOnly s t key ∧ h.scalarOps = g.scalarOps.filter (fun x => x.id != id) ∧ SameLanes g h ∧ SameFlags g h ∧
      SameS g h (o.dest.map (·.1)) ∧ ((o.dest.map (·.1)).Nodup → ∀ d v, (d, v) ∈ o.dest → h.readS d = if d = 0 then 0 else v)) ∧
    (∀ o f, (∀ x ∈ g.laneOps, x.id ≠ id) → g.scalarOps.filter (fun x => x.id == id) = [o] → o.far = some f → f.source = 0 →
      f.since + 12500000 ≤ s.cycle.toNat → g.handler = false → record.trapVec ≠ 0 →
      Goes (exec (.hostCompletionTimeout key id) s) fun t =>
      let h := t.groupAt key
      t.mem = s.mem ∧ SameS g h [] ∧ h.handler = true ∧ h.trapcause = r99cause 0x11 1 none ∧ h.trappc = f.pc ∧
      h.trapaddr = BitVec.ofNat 64 f.va ∧ h.traplanes = 0 ∧ h.pc = record.scalarBase + BitVec.ofNat 56 record.trapVec) ∧
    (∀ o, g.laneOps.filter (fun x => x.id == id) = [o] → o.far.any (fun x => x.2 == 0) = true →
      o.since + 12500000 ≤ s.cycle.toNat → g.handler = false → g.status = .running → o.split < 4 → g.atBoundary = true →
      record.trapVec ≠ 0 → Goes (exec (.hostCompletionTimeout key id) s) fun t =>
      let h := t.groupAt key
      let x := g.splitAt o.split
      let y := o.recall 0
      t.mem = s.mem ∧ SameS g h [] ∧ h.handler = true ∧ h.trapcause = r99cause 0x11 1 (some (o.split, x.index)) ∧
      h.trappc = record.laneBase + BitVec.ofNat 56 x.addr.toNat ∧ h.trapaddr = BitVec.ofNat 64 y.lowest ∧
      h.traplanes = y.replayMask ∧ h.pc = record.scalarBase + BitVec.ofNat 56 record.trapVec)

/-- R240, R300, R301, R304 and R329: a launched grid enters its queue, is tested, and becomes eligible; the first team in
the placer's order that fits a core is placed with its creation values, zero scratchpad and the SRAM that L1 handed over;
and a grid whose teams have all ended stores its status word, lowers its launcher's count and leaves the device. That a reclaim
empties the core's whole L1, and not only the lines in the SRAM that is needed, is the model's choice (log entry 21). -/
def Obligations.GridEvents : Prop :=
  ∀ (n die core : Nat) (s s1 : State) (x : Grid),
    (Assoc.find? s.grids n = some x →
      (x.entered = false → Goes (exec (.gridEnqueue n) s) fun t =>
        t = { s with grids := t.grids, stamp := s.stamp + 1 } ∧ ∃ y, Assoc.find? t.grids n = some y ∧ y.entered = true ∧
        y.order = s.stamp ∧ y.record = x.record ∧ y.eligible = x.eligible ∧
        (x.reached = false → y.reached = countersMet s x.record)) ∧
      (x.entered = true → x.reached = true → x.eligible = none → Goes (exec (.gridEligible n) s) fun t =>
        t = { s with grids := t.grids } ∧ Assoc.find? t.grids n = some { x with eligible := some s.cycle.toNat })) ∧
    ((s.coreAt core).taken < sramWanted s core → Goes (exec (.sramReclaim core) s) fun t =>
      t = { s with cores := t.cores } ∧ t.coreAt core = { s.coreAt core with l1 := [], taken := sramWanted s core }) ∧
    (let r := (s.gridAt n).record
     let team := (s.gridAt n).nextTeam
     placerCore s die = some (.team n, core) → r.sram ≤ (s.coreAt core).taken →
      Goes (exec (.teamPlacement die) s) fun t => t.mem = s.mem ∧ (t.gridAt n).nextTeam = team + 1 ∧
        (t.coreAt core).l1 = [] ∧ (t.coreAt core).taken = 0 ∧
        (let k := t.teamAt (keyOf n team)
         k.placed = true ∧ k.core = core ∧ k.index = team ∧ k.scratch = [] ∧ k.z = [] ∧ k.w = r.scratch ∧ k.tiles = r.tiles ∧
          ∀ y ∈ k.rings, y.2.p = 0 ∧ y.2.c = 0) ∧
        ∀ j, j < r.groups →
          let h := t.groupAt (keyOf n (team * 32 + j))
          h.grid = n ∧ h.gid = BitVec.ofNat 32 (team * 32 + j) ∧ h.team = team ∧ h.core = core ∧ h.role = r.roleOf j ∧ h.status = .running ∧ h.priv = r.system ∧
          h.pc = r.scalarBase + BitVec.ofNat 56 r.entry ∧
          (∀ m, h.readS m = if m = 1 then r.arg else if m = 2 then BitVec.ofNat 64 j else if m = 3 then BitVec.ofNat 64 team
            else 0) ∧ h.v = [] ∧ h.q = [] ∧ h.a = [] ∧ h.rnd = r.rnd ∧ h.tanw = r.width ∧ h.cring = r.cring ∧
          h.savearea = r.savePool + BitVec.ofNat 56 (team * r.saveBytes)) ∧
    (let x := s.gridAt n
     let va := x.record.status.toNat
     let left (s1 t : State) : Prop := Assoc.find? t.grids n = none ∧
        ∀ k g, x.launcher = some k → Assoc.find? s1.groups k = some g → (t.groupAt k).children = g.children - 1
     gridEnded s n = true →
      (va = 0 ∨ x.noStatus = true → Goes (exec (.gridComplete n) s) fun t => t.mem = s.mem ∧ left s t) ∧
      (∀ pa leaf, va ≠ 0 → x.noStatus = false → translate s x.die va true = (.ok pa leaf, s1) → fabricRefused s1 1 pa = false →
        Goes (exec (.gridComplete n) s) fun t => left s1 t ∧ SameBytesBut s1 t pa 8 ∧
        readNat t pa 8 = 1 + (if x.aborted = 0 then 0 else 2) + (if x.lost = true then 4 else 0) + x.reason % 256 * 2 ^ 8 +
          x.aborted % 2 ^ 32 * 2 ^ 32) ∧
      (va ≠ 0 → x.noStatus = false → translate s x.die va true = (.prot, s1) → Goes (exec (.gridComplete n) s) fun t =>
        left s1 t ∧ SameBytes s1 t ∧
        ∃ q ∈ (t.dieAt x.die).faultPend, q.kind = 4 ∧ q.va = va ∧ q.grid = n ∧ q.code = 2))

/-- R27, R28, R107, R229, R305 and R306: a slot that frees goes to the first claimant that can take it, a pending child or a parked
continuation, which runs with its registers as they were; an evicted one has its vector and scale registers read back from its
entry first, and what completions have written since on top. A continuation that is evicted has them stored in an entry of its team's region and frees its granules, and no
memory outside the entry changes. -/
def Obligations.SlotEvents : Prop :=
  ∀ (core k m i : Nat) (s s1 : State) (ps : List PagePlace),
    let g := s.groupAt k
    let r := (s.gridAt g.grid).record
    let die := dieOfCore core
    let va := g.savearea.toNat + 0x1000 + i * r.entryBytes
    let bytes := (g.tanw + 1) * 160 * g.alloc
    let pages := addrRange va bytes
    let place (j : Nat) : Nat := (reachAddr ps ((va + j) % 2 ^ 56)).1
    let runs (t : State) : Prop := (t.groupAt k).status = .running ∧ (t.groupAt k).slot = m
    let kept (t : State) : Prop :=
      SameS g (t.groupAt k) [] ∧ SameFlags g (t.groupAt k) ∧ (t.groupAt k).p = g.p ∧ (t.groupAt k).a = g.a ∧ (t.groupAt k).pc = g.pc
    (nextClaimant s core = some k → freeSlot s g.core = some m →
      (g.status = .pending → Goes (exec (.pendingChildPlacement core) s) fun t =>
        t = { s with groups := t.groups } ∧ runs t ∧ kept t ∧ SameLanes g (t.groupAt k)) ∧
      (g.status = .parked → g.frame.bind (·.evicted) = none → Goes (exec (.continuationResume core) s) fun t =>
        t = { s with groups := t.groups } ∧ runs t ∧ kept t ∧ SameLanes g (t.groupAt k)) ∧
      (g.status = .parked → g.frame.bind (·.evicted) = some i → g.alloc ≤ 512 → reachAll s die 0 false pages = (.ok ps, s1) →
        Goes (exec (.continuationResume core) s) fun t =>
        let rd := readArea s1 die ps va
        t = { s1 with groups := t.groups } ∧ runs t ∧ kept t ∧ (t.groupAt k).evicted = false ∧
        ∃ base : Group, (t.groupAt k).v = (g.late.foldl Group.putReg base).v ∧ (t.groupAt k).q = (g.late.foldl Group.putReg base).q ∧
          ∀ p n, p ≤ g.tanw → n < g.alloc →
            base.readV p n = BitVec.ofNat 1024 (Bits.leNat (rd (p * 160 * g.alloc + 128 * n) 128)) ∧
            base.readQ p n = BitVec.ofNat 256 (Bits.leNat (rd (p * 160 * g.alloc + 128 * g.alloc + 32 * n) 32)))) ∧
    (evictionWanted s core = true → nextEvicted s core = some k → freeEntry s g.teamKey = some i →
      (Assoc.find? s.groups k).isSome = true → reachAll s die 0 true pages = (.ok ps, s1) →
      Goes (exec (.continuationEviction core) s) fun t => kept t ∧ (t.groupAt k).v = [] ∧ (t.groupAt k).q = [] ∧
        (∃ f, (t.groupAt k).frame = some f ∧ f.evicted = some i) ∧
        (g.status = .parked → (t.groupAt k).holdsGranules t = false) ∧
        (∀ a, (∀ j, j < bytes → place j ≠ a) → readByte t a = readByte s1 a) ∧
        ((∀ j l, j < bytes → l < bytes → place j = place l → j = l) →
          ∀ j b, g.registerImage[j]? = some b → readByte t (place j) = b))

/-- R184, R189, R196 to R203, R205 and R207: the head command of the matrix engine starts its next pass, unless a trap waits for a
matrix-role group of the team (R211). A first pass takes its operands, each as its kind says. A pass of MMA adds each element's
steps to Z in the planes of the pass, in redundant mode to both copies of a row; one of MMA2 adds both its products; one of MVNB
a partial sum for each near bank; each leaves every other tile and plane. MLD loads S in its orientation; MDRAIN reads its rows
converted, and clears them with clr, unless redundant copies differ; MZERO clears tiles and MMODE sets the mode; every pass counts
in its command. -/
def Obligations.MatrixPasses : Prop :=
  ∀ (tk : Nat) (s : State) (c : MatrixCmd) (rest : List MatrixCmd),
    let t := s.teamAt tk
    let e := t.engine
    let w := c.word
    let x := passPlanes c.passes
    let mode := passMode c.sample c.passes
    let elem (v : Team) (i k m n : Nat) : Nat := (v.readZ i k).getD (m * 128 + n) 0
    let passed (u : State) (d : MatrixCmd) : Prop :=
      u.mem = s.mem ∧ u.groups = s.groups ∧ (u.teamAt tk).engine.queue = d :: rest ∧ d.op = c.op ∧ d.passes = c.passes + 1
    let product (u : State) (d : MatrixCmd) : Prop := passed u d ∧ (u.teamAt tk).engine.stat = e.stat ∧
      (u.teamAt tk).engine.redundant = e.redundant ∧ (c.passes ≠ 0 → d.loaded = c.loaded ∧ d.loaded2 = c.loaded2)
    let others (u : State) (tiles : List Nat) : Prop :=
      ∀ i k, k < 5 → i ∉ tiles ∨ k ≠ x.2.2 → (u.teamAt tk).readZ i k = t.readZ i k
    let same (u : State) : Prop := ∀ i k, (u.teamAt tk).readZ i k = t.readZ i k
    let zero (u : State) (i : Nat) : Prop := ∀ k, k < t.planes → ∀ j, ((u.teamAt tk).readZ i k).getD j 0 = 0
    let took (o : Place × View × Nat) (brought : List Tile) : List Tile := (takeOperand s tk c o brought).1
    let start := exec (.matrixPassStart tk) s
    e.queue = c :: rest → passReady t = true → enginePaused s tk = false → c.sample.width ≤ 4 → t.planes ≤ 5 →
    (∀ off v, c.early = t.scratch → took (.scratch off, v, 0) [] = (Place.scratch off).tiles s t [] c.sample v) ∧
    (c.op = .mma → Goes start fun u => ∃ d, product u d ∧ others u [w.za] ∧
      (c.passes = 0 → w.kind ≠ 3 → d.loaded = took (c.first w.m 128) c.loaded ∧ (u.teamAt tk).engine.bypass = e.bypass) ∧
      (c.passes = 0 → w.kind = 3 → (∀ l, e.bypass = some l → d.loaded = l) ∧ (u.teamAt tk).engine.bypass = none) ∧
      let a := tileOf d.loaded x.1
      let b := stationary e x.2.1
      ∀ m n, m < 128 → n < 128 →
        let i := if e.redundant = true ∧ 64 ≤ m then m - 64 else m
        elem (u.teamAt tk) w.za x.2.2 m n = (if i < a.rows then
            contract mode (elem t w.za x.2.2 m n) 128 (stepLength a b.1) fun k => (a.pick a.values i k).mul (b.2 k n)
          else elem t w.za x.2.2 m n) % 2 ^ 32) ∧
    (c.op = .mma2 → w.za ≠ w.zb → Goes start fun u => ∃ d, product u d ∧ others u [w.za, w.zb] ∧
      (c.passes = 0 → d.loaded = took (c.first w.m 128) c.loaded ∧
        d.loaded2 = (takeOperand (takeOperand s tk c (c.first w.m 128) c.loaded).2 tk c c.second c.loaded2).1) ∧
      let p := tileOf d.loaded x.1
      let q := tileOf d.loaded2 x.1
      let b := stationary e x.2.1
      ∀ m n, m < 128 → n < 128 →
        elem (u.teamAt tk) w.za x.2.2 m n = contract mode (elem t w.za x.2.2 m n) w.m (stepLength p b.1)
          (fun k => (p.pick p.values k m).mul (b.2 k n)) % 2 ^ 32 ∧
        elem (u.teamAt tk) w.zb x.2.2 m n = (if n < w.m then
            contract mode (elem t w.zb x.2.2 m n) 128 (stepLength q b.1) fun k => (q.pick q.values m k).mul (b.2 n k)
          else elem t w.zb x.2.2 m n) % 2 ^ 32) ∧
    (∀ ps s1, c.op = .mvnb → (c.passes = 0 →
        let sh := shapeOf c.rec2
        let r := takeOperand s tk c (c.first w.m (sh.bx 0)) c.loaded
        c.early2 = [] ∧ reachAll r.2 (dieOfCore (r.2.teamAt tk).core) sh.key false
          ((Place.mem (sh.base false)).addrs c.sample (sh.view c.other).offsets) = (.ok ps, s1) ∧
        ∀ va, va ∈ (Place.mem (sh.base false)).addrs c.sample (sh.view c.other).offsets → spaceOf (reachAddr ps va).1 = 0) →
      Goes start fun u => ∃ d, SameBytes (if c.passes = 0 then s1 else s) u ∧ u.groups = s.groups ∧
        (u.teamAt tk).engine.queue = d :: rest ∧ d.passes = c.passes + 1 ∧ (u.teamAt tk).engine.stat = e.stat ∧
        others u [w.za] ∧ (c.passes = 0 → let sh := shapeOf c.rec2
          d.loaded = took (c.first w.m (sh.bx 0)) c.loaded ∧ d.banks = bankList c.sample (sh.base false) (sh.view c.other) ps ∧
          d.loaded2 = (Place.mem (sh.base false)).tiles s1 t ps c.sample (sh.view c.other)) ∧
        let a := tileOf d.loaded x.1
        let b := tileOf d.loaded2 x.2.1
        let per := b.cols / b.blk
        ∀ m n, m < 128 → n < 128 → elem (u.teamAt tk) w.za x.2.2 m n = (if m < w.m ∧ n < b.rows then
            nearSum mode (elem t w.za x.2.2 m n) b.blk ((d.banks.drop ((x.2.1 * b.rows + n) * per)).take per)
              fun k => (a.pick a.values m k).mul (b.pick b.values n k)
          else elem t w.za x.2.2 m n) % 2 ^ 32) ∧
    (∀ west, c.op = .mld west → Goes start fun u => (∃ d, passed u d) ∧ same u ∧ (u.teamAt tk).engine.west = west ∧
      (u.teamAt tk).engine.stat = took (c.first 128 128) c.loaded ∧ (u.teamAt tk).engine.bypass = e.bypass) ∧
    (c.op = .mdrain → e.redundant = false ∨ mismatchAt t w.za w.m t.planes = none → Goes start fun u =>
      (∃ d, passed u d ∧ d.loaded = drainTiles t c) ∧ (w.clr = false → same u) ∧
      (w.clr = true → zero u w.za ∧ ∀ i k, k < 5 → i ≠ w.za → (u.teamAt tk).readZ i k = t.readZ i k) ∧
      (u.teamAt tk).engine.bypass = if w.kind = 3 then some (drainTiles t c) else e.bypass) ∧
    (c.op = .mdrain → e.redundant = true → mismatchAt t w.za w.m t.planes ≠ none → Goes start fun u =>
      (∃ d, passed u d ∧ d.loaded = c.loaded) ∧ same u ∧ (u.teamAt tk).engine.bypass = e.bypass) ∧
    (∀ all tile, c.op = .mzero all tile → Goes start fun u => (∃ d, passed u d) ∧
      (all = false → zero u tile ∧ ∀ i k, k < 5 → i ≠ tile → (u.teamAt tk).readZ i k = t.readZ i k) ∧
      (all = true → ∀ i, i < t.tiles → zero u i)) ∧
    (∀ red, c.op = .mmode red → Goes start fun u => (∃ d, passed u d) ∧ same u ∧ (u.teamAt tk).engine.redundant = red)

/-- R97, R187, R194, R200, R201, R207, R314, R317, R318, R337 and R351: the head command of the matrix engine completes and leaves
its queue; a drain has then written its images to the scratchpad or to its slot, a split drain its scales to Q registers, and one
whose redundant copies differ leaves a MISMATCH that names plane, tile and row. A ring push or pop moves its bytes plane by plane
when its turn has come and its slot becomes full or empty, the coelostat takes the next program when it runs none, and an ended
program completes; flags fall. That a second MISMATCH stands behind the first (log entry 66), which difference of several is the
first (log entry 84), and that the running program holds none of the queue's four entries (log entry 76) are the model's
choices. -/
def Obligations.MatrixAndRingCompletion : Prop :=
  ∀ (tk core id : Nat) (s : State),
    let t := s.teamAt tk
    (∀ c rest, t.engine.queue = c :: rest → matrixDone t = true → (c.child = true → NoRecord c.sample c.life) →
      (Assoc.find? s.groups c.key).isSome = true →
      let w := c.word
      let g := s.groupAt c.key
      let n := operandBytes w.fmt (blockLen w.b16) w.m 128 false
      let bytes (x : Tile) : List Byte := if w.split then x.codeBytes else x.linearBytes
      let writes : Prop := c.op = .mdrain ∧ c.passes = c.total ∧ c.life.fault = 0 ∧ c.loaded ≠ [] ∧ w.kind < 2
      (writes → w.kind = 0 → t.wholeTiles c.src.toNat ((c.loaded.map (drainBytes c)).headD []).length = true) →
      Goes (exec (.matrixCommandComplete tk) s) fun u =>
        let h := u.groupAt c.key
        u.mem = s.mem ∧ (u.teamAt tk).engine.queue = rest ∧
        (¬(writes ∧ w.split = true) → CommandEnded s u c.key c.flag c.child) ∧
        (writes → w.split = true → (∀ m, h.flagCnt m = if c.flag = some m then g.flagCnt m - 1 else g.flagCnt m) ∧
          SameS g h [] ∧ h.pc = g.pc ∧ h.v = g.v ∧ h.p = g.p ∧ h.a = g.a ∧
          ((∀ x ∈ c.loaded, w.qbase + x.scaleRegs.length ≤ 512) → ∀ k x i q, c.loaded[k]? = some x → x.scaleRegs[i]? = some q →
            h.readQ k (w.qbase + i) = q)) ∧
        (writes → w.kind = 0 → t.regions = [] → (∀ x ∈ c.loaded, (bytes x).length ≤ t.w) → ∀ k x, c.loaded[k]? = some x →
          (u.teamAt tk).readScratch (c.src.toNat + k * t.w) (bytes x).length = bytes x) ∧
        (∀ m r, writes → w.kind = 1 → w.split = false → c.claim1 = some m → c.claim2 = none → t.ring w.ring = some r → 0 < r.slots →
          (∀ x ∈ c.loaded, (bytes x).length ≤ n) → ∃ y, (u.teamAt tk).ring w.ring = some y ∧
            (m % r.slots < 16 → y.full.getLsbD (m % r.slots) = true) ∧
            ∀ k x, c.loaded[k]? = some x → y.read m (k * n) (bytes x).length = bytes x) ∧
        (∀ k m, c.op = .mdrain → c.loaded = [] → c.life.fault = 0 → mismatchAt t w.za w.m t.planes = some (k, m) →
          h.mismatch = g.mismatch ++ [(BitVec.ofNat 64 (m + 256 * w.za + 1024 * k), c.sample.pc.setWidth 64)])) ∧
    (∀ o x, t.ringOps.find? (fun y => y.id == id && y.push) = some o → o.turn t = true → t.ring o.ring = some x → 0 < x.slots →
      Goes (exec (.ringPushComplete tk id) s) fun u => u.mem = s.mem ∧ CommandEnded s u o.key o.flag false ∧
        (u.teamAt tk).ringOps = t.ringOps.filter (fun y => y.id != id) ∧ (u.teamAt tk).scratch = t.scratch ∧
        ∃ y, (u.teamAt tk).ring o.ring = some y ∧ (o.pos % x.slots < 16 → y.full.getLsbD (o.pos % x.slots) = true ∧
          y.phase.getLsbD (o.pos % x.slots) = decide (o.pos / x.slots % 2 = 1)) ∧
        ∀ k, k ≤ o.width → y.read o.pos (k * o.bytes) o.bytes = t.readScratch (o.off + k * t.w) o.bytes) ∧
    (∀ o x, t.ringOps.find? (fun y => y.id == id && !y.push) = some o → o.turn t = true → t.ring o.ring = some x → 0 < x.slots →
      Goes (exec (.ringPopComplete tk id) s) fun u => u.mem = s.mem ∧ CommandEnded s u o.key o.flag false ∧
        (u.teamAt tk).ringOps = t.ringOps.filter (fun y => y.id != id) ∧
        (∃ y, (u.teamAt tk).ring o.ring = some y ∧ (o.pos % x.slots < 16 → y.full.getLsbD (o.pos % x.slots) = false)) ∧
        (o.bytes ≤ t.w → ∀ k, k ≤ o.width →
          (u.teamAt tk).readScratch (o.off + k * t.w) o.bytes = x.read o.pos (k * o.bytes) o.bytes) ∧
        ∀ a, (∀ k, k ≤ o.width → a < o.off + k * t.w ∨ o.off + k * t.w + o.bytes ≤ a) →
          (u.teamAt tk).readScratch a 1 = t.readScratch a 1) ∧
    (∀ o, t.ringOps.find? (fun y => y.id == id && y.push) = none → outFor s tk id = some o →
      t.turn true o.ring (some o.pos) = true → Goes (exec (.ringPushComplete tk id) s) fun u => u.mem = s.mem ∧
        u.groups = s.groups ∧ ∀ x, t.ring o.ring = some x → ∃ y, (u.teamAt tk).ring o.ring = some y ∧
          y.read o.pos 0 o.data.length = o.data) ∧
    (∀ c rest, (s.coreAt core).strm = none → (s.coreAt core).strmQ = c :: rest →
      Goes (exec (.coelostatProgramStart core) s) fun u =>
        u = s.putCore core { s.coreAt core with strm := some { c with since := s.cycle.toNat }, strmQ := rest }) ∧
    (∀ c, (s.coreAt core).strmReady = some c → NoRecord c.sample c.life → Goes (exec (.strmComplete core) s) fun u =>
      u.mem = s.mem ∧ CommandEnded s u c.key c.flag false ∧
      (u.coreAt core).strmDone = (s.coreAt core).strmDone.filter fun x => !(x.key == c.key && x.id == c.id))

/-- R182, R200, R208, R256, R316, R318, R341, R344, R345, R349 and R379: the transit unit takes a command into execution when fewer
than eight are in it. A copy whose pages are all reached and whose keys are there writes its images, each element of a converted
one the source's rounded once, and nothing else; one that meets a page that refuses leaves each byte as it was or as one of its
images has it. The transfer of a handle's operand brings the operand, and that of a drain writes its images, or some bytes of
them. A gradient accumulation adds each term to its element: an FP32 one at its place; a BF16 one at its place, counting the
additions that are absorbed, or once the tensor is promoted in its FP32 shadow, to which a tile is first converted. A collective
writes its result in each plane. Each ends then, leaves its queue, and its flag and its child count fall. Which bytes an erring
command may have written (log entries 11 and 82), that a GACC with a page that it may not act on adds nothing (log entry 38), and
what becomes of a collective whose members differ or whose pages are not local (log entry 39) are the model's choices. -/
def Obligations.TransitAndCollectiveCompletion : Prop :=
  (∀ (d : BitVec 512) (a b : Option Shape) (z : Sample) (plane : Nat) (src : Tile) (i j : Nat),
    let x := copyDesc d
    let ty := ((copyEnd d 1).ty b).1
    let f := (Sys2Proof.Num.fmtOfCode ty).getD .fp32
    let y := copyTile d a b z plane src
    let r := if plane = 0 then z.rounding x.mode x.nansat z.counter else (z.rounding x.mode x.nansat z.counter).tangent
    let v := src.values.getD (if x.xpose = true then j * src.cols + i else i * src.cols + j) Sys2Proof.Num.XVal.zero
    copyConverts d a b = true → ty < 3 → i < y.rows → j < y.cols →
      (y.rows, y.cols) = (if x.xpose = true then (src.cols, src.rows) else (src.rows, src.cols)) ∧
      Assoc.get 0 y.codes (i * y.cols + j) = Sys2Proof.Num.roundTo f (r.ftz && f.flushes)
        (if r.nansat = true then .nansat else .table) (r.at_ (i * y.cols + j))
        (((Sys2Proof.Num.fmtOfCode src.ty).map fun g => Sys2Proof.Num.flushIn g r.ftz v).getD v)) ∧
  ∀ (core id : Nat) (s s1 s2 : State) (ps qs : List PagePlace) (code : BitVec 16) (va : Nat),
    let k := s.coreAt core
    (∀ c, k.transit.find? (·.enters) = some c → (k.transit.filter (·.running)).length < 8 →
      Goes (exec (.transitCommandStart core) s) fun u => u.mem = s.mem ∧ u.groups = s.groups ∧ u.teams = s.teams ∧
        (∀ x ∈ k.transit, x.id ≠ c.id → x ∈ (u.coreAt core).transit) ∧
        ∃ d ∈ (u.coreAt core).transit, d.id = c.id ∧ d.key = c.key ∧ d.op = c.op ∧ d.running = true) ∧
    (∀ c, k.transit.find? (fun x => x.id == id) = some c → c.running = true →
      c.turns (s.teamAt (s.groupAt c.key).teamKey) = true → NoRecord c.sample c.life →
      let ended (u : State) : Prop :=
        CommandEnded s u c.key c.flag true ∧ ∀ x ∈ (u.coreAt core).transit, x.id ≠ id
      let tk := (s.groupAt c.key).teamKey
      let t := s.teamAt tk
      let die := dieOfCore t.core
      (∀ d, c.op = .copy d →
        let x := copyDesc d
        let a := if (copyEnd d 0).kind = 3 then some (shapeOf c.srcRec) else none
        let b := if (copyEnd d 1).kind = 3 then some (shapeOf c.dstRec) else none
        let rc := copySize x a b
        let rd := endSize x true rc
        let src := (copyEnd d 0).place a x.inactive c.srcPos rc.1 rc.2
        let dst := (copyEnd d 1).place b x.inactive c.dstPos rd.1 rd.2
        let offs := ((copyEnd d 1).image dst.2.1 ⟨dst.2.1.ty, dst.2.1.len, rd.1, rd.2, [], [], []⟩).map (·.1)
        let crypt := sealingOf d c ps qs rd.2
        let images := (copyImages s2 t d c a b src dst ps qs crypt).2
        let ends (q : State → Prop) : Prop := Goes (exec (.transitCopyComplete core id) s) fun u => ended u ∧ q u
        let readAddrs := src.1.addrs c.sample src.2.1.offsets
        let writeAddrs := dst.1.addrs c.sample offs
        let reads := reachAll s die src.2.2 false readAddrs
        let covered : Prop := (copyEnd d 1).kind = 1 → t.coversTiles (copyEnd d 1).value.toNat offs = true
        let inPart (z u : State) : Prop :=
          let to_ := reachEach z die dst.2.2 true writeAddrs
          let some_ := abortImages z t d c (reachEach z die src.2.2 false readAddrs) to_
          match dst.1 with
          | .mem base => PartlyPlaced (readByte z) (readByte u) some_ fun n o => (reachAddr to_ (c.sample.planeAddr (base + o) n)).1
          | .scratch off => SameBytes z u ∧ PartlyPlaced (Assoc.get 0 t.scratch) (Assoc.get 0 (u.teamAt tk).scratch) some_
              fun n o => off + n * t.w + o
          | .slot r pos bytes => SameBytes z u ∧ ∀ y, t.ring r = some y → ∃ x, (u.teamAt tk).ring r = some x ∧
              PartlyPlaced (Assoc.get 0 y.data) (Assoc.get 0 x.data) some_ fun n o => pos % y.slots * y.size + n * bytes + o
        (c.life.past = true → ends (SameBytes s)) ∧
        (c.life.past = false → c.life.fault ≠ 0 → ends (inPart s)) ∧
        (c.life.past = false → c.life.fault = 0 → ¬covered → ends (SameBytes s)) ∧
        (c.life.past = false → c.life.fault = 0 → covered →
          (reads = (.fault code va, s1) → ends (inPart s1)) ∧
          (reads = (.ok ps, s1) → reachAll s1 die dst.2.2 true writeAddrs = (.fault code va, s2) → ends (inPart s2)) ∧
          (reads = (.ok ps, s1) → reachAll s1 die dst.2.2 true writeAddrs = (.ok qs, s2) →
            (∀ n, crypt = .bad n → ends (SameBytes s2)) ∧
            ((∀ n, crypt ≠ .bad n) → ends fun u => match dst.1 with
              | .mem base => Placed (readByte s2) (readByte u) images fun n o =>
                  (reachAddr qs (c.sample.planeAddr (base + o) n)).1
              | .scratch off => SameBytes s2 u ∧ Placed (Assoc.get 0 t.scratch) (Assoc.get 0 (u.teamAt tk).scratch) images
                  fun n o => off + n * t.w + o
              | .slot r pos bytes => SameBytes s2 u ∧ ∀ y, t.ring r = some y → ∃ z, (u.teamAt tk).ring r = some z ∧
                  Placed (Assoc.get 0 y.data) (Assoc.get 0 z.data) images
                    fun n o => pos % y.slots * y.size + n * bytes + o)))) ∧
      (∀ team cmd second m base, c.op = .fetch team cmd second → (s.teamAt team).matrixCmd cmd = some m → c.life.fault = 0 →
        let o := m.fetched second
        o.1 = .mem base → c.early = [] → (s.teamAt team).core = core →
        reachAll s (dieOfCore core) o.2.2 false (o.1.addrs m.sample o.2.1.offsets) = (.ok ps, s1) →
        Goes (exec (.transitCopyComplete core id) s) fun u => SameBytes s1 u ∧ u.groups = s.groups ∧
          (∀ x ∈ (u.coreAt core).transit, x.id ≠ id) ∧ ∃ n, (u.teamAt team).matrixCmd cmd = some n ∧
            n.landed = m.landed ++ [if second = true then 1 else 0] ∧
            (if second = true then n.loaded2 else n.loaded) = o.1.tiles s1 (s1.teamAt team) ps m.sample o.2.1) ∧
      (∀ team cmd m base, c.op = .drain team cmd → (s.teamAt team).matrixCmd cmd = some m → c.life.fault = 0 →
        let o := m.first m.word.m 128
        let images := drainImages m
        let addrs := o.1.addrs m.sample ((images.headD []).map (·.1))
        let ends (fault : BitVec 16) (q : State → Prop) : Prop :=
          Goes (exec (.transitCopyComplete core id) s) fun u => u.groups = s.groups ∧
            (∀ x ∈ (u.coreAt core).transit, x.id ≠ id) ∧
            (∃ n, (u.teamAt team).matrixCmd cmd = some n ∧ n.landed = m.landed ++ [2] ∧ n.life.fault = fault) ∧ q u
        o.1 = .mem base → (s.teamAt team).core = core →
        (reachAll s (dieOfCore core) o.2.2 true addrs = (.ok ps, s1) → ends m.life.fault fun u =>
          Placed (readByte s1) (readByte u) images fun n a => (reachAddr ps (m.sample.planeAddr (base + a) n)).1) ∧
        (reachAll s (dieOfCore core) o.2.2 true addrs = (.fault code va, s1) → ends code fun u =>
          PartlyPlaced (readByte s1) (readByte u) images fun n a =>
            (reachAddr (reachEach s1 (dieOfCore core) o.2.2 true addrs) (m.sample.planeAddr (base + a) n)).1)) ∧
      (∀ h off ring notify, c.op = .gacc h off ring notify →
        let sh := shapeOf c.srcRec
        let v := sh.view h
        let record := shapeAddr (s.gridAt (s.groupAt c.key).grid) (handleIndex h)
        let shadow := if sh.fmt = 1 ∧ (sh.acc = 2 ∨ sh.promote = true) then sh.bitmapByte (sh.tileIndex h) ::
            v.inside.flatMap fun e => [sh.shadowAddr (e.2 / 2), sh.shadowAddr (e.2 / 2) + 3]
          else []
        let src : Place := match ring with
          | some n => .slot n (c.srcPos.getD 0) (gaccBytes sh)
          | none => .scratch off
        let terms := src.tiles s2 t [] c.sample (View.linear 0 32 v.rows v.cols (4 * v.cols))
        let at_ (n o : Nat) : Nat := c.sample.planeAddr (sh.base false + o) n
        let place (n o j : Nat) := (reachAddr (ps ++ qs) (at_ n o + j)).1
        let code (z : State) (x n : Nat) : Nat := Bits.leNat ((List.range n).map fun j => readByte z (reachAddr (ps ++ qs) (x + j)).1)
        let term (n : Nat) (e : Nat × Nat) := (tileOf terms n).values.getD e.1 Sys2Proof.Num.XVal.zero
        let flushes (n : Nat) : Bool := rndFtz c.sample.rnd && n == 0
        let bitmap := sh.bitmapByte (sh.tileIndex h)
        let bit := sh.tileIndex h % 8
        let wide (e : Nat × Nat) : Nat := sh.shadowAddr (e.2 / 2)
        let narrow (n : Nat) (e : Nat × Nat) : Nat := gaccSum .bf16 (flushes n)
          (if n = 0 then (c.sample.rounding 0 false c.sample.counter).at_ e.1 else .rne) (code s2 (at_ n e.2) 2) (term n e)
        let absorbed := if sh.promote = true then 0 else (v.inside.filter fun e => finite (term 0 e) && !(term 0 e).isZero &&
          finite (Sys2Proof.Num.decode .bf16 (code s2 (at_ 0 e.2) 2)) && narrow 0 e == code s2 (at_ 0 e.2) 2).length
        let total := min (code s2 (record + 0x18) 4 + absorbed) (2 ^ 32 - 1)
        let cells : List (Nat × Nat × Nat × Nat) :=
          ((List.range (c.sample.width + 1)).flatMap fun n => v.inside.map fun e => (n, e.1, at_ n e.2, 2)) ++
          (if sh.promote = true then (100, 0, bitmap, 1) :: v.inside.map fun e => (101, e.1, wide e, 4) else []) ++
          [(102, 0, record + 0x18, 4), (102, 1, record + 23, 1)]
        (c.life.past = true ∨ c.life.fault ≠ 0 → Goes (exec (.gaccComplete core id) s) fun u => ended u ∧ u.mem = s.mem) ∧
        (c.life.past = false → c.life.fault = 0 → t.core = core →
         reachAll s die sh.key true ((Place.mem (sh.base false)).addrs c.sample v.offsets ++ shadow) = (.ok ps, s1) →
         reachAll s1 die 0 true [record + 0x18] = (.ok qs, s2) →
         ((∃ p ∈ ps ++ qs, p.gaccOk = false) → Goes (exec (.gaccComplete core id) s) fun u => ended u ∧ SameBytes s2 u) ∧
         ((∀ p ∈ ps ++ qs, p.gaccOk = true) → Goes (exec (.gaccComplete core id) s) fun u => ended u ∧
          (sh.fmt = 0 → (∀ a, (∀ n e j, n ≤ c.sample.width → e ∈ v.inside → j < 4 → place n e.2 j ≠ a) →
              readByte u a = readByte s2 a) ∧
            ((∀ n e j m f i, n ≤ c.sample.width → e ∈ v.inside → j < 4 → m ≤ c.sample.width → f ∈ v.inside → i < 4 →
                place n e.2 j = place m f.2 i → n = m ∧ e = f ∧ j = i) →
              ∀ n e j, n ≤ c.sample.width → e ∈ v.inside → j < 4 → readByte u (place n e.2 j) =
                (Bits.leBytes 4 (gaccSum .fp32 (rndFtz c.sample.rnd && n == 0) .rne
                  (Bits.leNat ((List.range 4).map fun i => readByte s2 (place n e.2 i)))
                  ((tileOf terms n).values.getD e.1 Sys2Proof.Num.XVal.zero))).getD j 0)) ∧
          (sh.fmt = 1 → (∀ a, (∀ x ∈ cells, ∀ j, j < x.2.2.2 → (reachAddr (ps ++ qs) (x.2.2.1 + j)).1 ≠ a) →
              readByte u a = readByte s2 a) ∧
            ((∀ x ∈ cells, ∀ y ∈ cells, ∀ i j, i < x.2.2.2 → j < y.2.2.2 →
                (reachAddr (ps ++ qs) (x.2.2.1 + i)).1 = (reachAddr (ps ++ qs) (y.2.2.1 + j)).1 → x = y ∧ i = j) →
              (∀ n e, n ≤ c.sample.width → e ∈ v.inside → code u (at_ n e.2) 2 =
                if n = 0 ∧ sh.promote = true then code s2 (at_ 0 e.2) 2 else narrow n e) ∧
              (sh.promote = true → code u bitmap 1 = (code s2 bitmap 1) ||| 2 ^ bit ∧ ∀ e ∈ v.inside,
                code u (wide e) 4 = gaccSum .fp32 (flushes 0) .rne (if Bits.bit (code s2 bitmap 1) bit then code s2 (wide e) 4
                  else Sys2Proof.Num.rnd .fp32 .rne (Sys2Proof.Num.decode .bf16 (code s2 (at_ 0 e.2) 2))) (term 0 e)) ∧
              code u (record + 0x18) 4 = (if absorbed = 0 then code s2 (record + 0x18) 4 else total) ∧
              code u (record + 23) 1 = if absorbed ≠ 0 ∧ sh.acc = 2 ∧ sh.threshold < total then code s2 (record + 23) 1 ||| 4
                else code s2 (record + 23) 1)))))) ∧
    (∀ c others, s.colls.find? (fun x => x.id == id) = some c → c.life.wait = none → NoRecord c.sample c.life →
      let x := collDesc c.desc
      let n := c.members.length
      let tk := (s.groupAt c.key).teamKey
      let die := dieOfCore (s.teamAt tk).core
      let ended (u : State) : Prop := CommandEnded s u c.key c.flag true ∧ u.colls = s.colls.filter fun y => y.id != c.id
      let lost : Prop := ∃ m ∈ c.members, m ≠ Config.deviceNumber.toNat ∧ (s.incAt m).up = false
      let own (p : Nat) : List Byte := bufferBytes s2 (s.groupAt c.key).die ps c.sample x.send (x.sent n * x.width) p
      let result (p : Nat) : List Byte := collResult x ⟨c.rank, c.members⟩
        ((others.map fun y => y.images.getD p []).take c.rank ++ own p :: (others.map fun y => y.images.getD p []).drop c.rank)
      let ends (q : State → Prop) : Prop := Goes (exec (.collectiveComplete id others) s) fun u => ended u ∧ q u
      (c.life.past = true ∨ c.life.fault ≠ 0 ∨ lost → ends (SameBytes s)) ∧
      (c.life.past = false → c.life.fault = 0 → ¬lost → others.length + 1 = n →
        ((∃ p ∈ others, partAgrees p x = false) → ends (SameBytes s)) ∧
        ((∀ p ∈ others, partAgrees p x = true) → (∀ p ∈ others, partFull p x n (c.sample.width + 1) = true) →
          reachAll s die 0 false ((Place.mem x.send).addrs c.sample (List.range (x.sent n * x.width))) = (.ok ps, s1) →
          reachAll s1 die 0 true ((Place.mem x.recv).addrs c.sample (List.range (x.received n * x.width))) = (.ok qs, s2) →
          let local_ (p : PagePlace) : Prop := spaceOf p.pa = 0 ∧ leafType p.leaf = 0 ∧ leafClass p.leaf ≤ 1
          ((∃ p ∈ ps ++ qs, ¬local_ p) → ends (SameBytes s2)) ∧
          ((∀ p ∈ ps ++ qs, local_ p) → ends fun u => Placed (readByte s2) (readByte u)
            ((List.range (c.sample.width + 1)).map fun p => fromOffset 0 (result p))
            fun p o => (reachAddr qs (c.sample.planeAddr (x.recv + o) p)).1))))

/-- R216, R217, R222 to R224, R226 to R228, R230 to R232, R243, R307 and R402: at a scalar boundary the first of MISMATCH, XFERERR
and PREEMPT is taken, with its registers, and then a user interrupt; PREEMPT without a handler sets the trap registers as an
entry does, leaves the handler at once, writes the group's record, whose parts it names, and frees its slot; a pre-emption request makes PREEMPT
pending in the groups that hold slots, but in none of the dispatcher's; a team that has parked in time is saved and leaves its
core, with the parts of its save area written and no byte outside it changed; a saved team whose area is sound comes back, its
groups with the registers and its scratchpad and tiles with the contents that the area holds, while one whose area or stored tiles
are not sound ends; a deadline that passes and a machine check end teams, and a failed link those in contact with a region
whose fan-out has lost a die. That a second MISMATCH waits behind the first (log entry 66), and that the dispatcher may request
again when the waiting time has passed once more (log entry 81), are the model's choices. -/
def Obligations.TrapAndPreemptionEvents : Prop :=
  ∀ (key tk die a b core : Nat) (gridid team : BitVec 32) (touched : List Nat) (s s1 : State) (ps : List PagePlace),
    let g := s.groupAt key
    let grid := s.gridAt g.grid
    let vec := grid.record.trapVec
    let entered (t : State) (cause detail : Nat) (addr : Word) : Prop :=
      let h := t.groupAt key
      t.mem = s.mem ∧ h.handler = true ∧ h.trapcause = r99cause cause detail none ∧ h.trappc = g.pc ∧ h.traplanes = 0 ∧
      h.trapaddr = addr ∧ h.pc = (s.gridAt g.grid).record.scalarBase + BitVec.ofNat 56 vec ∧ (h.readA 15).valid = false ∧
      h.hidden.pc = g.pc ∧ h.s = g.s ∧ h.v = g.v ∧ h.q = g.q ∧ h.p = g.p ∧ h.k = g.k ∧ SameFlags g h
    (Assoc.find? s.groups key = some g → g.status = .running → g.handler = false → g.atBoundary = true →
      (∀ detail addr rest, g.mismatch = (detail, addr) :: rest →
        (vec ≠ 0 → Goes (exec (.trapEntry key) s) fun t => entered t 8 detail.toNat addr ∧ (t.groupAt key).mismatch = rest) ∧
        (vec = 0 → Goes (exec (.trapEntry key) s) fun t => TeamEnded s t g.teamKey 2)) ∧
      (∀ code addr, g.mismatch = [] → g.xfererr = some (code, addr) →
        (vec ≠ 0 → Goes (exec (.trapEntry key) s) fun t => entered t 0x20 code.toNat addr ∧ (t.groupAt key).xfererr = none) ∧
        (vec = 0 → Goes (exec (.trapEntry key) s) fun t => TeamEnded s t g.teamKey 2)) ∧
      (g.mismatch = [] → g.xfererr = none → g.preempt = true →
        (vec ≠ 0 → Goes (exec (.trapEntry key) s) fun t => entered t 0x30 0 0 ∧ (t.groupAt key).preempt = false) ∧
        (vec = 0 → canPark s g = true → g.frame.bind (·.evicted) = none → ∀ o x,
          (areaMap (s.putGroup key ((g.enterTrap (trapVector grid) (causeWord .preempt 0 none) g.pc 0 0 none).leaveTrap grid).park)
            g.teamKey).records.find? (fun r => r.2.key == key) = some (o, x) →
          areaPages s g.die true (areaAddrs ((saveBase s g.teamKey + o) % 2 ^ 56) (recordBytes x)) = (ps, none, s1) →
          Goes (exec (.trapEntry key) s) fun t =>
            let h := t.groupAt key
            h.status = .saved ∧ h.handler = false ∧ h.preempt = false ∧ h.trapcause = r99cause 0x30 0 none ∧ h.trappc = g.pc ∧
            h.traplanes = 0 ∧ h.trapaddr = 0 ∧ h.pc = g.pc &&& ~~~3 ∧ SameS g h [] ∧ h.v = g.v ∧ h.q = g.q ∧ h.p = g.p ∧
            (∀ n, h.readA n = g.readA n) ∧ SameFlags g h ∧ SameCsrs g h ∧
            AreaWritten s1 t ps (saveBase s g.teamKey) o (recordBytes x) (recordParts (t.teamAt g.teamKey) h o))) ∧
      (g.boundaryPending = false → g.intState = false → g.intPending = true → g.ulivec ≠ 0 →
        Goes (exec (.userInterruptDelivery key) s) fun t =>
          let h := t.groupAt key
          GroupOnly s t key ∧ h.pc = g.ulivec ∧ h.intReturn = g.pc ∧ h.intPending = (g.intCycle == some s.cycle) ∧ h.intState = true ∧
          h.s = g.s ∧ SameLanes g h ∧ SameFlags g h ∧ SameCsrs g h ∧ h.splits = g.splits)) ∧
    (let k := keyOf gridid.toNat team.toNat
     Goes (exec (.preempt gridid team) s) fun t => t.mem = s.mem ∧
      ((Assoc.find? s.teams k = none ∨ (s.teamAt k).placed = false ∨ (s.teamAt k).request ≠ none ∨ (s.teamAt k).grid = 0) → t = s) ∧
      (∀ x, Assoc.find? s.teams k = some x → x.placed = true → x.request = none → x.grid ≠ 0 →
        (t.teamAt k).request = some (s.cycle.toNat + teamDeadline s k) ∧
        ∀ n, (t.groupAt n).preempt = ((s.groupAt n).preempt || ((Assoc.find? s.groups n).isSome &&
          (s.groupAt n).teamKey == k && (s.groupAt n).status == .running)))) ∧
    (∀ c since, firstChoice s die = some c → (s.gridAt (c.grid s)).waiting = some (c.teamKey s, since) → s.ctl.init.getLsbD 3 = false →
      2 ≤ (s.gridAt (c.grid s)).priority → since + 250000 ≤ s.cycle.toNat →
      Goes (exec (.dispatcherPreemptionRequest die) s) fun t => t.mem = s.mem ∧
        (t.gridAt (c.grid s)).waiting = some (c.teamKey s, s.cycle.toNat) ∧ t = { s with groups := t.groups, teams := t.teams, grids := t.grids }) ∧
    (let va := saveBase s tk
     let size := (areaMap s tk).size
     (saveReady s tk = true → (∀ d, (s.teamAt tk).request = some d → s.cycle.toNat ≤ d) →
        areaPages s (dieOfCore (s.teamAt tk).core) true (areaAddrs va size) = (ps, none, s1) →
        Goes (exec (.teamSave tk) s) fun t => (t.teamAt tk).placed = false ∧ (t.teamAt tk).request = none ∧
          (t.teamAt tk).saved = some s1.stamp ∧ t.groups = s1.groups ∧
          AreaWritten s1 t ps va 0 size (saveImage
            { s1.putTeam tk { s.teamAt tk with hidden := s1.free } with free := s1.free + size } tk)) ∧
     (∀ g0 rest x, placerCore s (s.gridAt (s.teamAt tk).grid).die = some (.saved tk, core) → s.teamGroups tk = g0 :: rest →
        (s.teamAt tk).sram ≤ (s.coreAt core).taken →
        areaPages s (dieOfCore core) false (areaAddrs va size) = (ps, none, s1) →
        (∀ y ∈ areaAddrs va size, ∃ p ∈ ps, p.page = y / 65536) →
        let rd := readArea s1 (dieOfCore core) ps va
        (areaOk s1 tk rd = true → restoreScratch (s1.teamAt tk) rd (areaMap s1 tk).scratch = none →
          Goes (exec (.teamRestore tk) s) fun t => TeamEnded s1 t tk 4) ∧
        (areaOk s1 tk rd = false → Goes (exec (.teamRestore tk) s) fun t => TeamEnded s1 t tk 6) ∧
        (areaOk s1 tk rd = true → restoreScratch (s1.teamAt tk) rd (areaMap s1 tk).scratch = some x →
          Goes (exec (.teamRestore tk) s) fun t => t.mem = s1.mem ∧
            (let w := s.teamAt tk
             let m := areaMap s1 tk
             let y := t.teamAt tk
             y.placed = true ∧ y.core = core ∧ y.saved = none ∧ y.scratch = x.scratch ∧
             (w.offsets = [] → ∀ k i, k ≤ w.width → i < w.w / 4096 →
               y.readScratch (k * w.w + i * 4096) 4096 = rd (m.scratch + k * w.w + i * 4096) 4096) ∧
             (w.width < 5 → ∀ z k i, z < w.tiles → k ≤ w.width → i < 16384 →
               (y.readZ z k).getD i 0 = Bits.leNat (rd (m.tiles + (z * (w.width + 1) + k) * 65536 + 4 * i) 4)) ∧
             ((m.records.map (·.2.key)).Nodup → ∀ r ∈ m.records,
               RecordRestored rd r.1 r.2 (t.groupAt r.2.key) ∧
               (r.2.status = .saved → (t.groupAt r.2.key).status = .running ∧ (t.groupAt r.2.key).core = core)))))) ∧
    (s.teamGroups tk ≠ [] → (Assoc.find? s.teams tk).isSome = true →
      (∀ deadline, (s.teamAt tk).request = some deadline → deadline < s.cycle.toNat →
        Goes (exec (.preemptionDeadline tk) s) fun t => TeamEnded s t tk 3) ∧
      ((s.teamAt tk).grid ≠ 0 → Goes (exec (.machineCheck tk) s) fun t => TeamEnded s t tk 4 ∧ t.ctl.mcheck = true)) ∧
    (a < 4 → b < 4 → (a ^^^ b = 1 ∨ a ^^^ b = 2) → Goes (exec (.dieLinkFailure a b touched) s) fun t =>
      t.ctl.fatal = true ∧ t.ctl.mcheck = true ∧ Output.msix 1 ∈ t.outputs ∧ t.mem = s.mem ∧
      t.links = (min a b, max a b) :: s.links ∧
      ∀ k, touched = [k] → s.teamGroups k ≠ [] → (Assoc.find? s.teams k).isSome = true → (s.teamAt k).grid ≠ 0 →
        linkTouches { s with links := (min a b, max a b) :: s.links } (dieOfCore (s.teamAt k).core) = true → TeamEnded s t k 4)

/-- R215, R239, R241, R243 to R245, R249, R252, R272, R320, R321, R355, R356, R377, R394 and R404: a walk sets the leaf's accessed
bit, and dirty bit for a write, and caches it, whatever the access then meets; one that meets a migrating node waits from then on;
a pending record enters the queue with its number and is written to its place; service takes the record from the queue and
lets the streams that waited on it go on; a ready side-log entry is performed; and leases end, a request for a line that another
die takes to write leaves no holder a copy, siblings merge, and a dirty line is written back under the tag of its content, with
every byte of memory as it was. -/
def Obligations.PageAndCacheEvents : Prop :=
  ∀ (die core line : Nat) (va : BitVec 56) (value : Word) (s s1 : State),
    let d := s.dieAt die
    let k := s.coreAt core
    (∀ write e at_ level, die < 4 → needsWalk s die va.toNat write = true → walkBy s die va.toNat = .leaf e at_ level →
      let size := pageSize level
      let e' := e ||| 0x40 ||| (if write = true then 0x20 else 0)
      Goes (exec (.pageWalk die va write) s) fun t =>
        t.groups = s.groups ∧ SameBytesBut s t at_ 8 ∧ readNat t at_ 8 = e'.toNat ∧
        ∃ x, tlbFind (t.dieAt die) va.toNat = some x ∧ x.leaf = e' ∧ x.size = size) ∧
    (∀ write level, die < 4 → needsWalk s die va.toNat write = true → walkBy s die va.toNat = .waiting level →
      Assoc.find? d.walks (va.toNat / 65536 * 65536) = none → Goes (exec (.pageWalk die va write) s) fun t =>
        t = { s with dies := t.dies, l2 := t.l2, tags := t.tags } ∧
        Assoc.find? (t.dieAt die).walks (va.toNat / 65536 * 65536) = some (some s.cycle.toNat)) ∧
    (∀ since, Assoc.find? d.walks (va.toNat / 65536 * 65536) = some (some since) → since + 25000 ≤ s.cycle.toNat →
      Goes (exec (.walkMigratingTimeout die va) s) fun t =>
        t = s.putDie die { d with walks := Assoc.put d.walks (va.toNat / 65536 * 65536) none }) ∧
    (∀ r rest, d.faultPend = r :: rest → d.faults.length < 1024 → d.queued < 1024 → Goes (exec (.faultRecord die) s) fun t =>
      let r' := { r with seq := d.faultSeq % 2 ^ 32, cycle := s.cycle }
      let place := faultBase die + 64 * (r'.seq % 1024)
      t.groups = s.groups ∧ (t.dieAt die).faults = d.faults ++ [r'] ∧ (t.dieAt die).faultPend = rest ∧
      (t.dieAt die).faultSeq = d.faultSeq + 1 ∧ readBytes t place 64 = r'.image ∧ SameBytesBut s t place 64) ∧
    ((∀ q ∈ (s.dieAt (Bits.field value.toNat 32 2)).faults, q.seq ≠ Bits.field value.toNat 0 32) →
      exec (.svcdone value) s = .next s) ∧
    (∀ r, s.unserviced (Bits.field value.toNat 32 2) (Bits.field value.toNat 0 32) = some r → Bits.field value.toNat 34 2 ≤ 1 →
      Goes (exec (.svcdone value) s) fun t =>
        (∀ q ∈ (t.dieAt (Bits.field value.toNat 32 2)).faults, q.seq ≠ Bits.field value.toNat 0 32) ∧
        (Bits.field value.toNat 34 2 = 0 → r.kind < 4 → privateReadOnly s r = false → t.mem = s.mem ∧ ∀ n g, Assoc.find? s.groups n = some g → g.grid = r.grid →
          g.die = Bits.field value.toNat 32 2 → g.wait = .service → r.holds g.waitMark = true →
          (t.groupAt n).wait = .none ∧ (t.groupAt n).pc = g.pc ∧ SameS g (t.groupAt n) [])) ∧
    (∀ seq outcome code r, s.unserviced die seq = some r → hostServes s r.kind = false → outcome ≤ 1 →
      (r.kind = 2 → outcome = 0 → (copyOnWrite s s r).isSome = true) → Goes (exec (.pageServiceComplete die seq outcome code [] []) s) fun t =>
        ∀ q ∈ (t.dieAt die).faults, q.seq ≠ seq) ∧
    (∀ entry e ps, k.sideLog.find? (fun x => x.id == entry) = some e → e.ready = true → e.first k.sideLog = true →
      logWaiters s core = [] → checkAcc { s with cur := ⟨e.key, none⟩ } core e.acc = (.ok ps, s1) → Goes (exec (.sideLogReplay core entry) s) fun t =>
        (∀ x ∈ (t.coreAt core).sideLog, x.id ≠ entry) ∧
        ∀ data p, e.acc.kind = .store data → ps = [p] → p.n = data.length → refusedPieces s1 e.acc.kind ps = false →
          readBytes t p.pa p.n = data ∧ SameBytesBut s1 t p.pa p.n) ∧
    (∀ l, Assoc.find? k.l1 line = some l → l.live s.cycle.toNat = false → Goes (exec (.leaseExpiry core line) s) fun t =>
      t = { s with cores := t.cores } ∧ Assoc.find? (t.coreAt core).l1 line = none) ∧
    (∀ requester write, die < 4 → requester < 4 → line < dieLines → Goes (exec (.orreryRequest die requester line write) s) fun t =>
      let pa := die * (192 * 2 ^ 30) + line * 128
      t = { s with dies := t.dies, l2 := t.l2, tags := t.tags } ∧
      (write = true → requester ≠ die → Assoc.find? t.l2 (pa / 128) = none ∧
        ∃ r ∈ (t.dieAt die).orrery, r.covers line = true ∧ r.st = .m ∧ r.holders = dieBit requester) ∧
      ∀ r n, write = true → d.orrery.find? (·.covers line) = some r → n < 4 → r.holders.getLsbD n = true → n ≠ requester →
        Assoc.find? t.l2 (l2Key n pa) = none) ∧
    (∀ x y, d.orrery.find? (fun r => r.line == line) = some x → d.orrery.find? (fun r => r.line == line ^^^ 2 ^ x.j && r.j == x.j) = some y →
      x.j < 9 → x.st = y.st → x.holders = y.holders → x.quiet + 65536 ≤ s.cycle.toNat → y.quiet + 65536 ≤ s.cycle.toNat →
      Goes (exec (.regionMerge die line) s) fun t => t = { s with dies := t.dies } ∧ x ∉ (t.dieAt die).orrery ∧ y ∉ (t.dieAt die).orrery ∧
        ∃ z ∈ (t.dieAt die).orrery, z.line = min x.line y.line ∧ z.j = x.j + 1 ∧ z.st = x.st ∧ z.holders = x.holders) ∧
    (∀ l, Assoc.find? s.l2 line = some l → l.dirty = true → Goes (exec (.lineWriteBack line) s) fun t =>
      t = { s with l2 := t.l2, tags := t.tags } ∧ Assoc.find? t.l2 line = some { l with dirty := false } ∧
      Assoc.get 1 t.tags (line % 2 ^ 45) =
        if l.cmp = true then Compress.lineTag (lineOf (readBytes s (keyAddr line) 128)) else 0)

/-- R360, R378, R393 to R398, R401 to R406: what the host and other devices do at the edge. The memory window reads, writes
and performs AtomicOps at the home; an incoming access is performed if an export range allows it, else refused; a device is
lost and comes back; the mailbox rises; the dispatcher launches the next request and answers it, or copies it while its grid
queue is full; the control window's registers take what they keep; a checkpoint or restore starts or is refused, and ends with its
result. The dispatcher's work as one event (log entry 46), the keys that a checkpoint takes at its start, and what one whose
destination is not ok leaves (log entry 36) are the model's choices. -/
def Obligations.HostAndFabricEvents : Prop :=
  ∀ (offset n device : Nat) (data : List Byte) (op : BusAtomic) (operand comparand : Nat) (value : Word) (s : State),
    let a := windowAddr s offset
    let answered (t : State) (o : Output) : Prop := t.outputs = s.outputs ++ [o] ∧ t.groups = s.groups
    (offset + data.length ≤ 2 ^ s.ctl.barLg →
      (windowOpen s a data.length true = false → Goes (exec (.hostWrite offset data) s) fun t =>
        answered t .unsupported ∧ t.mem = s.mem) ∧
      (windowOpen s a data.length true = true → overlap a data.length recoverField 8 = false →
        Goes (exec (.hostWrite offset data) s) fun t => t.groups = s.groups ∧ readBytes t a data.length = data ∧
          SameBytesBut s t a data.length)) ∧
    (offset + n ≤ 2 ^ s.ctl.barLg →
      (Goes (exec (.hostRead offset n) s) fun t => t.mem = s.mem ∧
        answered t (if windowOpen s a n false = true then .completion (readBytes s a n) else .unsupported)) ∧
      (busAtomicOk op n a = true → windowOpen s a n true = true → s.firmware = true →
        overlap a n recoverField 8 = false →
        Goes (exec (.hostAtomicop offset op n operand comparand) s) fun t =>
          answered t (.completion (Bits.leBytes n (readNat s a n))) ∧ SameBytesBut s t a n ∧
          readNat t a n = busResult op n (readNat s a n) operand comparand % 2 ^ (8 * n))) ∧
    (remoteDevice device = true →
      (∀ address, Goes (exec (.ualinkIncomingAccess device address (.store data)) s) fun t => t.groups = s.groups ∧
        if address + data.length ≤ hbmEnd ∧ exported s address data.length 1 = true then
          answered t (.fabricAnswer []) ∧ readBytes t address data.length = data ∧ SameBytesBut s t address data.length
        else answered t .fabricRefused ∧ t.mem = s.mem) ∧
      (∀ address, Goes (exec (.ualinkIncomingAccess device address (.load n)) s) fun t => t.mem = s.mem ∧
        answered t (if address + n ≤ hbmEnd ∧ exported s address n 0 = true then .fabricAnswer (readBytes s address n)
          else .fabricRefused)) ∧
      (∀ i, i = Instr.incarnationChange device ∨ (i = .fabricPathTimeout device ∧ (s.incAt device).up = true) →
        Goes (exec i s) fun t => t.incAt device = ⟨(s.incAt device).num + 1, false⟩ ∧
          ((∀ c ∈ s.cores, c.2.transit = [] ∧ c.2.sideLog = [] ∧ c.2.sent = []) → ∀ d, d < 4 → ∀ x ∈ (t.dieAt d).tlb, onDevice device (leafFrame x.leaf * 65536) = false)) ∧
      ((s.incAt device).up = false → Goes (exec (.fabricDeviceUp device) s) fun t =>
        t = { s with incs := t.incs } ∧ t.incAt device = { s.incAt device with up := true })) ∧
    (Goes (exec (.mbox value) s) fun t => t = { s with ctl := t.ctl } ∧
      (s.ctl.init.getLsbD 0 = true → t.ctl = { s.ctl with mbox := if s.ctl.mbox.toNat < value.toNat then value else s.ctl.mbox }) ∧
      (s.ctl.init.getLsbD 0 = false → t.ctl.mbox = s.ctl.mbox)) ∧
    (let seq := s.ctl.next.toNat
     let lg := s.ctl.reqbase.toNat % 16
     let bs := readBytes s (hostAddr (s.ctl.reqbase.toNat / 4096 * 4096 + 512 * (seq % 2 ^ lg))) 512
     let rsp := hostAddr (s.ctl.rspbase.toNat / 256 * 256 + 16 * (seq % 2 ^ lg))
     let waiting := gridsWaiting s (queueDie (recordOfBytes (part bs 0x40 256)).dies 0)
     s.firmware = true → s.ctl.init.getLsbD 0 = true → s.ctl.fatal = false → seq < s.ctl.mbox.toNat → launchHeld s = false →
     s.request = none →
      (64 ≤ waiting → requestBad bs seq = false → (recordOfBytes (part bs 0x40 256)).system = false →
        launchReasons s (part bs 0x40 256) false 0 = [] → exec .dispatchRequest s = .next { s with request := some bs }) ∧
      (waiting < 64 → Goes (exec .dispatchRequest s) fun t =>
        t.groups = s.groups ∧ t.ctl = { s.ctl with next := s.ctl.next + 1 } ∧ SameBytesBut s t rsp 16 ∧ readNat t rsp 8 = seq ∧
        (requestBad bs seq = true → readNat t (rsp + 8) 8 = 2 ^ 63 + 0x80 ∧ t.grids = s.grids) ∧
        (requestBad bs seq = false → (recordOfBytes (part bs 0x40 256)).system = true →
          readNat t (rsp + 8) 8 = 2 ^ 63 + 0x81 ∧ t.grids = s.grids) ∧
        (requestBad bs seq = false → (recordOfBytes (part bs 0x40 256)).system = false →
          launchReasons s (part bs 0x40 256) false 0 = [] → readNat t (rsp + 8) 8 = s.freeGrid % 2 ^ 64 ∧
          ∃ x, Assoc.find? t.grids s.freeGrid = some x ∧ x.record = recordOfBytes (part bs 0x40 256) ∧ x.launcher = none))) ∧
    (value.getLsbD 0 = true → Goes (exec (.initDone value) s) fun t =>
      (s.ctl.init.getLsbD 0 = true → t = s) ∧
      (s.ctl.init.getLsbD 0 = false →
        t = { s with
          ctl := { s.ctl with
            init := value &&& 0x3F
            mbox := if s.ctl.mbox.toNat < s.ctl.mboxHeld.toNat then s.ctl.mboxHeld else s.ctl.mbox } })) ∧
    (groupInUse s s.ctl.fgtidx.toNat = false → Goes (exec (.fgtdata value) s) fun t => t = { s with fabric := t.fabric } ∧
      ∀ i, Assoc.get 0 t.fabric i = if i = s.ctl.fgtidx.toNat then value &&& 0xFFFFFFFFFF3FFFFF else Assoc.get 0 s.fabric i) ∧
    ((∀ i, i = Instr.checkpoint ∨ i = .restore → Goes (exec i s) fun t => t.mem = s.mem ∧
        (s.ctl.fatal = true ∨ s.ctl.ckpt = true → t.ctl.ckptstat.toNat % 8 = 1 ∧ t.ckpt = s.ckpt) ∧
        (s.ctl.fatal = false → s.ctl.ckpt = false → userTeams s = [] → (∀ c ∈ s.cores, c.2.sideLog = []) →
          t.ctl.ckpt = true ∧ t.ctl.ckptstat = 0 ∧ t.ckpt = some ⟨i == .restore, (takeKeys s (s.keys.map (·.1))).1⟩)) ∧
      ∀ c, s.ckpt = some c → (s.ctl.init.getLsbD 5 = true ∨ userTeams s = []) → Goes (exec .checkpointEnd s) fun t =>
        t.ckpt = none ∧ t.ctl.ckpt = false ∧ t.outputs = s.outputs ++ [.msix 2] ∧
        (destinationOk s s.ctl.ckptdst.toNat = false → t.mem = s.mem ∧ t.ctl.ckptstat = 4)) ∧
    (let write (o : Nat) (t : State) : Prop := exec (.controlRegisterWrite o value) s = .next t
     let early (c : Control) : State := if s.ctl.init.getLsbD 0 = true then s else { s with ctl := c }
     (value.getLsbD 0 = true → exec (.controlRegisterWrite 0x0 value) s = exec (.initDone value) s) ∧
     (value.getLsbD 0 = false → write 0x0 (early { s.ctl with init := value &&& 0x3F })) ∧
     write 0x8 { s with ctl := { s.ctl with mcheck := s.ctl.mcheck && !value.getLsbD 2 } } ∧
     write 0x10 (early { s.ctl with ptroot := value &&& 0x000FFFFFFFFFE000 }) ∧
     write 0x18 (early { s.ctl with reqbase := value &&& 0xFFFFFFFFFFFFF00F }) ∧
     write 0x20 (early { s.ctl with rspbase := value &&& 0xFFFFFFFFFFFFFF00 }) ∧
     write 0x28 { s with ctl := { s.ctl with winbase := value &&& 0x0003FFFFC0000000 } } ∧
     exec (.controlRegisterWrite 0x30 value) s =
       exec (.preempt (BitVec.ofNat 32 (value.toNat / 2 ^ 32)) (BitVec.ofNat 32 value.toNat)) s ∧
     exec (.controlRegisterWrite 0x38 value) s = exec (.svcdone value) s ∧
     (∀ d, d < 4 → write (0x60 + 8 * d) (s.putDie d { s.dieAt d with faultCons := value.toNat % 2048 })) ∧
     write 0x80 { s with ctl := { s.ctl with fgtidx := value.setWidth 8 } } ∧
     exec (.controlRegisterWrite 0x88 value) s = exec (.fgtdata value) s ∧
     (∀ i, i < 32 → Goes (exec (.controlRegisterWrite (0x100 + 8 * i) value) s) fun t =>
       t = { s with ctl := { s.ctl with exports := t.ctl.exports } } ∧ ∀ j, Assoc.get (0 : Word) t.ctl.exports j =
         if j = i then value &&& (if i % 2 = 0 then 0x000FFFFFFFFF0007 else 0x000000FFFFFF0000) else Assoc.get 0 s.ctl.exports j) ∧
     write 0x200 { s with ctl := { s.ctl with ckptdst := value &&& 0x000FFFFFFFFFFFFF } } ∧
     (value.toNat % 4 = 1 → exec (.controlRegisterWrite 0x208 value) s = exec .checkpoint s) ∧
     (value.toNat % 4 = 2 → exec (.controlRegisterWrite 0x208 value) s = exec .restore s))

/-- R101, R252, R309, R386, R387 and R407 to R415: the clock advances CYCLE and chooses what issues; errors and retries
count; a device reset discards registers and memories but not the flash, the fuses and the host's memory, and ends in the
status that the images decide, with the dispatcher's group placed if firmware runs; a thermal trip resets the device, and so does
a temperature of 115 degrees; a staged image is judged and taken into slot B; the fused minimum only rises; a report and the
telemetry are written to their blocks. Whether the training of links succeeds is an opaque value that the spec leaves to the
hardware (log entry 5), and the statement holds for either answer. That an update of the telemetry that no read interrupts is one
event, which takes the cap that it enforces as it begins (log entry 50), and which slot's image runs after one was loaded (log
entry 87), are the model's choices. -/
def Obligations.ResetAndClockEvents : Prop :=
  ∀ (die index n : Nat) (tel : Telemetry) (value : Word) (s : State),
    let kept (t : State) : Prop := t.slotA = s.slotA ∧ t.slotB = s.slotB ∧ t.fusedMin = s.fusedMin ∧
      (t.firmware = true → t.groups = State.reset.groups ∧ t.teams = State.reset.teams ∧ t.grids = State.reset.grids) ∧
      (t.firmware = false → t.groups = [] ∧ t.teams = [] ∧ t.grids = []) ∧ t.cycle = State.reset.cycle ∧ t.ctl = State.reset.ctl ∧ t.keys = State.reset.keys ∧
      ∀ a, 2 ≤ spaceOf a → readByte t a = readByte s a
    let stopped (t : State) (n : Nat) : Prop := t.bootStat = n ∧ t.firmware = false ∧ readNat t bootBlock 8 = n
    let booted (t : State) : Prop := kept t ∧ t.boot = none ∧
      readNat t (bootBlock + 0x18) 8 = s.fusedMin.toNat ∧
      (Config.trainingFails s.tick 1 = true → stopped t 3) ∧
      (Config.trainingFails s.tick 1 = false → bootImage s = none → stopped t 2) ∧
      (∀ slotB img, Config.trainingFails s.tick 1 = false → bootImage s = some (slotB, img) →
        if Config.trainingFails s.tick 3 = true then stopped t 3
        else t.bootStat = 1 ∧ t.firmware = true ∧ readNat t bootBlock 8 = 1 ∧
          readNat t (bootBlock + 8) 8 = (if slotB = true then 1 else 0) ∧ readNat t (bootBlock + 0x10) 8 = imageSvn img ∧
          readBytes t (bootBlock + 0x20) 48 = fixedBytes 48 (measurement img) ∧ t.svn.toNat = imageSvn img)
    (Goes (exec .deviceReset s) booted) ∧ (Goes (exec .thermalTrip s) booted) ∧
    (windowOpen s recoverField 8 true = false → exec (.recover value) s = .next { s with outputs := s.outputs ++ [.unsupported] }) ∧
    (windowOpen s recoverField 8 true = true → s.checking.isSome = true → exec (.recover value) s = .next s) ∧
    (windowOpen s recoverField 8 true = true → s.checking = none → value.toNat = n → value ≠ 0x8000000000000000 →
      (s.bootStat = 1 ∨ s.bootStat = 2) → Goes (exec (.recover value) s) fun t => t.slotA = s.slotA ∧ t.fusedMin = s.fusedMin ∧ t.groups = s.groups ∧
        (n ≤ stagingBytes → imageValid (readBytes s staging n) s.fusedMin = true →
          t.slotB = readBytes s staging n ∧ t.loaded = true ∧ t.bootStat = 4 ∧ readNat t bootBlock 8 = 4) ∧
        ((stagingBytes < n ∨ imageValid (readBytes s staging n) s.fusedMin = false) →
          t.slotB = s.slotB ∧ t.loaded = s.loaded ∧ t.bootStat = 5 ∧ readNat t bootBlock 8 = 5)) ∧
    (s.firmware = true → s.checking = none → Goes (exec (.fusedMinimumRaise 0x8000000000000000) s) fun t => t.slotA = s.slotA ∧ t.slotB = s.slotB ∧
      t.fusedMin.toNat = max s.fusedMin.toNat s.svn.toNat ∧ t.groups = s.groups) ∧
    (s.firmware = true → readNat s attestRequest 8 = 1 → Goes (exec .attestation s) fun t => t.groups = s.groups ∧
      readNat t attestRequest 8 = 2 ∧ readBytes t (bootBlock + 0x3000) 32 = fixedBytes 32 (attestNonce s) ∧
      readBytes t (bootBlock + 0x3020) 48 = fixedBytes 48 s.measured ∧
      readNat t (bootBlock + 0x3050) 8 = s.svn.toNat ∧ readNat t (bootBlock + 0x3058) 8 = s.fusedMin.toNat ∧
      readNat t (bootBlock + 0x3060) 8 = s.ctl.init.toNat) ∧
    (s.firmware = true → tripped tel = true → exec (.telemetryUpdate tel) s = exec .thermalTrip s) ∧
    (s.firmware = true → tripped tel = false → s.telem = [] → Goes (exec (.telemetryUpdate tel) s) fun t => t.groups = s.groups ∧
      t.telemSeq = s.telemSeq + 2 ∧ readNat t telemetryBlock 8 = (s.telemSeq + 2).toNat ∧ t.telem = [] ∧
      readNat t (telemetryBlock + 8) 8 = tel.power.toNat ∧ readNat t (telemetryBlock + 0x10) 8 = max s.energy.toNat tel.energy.toNat ∧
      (∀ d, d < 4 → readNat t (telemetryBlock + 0x18 + 8 * d) 8 = (tel.temps.getD d 0).toNat) ∧
      readNat t (telemetryBlock + 0x38) 8 = throttleBits tel s.capNext ∧ t.cap = s.capNext ∧
      t.capNext = capOf (BitVec.ofNat 64 (readNat s (telemetryBlock + 0x40) 8))) ∧
    (Goes (exec .coreCycle s) fun t =>
      let s1 := settleStores s
      t.cycle = (if s.firmware = true then s.cycle + 1 else s.cycle) ∧ t.mem = s1.mem ∧ t.issue = issueOrder s1 ((pickAll s1).filterMap (·.chosen)) ∧
      (∀ k, (t.groupAt k).pc = (s1.groupAt k).pc ∧ SameS (s.groupAt k) (t.groupAt k) [] ∧ SameLanes (s.groupAt k) (t.groupAt k)) ∧
      ((∀ c ∈ s.cores, (s.coreAt c.1).sent = [] ∧ logWaiters s c.1 = []) → (∀ x ∈ s.teams, x.2.engine.queue = []) → s1 = s)) ∧
    (∀ i, die < 4 → (i = Instr.correctedError die index ∧ index ≤ 5) ∨ (i = .linkRetry die index ∧ 6 ≤ index ∧ index ≤ 8) →
      Goes (exec i s) fun t => t = { s with dies := t.dies } ∧
        let old := Assoc.get 0 (s.dieAt die).status index
        ∀ j, Assoc.get 0 (t.dieAt die).status j =
          if j = index then (if old = BitVec.allOnes 32 then old else old + 1) else Assoc.get 0 (s.dieAt die).status j)

/-- R232, R234, R238, R355, R356 and R358: a translation writes at most the 8 bytes of the leaf that its walk finds, changes no
group, team or grid, and answers an address in a frame that the machine has, in no region whose fan-out has lost a die, writable
for a write. -/
def Obligations.Translation : Prop :=
  ∀ (die va : Nat) (write : Bool) (s t : State) (x : Xlat), translate s die va write = (x, t) →
    t.groups = s.groups ∧ t.teams = s.teams ∧ t.grids = s.grids ∧ t.ctl = s.ctl ∧
    (∀ e at_ level, walkBy s die va = .leaf e at_ level → SameBytesBut s t at_ 8) ∧
    ((∀ e at_ level, walkBy s die va ≠ .leaf e at_ level) → SameBytes s t) ∧
    ∀ pa leaf, x = .ok pa leaf → frameFault s pa = false ∧ cutOff s pa = false ∧ (write = true → leafW leaf = true ∧ leafCow leaf = false) ∧
      (spaceOf pa = 3 → (s.incAt (deviceOf pa)).up = true)

/-- R32, R394, R407, R409 and R410: what a device reset leaves, by the spec's values: of all grids, teams and groups the
dispatcher's, of system mode and placed on core 0; no cached translation or node, key or collective; every register of the
control and mailbox windows at 0; and the memory is in its canonical form. That the dispatcher's numbers and its slot are 0 is
the model's choice (log entry 46). -/
def Obligations.ResetState : Prop :=
  let s := State.reset
  Inv s ∧ s.grids.map (·.1) = [0] ∧ s.teams.map (·.1) = [0] ∧ s.groups.map (·.1) = [0] ∧ (s.gridAt 0).record.system = true ∧
  (s.teamAt 0).placed = true ∧ (s.teamAt 0).core = 0 ∧ (s.groupAt 0).core = 0 ∧ (s.groupAt 0).slot = 0 ∧
  (s.groupAt 0).priv = true ∧ (s.groupAt 0).handler = false ∧ s.colls = [] ∧ s.keys = [] ∧ s.cycle = 0 ∧
  (∀ d, (s.dieAt d).tlb = [] ∧ (s.dieAt d).nodes = [] ∧ (s.dieAt d).orrery = [] ∧ (s.dieAt d).shapes = [] ∧ (s.dieAt d).faults = [] ∧ (s.dieAt d).faultCons = 0) ∧
  (∀ c, (s.coreAt c).sideLog = [] ∧ (s.coreAt c).transit = [] ∧ (s.coreAt c).l1 = [] ∧ (s.coreAt c).tlb = []) ∧
  s.ctl.init = 0 ∧ s.ctl.mcheck = false ∧ s.ctl.ckpt = false ∧ s.ctl.fatal = false ∧ s.ctl.ptroot = 0 ∧ s.ctl.reqbase = 0 ∧
  s.ctl.rspbase = 0 ∧ s.ctl.winbase = 0 ∧ s.ctl.fgtidx = 0 ∧ s.ctl.ckptdst = 0 ∧ s.ctl.ckptstat = 0 ∧ s.ctl.mbox = 0 ∧
  ∀ i, Assoc.get (0 : Word) s.ctl.exports i = 0

/-- R63, R67, R76 and R350, on the worked encodings of 03_encoding.md: FFMA.f32.rne V4, V1, -V2, |V3|; FADD.f32 V7, V7, 1.5;
the header wait=F2 set=F1 end, count 3; ADDI S5, S6, -3; BR.nez S7, 5 words back; beside them a word of each other scalar
format and a micro-operation, and an unassigned opcode, refused by name. -/
def Obligations.DecodedWords : Prop :=
  decodeLane 0x00C08010100C009008000000 = .ok (.ffma ⟨4, 1, 2, 3, 0, 0, 0, 0b001001, 0, 0, 1, 0, 0, 0⟩) ∧
  decodeLane 0x0040E07FC1FC000000400000 = .ok (.fadd ⟨7, 7, 504, 0x7F, 0, 0, 0, 0, 0, 0, 0, 0, 0, 0x400000⟩) ∧
  decodeHeader 0xF004880C2000000000000000 = .ok ⟨4, true, 1, false, 0, 3, 0, false, true⟩ ∧
  decodeScalar 0x3028DFFA 0 = .ok (.addi ⟨5, 6, 0xFFD, 0⟩) ∧ decodeScalar 0x5821FFFB 0 = .ok (.br ⟨2, 7, 0x3FFB⟩) ∧
  decodeScalar 0b0000001_000011_000001_000010_0000001 0 = .ok (.sub ⟨3, 1, 2, 1⟩) ∧
  decodeScalar 0b1001010_000100_000101_111111111100_0 0 = .ok (.sld 2 ⟨4, 5, 0xFFC, 0⟩) ∧
  decodeScalar 0b010100_1_000110_0000000000000000001 0 = .ok (.lui ⟨6, 0x80001⟩) ∧
  decodeScalar 0b0101110_000111_000000_0000000000001 0xDEADBEEF = .ok (.liHi ⟨7, 0, 1, 0xDEADBEEF⟩) ∧
  decodeMicro 0b000110_10_00000000_1111111111111111 = .ok (.micStep 2 0xFFFF) ∧
  decodeScalar 0b0100101_0000000000000000000000000 0 = .error (.unassigned 0x25)

/-- R2, R64, R66, R78, R81 and R309: a step at which a chosen stream is a candidate fetches at its position, decodes, and is
what exec does with the decoded instruction, or takes ILLOP for a word that is no instruction; besides, only a performance
counter counts the issue. With nothing chosen, a step makes one of the moves that are possible, or a cycle of the clock:
which one is a free choice (the spec gives upper bounds only; log entry 1). -/
def Obligations.StepRunsTheDecodedInstruction : Prop :=
  ∀ (s s' : State) (c : Stream) (rest : List Stream) (ws : List (BitVec 32)),
    let s0 : State := { s with tick := s.tick + 1 }
    let now : State := { s0 with issue := rest, cur := c, core := (s.groupAt c.key).core }
    let g := s.groupAt c.key
    let runs (r : Except Reject Instr) : Prop :=
      (∀ i, r = .ok i →
        (∀ t, exec i s' = .next t → ∃ u, step s = .next u ∧ u = { t with cores := u.cores }) ∧
        (∀ f, exec i s' = .fault f → step s = .fault f) ∧ (∀ f, exec i s' = .refused f → step s = .refused f)) ∧
      (∀ e, r = .error e → step s = trapIllop s')
    s.cancelled = [] → overdueTeam s0 = none →
    (s.issue = c :: rest → s.firmware = true → stillReady { s0 with issue := rest } c = true →
      (c.lane = none → fetchScalar now g.die g.pc.toNat = (.words ws, s') → ws ≠ [] →
        runs (decodeScalar (ws.getD 0 0) (ws.getD 1 0))) ∧
      (∀ i, c.lane = some i → fetchWords now g.die true ((g.splitAt i).next (s.gridAt g.grid)).toNat 3 = (.words ws, s') →
        runs (decodeLane (laneBits ws)))) ∧
    (s.issue = [] → ∃ m, (m = .event .coreCycle ∨ m ∈ possibleMoves s0) ∧ step s = runMove m s0 ∧
      (∀ i, runMove (.event i) s0 = exec i s0) ∧ ∀ n i, runMove (.micro n i) s0 = exec i { s0 with core := n })

/-- R63, R64, R67, R72, R81 and R350: decoding the words of a well-formed instruction gives the instruction back, with every
field at every value that its encoding admits. -/
def Obligations.DecodeOfEncode : Prop :=
  ∀ (i : Instr) (c : Code), i.wf = true → encode i = some c → decode c = .ok i

/-- Every step from any state keeps the canonical form of the memory: addresses strictly rise, and no entry equals what an
unlisted address reads as. -/
def Obligations.EveryStepKeepsTheMemoryForm : Prop :=
  ∀ (s t : State), Inv s → step s = .next t → Inv t
end

