-- ==== Sys2Proof/Laws/Assoc.lean ====
section
/-! SUPPORT. Sparse data: a read after a write, and the canonical form that every write keeps. -/

namespace Sys2Proof.Assoc

variable {α : Type}

/-- An erased key has no entry, and other keys keep theirs. -/
theorem find?_erase (l : List (Nat × α)) (k j : Nat) : find? (erase l k) j = if k = j then none else find? l j := by
  induction l with
  | nil => simp [erase, find?]
  | cons p t ih =>
    simp only [erase] at ih
    by_cases h : p.1 = k
    · by_cases hj : k = j <;> simp_all [erase, find?]
    · by_cases hj : k = j
      · subst hj; simp_all [erase, find?]
      · simp_all [erase, find?]

/-- A key placed where it is absent reads as its value. -/
theorem find?_place (l : List (Nat × α)) (k j : Nat) (v : α) (h : find? l k = none) :
    find? (place l k v) j = if k = j then some v else find? l j := by
  induction l with
  | nil => simp [place, find?]
  | cons p t ih =>
    obtain ⟨k', v'⟩ := p
    have hk : k' ≠ k := by intro e; simp [find?, e] at h
    have ht : find? t k = none := by simpa [find?, hk] using h
    by_cases hlt : k < k'
    · simp [place, hlt, find?]
    · by_cases hj : k = j
      · subst hj; simp [place, hlt, find?, hk, ih ht]
      · simp [place, hlt, find?, hj, ih ht]

@[simp] theorem find?_put (l : List (Nat × α)) (k j : Nat) (v : α) :
    find? (put l k v) j = if k = j then some v else find? l j := by
  have h : find? (erase l k) k = none := by simp [find?_erase]
  rw [put, find?_place _ _ _ _ h, find?_erase]
  by_cases hj : k = j <;> simp [hj]

/-- A register or byte reads as what was written to it, and every other one as before. -/
@[simp] theorem get_set [DecidableEq α] (d : α) (l : List (Nat × α)) (k j : Nat) (v : α) :
    get d (set d l k v) j = if k = j then v else get d l j := by
  unfold set get
  by_cases hv : v = d
  · by_cases hj : k = j <;> simp [hv, find?_erase, hj]
  · by_cases hj : k = j <;> simp [hv, hj]

@[simp] theorem find?_modify (l : List (Nat × α)) (k j : Nat) (f : α → α) :
    find? (modify l k f) j = if k = j then (find? l j).map f else find? l j := by
  induction l with
  | nil => simp [modify, find?]
  | cons p t ih =>
    simp only [modify] at ih
    by_cases h : p.1 = k
    · by_cases hj : k = j
      · subst hj; simp [modify, find?, h]
      · have : p.1 ≠ j := by rw [h]; exact hj
        simp_all [modify, find?]
    · by_cases hj : p.1 = j
      · have : k ≠ j := by rw [← hj]; exact fun e => h e.symm
        simp [modify, find?, hj, this, this.symm]
      · simp_all [modify, find?]

/-! The canonical form. -/

/-- Every key of a list is above a bound. -/
def above (b : Nat) (l : List (Nat × α)) : Prop := ∀ p ∈ l, b < p.1

theorem sorted_cons {p : Nat × α} {t : List (Nat × α)} : sorted (p :: t) = true ↔ above p.1 t ∧ sorted t = true := by
  induction t generalizing p with
  | nil => simp [sorted, above]
  | cons q u ih =>
    simp only [sorted, Bool.and_eq_true, decide_eq_true_eq]
    constructor
    · rintro ⟨hpq, hs⟩
      refine ⟨?_, hs⟩
      intro r hr
      rcases List.mem_cons.1 hr with rfl | hr
      · exact hpq
      · exact Nat.lt_trans hpq ((ih.1 hs).1 r hr)
    · rintro ⟨ha, hs⟩
      exact ⟨ha q (by simp), hs⟩

theorem sorted_filter (f : Nat × α → Bool) (l : List (Nat × α)) (h : sorted l = true) : sorted (l.filter f) = true := by
  induction l with
  | nil => simp [sorted]
  | cons p t ih =>
    obtain ⟨ha, hs⟩ := sorted_cons.1 h
    by_cases hp : f p = true
    · rw [List.filter_cons_of_pos hp]
      exact sorted_cons.2 ⟨fun q hq => ha q ((List.mem_filter.1 hq).1), ih hs⟩
    · rw [List.filter_cons_of_neg hp]; exact ih hs

theorem sorted_erase (l : List (Nat × α)) (k : Nat) (h : sorted l = true) : sorted (erase l k) = true :=
  sorted_filter _ _ h

theorem mem_place {l : List (Nat × α)} {k : Nat} {v : α} {p : Nat × α} (h : p ∈ place l k v) : p = (k, v) ∨ p ∈ l := by
  induction l with
  | nil => simpa [place] using h
  | cons q t ih =>
    by_cases hlt : k < q.1
    · simp [place, hlt] at h; simpa using h
    · simp [place, hlt] at h
      rcases h with h | h
      · simp [h]
      · rcases ih h with h | h <;> simp [h]

theorem sorted_place (l : List (Nat × α)) (k : Nat) (v : α) (h : sorted l = true) (hk : ∀ p ∈ l, p.1 ≠ k) :
    sorted (place l k v) = true := by
  induction l with
  | nil => simp [place, sorted]
  | cons p t ih =>
    obtain ⟨ha, hs⟩ := sorted_cons.1 h
    by_cases hlt : k < p.1
    · simp only [place, hlt, if_true]
      refine sorted_cons.2 ⟨?_, h⟩
      intro q hq
      rcases List.mem_cons.1 hq with rfl | hq
      · exact hlt
      · exact Nat.lt_trans hlt (ha q hq)
    · simp only [place, hlt, if_false]
      refine sorted_cons.2 ⟨?_, ih hs fun q hq => hk q (List.mem_cons_of_mem _ hq)⟩
      have hne : p.1 ≠ k := hk p (by simp)
      intro q hq
      rcases mem_place hq with rfl | hq
      · simp; omega
      · exact ha q hq

theorem canonical_erase [DecidableEq α] (d : Nat → α) (l : List (Nat × α)) (k : Nat) (h : canonical d l = true) :
    canonical d (erase l k) = true := by
  simp only [canonical, Bool.and_eq_true, List.all_eq_true, decide_eq_true_eq] at h ⊢
  exact ⟨sorted_erase l k h.1, fun p hp => h.2 p ((List.mem_filter.1 hp).1)⟩

theorem canonical_filter [DecidableEq α] (d : Nat → α) (f : Nat × α → Bool) (l : List (Nat × α))
    (h : canonical d l = true) : canonical d (l.filter f) = true := by
  simp only [canonical, Bool.and_eq_true, List.all_eq_true, decide_eq_true_eq] at h ⊢
  exact ⟨sorted_filter f l h.1, fun p hp => h.2 p ((List.mem_filter.1 hp).1)⟩

theorem canonical_put [DecidableEq α] (d : Nat → α) (l : List (Nat × α)) (k : Nat) (v : α) (h : canonical d l = true)
    (hv : v ≠ d k) : canonical d (put l k v) = true := by
  have he := canonical_erase d l k h
  simp only [canonical, Bool.and_eq_true, List.all_eq_true, decide_eq_true_eq] at he ⊢
  refine ⟨sorted_place _ _ _ he.1 fun p hp => ?_, fun p hp => ?_⟩
  · simpa [erase] using (List.mem_filter.1 hp).2
  · rcases mem_place hp with rfl | hp
    · exact hv
    · exact he.2 p hp

end Sys2Proof.Assoc
end

