-- ==== Sys2Proof/Laws/State.lean ====
section
/-! SUPPORT. What each update of the state leaves: one equation per field and update. -/

namespace Sys2Proof.Machine

@[simp] theorem State.putGroup_tick (s : State) (k : Nat) (g : Group) : (s.putGroup k g).tick = s.tick := rfl
@[simp] theorem State.putGroup_free (s : State) (k : Nat) (g : Group) : (s.putGroup k g).free = s.free := rfl
@[simp] theorem State.putGroup_cycle (s : State) (k : Nat) (g : Group) : (s.putGroup k g).cycle = s.cycle := rfl
@[simp] theorem State.putGroup_cur (s : State) (k : Nat) (g : Group) : (s.putGroup k g).cur = s.cur := rfl
@[simp] theorem State.putGroup_core (s : State) (k : Nat) (g : Group) : (s.putGroup k g).core = s.core := rfl
@[simp] theorem State.putGroup_issue (s : State) (k : Nat) (g : Group) : (s.putGroup k g).issue = s.issue := rfl
@[simp] theorem State.putGroup_inputs (s : State) (k : Nat) (g : Group) : (s.putGroup k g).inputs = s.inputs := rfl
@[simp] theorem State.putGroup_outputs (s : State) (k : Nat) (g : Group) : (s.putGroup k g).outputs = s.outputs := rfl
@[simp] theorem State.putGroup_mem (s : State) (k : Nat) (g : Group) : (s.putGroup k g).mem = s.mem := rfl
@[simp] theorem State.putGroup_tags (s : State) (k : Nat) (g : Group) : (s.putGroup k g).tags = s.tags := rfl
@[simp] theorem State.putGroup_l2 (s : State) (k : Nat) (g : Group) : (s.putGroup k g).l2 = s.l2 := rfl
@[simp] theorem State.putGroup_windows (s : State) (k : Nat) (g : Group) : (s.putGroup k g).windows = s.windows := rfl
@[simp] theorem State.putGroup_l2windows (s : State) (k : Nat) (g : Group) : (s.putGroup k g).l2windows = s.l2windows := rfl
@[simp] theorem State.putGroup_dies (s : State) (k : Nat) (g : Group) : (s.putGroup k g).dies = s.dies := rfl
@[simp] theorem State.putGroup_cores (s : State) (k : Nat) (g : Group) : (s.putGroup k g).cores = s.cores := rfl
@[simp] theorem State.putGroup_grids (s : State) (k : Nat) (g : Group) : (s.putGroup k g).grids = s.grids := rfl
@[simp] theorem State.putGroup_teams (s : State) (k : Nat) (g : Group) : (s.putGroup k g).teams = s.teams := rfl
@[simp] theorem State.putGroup_nextGrid (s : State) (k : Nat) (g : Group) : (s.putGroup k g).nextGrid = s.nextGrid := rfl
@[simp] theorem State.putGroup_stamp (s : State) (k : Nat) (g : Group) : (s.putGroup k g).stamp = s.stamp := rfl
@[simp] theorem State.putGroup_depCtrs (s : State) (k : Nat) (g : Group) : (s.putGroup k g).depCtrs = s.depCtrs := rfl
@[simp] theorem State.putGroup_keys (s : State) (k : Nat) (g : Group) : (s.putGroup k g).keys = s.keys := rfl
@[simp] theorem State.putGroup_incs (s : State) (k : Nat) (g : Group) : (s.putGroup k g).incs = s.incs := rfl
@[simp] theorem State.putGroup_fabric (s : State) (k : Nat) (g : Group) : (s.putGroup k g).fabric = s.fabric := rfl
@[simp] theorem State.putGroup_colls (s : State) (k : Nat) (g : Group) : (s.putGroup k g).colls = s.colls := rfl
@[simp] theorem State.putGroup_cancelled (s : State) (k : Nat) (g : Group) : (s.putGroup k g).cancelled = s.cancelled := rfl
@[simp] theorem State.putGroup_collSeq (s : State) (k : Nat) (g : Group) : (s.putGroup k g).collSeq = s.collSeq := rfl
@[simp] theorem State.putGroup_nextColl (s : State) (k : Nat) (g : Group) : (s.putGroup k g).nextColl = s.nextColl := rfl
@[simp] theorem State.putGroup_ctl (s : State) (k : Nat) (g : Group) : (s.putGroup k g).ctl = s.ctl := rfl
@[simp] theorem State.putGroup_ckpt (s : State) (k : Nat) (g : Group) : (s.putGroup k g).ckpt = s.ckpt := rfl
@[simp] theorem State.putGroup_slotA (s : State) (k : Nat) (g : Group) : (s.putGroup k g).slotA = s.slotA := rfl
@[simp] theorem State.putGroup_slotB (s : State) (k : Nat) (g : Group) : (s.putGroup k g).slotB = s.slotB := rfl
@[simp] theorem State.putGroup_fusedMin (s : State) (k : Nat) (g : Group) : (s.putGroup k g).fusedMin = s.fusedMin := rfl
@[simp] theorem State.putGroup_bootStat (s : State) (k : Nat) (g : Group) : (s.putGroup k g).bootStat = s.bootStat := rfl
@[simp] theorem State.putGroup_firmware (s : State) (k : Nat) (g : Group) : (s.putGroup k g).firmware = s.firmware := rfl
@[simp] theorem State.putGroup_cap (s : State) (k : Nat) (g : Group) : (s.putGroup k g).cap = s.cap := rfl
@[simp] theorem State.putGroup_capNext (s : State) (k : Nat) (g : Group) : (s.putGroup k g).capNext = s.capNext := rfl
@[simp] theorem State.putGroup_telemSeq (s : State) (k : Nat) (g : Group) : (s.putGroup k g).telemSeq = s.telemSeq := rfl
@[simp] theorem State.putGroup_ready (s : State) (k : Nat) (g : Group) : (s.putGroup k g).ready = s.ready := rfl
@[simp] theorem State.putGroup_links (s : State) (k : Nat) (g : Group) : (s.putGroup k g).links = s.links := rfl
@[simp] theorem State.putGroup_svn (s : State) (k : Nat) (g : Group) : (s.putGroup k g).svn = s.svn := rfl
@[simp] theorem State.putGroup_measured (s : State) (k : Nat) (g : Group) : (s.putGroup k g).measured = s.measured := rfl
@[simp] theorem State.putGroup_energy (s : State) (k : Nat) (g : Group) : (s.putGroup k g).energy = s.energy := rfl
@[simp] theorem State.putGroup_boot (s : State) (k : Nat) (g : Group) : (s.putGroup k g).boot = s.boot := rfl
@[simp] theorem State.putGroup_loaded (s : State) (k : Nat) (g : Group) : (s.putGroup k g).loaded = s.loaded := rfl
@[simp] theorem State.putGroup_checking (s : State) (k : Nat) (g : Group) : (s.putGroup k g).checking = s.checking := rfl
@[simp] theorem State.putGroup_nonce (s : State) (k : Nat) (g : Group) : (s.putGroup k g).nonce = s.nonce := rfl
@[simp] theorem State.putGroup_telem (s : State) (k : Nat) (g : Group) : (s.putGroup k g).telem = s.telem := rfl
@[simp] theorem State.putGroup_request (s : State) (k : Nat) (g : Group) : (s.putGroup k g).request = s.request := rfl
@[simp] theorem State.putGroup_thexo (s : State) (k : Nat) (g : Group) : (s.putGroup k g).thexo = s.thexo := rfl

@[simp] theorem State.setGroup_tick (s : State) (g : Group) : (s.setGroup g).tick = s.tick := rfl
@[simp] theorem State.setGroup_free (s : State) (g : Group) : (s.setGroup g).free = s.free := rfl
@[simp] theorem State.setGroup_cycle (s : State) (g : Group) : (s.setGroup g).cycle = s.cycle := rfl
@[simp] theorem State.setGroup_cur (s : State) (g : Group) : (s.setGroup g).cur = s.cur := rfl
@[simp] theorem State.setGroup_core (s : State) (g : Group) : (s.setGroup g).core = s.core := rfl
@[simp] theorem State.setGroup_issue (s : State) (g : Group) : (s.setGroup g).issue = s.issue := rfl
@[simp] theorem State.setGroup_inputs (s : State) (g : Group) : (s.setGroup g).inputs = s.inputs := rfl
@[simp] theorem State.setGroup_outputs (s : State) (g : Group) : (s.setGroup g).outputs = s.outputs := rfl
@[simp] theorem State.setGroup_mem (s : State) (g : Group) : (s.setGroup g).mem = s.mem := rfl
@[simp] theorem State.setGroup_tags (s : State) (g : Group) : (s.setGroup g).tags = s.tags := rfl
@[simp] theorem State.setGroup_l2 (s : State) (g : Group) : (s.setGroup g).l2 = s.l2 := rfl
@[simp] theorem State.setGroup_windows (s : State) (g : Group) : (s.setGroup g).windows = s.windows := rfl
@[simp] theorem State.setGroup_l2windows (s : State) (g : Group) : (s.setGroup g).l2windows = s.l2windows := rfl
@[simp] theorem State.setGroup_dies (s : State) (g : Group) : (s.setGroup g).dies = s.dies := rfl
@[simp] theorem State.setGroup_cores (s : State) (g : Group) : (s.setGroup g).cores = s.cores := rfl
@[simp] theorem State.setGroup_grids (s : State) (g : Group) : (s.setGroup g).grids = s.grids := rfl
@[simp] theorem State.setGroup_teams (s : State) (g : Group) : (s.setGroup g).teams = s.teams := rfl
@[simp] theorem State.setGroup_nextGrid (s : State) (g : Group) : (s.setGroup g).nextGrid = s.nextGrid := rfl
@[simp] theorem State.setGroup_stamp (s : State) (g : Group) : (s.setGroup g).stamp = s.stamp := rfl
@[simp] theorem State.setGroup_depCtrs (s : State) (g : Group) : (s.setGroup g).depCtrs = s.depCtrs := rfl
@[simp] theorem State.setGroup_keys (s : State) (g : Group) : (s.setGroup g).keys = s.keys := rfl
@[simp] theorem State.setGroup_incs (s : State) (g : Group) : (s.setGroup g).incs = s.incs := rfl
@[simp] theorem State.setGroup_fabric (s : State) (g : Group) : (s.setGroup g).fabric = s.fabric := rfl
@[simp] theorem State.setGroup_colls (s : State) (g : Group) : (s.setGroup g).colls = s.colls := rfl
@[simp] theorem State.setGroup_cancelled (s : State) (g : Group) : (s.setGroup g).cancelled = s.cancelled := rfl
@[simp] theorem State.setGroup_collSeq (s : State) (g : Group) : (s.setGroup g).collSeq = s.collSeq := rfl
@[simp] theorem State.setGroup_nextColl (s : State) (g : Group) : (s.setGroup g).nextColl = s.nextColl := rfl
@[simp] theorem State.setGroup_ctl (s : State) (g : Group) : (s.setGroup g).ctl = s.ctl := rfl
@[simp] theorem State.setGroup_ckpt (s : State) (g : Group) : (s.setGroup g).ckpt = s.ckpt := rfl
@[simp] theorem State.setGroup_slotA (s : State) (g : Group) : (s.setGroup g).slotA = s.slotA := rfl
@[simp] theorem State.setGroup_slotB (s : State) (g : Group) : (s.setGroup g).slotB = s.slotB := rfl
@[simp] theorem State.setGroup_fusedMin (s : State) (g : Group) : (s.setGroup g).fusedMin = s.fusedMin := rfl
@[simp] theorem State.setGroup_bootStat (s : State) (g : Group) : (s.setGroup g).bootStat = s.bootStat := rfl
@[simp] theorem State.setGroup_firmware (s : State) (g : Group) : (s.setGroup g).firmware = s.firmware := rfl
@[simp] theorem State.setGroup_cap (s : State) (g : Group) : (s.setGroup g).cap = s.cap := rfl
@[simp] theorem State.setGroup_capNext (s : State) (g : Group) : (s.setGroup g).capNext = s.capNext := rfl
@[simp] theorem State.setGroup_telemSeq (s : State) (g : Group) : (s.setGroup g).telemSeq = s.telemSeq := rfl
@[simp] theorem State.setGroup_ready (s : State) (g : Group) : (s.setGroup g).ready = s.ready := rfl
@[simp] theorem State.setGroup_links (s : State) (g : Group) : (s.setGroup g).links = s.links := rfl
@[simp] theorem State.setGroup_svn (s : State) (g : Group) : (s.setGroup g).svn = s.svn := rfl
@[simp] theorem State.setGroup_measured (s : State) (g : Group) : (s.setGroup g).measured = s.measured := rfl
@[simp] theorem State.setGroup_energy (s : State) (g : Group) : (s.setGroup g).energy = s.energy := rfl
@[simp] theorem State.setGroup_boot (s : State) (g : Group) : (s.setGroup g).boot = s.boot := rfl
@[simp] theorem State.setGroup_loaded (s : State) (g : Group) : (s.setGroup g).loaded = s.loaded := rfl
@[simp] theorem State.setGroup_checking (s : State) (g : Group) : (s.setGroup g).checking = s.checking := rfl
@[simp] theorem State.setGroup_nonce (s : State) (g : Group) : (s.setGroup g).nonce = s.nonce := rfl
@[simp] theorem State.setGroup_telem (s : State) (g : Group) : (s.setGroup g).telem = s.telem := rfl
@[simp] theorem State.setGroup_request (s : State) (g : Group) : (s.setGroup g).request = s.request := rfl
@[simp] theorem State.setGroup_thexo (s : State) (g : Group) : (s.setGroup g).thexo = s.thexo := rfl

@[simp] theorem State.modGroup_tick (s : State) (k : Nat) (f : Group → Group) : (s.modGroup k f).tick = s.tick := rfl
@[simp] theorem State.modGroup_free (s : State) (k : Nat) (f : Group → Group) : (s.modGroup k f).free = s.free := rfl
@[simp] theorem State.modGroup_cycle (s : State) (k : Nat) (f : Group → Group) : (s.modGroup k f).cycle = s.cycle := rfl
@[simp] theorem State.modGroup_cur (s : State) (k : Nat) (f : Group → Group) : (s.modGroup k f).cur = s.cur := rfl
@[simp] theorem State.modGroup_core (s : State) (k : Nat) (f : Group → Group) : (s.modGroup k f).core = s.core := rfl
@[simp] theorem State.modGroup_issue (s : State) (k : Nat) (f : Group → Group) : (s.modGroup k f).issue = s.issue := rfl
@[simp] theorem State.modGroup_inputs (s : State) (k : Nat) (f : Group → Group) : (s.modGroup k f).inputs = s.inputs := rfl
@[simp] theorem State.modGroup_outputs (s : State) (k : Nat) (f : Group → Group) : (s.modGroup k f).outputs = s.outputs := rfl
@[simp] theorem State.modGroup_mem (s : State) (k : Nat) (f : Group → Group) : (s.modGroup k f).mem = s.mem := rfl
@[simp] theorem State.modGroup_tags (s : State) (k : Nat) (f : Group → Group) : (s.modGroup k f).tags = s.tags := rfl
@[simp] theorem State.modGroup_l2 (s : State) (k : Nat) (f : Group → Group) : (s.modGroup k f).l2 = s.l2 := rfl
@[simp] theorem State.modGroup_windows (s : State) (k : Nat) (f : Group → Group) : (s.modGroup k f).windows = s.windows := rfl
@[simp] theorem State.modGroup_l2windows (s : State) (k : Nat) (f : Group → Group) : (s.modGroup k f).l2windows = s.l2windows := rfl
@[simp] theorem State.modGroup_dies (s : State) (k : Nat) (f : Group → Group) : (s.modGroup k f).dies = s.dies := rfl
@[simp] theorem State.modGroup_cores (s : State) (k : Nat) (f : Group → Group) : (s.modGroup k f).cores = s.cores := rfl
@[simp] theorem State.modGroup_grids (s : State) (k : Nat) (f : Group → Group) : (s.modGroup k f).grids = s.grids := rfl
@[simp] theorem State.modGroup_teams (s : State) (k : Nat) (f : Group → Group) : (s.modGroup k f).teams = s.teams := rfl
@[simp] theorem State.modGroup_nextGrid (s : State) (k : Nat) (f : Group → Group) : (s.modGroup k f).nextGrid = s.nextGrid := rfl
@[simp] theorem State.modGroup_stamp (s : State) (k : Nat) (f : Group → Group) : (s.modGroup k f).stamp = s.stamp := rfl
@[simp] theorem State.modGroup_depCtrs (s : State) (k : Nat) (f : Group → Group) : (s.modGroup k f).depCtrs = s.depCtrs := rfl
@[simp] theorem State.modGroup_keys (s : State) (k : Nat) (f : Group → Group) : (s.modGroup k f).keys = s.keys := rfl
@[simp] theorem State.modGroup_incs (s : State) (k : Nat) (f : Group → Group) : (s.modGroup k f).incs = s.incs := rfl
@[simp] theorem State.modGroup_fabric (s : State) (k : Nat) (f : Group → Group) : (s.modGroup k f).fabric = s.fabric := rfl
@[simp] theorem State.modGroup_colls (s : State) (k : Nat) (f : Group → Group) : (s.modGroup k f).colls = s.colls := rfl
@[simp] theorem State.modGroup_cancelled (s : State) (k : Nat) (f : Group → Group) : (s.modGroup k f).cancelled = s.cancelled := rfl
@[simp] theorem State.modGroup_collSeq (s : State) (k : Nat) (f : Group → Group) : (s.modGroup k f).collSeq = s.collSeq := rfl
@[simp] theorem State.modGroup_nextColl (s : State) (k : Nat) (f : Group → Group) : (s.modGroup k f).nextColl = s.nextColl := rfl
@[simp] theorem State.modGroup_ctl (s : State) (k : Nat) (f : Group → Group) : (s.modGroup k f).ctl = s.ctl := rfl
@[simp] theorem State.modGroup_ckpt (s : State) (k : Nat) (f : Group → Group) : (s.modGroup k f).ckpt = s.ckpt := rfl
@[simp] theorem State.modGroup_slotA (s : State) (k : Nat) (f : Group → Group) : (s.modGroup k f).slotA = s.slotA := rfl
@[simp] theorem State.modGroup_slotB (s : State) (k : Nat) (f : Group → Group) : (s.modGroup k f).slotB = s.slotB := rfl
@[simp] theorem State.modGroup_fusedMin (s : State) (k : Nat) (f : Group → Group) : (s.modGroup k f).fusedMin = s.fusedMin := rfl
@[simp] theorem State.modGroup_bootStat (s : State) (k : Nat) (f : Group → Group) : (s.modGroup k f).bootStat = s.bootStat := rfl
@[simp] theorem State.modGroup_firmware (s : State) (k : Nat) (f : Group → Group) : (s.modGroup k f).firmware = s.firmware := rfl
@[simp] theorem State.modGroup_cap (s : State) (k : Nat) (f : Group → Group) : (s.modGroup k f).cap = s.cap := rfl
@[simp] theorem State.modGroup_capNext (s : State) (k : Nat) (f : Group → Group) : (s.modGroup k f).capNext = s.capNext := rfl
@[simp] theorem State.modGroup_telemSeq (s : State) (k : Nat) (f : Group → Group) : (s.modGroup k f).telemSeq = s.telemSeq := rfl
@[simp] theorem State.modGroup_ready (s : State) (k : Nat) (f : Group → Group) : (s.modGroup k f).ready = s.ready := rfl
@[simp] theorem State.modGroup_links (s : State) (k : Nat) (f : Group → Group) : (s.modGroup k f).links = s.links := rfl
@[simp] theorem State.modGroup_svn (s : State) (k : Nat) (f : Group → Group) : (s.modGroup k f).svn = s.svn := rfl
@[simp] theorem State.modGroup_measured (s : State) (k : Nat) (f : Group → Group) : (s.modGroup k f).measured = s.measured := rfl
@[simp] theorem State.modGroup_energy (s : State) (k : Nat) (f : Group → Group) : (s.modGroup k f).energy = s.energy := rfl
@[simp] theorem State.modGroup_boot (s : State) (k : Nat) (f : Group → Group) : (s.modGroup k f).boot = s.boot := rfl
@[simp] theorem State.modGroup_loaded (s : State) (k : Nat) (f : Group → Group) : (s.modGroup k f).loaded = s.loaded := rfl
@[simp] theorem State.modGroup_checking (s : State) (k : Nat) (f : Group → Group) : (s.modGroup k f).checking = s.checking := rfl
@[simp] theorem State.modGroup_nonce (s : State) (k : Nat) (f : Group → Group) : (s.modGroup k f).nonce = s.nonce := rfl
@[simp] theorem State.modGroup_telem (s : State) (k : Nat) (f : Group → Group) : (s.modGroup k f).telem = s.telem := rfl
@[simp] theorem State.modGroup_request (s : State) (k : Nat) (f : Group → Group) : (s.modGroup k f).request = s.request := rfl
@[simp] theorem State.modGroup_thexo (s : State) (k : Nat) (f : Group → Group) : (s.modGroup k f).thexo = s.thexo := rfl

@[simp] theorem State.putGrid_tick (s : State) (n : Nat) (x : Grid) : (s.putGrid n x).tick = s.tick := rfl
@[simp] theorem State.putGrid_free (s : State) (n : Nat) (x : Grid) : (s.putGrid n x).free = s.free := rfl
@[simp] theorem State.putGrid_cycle (s : State) (n : Nat) (x : Grid) : (s.putGrid n x).cycle = s.cycle := rfl
@[simp] theorem State.putGrid_cur (s : State) (n : Nat) (x : Grid) : (s.putGrid n x).cur = s.cur := rfl
@[simp] theorem State.putGrid_core (s : State) (n : Nat) (x : Grid) : (s.putGrid n x).core = s.core := rfl
@[simp] theorem State.putGrid_issue (s : State) (n : Nat) (x : Grid) : (s.putGrid n x).issue = s.issue := rfl
@[simp] theorem State.putGrid_inputs (s : State) (n : Nat) (x : Grid) : (s.putGrid n x).inputs = s.inputs := rfl
@[simp] theorem State.putGrid_outputs (s : State) (n : Nat) (x : Grid) : (s.putGrid n x).outputs = s.outputs := rfl
@[simp] theorem State.putGrid_mem (s : State) (n : Nat) (x : Grid) : (s.putGrid n x).mem = s.mem := rfl
@[simp] theorem State.putGrid_tags (s : State) (n : Nat) (x : Grid) : (s.putGrid n x).tags = s.tags := rfl
@[simp] theorem State.putGrid_l2 (s : State) (n : Nat) (x : Grid) : (s.putGrid n x).l2 = s.l2 := rfl
@[simp] theorem State.putGrid_windows (s : State) (n : Nat) (x : Grid) : (s.putGrid n x).windows = s.windows := rfl
@[simp] theorem State.putGrid_l2windows (s : State) (n : Nat) (x : Grid) : (s.putGrid n x).l2windows = s.l2windows := rfl
@[simp] theorem State.putGrid_dies (s : State) (n : Nat) (x : Grid) : (s.putGrid n x).dies = s.dies := rfl
@[simp] theorem State.putGrid_cores (s : State) (n : Nat) (x : Grid) : (s.putGrid n x).cores = s.cores := rfl
@[simp] theorem State.putGrid_teams (s : State) (n : Nat) (x : Grid) : (s.putGrid n x).teams = s.teams := rfl
@[simp] theorem State.putGrid_groups (s : State) (n : Nat) (x : Grid) : (s.putGrid n x).groups = s.groups := rfl
@[simp] theorem State.putGrid_nextGrid (s : State) (n : Nat) (x : Grid) : (s.putGrid n x).nextGrid = s.nextGrid := rfl
@[simp] theorem State.putGrid_stamp (s : State) (n : Nat) (x : Grid) : (s.putGrid n x).stamp = s.stamp := rfl
@[simp] theorem State.putGrid_depCtrs (s : State) (n : Nat) (x : Grid) : (s.putGrid n x).depCtrs = s.depCtrs := rfl
@[simp] theorem State.putGrid_keys (s : State) (n : Nat) (x : Grid) : (s.putGrid n x).keys = s.keys := rfl
@[simp] theorem State.putGrid_incs (s : State) (n : Nat) (x : Grid) : (s.putGrid n x).incs = s.incs := rfl
@[simp] theorem State.putGrid_fabric (s : State) (n : Nat) (x : Grid) : (s.putGrid n x).fabric = s.fabric := rfl
@[simp] theorem State.putGrid_colls (s : State) (n : Nat) (x : Grid) : (s.putGrid n x).colls = s.colls := rfl
@[simp] theorem State.putGrid_cancelled (s : State) (n : Nat) (x : Grid) : (s.putGrid n x).cancelled = s.cancelled := rfl
@[simp] theorem State.putGrid_collSeq (s : State) (n : Nat) (x : Grid) : (s.putGrid n x).collSeq = s.collSeq := rfl
@[simp] theorem State.putGrid_nextColl (s : State) (n : Nat) (x : Grid) : (s.putGrid n x).nextColl = s.nextColl := rfl
@[simp] theorem State.putGrid_ctl (s : State) (n : Nat) (x : Grid) : (s.putGrid n x).ctl = s.ctl := rfl
@[simp] theorem State.putGrid_ckpt (s : State) (n : Nat) (x : Grid) : (s.putGrid n x).ckpt = s.ckpt := rfl
@[simp] theorem State.putGrid_slotA (s : State) (n : Nat) (x : Grid) : (s.putGrid n x).slotA = s.slotA := rfl
@[simp] theorem State.putGrid_slotB (s : State) (n : Nat) (x : Grid) : (s.putGrid n x).slotB = s.slotB := rfl
@[simp] theorem State.putGrid_fusedMin (s : State) (n : Nat) (x : Grid) : (s.putGrid n x).fusedMin = s.fusedMin := rfl
@[simp] theorem State.putGrid_bootStat (s : State) (n : Nat) (x : Grid) : (s.putGrid n x).bootStat = s.bootStat := rfl
@[simp] theorem State.putGrid_firmware (s : State) (n : Nat) (x : Grid) : (s.putGrid n x).firmware = s.firmware := rfl
@[simp] theorem State.putGrid_cap (s : State) (n : Nat) (x : Grid) : (s.putGrid n x).cap = s.cap := rfl
@[simp] theorem State.putGrid_capNext (s : State) (n : Nat) (x : Grid) : (s.putGrid n x).capNext = s.capNext := rfl
@[simp] theorem State.putGrid_telemSeq (s : State) (n : Nat) (x : Grid) : (s.putGrid n x).telemSeq = s.telemSeq := rfl
@[simp] theorem State.putGrid_ready (s : State) (n : Nat) (x : Grid) : (s.putGrid n x).ready = s.ready := rfl
@[simp] theorem State.putGrid_links (s : State) (n : Nat) (x : Grid) : (s.putGrid n x).links = s.links := rfl
@[simp] theorem State.putGrid_svn (s : State) (n : Nat) (x : Grid) : (s.putGrid n x).svn = s.svn := rfl
@[simp] theorem State.putGrid_measured (s : State) (n : Nat) (x : Grid) : (s.putGrid n x).measured = s.measured := rfl
@[simp] theorem State.putGrid_energy (s : State) (n : Nat) (x : Grid) : (s.putGrid n x).energy = s.energy := rfl
@[simp] theorem State.putGrid_boot (s : State) (n : Nat) (x : Grid) : (s.putGrid n x).boot = s.boot := rfl
@[simp] theorem State.putGrid_loaded (s : State) (n : Nat) (x : Grid) : (s.putGrid n x).loaded = s.loaded := rfl
@[simp] theorem State.putGrid_checking (s : State) (n : Nat) (x : Grid) : (s.putGrid n x).checking = s.checking := rfl
@[simp] theorem State.putGrid_nonce (s : State) (n : Nat) (x : Grid) : (s.putGrid n x).nonce = s.nonce := rfl
@[simp] theorem State.putGrid_telem (s : State) (n : Nat) (x : Grid) : (s.putGrid n x).telem = s.telem := rfl
@[simp] theorem State.putGrid_request (s : State) (n : Nat) (x : Grid) : (s.putGrid n x).request = s.request := rfl
@[simp] theorem State.putGrid_thexo (s : State) (n : Nat) (x : Grid) : (s.putGrid n x).thexo = s.thexo := rfl

@[simp] theorem State.modGrid_tick (s : State) (n : Nat) (f : Grid → Grid) : (s.modGrid n f).tick = s.tick := rfl
@[simp] theorem State.modGrid_free (s : State) (n : Nat) (f : Grid → Grid) : (s.modGrid n f).free = s.free := rfl
@[simp] theorem State.modGrid_cycle (s : State) (n : Nat) (f : Grid → Grid) : (s.modGrid n f).cycle = s.cycle := rfl
@[simp] theorem State.modGrid_cur (s : State) (n : Nat) (f : Grid → Grid) : (s.modGrid n f).cur = s.cur := rfl
@[simp] theorem State.modGrid_core (s : State) (n : Nat) (f : Grid → Grid) : (s.modGrid n f).core = s.core := rfl
@[simp] theorem State.modGrid_issue (s : State) (n : Nat) (f : Grid → Grid) : (s.modGrid n f).issue = s.issue := rfl
@[simp] theorem State.modGrid_inputs (s : State) (n : Nat) (f : Grid → Grid) : (s.modGrid n f).inputs = s.inputs := rfl
@[simp] theorem State.modGrid_outputs (s : State) (n : Nat) (f : Grid → Grid) : (s.modGrid n f).outputs = s.outputs := rfl
@[simp] theorem State.modGrid_mem (s : State) (n : Nat) (f : Grid → Grid) : (s.modGrid n f).mem = s.mem := rfl
@[simp] theorem State.modGrid_tags (s : State) (n : Nat) (f : Grid → Grid) : (s.modGrid n f).tags = s.tags := rfl
@[simp] theorem State.modGrid_l2 (s : State) (n : Nat) (f : Grid → Grid) : (s.modGrid n f).l2 = s.l2 := rfl
@[simp] theorem State.modGrid_windows (s : State) (n : Nat) (f : Grid → Grid) : (s.modGrid n f).windows = s.windows := rfl
@[simp] theorem State.modGrid_l2windows (s : State) (n : Nat) (f : Grid → Grid) : (s.modGrid n f).l2windows = s.l2windows := rfl
@[simp] theorem State.modGrid_dies (s : State) (n : Nat) (f : Grid → Grid) : (s.modGrid n f).dies = s.dies := rfl
@[simp] theorem State.modGrid_cores (s : State) (n : Nat) (f : Grid → Grid) : (s.modGrid n f).cores = s.cores := rfl
@[simp] theorem State.modGrid_teams (s : State) (n : Nat) (f : Grid → Grid) : (s.modGrid n f).teams = s.teams := rfl
@[simp] theorem State.modGrid_groups (s : State) (n : Nat) (f : Grid → Grid) : (s.modGrid n f).groups = s.groups := rfl
@[simp] theorem State.modGrid_nextGrid (s : State) (n : Nat) (f : Grid → Grid) : (s.modGrid n f).nextGrid = s.nextGrid := rfl
@[simp] theorem State.modGrid_stamp (s : State) (n : Nat) (f : Grid → Grid) : (s.modGrid n f).stamp = s.stamp := rfl
@[simp] theorem State.modGrid_depCtrs (s : State) (n : Nat) (f : Grid → Grid) : (s.modGrid n f).depCtrs = s.depCtrs := rfl
@[simp] theorem State.modGrid_keys (s : State) (n : Nat) (f : Grid → Grid) : (s.modGrid n f).keys = s.keys := rfl
@[simp] theorem State.modGrid_incs (s : State) (n : Nat) (f : Grid → Grid) : (s.modGrid n f).incs = s.incs := rfl
@[simp] theorem State.modGrid_fabric (s : State) (n : Nat) (f : Grid → Grid) : (s.modGrid n f).fabric = s.fabric := rfl
@[simp] theorem State.modGrid_colls (s : State) (n : Nat) (f : Grid → Grid) : (s.modGrid n f).colls = s.colls := rfl
@[simp] theorem State.modGrid_cancelled (s : State) (n : Nat) (f : Grid → Grid) : (s.modGrid n f).cancelled = s.cancelled := rfl
@[simp] theorem State.modGrid_collSeq (s : State) (n : Nat) (f : Grid → Grid) : (s.modGrid n f).collSeq = s.collSeq := rfl
@[simp] theorem State.modGrid_nextColl (s : State) (n : Nat) (f : Grid → Grid) : (s.modGrid n f).nextColl = s.nextColl := rfl
@[simp] theorem State.modGrid_ctl (s : State) (n : Nat) (f : Grid → Grid) : (s.modGrid n f).ctl = s.ctl := rfl
@[simp] theorem State.modGrid_ckpt (s : State) (n : Nat) (f : Grid → Grid) : (s.modGrid n f).ckpt = s.ckpt := rfl
@[simp] theorem State.modGrid_slotA (s : State) (n : Nat) (f : Grid → Grid) : (s.modGrid n f).slotA = s.slotA := rfl
@[simp] theorem State.modGrid_slotB (s : State) (n : Nat) (f : Grid → Grid) : (s.modGrid n f).slotB = s.slotB := rfl
@[simp] theorem State.modGrid_fusedMin (s : State) (n : Nat) (f : Grid → Grid) : (s.modGrid n f).fusedMin = s.fusedMin := rfl
@[simp] theorem State.modGrid_bootStat (s : State) (n : Nat) (f : Grid → Grid) : (s.modGrid n f).bootStat = s.bootStat := rfl
@[simp] theorem State.modGrid_firmware (s : State) (n : Nat) (f : Grid → Grid) : (s.modGrid n f).firmware = s.firmware := rfl
@[simp] theorem State.modGrid_cap (s : State) (n : Nat) (f : Grid → Grid) : (s.modGrid n f).cap = s.cap := rfl
@[simp] theorem State.modGrid_capNext (s : State) (n : Nat) (f : Grid → Grid) : (s.modGrid n f).capNext = s.capNext := rfl
@[simp] theorem State.modGrid_telemSeq (s : State) (n : Nat) (f : Grid → Grid) : (s.modGrid n f).telemSeq = s.telemSeq := rfl
@[simp] theorem State.modGrid_ready (s : State) (n : Nat) (f : Grid → Grid) : (s.modGrid n f).ready = s.ready := rfl
@[simp] theorem State.modGrid_links (s : State) (n : Nat) (f : Grid → Grid) : (s.modGrid n f).links = s.links := rfl
@[simp] theorem State.modGrid_svn (s : State) (n : Nat) (f : Grid → Grid) : (s.modGrid n f).svn = s.svn := rfl
@[simp] theorem State.modGrid_measured (s : State) (n : Nat) (f : Grid → Grid) : (s.modGrid n f).measured = s.measured := rfl
@[simp] theorem State.modGrid_energy (s : State) (n : Nat) (f : Grid → Grid) : (s.modGrid n f).energy = s.energy := rfl
@[simp] theorem State.modGrid_boot (s : State) (n : Nat) (f : Grid → Grid) : (s.modGrid n f).boot = s.boot := rfl
@[simp] theorem State.modGrid_loaded (s : State) (n : Nat) (f : Grid → Grid) : (s.modGrid n f).loaded = s.loaded := rfl
@[simp] theorem State.modGrid_checking (s : State) (n : Nat) (f : Grid → Grid) : (s.modGrid n f).checking = s.checking := rfl
@[simp] theorem State.modGrid_nonce (s : State) (n : Nat) (f : Grid → Grid) : (s.modGrid n f).nonce = s.nonce := rfl
@[simp] theorem State.modGrid_telem (s : State) (n : Nat) (f : Grid → Grid) : (s.modGrid n f).telem = s.telem := rfl
@[simp] theorem State.modGrid_request (s : State) (n : Nat) (f : Grid → Grid) : (s.modGrid n f).request = s.request := rfl
@[simp] theorem State.modGrid_thexo (s : State) (n : Nat) (f : Grid → Grid) : (s.modGrid n f).thexo = s.thexo := rfl

@[simp] theorem State.putTeam_tick (s : State) (k : Nat) (t : Team) : (s.putTeam k t).tick = s.tick := rfl
@[simp] theorem State.putTeam_free (s : State) (k : Nat) (t : Team) : (s.putTeam k t).free = s.free := rfl
@[simp] theorem State.putTeam_cycle (s : State) (k : Nat) (t : Team) : (s.putTeam k t).cycle = s.cycle := rfl
@[simp] theorem State.putTeam_cur (s : State) (k : Nat) (t : Team) : (s.putTeam k t).cur = s.cur := rfl
@[simp] theorem State.putTeam_core (s : State) (k : Nat) (t : Team) : (s.putTeam k t).core = s.core := rfl
@[simp] theorem State.putTeam_issue (s : State) (k : Nat) (t : Team) : (s.putTeam k t).issue = s.issue := rfl
@[simp] theorem State.putTeam_inputs (s : State) (k : Nat) (t : Team) : (s.putTeam k t).inputs = s.inputs := rfl
@[simp] theorem State.putTeam_outputs (s : State) (k : Nat) (t : Team) : (s.putTeam k t).outputs = s.outputs := rfl
@[simp] theorem State.putTeam_mem (s : State) (k : Nat) (t : Team) : (s.putTeam k t).mem = s.mem := rfl
@[simp] theorem State.putTeam_tags (s : State) (k : Nat) (t : Team) : (s.putTeam k t).tags = s.tags := rfl
@[simp] theorem State.putTeam_l2 (s : State) (k : Nat) (t : Team) : (s.putTeam k t).l2 = s.l2 := rfl
@[simp] theorem State.putTeam_windows (s : State) (k : Nat) (t : Team) : (s.putTeam k t).windows = s.windows := rfl
@[simp] theorem State.putTeam_l2windows (s : State) (k : Nat) (t : Team) : (s.putTeam k t).l2windows = s.l2windows := rfl
@[simp] theorem State.putTeam_dies (s : State) (k : Nat) (t : Team) : (s.putTeam k t).dies = s.dies := rfl
@[simp] theorem State.putTeam_cores (s : State) (k : Nat) (t : Team) : (s.putTeam k t).cores = s.cores := rfl
@[simp] theorem State.putTeam_grids (s : State) (k : Nat) (t : Team) : (s.putTeam k t).grids = s.grids := rfl
@[simp] theorem State.putTeam_groups (s : State) (k : Nat) (t : Team) : (s.putTeam k t).groups = s.groups := rfl
@[simp] theorem State.putTeam_nextGrid (s : State) (k : Nat) (t : Team) : (s.putTeam k t).nextGrid = s.nextGrid := rfl
@[simp] theorem State.putTeam_stamp (s : State) (k : Nat) (t : Team) : (s.putTeam k t).stamp = s.stamp := rfl
@[simp] theorem State.putTeam_depCtrs (s : State) (k : Nat) (t : Team) : (s.putTeam k t).depCtrs = s.depCtrs := rfl
@[simp] theorem State.putTeam_keys (s : State) (k : Nat) (t : Team) : (s.putTeam k t).keys = s.keys := rfl
@[simp] theorem State.putTeam_incs (s : State) (k : Nat) (t : Team) : (s.putTeam k t).incs = s.incs := rfl
@[simp] theorem State.putTeam_fabric (s : State) (k : Nat) (t : Team) : (s.putTeam k t).fabric = s.fabric := rfl
@[simp] theorem State.putTeam_colls (s : State) (k : Nat) (t : Team) : (s.putTeam k t).colls = s.colls := rfl
@[simp] theorem State.putTeam_cancelled (s : State) (k : Nat) (t : Team) : (s.putTeam k t).cancelled = s.cancelled := rfl
@[simp] theorem State.putTeam_collSeq (s : State) (k : Nat) (t : Team) : (s.putTeam k t).collSeq = s.collSeq := rfl
@[simp] theorem State.putTeam_nextColl (s : State) (k : Nat) (t : Team) : (s.putTeam k t).nextColl = s.nextColl := rfl
@[simp] theorem State.putTeam_ctl (s : State) (k : Nat) (t : Team) : (s.putTeam k t).ctl = s.ctl := rfl
@[simp] theorem State.putTeam_ckpt (s : State) (k : Nat) (t : Team) : (s.putTeam k t).ckpt = s.ckpt := rfl
@[simp] theorem State.putTeam_slotA (s : State) (k : Nat) (t : Team) : (s.putTeam k t).slotA = s.slotA := rfl
@[simp] theorem State.putTeam_slotB (s : State) (k : Nat) (t : Team) : (s.putTeam k t).slotB = s.slotB := rfl
@[simp] theorem State.putTeam_fusedMin (s : State) (k : Nat) (t : Team) : (s.putTeam k t).fusedMin = s.fusedMin := rfl
@[simp] theorem State.putTeam_bootStat (s : State) (k : Nat) (t : Team) : (s.putTeam k t).bootStat = s.bootStat := rfl
@[simp] theorem State.putTeam_firmware (s : State) (k : Nat) (t : Team) : (s.putTeam k t).firmware = s.firmware := rfl
@[simp] theorem State.putTeam_cap (s : State) (k : Nat) (t : Team) : (s.putTeam k t).cap = s.cap := rfl
@[simp] theorem State.putTeam_capNext (s : State) (k : Nat) (t : Team) : (s.putTeam k t).capNext = s.capNext := rfl
@[simp] theorem State.putTeam_telemSeq (s : State) (k : Nat) (t : Team) : (s.putTeam k t).telemSeq = s.telemSeq := rfl
@[simp] theorem State.putTeam_ready (s : State) (k : Nat) (t : Team) : (s.putTeam k t).ready = s.ready := rfl
@[simp] theorem State.putTeam_links (s : State) (k : Nat) (t : Team) : (s.putTeam k t).links = s.links := rfl
@[simp] theorem State.putTeam_svn (s : State) (k : Nat) (t : Team) : (s.putTeam k t).svn = s.svn := rfl
@[simp] theorem State.putTeam_measured (s : State) (k : Nat) (t : Team) : (s.putTeam k t).measured = s.measured := rfl
@[simp] theorem State.putTeam_energy (s : State) (k : Nat) (t : Team) : (s.putTeam k t).energy = s.energy := rfl
@[simp] theorem State.putTeam_boot (s : State) (k : Nat) (t : Team) : (s.putTeam k t).boot = s.boot := rfl
@[simp] theorem State.putTeam_loaded (s : State) (k : Nat) (t : Team) : (s.putTeam k t).loaded = s.loaded := rfl
@[simp] theorem State.putTeam_checking (s : State) (k : Nat) (t : Team) : (s.putTeam k t).checking = s.checking := rfl
@[simp] theorem State.putTeam_nonce (s : State) (k : Nat) (t : Team) : (s.putTeam k t).nonce = s.nonce := rfl
@[simp] theorem State.putTeam_telem (s : State) (k : Nat) (t : Team) : (s.putTeam k t).telem = s.telem := rfl
@[simp] theorem State.putTeam_request (s : State) (k : Nat) (t : Team) : (s.putTeam k t).request = s.request := rfl
@[simp] theorem State.putTeam_thexo (s : State) (k : Nat) (t : Team) : (s.putTeam k t).thexo = s.thexo := rfl

@[simp] theorem State.modTeam_tick (s : State) (k : Nat) (f : Team → Team) : (s.modTeam k f).tick = s.tick := rfl
@[simp] theorem State.modTeam_free (s : State) (k : Nat) (f : Team → Team) : (s.modTeam k f).free = s.free := rfl
@[simp] theorem State.modTeam_cycle (s : State) (k : Nat) (f : Team → Team) : (s.modTeam k f).cycle = s.cycle := rfl
@[simp] theorem State.modTeam_cur (s : State) (k : Nat) (f : Team → Team) : (s.modTeam k f).cur = s.cur := rfl
@[simp] theorem State.modTeam_core (s : State) (k : Nat) (f : Team → Team) : (s.modTeam k f).core = s.core := rfl
@[simp] theorem State.modTeam_issue (s : State) (k : Nat) (f : Team → Team) : (s.modTeam k f).issue = s.issue := rfl
@[simp] theorem State.modTeam_inputs (s : State) (k : Nat) (f : Team → Team) : (s.modTeam k f).inputs = s.inputs := rfl
@[simp] theorem State.modTeam_outputs (s : State) (k : Nat) (f : Team → Team) : (s.modTeam k f).outputs = s.outputs := rfl
@[simp] theorem State.modTeam_mem (s : State) (k : Nat) (f : Team → Team) : (s.modTeam k f).mem = s.mem := rfl
@[simp] theorem State.modTeam_tags (s : State) (k : Nat) (f : Team → Team) : (s.modTeam k f).tags = s.tags := rfl
@[simp] theorem State.modTeam_l2 (s : State) (k : Nat) (f : Team → Team) : (s.modTeam k f).l2 = s.l2 := rfl
@[simp] theorem State.modTeam_windows (s : State) (k : Nat) (f : Team → Team) : (s.modTeam k f).windows = s.windows := rfl
@[simp] theorem State.modTeam_l2windows (s : State) (k : Nat) (f : Team → Team) : (s.modTeam k f).l2windows = s.l2windows := rfl
@[simp] theorem State.modTeam_dies (s : State) (k : Nat) (f : Team → Team) : (s.modTeam k f).dies = s.dies := rfl
@[simp] theorem State.modTeam_cores (s : State) (k : Nat) (f : Team → Team) : (s.modTeam k f).cores = s.cores := rfl
@[simp] theorem State.modTeam_grids (s : State) (k : Nat) (f : Team → Team) : (s.modTeam k f).grids = s.grids := rfl
@[simp] theorem State.modTeam_groups (s : State) (k : Nat) (f : Team → Team) : (s.modTeam k f).groups = s.groups := rfl
@[simp] theorem State.modTeam_nextGrid (s : State) (k : Nat) (f : Team → Team) : (s.modTeam k f).nextGrid = s.nextGrid := rfl
@[simp] theorem State.modTeam_stamp (s : State) (k : Nat) (f : Team → Team) : (s.modTeam k f).stamp = s.stamp := rfl
@[simp] theorem State.modTeam_depCtrs (s : State) (k : Nat) (f : Team → Team) : (s.modTeam k f).depCtrs = s.depCtrs := rfl
@[simp] theorem State.modTeam_keys (s : State) (k : Nat) (f : Team → Team) : (s.modTeam k f).keys = s.keys := rfl
@[simp] theorem State.modTeam_incs (s : State) (k : Nat) (f : Team → Team) : (s.modTeam k f).incs = s.incs := rfl
@[simp] theorem State.modTeam_fabric (s : State) (k : Nat) (f : Team → Team) : (s.modTeam k f).fabric = s.fabric := rfl
@[simp] theorem State.modTeam_colls (s : State) (k : Nat) (f : Team → Team) : (s.modTeam k f).colls = s.colls := rfl
@[simp] theorem State.modTeam_cancelled (s : State) (k : Nat) (f : Team → Team) : (s.modTeam k f).cancelled = s.cancelled := rfl
@[simp] theorem State.modTeam_collSeq (s : State) (k : Nat) (f : Team → Team) : (s.modTeam k f).collSeq = s.collSeq := rfl
@[simp] theorem State.modTeam_nextColl (s : State) (k : Nat) (f : Team → Team) : (s.modTeam k f).nextColl = s.nextColl := rfl
@[simp] theorem State.modTeam_ctl (s : State) (k : Nat) (f : Team → Team) : (s.modTeam k f).ctl = s.ctl := rfl
@[simp] theorem State.modTeam_ckpt (s : State) (k : Nat) (f : Team → Team) : (s.modTeam k f).ckpt = s.ckpt := rfl
@[simp] theorem State.modTeam_slotA (s : State) (k : Nat) (f : Team → Team) : (s.modTeam k f).slotA = s.slotA := rfl
@[simp] theorem State.modTeam_slotB (s : State) (k : Nat) (f : Team → Team) : (s.modTeam k f).slotB = s.slotB := rfl
@[simp] theorem State.modTeam_fusedMin (s : State) (k : Nat) (f : Team → Team) : (s.modTeam k f).fusedMin = s.fusedMin := rfl
@[simp] theorem State.modTeam_bootStat (s : State) (k : Nat) (f : Team → Team) : (s.modTeam k f).bootStat = s.bootStat := rfl
@[simp] theorem State.modTeam_firmware (s : State) (k : Nat) (f : Team → Team) : (s.modTeam k f).firmware = s.firmware := rfl
@[simp] theorem State.modTeam_cap (s : State) (k : Nat) (f : Team → Team) : (s.modTeam k f).cap = s.cap := rfl
@[simp] theorem State.modTeam_capNext (s : State) (k : Nat) (f : Team → Team) : (s.modTeam k f).capNext = s.capNext := rfl
@[simp] theorem State.modTeam_telemSeq (s : State) (k : Nat) (f : Team → Team) : (s.modTeam k f).telemSeq = s.telemSeq := rfl
@[simp] theorem State.modTeam_ready (s : State) (k : Nat) (f : Team → Team) : (s.modTeam k f).ready = s.ready := rfl
@[simp] theorem State.modTeam_links (s : State) (k : Nat) (f : Team → Team) : (s.modTeam k f).links = s.links := rfl
@[simp] theorem State.modTeam_svn (s : State) (k : Nat) (f : Team → Team) : (s.modTeam k f).svn = s.svn := rfl
@[simp] theorem State.modTeam_measured (s : State) (k : Nat) (f : Team → Team) : (s.modTeam k f).measured = s.measured := rfl
@[simp] theorem State.modTeam_energy (s : State) (k : Nat) (f : Team → Team) : (s.modTeam k f).energy = s.energy := rfl
@[simp] theorem State.modTeam_boot (s : State) (k : Nat) (f : Team → Team) : (s.modTeam k f).boot = s.boot := rfl
@[simp] theorem State.modTeam_loaded (s : State) (k : Nat) (f : Team → Team) : (s.modTeam k f).loaded = s.loaded := rfl
@[simp] theorem State.modTeam_checking (s : State) (k : Nat) (f : Team → Team) : (s.modTeam k f).checking = s.checking := rfl
@[simp] theorem State.modTeam_nonce (s : State) (k : Nat) (f : Team → Team) : (s.modTeam k f).nonce = s.nonce := rfl
@[simp] theorem State.modTeam_telem (s : State) (k : Nat) (f : Team → Team) : (s.modTeam k f).telem = s.telem := rfl
@[simp] theorem State.modTeam_request (s : State) (k : Nat) (f : Team → Team) : (s.modTeam k f).request = s.request := rfl
@[simp] theorem State.modTeam_thexo (s : State) (k : Nat) (f : Team → Team) : (s.modTeam k f).thexo = s.thexo := rfl

@[simp] theorem State.putCore_tick (s : State) (c : Nat) (x : Core) : (s.putCore c x).tick = s.tick := rfl
@[simp] theorem State.putCore_free (s : State) (c : Nat) (x : Core) : (s.putCore c x).free = s.free := rfl
@[simp] theorem State.putCore_cycle (s : State) (c : Nat) (x : Core) : (s.putCore c x).cycle = s.cycle := rfl
@[simp] theorem State.putCore_cur (s : State) (c : Nat) (x : Core) : (s.putCore c x).cur = s.cur := rfl
@[simp] theorem State.putCore_core (s : State) (c : Nat) (x : Core) : (s.putCore c x).core = s.core := rfl
@[simp] theorem State.putCore_issue (s : State) (c : Nat) (x : Core) : (s.putCore c x).issue = s.issue := rfl
@[simp] theorem State.putCore_inputs (s : State) (c : Nat) (x : Core) : (s.putCore c x).inputs = s.inputs := rfl
@[simp] theorem State.putCore_outputs (s : State) (c : Nat) (x : Core) : (s.putCore c x).outputs = s.outputs := rfl
@[simp] theorem State.putCore_mem (s : State) (c : Nat) (x : Core) : (s.putCore c x).mem = s.mem := rfl
@[simp] theorem State.putCore_tags (s : State) (c : Nat) (x : Core) : (s.putCore c x).tags = s.tags := rfl
@[simp] theorem State.putCore_l2 (s : State) (c : Nat) (x : Core) : (s.putCore c x).l2 = s.l2 := rfl
@[simp] theorem State.putCore_windows (s : State) (c : Nat) (x : Core) : (s.putCore c x).windows = s.windows := rfl
@[simp] theorem State.putCore_l2windows (s : State) (c : Nat) (x : Core) : (s.putCore c x).l2windows = s.l2windows := rfl
@[simp] theorem State.putCore_dies (s : State) (c : Nat) (x : Core) : (s.putCore c x).dies = s.dies := rfl
@[simp] theorem State.putCore_grids (s : State) (c : Nat) (x : Core) : (s.putCore c x).grids = s.grids := rfl
@[simp] theorem State.putCore_teams (s : State) (c : Nat) (x : Core) : (s.putCore c x).teams = s.teams := rfl
@[simp] theorem State.putCore_groups (s : State) (c : Nat) (x : Core) : (s.putCore c x).groups = s.groups := rfl
@[simp] theorem State.putCore_nextGrid (s : State) (c : Nat) (x : Core) : (s.putCore c x).nextGrid = s.nextGrid := rfl
@[simp] theorem State.putCore_stamp (s : State) (c : Nat) (x : Core) : (s.putCore c x).stamp = s.stamp := rfl
@[simp] theorem State.putCore_depCtrs (s : State) (c : Nat) (x : Core) : (s.putCore c x).depCtrs = s.depCtrs := rfl
@[simp] theorem State.putCore_keys (s : State) (c : Nat) (x : Core) : (s.putCore c x).keys = s.keys := rfl
@[simp] theorem State.putCore_incs (s : State) (c : Nat) (x : Core) : (s.putCore c x).incs = s.incs := rfl
@[simp] theorem State.putCore_fabric (s : State) (c : Nat) (x : Core) : (s.putCore c x).fabric = s.fabric := rfl
@[simp] theorem State.putCore_colls (s : State) (c : Nat) (x : Core) : (s.putCore c x).colls = s.colls := rfl
@[simp] theorem State.putCore_cancelled (s : State) (c : Nat) (x : Core) : (s.putCore c x).cancelled = s.cancelled := rfl
@[simp] theorem State.putCore_collSeq (s : State) (c : Nat) (x : Core) : (s.putCore c x).collSeq = s.collSeq := rfl
@[simp] theorem State.putCore_nextColl (s : State) (c : Nat) (x : Core) : (s.putCore c x).nextColl = s.nextColl := rfl
@[simp] theorem State.putCore_ctl (s : State) (c : Nat) (x : Core) : (s.putCore c x).ctl = s.ctl := rfl
@[simp] theorem State.putCore_ckpt (s : State) (c : Nat) (x : Core) : (s.putCore c x).ckpt = s.ckpt := rfl
@[simp] theorem State.putCore_slotA (s : State) (c : Nat) (x : Core) : (s.putCore c x).slotA = s.slotA := rfl
@[simp] theorem State.putCore_slotB (s : State) (c : Nat) (x : Core) : (s.putCore c x).slotB = s.slotB := rfl
@[simp] theorem State.putCore_fusedMin (s : State) (c : Nat) (x : Core) : (s.putCore c x).fusedMin = s.fusedMin := rfl
@[simp] theorem State.putCore_bootStat (s : State) (c : Nat) (x : Core) : (s.putCore c x).bootStat = s.bootStat := rfl
@[simp] theorem State.putCore_firmware (s : State) (c : Nat) (x : Core) : (s.putCore c x).firmware = s.firmware := rfl
@[simp] theorem State.putCore_cap (s : State) (c : Nat) (x : Core) : (s.putCore c x).cap = s.cap := rfl
@[simp] theorem State.putCore_capNext (s : State) (c : Nat) (x : Core) : (s.putCore c x).capNext = s.capNext := rfl
@[simp] theorem State.putCore_telemSeq (s : State) (c : Nat) (x : Core) : (s.putCore c x).telemSeq = s.telemSeq := rfl
@[simp] theorem State.putCore_ready (s : State) (c : Nat) (x : Core) : (s.putCore c x).ready = s.ready := rfl
@[simp] theorem State.putCore_links (s : State) (c : Nat) (x : Core) : (s.putCore c x).links = s.links := rfl
@[simp] theorem State.putCore_svn (s : State) (c : Nat) (x : Core) : (s.putCore c x).svn = s.svn := rfl
@[simp] theorem State.putCore_measured (s : State) (c : Nat) (x : Core) : (s.putCore c x).measured = s.measured := rfl
@[simp] theorem State.putCore_energy (s : State) (c : Nat) (x : Core) : (s.putCore c x).energy = s.energy := rfl
@[simp] theorem State.putCore_boot (s : State) (c : Nat) (x : Core) : (s.putCore c x).boot = s.boot := rfl
@[simp] theorem State.putCore_loaded (s : State) (c : Nat) (x : Core) : (s.putCore c x).loaded = s.loaded := rfl
@[simp] theorem State.putCore_checking (s : State) (c : Nat) (x : Core) : (s.putCore c x).checking = s.checking := rfl
@[simp] theorem State.putCore_nonce (s : State) (c : Nat) (x : Core) : (s.putCore c x).nonce = s.nonce := rfl
@[simp] theorem State.putCore_telem (s : State) (c : Nat) (x : Core) : (s.putCore c x).telem = s.telem := rfl
@[simp] theorem State.putCore_request (s : State) (c : Nat) (x : Core) : (s.putCore c x).request = s.request := rfl
@[simp] theorem State.putCore_thexo (s : State) (c : Nat) (x : Core) : (s.putCore c x).thexo = s.thexo := rfl

@[simp] theorem State.putDie_tick (s : State) (d : Nat) (x : Die) : (s.putDie d x).tick = s.tick := rfl
@[simp] theorem State.putDie_free (s : State) (d : Nat) (x : Die) : (s.putDie d x).free = s.free := rfl
@[simp] theorem State.putDie_cycle (s : State) (d : Nat) (x : Die) : (s.putDie d x).cycle = s.cycle := rfl
@[simp] theorem State.putDie_cur (s : State) (d : Nat) (x : Die) : (s.putDie d x).cur = s.cur := rfl
@[simp] theorem State.putDie_core (s : State) (d : Nat) (x : Die) : (s.putDie d x).core = s.core := rfl
@[simp] theorem State.putDie_issue (s : State) (d : Nat) (x : Die) : (s.putDie d x).issue = s.issue := rfl
@[simp] theorem State.putDie_inputs (s : State) (d : Nat) (x : Die) : (s.putDie d x).inputs = s.inputs := rfl
@[simp] theorem State.putDie_outputs (s : State) (d : Nat) (x : Die) : (s.putDie d x).outputs = s.outputs := rfl
@[simp] theorem State.putDie_mem (s : State) (d : Nat) (x : Die) : (s.putDie d x).mem = s.mem := rfl
@[simp] theorem State.putDie_tags (s : State) (d : Nat) (x : Die) : (s.putDie d x).tags = s.tags := rfl
@[simp] theorem State.putDie_l2 (s : State) (d : Nat) (x : Die) : (s.putDie d x).l2 = s.l2 := rfl
@[simp] theorem State.putDie_windows (s : State) (d : Nat) (x : Die) : (s.putDie d x).windows = s.windows := rfl
@[simp] theorem State.putDie_l2windows (s : State) (d : Nat) (x : Die) : (s.putDie d x).l2windows = s.l2windows := rfl
@[simp] theorem State.putDie_cores (s : State) (d : Nat) (x : Die) : (s.putDie d x).cores = s.cores := rfl
@[simp] theorem State.putDie_grids (s : State) (d : Nat) (x : Die) : (s.putDie d x).grids = s.grids := rfl
@[simp] theorem State.putDie_teams (s : State) (d : Nat) (x : Die) : (s.putDie d x).teams = s.teams := rfl
@[simp] theorem State.putDie_groups (s : State) (d : Nat) (x : Die) : (s.putDie d x).groups = s.groups := rfl
@[simp] theorem State.putDie_nextGrid (s : State) (d : Nat) (x : Die) : (s.putDie d x).nextGrid = s.nextGrid := rfl
@[simp] theorem State.putDie_stamp (s : State) (d : Nat) (x : Die) : (s.putDie d x).stamp = s.stamp := rfl
@[simp] theorem State.putDie_depCtrs (s : State) (d : Nat) (x : Die) : (s.putDie d x).depCtrs = s.depCtrs := rfl
@[simp] theorem State.putDie_keys (s : State) (d : Nat) (x : Die) : (s.putDie d x).keys = s.keys := rfl
@[simp] theorem State.putDie_incs (s : State) (d : Nat) (x : Die) : (s.putDie d x).incs = s.incs := rfl
@[simp] theorem State.putDie_fabric (s : State) (d : Nat) (x : Die) : (s.putDie d x).fabric = s.fabric := rfl
@[simp] theorem State.putDie_colls (s : State) (d : Nat) (x : Die) : (s.putDie d x).colls = s.colls := rfl
@[simp] theorem State.putDie_cancelled (s : State) (d : Nat) (x : Die) : (s.putDie d x).cancelled = s.cancelled := rfl
@[simp] theorem State.putDie_collSeq (s : State) (d : Nat) (x : Die) : (s.putDie d x).collSeq = s.collSeq := rfl
@[simp] theorem State.putDie_nextColl (s : State) (d : Nat) (x : Die) : (s.putDie d x).nextColl = s.nextColl := rfl
@[simp] theorem State.putDie_ctl (s : State) (d : Nat) (x : Die) : (s.putDie d x).ctl = s.ctl := rfl
@[simp] theorem State.putDie_ckpt (s : State) (d : Nat) (x : Die) : (s.putDie d x).ckpt = s.ckpt := rfl
@[simp] theorem State.putDie_slotA (s : State) (d : Nat) (x : Die) : (s.putDie d x).slotA = s.slotA := rfl
@[simp] theorem State.putDie_slotB (s : State) (d : Nat) (x : Die) : (s.putDie d x).slotB = s.slotB := rfl
@[simp] theorem State.putDie_fusedMin (s : State) (d : Nat) (x : Die) : (s.putDie d x).fusedMin = s.fusedMin := rfl
@[simp] theorem State.putDie_bootStat (s : State) (d : Nat) (x : Die) : (s.putDie d x).bootStat = s.bootStat := rfl
@[simp] theorem State.putDie_firmware (s : State) (d : Nat) (x : Die) : (s.putDie d x).firmware = s.firmware := rfl
@[simp] theorem State.putDie_cap (s : State) (d : Nat) (x : Die) : (s.putDie d x).cap = s.cap := rfl
@[simp] theorem State.putDie_capNext (s : State) (d : Nat) (x : Die) : (s.putDie d x).capNext = s.capNext := rfl
@[simp] theorem State.putDie_telemSeq (s : State) (d : Nat) (x : Die) : (s.putDie d x).telemSeq = s.telemSeq := rfl
@[simp] theorem State.putDie_ready (s : State) (d : Nat) (x : Die) : (s.putDie d x).ready = s.ready := rfl
@[simp] theorem State.putDie_links (s : State) (d : Nat) (x : Die) : (s.putDie d x).links = s.links := rfl
@[simp] theorem State.putDie_svn (s : State) (d : Nat) (x : Die) : (s.putDie d x).svn = s.svn := rfl
@[simp] theorem State.putDie_measured (s : State) (d : Nat) (x : Die) : (s.putDie d x).measured = s.measured := rfl
@[simp] theorem State.putDie_energy (s : State) (d : Nat) (x : Die) : (s.putDie d x).energy = s.energy := rfl
@[simp] theorem State.putDie_boot (s : State) (d : Nat) (x : Die) : (s.putDie d x).boot = s.boot := rfl
@[simp] theorem State.putDie_loaded (s : State) (d : Nat) (x : Die) : (s.putDie d x).loaded = s.loaded := rfl
@[simp] theorem State.putDie_checking (s : State) (d : Nat) (x : Die) : (s.putDie d x).checking = s.checking := rfl
@[simp] theorem State.putDie_nonce (s : State) (d : Nat) (x : Die) : (s.putDie d x).nonce = s.nonce := rfl
@[simp] theorem State.putDie_telem (s : State) (d : Nat) (x : Die) : (s.putDie d x).telem = s.telem := rfl
@[simp] theorem State.putDie_request (s : State) (d : Nat) (x : Die) : (s.putDie d x).request = s.request := rfl
@[simp] theorem State.putDie_thexo (s : State) (d : Nat) (x : Die) : (s.putDie d x).thexo = s.thexo := rfl

@[simp] theorem State.perfEvent_tick (s : State) (c e g n : Nat) : (s.perfEvent c e g n).tick = s.tick := rfl
@[simp] theorem State.perfEvent_free (s : State) (c e g n : Nat) : (s.perfEvent c e g n).free = s.free := rfl
@[simp] theorem State.perfEvent_cycle (s : State) (c e g n : Nat) : (s.perfEvent c e g n).cycle = s.cycle := rfl
@[simp] theorem State.perfEvent_cur (s : State) (c e g n : Nat) : (s.perfEvent c e g n).cur = s.cur := rfl
@[simp] theorem State.perfEvent_core (s : State) (c e g n : Nat) : (s.perfEvent c e g n).core = s.core := rfl
@[simp] theorem State.perfEvent_issue (s : State) (c e g n : Nat) : (s.perfEvent c e g n).issue = s.issue := rfl
@[simp] theorem State.perfEvent_inputs (s : State) (c e g n : Nat) : (s.perfEvent c e g n).inputs = s.inputs := rfl
@[simp] theorem State.perfEvent_outputs (s : State) (c e g n : Nat) : (s.perfEvent c e g n).outputs = s.outputs := rfl
@[simp] theorem State.perfEvent_mem (s : State) (c e g n : Nat) : (s.perfEvent c e g n).mem = s.mem := rfl
@[simp] theorem State.perfEvent_tags (s : State) (c e g n : Nat) : (s.perfEvent c e g n).tags = s.tags := rfl
@[simp] theorem State.perfEvent_l2 (s : State) (c e g n : Nat) : (s.perfEvent c e g n).l2 = s.l2 := rfl
@[simp] theorem State.perfEvent_windows (s : State) (c e g n : Nat) : (s.perfEvent c e g n).windows = s.windows := rfl
@[simp] theorem State.perfEvent_l2windows (s : State) (c e g n : Nat) : (s.perfEvent c e g n).l2windows = s.l2windows := rfl
@[simp] theorem State.perfEvent_dies (s : State) (c e g n : Nat) : (s.perfEvent c e g n).dies = s.dies := rfl
@[simp] theorem State.perfEvent_grids (s : State) (c e g n : Nat) : (s.perfEvent c e g n).grids = s.grids := rfl
@[simp] theorem State.perfEvent_teams (s : State) (c e g n : Nat) : (s.perfEvent c e g n).teams = s.teams := rfl
@[simp] theorem State.perfEvent_groups (s : State) (c e g n : Nat) : (s.perfEvent c e g n).groups = s.groups := rfl
@[simp] theorem State.perfEvent_nextGrid (s : State) (c e g n : Nat) : (s.perfEvent c e g n).nextGrid = s.nextGrid := rfl
@[simp] theorem State.perfEvent_stamp (s : State) (c e g n : Nat) : (s.perfEvent c e g n).stamp = s.stamp := rfl
@[simp] theorem State.perfEvent_depCtrs (s : State) (c e g n : Nat) : (s.perfEvent c e g n).depCtrs = s.depCtrs := rfl
@[simp] theorem State.perfEvent_keys (s : State) (c e g n : Nat) : (s.perfEvent c e g n).keys = s.keys := rfl
@[simp] theorem State.perfEvent_incs (s : State) (c e g n : Nat) : (s.perfEvent c e g n).incs = s.incs := rfl
@[simp] theorem State.perfEvent_fabric (s : State) (c e g n : Nat) : (s.perfEvent c e g n).fabric = s.fabric := rfl
@[simp] theorem State.perfEvent_colls (s : State) (c e g n : Nat) : (s.perfEvent c e g n).colls = s.colls := rfl
@[simp] theorem State.perfEvent_cancelled (s : State) (c e g n : Nat) : (s.perfEvent c e g n).cancelled = s.cancelled := rfl
@[simp] theorem State.perfEvent_collSeq (s : State) (c e g n : Nat) : (s.perfEvent c e g n).collSeq = s.collSeq := rfl
@[simp] theorem State.perfEvent_nextColl (s : State) (c e g n : Nat) : (s.perfEvent c e g n).nextColl = s.nextColl := rfl
@[simp] theorem State.perfEvent_ctl (s : State) (c e g n : Nat) : (s.perfEvent c e g n).ctl = s.ctl := rfl
@[simp] theorem State.perfEvent_ckpt (s : State) (c e g n : Nat) : (s.perfEvent c e g n).ckpt = s.ckpt := rfl
@[simp] theorem State.perfEvent_slotA (s : State) (c e g n : Nat) : (s.perfEvent c e g n).slotA = s.slotA := rfl
@[simp] theorem State.perfEvent_slotB (s : State) (c e g n : Nat) : (s.perfEvent c e g n).slotB = s.slotB := rfl
@[simp] theorem State.perfEvent_fusedMin (s : State) (c e g n : Nat) : (s.perfEvent c e g n).fusedMin = s.fusedMin := rfl
@[simp] theorem State.perfEvent_bootStat (s : State) (c e g n : Nat) : (s.perfEvent c e g n).bootStat = s.bootStat := rfl
@[simp] theorem State.perfEvent_firmware (s : State) (c e g n : Nat) : (s.perfEvent c e g n).firmware = s.firmware := rfl
@[simp] theorem State.perfEvent_cap (s : State) (c e g n : Nat) : (s.perfEvent c e g n).cap = s.cap := rfl
@[simp] theorem State.perfEvent_capNext (s : State) (c e g n : Nat) : (s.perfEvent c e g n).capNext = s.capNext := rfl
@[simp] theorem State.perfEvent_telemSeq (s : State) (c e g n : Nat) : (s.perfEvent c e g n).telemSeq = s.telemSeq := rfl
@[simp] theorem State.perfEvent_ready (s : State) (c e g n : Nat) : (s.perfEvent c e g n).ready = s.ready := rfl
@[simp] theorem State.perfEvent_links (s : State) (c e g n : Nat) : (s.perfEvent c e g n).links = s.links := rfl
@[simp] theorem State.perfEvent_svn (s : State) (c e g n : Nat) : (s.perfEvent c e g n).svn = s.svn := rfl
@[simp] theorem State.perfEvent_measured (s : State) (c e g n : Nat) : (s.perfEvent c e g n).measured = s.measured := rfl
@[simp] theorem State.perfEvent_energy (s : State) (c e g n : Nat) : (s.perfEvent c e g n).energy = s.energy := rfl
@[simp] theorem State.perfEvent_boot (s : State) (c e g n : Nat) : (s.perfEvent c e g n).boot = s.boot := rfl
@[simp] theorem State.perfEvent_loaded (s : State) (c e g n : Nat) : (s.perfEvent c e g n).loaded = s.loaded := rfl
@[simp] theorem State.perfEvent_checking (s : State) (c e g n : Nat) : (s.perfEvent c e g n).checking = s.checking := rfl
@[simp] theorem State.perfEvent_nonce (s : State) (c e g n : Nat) : (s.perfEvent c e g n).nonce = s.nonce := rfl
@[simp] theorem State.perfEvent_telem (s : State) (c e g n : Nat) : (s.perfEvent c e g n).telem = s.telem := rfl
@[simp] theorem State.perfEvent_request (s : State) (c e g n : Nat) : (s.perfEvent c e g n).request = s.request := rfl
@[simp] theorem State.perfEvent_thexo (s : State) (c e g n : Nat) : (s.perfEvent c e g n).thexo = s.thexo := rfl

@[simp] theorem writeByte_tick (s : State) (a : Nat) (b : Byte) : (writeByte s a b).tick = s.tick := rfl
@[simp] theorem writeByte_free (s : State) (a : Nat) (b : Byte) : (writeByte s a b).free = s.free := rfl
@[simp] theorem writeByte_cycle (s : State) (a : Nat) (b : Byte) : (writeByte s a b).cycle = s.cycle := rfl
@[simp] theorem writeByte_cur (s : State) (a : Nat) (b : Byte) : (writeByte s a b).cur = s.cur := rfl
@[simp] theorem writeByte_core (s : State) (a : Nat) (b : Byte) : (writeByte s a b).core = s.core := rfl
@[simp] theorem writeByte_issue (s : State) (a : Nat) (b : Byte) : (writeByte s a b).issue = s.issue := rfl
@[simp] theorem writeByte_inputs (s : State) (a : Nat) (b : Byte) : (writeByte s a b).inputs = s.inputs := rfl
@[simp] theorem writeByte_outputs (s : State) (a : Nat) (b : Byte) : (writeByte s a b).outputs = s.outputs := rfl
@[simp] theorem writeByte_tags (s : State) (a : Nat) (b : Byte) : (writeByte s a b).tags = s.tags := rfl
@[simp] theorem writeByte_l2 (s : State) (a : Nat) (b : Byte) : (writeByte s a b).l2 = s.l2 := rfl
@[simp] theorem writeByte_windows (s : State) (a : Nat) (b : Byte) : (writeByte s a b).windows = s.windows := rfl
@[simp] theorem writeByte_l2windows (s : State) (a : Nat) (b : Byte) : (writeByte s a b).l2windows = s.l2windows := rfl
@[simp] theorem writeByte_dies (s : State) (a : Nat) (b : Byte) : (writeByte s a b).dies = s.dies := rfl
@[simp] theorem writeByte_cores (s : State) (a : Nat) (b : Byte) : (writeByte s a b).cores = s.cores := rfl
@[simp] theorem writeByte_grids (s : State) (a : Nat) (b : Byte) : (writeByte s a b).grids = s.grids := rfl
@[simp] theorem writeByte_teams (s : State) (a : Nat) (b : Byte) : (writeByte s a b).teams = s.teams := rfl
@[simp] theorem writeByte_groups (s : State) (a : Nat) (b : Byte) : (writeByte s a b).groups = s.groups := rfl
@[simp] theorem writeByte_nextGrid (s : State) (a : Nat) (b : Byte) : (writeByte s a b).nextGrid = s.nextGrid := rfl
@[simp] theorem writeByte_stamp (s : State) (a : Nat) (b : Byte) : (writeByte s a b).stamp = s.stamp := rfl
@[simp] theorem writeByte_depCtrs (s : State) (a : Nat) (b : Byte) : (writeByte s a b).depCtrs = s.depCtrs := rfl
@[simp] theorem writeByte_keys (s : State) (a : Nat) (b : Byte) : (writeByte s a b).keys = s.keys := rfl
@[simp] theorem writeByte_incs (s : State) (a : Nat) (b : Byte) : (writeByte s a b).incs = s.incs := rfl
@[simp] theorem writeByte_fabric (s : State) (a : Nat) (b : Byte) : (writeByte s a b).fabric = s.fabric := rfl
@[simp] theorem writeByte_colls (s : State) (a : Nat) (b : Byte) : (writeByte s a b).colls = s.colls := rfl
@[simp] theorem writeByte_cancelled (s : State) (a : Nat) (b : Byte) : (writeByte s a b).cancelled = s.cancelled := rfl
@[simp] theorem writeByte_collSeq (s : State) (a : Nat) (b : Byte) : (writeByte s a b).collSeq = s.collSeq := rfl
@[simp] theorem writeByte_nextColl (s : State) (a : Nat) (b : Byte) : (writeByte s a b).nextColl = s.nextColl := rfl
@[simp] theorem writeByte_ctl (s : State) (a : Nat) (b : Byte) : (writeByte s a b).ctl = s.ctl := rfl
@[simp] theorem writeByte_ckpt (s : State) (a : Nat) (b : Byte) : (writeByte s a b).ckpt = s.ckpt := rfl
@[simp] theorem writeByte_slotA (s : State) (a : Nat) (b : Byte) : (writeByte s a b).slotA = s.slotA := rfl
@[simp] theorem writeByte_slotB (s : State) (a : Nat) (b : Byte) : (writeByte s a b).slotB = s.slotB := rfl
@[simp] theorem writeByte_fusedMin (s : State) (a : Nat) (b : Byte) : (writeByte s a b).fusedMin = s.fusedMin := rfl
@[simp] theorem writeByte_bootStat (s : State) (a : Nat) (b : Byte) : (writeByte s a b).bootStat = s.bootStat := rfl
@[simp] theorem writeByte_firmware (s : State) (a : Nat) (b : Byte) : (writeByte s a b).firmware = s.firmware := rfl
@[simp] theorem writeByte_cap (s : State) (a : Nat) (b : Byte) : (writeByte s a b).cap = s.cap := rfl
@[simp] theorem writeByte_capNext (s : State) (a : Nat) (b : Byte) : (writeByte s a b).capNext = s.capNext := rfl
@[simp] theorem writeByte_telemSeq (s : State) (a : Nat) (b : Byte) : (writeByte s a b).telemSeq = s.telemSeq := rfl
@[simp] theorem writeByte_ready (s : State) (a : Nat) (b : Byte) : (writeByte s a b).ready = s.ready := rfl
@[simp] theorem writeByte_links (s : State) (a : Nat) (b : Byte) : (writeByte s a b).links = s.links := rfl
@[simp] theorem writeByte_svn (s : State) (a : Nat) (b : Byte) : (writeByte s a b).svn = s.svn := rfl
@[simp] theorem writeByte_measured (s : State) (a : Nat) (b : Byte) : (writeByte s a b).measured = s.measured := rfl
@[simp] theorem writeByte_energy (s : State) (a : Nat) (b : Byte) : (writeByte s a b).energy = s.energy := rfl
@[simp] theorem writeByte_boot (s : State) (a : Nat) (b : Byte) : (writeByte s a b).boot = s.boot := rfl
@[simp] theorem writeByte_loaded (s : State) (a : Nat) (b : Byte) : (writeByte s a b).loaded = s.loaded := rfl
@[simp] theorem writeByte_checking (s : State) (a : Nat) (b : Byte) : (writeByte s a b).checking = s.checking := rfl
@[simp] theorem writeByte_nonce (s : State) (a : Nat) (b : Byte) : (writeByte s a b).nonce = s.nonce := rfl
@[simp] theorem writeByte_telem (s : State) (a : Nat) (b : Byte) : (writeByte s a b).telem = s.telem := rfl
@[simp] theorem writeByte_request (s : State) (a : Nat) (b : Byte) : (writeByte s a b).request = s.request := rfl
@[simp] theorem writeByte_thexo (s : State) (a : Nat) (b : Byte) : (writeByte s a b).thexo = s.thexo := rfl

@[simp] theorem Group.writeS_grid (g : Group) (n : Nat) (v : Word) : (g.writeS n v).grid = g.grid := by unfold Group.writeS; split <;> rfl
@[simp] theorem Group.writeS_gid (g : Group) (n : Nat) (v : Word) : (g.writeS n v).gid = g.gid := by unfold Group.writeS; split <;> rfl
@[simp] theorem Group.writeS_serial (g : Group) (n : Nat) (v : Word) : (g.writeS n v).serial = g.serial := by unfold Group.writeS; split <;> rfl
@[simp] theorem Group.writeS_due (g : Group) (n : Nat) (v : Word) : (g.writeS n v).due = g.due := by unfold Group.writeS; split <;> rfl
@[simp] theorem Group.writeS_store (g : Group) (n : Nat) (v : Word) : (g.writeS n v).store = g.store := by unfold Group.writeS; split <;> rfl
@[simp] theorem Group.writeS_waitOp (g : Group) (n : Nat) (v : Word) : (g.writeS n v).waitOp = g.waitOp := by unfold Group.writeS; split <;> rfl
@[simp] theorem Group.writeS_cycleMin (g : Group) (n : Nat) (v : Word) : (g.writeS n v).cycleMin = g.cycleMin := by unfold Group.writeS; split <;> rfl
@[simp] theorem Group.writeS_team (g : Group) (n : Nat) (v : Word) : (g.writeS n v).team = g.team := by unfold Group.writeS; split <;> rfl
@[simp] theorem Group.writeS_role (g : Group) (n : Nat) (v : Word) : (g.writeS n v).role = g.role := by unfold Group.writeS; split <;> rfl
@[simp] theorem Group.writeS_child (g : Group) (n : Nat) (v : Word) : (g.writeS n v).child = g.child := by unfold Group.writeS; split <;> rfl
@[simp] theorem Group.writeS_parent (g : Group) (n : Nat) (v : Word) : (g.writeS n v).parent = g.parent := by unfold Group.writeS; split <;> rfl
@[simp] theorem Group.writeS_launchIdx (g : Group) (n : Nat) (v : Word) : (g.writeS n v).launchIdx = g.launchIdx := by unfold Group.writeS; split <;> rfl
@[simp] theorem Group.writeS_core (g : Group) (n : Nat) (v : Word) : (g.writeS n v).core = g.core := by unfold Group.writeS; split <;> rfl
@[simp] theorem Group.writeS_slot (g : Group) (n : Nat) (v : Word) : (g.writeS n v).slot = g.slot := by unfold Group.writeS; split <;> rfl
@[simp] theorem Group.writeS_status (g : Group) (n : Nat) (v : Word) : (g.writeS n v).status = g.status := by unfold Group.writeS; split <;> rfl
@[simp] theorem Group.writeS_priv (g : Group) (n : Nat) (v : Word) : (g.writeS n v).priv = g.priv := by unfold Group.writeS; split <;> rfl
@[simp] theorem Group.writeS_pc (g : Group) (n : Nat) (v : Word) : (g.writeS n v).pc = g.pc := by unfold Group.writeS; split <;> rfl
@[simp] theorem Group.writeS_v (g : Group) (n : Nat) (v : Word) : (g.writeS n v).v = g.v := by unfold Group.writeS; split <;> rfl
@[simp] theorem Group.writeS_q (g : Group) (n : Nat) (v : Word) : (g.writeS n v).q = g.q := by unfold Group.writeS; split <;> rfl
@[simp] theorem Group.writeS_p (g : Group) (n : Nat) (v : Word) : (g.writeS n v).p = g.p := by unfold Group.writeS; split <;> rfl
@[simp] theorem Group.writeS_a (g : Group) (n : Nat) (v : Word) : (g.writeS n v).a = g.a := by unfold Group.writeS; split <;> rfl
@[simp] theorem Group.writeS_flagSoft (g : Group) (n : Nat) (v : Word) : (g.writeS n v).flagSoft = g.flagSoft := by unfold Group.writeS; split <;> rfl
@[simp] theorem Group.writeS_flagCount (g : Group) (n : Nat) (v : Word) : (g.writeS n v).flagCount = g.flagCount := by unfold Group.writeS; split <;> rfl
@[simp] theorem Group.writeS_k (g : Group) (n : Nat) (v : Word) : (g.writeS n v).k = g.k := by unfold Group.writeS; split <;> rfl
@[simp] theorem Group.writeS_rnd (g : Group) (n : Nat) (v : Word) : (g.writeS n v).rnd = g.rnd := by unfold Group.writeS; split <;> rfl
@[simp] theorem Group.writeS_tanw (g : Group) (n : Nat) (v : Word) : (g.writeS n v).tanw = g.tanw := by unfold Group.writeS; split <;> rfl
@[simp] theorem Group.writeS_dplane (g : Group) (n : Nat) (v : Word) : (g.writeS n v).dplane = g.dplane := by unfold Group.writeS; split <;> rfl
@[simp] theorem Group.writeS_dstride (g : Group) (n : Nat) (v : Word) : (g.writeS n v).dstride = g.dstride := by unfold Group.writeS; split <;> rfl
@[simp] theorem Group.writeS_srseed (g : Group) (n : Nat) (v : Word) : (g.writeS n v).srseed = g.srseed := by unfold Group.writeS; split <;> rfl
@[simp] theorem Group.writeS_cring (g : Group) (n : Nat) (v : Word) : (g.writeS n v).cring = g.cring := by unfold Group.writeS; split <;> rfl
@[simp] theorem Group.writeS_ulivec (g : Group) (n : Nat) (v : Word) : (g.writeS n v).ulivec = g.ulivec := by unfold Group.writeS; split <;> rfl
@[simp] theorem Group.writeS_savearea (g : Group) (n : Nat) (v : Word) : (g.writeS n v).savearea = g.savearea := by unfold Group.writeS; split <;> rfl
@[simp] theorem Group.writeS_prdeadline (g : Group) (n : Nat) (v : Word) : (g.writeS n v).prdeadline = g.prdeadline := by unfold Group.writeS; split <;> rfl
@[simp] theorem Group.writeS_drawid (g : Group) (n : Nat) (v : Word) : (g.writeS n v).drawid = g.drawid := by unfold Group.writeS; split <;> rfl
@[simp] theorem Group.writeS_trapcause (g : Group) (n : Nat) (v : Word) : (g.writeS n v).trapcause = g.trapcause := by unfold Group.writeS; split <;> rfl
@[simp] theorem Group.writeS_trappc (g : Group) (n : Nat) (v : Word) : (g.writeS n v).trappc = g.trappc := by unfold Group.writeS; split <;> rfl
@[simp] theorem Group.writeS_traplanes (g : Group) (n : Nat) (v : Word) : (g.writeS n v).traplanes = g.traplanes := by unfold Group.writeS; split <;> rfl
@[simp] theorem Group.writeS_trapaddr (g : Group) (n : Nat) (v : Word) : (g.writeS n v).trapaddr = g.trapaddr := by unfold Group.writeS; split <;> rfl
@[simp] theorem Group.writeS_keysel (g : Group) (n : Nat) (v : Word) : (g.writeS n v).keysel = g.keysel := by unfold Group.writeS; split <;> rfl
@[simp] theorem Group.writeS_draws (g : Group) (n : Nat) (v : Word) : (g.writeS n v).draws = g.draws := by unfold Group.writeS; split <;> rfl
@[simp] theorem Group.writeS_alloc (g : Group) (n : Nat) (v : Word) : (g.writeS n v).alloc = g.alloc := by unfold Group.writeS; split <;> rfl
@[simp] theorem Group.writeS_laneQ (g : Group) (n : Nat) (v : Word) : (g.writeS n v).laneQ = g.laneQ := by unfold Group.writeS; split <;> rfl
@[simp] theorem Group.writeS_handlerQ (g : Group) (n : Nat) (v : Word) : (g.writeS n v).handlerQ = g.handlerQ := by unfold Group.writeS; split <;> rfl
@[simp] theorem Group.writeS_cleared (g : Group) (n : Nat) (v : Word) : (g.writeS n v).cleared = g.cleared := by unfold Group.writeS; split <;> rfl
@[simp] theorem Group.writeS_splits (g : Group) (n : Nat) (v : Word) : (g.writeS n v).splits = g.splits := by unfold Group.writeS; split <;> rfl
@[simp] theorem Group.writeS_hsplit (g : Group) (n : Nat) (v : Word) : (g.writeS n v).hsplit = g.hsplit := by unfold Group.writeS; split <;> rfl
@[simp] theorem Group.writeS_laneOps (g : Group) (n : Nat) (v : Word) : (g.writeS n v).laneOps = g.laneOps := by unfold Group.writeS; split <;> rfl
@[simp] theorem Group.writeS_scalarOps (g : Group) (n : Nat) (v : Word) : (g.writeS n v).scalarOps = g.scalarOps := by unfold Group.writeS; split <;> rfl
@[simp] theorem Group.writeS_nextOp (g : Group) (n : Nat) (v : Word) : (g.writeS n v).nextOp = g.nextOp := by unfold Group.writeS; split <;> rfl
@[simp] theorem Group.writeS_handler (g : Group) (n : Nat) (v : Word) : (g.writeS n v).handler = g.handler := by unfold Group.writeS; split <;> rfl
@[simp] theorem Group.writeS_hidden (g : Group) (n : Nat) (v : Word) : (g.writeS n v).hidden = g.hidden := by unfold Group.writeS; split <;> rfl
@[simp] theorem Group.writeS_mismatch (g : Group) (n : Nat) (v : Word) : (g.writeS n v).mismatch = g.mismatch := by unfold Group.writeS; split <;> rfl
@[simp] theorem Group.writeS_xfererr (g : Group) (n : Nat) (v : Word) : (g.writeS n v).xfererr = g.xfererr := by unfold Group.writeS; split <;> rfl
@[simp] theorem Group.writeS_preempt (g : Group) (n : Nat) (v : Word) : (g.writeS n v).preempt = g.preempt := by unfold Group.writeS; split <;> rfl
@[simp] theorem Group.writeS_intPending (g : Group) (n : Nat) (v : Word) : (g.writeS n v).intPending = g.intPending := by unfold Group.writeS; split <;> rfl
@[simp] theorem Group.writeS_intState (g : Group) (n : Nat) (v : Word) : (g.writeS n v).intState = g.intState := by unfold Group.writeS; split <;> rfl
@[simp] theorem Group.writeS_intReturn (g : Group) (n : Nat) (v : Word) : (g.writeS n v).intReturn = g.intReturn := by unfold Group.writeS; split <;> rfl
@[simp] theorem Group.writeS_barrier (g : Group) (n : Nat) (v : Word) : (g.writeS n v).barrier = g.barrier := by unfold Group.writeS; split <;> rfl
@[simp] theorem Group.writeS_arrived (g : Group) (n : Nat) (v : Word) : (g.writeS n v).arrived = g.arrived := by unfold Group.writeS; split <;> rfl
@[simp] theorem Group.writeS_dropped (g : Group) (n : Nat) (v : Word) : (g.writeS n v).dropped = g.dropped := by unfold Group.writeS; split <;> rfl
@[simp] theorem Group.writeS_noRing (g : Group) (n : Nat) (v : Word) : (g.writeS n v).noRing = g.noRing := by unfold Group.writeS; split <;> rfl
@[simp] theorem Group.writeS_wait (g : Group) (n : Nat) (v : Word) : (g.writeS n v).wait = g.wait := by unfold Group.writeS; split <;> rfl
@[simp] theorem Group.writeS_waitMark (g : Group) (n : Nat) (v : Word) : (g.writeS n v).waitMark = g.waitMark := by unfold Group.writeS; split <;> rfl
@[simp] theorem Group.writeS_age (g : Group) (n : Nat) (v : Word) : (g.writeS n v).age = g.age := by unfold Group.writeS; split <;> rfl
@[simp] theorem Group.writeS_hold (g : Group) (n : Nat) (v : Word) : (g.writeS n v).hold = g.hold := by unfold Group.writeS; split <;> rfl
@[simp] theorem Group.writeS_frame (g : Group) (n : Nat) (v : Word) : (g.writeS n v).frame = g.frame := by unfold Group.writeS; split <;> rfl
@[simp] theorem Group.writeS_placedAt (g : Group) (n : Nat) (v : Word) : (g.writeS n v).placedAt = g.placedAt := by unfold Group.writeS; split <;> rfl

@[simp] theorem Group.writeP_grid (g : Group) (n : Nat) (v : Mask) : (g.writeP n v).grid = g.grid := by unfold Group.writeP; split <;> rfl
@[simp] theorem Group.writeP_gid (g : Group) (n : Nat) (v : Mask) : (g.writeP n v).gid = g.gid := by unfold Group.writeP; split <;> rfl
@[simp] theorem Group.writeP_serial (g : Group) (n : Nat) (v : Mask) : (g.writeP n v).serial = g.serial := by unfold Group.writeP; split <;> rfl
@[simp] theorem Group.writeP_due (g : Group) (n : Nat) (v : Mask) : (g.writeP n v).due = g.due := by unfold Group.writeP; split <;> rfl
@[simp] theorem Group.writeP_store (g : Group) (n : Nat) (v : Mask) : (g.writeP n v).store = g.store := by unfold Group.writeP; split <;> rfl
@[simp] theorem Group.writeP_waitOp (g : Group) (n : Nat) (v : Mask) : (g.writeP n v).waitOp = g.waitOp := by unfold Group.writeP; split <;> rfl
@[simp] theorem Group.writeP_cycleMin (g : Group) (n : Nat) (v : Mask) : (g.writeP n v).cycleMin = g.cycleMin := by unfold Group.writeP; split <;> rfl
@[simp] theorem Group.writeP_team (g : Group) (n : Nat) (v : Mask) : (g.writeP n v).team = g.team := by unfold Group.writeP; split <;> rfl
@[simp] theorem Group.writeP_role (g : Group) (n : Nat) (v : Mask) : (g.writeP n v).role = g.role := by unfold Group.writeP; split <;> rfl
@[simp] theorem Group.writeP_child (g : Group) (n : Nat) (v : Mask) : (g.writeP n v).child = g.child := by unfold Group.writeP; split <;> rfl
@[simp] theorem Group.writeP_parent (g : Group) (n : Nat) (v : Mask) : (g.writeP n v).parent = g.parent := by unfold Group.writeP; split <;> rfl
@[simp] theorem Group.writeP_launchIdx (g : Group) (n : Nat) (v : Mask) : (g.writeP n v).launchIdx = g.launchIdx := by unfold Group.writeP; split <;> rfl
@[simp] theorem Group.writeP_core (g : Group) (n : Nat) (v : Mask) : (g.writeP n v).core = g.core := by unfold Group.writeP; split <;> rfl
@[simp] theorem Group.writeP_slot (g : Group) (n : Nat) (v : Mask) : (g.writeP n v).slot = g.slot := by unfold Group.writeP; split <;> rfl
@[simp] theorem Group.writeP_status (g : Group) (n : Nat) (v : Mask) : (g.writeP n v).status = g.status := by unfold Group.writeP; split <;> rfl
@[simp] theorem Group.writeP_priv (g : Group) (n : Nat) (v : Mask) : (g.writeP n v).priv = g.priv := by unfold Group.writeP; split <;> rfl
@[simp] theorem Group.writeP_pc (g : Group) (n : Nat) (v : Mask) : (g.writeP n v).pc = g.pc := by unfold Group.writeP; split <;> rfl
@[simp] theorem Group.writeP_s (g : Group) (n : Nat) (v : Mask) : (g.writeP n v).s = g.s := by unfold Group.writeP; split <;> rfl
@[simp] theorem Group.writeP_v (g : Group) (n : Nat) (v : Mask) : (g.writeP n v).v = g.v := by unfold Group.writeP; split <;> rfl
@[simp] theorem Group.writeP_q (g : Group) (n : Nat) (v : Mask) : (g.writeP n v).q = g.q := by unfold Group.writeP; split <;> rfl
@[simp] theorem Group.writeP_a (g : Group) (n : Nat) (v : Mask) : (g.writeP n v).a = g.a := by unfold Group.writeP; split <;> rfl
@[simp] theorem Group.writeP_flagSoft (g : Group) (n : Nat) (v : Mask) : (g.writeP n v).flagSoft = g.flagSoft := by unfold Group.writeP; split <;> rfl
@[simp] theorem Group.writeP_flagCount (g : Group) (n : Nat) (v : Mask) : (g.writeP n v).flagCount = g.flagCount := by unfold Group.writeP; split <;> rfl
@[simp] theorem Group.writeP_k (g : Group) (n : Nat) (v : Mask) : (g.writeP n v).k = g.k := by unfold Group.writeP; split <;> rfl
@[simp] theorem Group.writeP_rnd (g : Group) (n : Nat) (v : Mask) : (g.writeP n v).rnd = g.rnd := by unfold Group.writeP; split <;> rfl
@[simp] theorem Group.writeP_tanw (g : Group) (n : Nat) (v : Mask) : (g.writeP n v).tanw = g.tanw := by unfold Group.writeP; split <;> rfl
@[simp] theorem Group.writeP_dplane (g : Group) (n : Nat) (v : Mask) : (g.writeP n v).dplane = g.dplane := by unfold Group.writeP; split <;> rfl
@[simp] theorem Group.writeP_dstride (g : Group) (n : Nat) (v : Mask) : (g.writeP n v).dstride = g.dstride := by unfold Group.writeP; split <;> rfl
@[simp] theorem Group.writeP_srseed (g : Group) (n : Nat) (v : Mask) : (g.writeP n v).srseed = g.srseed := by unfold Group.writeP; split <;> rfl
@[simp] theorem Group.writeP_cring (g : Group) (n : Nat) (v : Mask) : (g.writeP n v).cring = g.cring := by unfold Group.writeP; split <;> rfl
@[simp] theorem Group.writeP_ulivec (g : Group) (n : Nat) (v : Mask) : (g.writeP n v).ulivec = g.ulivec := by unfold Group.writeP; split <;> rfl
@[simp] theorem Group.writeP_savearea (g : Group) (n : Nat) (v : Mask) : (g.writeP n v).savearea = g.savearea := by unfold Group.writeP; split <;> rfl
@[simp] theorem Group.writeP_prdeadline (g : Group) (n : Nat) (v : Mask) : (g.writeP n v).prdeadline = g.prdeadline := by unfold Group.writeP; split <;> rfl
@[simp] theorem Group.writeP_drawid (g : Group) (n : Nat) (v : Mask) : (g.writeP n v).drawid = g.drawid := by unfold Group.writeP; split <;> rfl
@[simp] theorem Group.writeP_trapcause (g : Group) (n : Nat) (v : Mask) : (g.writeP n v).trapcause = g.trapcause := by unfold Group.writeP; split <;> rfl
@[simp] theorem Group.writeP_trappc (g : Group) (n : Nat) (v : Mask) : (g.writeP n v).trappc = g.trappc := by unfold Group.writeP; split <;> rfl
@[simp] theorem Group.writeP_traplanes (g : Group) (n : Nat) (v : Mask) : (g.writeP n v).traplanes = g.traplanes := by unfold Group.writeP; split <;> rfl
@[simp] theorem Group.writeP_trapaddr (g : Group) (n : Nat) (v : Mask) : (g.writeP n v).trapaddr = g.trapaddr := by unfold Group.writeP; split <;> rfl
@[simp] theorem Group.writeP_keysel (g : Group) (n : Nat) (v : Mask) : (g.writeP n v).keysel = g.keysel := by unfold Group.writeP; split <;> rfl
@[simp] theorem Group.writeP_draws (g : Group) (n : Nat) (v : Mask) : (g.writeP n v).draws = g.draws := by unfold Group.writeP; split <;> rfl
@[simp] theorem Group.writeP_alloc (g : Group) (n : Nat) (v : Mask) : (g.writeP n v).alloc = g.alloc := by unfold Group.writeP; split <;> rfl
@[simp] theorem Group.writeP_laneQ (g : Group) (n : Nat) (v : Mask) : (g.writeP n v).laneQ = g.laneQ := by unfold Group.writeP; split <;> rfl
@[simp] theorem Group.writeP_handlerQ (g : Group) (n : Nat) (v : Mask) : (g.writeP n v).handlerQ = g.handlerQ := by unfold Group.writeP; split <;> rfl
@[simp] theorem Group.writeP_past (g : Group) (n : Nat) (v : Mask) : (g.writeP n v).past = g.past := by unfold Group.writeP; split <;> rfl
@[simp] theorem Group.writeP_cleared (g : Group) (n : Nat) (v : Mask) : (g.writeP n v).cleared = g.cleared := by unfold Group.writeP; split <;> rfl
@[simp] theorem Group.writeP_splits (g : Group) (n : Nat) (v : Mask) : (g.writeP n v).splits = g.splits := by unfold Group.writeP; split <;> rfl
@[simp] theorem Group.writeP_hsplit (g : Group) (n : Nat) (v : Mask) : (g.writeP n v).hsplit = g.hsplit := by unfold Group.writeP; split <;> rfl
@[simp] theorem Group.writeP_laneOps (g : Group) (n : Nat) (v : Mask) : (g.writeP n v).laneOps = g.laneOps := by unfold Group.writeP; split <;> rfl
@[simp] theorem Group.writeP_scalarOps (g : Group) (n : Nat) (v : Mask) : (g.writeP n v).scalarOps = g.scalarOps := by unfold Group.writeP; split <;> rfl
@[simp] theorem Group.writeP_nextOp (g : Group) (n : Nat) (v : Mask) : (g.writeP n v).nextOp = g.nextOp := by unfold Group.writeP; split <;> rfl
@[simp] theorem Group.writeP_handler (g : Group) (n : Nat) (v : Mask) : (g.writeP n v).handler = g.handler := by unfold Group.writeP; split <;> rfl
@[simp] theorem Group.writeP_hidden (g : Group) (n : Nat) (v : Mask) : (g.writeP n v).hidden = g.hidden := by unfold Group.writeP; split <;> rfl
@[simp] theorem Group.writeP_mismatch (g : Group) (n : Nat) (v : Mask) : (g.writeP n v).mismatch = g.mismatch := by unfold Group.writeP; split <;> rfl
@[simp] theorem Group.writeP_xfererr (g : Group) (n : Nat) (v : Mask) : (g.writeP n v).xfererr = g.xfererr := by unfold Group.writeP; split <;> rfl
@[simp] theorem Group.writeP_preempt (g : Group) (n : Nat) (v : Mask) : (g.writeP n v).preempt = g.preempt := by unfold Group.writeP; split <;> rfl
@[simp] theorem Group.writeP_intPending (g : Group) (n : Nat) (v : Mask) : (g.writeP n v).intPending = g.intPending := by unfold Group.writeP; split <;> rfl
@[simp] theorem Group.writeP_intState (g : Group) (n : Nat) (v : Mask) : (g.writeP n v).intState = g.intState := by unfold Group.writeP; split <;> rfl
@[simp] theorem Group.writeP_intReturn (g : Group) (n : Nat) (v : Mask) : (g.writeP n v).intReturn = g.intReturn := by unfold Group.writeP; split <;> rfl
@[simp] theorem Group.writeP_barrier (g : Group) (n : Nat) (v : Mask) : (g.writeP n v).barrier = g.barrier := by unfold Group.writeP; split <;> rfl
@[simp] theorem Group.writeP_arrived (g : Group) (n : Nat) (v : Mask) : (g.writeP n v).arrived = g.arrived := by unfold Group.writeP; split <;> rfl
@[simp] theorem Group.writeP_dropped (g : Group) (n : Nat) (v : Mask) : (g.writeP n v).dropped = g.dropped := by unfold Group.writeP; split <;> rfl
@[simp] theorem Group.writeP_noRing (g : Group) (n : Nat) (v : Mask) : (g.writeP n v).noRing = g.noRing := by unfold Group.writeP; split <;> rfl
@[simp] theorem Group.writeP_wait (g : Group) (n : Nat) (v : Mask) : (g.writeP n v).wait = g.wait := by unfold Group.writeP; split <;> rfl
@[simp] theorem Group.writeP_waitMark (g : Group) (n : Nat) (v : Mask) : (g.writeP n v).waitMark = g.waitMark := by unfold Group.writeP; split <;> rfl
@[simp] theorem Group.writeP_age (g : Group) (n : Nat) (v : Mask) : (g.writeP n v).age = g.age := by unfold Group.writeP; split <;> rfl
@[simp] theorem Group.writeP_hold (g : Group) (n : Nat) (v : Mask) : (g.writeP n v).hold = g.hold := by unfold Group.writeP; split <;> rfl
@[simp] theorem Group.writeP_frame (g : Group) (n : Nat) (v : Mask) : (g.writeP n v).frame = g.frame := by unfold Group.writeP; split <;> rfl
@[simp] theorem Group.writeP_placedAt (g : Group) (n : Nat) (v : Mask) : (g.writeP n v).placedAt = g.placedAt := by unfold Group.writeP; split <;> rfl

@[simp] theorem Group.writeV_grid (g : Group) (k n : Nat) (v : VecReg) : (g.writeV k n v).grid = g.grid := rfl
@[simp] theorem Group.writeV_gid (g : Group) (k n : Nat) (v : VecReg) : (g.writeV k n v).gid = g.gid := rfl
@[simp] theorem Group.writeV_team (g : Group) (k n : Nat) (v : VecReg) : (g.writeV k n v).team = g.team := rfl
@[simp] theorem Group.writeV_role (g : Group) (k n : Nat) (v : VecReg) : (g.writeV k n v).role = g.role := rfl
@[simp] theorem Group.writeV_child (g : Group) (k n : Nat) (v : VecReg) : (g.writeV k n v).child = g.child := rfl
@[simp] theorem Group.writeV_parent (g : Group) (k n : Nat) (v : VecReg) : (g.writeV k n v).parent = g.parent := rfl
@[simp] theorem Group.writeV_launchIdx (g : Group) (k n : Nat) (v : VecReg) : (g.writeV k n v).launchIdx = g.launchIdx := rfl
@[simp] theorem Group.writeV_core (g : Group) (k n : Nat) (v : VecReg) : (g.writeV k n v).core = g.core := rfl
@[simp] theorem Group.writeV_slot (g : Group) (k n : Nat) (v : VecReg) : (g.writeV k n v).slot = g.slot := rfl
@[simp] theorem Group.writeV_status (g : Group) (k n : Nat) (v : VecReg) : (g.writeV k n v).status = g.status := rfl
@[simp] theorem Group.writeV_priv (g : Group) (k n : Nat) (v : VecReg) : (g.writeV k n v).priv = g.priv := rfl
@[simp] theorem Group.writeV_pc (g : Group) (k n : Nat) (v : VecReg) : (g.writeV k n v).pc = g.pc := rfl
@[simp] theorem Group.writeV_s (g : Group) (k n : Nat) (v : VecReg) : (g.writeV k n v).s = g.s := rfl
@[simp] theorem Group.writeV_q (g : Group) (k n : Nat) (v : VecReg) : (g.writeV k n v).q = g.q := rfl
@[simp] theorem Group.writeV_p (g : Group) (k n : Nat) (v : VecReg) : (g.writeV k n v).p = g.p := rfl
@[simp] theorem Group.writeV_a (g : Group) (k n : Nat) (v : VecReg) : (g.writeV k n v).a = g.a := rfl
@[simp] theorem Group.writeV_flagSoft (g : Group) (k n : Nat) (v : VecReg) : (g.writeV k n v).flagSoft = g.flagSoft := rfl
@[simp] theorem Group.writeV_flagCount (g : Group) (k n : Nat) (v : VecReg) : (g.writeV k n v).flagCount = g.flagCount := rfl
@[simp] theorem Group.writeV_k (g : Group) (k n : Nat) (v : VecReg) : (g.writeV k n v).k = g.k := rfl
@[simp] theorem Group.writeV_rnd (g : Group) (k n : Nat) (v : VecReg) : (g.writeV k n v).rnd = g.rnd := rfl
@[simp] theorem Group.writeV_tanw (g : Group) (k n : Nat) (v : VecReg) : (g.writeV k n v).tanw = g.tanw := rfl
@[simp] theorem Group.writeV_dplane (g : Group) (k n : Nat) (v : VecReg) : (g.writeV k n v).dplane = g.dplane := rfl
@[simp] theorem Group.writeV_dstride (g : Group) (k n : Nat) (v : VecReg) : (g.writeV k n v).dstride = g.dstride := rfl
@[simp] theorem Group.writeV_srseed (g : Group) (k n : Nat) (v : VecReg) : (g.writeV k n v).srseed = g.srseed := rfl
@[simp] theorem Group.writeV_cring (g : Group) (k n : Nat) (v : VecReg) : (g.writeV k n v).cring = g.cring := rfl
@[simp] theorem Group.writeV_ulivec (g : Group) (k n : Nat) (v : VecReg) : (g.writeV k n v).ulivec = g.ulivec := rfl
@[simp] theorem Group.writeV_savearea (g : Group) (k n : Nat) (v : VecReg) : (g.writeV k n v).savearea = g.savearea := rfl
@[simp] theorem Group.writeV_prdeadline (g : Group) (k n : Nat) (v : VecReg) : (g.writeV k n v).prdeadline = g.prdeadline := rfl
@[simp] theorem Group.writeV_drawid (g : Group) (k n : Nat) (v : VecReg) : (g.writeV k n v).drawid = g.drawid := rfl
@[simp] theorem Group.writeV_trapcause (g : Group) (k n : Nat) (v : VecReg) : (g.writeV k n v).trapcause = g.trapcause := rfl
@[simp] theorem Group.writeV_trappc (g : Group) (k n : Nat) (v : VecReg) : (g.writeV k n v).trappc = g.trappc := rfl
@[simp] theorem Group.writeV_traplanes (g : Group) (k n : Nat) (v : VecReg) : (g.writeV k n v).traplanes = g.traplanes := rfl
@[simp] theorem Group.writeV_trapaddr (g : Group) (k n : Nat) (v : VecReg) : (g.writeV k n v).trapaddr = g.trapaddr := rfl
@[simp] theorem Group.writeV_keysel (g : Group) (k n : Nat) (v : VecReg) : (g.writeV k n v).keysel = g.keysel := rfl
@[simp] theorem Group.writeV_draws (g : Group) (k n : Nat) (v : VecReg) : (g.writeV k n v).draws = g.draws := rfl
@[simp] theorem Group.writeV_alloc (g : Group) (k n : Nat) (v : VecReg) : (g.writeV k n v).alloc = g.alloc := rfl
@[simp] theorem Group.writeV_laneQ (g : Group) (k n : Nat) (v : VecReg) : (g.writeV k n v).laneQ = g.laneQ := rfl
@[simp] theorem Group.writeV_handlerQ (g : Group) (k n : Nat) (v : VecReg) : (g.writeV k n v).handlerQ = g.handlerQ := rfl
@[simp] theorem Group.writeV_past (g : Group) (k n : Nat) (v : VecReg) : (g.writeV k n v).past = g.past := rfl
@[simp] theorem Group.writeV_cleared (g : Group) (k n : Nat) (v : VecReg) : (g.writeV k n v).cleared = g.cleared := rfl
@[simp] theorem Group.writeV_splits (g : Group) (k n : Nat) (v : VecReg) : (g.writeV k n v).splits = g.splits := rfl
@[simp] theorem Group.writeV_hsplit (g : Group) (k n : Nat) (v : VecReg) : (g.writeV k n v).hsplit = g.hsplit := rfl
@[simp] theorem Group.writeV_laneOps (g : Group) (k n : Nat) (v : VecReg) : (g.writeV k n v).laneOps = g.laneOps := rfl
@[simp] theorem Group.writeV_scalarOps (g : Group) (k n : Nat) (v : VecReg) : (g.writeV k n v).scalarOps = g.scalarOps := rfl
@[simp] theorem Group.writeV_nextOp (g : Group) (k n : Nat) (v : VecReg) : (g.writeV k n v).nextOp = g.nextOp := rfl
@[simp] theorem Group.writeV_handler (g : Group) (k n : Nat) (v : VecReg) : (g.writeV k n v).handler = g.handler := rfl
@[simp] theorem Group.writeV_hidden (g : Group) (k n : Nat) (v : VecReg) : (g.writeV k n v).hidden = g.hidden := rfl
@[simp] theorem Group.writeV_mismatch (g : Group) (k n : Nat) (v : VecReg) : (g.writeV k n v).mismatch = g.mismatch := rfl
@[simp] theorem Group.writeV_xfererr (g : Group) (k n : Nat) (v : VecReg) : (g.writeV k n v).xfererr = g.xfererr := rfl
@[simp] theorem Group.writeV_preempt (g : Group) (k n : Nat) (v : VecReg) : (g.writeV k n v).preempt = g.preempt := rfl
@[simp] theorem Group.writeV_intPending (g : Group) (k n : Nat) (v : VecReg) : (g.writeV k n v).intPending = g.intPending := rfl
@[simp] theorem Group.writeV_intState (g : Group) (k n : Nat) (v : VecReg) : (g.writeV k n v).intState = g.intState := rfl
@[simp] theorem Group.writeV_intReturn (g : Group) (k n : Nat) (v : VecReg) : (g.writeV k n v).intReturn = g.intReturn := rfl
@[simp] theorem Group.writeV_barrier (g : Group) (k n : Nat) (v : VecReg) : (g.writeV k n v).barrier = g.barrier := rfl
@[simp] theorem Group.writeV_arrived (g : Group) (k n : Nat) (v : VecReg) : (g.writeV k n v).arrived = g.arrived := rfl
@[simp] theorem Group.writeV_dropped (g : Group) (k n : Nat) (v : VecReg) : (g.writeV k n v).dropped = g.dropped := rfl
@[simp] theorem Group.writeV_noRing (g : Group) (k n : Nat) (v : VecReg) : (g.writeV k n v).noRing = g.noRing := rfl
@[simp] theorem Group.writeV_wait (g : Group) (k n : Nat) (v : VecReg) : (g.writeV k n v).wait = g.wait := rfl
@[simp] theorem Group.writeV_waitMark (g : Group) (k n : Nat) (v : VecReg) : (g.writeV k n v).waitMark = g.waitMark := rfl
@[simp] theorem Group.writeV_age (g : Group) (k n : Nat) (v : VecReg) : (g.writeV k n v).age = g.age := rfl
@[simp] theorem Group.writeV_hold (g : Group) (k n : Nat) (v : VecReg) : (g.writeV k n v).hold = g.hold := rfl
@[simp] theorem Group.writeV_frame (g : Group) (k n : Nat) (v : VecReg) : (g.writeV k n v).frame = g.frame := rfl
@[simp] theorem Group.writeV_placedAt (g : Group) (k n : Nat) (v : VecReg) : (g.writeV k n v).placedAt = g.placedAt := rfl
@[simp] theorem Group.writeV_serial (g : Group) (k n : Nat) (v : VecReg) : (g.writeV k n v).serial = g.serial := rfl
@[simp] theorem Group.writeV_due (g : Group) (k n : Nat) (v : VecReg) : (g.writeV k n v).due = g.due := rfl
@[simp] theorem Group.writeV_store (g : Group) (k n : Nat) (v : VecReg) : (g.writeV k n v).store = g.store := rfl
@[simp] theorem Group.writeV_waitOp (g : Group) (k n : Nat) (v : VecReg) : (g.writeV k n v).waitOp = g.waitOp := rfl
@[simp] theorem Group.writeV_cycleMin (g : Group) (k n : Nat) (v : VecReg) : (g.writeV k n v).cycleMin = g.cycleMin := rfl
@[simp] theorem Group.writeV_intCycle (g : Group) (k n : Nat) (v : VecReg) : (g.writeV k n v).intCycle = g.intCycle := rfl
@[simp] theorem Group.writeV_late (g : Group) (k n : Nat) (v : VecReg) : (g.writeV k n v).late = g.late := rfl
@[simp] theorem Group.writeV_resume (g : Group) (k n : Nat) (v : VecReg) : (g.writeV k n v).resume = g.resume := rfl
@[simp] theorem Group.writeV_recordNo (g : Group) (k n : Nat) (v : VecReg) : (g.writeV k n v).recordNo = g.recordNo := rfl

@[simp] theorem Group.writeQ_grid (g : Group) (k n : Nat) (v : ScaleReg) : (g.writeQ k n v).grid = g.grid := rfl
@[simp] theorem Group.writeQ_gid (g : Group) (k n : Nat) (v : ScaleReg) : (g.writeQ k n v).gid = g.gid := rfl
@[simp] theorem Group.writeQ_team (g : Group) (k n : Nat) (v : ScaleReg) : (g.writeQ k n v).team = g.team := rfl
@[simp] theorem Group.writeQ_role (g : Group) (k n : Nat) (v : ScaleReg) : (g.writeQ k n v).role = g.role := rfl
@[simp] theorem Group.writeQ_child (g : Group) (k n : Nat) (v : ScaleReg) : (g.writeQ k n v).child = g.child := rfl
@[simp] theorem Group.writeQ_parent (g : Group) (k n : Nat) (v : ScaleReg) : (g.writeQ k n v).parent = g.parent := rfl
@[simp] theorem Group.writeQ_launchIdx (g : Group) (k n : Nat) (v : ScaleReg) : (g.writeQ k n v).launchIdx = g.launchIdx := rfl
@[simp] theorem Group.writeQ_core (g : Group) (k n : Nat) (v : ScaleReg) : (g.writeQ k n v).core = g.core := rfl
@[simp] theorem Group.writeQ_slot (g : Group) (k n : Nat) (v : ScaleReg) : (g.writeQ k n v).slot = g.slot := rfl
@[simp] theorem Group.writeQ_status (g : Group) (k n : Nat) (v : ScaleReg) : (g.writeQ k n v).status = g.status := rfl
@[simp] theorem Group.writeQ_priv (g : Group) (k n : Nat) (v : ScaleReg) : (g.writeQ k n v).priv = g.priv := rfl
@[simp] theorem Group.writeQ_pc (g : Group) (k n : Nat) (v : ScaleReg) : (g.writeQ k n v).pc = g.pc := rfl
@[simp] theorem Group.writeQ_s (g : Group) (k n : Nat) (v : ScaleReg) : (g.writeQ k n v).s = g.s := rfl
@[simp] theorem Group.writeQ_v (g : Group) (k n : Nat) (v : ScaleReg) : (g.writeQ k n v).v = g.v := rfl
@[simp] theorem Group.writeQ_p (g : Group) (k n : Nat) (v : ScaleReg) : (g.writeQ k n v).p = g.p := rfl
@[simp] theorem Group.writeQ_a (g : Group) (k n : Nat) (v : ScaleReg) : (g.writeQ k n v).a = g.a := rfl
@[simp] theorem Group.writeQ_flagSoft (g : Group) (k n : Nat) (v : ScaleReg) : (g.writeQ k n v).flagSoft = g.flagSoft := rfl
@[simp] theorem Group.writeQ_flagCount (g : Group) (k n : Nat) (v : ScaleReg) : (g.writeQ k n v).flagCount = g.flagCount := rfl
@[simp] theorem Group.writeQ_k (g : Group) (k n : Nat) (v : ScaleReg) : (g.writeQ k n v).k = g.k := rfl
@[simp] theorem Group.writeQ_rnd (g : Group) (k n : Nat) (v : ScaleReg) : (g.writeQ k n v).rnd = g.rnd := rfl
@[simp] theorem Group.writeQ_tanw (g : Group) (k n : Nat) (v : ScaleReg) : (g.writeQ k n v).tanw = g.tanw := rfl
@[simp] theorem Group.writeQ_dplane (g : Group) (k n : Nat) (v : ScaleReg) : (g.writeQ k n v).dplane = g.dplane := rfl
@[simp] theorem Group.writeQ_dstride (g : Group) (k n : Nat) (v : ScaleReg) : (g.writeQ k n v).dstride = g.dstride := rfl
@[simp] theorem Group.writeQ_srseed (g : Group) (k n : Nat) (v : ScaleReg) : (g.writeQ k n v).srseed = g.srseed := rfl
@[simp] theorem Group.writeQ_cring (g : Group) (k n : Nat) (v : ScaleReg) : (g.writeQ k n v).cring = g.cring := rfl
@[simp] theorem Group.writeQ_ulivec (g : Group) (k n : Nat) (v : ScaleReg) : (g.writeQ k n v).ulivec = g.ulivec := rfl
@[simp] theorem Group.writeQ_savearea (g : Group) (k n : Nat) (v : ScaleReg) : (g.writeQ k n v).savearea = g.savearea := rfl
@[simp] theorem Group.writeQ_prdeadline (g : Group) (k n : Nat) (v : ScaleReg) : (g.writeQ k n v).prdeadline = g.prdeadline := rfl
@[simp] theorem Group.writeQ_drawid (g : Group) (k n : Nat) (v : ScaleReg) : (g.writeQ k n v).drawid = g.drawid := rfl
@[simp] theorem Group.writeQ_trapcause (g : Group) (k n : Nat) (v : ScaleReg) : (g.writeQ k n v).trapcause = g.trapcause := rfl
@[simp] theorem Group.writeQ_trappc (g : Group) (k n : Nat) (v : ScaleReg) : (g.writeQ k n v).trappc = g.trappc := rfl
@[simp] theorem Group.writeQ_traplanes (g : Group) (k n : Nat) (v : ScaleReg) : (g.writeQ k n v).traplanes = g.traplanes := rfl
@[simp] theorem Group.writeQ_trapaddr (g : Group) (k n : Nat) (v : ScaleReg) : (g.writeQ k n v).trapaddr = g.trapaddr := rfl
@[simp] theorem Group.writeQ_keysel (g : Group) (k n : Nat) (v : ScaleReg) : (g.writeQ k n v).keysel = g.keysel := rfl
@[simp] theorem Group.writeQ_draws (g : Group) (k n : Nat) (v : ScaleReg) : (g.writeQ k n v).draws = g.draws := rfl
@[simp] theorem Group.writeQ_alloc (g : Group) (k n : Nat) (v : ScaleReg) : (g.writeQ k n v).alloc = g.alloc := rfl
@[simp] theorem Group.writeQ_laneQ (g : Group) (k n : Nat) (v : ScaleReg) : (g.writeQ k n v).laneQ = g.laneQ := rfl
@[simp] theorem Group.writeQ_handlerQ (g : Group) (k n : Nat) (v : ScaleReg) : (g.writeQ k n v).handlerQ = g.handlerQ := rfl
@[simp] theorem Group.writeQ_past (g : Group) (k n : Nat) (v : ScaleReg) : (g.writeQ k n v).past = g.past := rfl
@[simp] theorem Group.writeQ_cleared (g : Group) (k n : Nat) (v : ScaleReg) : (g.writeQ k n v).cleared = g.cleared := rfl
@[simp] theorem Group.writeQ_splits (g : Group) (k n : Nat) (v : ScaleReg) : (g.writeQ k n v).splits = g.splits := rfl
@[simp] theorem Group.writeQ_hsplit (g : Group) (k n : Nat) (v : ScaleReg) : (g.writeQ k n v).hsplit = g.hsplit := rfl
@[simp] theorem Group.writeQ_laneOps (g : Group) (k n : Nat) (v : ScaleReg) : (g.writeQ k n v).laneOps = g.laneOps := rfl
@[simp] theorem Group.writeQ_scalarOps (g : Group) (k n : Nat) (v : ScaleReg) : (g.writeQ k n v).scalarOps = g.scalarOps := rfl
@[simp] theorem Group.writeQ_nextOp (g : Group) (k n : Nat) (v : ScaleReg) : (g.writeQ k n v).nextOp = g.nextOp := rfl
@[simp] theorem Group.writeQ_handler (g : Group) (k n : Nat) (v : ScaleReg) : (g.writeQ k n v).handler = g.handler := rfl
@[simp] theorem Group.writeQ_hidden (g : Group) (k n : Nat) (v : ScaleReg) : (g.writeQ k n v).hidden = g.hidden := rfl
@[simp] theorem Group.writeQ_mismatch (g : Group) (k n : Nat) (v : ScaleReg) : (g.writeQ k n v).mismatch = g.mismatch := rfl
@[simp] theorem Group.writeQ_xfererr (g : Group) (k n : Nat) (v : ScaleReg) : (g.writeQ k n v).xfererr = g.xfererr := rfl
@[simp] theorem Group.writeQ_preempt (g : Group) (k n : Nat) (v : ScaleReg) : (g.writeQ k n v).preempt = g.preempt := rfl
@[simp] theorem Group.writeQ_intPending (g : Group) (k n : Nat) (v : ScaleReg) : (g.writeQ k n v).intPending = g.intPending := rfl
@[simp] theorem Group.writeQ_intState (g : Group) (k n : Nat) (v : ScaleReg) : (g.writeQ k n v).intState = g.intState := rfl
@[simp] theorem Group.writeQ_intReturn (g : Group) (k n : Nat) (v : ScaleReg) : (g.writeQ k n v).intReturn = g.intReturn := rfl
@[simp] theorem Group.writeQ_barrier (g : Group) (k n : Nat) (v : ScaleReg) : (g.writeQ k n v).barrier = g.barrier := rfl
@[simp] theorem Group.writeQ_arrived (g : Group) (k n : Nat) (v : ScaleReg) : (g.writeQ k n v).arrived = g.arrived := rfl
@[simp] theorem Group.writeQ_dropped (g : Group) (k n : Nat) (v : ScaleReg) : (g.writeQ k n v).dropped = g.dropped := rfl
@[simp] theorem Group.writeQ_noRing (g : Group) (k n : Nat) (v : ScaleReg) : (g.writeQ k n v).noRing = g.noRing := rfl
@[simp] theorem Group.writeQ_wait (g : Group) (k n : Nat) (v : ScaleReg) : (g.writeQ k n v).wait = g.wait := rfl
@[simp] theorem Group.writeQ_waitMark (g : Group) (k n : Nat) (v : ScaleReg) : (g.writeQ k n v).waitMark = g.waitMark := rfl
@[simp] theorem Group.writeQ_age (g : Group) (k n : Nat) (v : ScaleReg) : (g.writeQ k n v).age = g.age := rfl
@[simp] theorem Group.writeQ_hold (g : Group) (k n : Nat) (v : ScaleReg) : (g.writeQ k n v).hold = g.hold := rfl
@[simp] theorem Group.writeQ_frame (g : Group) (k n : Nat) (v : ScaleReg) : (g.writeQ k n v).frame = g.frame := rfl
@[simp] theorem Group.writeQ_placedAt (g : Group) (k n : Nat) (v : ScaleReg) : (g.writeQ k n v).placedAt = g.placedAt := rfl
@[simp] theorem Group.writeQ_serial (g : Group) (k n : Nat) (v : ScaleReg) : (g.writeQ k n v).serial = g.serial := rfl
@[simp] theorem Group.writeQ_due (g : Group) (k n : Nat) (v : ScaleReg) : (g.writeQ k n v).due = g.due := rfl
@[simp] theorem Group.writeQ_store (g : Group) (k n : Nat) (v : ScaleReg) : (g.writeQ k n v).store = g.store := rfl
@[simp] theorem Group.writeQ_waitOp (g : Group) (k n : Nat) (v : ScaleReg) : (g.writeQ k n v).waitOp = g.waitOp := rfl
@[simp] theorem Group.writeQ_cycleMin (g : Group) (k n : Nat) (v : ScaleReg) : (g.writeQ k n v).cycleMin = g.cycleMin := rfl
@[simp] theorem Group.writeQ_intCycle (g : Group) (k n : Nat) (v : ScaleReg) : (g.writeQ k n v).intCycle = g.intCycle := rfl
@[simp] theorem Group.writeQ_late (g : Group) (k n : Nat) (v : ScaleReg) : (g.writeQ k n v).late = g.late := rfl
@[simp] theorem Group.writeQ_resume (g : Group) (k n : Nat) (v : ScaleReg) : (g.writeQ k n v).resume = g.resume := rfl
@[simp] theorem Group.writeQ_recordNo (g : Group) (k n : Nat) (v : ScaleReg) : (g.writeQ k n v).recordNo = g.recordNo := rfl

@[simp] theorem Group.writeA_grid (g : Group) (n : Nat) (v : Aperture) : (g.writeA n v).grid = g.grid := rfl
@[simp] theorem Group.writeA_gid (g : Group) (n : Nat) (v : Aperture) : (g.writeA n v).gid = g.gid := rfl
@[simp] theorem Group.writeA_team (g : Group) (n : Nat) (v : Aperture) : (g.writeA n v).team = g.team := rfl
@[simp] theorem Group.writeA_role (g : Group) (n : Nat) (v : Aperture) : (g.writeA n v).role = g.role := rfl
@[simp] theorem Group.writeA_child (g : Group) (n : Nat) (v : Aperture) : (g.writeA n v).child = g.child := rfl
@[simp] theorem Group.writeA_parent (g : Group) (n : Nat) (v : Aperture) : (g.writeA n v).parent = g.parent := rfl
@[simp] theorem Group.writeA_launchIdx (g : Group) (n : Nat) (v : Aperture) : (g.writeA n v).launchIdx = g.launchIdx := rfl
@[simp] theorem Group.writeA_core (g : Group) (n : Nat) (v : Aperture) : (g.writeA n v).core = g.core := rfl
@[simp] theorem Group.writeA_slot (g : Group) (n : Nat) (v : Aperture) : (g.writeA n v).slot = g.slot := rfl
@[simp] theorem Group.writeA_status (g : Group) (n : Nat) (v : Aperture) : (g.writeA n v).status = g.status := rfl
@[simp] theorem Group.writeA_priv (g : Group) (n : Nat) (v : Aperture) : (g.writeA n v).priv = g.priv := rfl
@[simp] theorem Group.writeA_pc (g : Group) (n : Nat) (v : Aperture) : (g.writeA n v).pc = g.pc := rfl
@[simp] theorem Group.writeA_s (g : Group) (n : Nat) (v : Aperture) : (g.writeA n v).s = g.s := rfl
@[simp] theorem Group.writeA_v (g : Group) (n : Nat) (v : Aperture) : (g.writeA n v).v = g.v := rfl
@[simp] theorem Group.writeA_q (g : Group) (n : Nat) (v : Aperture) : (g.writeA n v).q = g.q := rfl
@[simp] theorem Group.writeA_p (g : Group) (n : Nat) (v : Aperture) : (g.writeA n v).p = g.p := rfl
@[simp] theorem Group.writeA_flagSoft (g : Group) (n : Nat) (v : Aperture) : (g.writeA n v).flagSoft = g.flagSoft := rfl
@[simp] theorem Group.writeA_flagCount (g : Group) (n : Nat) (v : Aperture) : (g.writeA n v).flagCount = g.flagCount := rfl
@[simp] theorem Group.writeA_k (g : Group) (n : Nat) (v : Aperture) : (g.writeA n v).k = g.k := rfl
@[simp] theorem Group.writeA_rnd (g : Group) (n : Nat) (v : Aperture) : (g.writeA n v).rnd = g.rnd := rfl
@[simp] theorem Group.writeA_tanw (g : Group) (n : Nat) (v : Aperture) : (g.writeA n v).tanw = g.tanw := rfl
@[simp] theorem Group.writeA_dplane (g : Group) (n : Nat) (v : Aperture) : (g.writeA n v).dplane = g.dplane := rfl
@[simp] theorem Group.writeA_dstride (g : Group) (n : Nat) (v : Aperture) : (g.writeA n v).dstride = g.dstride := rfl
@[simp] theorem Group.writeA_srseed (g : Group) (n : Nat) (v : Aperture) : (g.writeA n v).srseed = g.srseed := rfl
@[simp] theorem Group.writeA_cring (g : Group) (n : Nat) (v : Aperture) : (g.writeA n v).cring = g.cring := rfl
@[simp] theorem Group.writeA_ulivec (g : Group) (n : Nat) (v : Aperture) : (g.writeA n v).ulivec = g.ulivec := rfl
@[simp] theorem Group.writeA_savearea (g : Group) (n : Nat) (v : Aperture) : (g.writeA n v).savearea = g.savearea := rfl
@[simp] theorem Group.writeA_prdeadline (g : Group) (n : Nat) (v : Aperture) : (g.writeA n v).prdeadline = g.prdeadline := rfl
@[simp] theorem Group.writeA_drawid (g : Group) (n : Nat) (v : Aperture) : (g.writeA n v).drawid = g.drawid := rfl
@[simp] theorem Group.writeA_trapcause (g : Group) (n : Nat) (v : Aperture) : (g.writeA n v).trapcause = g.trapcause := rfl
@[simp] theorem Group.writeA_trappc (g : Group) (n : Nat) (v : Aperture) : (g.writeA n v).trappc = g.trappc := rfl
@[simp] theorem Group.writeA_traplanes (g : Group) (n : Nat) (v : Aperture) : (g.writeA n v).traplanes = g.traplanes := rfl
@[simp] theorem Group.writeA_trapaddr (g : Group) (n : Nat) (v : Aperture) : (g.writeA n v).trapaddr = g.trapaddr := rfl
@[simp] theorem Group.writeA_keysel (g : Group) (n : Nat) (v : Aperture) : (g.writeA n v).keysel = g.keysel := rfl
@[simp] theorem Group.writeA_draws (g : Group) (n : Nat) (v : Aperture) : (g.writeA n v).draws = g.draws := rfl
@[simp] theorem Group.writeA_alloc (g : Group) (n : Nat) (v : Aperture) : (g.writeA n v).alloc = g.alloc := rfl
@[simp] theorem Group.writeA_laneQ (g : Group) (n : Nat) (v : Aperture) : (g.writeA n v).laneQ = g.laneQ := rfl
@[simp] theorem Group.writeA_handlerQ (g : Group) (n : Nat) (v : Aperture) : (g.writeA n v).handlerQ = g.handlerQ := rfl
@[simp] theorem Group.writeA_past (g : Group) (n : Nat) (v : Aperture) : (g.writeA n v).past = g.past := rfl
@[simp] theorem Group.writeA_cleared (g : Group) (n : Nat) (v : Aperture) : (g.writeA n v).cleared = g.cleared := rfl
@[simp] theorem Group.writeA_splits (g : Group) (n : Nat) (v : Aperture) : (g.writeA n v).splits = g.splits := rfl
@[simp] theorem Group.writeA_hsplit (g : Group) (n : Nat) (v : Aperture) : (g.writeA n v).hsplit = g.hsplit := rfl
@[simp] theorem Group.writeA_laneOps (g : Group) (n : Nat) (v : Aperture) : (g.writeA n v).laneOps = g.laneOps := rfl
@[simp] theorem Group.writeA_scalarOps (g : Group) (n : Nat) (v : Aperture) : (g.writeA n v).scalarOps = g.scalarOps := rfl
@[simp] theorem Group.writeA_nextOp (g : Group) (n : Nat) (v : Aperture) : (g.writeA n v).nextOp = g.nextOp := rfl
@[simp] theorem Group.writeA_handler (g : Group) (n : Nat) (v : Aperture) : (g.writeA n v).handler = g.handler := rfl
@[simp] theorem Group.writeA_hidden (g : Group) (n : Nat) (v : Aperture) : (g.writeA n v).hidden = g.hidden := rfl
@[simp] theorem Group.writeA_mismatch (g : Group) (n : Nat) (v : Aperture) : (g.writeA n v).mismatch = g.mismatch := rfl
@[simp] theorem Group.writeA_xfererr (g : Group) (n : Nat) (v : Aperture) : (g.writeA n v).xfererr = g.xfererr := rfl
@[simp] theorem Group.writeA_preempt (g : Group) (n : Nat) (v : Aperture) : (g.writeA n v).preempt = g.preempt := rfl
@[simp] theorem Group.writeA_intPending (g : Group) (n : Nat) (v : Aperture) : (g.writeA n v).intPending = g.intPending := rfl
@[simp] theorem Group.writeA_intState (g : Group) (n : Nat) (v : Aperture) : (g.writeA n v).intState = g.intState := rfl
@[simp] theorem Group.writeA_intReturn (g : Group) (n : Nat) (v : Aperture) : (g.writeA n v).intReturn = g.intReturn := rfl
@[simp] theorem Group.writeA_barrier (g : Group) (n : Nat) (v : Aperture) : (g.writeA n v).barrier = g.barrier := rfl
@[simp] theorem Group.writeA_arrived (g : Group) (n : Nat) (v : Aperture) : (g.writeA n v).arrived = g.arrived := rfl
@[simp] theorem Group.writeA_dropped (g : Group) (n : Nat) (v : Aperture) : (g.writeA n v).dropped = g.dropped := rfl
@[simp] theorem Group.writeA_noRing (g : Group) (n : Nat) (v : Aperture) : (g.writeA n v).noRing = g.noRing := rfl
@[simp] theorem Group.writeA_wait (g : Group) (n : Nat) (v : Aperture) : (g.writeA n v).wait = g.wait := rfl
@[simp] theorem Group.writeA_waitMark (g : Group) (n : Nat) (v : Aperture) : (g.writeA n v).waitMark = g.waitMark := rfl
@[simp] theorem Group.writeA_age (g : Group) (n : Nat) (v : Aperture) : (g.writeA n v).age = g.age := rfl
@[simp] theorem Group.writeA_hold (g : Group) (n : Nat) (v : Aperture) : (g.writeA n v).hold = g.hold := rfl
@[simp] theorem Group.writeA_frame (g : Group) (n : Nat) (v : Aperture) : (g.writeA n v).frame = g.frame := rfl
@[simp] theorem Group.writeA_placedAt (g : Group) (n : Nat) (v : Aperture) : (g.writeA n v).placedAt = g.placedAt := rfl
@[simp] theorem Group.writeA_serial (g : Group) (n : Nat) (v : Aperture) : (g.writeA n v).serial = g.serial := rfl
@[simp] theorem Group.writeA_due (g : Group) (n : Nat) (v : Aperture) : (g.writeA n v).due = g.due := rfl
@[simp] theorem Group.writeA_store (g : Group) (n : Nat) (v : Aperture) : (g.writeA n v).store = g.store := rfl
@[simp] theorem Group.writeA_waitOp (g : Group) (n : Nat) (v : Aperture) : (g.writeA n v).waitOp = g.waitOp := rfl
@[simp] theorem Group.writeA_cycleMin (g : Group) (n : Nat) (v : Aperture) : (g.writeA n v).cycleMin = g.cycleMin := rfl
@[simp] theorem Group.writeA_intCycle (g : Group) (n : Nat) (v : Aperture) : (g.writeA n v).intCycle = g.intCycle := rfl
@[simp] theorem Group.writeA_late (g : Group) (n : Nat) (v : Aperture) : (g.writeA n v).late = g.late := rfl
@[simp] theorem Group.writeA_resume (g : Group) (n : Nat) (v : Aperture) : (g.writeA n v).resume = g.resume := rfl
@[simp] theorem Group.writeA_recordNo (g : Group) (n : Nat) (v : Aperture) : (g.writeA n v).recordNo = g.recordNo := rfl

@[simp] theorem Group.writeK_grid (g : Group) (n : Nat) (v : Word) : (g.writeK n v).grid = g.grid := rfl
@[simp] theorem Group.writeK_gid (g : Group) (n : Nat) (v : Word) : (g.writeK n v).gid = g.gid := rfl
@[simp] theorem Group.writeK_team (g : Group) (n : Nat) (v : Word) : (g.writeK n v).team = g.team := rfl
@[simp] theorem Group.writeK_role (g : Group) (n : Nat) (v : Word) : (g.writeK n v).role = g.role := rfl
@[simp] theorem Group.writeK_child (g : Group) (n : Nat) (v : Word) : (g.writeK n v).child = g.child := rfl
@[simp] theorem Group.writeK_parent (g : Group) (n : Nat) (v : Word) : (g.writeK n v).parent = g.parent := rfl
@[simp] theorem Group.writeK_launchIdx (g : Group) (n : Nat) (v : Word) : (g.writeK n v).launchIdx = g.launchIdx := rfl
@[simp] theorem Group.writeK_core (g : Group) (n : Nat) (v : Word) : (g.writeK n v).core = g.core := rfl
@[simp] theorem Group.writeK_slot (g : Group) (n : Nat) (v : Word) : (g.writeK n v).slot = g.slot := rfl
@[simp] theorem Group.writeK_status (g : Group) (n : Nat) (v : Word) : (g.writeK n v).status = g.status := rfl
@[simp] theorem Group.writeK_priv (g : Group) (n : Nat) (v : Word) : (g.writeK n v).priv = g.priv := rfl
@[simp] theorem Group.writeK_pc (g : Group) (n : Nat) (v : Word) : (g.writeK n v).pc = g.pc := rfl
@[simp] theorem Group.writeK_s (g : Group) (n : Nat) (v : Word) : (g.writeK n v).s = g.s := rfl
@[simp] theorem Group.writeK_v (g : Group) (n : Nat) (v : Word) : (g.writeK n v).v = g.v := rfl
@[simp] theorem Group.writeK_q (g : Group) (n : Nat) (v : Word) : (g.writeK n v).q = g.q := rfl
@[simp] theorem Group.writeK_p (g : Group) (n : Nat) (v : Word) : (g.writeK n v).p = g.p := rfl
@[simp] theorem Group.writeK_a (g : Group) (n : Nat) (v : Word) : (g.writeK n v).a = g.a := rfl
@[simp] theorem Group.writeK_flagSoft (g : Group) (n : Nat) (v : Word) : (g.writeK n v).flagSoft = g.flagSoft := rfl
@[simp] theorem Group.writeK_flagCount (g : Group) (n : Nat) (v : Word) : (g.writeK n v).flagCount = g.flagCount := rfl
@[simp] theorem Group.writeK_rnd (g : Group) (n : Nat) (v : Word) : (g.writeK n v).rnd = g.rnd := rfl
@[simp] theorem Group.writeK_tanw (g : Group) (n : Nat) (v : Word) : (g.writeK n v).tanw = g.tanw := rfl
@[simp] theorem Group.writeK_dplane (g : Group) (n : Nat) (v : Word) : (g.writeK n v).dplane = g.dplane := rfl
@[simp] theorem Group.writeK_dstride (g : Group) (n : Nat) (v : Word) : (g.writeK n v).dstride = g.dstride := rfl
@[simp] theorem Group.writeK_srseed (g : Group) (n : Nat) (v : Word) : (g.writeK n v).srseed = g.srseed := rfl
@[simp] theorem Group.writeK_cring (g : Group) (n : Nat) (v : Word) : (g.writeK n v).cring = g.cring := rfl
@[simp] theorem Group.writeK_ulivec (g : Group) (n : Nat) (v : Word) : (g.writeK n v).ulivec = g.ulivec := rfl
@[simp] theorem Group.writeK_savearea (g : Group) (n : Nat) (v : Word) : (g.writeK n v).savearea = g.savearea := rfl
@[simp] theorem Group.writeK_prdeadline (g : Group) (n : Nat) (v : Word) : (g.writeK n v).prdeadline = g.prdeadline := rfl
@[simp] theorem Group.writeK_drawid (g : Group) (n : Nat) (v : Word) : (g.writeK n v).drawid = g.drawid := rfl
@[simp] theorem Group.writeK_trapcause (g : Group) (n : Nat) (v : Word) : (g.writeK n v).trapcause = g.trapcause := rfl
@[simp] theorem Group.writeK_trappc (g : Group) (n : Nat) (v : Word) : (g.writeK n v).trappc = g.trappc := rfl
@[simp] theorem Group.writeK_traplanes (g : Group) (n : Nat) (v : Word) : (g.writeK n v).traplanes = g.traplanes := rfl
@[simp] theorem Group.writeK_trapaddr (g : Group) (n : Nat) (v : Word) : (g.writeK n v).trapaddr = g.trapaddr := rfl
@[simp] theorem Group.writeK_keysel (g : Group) (n : Nat) (v : Word) : (g.writeK n v).keysel = g.keysel := rfl
@[simp] theorem Group.writeK_draws (g : Group) (n : Nat) (v : Word) : (g.writeK n v).draws = g.draws := rfl
@[simp] theorem Group.writeK_alloc (g : Group) (n : Nat) (v : Word) : (g.writeK n v).alloc = g.alloc := rfl
@[simp] theorem Group.writeK_laneQ (g : Group) (n : Nat) (v : Word) : (g.writeK n v).laneQ = g.laneQ := rfl
@[simp] theorem Group.writeK_handlerQ (g : Group) (n : Nat) (v : Word) : (g.writeK n v).handlerQ = g.handlerQ := rfl
@[simp] theorem Group.writeK_past (g : Group) (n : Nat) (v : Word) : (g.writeK n v).past = g.past := rfl
@[simp] theorem Group.writeK_cleared (g : Group) (n : Nat) (v : Word) : (g.writeK n v).cleared = g.cleared := rfl
@[simp] theorem Group.writeK_splits (g : Group) (n : Nat) (v : Word) : (g.writeK n v).splits = g.splits := rfl
@[simp] theorem Group.writeK_hsplit (g : Group) (n : Nat) (v : Word) : (g.writeK n v).hsplit = g.hsplit := rfl
@[simp] theorem Group.writeK_laneOps (g : Group) (n : Nat) (v : Word) : (g.writeK n v).laneOps = g.laneOps := rfl
@[simp] theorem Group.writeK_scalarOps (g : Group) (n : Nat) (v : Word) : (g.writeK n v).scalarOps = g.scalarOps := rfl
@[simp] theorem Group.writeK_nextOp (g : Group) (n : Nat) (v : Word) : (g.writeK n v).nextOp = g.nextOp := rfl
@[simp] theorem Group.writeK_handler (g : Group) (n : Nat) (v : Word) : (g.writeK n v).handler = g.handler := rfl
@[simp] theorem Group.writeK_hidden (g : Group) (n : Nat) (v : Word) : (g.writeK n v).hidden = g.hidden := rfl
@[simp] theorem Group.writeK_mismatch (g : Group) (n : Nat) (v : Word) : (g.writeK n v).mismatch = g.mismatch := rfl
@[simp] theorem Group.writeK_xfererr (g : Group) (n : Nat) (v : Word) : (g.writeK n v).xfererr = g.xfererr := rfl
@[simp] theorem Group.writeK_preempt (g : Group) (n : Nat) (v : Word) : (g.writeK n v).preempt = g.preempt := rfl
@[simp] theorem Group.writeK_intPending (g : Group) (n : Nat) (v : Word) : (g.writeK n v).intPending = g.intPending := rfl
@[simp] theorem Group.writeK_intState (g : Group) (n : Nat) (v : Word) : (g.writeK n v).intState = g.intState := rfl
@[simp] theorem Group.writeK_intReturn (g : Group) (n : Nat) (v : Word) : (g.writeK n v).intReturn = g.intReturn := rfl
@[simp] theorem Group.writeK_barrier (g : Group) (n : Nat) (v : Word) : (g.writeK n v).barrier = g.barrier := rfl
@[simp] theorem Group.writeK_arrived (g : Group) (n : Nat) (v : Word) : (g.writeK n v).arrived = g.arrived := rfl
@[simp] theorem Group.writeK_dropped (g : Group) (n : Nat) (v : Word) : (g.writeK n v).dropped = g.dropped := rfl
@[simp] theorem Group.writeK_noRing (g : Group) (n : Nat) (v : Word) : (g.writeK n v).noRing = g.noRing := rfl
@[simp] theorem Group.writeK_wait (g : Group) (n : Nat) (v : Word) : (g.writeK n v).wait = g.wait := rfl
@[simp] theorem Group.writeK_waitMark (g : Group) (n : Nat) (v : Word) : (g.writeK n v).waitMark = g.waitMark := rfl
@[simp] theorem Group.writeK_age (g : Group) (n : Nat) (v : Word) : (g.writeK n v).age = g.age := rfl
@[simp] theorem Group.writeK_hold (g : Group) (n : Nat) (v : Word) : (g.writeK n v).hold = g.hold := rfl
@[simp] theorem Group.writeK_frame (g : Group) (n : Nat) (v : Word) : (g.writeK n v).frame = g.frame := rfl
@[simp] theorem Group.writeK_placedAt (g : Group) (n : Nat) (v : Word) : (g.writeK n v).placedAt = g.placedAt := rfl
@[simp] theorem Group.writeK_serial (g : Group) (n : Nat) (v : Word) : (g.writeK n v).serial = g.serial := rfl
@[simp] theorem Group.writeK_due (g : Group) (n : Nat) (v : Word) : (g.writeK n v).due = g.due := rfl
@[simp] theorem Group.writeK_store (g : Group) (n : Nat) (v : Word) : (g.writeK n v).store = g.store := rfl
@[simp] theorem Group.writeK_waitOp (g : Group) (n : Nat) (v : Word) : (g.writeK n v).waitOp = g.waitOp := rfl
@[simp] theorem Group.writeK_cycleMin (g : Group) (n : Nat) (v : Word) : (g.writeK n v).cycleMin = g.cycleMin := rfl
@[simp] theorem Group.writeK_intCycle (g : Group) (n : Nat) (v : Word) : (g.writeK n v).intCycle = g.intCycle := rfl
@[simp] theorem Group.writeK_late (g : Group) (n : Nat) (v : Word) : (g.writeK n v).late = g.late := rfl
@[simp] theorem Group.writeK_resume (g : Group) (n : Nat) (v : Word) : (g.writeK n v).resume = g.resume := rfl
@[simp] theorem Group.writeK_recordNo (g : Group) (n : Nat) (v : Word) : (g.writeK n v).recordNo = g.recordNo := rfl

@[simp] theorem Group.advance_grid (g : Group) (n : Nat) : (g.advance n).grid = g.grid := rfl
@[simp] theorem Group.advance_gid (g : Group) (n : Nat) : (g.advance n).gid = g.gid := rfl
@[simp] theorem Group.advance_team (g : Group) (n : Nat) : (g.advance n).team = g.team := rfl
@[simp] theorem Group.advance_role (g : Group) (n : Nat) : (g.advance n).role = g.role := rfl
@[simp] theorem Group.advance_child (g : Group) (n : Nat) : (g.advance n).child = g.child := rfl
@[simp] theorem Group.advance_parent (g : Group) (n : Nat) : (g.advance n).parent = g.parent := rfl
@[simp] theorem Group.advance_launchIdx (g : Group) (n : Nat) : (g.advance n).launchIdx = g.launchIdx := rfl
@[simp] theorem Group.advance_core (g : Group) (n : Nat) : (g.advance n).core = g.core := rfl
@[simp] theorem Group.advance_slot (g : Group) (n : Nat) : (g.advance n).slot = g.slot := rfl
@[simp] theorem Group.advance_status (g : Group) (n : Nat) : (g.advance n).status = g.status := rfl
@[simp] theorem Group.advance_priv (g : Group) (n : Nat) : (g.advance n).priv = g.priv := rfl
@[simp] theorem Group.advance_s (g : Group) (n : Nat) : (g.advance n).s = g.s := rfl
@[simp] theorem Group.advance_v (g : Group) (n : Nat) : (g.advance n).v = g.v := rfl
@[simp] theorem Group.advance_q (g : Group) (n : Nat) : (g.advance n).q = g.q := rfl
@[simp] theorem Group.advance_p (g : Group) (n : Nat) : (g.advance n).p = g.p := rfl
@[simp] theorem Group.advance_a (g : Group) (n : Nat) : (g.advance n).a = g.a := rfl
@[simp] theorem Group.advance_flagSoft (g : Group) (n : Nat) : (g.advance n).flagSoft = g.flagSoft := rfl
@[simp] theorem Group.advance_flagCount (g : Group) (n : Nat) : (g.advance n).flagCount = g.flagCount := rfl
@[simp] theorem Group.advance_k (g : Group) (n : Nat) : (g.advance n).k = g.k := rfl
@[simp] theorem Group.advance_rnd (g : Group) (n : Nat) : (g.advance n).rnd = g.rnd := rfl
@[simp] theorem Group.advance_tanw (g : Group) (n : Nat) : (g.advance n).tanw = g.tanw := rfl
@[simp] theorem Group.advance_dplane (g : Group) (n : Nat) : (g.advance n).dplane = g.dplane := rfl
@[simp] theorem Group.advance_dstride (g : Group) (n : Nat) : (g.advance n).dstride = g.dstride := rfl
@[simp] theorem Group.advance_srseed (g : Group) (n : Nat) : (g.advance n).srseed = g.srseed := rfl
@[simp] theorem Group.advance_cring (g : Group) (n : Nat) : (g.advance n).cring = g.cring := rfl
@[simp] theorem Group.advance_ulivec (g : Group) (n : Nat) : (g.advance n).ulivec = g.ulivec := rfl
@[simp] theorem Group.advance_savearea (g : Group) (n : Nat) : (g.advance n).savearea = g.savearea := rfl
@[simp] theorem Group.advance_prdeadline (g : Group) (n : Nat) : (g.advance n).prdeadline = g.prdeadline := rfl
@[simp] theorem Group.advance_drawid (g : Group) (n : Nat) : (g.advance n).drawid = g.drawid := rfl
@[simp] theorem Group.advance_trapcause (g : Group) (n : Nat) : (g.advance n).trapcause = g.trapcause := rfl
@[simp] theorem Group.advance_trappc (g : Group) (n : Nat) : (g.advance n).trappc = g.trappc := rfl
@[simp] theorem Group.advance_traplanes (g : Group) (n : Nat) : (g.advance n).traplanes = g.traplanes := rfl
@[simp] theorem Group.advance_trapaddr (g : Group) (n : Nat) : (g.advance n).trapaddr = g.trapaddr := rfl
@[simp] theorem Group.advance_keysel (g : Group) (n : Nat) : (g.advance n).keysel = g.keysel := rfl
@[simp] theorem Group.advance_draws (g : Group) (n : Nat) : (g.advance n).draws = g.draws := rfl
@[simp] theorem Group.advance_alloc (g : Group) (n : Nat) : (g.advance n).alloc = g.alloc := rfl
@[simp] theorem Group.advance_laneQ (g : Group) (n : Nat) : (g.advance n).laneQ = g.laneQ := rfl
@[simp] theorem Group.advance_handlerQ (g : Group) (n : Nat) : (g.advance n).handlerQ = g.handlerQ := rfl
@[simp] theorem Group.advance_past (g : Group) (n : Nat) : (g.advance n).past = g.past := rfl
@[simp] theorem Group.advance_cleared (g : Group) (n : Nat) : (g.advance n).cleared = g.cleared := rfl
@[simp] theorem Group.advance_splits (g : Group) (n : Nat) : (g.advance n).splits = g.splits := rfl
@[simp] theorem Group.advance_hsplit (g : Group) (n : Nat) : (g.advance n).hsplit = g.hsplit := rfl
@[simp] theorem Group.advance_laneOps (g : Group) (n : Nat) : (g.advance n).laneOps = g.laneOps := rfl
@[simp] theorem Group.advance_scalarOps (g : Group) (n : Nat) : (g.advance n).scalarOps = g.scalarOps := rfl
@[simp] theorem Group.advance_nextOp (g : Group) (n : Nat) : (g.advance n).nextOp = g.nextOp := rfl
@[simp] theorem Group.advance_handler (g : Group) (n : Nat) : (g.advance n).handler = g.handler := rfl
@[simp] theorem Group.advance_hidden (g : Group) (n : Nat) : (g.advance n).hidden = g.hidden := rfl
@[simp] theorem Group.advance_mismatch (g : Group) (n : Nat) : (g.advance n).mismatch = g.mismatch := rfl
@[simp] theorem Group.advance_xfererr (g : Group) (n : Nat) : (g.advance n).xfererr = g.xfererr := rfl
@[simp] theorem Group.advance_preempt (g : Group) (n : Nat) : (g.advance n).preempt = g.preempt := rfl
@[simp] theorem Group.advance_intPending (g : Group) (n : Nat) : (g.advance n).intPending = g.intPending := rfl
@[simp] theorem Group.advance_intState (g : Group) (n : Nat) : (g.advance n).intState = g.intState := rfl
@[simp] theorem Group.advance_intReturn (g : Group) (n : Nat) : (g.advance n).intReturn = g.intReturn := rfl
@[simp] theorem Group.advance_barrier (g : Group) (n : Nat) : (g.advance n).barrier = g.barrier := rfl
@[simp] theorem Group.advance_arrived (g : Group) (n : Nat) : (g.advance n).arrived = g.arrived := rfl
@[simp] theorem Group.advance_dropped (g : Group) (n : Nat) : (g.advance n).dropped = g.dropped := rfl
@[simp] theorem Group.advance_noRing (g : Group) (n : Nat) : (g.advance n).noRing = g.noRing := rfl
@[simp] theorem Group.advance_waitMark (g : Group) (n : Nat) : (g.advance n).waitMark = g.waitMark := rfl
@[simp] theorem Group.advance_age (g : Group) (n : Nat) : (g.advance n).age = g.age := rfl
@[simp] theorem Group.advance_hold (g : Group) (n : Nat) : (g.advance n).hold = g.hold := rfl
@[simp] theorem Group.advance_frame (g : Group) (n : Nat) : (g.advance n).frame = g.frame := rfl
@[simp] theorem Group.advance_placedAt (g : Group) (n : Nat) : (g.advance n).placedAt = g.placedAt := rfl

@[simp] theorem Group.note_grid (g : Group) (x : Older) : (g.note x).grid = g.grid := rfl
@[simp] theorem Group.note_gid (g : Group) (x : Older) : (g.note x).gid = g.gid := rfl
@[simp] theorem Group.note_team (g : Group) (x : Older) : (g.note x).team = g.team := rfl
@[simp] theorem Group.note_role (g : Group) (x : Older) : (g.note x).role = g.role := rfl
@[simp] theorem Group.note_child (g : Group) (x : Older) : (g.note x).child = g.child := rfl
@[simp] theorem Group.note_parent (g : Group) (x : Older) : (g.note x).parent = g.parent := rfl
@[simp] theorem Group.note_launchIdx (g : Group) (x : Older) : (g.note x).launchIdx = g.launchIdx := rfl
@[simp] theorem Group.note_core (g : Group) (x : Older) : (g.note x).core = g.core := rfl
@[simp] theorem Group.note_slot (g : Group) (x : Older) : (g.note x).slot = g.slot := rfl
@[simp] theorem Group.note_status (g : Group) (x : Older) : (g.note x).status = g.status := rfl
@[simp] theorem Group.note_priv (g : Group) (x : Older) : (g.note x).priv = g.priv := rfl
@[simp] theorem Group.note_pc (g : Group) (x : Older) : (g.note x).pc = g.pc := rfl
@[simp] theorem Group.note_s (g : Group) (x : Older) : (g.note x).s = g.s := rfl
@[simp] theorem Group.note_v (g : Group) (x : Older) : (g.note x).v = g.v := rfl
@[simp] theorem Group.note_q (g : Group) (x : Older) : (g.note x).q = g.q := rfl
@[simp] theorem Group.note_p (g : Group) (x : Older) : (g.note x).p = g.p := rfl
@[simp] theorem Group.note_a (g : Group) (x : Older) : (g.note x).a = g.a := rfl
@[simp] theorem Group.note_flagSoft (g : Group) (x : Older) : (g.note x).flagSoft = g.flagSoft := rfl
@[simp] theorem Group.note_flagCount (g : Group) (x : Older) : (g.note x).flagCount = g.flagCount := rfl
@[simp] theorem Group.note_k (g : Group) (x : Older) : (g.note x).k = g.k := rfl
@[simp] theorem Group.note_rnd (g : Group) (x : Older) : (g.note x).rnd = g.rnd := rfl
@[simp] theorem Group.note_tanw (g : Group) (x : Older) : (g.note x).tanw = g.tanw := rfl
@[simp] theorem Group.note_dplane (g : Group) (x : Older) : (g.note x).dplane = g.dplane := rfl
@[simp] theorem Group.note_dstride (g : Group) (x : Older) : (g.note x).dstride = g.dstride := rfl
@[simp] theorem Group.note_srseed (g : Group) (x : Older) : (g.note x).srseed = g.srseed := rfl
@[simp] theorem Group.note_cring (g : Group) (x : Older) : (g.note x).cring = g.cring := rfl
@[simp] theorem Group.note_ulivec (g : Group) (x : Older) : (g.note x).ulivec = g.ulivec := rfl
@[simp] theorem Group.note_savearea (g : Group) (x : Older) : (g.note x).savearea = g.savearea := rfl
@[simp] theorem Group.note_prdeadline (g : Group) (x : Older) : (g.note x).prdeadline = g.prdeadline := rfl
@[simp] theorem Group.note_drawid (g : Group) (x : Older) : (g.note x).drawid = g.drawid := rfl
@[simp] theorem Group.note_trapcause (g : Group) (x : Older) : (g.note x).trapcause = g.trapcause := rfl
@[simp] theorem Group.note_trappc (g : Group) (x : Older) : (g.note x).trappc = g.trappc := rfl
@[simp] theorem Group.note_traplanes (g : Group) (x : Older) : (g.note x).traplanes = g.traplanes := rfl
@[simp] theorem Group.note_trapaddr (g : Group) (x : Older) : (g.note x).trapaddr = g.trapaddr := rfl
@[simp] theorem Group.note_keysel (g : Group) (x : Older) : (g.note x).keysel = g.keysel := rfl
@[simp] theorem Group.note_draws (g : Group) (x : Older) : (g.note x).draws = g.draws := rfl
@[simp] theorem Group.note_alloc (g : Group) (x : Older) : (g.note x).alloc = g.alloc := rfl
@[simp] theorem Group.note_laneQ (g : Group) (x : Older) : (g.note x).laneQ = g.laneQ := rfl
@[simp] theorem Group.note_handlerQ (g : Group) (x : Older) : (g.note x).handlerQ = g.handlerQ := rfl
@[simp] theorem Group.note_cleared (g : Group) (x : Older) : (g.note x).cleared = g.cleared := rfl
@[simp] theorem Group.note_splits (g : Group) (x : Older) : (g.note x).splits = g.splits := rfl
@[simp] theorem Group.note_hsplit (g : Group) (x : Older) : (g.note x).hsplit = g.hsplit := rfl
@[simp] theorem Group.note_laneOps (g : Group) (x : Older) : (g.note x).laneOps = g.laneOps := rfl
@[simp] theorem Group.note_scalarOps (g : Group) (x : Older) : (g.note x).scalarOps = g.scalarOps := rfl
@[simp] theorem Group.note_nextOp (g : Group) (x : Older) : (g.note x).nextOp = g.nextOp := rfl
@[simp] theorem Group.note_handler (g : Group) (x : Older) : (g.note x).handler = g.handler := rfl
@[simp] theorem Group.note_hidden (g : Group) (x : Older) : (g.note x).hidden = g.hidden := rfl
@[simp] theorem Group.note_mismatch (g : Group) (x : Older) : (g.note x).mismatch = g.mismatch := rfl
@[simp] theorem Group.note_xfererr (g : Group) (x : Older) : (g.note x).xfererr = g.xfererr := rfl
@[simp] theorem Group.note_preempt (g : Group) (x : Older) : (g.note x).preempt = g.preempt := rfl
@[simp] theorem Group.note_intPending (g : Group) (x : Older) : (g.note x).intPending = g.intPending := rfl
@[simp] theorem Group.note_intState (g : Group) (x : Older) : (g.note x).intState = g.intState := rfl
@[simp] theorem Group.note_intReturn (g : Group) (x : Older) : (g.note x).intReturn = g.intReturn := rfl
@[simp] theorem Group.note_barrier (g : Group) (x : Older) : (g.note x).barrier = g.barrier := rfl
@[simp] theorem Group.note_arrived (g : Group) (x : Older) : (g.note x).arrived = g.arrived := rfl
@[simp] theorem Group.note_dropped (g : Group) (x : Older) : (g.note x).dropped = g.dropped := rfl
@[simp] theorem Group.note_noRing (g : Group) (x : Older) : (g.note x).noRing = g.noRing := rfl
@[simp] theorem Group.note_wait (g : Group) (x : Older) : (g.note x).wait = g.wait := rfl
@[simp] theorem Group.note_waitMark (g : Group) (x : Older) : (g.note x).waitMark = g.waitMark := rfl
@[simp] theorem Group.note_age (g : Group) (x : Older) : (g.note x).age = g.age := rfl
@[simp] theorem Group.note_hold (g : Group) (x : Older) : (g.note x).hold = g.hold := rfl
@[simp] theorem Group.note_frame (g : Group) (x : Older) : (g.note x).frame = g.frame := rfl
@[simp] theorem Group.note_placedAt (g : Group) (x : Older) : (g.note x).placedAt = g.placedAt := rfl
@[simp] theorem Group.note_serial (g : Group) (x : Older) : (g.note x).serial = g.serial := rfl
@[simp] theorem Group.note_due (g : Group) (x : Older) : (g.note x).due = g.due := rfl
@[simp] theorem Group.note_store (g : Group) (x : Older) : (g.note x).store = g.store := rfl
@[simp] theorem Group.note_waitOp (g : Group) (x : Older) : (g.note x).waitOp = g.waitOp := rfl
@[simp] theorem Group.note_cycleMin (g : Group) (x : Older) : (g.note x).cycleMin = g.cycleMin := rfl
@[simp] theorem Group.note_intCycle (g : Group) (x : Older) : (g.note x).intCycle = g.intCycle := rfl
@[simp] theorem Group.note_late (g : Group) (x : Older) : (g.note x).late = g.late := rfl
@[simp] theorem Group.note_resume (g : Group) (x : Older) : (g.note x).resume = g.resume := rfl
@[simp] theorem Group.note_recordNo (g : Group) (x : Older) : (g.note x).recordNo = g.recordNo := rfl

@[simp] theorem Group.advance_pc (g : Group) (n : Nat) : (g.advance n).pc = g.pc + BitVec.ofNat 56 n := rfl
@[simp] theorem Group.advance_serial (g : Group) (n : Nat) : (g.advance n).serial = g.serial := rfl
@[simp] theorem Group.advance_due (g : Group) (n : Nat) : (g.advance n).due = g.due := rfl
@[simp] theorem Group.advance_store (g : Group) (n : Nat) : (g.advance n).store = g.store := rfl
@[simp] theorem Group.advance_waitOp (g : Group) (n : Nat) : (g.advance n).waitOp = g.waitOp := rfl
@[simp] theorem Group.advance_cycleMin (g : Group) (n : Nat) : (g.advance n).cycleMin = g.cycleMin := rfl
@[simp] theorem Group.advance_intCycle (g : Group) (n : Nat) : (g.advance n).intCycle = g.intCycle := rfl
@[simp] theorem Group.advance_late (g : Group) (n : Nat) : (g.advance n).late = g.late := rfl
@[simp] theorem Group.advance_resume (g : Group) (n : Nat) : (g.advance n).resume = g.resume := rfl
@[simp] theorem Group.advance_recordNo (g : Group) (n : Nat) : (g.advance n).recordNo = g.recordNo := rfl
@[simp] theorem Group.advance_wait (g : Group) (n : Nat) : (g.advance n).wait = .none := rfl

end Sys2Proof.Machine
end

