-- ==== Sys2Proof/Laws/Memory.lean ====
section
/-! SUPPORT. Memory: a read after a write, and the canonical form that every operation over memory keeps. -/

namespace Sys2Proof.Machine

/-- The memory's canonical form survives from one state to another. -/
def MemKept (s t : State) : Prop := Memory.wf s.mem → Memory.wf t.mem

@[simp] theorem MemKept.refl (s : State) : MemKept s s := id

theorem MemKept.trans {s t u : State} (h : MemKept s t) (k : MemKept t u) : MemKept s u := k ∘ h

/-- An update that leaves the memory keeps its form. -/
theorem MemKept.of_eq {s t : State} (h : t.mem = s.mem) : MemKept s t := by unfold MemKept; rw [h]; exact id

theorem MemKept.congr {s s' t : State} (h : MemKept s' t) (e : s'.mem = s.mem) : MemKept s t := by
  unfold MemKept at *; rw [← e]; exact h

/-- A fold of steps that keep the form keeps it. -/
theorem MemKept.foldl {α : Type} {f : State → α → State} (hf : ∀ s a, MemKept s (f s a)) (l : List α) (s : State) :
    MemKept s (l.foldl f s) := by
  induction l generalizing s with
  | nil => exact MemKept.refl s
  | cons a t ih => exact (hf s a).trans (ih (f s a))

/-! One byte. -/

theorem readByte_writeByte_same (s : State) (a : Nat) (b : Byte) : readByte (writeByte s a b) a = b := by
  unfold readByte writeByte
  by_cases h : b = resetByte a
  · simp [h, Assoc.find?_erase]
  · simp [h]

theorem readByte_writeByte_ne (s : State) {a c : Nat} (b : Byte) (h : a ≠ c) :
    readByte (writeByte s a b) c = readByte s c := by
  unfold readByte writeByte
  by_cases hb : b = resetByte a
  · simp [hb, Assoc.find?_erase, h]
  · simp [hb, h]

theorem writeByte_kept (s : State) (a : Nat) (b : Byte) : MemKept s (writeByte s a b) := by
  intro h
  unfold writeByte
  by_cases hb : b = resetByte a
  · simpa [hb] using Assoc.canonical_erase resetByte s.mem a h
  · simpa [hb] using Assoc.canonical_put resetByte s.mem a b h hb

/-! Consecutive bytes. -/

theorem writeBytes_kept (s : State) (a : Nat) (bs : List Byte) : MemKept s (writeBytes s a bs) := by
  induction bs generalizing s a with
  | nil => exact MemKept.refl s
  | cons b t ih => exact (writeByte_kept s a b).trans (ih _ _)

theorem writeNat_kept (s : State) (a n x : Nat) : MemKept s (writeNat s a n x) := writeBytes_kept _ _ _

/-- A byte outside the written range is unchanged. -/
theorem readByte_writeBytes_outside (s : State) (a : Nat) (bs : List Byte) {c : Nat}
    (h : c < a ∨ a + bs.length ≤ c) : readByte (writeBytes s a bs) c = readByte s c := by
  induction bs generalizing s a with
  | nil => rfl
  | cons b t ih =>
    have hl : (b :: t).length = t.length + 1 := rfl
    have : a ≠ c := by omega
    simp only [writeBytes]
    rw [ih _ _ (by omega), readByte_writeByte_ne _ _ this]

/-- A byte of the written range is the written one. -/
theorem readByte_writeBytes_inside (s : State) (a : Nat) (bs : List Byte) (i : Nat) (h : i < bs.length) :
    readByte (writeBytes s a bs) (a + i) = bs[i] := by
  induction bs generalizing s a i with
  | nil => simp at h
  | cons b t ih =>
    cases i with
    | zero => simp [writeBytes, readByte_writeBytes_outside, readByte_writeByte_same]
    | succ i =>
      have := ih (writeByte s a b) (a + 1) i (by simpa using h)
      simpa [writeBytes, Nat.add_comm, Nat.add_left_comm] using this

/-- Memory alone decides what a byte reads as. -/
theorem readByte_congr {s t : State} (h : t.mem = s.mem) (a : Nat) : readByte t a = readByte s a := by
  unfold readByte; rw [h]

/-! Operations that leave every byte as it is. -/

/-- A fold of steps that leave the memory leaves it. -/
theorem foldl_mem {α : Type} {f : State → α → State} (hf : ∀ s a, (f s a).mem = s.mem) (l : List α) (s : State) :
    (l.foldl f s).mem = s.mem := by
  induction l generalizing s with
  | nil => rfl
  | cons a t ih => rw [List.foldl_cons, ih, hf]

@[simp] theorem writeBackLine_mem (s : State) (k : Nat) : (writeBackLine s k).mem = s.mem := by
  unfold writeBackLine
  repeat' split
  all_goals rfl

@[simp] theorem dropLine_mem (s : State) (k : Nat) : (dropLine s k).mem = s.mem := by simp [dropLine]

@[simp] theorem makeRoom_mem (s : State) (d a : Nat) : (makeRoom s d a).mem = s.mem := by
  unfold makeRoom; simp only
  repeat' split
  all_goals simp

@[simp] theorem fillLine_mem (s : State) (d a : Nat) (l : L2Line) : (fillLine s d a l).mem = s.mem := by
  unfold fillLine
  repeat' split
  all_goals simp

@[simp] theorem runFlush_mem (s : State) (d : Nat) (f : Flush) : (runFlush s d f).mem = s.mem := by
  unfold runFlush
  exact foldl_mem (fun s l => by split <;> simp) _ _

@[simp] theorem orreryTouch_mem (s : State) (d a : Nat) (w : Bool) : (orreryTouch s d a w).mem = s.mem := by
  have h (l : List Flush) (n : Nat) : (l.foldl (fun s f => runFlush s n f) s).mem = s.mem :=
    foldl_mem (fun s f => runFlush_mem s n f) l s
  unfold orreryTouch; simp only
  repeat' split
  all_goals simp [h]

@[simp] theorem touchSlice_mem (s : State) (d a : Nat) (w fill : Bool) (stored : Option Bool) :
    (touchSlice s d a w fill stored).mem = s.mem := by
  unfold touchSlice; simp only
  repeat' split
  all_goals simp

@[simp] theorem touchFrom_mem (s : State) (d a : Nat) (w : Bool) : (touchFrom s d a w).mem = s.mem := by
  unfold touchFrom; split <;> simp

@[simp] theorem touchAll_mem (l : List Nat) (s : State) (d : Nat) :
    (l.foldl (fun s a => touchFrom s d a false) s).mem = s.mem := foldl_mem (fun s a => touchFrom_mem s d a false) l s

@[simp] theorem touchRaw_mem (s : State) (a : Nat) (w : Bool) : (touchRaw s a w).mem = s.mem := by simp [touchRaw]

@[simp] theorem touchLine_mem (s : State) (d a : Nat) (e : Word) (w : Bool) : (touchLine s d a e w).mem = s.mem := by
  unfold touchLine; simp only
  repeat' split
  all_goals simp

@[simp] theorem endWalk_mem (s : State) (d a : Nat) : (endWalk s d a).mem = s.mem := by
  unfold endWalk; simp only; split <;> simp

@[simp] theorem cacheLeaf_mem (s : State) (d b n : Nat) (e : Word) : (cacheLeaf s d b n e).mem = s.mem := by
  simp [cacheLeaf]

@[simp] theorem cacheNodes_mem (s : State) (d : Nat) (l : List NodeEntry) : (cacheNodes s d l).mem = s.mem := by
  unfold cacheNodes; simp only; split <;> simp

@[simp] theorem cacheCore_mem (s : State) (c a : Nat) : (cacheCore s c a).mem = s.mem := by
  unfold cacheCore; split <;> simp

@[simp] theorem fillL1_mem (s : State) (c a : Nat) (e : Word) : (fillL1 s c a e).2.mem = s.mem := by
  unfold fillL1 dieLine; simp only
  repeat' split
  all_goals simp

@[simp] theorem l1Line_mem (s : State) (c a : Nat) (e : Word) : (l1Line s c a e).2.mem = s.mem := by
  unfold l1Line
  repeat' split
  all_goals simp

@[simp] theorem l1Bytes_mem (s : State) (c a : Nat) (e : Word) (n : Nat) : (l1Bytes s c a e n).2.mem = s.mem := by
  induction n generalizing s a with
  | zero => rfl
  | succ n ih => simp [l1Bytes, ih]

@[simp] theorem invalidateL1_mem (s : State) (c : Nat) : (invalidateL1 s c).mem = s.mem := by
  unfold invalidateL1; simp only
  repeat' split
  all_goals simp

@[simp] theorem coreRead_mem (s : State) (c a n : Nat) (e : Word) (q : Bool) : (coreRead s c a n e q).2.mem = s.mem := by
  unfold coreRead; simp only
  repeat' split
  all_goals simp

@[simp] theorem patchCopies_mem (s : State) (c a : Nat) (b : Byte) : (patchCopies s c a b).mem = s.mem := by
  unfold patchCopies; simp only
  repeat' split
  all_goals simp

@[simp] theorem patchAll_mem (s : State) (c a : Nat) (bs : List Byte) : (patchAll s c a bs).mem = s.mem := by
  induction bs generalizing s a with
  | nil => rfl
  | cons b t ih => simp [patchAll, ih]

/-! Operations that may write. -/

theorem coreWrite_kept (s : State) (c a : Nat) (e : Word) (bs : List Byte) : MemKept s (coreWrite s c a e bs) := by
  unfold coreWrite
  refine MemKept.trans ?_ (MemKept.of_eq (patchAll_mem _ _ _ _))
  exact (writeBytes_kept _ _ _).congr (touchLine_mem _ _ _ _ _)

theorem takeLeaf_kept (s : State) (d a at_ b n : Nat) (e : Word) (w : Bool) : MemKept s (takeLeaf s d a at_ b n e w) := by
  unfold takeLeaf
  refine MemKept.trans ?_ (MemKept.of_eq (cacheLeaf_mem _ _ _ _ _))
  split
  · exact MemKept.of_eq (endWalk_mem s d a)
  · exact (writeNat_kept _ _ _ _).congr (by simp)

@[simp] theorem awaitNode_mem (s : State) (d a l : Nat) : (awaitNode s d a l).2.mem = s.mem := by
  unfold awaitNode; simp only; split <;> simp

theorem translateByWalk_kept (s : State) (d a : Nat) (w : Bool) : MemKept s (translateByWalk s d a w).2 := by
  unfold translateByWalk; simp only
  split
  · exact (takeLeaf_kept _ _ _ _ _ _ _ _).congr (by simp)
  all_goals exact MemKept.of_eq (by simp)

/-- A translation writes nothing but the accessed and dirty bits of the walked entry (R356). -/
theorem translate_kept (s : State) (d a : Nat) (w : Bool) : MemKept s (translate s d a w).2 := by
  unfold translate
  split
  · split
    · exact translateByWalk_kept _ _ _ _
    · exact MemKept.refl s
  · exact translateByWalk_kept _ _ _ _

/-- So does a core's. -/
theorem translateCore_kept (s : State) (c a : Nat) (w : Bool) : MemKept s (translateCore s c a w).2 := by
  have h : MemKept s (cacheCore (translate s (dieOfCore c) a w).2 c a) :=
    (translate_kept _ _ _ _).trans (MemKept.of_eq (cacheCore_mem _ _ _))
  unfold translateCore; simp only
  repeat' split
  all_goals first | exact h | exact MemKept.refl s

theorem writeRaw_kept (s : State) (a : Nat) (bs : List Byte) : MemKept s (writeRaw s a bs) := by
  unfold writeRaw
  exact (MemKept.foldl (fun s x => MemKept.of_eq (touchRaw_mem s x true)) _ _).trans (writeBytes_kept _ _ _)

/-- The device's memory at reset is in its canonical form. -/
theorem reset_mem_wf : Memory.wf State.reset.mem := rfl

end Sys2Proof.Machine
end

