-- ==== Sys2Proof/Laws/Ops.lean ====
section
/-! SUPPORT. What the operations that instructions share do, said once each: placing the issuing group, the form of a scalar
instruction, a trap and the return from one, the writing of registers. -/

namespace Sys2Proof.Machine

open Sys2Proof.Safety

/-! The issuing group. -/

@[simp] theorem State.group_setGroup (s : State) (g : Group) : (s.setGroup g).group = g := by
  simp [State.setGroup, State.group, State.groupAt, State.putGroup]

@[simp] theorem State.groupAt_putGroup (s : State) (k : Nat) (g : Group) (n : Nat) :
    (s.putGroup k g).groupAt n = if k = n then g else s.groupAt n := by
  simp only [State.groupAt, State.putGroup, Assoc.find?_put]
  split <;> rfl

@[simp] theorem State.gridAt_setGroup (s : State) (g : Group) (n : Nat) : (s.setGroup g).gridAt n = s.gridAt n := rfl

@[simp] theorem State.teamAt_setGroup (s : State) (g : Group) (n : Nat) : (s.setGroup g).teamAt n = s.teamAt n := rfl

@[simp] theorem State.coreAt_setGroup (s : State) (g : Group) (n : Nat) : (s.setGroup g).coreAt n = s.coreAt n := rfl

@[simp] theorem State.dieAt_setGroup (s : State) (g : Group) (n : Nat) : (s.setGroup g).dieAt n = s.dieAt n := rfl

/-- Placing the issuing group changes no other. -/
@[simp] theorem onlyGroup_setGroup (s : State) (g : Group) : OnlyGroup s (s.setGroup g) := by
  refine ⟨rfl, fun k hk => ?_⟩
  simp [State.setGroup, State.putGroup, Ne.symm hk]

/-- Placing the issuing group twice places the later one. -/
@[simp] theorem Assoc.erase_place {α : Type} (l : List (Nat × α)) (k : Nat) (v : α) (h : ∀ p ∈ l, p.1 ≠ k) :
    Assoc.erase (Assoc.place l k v) k = l := by
  induction l with
  | nil => simp [Assoc.place, Assoc.erase]
  | cons p t ih =>
    have hp : p.1 ≠ k := h p (by simp)
    have ht : ∀ q ∈ t, q.1 ≠ k := fun q hq => h q (by simp [hq])
    unfold Assoc.place
    split
    · simp only [Assoc.erase, List.filter_cons, bne_self_eq_false, Bool.false_eq_true, if_false]
      rw [if_pos (by simpa using hp)]
      congr 1
      exact List.filter_eq_self.mpr fun q hq => by simpa using ht q hq
    · simp only [Assoc.erase, List.filter_cons]
      rw [if_pos (by simpa using hp)]
      congr 1
      exact ih ht

@[simp] theorem Assoc.put_put {α : Type} (l : List (Nat × α)) (k : Nat) (v w : α) :
    Assoc.put (Assoc.put l k v) k w = Assoc.put l k w := by
  unfold Assoc.put
  rw [Assoc.erase_place]
  simp [Assoc.erase]

@[simp] theorem State.setGroup_setGroup (s : State) (g h : Group) : (s.setGroup g).setGroup h = s.setGroup h := by
  simp [State.setGroup, State.putGroup]

/-! The form of a scalar instruction. -/

/-- With none of its registers awaited, a scalar instruction is its body. -/
theorem scalarInstr_free {regs : List Nat} {s : State} {body : Group → Result State} (h : Free s regs) :
    scalarInstr regs s body = body s.group := by
  simp only [Free] at h
  simp [scalarInstr, h]

theorem scalarSet_free {regs : List Nat} {s : State} {d : Nat} {v : Group → Word} (h : Free s (d :: regs)) :
    scalarSet regs s d v = .next (wrote s d (v s.group) 4) := by
  simp [scalarSet, scalarInstr_free h, wrote]

/-- Fewer registers are awaited no more. -/
theorem free_mono {s : State} {l m : List Nat} (h : Free s l) (hm : ∀ n ∈ m, n ∈ l) : Free s m := by
  simp only [Free, Group.heldS, List.any_eq_false, Bool.or_eq_true, not_or] at h ⊢
  intro o ho
  obtain ⟨a, b⟩ := h o ho
  refine ⟨a, ?_⟩
  simp only [List.any_eq_true, not_exists, not_and, List.contains_eq_mem, decide_eq_true_eq] at b ⊢
  exact fun d hd hc => b d hd (hm _ hc)

/-! Registers. -/

@[simp] theorem Group.readS_writeS (g : Group) (n m : Nat) (v : Word) :
    (g.writeS n v).readS m = if m = 0 then 0 else if n = m then v else g.readS m := by
  unfold Group.writeS Group.readS Group.note
  by_cases hm : m = 0 <;> by_cases hn : n = 0 <;> simp [hm, hn]
  exact fun h => absurd h.symm hm

@[simp] theorem Group.readA_writeA (g : Group) (n m : Nat) (v : Aperture) :
    (g.writeA n v).readA m = if n = m then v else g.readA m := by
  simp [Group.writeA, Group.readA]

@[simp] theorem Group.readV_writeV (g : Group) (p n q m : Nat) (v : VecReg) :
    (g.writeV p n v).readV q m = if p * 512 + n = q * 512 + m then v else g.readV q m := by
  simp [Group.writeV, Group.readV]

@[simp] theorem Group.readQ_writeQ (g : Group) (p n q m : Nat) (v : ScaleReg) :
    (g.writeQ p n v).readQ q m = if p * 512 + n = q * 512 + m then v else g.readQ q m := by
  simp [Group.writeQ, Group.readQ]

@[simp] theorem Group.readP_writeP (g : Group) (n m : Nat) (v : Mask) :
    (g.writeP n v).readP m = if m = 0 then BitVec.allOnes 32 else if n = m then v else g.readP m := by
  unfold Group.writeP Group.readP
  by_cases hm : m = 0 <;> by_cases hn : n = 0 <;> simp [hm, hn]
  exact fun h => absurd h.symm hm

@[simp] theorem Group.readK_writeK (g : Group) (n m : Nat) (v : Word) :
    (g.writeK n v).readK m = if n = m then v else g.readK m := by
  simp [Group.writeK, Group.readK]

/-! Traps. -/

/-- A precise trap of a group outside handler state whose grid has a trap vector (R217). -/
theorem takeTrap_toHandler {s : State} (h : TrapsToHandler s) (c : Cause) (detail : Nat) (planes : Mask) (addr : Word) :
    takeTrap s c detail planes addr =
      (s.setGroup (s.group.enterTrap (trapVector s.grid)
        (causeWord c detail (s.cur.lane.map fun i => (i, (s.group.splitAt i).index)))
        (match s.cur.lane with
          | none => s.group.pc
          | some i => laneAddr s.grid (s.group.splitAt i).addr) planes addr s.cur.lane)).perfEvent s.group.core 10 s.group.grid 1 := by
  obtain ⟨h1, h2, h3⟩ := h
  cases hc : s.cur.lane with
  | none => simp [takeTrap, h1, h2, hc]
  | some i =>
    have hb : s.group.atBoundary = true := h3.resolve_left (by simp [hc])
    simp [takeTrap, h1, h2, hb, hc]

/-- A trap in handler state ends the team (R219). -/
theorem takeTrap_inHandler {s : State} (h : s.group.handler = true) (c : Cause) (detail : Nat) (planes : Mask) (addr : Word) :
    takeTrap s c detail planes addr =
      abortTeam s s.group.teamKey s.group.gid .double
        (causeWord c detail (s.cur.lane.map fun i => (i, (s.group.splitAt i).index)))
        ((match s.cur.lane with
          | none => s.group.pc
          | some i => laneAddr s.grid (s.group.splitAt i).addr).setWidth 64) addr := by
  cases hc : s.cur.lane <;> simp [takeTrap, h, hc]

/-- A trap of a grid without a trap vector ends the team (R217). -/
theorem takeTrap_noVector {s : State} (h : s.group.handler = false) (hv : s.grid.record.trapVec = 0)
    (hb : s.cur.lane = none ∨ s.group.atBoundary = true) (c : Cause) (detail : Nat)
    (planes : Mask) (addr : Word) :
    takeTrap s c detail planes addr =
      abortTeam s s.group.teamKey s.group.gid .noHandler
        (causeWord c detail (s.cur.lane.map fun i => (i, (s.group.splitAt i).index)))
        ((match s.cur.lane with
          | none => s.group.pc
          | some i => laneAddr s.grid (s.group.splitAt i).addr).setWidth 64) addr := by
  cases hc : s.cur.lane with
  | none => simp [takeTrap, h, hv, hc]
  | some i =>
    have hb : s.group.atBoundary = true := hb.resolve_left (by simp [hc])
    simp [takeTrap, h, hv, hb, hc]

end Sys2Proof.Machine
end

