-- ==== Sys2Proof/Laws/Access.lean ====
section
/-! SUPPORT. What reading back gives, and when a structure, a handle's record and a checked access go on: the lemmas that
statements with these hypotheses are met and used by. -/

namespace Sys2Proof.Machine

open Sys2Proof.Safety

/-! Bytes. -/

/-- As many little-endian bytes as a number has give it back. -/
theorem leNat_leBytes (n x : Nat) : Bits.leNat (Bits.leBytes n x) = x % 256 ^ n := by
  induction n generalizing x with
  | zero => simp [Bits.leBytes, Bits.leNat, Nat.mod_one]
  | succ n ih =>
    simp only [Bits.leBytes, Bits.leNat, ih, BitVec.toNat_ofNat, Nat.reducePow]
    rw [Nat.pow_succ, Nat.mul_comm (256 ^ n) 256, Nat.mod_mul]

@[simp] theorem leBytes_length (n x : Nat) : (Bits.leBytes n x).length = n := by
  induction n generalizing x with
  | zero => rfl
  | succ n ih => simp [Bits.leBytes, ih]

/-- Reading what was written. -/
theorem readBytes_writeBytes (s : State) (a : Nat) (bs : List Byte) : readBytes (writeBytes s a bs) a bs.length = bs := by
  apply List.ext_getElem
  · simp [readBytes]
  · intro i h1 h2
    simp [readBytes, readByte_writeBytes_inside _ _ _ _ h2]

/-- Reading elsewhere. -/
theorem readBytes_writeBytes_outside (s : State) (a c n : Nat) (bs : List Byte) (h : c + n ≤ a ∨ a + bs.length ≤ c) :
    readBytes (writeBytes s a bs) c n = readBytes s c n := by
  simp only [readBytes]
  apply List.map_congr_left
  intro i hi
  have := List.mem_range.mp hi
  exact readByte_writeBytes_outside _ _ _ (by omega)

theorem readNat_writeNat (s : State) (a n x : Nat) : readNat (writeNat s a n x) a n = x % 256 ^ n := by
  have h := readBytes_writeBytes s a (Bits.leBytes n x)
  rw [leBytes_length] at h
  rw [readNat, writeNat, h, leNat_leBytes]

theorem readNat_writeNat_outside (s : State) (a c n m x : Nat) (h : c + n ≤ a ∨ a + m ≤ c) :
    readNat (writeNat s a m x) c n = readNat s c n := by
  rw [readNat, writeNat, readBytes_writeBytes_outside _ _ _ _ _ (by simpa using h), readNat]

/-! Structures and records. -/

/-- An aligned structure in the scratchpad's window is read at once (R293, R326). -/
theorem structure_scratch {s : State} {va n align : Nat} (ha : va % align = 0) (hw : scratchWindow va = true)
    (hb : va % 2 ^ 32 + n ≤ (s.teamAt s.group.teamKey).w) :
    Structure s va n align ((s.teamAt s.group.teamKey).readScratch (va % 2 ^ 32) n) s := by
  intro k
  have hb' : ¬(s.teamAt s.group.teamKey).w < va % 2 ^ 32 + n := by omega
  simp only [readStruct, readPlain, ha, hw, hb', ne_eq, not_true_eq_false, if_false, if_true]

/-- No record is read when none is needed. -/
theorem samples_unneeded (s : State) (g : Group) (h : Word) : Samples s g false h none s := fun _ => rfl

/-- A handle beyond the grid's table has no record (R368). -/
theorem samples_beyond {s : State} {g : Group} {h : Word} (hi : (s.gridAt g.grid).record.shapes ≤ handleIndex h) (b : Bool) :
    Samples s g b h none s := by
  intro k
  cases b
  · rfl
  · simp only [withRecord, sampleShape, hi, if_true]

/-- A record that the die has not cached is read at its home and cached (R369), where neither the side log nor a held access stands
before it. -/
theorem samples_uncached {s s1 : State} {g : Group} {h : Word} {ps : List Piece}
    (hi : handleIndex h < (s.gridAt g.grid).record.shapes)
    (hl : sideTouches s g.core (shapeAddr (s.gridAt g.grid) (handleIndex h)) 64 = false)
    (hd : deviceHeld s g none (shapeAddr (s.gridAt g.grid) (handleIndex h)) = false)
    (hc : checkAcc s g.core ⟨0, 0, shapeAddr (s.gridAt g.grid) (handleIndex h), 64, .load, true⟩ = (.ok ps, s1))
    (hn : ((readHome s1 g.die ps).2.dieAt g.die).cachedShape g.grid (handleIndex h) = none) :
    Samples s g true h (some (readHome s1 g.die ps).1)
      (installShape (readHome s1 g.die ps).2 g.die g.grid (handleIndex h) (readHome s1 g.die ps).1) := by
  intro k
  have hi' : ¬(s.gridAt g.grid).record.shapes ≤ handleIndex h := by omega
  simp only [withRecord, sampleShape, readShape, scalarAccess, hi', hl, hd, hc, hn, if_true, if_false, ite_self, Bool.false_eq_true]

end Sys2Proof.Machine
end

