-- ==== Sys2Proof/Laws/Decode.lean ====
section
/-! SUPPORT. The fields of a word built from fields: what the decoder reads back is what the encoder wrote (R63, R67). -/

namespace Sys2Proof

/-- The fields of an SR word. -/
theorem SR.ofWord_word (op : BitVec 7) (f : SR) : SR.ofWord (f.word op) = f := by
  cases f
  simp (disch := omega) only [SR.ofWord, SR.word, BitVec.extractLsb'_append_eq_of_le,
    BitVec.extractLsb'_append_eq_of_add_le, Nat.reduceSub, Nat.sub_self, BitVec.extractLsb'_eq_self]

/-- The opcode of an SR word. -/
theorem SR.opcode_word (op : BitVec 7) (f : SR) : (f.word op).extractLsb' 25 7 = op := by
  simp (disch := omega) only [SR.word, BitVec.extractLsb'_append_eq_of_le, Nat.reduceSub, Nat.sub_self,
    BitVec.extractLsb'_eq_self]

/-- The fields of an SI word. -/
theorem SI.ofWord_word (op : BitVec 7) (f : SI) : SI.ofWord (f.word op) = f := by
  cases f
  simp (disch := omega) only [SI.ofWord, SI.word, BitVec.extractLsb'_append_eq_of_le,
    BitVec.extractLsb'_append_eq_of_add_le, Nat.reduceSub, Nat.sub_self, BitVec.extractLsb'_eq_self]

/-- The opcode of an SI word. -/
theorem SI.opcode_word (op : BitVec 7) (f : SI) : (f.word op).extractLsb' 25 7 = op := by
  simp (disch := omega) only [SI.word, BitVec.extractLsb'_append_eq_of_le, Nat.reduceSub, Nat.sub_self,
    BitVec.extractLsb'_eq_self]

/-- The fields of an SM word. -/
theorem SM.ofWord_word (op : BitVec 7) (f : SM) : SM.ofWord (f.word op) = f := by
  cases f
  simp (disch := omega) only [SM.ofWord, SM.word, BitVec.extractLsb'_append_eq_of_le,
    BitVec.extractLsb'_append_eq_of_add_le, Nat.reduceSub, Nat.sub_self, BitVec.extractLsb'_eq_self]

/-- The opcode of an SM word. -/
theorem SM.opcode_word (op : BitVec 7) (f : SM) : (f.word op).extractLsb' 25 7 = op := by
  simp (disch := omega) only [SM.word, BitVec.extractLsb'_append_eq_of_le, Nat.reduceSub, Nat.sub_self,
    BitVec.extractLsb'_eq_self]

/-- The fields of an SB word. -/
theorem SB.ofWord_word (op : BitVec 7) (f : SB) : SB.ofWord (f.word op) = f := by
  cases f
  simp (disch := omega) only [SB.ofWord, SB.word, BitVec.extractLsb'_append_eq_of_le,
    BitVec.extractLsb'_append_eq_of_add_le, Nat.reduceSub, Nat.sub_self, BitVec.extractLsb'_eq_self]

/-- The opcode of an SB word. -/
theorem SB.opcode_word (op : BitVec 7) (f : SB) : (f.word op).extractLsb' 25 7 = op := by
  simp (disch := omega) only [SB.word, BitVec.extractLsb'_append_eq_of_le, Nat.reduceSub, Nat.sub_self,
    BitVec.extractLsb'_eq_self]

/-- The fields of an SX word. -/
theorem SX.ofWords_word (op : BitVec 7) (f : SX) : SX.ofWords (f.word op) f.imm = f := by
  cases f
  simp (disch := omega) only [SX.ofWords, SX.word, BitVec.extractLsb'_append_eq_of_le,
    BitVec.extractLsb'_append_eq_of_add_le, Nat.reduceSub, Nat.sub_self, BitVec.extractLsb'_eq_self]

/-- The opcode of an SX word. -/
theorem SX.opcode_word (op : BitVec 7) (f : SX) : (f.word op).extractLsb' 25 7 = op := by
  simp (disch := omega) only [SX.word, BitVec.extractLsb'_append_eq_of_le, Nat.reduceSub, Nat.sub_self,
    BitVec.extractLsb'_eq_self]

/-- A word of two fields is its upper and its lower field. -/
theorem extract_append_extract (x : BitVec 20) : x.extractLsb' 19 1 ++ x.extractLsb' 0 19 = x := by
  apply BitVec.eq_of_getLsbD_eq
  intro i hi
  simp only [BitVec.getLsbD_append, BitVec.getLsbD_extractLsb']
  by_cases h : i < 19
  · simp [h]
  · simp [h, Nat.add_sub_cancel' (Nat.le_of_not_lt h)]
    omega

/-- The fields of an SU word. -/
theorem SU.ofWord_word (op : BitVec 6) (f : SU) : SU.ofWord (f.word op) = f := by
  cases f
  simp (disch := omega) only [SU.ofWord, SU.word, BitVec.extractLsb'_append_eq_of_le,
    BitVec.extractLsb'_append_eq_of_add_le, Nat.reduceSub, Nat.sub_self, BitVec.extractLsb'_eq_self,
    SU.mk.injEq, true_and]
  exact extract_append_extract _

/-- The opcode of an SU word ends in the top bit of its immediate (R64). -/
theorem SU.opcode_word (op : BitVec 6) (f : SU) : (f.word op).extractLsb' 25 7 = op ++ f.imm.extractLsb' 19 1 := by
  simp (disch := omega) only [SU.word, BitVec.extractLsb'_append_eq_of_le, Nat.reduceSub, Nat.sub_self]
  exact BitVec.extractLsb'_eq_self

/-- The fields of a LaneWord word. -/
theorem LaneWord.ofWord_word (op : BitVec 10) (f : LaneWord) : LaneWord.ofWord (f.word op) = f := by
  cases f
  simp (disch := omega) only [LaneWord.ofWord, LaneWord.word, BitVec.extractLsb'_append_eq_of_le,
    BitVec.extractLsb'_append_eq_of_add_le, Nat.reduceSub, Nat.sub_self, BitVec.extractLsb'_eq_self]

/-- The opcode of a LaneWord word. -/
theorem LaneWord.opcode_word (op : BitVec 10) (f : LaneWord) : (f.word op).extractLsb' 86 10 = op := by
  simp (disch := omega) only [LaneWord.word, BitVec.extractLsb'_append_eq_of_le, Nat.reduceSub, Nat.sub_self,
    BitVec.extractLsb'_eq_self]

end Sys2Proof
end

