-- ==== Sys2Proof/Laws/PerInstr.lean ====
section
/-! SUPPORT. A family of laws with one lemma per instruction: how many words it has (R64, R66, R67). -/

namespace Sys2Proof.Laws.WordCount

/-- An instruction has a second word exactly when it is of format SX; an event has no word at all. -/
def Statement (i : Instr) : Prop :=
  match encode i with
  | some (.scalarX _ _) => i.isSX = true
  | some (.scalar _) => i.isSX = false
  | some (.lane _) => i.isSX = false
  | some (.micro _) => i.isSX = false
  | none => i.isSX = false


theorem add : ∀ f, Statement (.add f) := fun _ => rfl
theorem sub : ∀ f, Statement (.sub f) := fun _ => rfl
theorem mul : ∀ f, Statement (.mul f) := fun _ => rfl
theorem div : ∀ f, Statement (.div f) := fun _ => rfl
theorem min : ∀ f, Statement (.min f) := fun _ => rfl
theorem max : ∀ f, Statement (.max f) := fun _ => rfl
theorem and : ∀ f, Statement (.and f) := fun _ => rfl
theorem or : ∀ f, Statement (.or f) := fun _ => rfl
theorem xor : ∀ f, Statement (.xor f) := fun _ => rfl
theorem shl : ∀ f, Statement (.shl f) := fun _ => rfl
theorem shr : ∀ f, Statement (.shr f) := fun _ => rfl
theorem rotl : ∀ f, Statement (.rotl f) := fun _ => rfl
theorem clz : ∀ f, Statement (.clz f) := fun _ => rfl
theorem popc : ∀ f, Statement (.popc f) := fun _ => rfl
theorem bfx : ∀ f, Statement (.bfx f) := fun _ => rfl
theorem bfi : ∀ f, Statement (.bfi f) := fun _ => rfl
theorem cmp : ∀ f, Statement (.cmp f) := fun _ => rfl
theorem sel : ∀ f, Statement (.sel f) := fun _ => rfl
theorem jr : ∀ f, Statement (.jr f) := fun _ => rfl
theorem csrr : ∀ f, Statement (.csrr f) := fun _ => rfl
theorem csrw : ∀ f, Statement (.csrw f) := fun _ => rfl
theorem csrx : ∀ f, Statement (.csrx f) := fun _ => rfl
theorem lrun : ∀ f, Statement (.lrun f) := fun _ => rfl
theorem lsync : ∀ f, Statement (.lsync f) := fun _ => rfl
theorem addi : ∀ f, Statement (.addi f) := fun _ => rfl
theorem andi : ∀ f, Statement (.andi f) := fun _ => rfl
theorem ori : ∀ f, Statement (.ori f) := fun _ => rfl
theorem xori : ∀ f, Statement (.xori f) := fun _ => rfl
theorem shli : ∀ f, Statement (.shli f) := fun _ => rfl
theorem shri : ∀ f, Statement (.shri f) := fun _ => rfl
theorem cmpi : ∀ f, Statement (.cmpi f) := fun _ => rfl
theorem fwait : ∀ f, Statement (.fwait f) := fun _ => rfl
theorem fset : ∀ f, Statement (.fset f) := fun _ => rfl
theorem fclr : ∀ f, Statement (.fclr f) := fun _ => rfl
theorem trap : ∀ f, Statement (.trap f) := fun _ => rfl
theorem tret : ∀ f, Statement (.tret f) := fun _ => rfl
theorem tretPark : ∀ f, Statement (.tretPark f) := fun _ => rfl
theorem tretAbort : ∀ f, Statement (.tretAbort f) := fun _ => rfl
theorem uliret : ∀ f, Statement (.uliret f) := fun _ => rfl
theorem lui : ∀ f, Statement (.lui f) := fun _ => rfl
theorem addpc : ∀ f, Statement (.addpc f) := fun _ => rfl
theorem br : ∀ f, Statement (.br f) := fun _ => rfl
theorem loop : ∀ f, Statement (.loop f) := fun _ => rfl
theorem li : ∀ f, Statement (.li f) := fun _ => rfl
theorem liHi : ∀ f, Statement (.liHi f) := fun _ => rfl
theorem call : ∀ f, Statement (.call f) := fun _ => rfl
theorem mld : ∀ f, Statement (.mld f) := fun _ => rfl
theorem mma : ∀ f, Statement (.mma f) := fun _ => rfl
theorem mma2 : ∀ f, Statement (.mma2 f) := fun _ => rfl
theorem mdrain : ∀ f, Statement (.mdrain f) := fun _ => rfl
theorem mzero : ∀ f, Statement (.mzero f) := fun _ => rfl
theorem mmode : ∀ f, Statement (.mmode f) := fun _ => rfl
theorem mvnb : ∀ f, Statement (.mvnb f) := fun _ => rfl
theorem msync : ∀ f, Statement (.msync f) := fun _ => rfl
theorem apset : ∀ f, Statement (.apset f) := fun _ => rfl
theorem apclr : ∀ f, Statement (.apclr f) := fun _ => rfl
theorem satom : ∀ f, Statement (.satom f) := fun _ => rfl
theorem scas : ∀ f, Statement (.scas f) := fun _ => rfl
theorem waita : ∀ f, Statement (.waita f) := fun _ => rfl
theorem pref : ∀ f, Statement (.pref f) := fun _ => rfl
theorem tlbinv : ∀ f, Statement (.tlbinv f) := fun _ => rfl
theorem keyld : ∀ f, Statement (.keyld f) := fun _ => rfl
theorem sld : ∀ n f, Statement (.sld n f) := fun _ _ => rfl
theorem sst : ∀ n f, Statement (.sst n f) := fun _ _ => rfl
theorem keydel : ∀ f, Statement (.keydel f) := fun _ => rfl
theorem shpld : ∀ f, Statement (.shpld f) := fun _ => rfl
theorem shpinv : ∀ f, Statement (.shpinv f) := fun _ => rfl
theorem cset : ∀ f, Statement (.cset f) := fun _ => rfl
theorem cadd : ∀ f, Statement (.cadd f) := fun _ => rfl
theorem crd : ∀ f, Statement (.crd f) := fun _ => rfl
theorem pcfg : ∀ f, Statement (.pcfg f) := fun _ => rfl
theorem launch : ∀ f, Statement (.launch f) := fun _ => rfl
theorem spawn : ∀ f, Statement (.spawn f) := fun _ => rfl
theorem await : ∀ f, Statement (.await f) := fun _ => rfl
theorem exit : ∀ f, Statement (.exit f) := fun _ => rfl
theorem yield : ∀ f, Statement (.yield f) := fun _ => rfl
theorem tbar : ∀ f, Statement (.tbar f) := fun _ => rfl
theorem rpush : ∀ f, Statement (.rpush f) := fun _ => rfl
theorem rpop : ∀ f, Statement (.rpop f) := fun _ => rfl
theorem rwait : ∀ f, Statement (.rwait f) := fun _ => rfl
theorem cpy : ∀ f, Statement (.cpy f) := fun _ => rfl
theorem gacc : ∀ f, Statement (.gacc f) := fun _ => rfl
theorem commit : ∀ f, Statement (.commit f) := fun _ => rfl
theorem coll : ∀ f, Statement (.coll f) := fun _ => rfl
theorem strm : ∀ f, Statement (.strm f) := fun _ => rfl
theorem fadd : ∀ w, Statement (.fadd w) := fun _ => rfl
theorem fmul : ∀ w, Statement (.fmul w) := fun _ => rfl
theorem ffma : ∀ w, Statement (.ffma w) := fun _ => rfl
theorem fmin : ∀ w, Statement (.fmin w) := fun _ => rfl
theorem fmax : ∀ w, Statement (.fmax w) := fun _ => rfl
theorem fcmp : ∀ w, Statement (.fcmp w) := fun _ => rfl
theorem fclass : ∀ w, Statement (.fclass w) := fun _ => rfl
theorem fexp2 : ∀ w, Statement (.fexp2 w) := fun _ => rfl
theorem flog2 : ∀ w, Statement (.flog2 w) := fun _ => rfl
theorem frcp : ∀ w, Statement (.frcp w) := fun _ => rfl
theorem frsq : ∀ w, Statement (.frsq w) := fun _ => rfl
theorem fsqrt : ∀ w, Statement (.fsqrt w) := fun _ => rfl
theorem fsin : ∀ w, Statement (.fsin w) := fun _ => rfl
theorem fcos : ∀ w, Statement (.fcos w) := fun _ => rfl
theorem ftanh : ∀ w, Statement (.ftanh w) := fun _ => rfl
theorem frnd : ∀ w, Statement (.frnd w) := fun _ => rfl
theorem fscl : ∀ w, Statement (.fscl w) := fun _ => rfl
theorem fexpo : ∀ w, Statement (.fexpo w) := fun _ => rfl
theorem fdot : ∀ w, Statement (.fdot w) := fun _ => rfl
theorem mxdot : ∀ w, Statement (.mxdot w) := fun _ => rfl
theorem idot : ∀ w, Statement (.idot w) := fun _ => rfl
theorem iadd : ∀ w, Statement (.iadd w) := fun _ => rfl
theorem isub : ∀ w, Statement (.isub w) := fun _ => rfl
theorem imul : ∀ w, Statement (.imul w) := fun _ => rfl
theorem imad : ∀ w, Statement (.imad w) := fun _ => rfl
theorem imulh : ∀ w, Statement (.imulh w) := fun _ => rfl
theorem imin : ∀ w, Statement (.imin w) := fun _ => rfl
theorem imax : ∀ w, Statement (.imax w) := fun _ => rfl
theorem icmp : ∀ w, Statement (.icmp w) := fun _ => rfl
theorem iand : ∀ w, Statement (.iand w) := fun _ => rfl
theorem ior : ∀ w, Statement (.ior w) := fun _ => rfl
theorem ixor : ∀ w, Statement (.ixor w) := fun _ => rfl
theorem ishl : ∀ w, Statement (.ishl w) := fun _ => rfl
theorem ishr : ∀ w, Statement (.ishr w) := fun _ => rfl
theorem ipopc : ∀ w, Statement (.ipopc w) := fun _ => rfl
theorem iclz : ∀ w, Statement (.iclz w) := fun _ => rfl
theorem ibfx : ∀ w, Statement (.ibfx w) := fun _ => rfl
theorem cvt : ∀ w, Statement (.cvt w) := fun _ => rfl
theorem pack : ∀ w, Statement (.pack w) := fun _ => rfl
theorem unpk : ∀ w, Statement (.unpk w) := fun _ => rfl
theorem rqnt : ∀ w, Statement (.rqnt w) := fun _ => rfl
theorem dqnt : ∀ w, Statement (.dqnt w) := fun _ => rfl
theorem qmov : ∀ w, Statement (.qmov w) := fun _ => rfl
theorem qset : ∀ w, Statement (.qset w) := fun _ => rfl
theorem qget : ∀ w, Statement (.qget w) := fun _ => rfl
theorem plop : ∀ w, Statement (.plop w) := fun _ => rfl
theorem pset : ∀ w, Statement (.pset w) := fun _ => rfl
theorem pmov : ∀ w, Statement (.pmov w) := fun _ => rfl
theorem mov : ∀ w, Statement (.mov w) := fun _ => rfl
theorem movx : ∀ w, Statement (.movx w) := fun _ => rfl
theorem selLane : ∀ w, Statement (.selLane w) := fun _ => rfl
theorem shfl : ∀ w, Statement (.shfl w) := fun _ => rfl
theorem vote : ∀ w, Statement (.vote w) := fun _ => rfl
theorem bcast : ∀ w, Statement (.bcast w) := fun _ => rfl
theorem scan : ∀ w, Statement (.scan w) := fun _ => rfl
theorem redux : ∀ w, Statement (.redux w) := fun _ => rfl
theorem reduxPair : ∀ w, Statement (.reduxPair w) := fun _ => rfl
theorem bra : ∀ w, Statement (.bra w) := fun _ => rfl
theorem stop : ∀ w, Statement (.stop w) := fun _ => rfl
theorem tget : ∀ w, Statement (.tget w) := fun _ => rfl
theorem tset : ∀ w, Statement (.tset w) := fun _ => rfl
theorem tclr : ∀ w, Statement (.tclr w) := fun _ => rfl
theorem tswp : ∀ w, Statement (.tswp w) := fun _ => rfl
theorem ld : ∀ w, Statement (.ld w) := fun _ => rfl
theorem st : ∀ w, Statement (.st w) := fun _ => rfl
theorem ldx : ∀ w, Statement (.ldx w) := fun _ => rfl
theorem stx : ∀ w, Statement (.stx w) := fun _ => rfl
theorem lds : ∀ w, Statement (.lds w) := fun _ => rfl
theorem sts : ∀ w, Statement (.sts w) := fun _ => rfl
theorem ldq : ∀ w, Statement (.ldq w) := fun _ => rfl
theorem stq : ∀ w, Statement (.stq w) := fun _ => rfl
theorem atom : ∀ w, Statement (.atom w) := fun _ => rfl
theorem acas : ∀ w, Statement (.acas w) := fun _ => rfl
theorem ared : ∀ w, Statement (.ared w) := fun _ => rfl
theorem spawnl : ∀ w, Statement (.spawnl w) := fun _ => rfl
theorem rng : ∀ w, Statement (.rng w) := fun _ => rfl
theorem micEnd : Statement .micEnd := rfl
theorem micLoad : Statement .micLoad := rfl
theorem micXpose : Statement .micXpose := rfl
theorem micConv : ∀ fmt mode, Statement (.micConv fmt mode) := fun _ _ => rfl
theorem micQuant : ∀ fmt b16 nansat mode, Statement (.micQuant fmt b16 nansat mode) := fun _ _ _ _ => rfl
theorem micPush : ∀ ring, Statement (.micPush ring) := fun _ => rfl
theorem micStep : ∀ coord delta, Statement (.micStep coord delta) := fun _ _ => rfl
theorem micSetc : ∀ ctr n, Statement (.micSetc ctr n) := fun _ _ => rfl
theorem micLoop : ∀ ctr target, Statement (.micLoop ctr target) := fun _ _ => rfl
theorem micZero : Statement .micZero := rfl
theorem clauseStart : ∀ key split, Statement (.clauseStart key split) := fun _ _ => rfl
theorem laneProgramStart : ∀ key, Statement (.laneProgramStart key) := fun _ => rfl
theorem splitArrival : ∀ key split, Statement (.splitArrival key split) := fun _ _ => rfl
theorem laneMemoryComplete : ∀ key id, Statement (.laneMemoryComplete key id) := fun _ _ => rfl
theorem rngComplete : ∀ key id, Statement (.rngComplete key id) := fun _ _ => rfl
theorem pendingChildPlacement : ∀ core, Statement (.pendingChildPlacement core) := fun _ => rfl
theorem continuationResume : ∀ core, Statement (.continuationResume core) := fun _ => rfl
theorem continuationEviction : ∀ core, Statement (.continuationEviction core) := fun _ => rfl
theorem gridEnqueue : ∀ grid, Statement (.gridEnqueue grid) := fun _ => rfl
theorem gridEligible : ∀ grid, Statement (.gridEligible grid) := fun _ => rfl
theorem teamPlacement : ∀ die, Statement (.teamPlacement die) := fun _ => rfl
theorem sramReclaim : ∀ core, Statement (.sramReclaim core) := fun _ => rfl
theorem gridComplete : ∀ grid, Statement (.gridComplete grid) := fun _ => rfl
theorem matrixPassStart : ∀ team, Statement (.matrixPassStart team) := fun _ => rfl
theorem matrixCommandComplete : ∀ team, Statement (.matrixCommandComplete team) := fun _ => rfl
theorem transitCommandStart : ∀ core, Statement (.transitCommandStart core) := fun _ => rfl
theorem transitCopyComplete : ∀ core id, Statement (.transitCopyComplete core id) := fun _ _ => rfl
theorem gaccComplete : ∀ core id, Statement (.gaccComplete core id) := fun _ _ => rfl
theorem collectiveComplete : ∀ id others, Statement (.collectiveComplete id others) := fun _ _ => rfl
theorem coelostatProgramStart : ∀ core, Statement (.coelostatProgramStart core) := fun _ => rfl
theorem strmComplete : ∀ core, Statement (.strmComplete core) := fun _ => rfl
theorem ringPushComplete : ∀ team id, Statement (.ringPushComplete team id) := fun _ _ => rfl
theorem ringPopComplete : ∀ team id, Statement (.ringPopComplete team id) := fun _ _ => rfl
theorem trapEntry : ∀ key, Statement (.trapEntry key) := fun _ => rfl
theorem userInterruptDelivery : ∀ key, Statement (.userInterruptDelivery key) := fun _ => rfl
theorem preempt : ∀ grid team, Statement (.preempt grid team) := fun _ _ => rfl
theorem dispatcherPreemptionRequest : ∀ die, Statement (.dispatcherPreemptionRequest die) := fun _ => rfl
theorem teamSave : ∀ team, Statement (.teamSave team) := fun _ => rfl
theorem preemptionDeadline : ∀ team, Statement (.preemptionDeadline team) := fun _ => rfl
theorem teamRestore : ∀ team, Statement (.teamRestore team) := fun _ => rfl
theorem machineCheck : ∀ team, Statement (.machineCheck team) := fun _ => rfl
theorem dieLinkFailure : ∀ a b touched, Statement (.dieLinkFailure a b touched) := fun _ _ _ => rfl
theorem pageWalk : ∀ die va write, Statement (.pageWalk die va write) := fun _ _ _ => rfl
theorem walkMigratingTimeout : ∀ die va, Statement (.walkMigratingTimeout die va) := fun _ _ => rfl
theorem faultRecord : ∀ die, Statement (.faultRecord die) := fun _ => rfl
theorem pageServiceComplete : ∀ die seq outcome code writes copies, Statement (.pageServiceComplete die seq outcome code writes copies) := fun _ _ _ _ _ _ => rfl
theorem sideLogReplay : ∀ core entry, Statement (.sideLogReplay core entry) := fun _ _ => rfl
theorem leaseExpiry : ∀ core line, Statement (.leaseExpiry core line) := fun _ _ => rfl
theorem orreryRequest : ∀ die requester line write, Statement (.orreryRequest die requester line write) := fun _ _ _ _ => rfl
theorem regionMerge : ∀ die line, Statement (.regionMerge die line) := fun _ _ => rfl
theorem lineWriteBack : ∀ line, Statement (.lineWriteBack line) := fun _ => rfl
theorem incarnationChange : ∀ device, Statement (.incarnationChange device) := fun _ => rfl
theorem fabricDeviceUp : ∀ device, Statement (.fabricDeviceUp device) := fun _ => rfl
theorem fabricPathTimeout : ∀ device, Statement (.fabricPathTimeout device) := fun _ => rfl
theorem hostCompletionTimeout : ∀ key id, Statement (.hostCompletionTimeout key id) := fun _ _ => rfl
theorem hostWrite : ∀ offset data, Statement (.hostWrite offset data) := fun _ _ => rfl
theorem hostRead : ∀ offset bytes, Statement (.hostRead offset bytes) := fun _ _ => rfl
theorem hostAtomicop : ∀ offset op size operand comparand, Statement (.hostAtomicop offset op size operand comparand) := fun _ _ _ _ _ => rfl
theorem ualinkIncomingAccess : ∀ device address access, Statement (.ualinkIncomingAccess device address access) := fun _ _ _ => rfl
theorem mbox : ∀ value, Statement (.mbox value) := fun _ => rfl
theorem dispatchRequest : Statement .dispatchRequest := rfl
theorem initDone : ∀ value, Statement (.initDone value) := fun _ => rfl
theorem svcdone : ∀ value, Statement (.svcdone value) := fun _ => rfl
theorem fgtdata : ∀ value, Statement (.fgtdata value) := fun _ => rfl
theorem checkpoint : Statement .checkpoint := rfl
theorem restore : Statement .restore := rfl
theorem checkpointEnd : Statement .checkpointEnd := rfl
theorem controlRegisterWrite : ∀ offset value, Statement (.controlRegisterWrite offset value) := fun _ _ => rfl
theorem deviceReset : Statement .deviceReset := rfl
theorem thermalTrip : Statement .thermalTrip := rfl
theorem telemetryUpdate : ∀ t, Statement (.telemetryUpdate t) := fun _ => rfl
theorem recover : ∀ value, Statement (.recover value) := fun _ => rfl
theorem fusedMinimumRaise : ∀ value, Statement (.fusedMinimumRaise value) := fun _ => rfl
theorem attestation : Statement .attestation := rfl
theorem coreCycle : Statement .coreCycle := rfl
theorem scalarAccessComplete : ∀ key id, Statement (.scalarAccessComplete key id) := fun _ _ => rfl
theorem correctedError : ∀ die index, Statement (.correctedError die index) := fun _ _ => rfl
theorem linkRetry : ∀ die index, Statement (.linkRetry die index) := fun _ _ => rfl

end Sys2Proof.Laws.WordCount
end

