-- ==== Sys2Proof/Tests/Slice0.lean ====
section
/-! SUPPORT. Small tests: ill-formed terms that each check refuses, words written out from the spec's encodings, and for each
statement a state and operands that meet its hypotheses, clause by clause. -/

namespace Sys2Proof.Tests

open Sys2Proof.Machine Sys2Proof.Safety

set_option Elab.async false

/-! A small state: the placed group of grid 1 issues; page 0x20000 is writable and DC, and page 0x30000 is of host memory,
writable and SC. -/

/-- The state. -/
def st : State :=
  let s := State.reset.withFetchWord 64 0
  let s := writeNat s 0xE010 8 (2 ^ 63 + 2 ^ 62 + 2 ^ 58 + 3 * 4096 + 0x260)
  let s := writeNat s 0xE018 8 (2 ^ 63 + 2 ^ 62 + 2 ^ 59 + (2 * 2 ^ 34 + 4) * 4096 + 0x260)
  { s with cur := ⟨keyOf 1 0, none⟩ }

/-- The issuing group otherwise. -/
def grp (f : Group → Group) : State := st.setGroup (f st.group)
/-- Its grid otherwise. -/
def grd (f : Grid → Grid) : State := st.putGrid 1 (f (st.gridAt 1))
/-- Its team otherwise, in the matrix role. -/
def tem (f : Team → Team) : State := (grp fun g => { g with role := .matrix }).putTeam (keyOf 1 0) (f st.team)
/-- It issues as split 0, in a clause of one instruction. -/
def lan (f : Group → Group) : State :=
  let s := State.reset.withFetchWord 96 0
  let s := { s with mem := st.mem, ctl := st.ctl, cur := ⟨keyOf 1 0, some 0⟩ }
  s.setGroup (f s.group)

/-- A pair is its first part and the rest. -/
theorem pair_eq {α β : Type} {x : α × β} {a : α} (h : x.1 = a) : x = (a, x.2) := by cases x; simp_all

/-! Every statement's hypotheses. -/

theorem test_scalarArithmetic : Free st [0, 0, 0] ∧ Free st [63, 63, 63] := ⟨rfl, rfl⟩

theorem test_logicAndShift : Free st [63, 0, 1] ∧ (Instr.shl ⟨63, 0, 1, 1⟩).wf = true ∧ (Instr.shr ⟨63, 0, 1, 3⟩).wf = true ∧
    (Instr.rotl ⟨63, 0, 1, 0⟩).wf = true := by decide +kernel

theorem test_bitFieldAndImmediate : Free st [63, 0, 1] ∧ (Instr.shli ⟨63, 0, 31, 1⟩).wf = true ∧
    (Instr.shri ⟨63, 0, 63, 0⟩).wf = true := by decide +kernel

theorem test_compareAndSelect : Free st [63, 0, 1] ∧ (8 : BitVec 7).toNat ≥ 8 ∧ st.group.flagSet 0 = false ∧
    (grp fun g => { g with flagSoft := 0x800 }).group.flagSet (19 - 8) = true ∧ (15 : BitVec 7).toNat ∈ [6, 7, 14, 15] := by
  decide +kernel

theorem test_controlTransfer : Free st [0] ∧ Free st [63, 0] ∧ (6 : BitVec 5).toNat ≤ 6 ∧ 8 ≤ (8 : BitVec 5).toNat ∧
    (19 : BitVec 5).toNat ≤ 19 ∧ (20 : BitVec 5).toNat ≥ 20 ∧ (2 : BitVec 32).toNat % 4 ≠ 0 := by decide +kernel

/-- LRUN with a free place, LRUN with four programs queued, LSYNC in user and handler state, LRUN beyond 2^32 and misaligned. -/
theorem test_laneProgram :
    (Free st [0] ∧ ((st.group.readS 0).toNat + (0x7FFFFFFC : BitVec 32).toInt) % 2 ^ 56 < 2 ^ 32 ∧
      ((st.group.readS 0).toNat + (0x7FFFFFFC : BitVec 32).toInt) % 2 ^ 56 % 4 = 0 ∧ ¬4 ≤ st.group.laneQ.length) ∧
    4 ≤ (grp fun g => { g with laneQ := List.replicate 4 ⟨0, 0, 0⟩ }).group.laneQ.length ∧
    (st.group.laneQ = [] ∧ st.group.laneOps = []) ∧
    (let g := (grp fun g => { g with handler := true }).group
     g.handler = true ∧ g.handlerQ = [] ∧ ∀ o ∈ g.laneOps, o.split ≠ 4) ∧
    (∀ v ∈ [0xFFFFFFFF, 2], let s := grp fun g => g.writeS 1 (BitVec.ofNat 64 v)
     let l := ((s.group.readS 1).toNat + (1 : BitVec 32).toInt) % 2 ^ 56
     Free s [1] ∧ s.cur.lane = none ∧ TrapsToHandler s ∧ (2 ^ 32 ≤ l ∨ l % 4 ≠ 0)) := by decide +kernel

/-- The group in handler state, in user mode, or with values of its own. -/
def hnd : State := grp fun g => { g with handler := true }
/-- The same in user mode, outside handler state. -/
def usr : State := grp fun g => { g with priv := false }

/-- FWAIT: every flag clear, one of them set, all of them set. -/
theorem test_flags : Free st [] ∧ (0xFFF : BitVec 12) ≠ 0 ∧
    (∀ n, n < 12 → (0xFFF : BitVec 12).getLsbD n = true → st.group.flagSet n = false) ∧
    (let g := (grp fun g => { g with flagSoft := 0x800 }).group
     (∃ n, n < 12 ∧ (0xFFF : BitVec 12).getLsbD n = true ∧ g.flagSet n = true) ∧
      ∃ n, n < 12 ∧ (0xFFF : BitVec 12).getLsbD n = true ∧ g.flagSet n = false) ∧
    (let g := (grp fun g => { g with flagCount := [(0, 64)], flagSoft := 0xFFE }).group
     ∀ n, n < 12 → (0xFFF : BitVec 12).getLsbD n = true → g.flagSet n = true) := by decide +kernel

/-- CSR accesses that are allowed. -/
theorem test_csr_open : r131open st.group 0x39 ∧ r131open hnd.group 0x47 ∧ 0x47 ∈ r99writable ++ r99readOnly ∧
    ¬r131bad 0x47 0 ∧ 0 ∈ r99writable ∧ ¬r131bad 0 6 ∧ ¬r131bad 5 0xF ∧ Free st [63] ∧ Free st [63, 0] := by decide +kernel

/-- A number that is none, a system register in user mode, a K register outside handler state, a read-only register. -/
theorem test_csr_trap :
    (Free st [0, 0] ∧ st.cur.lane = none ∧ TrapsToHandler st ∧ 0x7F ∉ r99writable ++ r99readOnly) ∧
    (TrapsToHandler usr ∧ 0x38 ∈ r99writable ++ r99readOnly ∧ ¬r131open usr.group 0x38 ∧ ¬r131open st.group 0x40) ∧
    (r131open st.group 1 ∧ 1 ∈ r99readOnly) := by decide +kernel

/-- Values that field maps forbid. -/
theorem test_csr_bad : r131bad 0 0 ∧ r131bad 0 7 ∧ r131bad 3 127 ∧ r131bad 5 3 ∧ r131bad 5 517 := by decide +kernel

theorem test_trapEntry : TrapsToHandler st ∧ st.cur.lane = none ∧ Free st [] ∧ TrapsToHandler (lan id) ∧
    (lan id).cur.lane = some 0 := by decide +kernel

/-- A trap in handler state, TRET.abort, the instructions forbidden there, and a grid without a trap vector. -/
theorem test_trapEnds :
    (hnd.group.handler = true ∧ hnd.group.handlerQ = [] ∧ hnd.group.hsplit.valid = false ∧ hnd.group.scalarOps = [] ∧
      hnd.cur.lane = none ∧ Free hnd [0, 0, 0]) ∧
    (let s := grd fun g => { g with record := { g.record with trapVec := 0 } }
     s.group.handler = false ∧ s.grid.record.trapVec = 0) := by decide +kernel

/-- The handler of a group of 16 registers whose record in its save area lies in page 0x20000. -/
def prk : State :=
  let s := grd fun x => { x with record := { x.record with savePool := 2 ^ 56 - 487424 } }
  s.setGroup { s.group with handler := true, alloc := 16 }

/-- A return to the scalar stream, to a split at its own position and at another header, for a save, and from an interrupt. -/
theorem test_trapReturn :
    (Free hnd [] ∧ hnd.group.handler = true ∧ hnd.group.handlerQ = [] ∧ hnd.group.hsplit.valid = false ∧
      hnd.group.scalarOps = [] ∧ hnd.group.hidden.split = none) ∧
    (let s := prk
     Free s [] ∧ s.group.handler = true ∧ s.group.handlerQ = [] ∧ s.group.hsplit.valid = false ∧ s.group.scalarOps = [] ∧
      (∀ o ∈ s.group.laneOps, o.write = true ∨ o.todo ≠ []) ∧
      (∀ c ∈ (s.teamAt s.group.teamKey).engine.queue, c.key = s.group.key → c.op = .mdrain → c.word.split = false) ∧
      s.group.frame.bind (·.evicted) = none ∧
      (((areaMap (s.setGroup (s.group.leaveTrap s.grid).park) s.group.teamKey).records.find? fun r => r.2.key == s.cur.key).any
        fun r => (areaPages s s.group.die true (areaAddrs ((saveBase s s.group.teamKey + r.1) % 2 ^ 56) (recordBytes r.2))).2.1 ==
          none) = true) ∧
    (let s := grp fun g => { g with handler := true, hidden := { g.hidden with split := some 3, entry := 0 } }
     Free s [] ∧ s.group.handler = true ∧ s.group.hidden.split = some 3 ∧ s.group.trappc = s.group.hidden.entry ∧
      s.group.splits.length = 4) ∧
    (let s := grp fun g => { g with handler := true, trappc := 0x10010, hidden := { g.hidden with split := some 0 } }
     Free s [] ∧ s.group.handler = true ∧ s.group.hidden.split = some 0 ∧ s.group.trappc ≠ s.group.hidden.entry) ∧
    (let s := grp fun g => { g with intState := true }
     Free s [] ∧ s.group.intState = true) := by decide +kernel

theorem test_privilege : Free st [63, 0] ∧ st.cur.lane = none ∧ TrapsToHandler st ∧ usr.group.priv = false ∧
    TrapsToHandler usr ∧ st.group.intState = false := by decide +kernel

theorem test_apertures :
    ((14 : BitVec 6).toNat = 15 → st.group.handler = true) ∧ (14 : BitVec 6).toNat < 16 ∧ Free st [0, 63] ∧
    ((15 : BitVec 6).toNat = 15 → hnd.group.handler = true) ∧ Free hnd [0, 63] ∧ 16 ≤ (16 : BitVec 6).toNat ∧
    (st.cur.lane = none ∧ TrapsToHandler st ∧ (15 : BitVec 6).toNat = 15) := by decide +kernel

/-- S1 holds this address. -/
def adr (v : Word) : State := grp fun g => g.writeS 1 v
/-- The same, with a scratchpad of 4 KiB. -/
def pad (v : Word) : State := (adr v).putTeam (keyOf 1 0) { st.team with w := 4096 }

/-- SLD of the scratchpad's last 8 bytes, and of the last 8 bytes of a page of memory. -/
theorem test_scalarLoad :
    (let s := pad 0x00FFFFFF00000FF8
     Free s [63, 1] ∧ (0x00FFFFFF00000FF8 : Nat) % 2 ^ 3 = 0 ∧ InWindow 0x00FFFFFF00000FF8 ∧
      (0x00FFFFFF00000FF8 : Nat) % 2 ^ 32 + 8 ≤ s.team.w) ∧
    (let s := adr 0x2FFF8
     Free s [63, 1] ∧ ¬InWindow 0x2FFF8 ∧ NoLog s ∧ ∃ ps s', Reaches s 0x2FFF8 8 .load ps s') :=
  ⟨by decide +kernel, by decide +kernel, by decide +kernel, by decide +kernel, [⟨0x3FFF8, 8, 0xC400000000003260⟩], _,
    pair_eq (by decide +kernel)⟩

/-- SST to the scratchpad, to memory, and to a page that needs service. -/
theorem test_scalarStore :
    (let s := pad 0x00FFFFFF00000FFF
     Free s [63, 1] ∧ (0x00FFFFFF00000FFF : Nat) % 2 ^ 0 = 0 ∧ InWindow 0x00FFFFFF00000FFF ∧
      (0x00FFFFFF00000FFF : Nat) % 2 ^ 32 + 1 ≤ s.team.w ∧ s.team.regions = []) ∧
    (let s := adr 0x20000
     let k : AccKind := .store (List.replicate 8 0)
     Free s [63, 1] ∧ ¬InWindow 0x20000 ∧ NoLog s ∧
      ∃ ps s', checkAcc s s.group.core ⟨0, 0, 0x20000, 8, k, false⟩ = (.ok ps, s') ∧ refusedPieces s' k ps = false) ∧
    (let s := adr 0x50000
     let k : AccKind := .store (List.replicate 8 0)
     Free s [63, 1] ∧ ¬InWindow 0x50000 ∧ NoLog s ∧ ∃ kd level base size s',
      checkAcc s s.group.core ⟨0, 0, 0x50000, 8, k, false⟩ = (.service kd level base size, s') ∧ deviceTyped s' 0x50000 = false) :=
  ⟨by decide +kernel,
    ⟨by decide +kernel, by decide +kernel, by decide +kernel, [⟨0x30000, 8, 0xC400000000003260⟩], _,
      pair_eq (by decide +kernel), by decide +kernel⟩,
    ⟨by decide +kernel, by decide +kernel, by decide +kernel, 1, 3, 0x50000, 0x10000, _, pair_eq (by decide +kernel),
      by decide +kernel⟩⟩

/-- SATOM of 4 bytes, SCAS of 8 and of 16 bytes, at the end of a page. -/
theorem test_scalarAtomics :
    (let s := adr 0x2FFFC
     ¬InWindow 0x2FFFC ∧ NoLog s ∧ Free s [63, 1, 0] ∧
      ∃ ps s', Reaches s 0x2FFFC 4 (.rmw (satomOp 0x40) (s.group.readS 0).toNat 0) ps s') ∧
    (let s := adr 0x2FFF8
     ¬InWindow 0x2FFF8 ∧ NoLog s ∧ Free s [63, 1, 0] ∧ ∃ ps s', Reaches s 0x2FFF8 8 (.rmw .cas 0 0) ps s') ∧
    (let s := adr 0x2FFF0
     ¬InWindow 0x2FFF0 ∧ NoLog s ∧ Free s [62, 1, 0, 63, 1] ∧
      ∃ ps s', Reaches s 0x2FFF0 16 (.rmw .cas (0x2FFF0 * 2 ^ 64) 0) ps s') :=
  ⟨⟨by decide +kernel, by decide +kernel, by decide +kernel, [⟨0x3FFFC, 4, 0xC400000000003260⟩], _, pair_eq (by decide +kernel)⟩,
    ⟨by decide +kernel, by decide +kernel, by decide +kernel, [⟨0x3FFF8, 8, 0xC400000000003260⟩], _, pair_eq (by decide +kernel)⟩,
    ⟨by decide +kernel, by decide +kernel, by decide +kernel, [⟨0x3FFF0, 16, 0xC400000000003260⟩], _,
      pair_eq (by decide +kernel)⟩⟩

theorem test_atomicResults : 0 < 4 := by decide

/-- S1 holds this address, in whose page no atomic may act: it is writable, and of a type that takes none. -/
def cad (v : Word) : State := writeNat (adr v) 0xE008 8 (2 ^ 63 + 2 ^ 62 + 2 ^ 56 + 2 * 4096 + 0x260)

/-- A misaligned address, one past the scratchpad, a store to a compressed region, pages that refuse, an atomic that the system home does not take and
of the window, and a device that is lost. -/
theorem test_memoryTraps :
    (st.cur.lane = none ∧ TrapsToHandler (pad 1) ∧ Free (pad 1) [63, 1] ∧ (1 : Nat) % 2 ^ 1 ≠ 0) ∧
    (let s := pad 0x00FFFFFF00001000
     Free s [63, 1] ∧ InWindow 0x00FFFFFF00001000 ∧ s.team.w < (0x00FFFFFF00001000 : Nat) % 2 ^ 32 + 1) ∧
    (let s := (adr 0x00FFFFFF00000FFF).putTeam (keyOf 1 0) { st.team with w := 4096, regions := [(0, 1)] }
     (0x00FFFFFF00000FFF : Nat) % 2 ^ 32 + 1 ≤ s.team.w ∧ s.team.compressed ((0x00FFFFFF00000FFF : Nat) % 2 ^ 32) 1 = true) ∧
    (NoLog (adr 0x10000) ∧ ¬InWindow 0x10000 ∧ ∃ s', Refused (adr 0x10000) 0x10000 8 (.store (Bits.leBytes 8 0)) .prot s') ∧
    (∃ s', Refused (adr 0x30000) 0x30000 8 (.rmw (satomOp 2) 0 0) .atomclass s') ∧
    (∃ s', Refused (adr 0x10000) 0x10000 8 (.rmw .addI 0 0) .prot s') ∧
    (Free (adr 0x20004) [0, 1, 63] ∧ (0x20004 : Nat) % 8 ≠ 0 ∧ InWindow 0x00FFFFFF00000000) ∧
    (Free (adr 0x20008) [62, 1, 0, 63, 1] ∧ (0x20008 : Nat) % 16 ≠ 0 ∧ (0x00FFFFFF00000000 : Nat) % 16 = 0) ∧
    (∃ s', Refused (adr 0x10000) 0x10000 16 (.rmw .cas 0 0) .prot s') ∧
    NoLog (cad 0x10000) ∧ ∃ s', Refused (cad 0x10000) 0x10000 16 (.rmw .cas 0 0) .atomclass s' :=
  ⟨by decide +kernel, by decide +kernel, by decide +kernel,
    ⟨by decide +kernel, by decide +kernel, _, pair_eq (by decide +kernel)⟩, ⟨_, pair_eq (by decide +kernel)⟩,
    ⟨_, pair_eq (by decide +kernel)⟩, by decide +kernel, by decide +kernel, ⟨_, pair_eq (by decide +kernel)⟩, by decide +kernel,
    ⟨_, pair_eq (by decide +kernel)⟩⟩

/-- Page 0x40000 lies on a fabric device, which is lost. -/
def fab (d : Nat) : State := writeNat st 0xE020 8 (2 ^ 63 + 2 ^ 62 + 2 ^ 61 + (3 * 2 ^ 34 + d * 2 ^ 24) * 4096 + 0x260)

/-- A device other than this one. -/
def other : Nat := if Config.deviceNumber.toNat = 5 then 6 else 5

theorem other_ne : other = 5 ∧ ¬Config.deviceNumber.toNat = 5 ∨ other = 6 ∧ ¬Config.deviceNumber.toNat = 6 := by
  unfold other
  split <;> omega

/-- The state in which a walk that starts so looks at its leaf: its entries have been read, and its nodes are cached. -/
def walkedFrom (s : State) (die va : Nat) (start : Nat × List Nat) : State :=
  let nodes := walkNodes s va start.1 start.2
  (walkReads va start nodes).foldl (fun s a => touchFrom s die a false) (cacheNodes s die nodes)
/-- The same, where the walk starts. -/
def walked (s : State) (die va : Nat) : State := walkedFrom s die va (walkStart s die va)

/-- What a translation answers when nothing is cached and the walk finds a leaf. -/
theorem translateCore_walk {s : State} {core va level at_ : Nat} {e : Word} {w : Bool} (h0 : tlbIn (s.coreAt core).tlb va = none)
    (h1 : tlbFind (s.dieAt (dieOfCore core)) va = none) (h2 : walkBy s (dieOfCore core) va = .leaf e at_ level) :
    (translateCore s core va w).1 = leafAnswer (walked s (dieOfCore core) va)
      (markedLeaf e w) (va / pageSize level * pageSize level) (pageSize level) va w := by
  unfold translateCore Machine.translate translateByWalk walked walkedFrom
  rw [h0, h1]
  simp only [h2]

/-- An access of a page whose translation meets a lost device is refused. -/
theorem lost_acc {s : State} {core lane va n d : Nat} {k : AccKind} (hv : va % 2 ^ 56 = va) (hf : firstPart va n = n)
    (h : (translateCore s core va k.writes).1 = .lost d) : ∃ s', checkAcc s core ⟨lane, 0, va, n, k, true⟩ = (.lost d, s') := by
  refine ⟨_, pair_eq ?_⟩
  unfold checkAcc xlatRange xlatPart
  dsimp only
  rw [hv, hf, if_pos rfl]
  cases hy : translateCore s core va k.writes with
  | mk a b =>
    rw [hy] at h
    simp only at h
    subst h
    simp only [Verdict.ofXlat]

/-- The leaf of that page. -/
def fabLeaf (d : Nat) : Word := BitVec.ofNat 64 (2 ^ 63 + 2 ^ 62 + 2 ^ 61 + (3 * 2 ^ 34 + d * 2 ^ 24) * 4096 + 0x260)

/-- Its frame is no fault of R234. -/
theorem fab_frame (s : State) (d : Nat) (h : d = 5 ∧ ¬Config.deviceNumber.toNat = 5 ∨ d = 6 ∧ ¬Config.deviceNumber.toNat = 6) :
    frameFault s (leafFrame (fabLeaf d) * 65536) = false := by
  have hs : spaceOf (leafFrame (fabLeaf d) * 65536) = 3 := by rcases h with ⟨rfl, -⟩ | ⟨rfl, -⟩ <;> decide +kernel
  have hf : Bits.field (leafFrame (fabLeaf d) * 65536) 40 10 = d := by
    rcases h with ⟨rfl, -⟩ | ⟨rfl, -⟩ <;> decide +kernel
  simp only [frameFault, hs, hf]
  rcases h with ⟨rfl, h⟩ | ⟨rfl, h⟩ <;> simp <;> omega

/-- It answers that the device is lost. -/
theorem fab_answer (s : State) (d : Nat) (w : Bool) (hd : (s.incAt d).up = false)
    (h : d = 5 ∧ ¬Config.deviceNumber.toNat = 5 ∨ d = 6 ∧ ¬Config.deviceNumber.toNat = 6) :
    leafAnswer s (markedLeaf (fabLeaf d) w) 0x40000 65536 0x40000 w = .lost d := by
  have hf := fab_frame s d h
  have hp : ∀ x, x + (0x40000 - 0x40000) = x := fun x => by omega
  have hr : ∀ b, leafProt s (fabLeaf d) (leafFrame (fabLeaf d) * 65536) b = false := by
    intro b
    unfold leafProt
    rw [hf]
    rcases h with ⟨rfl, -⟩ | ⟨rfl, -⟩ <;> cases b <;> decide +kernel
  have hc : leafCow (fabLeaf d) = false := by rcases h with ⟨rfl, -⟩ | ⟨rfl, -⟩ <;> decide +kernel
  have hs : spaceOf (leafFrame (fabLeaf d) * 65536) = 3 := by rcases h with ⟨rfl, -⟩ | ⟨rfl, -⟩ <;> decide +kernel
  have hdv : deviceOf (leafFrame (fabLeaf d) * 65536) = d := by rcases h with ⟨rfl, -⟩ | ⟨rfl, -⟩ <;> decide +kernel
  have hm : markedLeaf (fabLeaf d) w = fabLeaf d := by rcases h with ⟨rfl, -⟩ | ⟨rfl, -⟩ <;> cases w <;> decide +kernel
  have hx : cutOff s (leafFrame (fabLeaf d) * 65536) = false := by simp [cutOff, hs]
  unfold leafAnswer
  simp only [hm, hp, hr, hc, hs, hdv, hd, hx]
  simp

/-- A load, a store and atomics of a device that is lost. -/
theorem test_lostDevice : ∃ d, NoLog (fab d) ∧ (∃ s', Refused (fab d) 0x40000 8 .load (.lost d) s') ∧
    (∃ s', Refused (fab d) 0x40000 8 (.store (Bits.leBytes 8 0)) (.lost d) s') ∧
    (∃ s', Refused (fab d) 0x40000 8 (.rmw (satomOp 0) 0 0) (.lost d) s') ∧
    ∃ s', Refused (fab d) 0x40000 8 (.rmw .cas 0 0) (.lost d) s' := by
  have h : ∀ k, ∃ s', Refused (fab other) 0x40000 8 k (.lost other) s' := by
    intro k
    refine lost_acc (by decide) (by decide) ((translateCore_walk (level := 3) (at_ := 0xE020) (e := fabLeaf other) ?_ ?_ ?_).trans
      (fab_answer _ _ _ ?_ other_ne)) <;>
      rcases other_ne with ⟨h, -⟩ | ⟨h, -⟩ <;> rw [h] <;> decide +kernel
  exact ⟨other, by rcases other_ne with ⟨h, -⟩ | ⟨h, -⟩ <;> rw [h] <;> decide +kernel, h _, h _, h _, h _⟩

/-- WAITA, PREF, SHPINV and TLBINV; KEYLD of a slot from the last 64 bytes of a page; KEYDEL of a slot at rest. -/
theorem test_maintenance :
    (accessesOut st st.cur.key = false ∧ drained st st.group.core = true ∧ Free st [63] ∧ Free st [0] ∧ st.group.priv = true) ∧
    (let s := grp fun g => { g.writeS 1 0x2FFC0 with keysel := 63 }
     s.group.priv = true ∧ Free s [1] ∧ s.group.keysel.toNat ≠ 0 ∧ (0x2FFC0 : Nat) % 64 = 0 ∧ NoLog s ∧
      ∃ ps s', Reaches s 0x2FFC0 64 .load ps s' ∧ ∀ p ∈ ps, spaceOf p.pa < 2) ∧
    (let s : State := { (grp fun g => { g with keysel := 1 }) with keys := [(1, ⟨0, 0⟩)] }
     s.group.priv = true ∧ Free s [] ∧ s.group.keysel.toNat ≠ 0 ∧
      ∀ k, Assoc.find? s.keys s.group.keysel.toNat = some k → k.flight = 0) := by
  refine ⟨by decide +kernel, ⟨by decide +kernel, by decide +kernel, by decide +kernel, by decide, by decide +kernel,
    [⟨0x3FFC0, 64, 0xC400000000003260⟩], _, pair_eq (by decide +kernel), by decide +kernel⟩,
    by decide +kernel, by decide +kernel, by decide +kernel, ?_⟩
  intro k h
  have : Assoc.find? [(1, (⟨0, 0⟩ : KeySlot))] 1 = some k := h
  simp [Assoc.find?] at this
  rw [← this]

/-- A shape record that no check refuses: BF16, one dimension of 128, at 0x28000. -/
def shp : Nat := 0x28000 + 2 ^ 56 + 2 ^ 184 + 2 ^ 240 + 128 * 2 ^ 256 + 127 * 2 ^ 356

/-- A table of two records at 0x20000, the second of zeros; S1 holds a handle. -/
def tab (h : Word) : State :=
  let s := writeNat (adr h) 0x30000 64 shp
  s.putGrid 1 { st.gridAt 1 with record := { (st.gridAt 1).record with shapes := 2, shapeBase := 0x20000 } }

/-- An index beyond the table, a record that passes, and one that does not. -/
theorem test_shapeLoad :
    (let s := tab (BitVec.ofNat 64 (2 * 2 ^ 48))
     Free s [63, 1] ∧ s.grid.record.shapes ≤ (s.group.readS 1).toNat / 2 ^ 48) ∧
    (let s := tab 0
     (s.group.readS 1).toNat / 2 ^ 48 < s.grid.record.shapes ∧
      ∃ ps s', Reaches s 0x20000 64 .load ps s' ∧
        shapeReason (BitVec.ofNat 512 (Bits.leNat (ps.flatMap fun p => readBytes s' p.pa p.n))) = 0) ∧
    (let s := tab (BitVec.ofNat 64 (2 ^ 48))
     (s.group.readS 1).toNat / 2 ^ 48 < s.grid.record.shapes ∧
      ∃ ps s', Reaches s 0x20040 64 .load ps s' ∧
        shapeReason (BitVec.ofNat 512 (Bits.leNat (ps.flatMap fun p => readBytes s' p.pa p.n))) ≠ 0) :=
  ⟨by decide +kernel,
    ⟨by decide +kernel, [⟨0x30000, 64, 0xC400000000003260⟩], _, pair_eq (by decide +kernel), by decide +kernel⟩,
    ⟨by decide +kernel, [⟨0x30040, 64, 0xC400000000003260⟩], _, pair_eq (by decide +kernel), by decide +kernel⟩⟩

/-- The four classes of counters, each at its last index. -/
theorem test_counters :
    (let s := adr 255
     Free s [63, 1, 0] ∧ NoLog s ∧ (3 : Nat) / 4 = 0 ∧ (s.group.readS 1).toNat < 256) ∧
    (Free st [63, 0, 0] ∧ (1 : BitVec 7).toNat % 4 = 1 ∧ (st.group.readS 0).toNat = 0 ∧
      (Assoc.find? st.grids st.group.grid).isSome = true) ∧
    (let s := adr 7
     Free s [63, 1, 0] ∧ (2 : BitVec 7).toNat % 4 = 2 ∧ (s.group.readS 1).toNat < 8) ∧
    (let s := adr 31
     (3 : BitVec 7).toNat % 4 = 3 ∧ (s.group.readS 1).toNat < 32) ∧
    (let s := adr 8
     (s.group.readS 1).toNat < 9 ∧ s.group.priv = true) ∧
    (let s := grp fun g => (g.writeS 1 7).writeS 2 266
     Free s [1, 2] ∧ (s.group.readS 1).toNat < 8 ∧ (s.group.readS 2).toNat < 512 ∧ (s.group.readS 2).toNat % 256 < 11) := by
  decide +kernel

/-- A status counter in user mode; the first index beyond each class; a configuration beyond its fields, of no event, and of a
counter beyond the last. -/
theorem test_counterTraps :
    (Free usr [0, 1, 2] ∧ usr.cur.lane = none ∧ TrapsToHandler usr ∧ (3 : BitVec 7).toNat % 4 = 3 ∧ usr.group.priv = false) ∧
    (∀ x ∈ [256, 1, 8, 32, 9], let s := adr (BitVec.ofNat 64 x)
      Free s [0, 1, 2] ∧ s.cur.lane = none ∧ TrapsToHandler s ∧ s.group.priv = true ∧ x ≤ (s.group.readS 1).toNat) ∧
    (∀ x ∈ [(0, 512), (0, 11), (8, 0)],
      let s := grp fun g => (g.writeS 1 (BitVec.ofNat 64 x.1)).writeS 2 (BitVec.ofNat 64 x.2)
      let i := (s.group.readS 1).toNat
      let c := (s.group.readS 2).toNat
      Free s [1, 2] ∧ s.cur.lane = none ∧ TrapsToHandler s ∧
        ((512 ≤ c ∨ 11 ≤ c % 256) ∨ (c < 512 ∧ c % 256 < 11 ∧ 8 ≤ i))) := by decide +kernel

/-- S1 names the bottom of a scratchpad of 64 KiB that begins with a structure. -/
def scr (n v : Nat) : State :=
  let s := adr 0x00FFFFFF00000000
  s.putTeam (keyOf 1 0) ({ s.team with w := 65536 }.writeScratch 0 (Bits.leBytes n v))

/-- A launch record of one team of one vector group on die 0, with rounding to nearest. -/
def rec1 : Nat :=
  1 + 2 ^ (8 * 0x2C) + 2 ^ (8 * 0x40) + 16 * 2 ^ (8 * 0x44) + 2 ^ (8 * 0x4C) + 2 ^ (8 * 0x68) + 2 ^ (8 * 0xA0 + 40)

/-- A record that is accepted, and one that is turned away. -/
theorem test_gridLaunch :
    (let s := scr 256 rec1
     let bs := s.team.readScratch 0 256
     let r := recordOfBytes bs
     Free s [63, 1] ∧ s.group.handler = false ∧
      launchReasons s bs (!s.group.priv) (s.gridAt s.group.grid).priority = [] ∧
      gridsWaiting s (queueDie r.dies s.group.die) < 64 ∧ launchHeld s = false ∧ drained s s.group.core = true) ∧
    Room (scr 256 rec1) none true ∧
    Structure (scr 256 rec1) 0x00FFFFFF00000000 256 64 ((scr 256 rec1).team.readScratch 0 256) (scr 256 rec1) ∧
    (let s := scr 256 0
     launchReasons s (s.team.readScratch 0 256) (!s.group.priv) (s.gridAt s.group.grid).priority = 1 :: [2, 7, 8, 11]) :=
  ⟨by decide +kernel, ⟨by decide +kernel, fun _ h => by simp at h, fun _ => by decide +kernel⟩, structure_scratch (by decide) (by decide +kernel) (by decide +kernel), by decide +kernel⟩

/-- Sixteen children, up to the limit of the frame. -/
theorem test_spawn :
    let s := grp fun g => { g with frame := some ⟨none, 65519, false, 0, 0, [], none, none⟩ }
    Free s [63] ∧ s.group.handler = false ∧ s.group.children + 16 ≤ 65535 ∧ s.cur.key = s.group.key ∧
      (Assoc.find? s.groups s.group.key).isSome = true ∧ (Assoc.find? s.grids s.group.grid).isSome = true ∧
      ∀ i, i < 16 → s.grid.children + i ≠ s.group.serial := by decide +kernel

/-- AWAIT, EXIT and YIELD; TBAR that goes on, TBAR that waits for another group, and TBAR of a spawned child. -/
theorem test_joinAndBarrier :
    (Free st [] ∧ st.group.handler = false ∧ st.group.children = 0 ∧ st.group.laneQ = [] ∧ st.group.laneOps = [] ∧
      st.group.busy st = false ∧ st.group.enginesOut st = false ∧ accessesOut st st.group.key = false ∧ st.group.child = false) ∧
    (let here := st.setGroup { st.group with arrived := true }
     ∀ p ∈ participants here st.group.teamKey, st.group.barrier < p.2.barrier ∨ (p.2.barrier = st.group.barrier ∧ p.2.arrived = true)) ∧
    (let s := st.putGroup (keyOf 1 1) { st.group with gid := 1 }
     let here := s.setGroup { s.group with arrived := true }
     ¬∀ p ∈ participants here s.group.teamKey, s.group.barrier < p.2.barrier ∨ (p.2.barrier = s.group.barrier ∧ p.2.arrived = true)) ∧
    (let s := grp fun g => { g with child := true }
     Free s [] ∧ s.group.handler = false ∧ s.group.child = true ∧ s.cur.lane = none ∧ TrapsToHandler s) := by
  decide +kernel

/-- Room for one more operation on the last flag. -/
theorem room_last {s : State} {b : Bool} (h : s.cur.key = s.group.key ∧ s.group.flagCnt 11 < 64 ∧ s.group.children < 65535) :
    Room s (some 11) b :=
  ⟨h.1, fun n hn => by obtain rfl : 11 = n := by simpa using hn
                       exact h.2.1, fun _ => h.2.2⟩

/-- A ring of two slots of 64 bytes, the first full, in a team with a scratchpad of 4 KiB. -/
def rng : State :=
  let s := grp fun g => (g.writeS 1 4032).writeS 2 64
  s.putTeam (keyOf 1 0) { s.team with w := 4096, rings := [(15, ⟨2, 64, 1, 0, 1, 0, [], [], [], 0⟩)] }

/-- RPUSH and RPOP of a whole slot at the scratchpad's end, RWAIT for both ends. -/
theorem test_ringInstructions :
    (Free rng [1, 2] ∧ rng.team.ring 15 = some ⟨2, 64, 1, 0, 1, 0, [], [], [], 0⟩ ∧ (rng.group.tanw + 1) * 64 ≤ 64 ∧ (64 : Nat) % 16 = 0 ∧
      (4032 : Nat) % 16 = 0 ∧ 4032 + 64 ≤ rng.team.w ∧ rng.team.compressed 4032 64 = false) ∧
    Room rng (some 11) false ∧
    (Free rng [63] ∧ (⟨2, 64, 1, 0, 1, 0, [], [], [], 0⟩ : Ring).count true ≠ 0 ∧ (⟨2, 64, 1, 0, 1, 0, [], [], [], 0⟩ : Ring).count false ≠ 0) := by
  exact ⟨by decide +kernel, room_last (by decide +kernel), by decide +kernel⟩

/-- A copy descriptor: one row of 16 BF16 elements from scratchpad offset 0 to 256. -/
def cpd : Nat :=
  256 * 2 ^ (8 * 8) + 16 * 2 ^ (8 * 0x10) + 2 ^ (8 * 0x14) + 2 ^ (8 * 0x28) + 2 ^ (8 * 0x29) + 2 ^ (8 * 0x2A) + 2 ^ (8 * 0x2B)

/-- The copy group, with a full room of 31 commands in its core's queue and 63 outstanding operations on its last flag. -/
def cpg : State :=
  let s := scr 64 cpd
  let s := s.setGroup { s.group with role := .copy, flagCount := [(11, 63)] }
  s.putCore s.group.core { s.coreAt s.group.core with
    transit := List.replicate 31 (newTransit s s.group (.copy 0) none none none) }

theorem test_copyAccepted :
    (Free cpg [1] ∧ cpg.group.role = .copy ∧ (cpg.coreAt cpg.group.core).transit.length < 32) ∧
    (let d := BitVec.ofNat 512 (Bits.leNat (cpg.team.readScratch 0 64))
     (copyEnd d 0).kind ≠ 3 ∧ (copyEnd d 1).kind ≠ 3 ∧ copyChecks d (cpg.teamAt cpg.group.teamKey) cpg.group.tanw none none = .pass) ∧
    Structure cpg 0x00FFFFFF00000000 64 64 (cpg.team.readScratch 0 64) cpg ∧ Room cpg (some 11) true ∧ drained cpg cpg.group.core = true ∧
    Samples cpg cpg.group false 0 none cpg :=
  ⟨by decide +kernel, by decide +kernel, structure_scratch (by decide) (by decide +kernel) (by decide +kernel),
    room_last (by decide +kernel), by decide +kernel, samples_unneeded _ _ _⟩

theorem test_gaccAccepted :
    let s := (tab 0).putTeam (keyOf 1 0) { (tab 0).team with w := 65536 }
    (Free s [2, 1] ∧ (s.coreAt s.group.core).transit.length < 32) ∧ Room s (some 11) true ∧
    gaccChecks s.group (s.teamAt s.group.teamKey) none 0 (shapeUsable (some (BitVec.ofNat 512 shp)) 0 false) = .pass ∧
    ∃ r s1, Samples s s.group true 0 (some r) s1 ∧ r = BitVec.ofNat 512 shp ∧ (s1.teamAt s.group.teamKey) = s.team ∧
      drained s1 s.group.core = true := by
  refine ⟨by decide +kernel, room_last (by decide +kernel), by decide +kernel, _, _, samples_uncached (ps := [⟨0x30000, 64, 0xC400000000003260⟩]) (by decide +kernel)
    (by decide +kernel) (by decide +kernel) (pair_eq (by decide +kernel)) (by decide +kernel), by decide +kernel, by decide +kernel,
    by decide +kernel⟩

/-- A descriptor of an all-reduce of one element. -/
def cld : Nat := 16 * 2 ^ (8 * 8) + 2 ^ (8 * 0x10)

/-- A state with that descriptor, a fabric group of this device alone, whose member list stands at 0x50000, and the entry of
the fabric table that names it. -/
def clg : State :=
  { scr 64 cld with mem := (writeNat st 0x50000 2 Config.deviceNumber.toNat).mem, fabric := [(0, 1 + 2 + 0x28000 * 2 ^ 24)] }

theorem fabricGroup_alone (s : State) (h : readNat s 0x50000 2 = Config.deviceNumber.toNat) :
    fabricGroup s (1 + 2 + 0x28000 * 2 ^ 24) = some ⟨0, [Config.deviceNumber.toNat]⟩ := by
  have hn : Bits.field (1 + 2 + 0x28000 * 2 ^ 24 : Word).toNat 1 11 = 1 := by decide
  have hr : Bits.field (1 + 2 + 0x28000 * 2 ^ 24 : Word).toNat 12 10 = 0 := by decide
  have ha : 2 * Bits.field (1 + 2 + 0x28000 * 2 ^ 24 : Word).toNat 24 40 = 0x50000 := by decide
  have hb : (1 + 2 + 0x28000 * 2 ^ 24 : Word).getLsbD 0 = true := by decide
  have he : ¬hbmEnd < 0x50002 := by decide
  have := Config.deviceNumber.isLt
  simp only [fabricGroup, hn, hr, ha, hb, List.range_one, List.map_cons, List.map_nil, h]
  simp [he]
  omega

theorem collReasons_alone (s : State) (h : readNat s 0x50000 2 = Config.deviceNumber.toNat)
    (hf : Assoc.get 0 s.fabric 0 = 1 + 2 + 0x28000 * 2 ^ 24) : collReasons s (collDesc (BitVec.ofNat 512 cld)) = [] := by
  have hd : collDesc (BitVec.ofNat 512 cld) = ⟨0, 16, 1, 0, 0, 0, 0, false, 0, false⟩ := by decide +kernel
  simp only [collReasons, hd, hf, fabricGroup_alone s h]
  simp

theorem readNat_congr {s t : State} (h : s.mem = t.mem) (a n : Nat) : readNat s a n = readNat t a n := by
  simp only [readNat, readBytes, readByte, h]

theorem clg_member : readNat clg 0x50000 2 = Config.deviceNumber.toNat := by
  rw [readNat_congr (s := clg) (t := writeNat st 0x50000 2 Config.deviceNumber.toNat) rfl, readNat_writeNat]
  have := Config.deviceNumber.isLt
  exact Nat.mod_eq_of_lt (by omega)

theorem test_collAccepted : (Free clg [1] ∧ clg.colls.length < 64 ∧ drained clg clg.group.core = true) ∧ Room clg (some 11) true ∧ collReasons clg (collDesc (BitVec.ofNat 512 cld)) = [] ∧
    Structure clg 0x00FFFFFF00000000 64 64 ((clg.teamAt clg.group.teamKey).readScratch 0 64) clg ∧
    BitVec.ofNat 512 (Bits.leNat ((clg.teamAt clg.group.teamKey).readScratch 0 64)) = BitVec.ofNat 512 cld :=
  ⟨by decide +kernel, room_last (by decide +kernel), collReasons_alone clg clg_member (by decide +kernel),
    structure_scratch (by decide) (by decide +kernel) (by decide +kernel), by decide +kernel⟩

/-- A program that only ends, which stands in the scratchpad. -/
def stg : State :=
  let s := tab 0
  s.setGroup (((s.group.writeS 2 0).writeS 1 0x00FFFFFF00000000)) |>.putTeam (keyOf 1 0) { s.team with w := 65536 }

theorem readProgram_end (s : State) (g : Machine.Group) (k : List (BitVec 32) → State → Result State)
    (hb : (s.teamAt g.teamKey).readScratch 0 4 = [0, 0, 0, 0] ∧ ¬(s.teamAt g.teamKey).w < 4) :
    readProgram s g 0x00FFFFFF00000000 64 [] k = k [0] s := by
  rw [readProgram, readPlain]
  have h1 : scratchWindow (0x00FFFFFF00000000 % 2 ^ 56) = true := by decide
  have h2 : 0x00FFFFFF00000000 % 2 ^ 56 % 2 ^ 32 = 0 := by decide
  have h3 : programEnds [0] = true := by decide +kernel
  have h4 : BitVec.ofNat 32 (Bits.leNat [0, 0, 0, 0]) = 0 := by decide
  simp only [h1, h2, hb.1, hb.2, h3, if_true, if_false, Nat.zero_add, List.nil_append, h4]

theorem test_strmAccepted :
    (Free stg [1, 2] ∧ (0x00FFFFFF00000000 : Nat) % 4 = 0) ∧ Room stg (some 11) false ∧
    (∀ k, readProgram stg stg.group 0x00FFFFFF00000000 64 [] k = k [0] stg) ∧
    ∃ r s2, Samples stg stg.group true 0 r s2 ∧
      checkProgram [0] (sampleOf s2 stg.group) (shapeUsable r 0 false) (s2.teamAt stg.group.teamKey) = ([], 0) ∧
      (s2.coreAt stg.group.core).strmQ.length < 4 ∧ drained s2 stg.group.core = true :=
  ⟨by decide +kernel, room_last (by decide +kernel), fun k => readProgram_end stg stg.group k (by decide +kernel), _, _,
    samples_uncached (ps := [⟨0x30000, 64, 0xC400000000003260⟩]) (by decide +kernel) (by decide +kernel) (by decide +kernel)
      (pair_eq (by decide +kernel)) (by decide +kernel),
    by decide +kernel, by decide +kernel, by decide +kernel⟩

/-- The table with a second bank in its first record, in a page that is writable and DC and not dirty; a completion ring is not
named. -/
def cmt (nf : BitVec 32) : State :=
  let s := writeNat (tab 0) 0x30000 64 (shp + 2 ^ 127)
  let s := writeNat s 0xE010 8 (2 ^ 63 + 2 ^ 62 + 2 ^ 58 + 3 * 4096 + 0x240)
  s.putGrid 1 { s.gridAt 1 with nfcount := nf }

/-- A walk finds the same leaf wherever it starts, at the root or at a cached node of its way. -/
theorem walkBy_any {s : State} {die va : Nat} {w : Walk} (h0 : spaceOf (rootNode s) = 0 ∧ rootNode s < hbmEnd ∧
      walkFrom s va (rootNode s) [0, 1, 2, 3] = w)
    (h : ∀ n ∈ (s.dieAt die).nodes, n.covers va = true → spaceOf n.node = 0 ∧ n.node < hbmEnd ∧
      walkFrom s va n.node ((List.range 4).drop n.level) = w) : walkBy s die va = w := by
  unfold walkBy walkStart
  dsimp only
  split
  · next n hn =>
    obtain ⟨l, -, hf⟩ := List.exists_of_findSome?_eq_some hn
    have hm := List.mem_filter.mp (List.mem_of_find?_eq_some hf)
    obtain ⟨h1, h2, h3⟩ := h n hm.1 (by simp at hm; exact hm.2.1)
    simp [h1, Nat.not_le.mpr h2, h3]
  · simp [h0.1, Nat.not_le.mpr h0.2.1, h0.2.2]

/-- Where a walk starts is the root or a cached node. -/
theorem walkStart_mem (s : State) (die va : Nat) : walkStart s die va ∈
    (rootNode s, [0, 1, 2, 3]) :: (s.dieAt die).nodes.map fun n => (n.node, (List.range 4).drop n.level) := by
  unfold walkStart
  dsimp only
  split
  · next n hn =>
    obtain ⟨l, -, hf⟩ := List.exists_of_findSome?_eq_some hn
    have hm := List.mem_filter.mp (List.mem_of_find?_eq_some hf)
    exact List.mem_cons_of_mem _ (List.mem_map_of_mem hm.1)
  · exact List.mem_cons_self

/-- What holds wherever a walk starts holds where it has started. -/
theorem walked_any {s : State} {die va : Nat} {P : State → Prop} (h : ∀ p ∈ (rootNode s, [0, 1, 2, 3]) ::
    (s.dieAt die).nodes.map (fun n => (n.node, (List.range 4).drop n.level)), P (walkedFrom s die va p)) : P (walked s die va) :=
  h _ (walkStart_mem s die va)

/-- A walk on a way that the node caches know leaves them as they are. -/
theorem cacheNodes_known {s : State} {die va : Nat}
    (h : ∀ p ∈ (rootNode s, [0, 1, 2, 3]) :: (s.dieAt die).nodes.map (fun n => (n.node, (List.range 4).drop n.level)),
      ∀ x ∈ walkNodes s va p.1 p.2, x ∈ (s.dieAt die).nodes) :
    cacheNodes s die (walkNodes s va (walkStart s die va).1 (walkStart s die va).2) = s := by
  have hx := h _ (walkStart_mem s die va)
  have hf : (walkNodes s va (walkStart s die va).1 (walkStart s die va).2).filter
      (fun n => !(s.dieAt die).nodes.contains n) = [] := by
    rw [List.filter_eq_nil_iff]
    intro a ha
    simp [hx a ha]
  unfold cacheNodes
  dsimp only
  rw [hf]
  rfl

/-- A write through cached leaves whose dirty bit is clear walks again, on a way that the node caches know. -/
theorem translateCore_dirty {s : State} {core va level at_ : Nat} {e : Word} {t u : TlbEntry}
    (h0 : tlbIn (s.coreAt core).tlb va = some t ∧ leafD t.leaf = false)
    (h1 : tlbFind (s.dieAt (dieOfCore core)) va = some u ∧ leafD u.leaf = false)
    (h2 : walkBy s (dieOfCore core) va = .leaf e at_ level)
    (w : State) (h3 : walked s (dieOfCore core) va = w) :
    translateCore s core va true =
      (leafAnswer w (markedLeaf e true) (va / pageSize level * pageSize level) (pageSize level) va true,
        cacheCore (takeLeaf w (dieOfCore core) va at_ (va / pageSize level * pageSize level) (pageSize level) e true) core va) := by
  subst h3
  unfold translateCore Machine.translate translateByWalk walked walkedFrom
  rw [h0.1, h1.1]
  simp [h0.2, h1.2, h2]

/-- An atomic that returns, within a page of local memory. -/
theorem checkAcc_rmw {s s' : State} {core va n x y pa : Nat} {op : RmwOp} {leaf : Word}
    (h : translateCore s core va true = (.ok pa leaf, s')) (hv : va % 2 ^ 56 = va ∧ firstPart va n = n)
    (hb : badTags s' (dieOfCore core) pa n = false)
    (ha : refusesAtomic ⟨pa, n, leaf⟩ op n = false ∧ (spaceOf pa == 3) = false) :
    checkAcc s core ⟨0, 0, va, n, .rmw op x y, true⟩ =
      (.ok [⟨pa, n, leaf⟩], cacheEvents s' core 5 (if tlbMisses s core va then 1 else 0)) := by
  unfold checkAcc xlatRange xlatPart
  dsimp only [AccKind.writes]
  rw [hv.1, hv.2, if_pos rfl, h]
  simp [hb, ha.1, refusedPieces, fabricRefused, ha.2]

/-- The read of the commit's record. -/
def cmq (nf : BitVec 32) : Verdict × State :=
  checkAcc (cmt nf) (cmt nf).group.core ⟨0, 0, shapeAddr ((cmt nf).gridAt (cmt nf).group.grid) (handleIndex 0), 64, .load, true⟩

/-- Where it lies. -/
def cmp : List Piece := [⟨0x30000, 64, 0xC400000000003240⟩]

/-- What it gives. -/
def cmr (nf : BitVec 32) : BitVec 512 := (readHome (cmq nf).2 (cmt nf).group.die cmp).1

/-- The state that it leaves. -/
def cms (nf : BitVec 32) : State :=
  let g := (cmt nf).group
  installShape (readHome (cmq nf).2 g.die cmp).2 g.die g.grid (handleIndex 0) (cmr nf)

theorem cms_samples (nf : BitVec 32) (hn : nf = 0 ∨ nf = 1) : Samples (cmt nf) (cmt nf).group true 0 (some (cmr nf)) (cms nf) := by
  have h : handleIndex 0 < ((cmt nf).gridAt (cmt nf).group.grid).record.shapes ∧
      (let va := shapeAddr ((cmt nf).gridAt (cmt nf).group.grid) (handleIndex 0)
       sideTouches (cmt nf) (cmt nf).group.core va 64 = false ∧ deviceHeld (cmt nf) (cmt nf).group none va = false) ∧
      (cmq nf).1 = .ok cmp ∧
      ((readHome (cmq nf).2 (cmt nf).group.die cmp).2.dieAt (cmt nf).group.die).cachedShape
        (cmt nf).group.grid (handleIndex 0) = none := by
    rcases hn with rfl | rfl <;> decide +kernel
  exact samples_uncached h.1 h.2.1.1 h.2.1.2 (pair_eq h.2.2.1) h.2.2.2

theorem cms_check (nf : BitVec 32) (hn : nf = 0 ∨ nf = 1) : ∃ s', checkAcc (cms nf) (cmt nf).group.core
    ⟨0, 0, 0x20008, 8, .rmw .xor 0 0, true⟩ = (.ok [⟨0x30008, 8, 0xC400000000003260⟩], s') := by
  have hx := translateCore_dirty (s := cms nf) (core := (cmt nf).group.core) (va := 0x20008) (level := 3) (at_ := 0xE010)
    (e := 0xC400000000003240) (t := ⟨0x20000, 0x10000, 0xC400000000003240, 0⟩) (u := ⟨0x20000, 0x10000, 0xC400000000003240, 0⟩)
    (by rcases hn with rfl | rfl <;> decide +kernel) (by rcases hn with rfl | rfl <;> decide +kernel)
    (walkBy_any (by rcases hn with rfl | rfl <;> decide +kernel) (by rcases hn with rfl | rfl <;> decide +kernel))
    _ rfl
  have hl : leafAnswer (walked (cms nf) (dieOfCore (cmt nf).group.core) 0x20008) (markedLeaf 0xC400000000003240 true)
      (0x20008 / pageSize 3 * pageSize 3) (pageSize 3) 0x20008 true = .ok 0x30008 0xC400000000003260 :=
    walked_any (P := fun w => leafAnswer w (markedLeaf 0xC400000000003240 true) (0x20008 / pageSize 3 * pageSize 3) (pageSize 3)
      0x20008 true = .ok 0x30008 0xC400000000003260) (by rcases hn with rfl | rfl <;> decide +kernel)
  rw [hl] at hx
  have hb : badTags (cacheCore (takeLeaf (walked (cms nf) (dieOfCore (cmt nf).group.core) 0x20008) (dieOfCore (cmt nf).group.core)
      0x20008 0xE010 (0x20008 / pageSize 3 * pageSize 3) (pageSize 3) 0xC400000000003240 true) (cmt nf).group.core 0x20008)
      (dieOfCore (cmt nf).group.core) 0x30008 8 = false :=
    walked_any (P := fun w => badTags (cacheCore (takeLeaf w (dieOfCore (cmt nf).group.core) 0x20008 0xE010
        (0x20008 / pageSize 3 * pageSize 3) (pageSize 3) 0xC400000000003240 true) (cmt nf).group.core 0x20008)
        (dieOfCore (cmt nf).group.core) 0x30008 8 = false) (by rcases hn with rfl | rfl <;> decide +kernel)
  exact ⟨_, checkAcc_rmw hx (by decide) hb (by decide +kernel)⟩

theorem test_commit (nf : BitVec 32) (hn : nf = 0 ∨ nf = 1) :
    (Free (cmt nf) [63, 1] ∧ (cmt nf).group.cring.toNat % 16 = 0) ∧
    ∃ r s1 ps s2, Samples (cmt nf) (cmt nf).group true 0 r s1 ∧ commitUsable r 0 = true ∧
      checkAcc s1 (cmt nf).group.core ⟨0, 0, 0x20008, 8, .rmw .xor 0 0, true⟩ = (.ok ps, s2) ∧ (∀ p ∈ ps, leafClass p.leaf = 1) ∧
      ((s1.gridAt (cmt nf).group.grid).nfcount = nf) ∧ NoLog s1 := by
  obtain ⟨s2, h⟩ := cms_check nf hn
  refine ⟨?_, _, _, _, s2, cms_samples nf hn, ?_, h, ?_, ?_, ?_⟩ <;> rcases hn with rfl | rfl <;> decide +kernel

/-- A matrix group with a control word in S2, in a team of four tiles and a scratchpad of 64 KiB whose engine holds 15
commands. -/
def mtx (w : Word) (f : Engine → Engine) : State :=
  let s := grp fun g => { g.writeS 2 w with role := .matrix, flagCount := [(11, 63)] }
  s.putTeam (keyOf 1 0) { s.team with
    tiles := 4
    w := 65536
    engine := f { s.team.engine with
      queue := List.replicate 15 (newCommand s { s.group with gid := 7, serial := 7 } s.team .mma ⟨0, 0, 0, 0⟩ false none none) } }

/-- An operand in the scratchpad fits. -/
theorem fits_scratch {t : Machine.Team} {o : OperandSpec} {r : Option (BitVec 512)} (h : o.kind = 0 ∧ 0 ∈ o.kinds ∧ o.ring = 0 ∧
      o.fmt ∈ o.fmts ∧ (o.b16 = true → isMx o.fmt = true) ∧
      o.value.toNat % (if isMx o.fmt && !o.split then 2048 else 256) = 0 ∧ o.value.toNat < 2 ^ 32 ∧
      o.value.toNat + o.bytes ≤ t.w) : OperandFits t o r := by
  obtain ⟨hk, h0, hr, hf, hb, hv⟩ := h
  unfold OperandFits
  rw [hk]
  exact ⟨h0, fun _ => hr, fun h => by simp at h, by simpa using hf, hb, fun _ => hv, fun h => by simp at h,
    fun h => by simp at h⟩

/-- An operand in the bypass fits. -/
theorem fits_bypass {t : Machine.Team} {o : OperandSpec} {r : Option (BitVec 512)} (h : o.kind = 3 ∧ 3 ∈ o.kinds ∧ o.ring = 0 ∧
      o.reg = 0 ∧ o.fmt ∈ o.fmts ∧ o.b16 = false) : OperandFits t o r := by
  obtain ⟨hk, h0, hr, hg, hf, hb⟩ := h
  unfold OperandFits
  rw [hk]
  exact ⟨h0, fun _ => hr, fun _ => hg, by simpa using hf, fun h => by simp [hb] at h, fun h => by simp at h, fun h => by simp at h,
    fun h => by simp at h⟩

/-- MLD of BF16, MMA of 128 rows on the last tile, MMA from the bypass in redundant mode. -/
theorem test_matrixProducts :
    (let s := mtx (0x7F0010 : Word) id
     let c := Ctl.ofWord (s.group.readS 2)
     s.group.role = .matrix ∧ c.reserved = false ∧ c.noDrain = true ∧ Free s [1, 2] ∧ c.noSecond = true ∧ c.zb = 0 ∧
      s.team.engine.queue.length < 16 ∧ c.za = 0 ∧ c.rows = 127 ∧ c.kind ≠ 2) ∧
    (let s := mtx (0x3007F0010 : Word) id
     let c := Ctl.ofWord (s.group.readS 2)
     c.za < s.team.tiles ∧ c.m ≤ 128 ∧ (s.team.engine.accRed = true → c.m ≤ 64)) ∧
    (let s := mtx (3 : Word) fun e => { e with accBypass := true, accRed := true, accRows := 64 }
     let c := Ctl.ofWord (s.group.readS 2)
     c.kind = 3 ∧ c.rows = 0 ∧ s.team.engine.accBypass = true ∧ s.team.engine.accRed = true ∧ s.team.engine.accRows ≤ 64) ∧
    (∀ w f, Samples (mtx w f) (mtx w f).group false 0 none (mtx w f)) := by
  refine ⟨by decide +kernel, by decide +kernel, by decide +kernel, fun _ _ => samples_unneeded _ _ _⟩

theorem test_matrixOperands :
    Room (mtx 0x7F0010 id) (some 11) false ∧
    OperandFits (mtx 0x7F0010 id).team (mldOperand (mtx 0x7F0010 id).group ⟨0, 1, 2, 0⟩ (Ctl.ofWord 0x7F0010)) none ∧
    OperandFits (mtx 0x3007F0010 id).team
      (productOperand (mtx 0x3007F0010 id).group ⟨0, 1, 2, 0⟩ (Ctl.ofWord 0x3007F0010) [0, 1, 2, 3]) none ∧
    OperandFits (mtx 3 id).team (productOperand (mtx 3 id).group ⟨0, 0, 2, 0⟩ (Ctl.ofWord 3) [0, 1, 2, 3]) none :=
  ⟨room_last (by decide +kernel),
    fits_scratch (by decide +kernel),
    fits_scratch (by decide +kernel),
    fits_bypass (by decide +kernel)⟩

/-- MMA2 of tiles 3 and 2, both operands in the scratchpad. -/
theorem test_mma2 :
    let w : Word := 0xB007F1010
    let s := mtx w id
    let c := Ctl.ofWord w
    (Free s [63, 1, 2] ∧ c.za < s.team.tiles ∧ c.zb < s.team.tiles ∧ c.za ≠ c.zb ∧ c.m ≤ 128 ∧ s.team.engine.accRed = false ∧
      s.team.engine.queue.length < 16) ∧
    OperandFits s.team (productOperand s.group ⟨63, 1, 2, 0⟩ c [0, 1, 2]) none ∧
    OperandFits s.team (secondOperand s.group ⟨63, 1, 2, 0⟩ c) none :=
  ⟨by decide +kernel,
    fits_scratch (by decide +kernel),
    fits_scratch (by decide +kernel)⟩

/-- An MX record for MVNB: E4M3 in blocks of 32 along k, 128 by 128, at 0x28000. -/
def shm : Nat := 0x28000 + 3 * 2 ^ 56 + 2 * 2 ^ 240 + 128 * 2 ^ 256 + 128 * 2 ^ 276 + 127 * 2 ^ 356 + 127 * 2 ^ 368 + 128 * 2 ^ 392

/-- The matrix group with that record in its grid's table. -/
def mvs : State :=
  let s := mtx (0x70000 : Word) id
  let s := { s with mem := (writeNat st 0x30000 64 shm).mem }
  s.putGrid 1 { s.gridAt 1 with record := { (s.gridAt 1).record with shapes := 2, shapeBase := 0x20000 } }

theorem test_mvnb : ∃ r s1, Samples mvs mvs.group true 0 r s1 ∧ (∃ sh, shapeUsable r 0 false = some sh ∧ nearBox sh = true ∧
    OperandFits (s1.teamAt mvs.group.teamKey) (nearOperand mvs.group ⟨0, 1, 2, 0⟩ (Ctl.ofWord 0x70000) (sh.bx 0)) none) ∧
    Free mvs [0, 1, 2] ∧ (Ctl.ofWord 0x70000).m ≤ 8 ∧ (Ctl.ofWord 0x70000).za < (s1.teamAt mvs.group.teamKey).tiles ∧
    (s1.teamAt mvs.group.teamKey).engine.accRed = false ∧ (s1.teamAt mvs.group.teamKey).engine.queue.length < 16 :=
  ⟨_, _, samples_uncached (ps := [⟨0x30000, 64, 0xC400000000003260⟩]) (by decide +kernel) (by decide +kernel) (by decide +kernel)
      (pair_eq (by decide +kernel)) (by decide +kernel),
    ⟨Shape.ofBits (BitVec.ofNat 512 shm), by decide +kernel, by decide +kernel,
      fits_scratch (by decide +kernel)⟩,
    by decide +kernel, by decide +kernel, by decide +kernel, by decide +kernel, by decide +kernel⟩

/-- A split drain of 128 rows of E4M3 with its last 32 scale registers, in the last tile. -/
def drw : Word := BitVec.ofNat 64 (0x30 + 0x7F * 2 ^ 16 + 3 * 2 ^ 32 + 2 ^ 37 + 2 ^ 38 + 2 ^ 39 + 352 * 2 ^ 55)

theorem test_matrixDrain :
    let s := mtx drw id
    let c := Ctl.ofWord (s.group.readS 2)
    (s.group.role = .matrix ∧ Free s [1, 2] ∧ c.reserved = false ∧ c.noSecond = true ∧ c.zb = 0 ∧ c.split = true ∧ c.kind = 0 ∧
      isMx c.fmt = true ∧ c.nansat = true ∧ c.m ≤ 128 ∧ c.za < s.team.tiles ∧ c.qbase + drainRegs c ≤ s.group.alloc ∧
      s.team.engine.accRed = false ∧ s.team.engine.queue.length < 16) ∧
    OperandFits s.team (drainDest s.group ⟨0, 1, 2, 0⟩ c) none ∧ Samples s s.group false 0 none s ∧ Room s (some 11) false :=
  ⟨by decide +kernel,
    fits_scratch (by decide +kernel),
    samples_unneeded _ _ _, room_last (by decide +kernel)⟩

/-- MZERO of every tile and of the last, MMODE, MSYNC with no command of its own. -/
theorem test_matrixOthers :
    let s := mtx 0 id
    Free s [] ∧ s.team.engine.queue.length < 16 ∧ (4 : BitVec 7).getLsbD 2 = true ∧ (3 : BitVec 7).toNat % 4 < s.team.tiles ∧
      ∀ x ∈ s.team.engine.queue, x.key ≠ s.group.key := by decide +kernel

/-- Other roles; a tile beyond the three granted; a reserved bit. -/
theorem test_engineTraps :
    (st.cur.lane = none ∧ TrapsToHandler st ∧ Free st [63, 1, 2] ∧ st.group.role ≠ .matrix ∧ st.group.role ≠ .copy) ∧
    (let s := (mtx (0x300000010 : Word) id).putTeam (keyOf 1 0) { (mtx (0x300000010 : Word) id).team with tiles := 3 }
     let c := Ctl.ofWord (s.group.readS 2)
     TrapsToHandler s ∧ Free s [63, 1, 2] ∧ s.group.role = .matrix ∧ c.kind ≠ 2 ∧ c.kind2 ≠ 2 ∧ s.team.tiles ≤ c.za ∧
      (3 : BitVec 7).getLsbD 2 = false ∧ s.team.tiles ≤ (3 : BitVec 7).toNat % 4) ∧
    (let s := mtx (0xB01000010 : Word) id
     let c := Ctl.ofWord (s.group.readS 2)
     c.reserved = true ∧ c.za < s.team.tiles ∧ c.zb < s.team.tiles) := by decide +kernel

/-- A running micro-program at its last step but one, with three results waiting. -/
def mcc (steps : Nat) (shape : Nat) : StrmCmd :=
  ⟨0, keyOf 1 0, [], 0, BitVec.ofNat 512 shape, none, sampleOf st st.group, [], false, [], 0, steps, 0, 0, 0, Life.fresh⟩
/-- Its core. -/
def mcr (steps : Nat) (shape : Nat) : State :=
  let s := st.putTeam (keyOf 1 0) { st.team with rings := [(15, ⟨2, 64, 1, 0, 1, 0, [], [], [], 0⟩)] }
  { s.putCore 1 { s.coreAt 1 with strm := some (mcc steps shape), strmOut := List.replicate 3 ⟨0, 0, keyOf 1 0, 0, 0, []⟩ } with core := 1 }

theorem test_microOperations : MicRuns (mcr (2 ^ 20 - 1) shp) (mcc (2 ^ 20 - 1) shp) := by decide +kernel

/-- LOAD of a box whose page is reached, LOAD of a page of another key, and a program past its limit. -/
theorem test_microLoad :
    (let c := mcc 0 shp
     MicRuns (mcr 0 shp) c ∧ ∃ ps s', reachAll (mcr 0 shp) 0 (shapeOf c.shape).key false
      ((Place.mem ((shapeOf c.shape).base false)).addrs c.sample ((shapeOf c.shape).view c.handle).offsets) = (.ok ps, s')) ∧
    (let c := mcc 0 (shp + 2 ^ 120)
     MicRuns (mcr 0 (shp + 2 ^ 120)) c ∧ ∃ va s', reachAll (mcr 0 (shp + 2 ^ 120)) 0 (shapeOf c.shape).key false
      ((Place.mem ((shapeOf c.shape).base false)).addrs c.sample ((shapeOf c.shape).view c.handle).offsets) =
        (.fault 2 va, s')) ∧
    (let k := (mcr (2 ^ 20) shp).coreAt (mcr (2 ^ 20) shp).core
     k.strm = some (mcc (2 ^ 20) shp) ∧ k.strmOut.length < 4 ∧ 2 ^ 20 ≤ (mcc (2 ^ 20) shp).steps) :=
  ⟨⟨by decide +kernel, [⟨2, 0x30000, 0xC400000000003260⟩], _, pair_eq (by decide +kernel)⟩,
    ⟨by decide +kernel, 0x28000, _, pair_eq (by decide +kernel)⟩, by decide +kernel⟩

/-- A lane word with these register fields, type and function. -/
def wrd (d a b c : BitVec 9) (ty : BitVec 4) (fn : BitVec 25) : LaneWord := ⟨d, a, b, c, ty, 0, 0, 0, 0, 0, 0, 0, 0, fn⟩

/-- The last register of the allocation, or the destination that discards. -/
theorem test_laneFloatArithmetic : (lan id).group.role = .vector ∧ ∀ n ∈ [383, 511], let d := BitVec.ofNat 9 n
    ∀ i ∈ [Instr.fadd (wrd d 383 0 0 0 0), .fmul (wrd d 383 0 0 0 0), .fmin (wrd d 383 0 0 0 0), .fmax (wrd d 383 0 0 0 0),
      .ffma (wrd d 383 0 383 0 0)], LaneStarts (lan id) i (wrd d 383 0 383 0 0) := by decide +kernel

theorem test_laneFloatFunctions : let w := wrd 383 383 0 0 0 0
    (lan id).group.role = .vector ∧ ∀ i ∈ [Instr.frnd w, .fexpo w, .fscl w, .fexp2 w, .flog2 w, .frcp w, .frsq w, .fsqrt w, .fsin w,
      .fcos w, .ftanh w], LaneStarts (lan id) i w := by decide +kernel

theorem test_laneDotProducts : let w := wrd 0 380 376 383 3 0
    (lan id).group.role = .vector ∧ ∀ i ∈ [Instr.fdot w, .mxdot w, .idot w], LaneStarts (lan id) i w := by decide +kernel

theorem test_lanePredicates : let w := wrd 7 1 2 3 0 0
    (lan id).group.role = .vector ∧ ∀ i ∈ [Instr.fcmp w, .icmp w, .plop w, .pset w, .pmov w, .vote w, .fclass w],
      LaneStarts (lan id) i w := by decide +kernel

theorem test_laneIntegers : let w := wrd 383 383 0 1 9 0
    (lan id).group.role = .vector ∧ ∀ i ∈ [Instr.iadd w, .isub w, .imul w, .imad w, .imulh w, .imin w, .imax w, .iand w, .ior w,
      .ixor w, .ishl w, .ishr w, .ipopc w, .iclz w, .ibfx w], LaneStarts (lan id) i w := by decide +kernel

theorem test_laneMoves : let w := wrd 383 383 0 0 0 0
    (lan id).group.role = .vector ∧ (∀ i ∈ [Instr.pack w, .unpk w, .qget w, .mov w, .movx w, .selLane w, .shfl w, .qmov w, .qset w],
      LaneStarts (lan id) i w) ∧ w.dest.toNat < 384 := by decide +kernel

/-- MOVX of the last register; BCAST of a lane that every lane agrees on, of the lane that each lane's own number gives, and of
the first active lane. -/
theorem test_laneMovx :
    (let w := wrd 0 0 384 383 0 383
     let c := laneOf (lan id) w
     LaneStarts (lan id) (.movx w) w ∧ 0 ≤ movxIndex c ∧ movxIndex c < c.g.alloc ∧ c.g.alloc ≤ 384 ∧
      c.g.heldV c.i [(movxIndex c).toNat] [] = false) ∧
    (let w := wrd 0 1 2 0 0 0
     let c := laneOf (lan id) w
     LaneStarts (lan id) (.bcast w) w ∧ ∀ l, l < 32 → c.act.getLsbD l = true →
      c.operand w.srcB l = c.operand w.srcB ((Bits.lowestLane c.act).getD 0)) ∧
    (let w := wrd 0 1 508 0 0 0
     let c := laneOf (lan id) w
     LaneStarts (lan id) (.bcast w) w ∧ ¬w.func / 2 ^ 23 % 2 = 1 ∧ (lan id).cur.lane = some c.i ∧ TrapsToHandler (lan id) ∧
      (0xFFFFFFFE : Mask) ≠ 0 ∧ ∀ l, l < 32 → ((0xFFFFFFFE : Mask).getLsbD l = true ↔ c.act.getLsbD l = true ∧
        c.operand w.srcB l ≠ c.operand w.srcB ((Bits.lowestLane c.act).getD 0))) ∧
    (let w := wrd 0 1 508 0 0 0x800000
     LaneStarts (lan id) (.bcast w) w ∧ w.func / 2 ^ 23 % 2 = 1) := by decide +kernel

/-- CVT, RQNT of E4M3 blocks, DQNT to the last four registers. -/
theorem test_laneConversions : (lan id).group.role = .vector ∧ LaneStarts (lan id) (.cvt (wrd 383 0 0 0 0 0)) (wrd 383 0 0 0 0 0) ∧
    LaneStarts (lan id) (.rqnt (wrd 383 380 0 0 3 0)) (wrd 383 380 0 0 3 0) ∧ 3 ≤ (3 : BitVec 4).toNat ∧ (8 : BitVec 4).toNat ≤ 8 ∧
    LaneStarts (lan id) (.dqnt (wrd 380 383 0 0 3 0)) (wrd 380 383 0 0 3 0) ∧ (380 : BitVec 9).toNat < 384 := by decide +kernel

theorem test_laneTrees : (lan id).group.role = .vector ∧ (∀ i ∈ [Instr.redux (wrd 383 0 0 0 9 4), .scan (wrd 383 0 0 0 9 4)],
      LaneStarts (lan id) i (wrd 383 0 0 0 9 4)) ∧ (4 : BitVec 25).toNat % 16 = 4 ∧
    (laneOf (lan id) (wrd 383 0 0 0 9 4)).modeCode ≠ 6 ∧
    LaneStarts (lan id) (.reduxPair (wrd 382 0 2 0 0 0x20)) (wrd 382 0 2 0 0 0x20) := by decide +kernel

/-- A branch that all lanes take, one that none takes, one that lane 31 takes, and STOP. -/
theorem test_laneBranches :
    (let c := laneOf (lan id) (wrd 0 0 0 0 0 0)
     c.sp.atLast = true ∧ c.i < 4 ∧ (lan id).group.splits.length = 4 ∧ c.act = c.sp.mask ∧ c.sp.joins = [] ∧ c.sp.valid = true) ∧
    (let s := lan fun g => g.writeP 1 0
     let c := laneOf s { wrd 0 0 0 0 0 0 with pred := 1 }
     c.sp.atLast = true ∧ c.act ≠ c.sp.mask ∧ c.act = 0) ∧
    (let s := lan fun g => g.writeP 1 0x80000000
     let w := { wrd 0 0 0 0 0 0 with pred := 1 }
     let c := laneOf s w
     c.sp.atLast = true ∧ c.act ≠ c.sp.mask ∧ c.act ≠ 0 ∧ s.group.freeIndex = some 1 ∧
      (joinsFor s.group c.sp (c.sp.addr + (braOffset w).1)).length ≤ 8 ∧ c.sp.valid = true) := by decide +kernel

/-- A clause of width 4. -/
def wid : State := lan fun g => g.putSplit 0 { g.splitAt 0 with width := 4 }

/-- The last plane of the clause, with .q and without, into the last register or none; and a plane beyond it. -/
theorem test_tangentMoves :
    (∀ d ∈ [383, 511], ∀ q ∈ [0, 8], let w := wrd (BitVec.ofNat 9 d) 383 0 0 0 (BitVec.ofNat 25 (4 + q))
      wid.group.role = .vector ∧ w.func % 8 ≤ (laneOf wid w).t ∧ w.func % 8 ≠ 0 ∧
      ∀ i ∈ [Instr.tget w, .tclr w, .tswp w], LaneStarts wid i w) ∧
    (∀ d ∈ [383, 511], ∀ b ∈ [4, 12], let w := wrd (BitVec.ofNat 9 d) 383 (BitVec.ofNat 9 b) 0 0 0
      LaneStarts wid (.tset w) w ∧ w.srcB.toNat % 8 ≤ (laneOf wid w).t) ∧
    (let w := wrd 383 383 1 0 0 1
     let c := laneOf (lan id) w
     (lan id).cur.lane = some c.i ∧ TrapsToHandler (lan id) ∧ c.t < w.func % 8 ∧ c.t < w.srcB.toNat % 8 ∧
      ∀ i ∈ [Instr.tget w, .tset w, .tclr w, .tswp w], LaneStarts (lan id) i w) := by decide +kernel

/-- Lane 31 is active, aperture A14 covers the page at 0x20000, V0 and V1 hold an address in it, and the scratchpad is of
4 KiB. -/
def mem31 : State :=
  let s := lan fun g => ((((g.putSplit 0 { g.splitAt 0 with mask := 0x80000000 }).writeA 14 ⟨true, 0x20000, 0x10000⟩).writeV 0 0
    (Bits.setLane 0 31 0x2FFF0)).writeP 1 0)
  s.putTeam (keyOf 1 0) { s.team with w := 4096 }

/-- A checked access that is alone. -/
theorem checked_one {s : State} {core : Nat} {ap : Option Nat} {a : Acc} {ps : List Piece}
    (h : (checkAcc (ap.elim s fun n => withRun s core s.cur.key n) core a).1 = .ok ps) :
    ∃ l s', CheckedAll s core ap [a] l s' :=
  ⟨_, _, rfl, fun x hx => ⟨ps, by
    obtain rfl : x = (a, (checkAcc (ap.elim s fun n => withRun s core s.cur.key n) core a).1) := by simpa [checkAll] using hx
    exact h⟩⟩

/-- Where a lane access of 16 bytes at `va` of the page at 0x20000 lies, and one of 4. -/
def at16 (pa n : Nat) : List Piece := [⟨pa, n, 0xC400000000003260⟩]

/-- The word of a load of 16 bytes through A14 in lane 31, and of the other loads. -/
def ldw : LaneWord := { wrd 380 0 511 0 0 (14 * 2 ^ 20 + 4 * 2 ^ 15) with long := 1 }

theorem test_laneLoad :
    (LongStarts mem31 (.ld ldw) ldw (some (memFn ldw).ap) ∧ ((laneOf mem31 ldw).seen.readA (memFn ldw).ap).valid = true ∧
      ∀ a ∈ (laneOf mem31 ldw).accesses (laneOf mem31 ldw).planes (sizeBytes (memFn ldw).size) true
        ((laneOf mem31 ldw).apAddr (memFn ldw)) (fun _ _ => .load), a.misaligned = false) ∧
    (laneOf mem31 ldw).accesses (laneOf mem31 ldw).planes (sizeBytes (memFn ldw).size) true
      ((laneOf mem31 ldw).apAddr (memFn ldw)) (fun _ _ => .load) = [⟨31, 0, 0x20000, 16, .load, true⟩] ∧
    NoLog mem31 ∧ ∃ l s', CheckedAll mem31 mem31.group.core (some (memFn ldw).ap) [⟨31, 0, 0x20000, 16, .load, true⟩] l s' :=
  ⟨by decide +kernel, by decide +kernel,
    by decide +kernel, checked_one (ps := at16 0x30000 16) (by decide +kernel)⟩

/-- LDX of the address that V0 and V1 hold. -/
def ldxw : LaneWord := { wrd 380 0 0 0 0 (4 * 2 ^ 15) with long := 1 }

theorem test_laneLoadPair :
    LongStarts mem31 (.ldx ldxw) ldxw none ∧
    (laneOf mem31 ldxw).accesses (laneOf mem31 ldxw).planes (sizeBytes (memFn ldxw).size) true
      ((laneOf mem31 ldxw).pairAddr (memFn ldxw)) (fun _ _ => .load) = [⟨31, 0, 0x2FFF0, 16, .load, true⟩] ∧
    (⟨31, 0, 0x2FFF0, 16, .load, true⟩ : Acc).misaligned = false ∧
    NoLog mem31 ∧ ∃ l s', CheckedAll mem31 mem31.group.core none [⟨31, 0, 0x2FFF0, 16, .load, true⟩] l s' :=
  ⟨by decide +kernel, by decide +kernel, by decide +kernel,
    by decide +kernel, checked_one (ps := at16 0x3FFF0 16) (by decide +kernel)⟩

/-- LDQ and STQ of 16 scales through A14. -/
def ldqw : LaneWord := { wrd 383 0 511 0 0 (14 * 2 ^ 20 + 15 * 2 ^ 14) with long := 1 }

theorem test_laneLoadScales :
    LongStarts mem31 (.ldq ldqw) ldqw (some (scaleFn ldqw).ap) ∧ ((laneOf mem31 ldqw).seen.readA (scaleFn ldqw).ap).valid = true ∧
    (laneOf mem31 ldqw).scaleAccesses (scaleFn ldqw) true (fun _ _ => .load) = [⟨0, 0, 0x20000, 16, .load, true⟩] ∧
    NoLog mem31 ∧ ∃ l s', CheckedAll mem31 mem31.group.core (some (scaleFn ldqw).ap) [⟨0, 0, 0x20000, 16, .load, true⟩] l s' :=
  ⟨by decide +kernel, by decide +kernel, by decide +kernel,
    by decide +kernel, checked_one (ps := at16 0x30000 16) (by decide +kernel)⟩

/-- LDS and STS of 16 bytes at the scratchpad's end. -/
def ldsw : LaneWord := { wrd 380 0 511 0 0 (4 * 2 ^ 15 + 4080) with long := 1 }

theorem test_laneScratch :
    (LongStarts mem31 (.lds ldsw) ldsw none ∧ LongStarts mem31 (.sts ldsw) ldsw none ∧
      ∀ x ∈ (laneOf mem31 ldsw).scratch (memFn ldsw), mem31.team.compressed x.2.toNat (sizeBytes (memFn ldsw).size) = false) ∧
    (∀ x ∈ (laneOf mem31 ldsw).scratch (memFn ldsw), x.2 % (sizeBytes (memFn ldsw).size : Int) = 0) ∧
    ∀ x ∈ (laneOf mem31 ldsw).scratch (memFn ldsw), ∀ k ∈ (laneOf mem31 ldsw).planes,
      mem31.team.beyond k x.2 (sizeBytes (memFn ldsw).size) = false := by decide +kernel

theorem test_laneStore :
    (LongStarts mem31 (.st ldw) ldw (some (memFn ldw).ap) ∧
      (laneOf mem31 ldw).accesses (laneOf mem31 ldw).planes 16 false ((laneOf mem31 ldw).apAddr (memFn ldw))
        (fun k n => .store (Bits.leBytes 16 ((laneOf mem31 ldw).data ldw.srcA 4 k n))) =
          [⟨31, 0, 0x20000, 16, .store (Bits.leBytes 16 0x2FFF0), false⟩]) ∧
    (LongStarts mem31 (.stx ldxw) ldxw none ∧
      (laneOf mem31 ldxw).accesses (laneOf mem31 ldxw).planes 16 false ((laneOf mem31 ldxw).pairAddr (memFn ldxw))
        (fun k n => .store (Bits.leBytes 16 ((laneOf mem31 ldxw).data ldxw.srcA 4 k n))) =
          [⟨31, 0, 0x2FFF0, 16, .store (Bits.leBytes 16 0x2FFF0), false⟩]) ∧
    (LongStarts mem31 (.stq ldqw) ldqw (some (scaleFn ldqw).ap) ∧
      (laneOf mem31 ldqw).scaleAccesses (scaleFn ldqw) false (fun k comp =>
        .store (Bits.leBytes 16 (Bits.field ((laneOf mem31 ldqw).g.readQ k ldqw.srcA.toNat).toNat (if comp then 128 else 0) 128))) =
          [⟨0, 0, 0x20000, 16, .store (Bits.leBytes 16 0), false⟩]) ∧
    NoLog mem31 ∧ ∀ x ∈ [((⟨31, 0, 0x20000, 16, .store (Bits.leBytes 16 0x2FFF0), false⟩ : Acc), some (memFn ldw).ap),
        (⟨31, 0, 0x2FFF0, 16, .store (Bits.leBytes 16 0x2FFF0), false⟩, none),
        (⟨0, 0, 0x20000, 16, .store (Bits.leBytes 16 0), false⟩, some (scaleFn ldqw).ap)],
      x.1.misaligned = false ∧ ∃ l s', CheckedAll mem31 mem31.group.core x.2 [x.1] l s' := by
  refine ⟨by decide +kernel, by decide +kernel, by decide +kernel, by decide +kernel, ?_⟩
  intro x hx
  simp only [List.mem_cons, List.not_mem_nil, or_false] at hx
  rcases hx with rfl | rfl | rfl
  · exact ⟨by decide +kernel, checked_one (ps := at16 0x30000 16) (by decide +kernel)⟩
  · exact ⟨by decide +kernel, checked_one (ps := at16 0x3FFF0 16) (by decide +kernel)⟩
  · exact ⟨by decide +kernel, checked_one (ps := at16 0x30000 16) (by decide +kernel)⟩

/-- ATOM, ARED and ACAS of 4 bytes through A14 in lane 31. -/
def atw : LaneWord := { wrd 380 0 511 1 10 (14 * 2 ^ 20 + 2 * 2 ^ 15) with long := 1 }

theorem test_laneAtomics :
    (LongStarts mem31 (.atom atw) atw (some (atomFn atw).ap) ∧ LongStarts mem31 (.ared atw) atw (some (atomFn atw).ap) ∧
      LongStarts mem31 (.acas atw) atw (some (memFn atw).ap) ∧ ((laneOf mem31 atw).seen.readA (atomFn atw).ap).valid = true) ∧
    (laneOf mem31 atw).accesses [0] 4 true ((laneOf mem31 atw).apAddr (atomFn atw))
      (fun k n => .rmw .addI ((laneOf mem31 atw).data atw.srcA 2 k n) 0) = [⟨31, 0, 0x20000, 4, .rmw .addI 0x2FFF0 0, true⟩] ∧
    atomOp (atomFn atw).op atw.ty.toNat (rndFtz (laneOf mem31 atw).seen.rnd) = .addI ∧ NoLog mem31 ∧
    ∀ op ∈ [RmwOp.addI, .cas], ∀ r ∈ [true, false],
      (⟨31, 0, 0x20000, 4, .rmw op 0x2FFF0 0, r⟩ : Acc).misaligned = false ∧
      ∃ l s', CheckedAll mem31 mem31.group.core (some 14) [⟨31, 0, 0x20000, 4, .rmw op 0x2FFF0 0, r⟩] l s' := by
  refine ⟨by decide +kernel, by decide +kernel, by decide +kernel, by decide +kernel, ?_⟩
  intro op ho r hr
  simp only [List.mem_cons, List.not_mem_nil, or_false] at ho hr
  rcases ho with rfl | rfl <;> rcases hr with rfl | rfl <;>
    exact ⟨by decide +kernel, checked_one (ps := at16 0x30000 4) (by decide +kernel)⟩

/-- Aperture A14 begins here. -/
def memAt (va : BitVec 56) : State := mem31.setGroup (mem31.group.writeA 14 ⟨true, va, 0x10000⟩)

/-- What the checks of one access answer in that state. -/
def met (s : State) (a : Acc) : Verdict := (checkAcc (withRun s s.group.core s.cur.key 14) s.group.core a).1

/-- The traps of a lane access through an aperture: it is not valid; a misaligned load; a store, an atomic and a transfer of scales
that their pages refuse. -/
theorem test_laneMemoryTraps :
    ((let w := { ldw with fn := 13 * 2 ^ 20 + 4 * 2 ^ 15 }
      LongStarts mem31 (.ld w) w (some (memFn w).ap) ∧ ((laneOf mem31 w).seen.readA (memFn w).ap).valid = false ∧
        (laneOf mem31 w).accesses (laneOf mem31 w).planes 16 true ((laneOf mem31 w).apAddr (memFn w)) (fun _ _ => .load) ≠ []) ∧
      mem31.cur.lane = some (laneOf mem31 ldw).i ∧ TrapsToHandler mem31) ∧
    (let s := memAt 0x20001
     LongStarts s (.ld ldw) ldw (some (memFn ldw).ap) ∧ ((laneOf s ldw).seen.readA 14).valid = true ∧ (memFn ldw).size ≠ 5 ∧
      ((laneOf s ldw).accesses (laneOf s ldw).planes 16 true ((laneOf s ldw).apAddr (memFn ldw)) (fun _ _ => .load)).filter
        (fun a => a.va % a.bytes != 0) = [⟨31, 0, 0x20001, 16, .load, true⟩]) ∧
    (let s := memAt 0x10000
     (LongStarts s (.st ldw) ldw (some (memFn ldw).ap) ∧ LongStarts s (.stq ldqw) ldqw (some (scaleFn ldqw).ap)) ∧
      (laneOf s ldw).accesses (laneOf s ldw).planes 16 false ((laneOf s ldw).apAddr (memFn ldw))
        (fun k n => .store (Bits.leBytes 16 ((laneOf s ldw).data ldw.srcA 4 k n))) =
          [⟨31, 0, 0x10000, 16, .store (Bits.leBytes 16 0x2FFF0), false⟩] ∧
      met s ⟨31, 0, 0x10000, 16, .store (Bits.leBytes 16 0x2FFF0), false⟩ = .prot ∧
      met s ⟨0, 0, 0x10000, 16, .store (Bits.leBytes 16 0), false⟩ = .prot) ∧
    (let s := memAt 0x30000
     let w := { atw with fn := 14 * 2 ^ 20 + 2 * 2 ^ 15 + 2 * 2 ^ 11 }
     LongStarts s (.atom w) w (some (atomFn w).ap) ∧
      ∃ op, atomOp (atomFn w).op w.ty.toNat (rndFtz (laneOf s w).seen.rnd) = op ∧
        met s ⟨31, 0, 0x30000, 4, .rmw op 0x2FFF0 0, true⟩ = .atomclass) :=
  ⟨by decide +kernel, by decide +kernel, by decide +kernel, by decide +kernel, _, rfl, by decide +kernel⟩

/-- A load of a device that is lost. -/
theorem test_laneLost : ∃ d s', checkAcc (fab d) (fab d).group.core ⟨31, 0, 0x40000, 16, .load, true⟩ = (.lost d, s') := by
  refine ⟨other, lost_acc (by decide) (by decide) ((translateCore_walk (level := 3) (at_ := 0xE020) (e := fabLeaf other) ?_ ?_ ?_).trans
    (fab_answer _ _ _ ?_ other_ne))⟩ <;>
    rcases other_ne with ⟨h, -⟩ | ⟨h, -⟩ <;> rw [h] <;> decide +kernel

/-- The traps of a lane access of the scratchpad: an offset that is misaligned, one at its end, and a store in a compressed region. -/
theorem test_laneScratchTraps :
    (let w := { ldsw with fn := 4 * 2 ^ 15 + 1 }
     let c := laneOf mem31 w
     LongStarts mem31 (.lds w) w none ∧ LongStarts mem31 (.sts w) w none ∧ mem31.cur.lane = some c.i ∧ TrapsToHandler mem31 ∧
      (c.scratch (memFn w)).filter (fun x => (memFn w).size != 5 && x.2 % 16 != 0) = [(31, 1)]) ∧
    (let w := { ldsw with fn := 4 * 2 ^ 15 + 4096 }
     let c := laneOf mem31 w
     LongStarts mem31 (.lds w) w none ∧ (c.scratch (memFn w)).filter (fun x => x.2 % 16 != 0) = [] ∧
      (c.scratch (memFn w)).filter (fun x => c.planes.any fun k => mem31.team.beyond k x.2 16) = [(31, 4096)]) ∧
    (let s := mem31.putTeam (keyOf 1 0) { mem31.team with regions := [(0, 1)] }
     let c := laneOf s ldsw
     LongStarts s (.sts ldsw) ldsw none ∧ (c.scratch (memFn ldsw)).filter (fun x => s.team.compressed x.2.toNat 16) = [(31, 4080)] ∧
      (c.scratch (memFn ldsw)).filter (fun x => c.planes.any fun k => s.team.beyond k x.2 16) = []) := by decide +kernel

/-- SPAWNL from the last lane, RNG of four registers. -/
theorem test_laneSpawn :
    (let w := { wrd 0 0 384 0 0 0 with long := 1 }
     let c := laneOf mem31 w
     LongStarts mem31 (.spawnl w) w none ∧ mem31.group.handler = false ∧ (c.operand w.srcB 0).toNat % 4 = 0 ∧
      mem31.group.children + (Bits.lanesOf c.act).length ≤ 65535 ∧ mem31.cur.key = mem31.group.key ∧
      (Assoc.find? mem31.groups mem31.group.key).isSome = true ∧ (Assoc.find? mem31.grids mem31.group.grid).isSome = true ∧
      ∀ i, i < (Bits.lanesOf c.act).length → mem31.grid.children + i ≠ mem31.group.serial) ∧
    (let w := { wrd 380 0 0 0 0 3 with long := 1 }
     LongStarts (lan id) (.rng w) w none ∧ (lan id).group.role = .vector) := by decide +kernel

/-- A queued lane program; a header of one instruction at the code's start; a split at the join of its stack, with lanes deferred
and without. -/
def spl (x : Split) : State := lan fun g => g.putSplit 0 x
/-- The header of one instruction, which waits on flag 11 and stops. -/
def hdw : Nat := 15 * 2 ^ 92 + 2048 * 2 ^ 80 + 2 ^ 66 + 2 ^ 61
/-- Its state. -/
def hds : State := { spl (Split.start 0) with mem := (writeNat (lan id) 0x20000 12 hdw).mem }
/-- A split whose top join entry, with lanes deferred, reconverges where it stands. -/
def jns (defer : Mask) : Split := { Split.start 24 with joins := [⟨24, 1, defer, 12, 6⟩, ⟨48, 0, 0, 0, 0⟩] }

theorem test_laneStreamEvents :
    (let s := (grp fun g => { g with laneQ := [⟨7, 0, 0⟩] })
     let g := s.groupAt (keyOf 1 0)
     g.splits.length = 4 ∧ Assoc.find? s.groups (keyOf 1 0) = some g ∧ g.status = .running ∧ g.queue = [⟨7, 0, 0⟩] ∧
      g.handler = false ∧ (∀ y ∈ g.splits, y.valid = false) ∧ g.edgeMet ⟨0, 0⟩ = true) ∧
    (let g := hds.groupAt (keyOf 1 0)
     let x := g.splitAt 0
     (g.splits.length = 4 ∧ Assoc.find? hds.groups (keyOf 1 0) = some g ∧ g.splitRuns 0 = true ∧ x.index = 15 ∧ x.atJoin = false ∧
      x.fetch = none ∧ x.hold = [] ∧ x.bad = none) ∧
      ∃ ws s1 h, fetchWords { hds with cur := ⟨keyOf 1 0, some 0⟩ } g.die true (x.next (hds.gridAt g.grid)).toNat 3 = (.words ws, s1) ∧
        (decodeHeader (laneBits ws) = .ok h ∧ headerWidth g h ≤ g.tanw ∧ g.flagsReady h.wait false = true ∧
          (clauseEdges g h).all g.edgeMet = true)) ∧
    (let holds (d : Mask) : Bool :=
        let g := (spl (jns d)).groupAt (keyOf 1 0)
        g.splits.length == 4 && g.splitRuns 0 && (g.splitAt 0).atJoin && (g.splitAt 0).joins == (jns d).joins &&
          [1, 2, 3].all fun n => !((g.splitAt n).valid && (g.splitAt n).holds 1)
     holds 0 = true ∧ holds 8 = true) :=
  ⟨by decide +kernel,
    ⟨by decide +kernel, [0, 0x20000000, 0xF8000004], _, ⟨2048, false, 0, false, 0, 1, 0, false, true⟩,
      pair_eq (by decide +kernel), by decide +kernel⟩,
    by decide +kernel⟩

/-- A finished load of the last register, a finished draw, and a load of S2 that host memory has not answered for 12,500,000
cycles. -/
def ldo : LaneOp :=
  ⟨5, 0, 1, 0, some 11, .lanes 383 4 true false [], false, false, [], [⟨31, 0, 0x80000000⟩], [], 0, none⟩
/-- The draw. -/
def rgo : LaneOp := { ldo with id := 6, dest := .regs 1 [(383, 7)] }
/-- The scalar load. -/
def sco : ScalarOp := ⟨7, [(2, 9)], some ⟨0, 0x30000, 0x10000, false, 0⟩⟩
/-- A load whose lane 31 host memory has not answered for as long. -/
def fro : LaneOp := { ldo with id := 8, far := [(⟨31, 0, 0x30000, 4, .load, true⟩, 0)] }
/-- Its state. -/
def frs : State := { (lan fun g => { g with laneOps := [fro] }) with cycle := 12500000 }
/-- Their state. -/
def cps : State :=
  { (grp fun g => { g with laneOps := [ldo, rgo], scalarOps := [sco], flagCount := [(11, 2)] }) with cycle := 12500000 }

theorem test_accessCompletions :
    let g := cps.groupAt (keyOf 1 0)
    g.finished 5 false = some ldo ∧ ldo.far = [] ∧ g.finished 6 true = some rgo ∧ rgo.far = [] ∧
    rgo.dest = .regs 1 [(383, 7)] ∧ ldo.done.find? (fun x => x.lane == 31 && x.plane == 0) = some ⟨31, 0, 0x80000000⟩ ∧
    g.scalarOps.find? (fun x => x.id == 7) = some sco ∧ (∀ x ∈ g.laneOps, x.id ≠ 7) ∧
    g.scalarOps.filter (fun x => x.id == 7) = [sco] ∧ sco.far = some ⟨0, 0x30000, 0x10000, false, 0⟩ ∧
    0 + 12500000 ≤ cps.cycle.toNat ∧ g.handler = false ∧ (cps.gridAt g.grid).record.trapVec ≠ 0 := by decide +kernel

/-- A load of scales and a store, finished; a load that has had no answer; and an answered one, its split running and frozen. -/
theorem test_laneCompletions :
    (∀ d ∈ [Dest.scales 511 16 4 [1], .none], let o := { ldo with dest := d }
      (grp fun g => { g with laneOps := [o] }).group.finished 5 false = some o) ∧
    (let g := frs.groupAt (keyOf 1 0)
     g.laneOps.filter (fun x => x.id == 8) = [fro] ∧ fro.far.any (fun x => x.2 == 0) = true ∧ fro.since + 12500000 ≤ frs.cycle.toNat ∧
      g.handler = false ∧ g.status = .running ∧ fro.split < 4 ∧ g.atBoundary = true ∧ (frs.gridAt g.grid).record.trapVec ≠ 0 ∧
      g.finished 8 false = some fro ∧ fro.far ≠ [] ∧ g.splitRuns fro.split = true) ∧
    (let g := (lan fun g => { g with laneOps := [fro], handler := true }).groupAt (keyOf 1 0)
     g.finished 8 false = some fro ∧ g.splitRuns fro.split = false) := by decide +kernel

/-- A grid that has been launched, one that is ready, one whose next team fits a core, and one that has ended. -/
def gds (f : Grid → Grid) : State :=
  grd fun x => { x with record := { (fetchRecord .vector) with teams := 2 }, nextTeam := 1, eligible := some 0, order := 0 } |> f
/-- The core that its team is placed on has handed the memory of a scratchpad over. -/
def gdp : State :=
  let s := gds fun x => { x with record := { x.record with scratch := 4096 } }
  s.putCore 2 { s.coreAt 2 with taken := 4096 }

theorem test_gridEvents :
    (let s := gds fun x => { x with entered := false, reached := false, eligible := none }
     ∃ x, Assoc.find? s.grids 1 = some x ∧ x.entered = false ∧ x.reached = false) ∧
    (let s := gds fun x => { x with eligible := none }
     ∃ x, Assoc.find? s.grids 1 = some x ∧ x.entered = true ∧ x.reached = true ∧ x.eligible = none) ∧
    (let s := gds fun x => { x with record := { x.record with scratch := 4096 } }
     (s.coreAt 2).taken < sramWanted s 2) ∧
    (placerCore gdp 0 = some (.team 1, 2) ∧ (gdp.gridAt 1).record.sram ≤ (gdp.coreAt 2).taken ∧
      (gdp.gridAt 1).record.groups ≤ 32) ∧
    (let s := gds fun x => { x with retired := 2, record := { x.record with status := 0 } }
     gridEnded s 1 = true ∧ (s.gridAt 1).record.status.toNat = 0) ∧
    (let s := gds fun x => { x with retired := 2, record := { x.record with status := 0x2FFF8 } }
     let x := s.gridAt 1
     gridEnded s 1 = true ∧ x.record.status.toNat ≠ 0 ∧ x.noStatus = false ∧
      ∃ s1, translate s x.die x.record.status.toNat true = (.ok 0x3FFF8 0xC400000000003260, s1) ∧ fabricRefused s1 1 0x3FFF8 = false) ∧
    (let s := gds fun x => { x with retired := 2, record := { x.record with status := 0x10000 } }
     let x := s.gridAt 1
     gridEnded s 1 = true ∧ x.record.status.toNat ≠ 0 ∧ x.noStatus = false ∧
      ∃ s1, translate s x.die x.record.status.toNat true = (.prot, s1)) :=
  ⟨⟨_, rfl, by decide +kernel⟩, ⟨_, rfl, by decide +kernel⟩, by decide +kernel, by decide +kernel, by decide +kernel,
    ⟨by decide +kernel, by decide +kernel, by decide +kernel, _, pair_eq (by decide +kernel), by decide +kernel⟩,
    by decide +kernel, by decide +kernel, by decide +kernel, _, pair_eq (by decide +kernel)⟩

/-- What is found in an association list stands in it. -/
theorem find_mem {α : Type} {l : List (Nat × α)} {k : Nat} {v : α} (h : Assoc.find? l k = some v) : (k, v) ∈ l := by
  induction l with
  | nil => simp [Assoc.find?] at h
  | cons p l ih =>
    unfold Assoc.find? at h
    split at h
    · next he => exact List.mem_cons.mpr (.inl (Prod.ext (by simpa using he.symm) (by simpa using h.symm)))
    · exact List.mem_cons_of_mem _ (ih h)

/-- No line has a stored tag that is never written. -/
abbrev TagsFine (s : State) : Prop := ∀ x ∈ s.tags, x.2.toNat < 8

theorem badTag_fine {s : State} (h : TagsFine s) (die pa : Nat) : badTag s die pa = false := by
  have ht : (Assoc.get 1 s.tags (pa / 128)).toNat < 8 := by
    unfold Assoc.get
    cases hf : Assoc.find? s.tags (pa / 128) with
    | none => decide
    | some v => exact h _ (find_mem hf)
  simpa [badTag] using fun _ _ => ht

/-- Pages that are reached and hold no such line are reached by all their addresses. -/
theorem reach_all {s s' : State} {die key : Nat} {w : Bool} {addrs l : List Nat} {ps : List PagePlace}
    (h : reachPages s die key w l = (.ok ps, s')) (hl : onePerPage addrs = l) (ht : TagsFine s') :
    reachAll s die key w addrs = (.ok ps, s') := by
  unfold reachAll
  rw [hl, h]
  simp [tagsBad, badTag_fine ht]

/-- Pages of which one refuses refuse. -/
theorem reach_fault {s s' : State} {die key va : Nat} {w : Bool} {addrs l : List Nat} {code : BitVec 16}
    (h : reachPages s die key w l = (.fault code va, s')) (hl : onePerPage addrs = l) :
    reachAll s die key w addrs = (.fault code va, s') := by
  unfold reachAll
  rw [hl, h]

/-- A range within a page touches that page at its start. -/
theorem onePerPage_range {va n : Nat} (h : va % 65536 + (n + 1) ≤ 65536) (hv : va + (n + 1) ≤ 2 ^ 56) :
    onePerPage (addrRange va (n + 1)) = [va] := by
  have key : ∀ l : List Nat, (∀ a ∈ l, a / 65536 = va / 65536 ∧ va ≤ a) →
      l.foldl (fun m a => Assoc.put m (a / 65536) (min a ((Assoc.find? m (a / 65536)).getD a))) [(va / 65536, va)] =
        [(va / 65536, va)] := by
    intro l
    induction l with
    | nil => simp
    | cons a l ih =>
      intro h
      have ⟨h1, h2⟩ := h a (by simp)
      rw [List.foldl_cons, h1]
      have : Assoc.put [(va / 65536, va)] (va / 65536) (min a ((Assoc.find? [(va / 65536, va)] (va / 65536)).getD a)) =
          [(va / 65536, va)] := by simp [Assoc.put, Assoc.find?, Assoc.erase, Assoc.place, h2]
      rw [this]
      exact ih fun x hx => h x (by simp [hx])
  unfold onePerPage addrRange
  rw [List.range_succ_eq_map, List.map_cons, List.foldl_cons]
  have h0 : (va + 0) % 2 ^ 56 = va := by omega
  have h1 : Assoc.put [] (va / 65536) (min va ((Assoc.find? ([] : List (Nat × Nat)) (va / 65536)).getD va)) = [(va / 65536, va)] := by
    simp [Assoc.put, Assoc.find?, Assoc.erase, Assoc.place]
  rw [h0, h1, key]
  · rfl
  · intro a ha
    simp only [List.map_map, List.mem_map, List.mem_range, Function.comp] at ha
    obtain ⟨i, hi, rfl⟩ := ha
    omega

/-- A range in the page at 0x20000 is reached through it. -/
theorem slot_page {s : State} {die va b n : Nat} {w : Bool} (h : va = 0x20000 ∧ b = n + 1) (hn : n + 1 ≤ 65536)
    (hr : (reachPages s die 0 w [0x20000]).1 = .ok [⟨2, 0x30000, 0xC400000000003260⟩] ∧ TagsFine (reachPages s die 0 w [0x20000]).2) :
    reachAll s die 0 w (addrRange va b) = (.ok [⟨2, 0x30000, 0xC400000000003260⟩], (reachPages s die 0 w [0x20000]).2) := by
  obtain ⟨rfl, rfl⟩ := h
  exact reach_all (pair_eq hr.1) (onePerPage_range (by omega) (by omega)) hr.2

/-- Core 1 with a pending child of the group, of the same registers, and the group's frame. -/
def sls (f : Machine.Group → Machine.Group) : State :=
  let s := grd fun x => { x with record := { x.record with vecBudget := 16 } }
  let g := s.groupAt (keyOf 1 0)
  (s.putGroup (keyOf 1 1) { g with gid := 1, status := .pending, parent := some (keyOf 1 0), alloc := 16 }).putGroup (keyOf 1 0)
    (f { g with savearea := 0x1F000, alloc := 16, frame := some ⟨none, 1, false, 0, 0, [keyOf 1 1], none, none⟩ })

/-- The group is parked, and the child asks for more granules than it leaves. -/
def slb : State :=
  let s := sls fun g => { g with status := .parked, alloc := 256 }
  s.putGroup (keyOf 1 1) { s.groupAt (keyOf 1 1) with tanw := 255 }

/-- A pending child takes a slot; a parked continuation does, its registers held or in its entry; a parked continuation gives
its granules to a pending child. -/
theorem test_slotEvents :
    (let s := sls id
     nextClaimant s 1 = some (keyOf 1 1) ∧ freeSlot s (s.groupAt (keyOf 1 1)).core = some 1 ∧
      (s.groupAt (keyOf 1 1)).status = .pending) ∧
    (let s := sls fun g => { g with status := .parked, frame := some ⟨none, 0, false, 0, 0, [], none, none⟩ }
     nextClaimant s 1 = some (keyOf 1 0) ∧ freeSlot s (s.groupAt (keyOf 1 0)).core = some 0 ∧
      (s.groupAt (keyOf 1 0)).status = .parked ∧ (s.groupAt (keyOf 1 0)).frame.bind (·.evicted) = none) ∧
    (let s := sls fun g => { g with status := .parked, frame := some ⟨none, 0, false, 0, 0, [], some 0, none⟩ }
     let g := s.groupAt (keyOf 1 0)
     (nextClaimant s 1 = some (keyOf 1 0) ∧ freeSlot s g.core = some 0 ∧ g.status = .parked ∧ g.frame.bind (·.evicted) = some 0 ∧
      g.alloc ≤ 512) ∧ ∃ ps s1, reachAll s (dieOfCore 1) 0 false
        (addrRange (g.savearea.toNat + 0x1000 + 0 * (s.gridAt g.grid).record.entryBytes) ((g.tanw + 1) * 160 * g.alloc)) =
          (.ok ps, s1)) ∧
    (let s := slb
     let g := s.groupAt (keyOf 1 0)
     let r := (s.gridAt g.grid).record
     (evictionWanted s 1 = true ∧ nextEvicted s 1 = some (keyOf 1 0) ∧ freeEntry s g.teamKey = some 0 ∧
      (Assoc.find? s.groups (keyOf 1 0)).isSome = true ∧ g.status = .parked) ∧
      ∃ ps s1, reachAll s (dieOfCore 1) 0 true
        (addrRange (g.savearea.toNat + 0x1000 + 0 * r.entryBytes) ((g.tanw + 1) * 160 * g.alloc)) = (.ok ps, s1)) :=
  ⟨by decide +kernel, by decide +kernel,
    ⟨by decide +kernel, _, _, slot_page (n := 2559) (by decide +kernel) (by decide) (by decide +kernel)⟩,
    by decide +kernel, _, _,
    slot_page (n := 40959) (by decide +kernel) (by decide) (by decide +kernel)⟩

/-- A state whose matrix engine holds one command with a control word. -/
def mce (op : MatrixOp) (w : Word) (f : MatrixCmd → MatrixCmd) (h : Machine.Team → Machine.Team) : State :=
  let s := mtx w id
  let c := newCommand s s.group s.team op ⟨0, 1, 2, 11⟩ false none none
  s.putTeam (keyOf 1 0) (h { s.team with engine := { s.team.engine with queue := [f c] } })
/-- The same after some passes at a tangent width. -/
def mcs (op : MatrixOp) (w : Word) (passes width : Nat) : State :=
  mce op w (fun c => { c with passes := passes, sample := { c.sample with width := width } }) id
/-- A team of redundant mode whose tile 0 has one element. -/
def rdn (x : Nat) (t : Machine.Team) : Machine.Team := { t.writeZ 0 0 [x] with engine := { t.engine with redundant := true } }

/-- The one command of a state's engine has a pass to start, its scratchpad as at its issue. -/
def passes (s : State) (p : MatrixCmd → Bool) : Bool :=
  let t := s.teamAt (keyOf 1 0)
  match t.engine.queue with
  | [c] => passReady t && !enginePaused s (keyOf 1 0) && decide (c.sample.width ≤ 4) && decide (t.planes ≤ 5) &&
      c.early == t.scratch && p c
  | _ => false

/-- The last pass of an MMA of 128 rows, its first one, and the first of one from the bypass; MMA2, MVNB and a load. -/
theorem test_matrixPasses :
    passes (mcs .mma 0x3007F0010 2 1) (fun c => c.op == .mma && c.passes != 0) = true ∧
    passes (mcs .mma 0x3007F0010 0 1) (fun c => c.op == .mma && c.passes == 0 && c.word.kind != 3) = true ∧
    passes (mcs .mma 3 0 1) (fun c => c.op == .mma && c.passes == 0 && c.word.kind == 3) = true ∧
    passes (mcs .mma2 0x3007F0010 0 1) (fun c => c.op == .mma2 && c.word.za != c.word.zb) = true ∧
    passes (mcs .mvnb 0x10 8 4) (fun c => c.op == .mvnb && c.passes != 0) = true ∧
    passes (mcs (.mld true) 0x7F0010 0 0) (fun c => c.op == .mld true) = true := by decide +kernel

/-- Drains with and without clr and to the bypass, MZERO and MMODE. -/
theorem test_matrixOtherPasses :
    passes (mcs .mdrain drw 0 0) (fun c => c.op == .mdrain && c.word.clr) = true ∧
    passes (mcs .mdrain 0x7F0010 0 0) (fun c => c.op == .mdrain && !c.word.clr && c.word.kind != 3) = true ∧
    passes (mcs .mdrain 0x7F0013 0 0) (fun c => c.op == .mdrain && c.word.kind == 3) = true ∧
    passes (mcs (.mzero false 3) 0 0 0) (fun c => c.op == .mzero false 3) = true ∧
    passes (mcs (.mzero true 0) 0 0 0) (fun c => c.op == .mzero true 0) = true ∧
    passes (mcs (.mmode true) 0 0 0) (fun c => c.op == .mmode true) = true := by decide +kernel

/-- A drain of one row of such a team. -/
def rds (x : Nat) : State := mce .mdrain 0x10 id (rdn x)

/-- Its copies agree, and they differ. -/
theorem test_redundantDrain : passes (rds 0) (fun c => c.op == .mdrain && c.word.m == 1) = true ∧
    passes (rds 1) (fun c => c.op == .mdrain && c.word.m == 1) = true ∧
    ((rds 0).team.engine.redundant = true ∧ (rds 1).team.engine.redundant = true ∧ (rds 1).team.planes = 1) ∧
    (mismatchAt (rds 0).team 0 1 (rds 0).team.planes = none ∧ mismatchAt (rds 1).team 0 1 (rds 1).team.planes = some (0, 0)) :=
  ⟨by decide +kernel, by decide +kernel, by decide +kernel, by decide +kernel⟩

/-- An MVNB whose second operand's page is reached, in local HBM. -/
def nrc : MatrixCmd :=
  let s := mtx 0x10 id
  { newCommand s s.group s.team .mvnb ⟨0, 1, 2, 11⟩ false none none with rec2 := BitVec.ofNat 512 shp }
/-- Its state. -/
def nrs : State := mce .mvnb 0x10 (fun _ => nrc) id
/-- The state that its first operand leaves. -/
def nrt : State := (takeOperand nrs (keyOf 1 0) nrc (nrc.first nrc.word.m ((shapeOf nrc.rec2).bx 0)) nrc.loaded).2

/-- The addresses of its second operand. -/
def nra : List Nat :=
  (Place.mem ((shapeOf nrc.rec2).base false)).addrs nrc.sample ((shapeOf nrc.rec2).view nrc.other).offsets

/-- Its first pass. -/
theorem test_nearFirst : (nrs.teamAt (keyOf 1 0)).engine.queue = [nrc] ∧ passReady (nrs.teamAt (keyOf 1 0)) = true ∧ nrc.op = .mvnb ∧
    enginePaused nrs (keyOf 1 0) = false ∧ nrc.passes = 0 ∧ nrc.early2 = [] ∧
    ∃ ps s1, reachAll nrt (dieOfCore (nrt.teamAt (keyOf 1 0)).core) (shapeOf nrc.rec2).key false nra = (.ok ps, s1) ∧
      ∀ va, va ∈ nra → spaceOf (reachAddr ps va).1 = 0 := by
  have h : (reachPages nrt (dieOfCore (nrt.teamAt (keyOf 1 0)).core) (shapeOf nrc.rec2).key false (onePerPage nra)).1 =
      .ok [⟨2, 0x30000, 0xC400000000003260⟩] := by decide +kernel
  have he : nrc.early2 = [] := by decide +kernel
  exact ⟨by decide +kernel, by decide +kernel, rfl, by decide +kernel, rfl, he, _, _,
    reach_all (l := onePerPage nra) (pair_eq h) rfl (by decide +kernel), by decide +kernel⟩

/-- A push to a ring's last slot and a pop from it. -/
def rgs (full : BitVec 16) (push : Bool) : State :=
  let s := scr 64 0
  s.putTeam (keyOf 1 0) { s.team with
    rings := [(15, ⟨2, 64, 2, if push then 1 else 2, full, 0, if push then [1] else [], if push then [] else [1], [], 0⟩)]
    ringOps := [⟨9, keyOf 1 0, some 11, push, 15, 1, 65472, 64, 0⟩] }

/-- A drain that has read one row of E4M3 or of FP32, into the scratchpad or slot 1 of ring 15. -/
def drn (w : Word) (x : List Tile) : State :=
  mce .mdrain w (fun c => { c with passes := 1, loaded := x, claim1 := some 1 }) fun t =>
    { t with rings := [(15, ⟨2, 512, 2, 1, 1, 0, [1], [], [], 0⟩)] }
/-- The row. -/
def row (ty : Nat) : Tile := ⟨ty, 32, 1, 128, [], [], []⟩

/-- A load that has run; a linear drain, a split one, one to a ring, and one whose redundant copies differ. -/
theorem test_matrixCompletion :
    let done (s : State) (p : Machine.Team → MatrixCmd → Bool) : Bool :=
      let t := s.teamAt (keyOf 1 0)
      match t.engine.queue with
      | [c] => matrixDone t && !c.child && (Assoc.find? s.groups c.key).isSome && c.op == .mdrain && c.life.fault == 0 && p t c
      | _ => false
    let writes (c : MatrixCmd) : Bool := c.passes == c.total && c.loaded != [] && decide (c.word.kind < 2)
    (let s := mcs (.mld true) 0x7F0010 1 0
     ∃ c, (s.teamAt (keyOf 1 0)).engine.queue = [c] ∧ matrixDone (s.teamAt (keyOf 1 0)) = true ∧ c.child = false ∧ c.op = .mld true ∧
      (Assoc.find? s.groups c.key).isSome = true) ∧
    done (drn 0 [row 0]) (fun t c => writes c && c.word.kind == 0 && !c.word.split && t.regions == [] &&
      t.wholeTiles c.src.toNat ((c.loaded.map (drainBytes c)).headD []).length &&
      c.loaded.all fun x => decide (x.linearBytes.length ≤ t.w)) = true ∧
    done (drn (drw - 0x7F0000) [row 3]) (fun t c => writes c && c.word.kind == 0 && c.word.split && t.regions == [] &&
      t.wholeTiles c.src.toNat ((c.loaded.map (drainBytes c)).headD []).length &&
      c.loaded.all fun x => decide (x.codeBytes.length ≤ t.w) && decide (c.word.qbase + x.scaleRegs.length ≤ 512)) = true ∧
    done (drn (1 + 15 * 2 ^ 40) [row 0]) (fun t c => writes c && c.word.kind == 1 && !c.word.split && c.claim1 == some 1 &&
      c.claim2 == none && ((t.ring c.word.ring).any fun r => decide (0 < r.slots)) &&
      c.loaded.all fun x => decide (x.linearBytes.length ≤ operandBytes c.word.fmt (blockLen c.word.b16) c.word.m 128 false)) = true ∧
    done (mce .mdrain 0x10 (fun c => { c with passes := 1 }) (rdn 1)) (fun t c => c.loaded == [] &&
      mismatchAt t c.word.za c.word.m t.planes == some (0, 0)) = true :=
  ⟨⟨_, rfl, by decide +kernel⟩, by decide +kernel, by decide +kernel, by decide +kernel, by decide +kernel⟩

/-- A push and a pop that find their turn, a result of the coelostat, a waiting program, and one that has ended. -/
theorem test_ringCompletion :
    (∀ push : Bool, let s := rgs (if push then 0 else 2) push
     let t := s.teamAt (keyOf 1 0)
     ∃ o x, t.ringOps.find? (fun y => y.id == 9 && (if push then y.push else !y.push)) = some o ∧ o.turn t = true ∧
      t.ring o.ring = some x ∧ 0 < x.slots ∧ o.bytes ≤ t.w) ∧
    (let s := (rgs 0 true).putTeam (keyOf 1 0) { (rgs 0 true).team with ringOps := [] }
     let s := s.putCore 1 { s.coreAt 1 with strmOut := [⟨9, 3, keyOf 1 0, 15, 1, [1, 2]⟩] }
     let t := s.teamAt (keyOf 1 0)
     t.ringOps.find? (fun y => y.id == 9 && y.push) = none ∧ outFor s (keyOf 1 0) 9 = some ⟨9, 3, keyOf 1 0, 15, 1, [1, 2]⟩ ∧
      t.turn true 15 (some 1) = true ∧ (t.ring 15).isSome = true) ∧
    (let s := st.putCore 1 { st.coreAt 1 with strmQ := [mcc 0 shp] }
     (s.coreAt 1).strm = none ∧ (s.coreAt 1).strmQ = [mcc 0 shp]) ∧
    (let s := st.putCore 1 { st.coreAt 1 with strmDone := [mcc 0 shp] }
     (s.coreAt 1).strmReady = some (mcc 0 shp) ∧ NoRecord (mcc 0 shp).sample (mcc 0 shp).life) :=
  ⟨fun push => by cases push <;> exact ⟨_, _, rfl, by decide +kernel, rfl, by decide +kernel⟩,
    by decide +kernel, by decide +kernel, by decide +kernel⟩

/-- No translation of a page has been cached, and it lies on a way that the node caches know, under a leaf that serves the access. -/
abbrev KnownWay (s : State) (die a at_ pa : Nat) (e leaf : Word) (w : Bool) : Prop :=
  tlbFind (s.dieAt die) a = none ∧
  (spaceOf (rootNode s) = 0 ∧ rootNode s < hbmEnd ∧ walkFrom s a (rootNode s) [0, 1, 2, 3] = .leaf e at_ 3) ∧
  (∀ n ∈ (s.dieAt die).nodes, n.covers a = true → spaceOf n.node = 0 ∧ n.node < hbmEnd ∧
    walkFrom s a n.node ((List.range 4).drop n.level) = .leaf e at_ 3) ∧
  (∀ p ∈ (rootNode s, [0, 1, 2, 3]) :: (s.dieAt die).nodes.map (fun n => (n.node, (List.range 4).drop n.level)),
    leafAnswer (walkedFrom s die a p) (markedLeaf e w) (a / 65536 * 65536) 65536 a w = .ok pa leaf)

/-- Such a page is translated by a walk. -/
theorem translate_known {s : State} {die a at_ pa : Nat} {e leaf : Word} {w : Bool} (h : KnownWay s die a at_ pa e leaf w) :
    Machine.translate s die a w = (.ok pa leaf, takeLeaf (walked s die a) die a at_ (a / 65536 * 65536) 65536 e w) := by
  obtain ⟨h0, h1, hw, hl⟩ := h
  have hl := walked_any (P := fun t => leafAnswer t _ _ _ _ _ = _) hl
  unfold Machine.translate translateByWalk
  rw [h0]
  simp only [walkBy_any h1 hw]
  exact congrArg (·, takeLeaf (walked s die a) die a at_ (a / 65536 * 65536) 65536 e w) hl

/-- Such a page is reached. -/
theorem reach_next {s : State} {die key a at_ pa : Nat} {e leaf : Word} {w : Bool}
    (h : KnownWay s die a at_ pa e leaf w ∧ (key = 0 ∨ leafKey leaf = key) ∧ spaceOf pa ≠ 3)
    (ht : ∀ p ∈ (rootNode s, [0, 1, 2, 3]) :: (s.dieAt die).nodes.map (fun n => (n.node, (List.range 4).drop n.level)),
      TagsFine (takeLeaf (walkedFrom s die a p) die a at_ (a / 65536 * 65536) 65536 e w)) {addrs : List Nat} (hl : onePerPage addrs = [a]) :
    ∃ s', reachAll s die key w addrs = (.ok [⟨a / 65536, pa - a % 65536, leaf⟩], s') := by
  have ht := walked_any (P := fun t => TagsFine (takeLeaf t die a at_ (a / 65536 * 65536) 65536 e w)) ht
  have hf : ∀ t : State, ∀ n, fabricRefused t n pa = false := fun t n => by simp [fabricRefused, h.2.2]
  have hn : ¬(key ≠ 0 ∧ leafKey leaf ≠ key) := fun x => h.2.1.elim x.1 x.2
  refine ⟨_, reach_all (l := [a]) (s' := takeLeaf (walked s die a) die a at_ (a / 65536 * 65536) 65536 e w) ?_ hl ht⟩
  unfold reachPages
  rw [translate_known h.1]
  simp [reachPages, hn, hf]

/-- A copy of 16 bytes of BF16 from page 0x20000 to page 0x30000. -/
def cpm : Nat := 0x20000 + 0x30000 * 2 ^ (8 * 8) + 8 * 2 ^ (8 * 0x10) + 2 ^ (8 * 0x14) + 2 ^ (8 * 0x2A) + 2 ^ (8 * 0x2B)
/-- A gradient accumulation in the tensor of a record. -/
def gam : TransitOp := .gacc 0 0 none false
/-- A record of FP32, and of BF16, promoted, with its shadow in the same page, at 0x30000. -/
def gar (fmt : Nat) : Nat := shp - 0x28000 - 2 ^ 56 + 0x30000 + fmt * (2 ^ 56 + 0x38000 * 2 ^ 128 + 2 ^ 184 + 2 ^ 186)
/-- A started command with the number 3, with its first record. -/
def trn (op : TransitOp) (r : Nat) (f : TransitCmd → TransitCmd) : TransitCmd :=
  f { newTransit st st.group op none (some (BitVec.ofNat 512 r)) none with id := 3, flag := some 11, started := true }
/-- Its core, with an unstarted command behind it; page 0x30000 is of host or of local memory. -/
def trs (c : TransitCmd) (near : Bool) : State :=
  let s := tab 0
  let s := if near then writeNat s 0xE018 8 (2 ^ 63 + 2 ^ 62 + 2 ^ 58 + 4 * 4096 + 0x260) else s
  let s := s.putTeam (keyOf 1 0) { s.team with w := 65536 }
  s.putCore 1 { s.coreAt 1 with transit := List.replicate 7 { c with id := 2 } ++ [c, { c with id := 4, started := false }] }

/-- A command that has not started, beside seven that run, and one whose page service has ended. -/
theorem test_transitStart : ∀ f ∈ [fun c : TransitCmd => { c with started := false }, fun c => { c with left := true }],
    let c := trn (.copy 0) 0 id
    let s := (trs c false).putCore 1 { (trs c false).coreAt 1 with transit := List.replicate 7 c ++ [f c] }
    (s.coreAt 1).transit.find? (·.enters) = some (f c) ∧ ((s.coreAt 1).transit.filter (·.running)).length < 8 := by
  intro f hf
  simp only [List.mem_cons, List.not_mem_nil, or_false] at hf
  rcases hf with rfl | rfl <;> decide +kernel

/-- The copy. -/
def cpc : TransitCmd := trn (.copy (BitVec.ofNat 512 cpm)) 0 id
/-- The addresses that it reads, and those that it writes. -/
def cpa : List Nat × List Nat :=
  let d := BitVec.ofNat 512 cpm
  let x := copyDesc d
  let rc := copySize x none none
  let rd := endSize x true rc
  let src := (copyEnd d 0).place none x.inactive cpc.srcPos rc.1 rc.2
  let dst := (copyEnd d 1).place none x.inactive cpc.dstPos rd.1 rd.2
  (src.1.addrs cpc.sample src.2.1.offsets,
    dst.1.addrs cpc.sample (((copyEnd d 1).image dst.2.1 ⟨dst.2.1.ty, dst.2.1.len, rd.1, rd.2, [], [], []⟩).map (·.1)))

/-- Its source lies in a page that no access may have. -/
def unreadable (c : TransitCmd) : State := writeNat (trs c false) 0xE010 8 (2 ^ 63 + 2 ^ 62 + 3 * 2 ^ 58 + 3 * 4096 + 0x260)

/-- A command that is past its accesses, one that has met a fault and one that does its work; the key of a copy's source and
destination is none, and unsealing has none to use; a copy to the scratchpad,
one that does not cover its compressed tiles, a destination page that refuses, and a source page that does. -/
theorem test_transitEnds :
    (∀ op ∈ [.copy 0, .copy (BitVec.ofNat 512 cpm), gam], ∀ life ∈ [Life.fresh, { Life.fresh with past := true },
        { Life.fresh with fault := 2 }],
      let c := trn op (gar 1) fun c => { c with life := life }
      ((trs c false).coreAt 1).transit.find? (fun x => x.id == 3) = some c ∧ c.running = true ∧
      c.turns ((trs c false).teamAt ((trs c false).groupAt c.key).teamKey) = true ∧ NoRecord c.sample c.life) ∧
    (let x := copyDesc (BitVec.ofNat 512 cpm)
     let rd := endSize x true (copySize x none none)
     (copyEnd (BitVec.ofNat 512 cpm) 0).kind = 0 ∧ (copyEnd (BitVec.ofNat 512 cpm) 1).kind = 0 ∧
     ∀ q : Word, sealingOf (BitVec.ofNat 512 cpm) cpc [⟨2, 0x30000, 0xC400000000003260⟩] [⟨3, 2 * 2 ^ 50 + 0x40000, q⟩] rd.2 = .plain) ∧
    sealingOf (BitVec.ofNat 512 (cpm + 2 * 2 ^ (8 * 0x2C))) cpc [⟨2, 0x30000, 0xC400000000003260⟩]
      [⟨3, 2 * 2 ^ 50 + 0x40000, 0xC800800000004260⟩] 16 = .bad 0x100 ∧
    (let d := BitVec.ofNat 512 (cpm - 0x30000 * 2 ^ (8 * 8) + 2 ^ (8 * 0x29))
     let x := copyDesc d
     let rd := endSize x true (copySize x none none)
     let dst := (copyEnd d 1).place none x.inactive none rd.1 rd.2
     (copyEnd d 1).kind = 1 ∧ ((trs cpc false).teamAt (keyOf 1 0)).coversTiles (copyEnd d 1).value.toNat
       (((copyEnd d 1).image dst.2.1 ⟨dst.2.1.ty, dst.2.1.len, rd.1, rd.2, [], [], []⟩).map (·.1)) = true) ∧
    (let s := (trs cpc false).putTeam (keyOf 1 0) { (trs cpc false).team with regions := [(0, 1)] }
     (s.teamAt (keyOf 1 0)).coversTiles 16 (List.range 16) = false) ∧
    (∃ va s1, reachAll (trs cpc false) 0 0 true [0x10000] = (.fault 2 va, s1)) ∧
    (∃ va s1, reachAll (unreadable cpc) 0 0 false cpa.1 = (.fault 2 va, s1)) ∧
    ((copyEnd (BitVec.ofNat 512 (cpd - 256 * 2 ^ (8 * 8) + 0x10000 * 2 ^ (8 * 8) - 2 ^ (8 * 0x29))) 0).kind = 1 ∧
      (copyEnd (BitVec.ofNat 512 (cpd - 256 * 2 ^ (8 * 8) + 0x10000 * 2 ^ (8 * 8) - 2 ^ (8 * 0x29))) 1).kind = 0 ∧
      reachAll (trs cpc false) 0 0 false [] = (.ok [], trs cpc false)) := by
  refine ⟨?_, ⟨by decide +kernel, by decide +kernel, fun q => rfl⟩, by decide +kernel, by decide +kernel, by decide +kernel,
    ⟨0x10000, _, reach_fault (l := [0x10000]) (pair_eq (by decide +kernel)) (by decide +kernel)⟩,
    ⟨0x20000, _, reach_fault (pair_eq (by decide +kernel)) rfl⟩, by decide +kernel, by decide +kernel, rfl⟩
  intro op ho life hl
  simp only [List.mem_cons, List.not_mem_nil, or_false] at ho hl
  rcases ho with rfl | rfl | rfl <;> rcases hl with rfl | rfl | rfl <;> decide +kernel

/-- The copy's pages are reached. -/
theorem test_copyPages : ∃ ps s1 qs s2, reachAll (trs cpc false) 0 0 false cpa.1 = (.ok ps, s1) ∧
    reachAll s1 0 0 true cpa.2 = (.ok qs, s2) := by
  have ⟨s2, h⟩ := reach_next (s := (reachPages (trs cpc false) 0 0 false (onePerPage cpa.1)).2) (die := 0) (key := 0) (a := 0x30000)
    (at_ := 0xE018) (e := 0xC800800000004260) (pa := 2 * 2 ^ 50 + 0x40000) (leaf := 0xC800800000004260) (w := true)
    (by decide +kernel) (by decide +kernel) (addrs := cpa.2) (by decide +kernel)
  exact ⟨[⟨2, 0x30000, 0xC400000000003260⟩], _, _, s2, reach_all (pair_eq (by decide +kernel)) rfl (by decide +kernel), h⟩

/-- A fetch of a handle's operand in page 0x20000 for an MMA, with a transfer of it in core 1's queue. -/
def ftm : MatrixCmd := { newCommand (mtx 2 id) (mtx 2 id).group (mtx 2 id).team .mma ⟨0, 1, 2, 11⟩ false none none with
  id := 6, rec1 := BitVec.ofNat 512 shp }
/-- A drain of a row to the same box. -/
def ftd : MatrixCmd := { ftm with op := .mdrain, passes := 1, loaded := [⟨1, 32, 1, 128, [], [], []⟩] }
/-- Their state. -/
def fts (m : MatrixCmd) (op : TransitOp) : State :=
  let s := mce .mma 2 (fun _ => m) id
  s.putCore 1 { s.coreAt 1 with transit := [trn op 0 id] }
/-- The addresses of the box. -/
def fta (m : MatrixCmd) : List Nat :=
  let o := m.fetched false
  o.1.addrs m.sample o.2.1.offsets

theorem test_handleTransfers :
    (∀ x ∈ [(ftm, TransitOp.fetch (keyOf 1 0) 6 false), (ftd, .drain (keyOf 1 0) 6)],
      let s := fts x.1 x.2
      ((s.coreAt 1).transit.find? fun c => c.id == 3) = some (trn x.2 0 id) ∧ (trn x.2 0 id).running = true ∧
      (trn x.2 0 id).turns (s.teamAt (keyOf 1 0)) = true ∧ (s.teamAt (keyOf 1 0)).matrixCmd 6 = some x.1 ∧
      (s.teamAt (keyOf 1 0)).core = 1) ∧
    ((ftm.fetched false).1 = .mem 0x28000 ∧ (ftd.first ftd.word.m 128).1 = .mem 0x28000) ∧
    (∃ ps s1, reachAll (fts ftm (.fetch (keyOf 1 0) 6 false)) 0 (ftm.fetched false).2.2 false (fta ftm) = (.ok ps, s1)) ∧
    (let o := ftd.first ftd.word.m 128
     ∃ ps s1, reachAll (fts ftd (.drain (keyOf 1 0) 6)) 0 o.2.2 true
      (o.1.addrs ftd.sample (((drainImages ftd).headD []).map (·.1))) = (.ok ps, s1)) ∧
    (let c := { ftd with rec1 := BitVec.ofNat 512 (shp + 2 ^ 120) }
     let o := c.first c.word.m 128
     ∃ va s1, reachAll (fts c (.drain (keyOf 1 0) 6)) 0 o.2.2 true
      (o.1.addrs c.sample (((drainImages c).headD []).map (·.1))) = (.fault 2 va, s1)) := by
  refine ⟨?_, by decide +kernel, ?_, ?_, 0x28000, _, reach_fault (pair_eq (by decide +kernel)) rfl⟩
  · intro x hx
    simp only [List.mem_cons, List.not_mem_nil, or_false] at hx
    rcases hx with rfl | rfl <;> decide +kernel
  · exact ⟨[⟨2, 0x30000, 0xC400000000003260⟩], _, reach_all (pair_eq (by decide +kernel)) rfl (by decide +kernel)⟩
  · exact ⟨[⟨2, 0x30000, 0xC400000000003260⟩], _, reach_all (pair_eq (by decide +kernel)) rfl (by decide +kernel)⟩

/-- A gradient accumulation reaches its tensor's page, of local or of host memory, and its record's. -/
theorem test_gaccPages (fmt : Nat) (hf : fmt < 2) (near : Bool) :
    let c := trn gam (gar fmt) id
    let s := trs c near
    let sh := shapeOf c.srcRec
    let shadow := if sh.fmt = 1 ∧ (sh.acc = 2 ∨ sh.promote = true) then sh.bitmapByte (sh.tileIndex 0) ::
        (sh.view 0).inside.flatMap fun e => [sh.shadowAddr (e.2 / 2), sh.shadowAddr (e.2 / 2) + 3]
      else []
    (sh.fmt = fmt ∧ (sh.promote = true ↔ fmt = 1) ∧ (s.teamAt (s.groupAt c.key).teamKey).core = 1) ∧
    ∃ p q s1 s2, reachAll s 0 sh.key true ((Place.mem (sh.base false)).addrs c.sample (sh.view 0).offsets ++ shadow) = (.ok [p], s1) ∧
      reachAll s1 0 0 true [shapeAddr (s.gridAt (s.groupAt c.key).grid) (handleIndex 0) + 0x18] = (.ok [q], s2) ∧
      p.gaccOk = near ∧ q.gaccOk = true := by
  intro c s sh shadow
  obtain rfl | rfl : fmt = 0 ∨ fmt = 1 := by omega
  all_goals
    have ha : onePerPage ((Place.mem (sh.base false)).addrs c.sample (sh.view 0).offsets ++ shadow) = [0x30000] := by decide +kernel
    have hb : onePerPage [shapeAddr (s.gridAt (s.groupAt c.key).grid) (handleIndex 0) + 0x18] = [0x20018] := by
      cases near <;> decide +kernel
    have ⟨s2, h⟩ := reach_next (s := (reachPages s 0 sh.key true [0x30000]).2) (die := 0) (key := 0) (a := 0x20018)
      (at_ := 0xE010) (e := 0xC400000000003260) (pa := 0x30018) (leaf := 0xC400000000003260) (w := true)
      (by cases near <;> decide +kernel) (by cases near <;> decide +kernel) hb
    refine ⟨by cases near <;> decide +kernel, if near then ⟨3, 0x40000, 0xC400000000004260⟩ else ⟨3, 2 * 2 ^ 50 + 0x40000, 0xC800800000004260⟩,
      _, _, s2, reach_all (pair_eq ?_) ha ?_, h, ?_, by decide +kernel⟩ <;> cases near <;> decide +kernel

/-- A collective with the number 3 whose members are devices 0 and 1, both up or both lost, and the other's part. -/
def cls (life : Life) (up near : Bool) : State :=
  let s := trs cpc near
  { s with
    colls := [⟨3, keyOf 1 0, BitVec.ofNat 512 (0x20000 + 0x30000 * 2 ^ 64 + 2 ^ 128), 0, [0, 1], 0, some 11, sampleOf st st.group, life⟩]
    incs := [(0, ⟨0, up⟩), (1, ⟨0, up⟩)] }
/-- Its descriptor. -/
def clx : CollDesc := collDesc (BitVec.ofNat 512 (0x20000 + 0x30000 * 2 ^ 64 + 2 ^ 128))

/-- A collective past its accesses, with a fault, with a lost member and with none; parts that agree and that do not. -/
theorem test_collectiveCompletion :
    (∀ life ∈ [Life.fresh, { Life.fresh with past := true }, { Life.fresh with fault := 2 }], ∀ up ∈ [true, false],
      ∃ c, (cls life up true).colls.find? (fun x => x.id == 3) = some c ∧ c.life = life ∧ c.life.wait = none ∧ NoRecord c.sample c.life ∧
        c.members.length = 2) ∧
    (∃ m ∈ [0, 1], m ≠ Config.deviceNumber.toNat ∧ ((cls Life.fresh false true).incAt m).up = false) ∧
    (¬∃ m ∈ [0, 1], m ≠ Config.deviceNumber.toNat ∧ ((cls Life.fresh true true).incAt m).up = false) ∧
    (let p : MemberPart := ⟨clx.op, clx.fmt, clx.count, [List.replicate (clx.sent 2 * clx.width) 0]⟩
     partAgrees p clx = true ∧ partFull p clx 2 1 = true ∧ partAgrees { p with count := clx.count + 1 } clx = false) := by
  refine ⟨?_, ?_, ?_, by decide +kernel⟩
  · intro life hl up _
    simp only [List.mem_cons, List.not_mem_nil, or_false] at hl
    rcases hl with rfl | rfl | rfl <;> cases up <;> exact ⟨_, rfl, by decide +kernel⟩
  · by_cases h : Config.deviceNumber.toNat = 0
    · exact ⟨1, by simp, by omega, by decide +kernel⟩
    · exact ⟨0, by simp, fun e => h e.symm, by decide +kernel⟩
  · rintro ⟨m, hm, -, h⟩
    have : (m = 0 ∨ m = 1) := by simpa using hm
    rcases this with rfl | rfl <;> revert h <;> decide +kernel

/-- Its buffers are reached, the second of local or of host memory. -/
theorem test_collectivePages (near : Bool) :
    let s := cls Life.fresh true near
    ∃ p q s1 s2, reachAll s 0 0 false
        ((Place.mem clx.send).addrs (sampleOf st st.group) (List.range (clx.sent 2 * clx.width))) = (.ok [p], s1) ∧
      reachAll s1 0 0 true
        ((Place.mem clx.recv).addrs (sampleOf st st.group) (List.range (clx.received 2 * clx.width))) = (.ok [q], s2) ∧
      (spaceOf p.pa = 0 ∧ leafType p.leaf = 0 ∧ leafClass p.leaf ≤ 1) ∧
      (spaceOf q.pa = 0 ∧ leafType q.leaf = 0 ∧ leafClass q.leaf ≤ 1 ↔ near = true) := by
  intro s
  have ha : onePerPage ((Place.mem clx.send).addrs (sampleOf st st.group) (List.range (clx.sent 2 * clx.width))) = [0x20000] := by
    decide +kernel
  have hb : onePerPage ((Place.mem clx.recv).addrs (sampleOf st st.group) (List.range (clx.received 2 * clx.width))) = [0x30000] := by
    decide +kernel
  let q : PagePlace := if near then ⟨3, 0x40000, 0xC400000000004260⟩ else ⟨3, 2 * 2 ^ 50 + 0x40000, 0xC800800000004260⟩
  have ⟨s2, h⟩ := reach_next (s := (reachPages s 0 0 false [0x20000]).2) (die := 0) (key := 0) (a := 0x30000)
    (at_ := 0xE018) (e := q.leaf) (pa := q.pa) (leaf := q.leaf) (w := true)
    (by cases near <;> decide +kernel) (by cases near <;> decide +kernel) hb
  refine ⟨⟨2, 0x30000, 0xC400000000003260⟩, _, _, s2, reach_all (pair_eq ?_) ha ?_, h, by decide +kernel, ?_⟩ <;>
    cases near <;> decide +kernel

/-- A trap vector of 0. -/
def noVector (s : State) : State := s.putGrid 1 { s.gridAt 1 with record := { (s.gridAt 1).record with trapVec := 0 } }

/-- The group of core 1 stands at a scalar boundary. -/
def boundary (s : State) (p : Machine.Group → Bool) : Bool :=
  let g := s.groupAt (keyOf 1 0)
  Assoc.find? s.groups (keyOf 1 0) == some g && g.status == .running && !g.handler && g.atBoundary && p g

/-- Each cause of a scalar boundary, with a trap vector and without; and a pending user interrupt. -/
theorem test_boundaryTraps :
    let a := grp fun g => { g with mismatch := [(1, 2), (5, 6)], xfererr := some (3, 4), preempt := true }
    let b := grp fun g => { g with xfererr := some (3, 4), preempt := true }
    let c := grp fun g => { g with preempt := true }
    boundary a (·.mismatch == [(1, 2), (5, 6)]) = true ∧ (a.gridAt 1).record.trapVec ≠ 0 ∧
    boundary (noVector a) (·.mismatch == [(1, 2), (5, 6)]) = true ∧ ((noVector a).gridAt 1).record.trapVec = 0 ∧
    boundary b (fun g => g.mismatch == [] && g.xfererr == some (3, 4)) = true ∧ (b.gridAt 1).record.trapVec ≠ 0 ∧
    boundary (noVector b) (fun g => g.mismatch == [] && g.xfererr == some (3, 4)) = true ∧
    boundary c (fun g => g.mismatch == [] && g.xfererr.isNone && g.preempt) = true ∧ (c.gridAt 1).record.trapVec ≠ 0 ∧
    boundary (grp fun g => { g with ulivec := 4, intPending := true })
      (fun g => !g.boundaryPending && !g.intState && g.intPending && g.ulivec != 0) = true := by decide +kernel

/-- PREEMPT without a handler: the group's record in its save area lies in page 0x20000. -/
theorem test_parkWithoutHandler :
    let s := noVector (prk.setGroup { prk.group with handler := false, preempt := true })
    let g := s.groupAt (keyOf 1 0)
    let grid := s.gridAt g.grid
    let u := s.putGroup (keyOf 1 0) ((g.enterTrap (trapVector grid) (causeWord .preempt 0 none) g.pc 0 0 none).leaveTrap grid).park
    boundary s (fun g => g.mismatch == [] && g.xfererr.isNone && g.preempt && canPark s g && (g.frame.bind (·.evicted)).isNone) = true ∧
    (((areaMap u g.teamKey).records.find? (fun r => r.2.key == keyOf 1 0)).any fun r =>
      (areaPages s g.die true (areaAddrs ((saveBase s g.teamKey + r.1) % 2 ^ 56) (recordBytes r.2))).2.1 == none) = true := by
  decide +kernel

/-- A team that no request has met, and the others; a grid of urgent priority that has waited for 250,000 cycles; a deadline that
has passed. -/
theorem test_requests :
    (Assoc.find? st.teams (keyOf 1 0) = some st.team ∧ st.team.placed = true ∧ st.team.request = none ∧ st.team.grid ≠ 0 ∧
      Assoc.find? st.teams (keyOf 1 1) = none) ∧
    (let s : State := { (gds fun x => { x with priority := 2, waiting := some (keyOf 1 1, 0) }) with cycle := 250000 }
     firstChoice s 0 = some (.team 1) ∧ (s.gridAt ((Choice.team 1).grid s)).waiting = some ((Choice.team 1).teamKey s, 0) ∧ s.ctl.init.getLsbD 3 = false ∧
      2 ≤ (s.gridAt ((Choice.team 1).grid s)).priority ∧ 0 + 250000 ≤ s.cycle.toNat) ∧
    (let s : State := { (st.putTeam (keyOf 1 0) { st.team with request := some 0 }) with cycle := 1 }
     s.teamGroups (keyOf 1 0) ≠ [] ∧ (Assoc.find? s.teams (keyOf 1 0)).isSome = true ∧ s.team.request = some 0 ∧
      0 < s.cycle.toNat ∧ (s.teamAt (keyOf 1 0)).grid ≠ 0) := by decide +kernel

/-- A link that fails between dies 1 and 0, whose region of die 0 dies 0 and 1 hold: core 1 is of die 0. -/
theorem test_linkFailure :
    let s := st.putDie 0 { st.dieAt 0 with orrery := [⟨8, 0, .s, 3, 0, 0⟩] }
    (1 ^^^ 0 = 1 ∧ 3 ^^^ 1 = 2) ∧ s.teamGroups (keyOf 1 0) ≠ [] ∧ (Assoc.find? s.teams (keyOf 1 0)).isSome = true ∧
    (s.teamAt (keyOf 1 0)).grid ≠ 0 ∧
    linkTouches { s with links := (min 1 0, max 1 0) :: s.links } (dieOfCore (s.teamAt (keyOf 1 0)).core) = true := by decide +kernel

/-- A saved team's area is written and read back through two pages at 0x20000, which lie in two frames of local memory: the team's
one group is a pending child, with no register budget. -/
def svt (f : Machine.Team → Machine.Team) : State :=
  let s := grd fun x => { x with record := { x.record with vecBudget := 0, savePool := 0x20000 } }
  let s := writeNat s 0xE018 8 (2 ^ 63 + 2 ^ 62 + 2 ^ 58 + 4 * 4096 + 0x260)
  let s := s.setGroup { s.group with status := .pending }
  s.putTeam (keyOf 1 0) (f s.team)

/-- Two pages of an area are reached one by one. -/
theorem area_two {s s1 s2 : State} {die a b pa pb : Nat} {w : Bool} {e f : Word} (h : Machine.translate s die a w = (.ok pa e, s1))
    (h1 : Machine.translate s1 die b w = (.ok pb f, s2)) :
    areaPages s die w [a, b] = ([⟨a / 65536, pa - a % 65536, e⟩, ⟨b / 65536, pb - b % 65536, f⟩], none, s2) := by
  simp only [areaPages, h, h1]

/-- The two pages. -/
def sps : List PagePlace := [⟨2, 0x30000, 0xC400000000003260⟩, ⟨3, 0x40000, 0xC400000000004260⟩]

/-- The state that reaching them leaves. -/
def reached (s : State) (w : Bool) : State :=
  takeLeaf (walked (Machine.translate s 0 0x20000 w).2 0 0x30000) 0 0x30000 0xE018 0x30000 65536 0xC400000000004260 w

/-- What holds wherever the second walk starts holds of that state. -/
theorem reached_any {s : State} {w : Bool} {P : State → Prop} (h : ∀ p ∈ (rootNode (Machine.translate s 0 0x20000 w).2, [0, 1, 2, 3]) ::
    ((Machine.translate s 0 0x20000 w).2.dieAt 0).nodes.map (fun n => (n.node, (List.range 4).drop n.level)),
    P (takeLeaf (walkedFrom (Machine.translate s 0 0x20000 w).2 0 0x30000 p) 0 0x30000 0xE018 0x30000 65536 0xC400000000004260 w)) :
    P (reached s w) := h _ (walkStart_mem _ 0 0x30000)

theorem test_teamSave :
    let s := svt fun t => { t with request := some 9 }
    (saveReady s (keyOf 1 0) = true ∧ (s.teamAt (keyOf 1 0)).request = some 9 ∧ s.cycle.toNat ≤ 9 ∧
      dieOfCore (s.teamAt (keyOf 1 0)).core = 0) ∧
    areaAddrs (saveBase s (keyOf 1 0)) (areaMap s (keyOf 1 0)).size = [0x20000, 0x30000] ∧
    areaPages s 0 true [0x20000, 0x30000] = (sps, none, reached s true) :=
  ⟨by decide +kernel, by decide +kernel, area_two (pair_eq (by decide +kernel))
    (translate_known (at_ := 0xE018) (e := 0xC400000000004260) (by decide +kernel))⟩

/-- The saved team, with an area of zeros; with a scratchpad of one tile, whose stored form is raw and of no word. -/
def svs (w : Nat) : State :=
  let s := svt fun t => { t with saved := some 0, placed := false, w := w, offsets := [(0, 2 ^ 21)] }
  s.putCore 1 { s.coreAt 1 with taken := w }

/-- Its memory holds the fields of its header, and the ends of a hidden block whose CRC-32C is right. -/
def snd (w : Nat) : State :=
  let s := svs w
  let s := writeNat s 0x30000 32 (Bits.leNat ((saveHeader s (keyOf 1 0)).take 32))
  writeNat (writeNat s (0x31000 + w) 4 0xFFFFFFFF) (0x40FFC + w) 4 0xFFFFFFFF

/-- Its pages are reached. -/
theorem snd_pages (w : Nat) (hw : w = 0 ∨ w = 4096) : areaPages (snd w) 0 false [0x20000, 0x30000] = (sps, none, reached (snd w) false) := by
  refine area_two (pair_eq ?_) (translate_known (at_ := 0xE018) (e := 0xC400000000004260) ?_) <;>
    rcases hw with rfl | rfl <;> decide +kernel

/-- The same team with an area of zeros. -/
theorem test_teamRestoreUnsound :
    let s := svs 0
    (placerCore s (s.gridAt (s.teamAt (keyOf 1 0)).grid).die = some (.saved (keyOf 1 0), 1) ∧
      (s.teamGroups (keyOf 1 0)).length = 1 ∧ (s.teamAt (keyOf 1 0)).sram ≤ (s.coreAt 1).taken ∧ saveBase s (keyOf 1 0) = 0x20000 ∧ dieOfCore 1 = 0) ∧
    areaAddrs (saveBase s (keyOf 1 0)) (areaMap s (keyOf 1 0)).size = [0x20000, 0x30000] ∧
    areaPages s 0 false [0x20000, 0x30000] = (sps, none, reached s false) ∧ (∀ y ∈ [0x20000, 0x30000], ∃ p ∈ sps, p.page = y / 65536) ∧
    areaOk (reached s false) (keyOf 1 0) (readArea (reached s false) 0 sps 0x20000) = false :=
  ⟨by decide +kernel, by decide +kernel, area_two (pair_eq (by decide +kernel))
    (translate_known (at_ := 0xE018) (e := 0xC400000000004260) (by decide +kernel)), by decide,
    reached_any (P := fun u => areaOk u (keyOf 1 0) (readArea u 0 sps 0x20000) = false) (by decide +kernel)⟩

/-- What an area at 0x20000 in those pages reads as. -/
theorem area_bytes (s : State) {o n : Nat} (h : o + n ≤ 0x20000) : readArea s 0 sps 0x20000 o n = readBytes s (0x30000 + o) n := by
  unfold readArea readBytes
  refine List.map_congr_left fun i hi => ?_
  have hi := List.mem_range.mp hi
  have he : ∀ a, 0x20000 ≤ a → a < 0x40000 → engineByte s 0 sps a = readByte s (a + 0x10000) := by
    intro a ha hb
    have hr : ∃ l, reachAddr sps a = (a + 0x10000, l) := by
      unfold reachAddr sps
      rcases (by omega : a / 65536 = 2 ∨ a / 65536 = 3) with hq | hq
      · exact ⟨0xC400000000003260, by simp [hq]; omega⟩
      · exact ⟨0xC400000000004260, by simp [hq]; omega⟩
    obtain ⟨l, hr⟩ := hr
    have hs : spaceOf (a + 0x10000) < 2 := by unfold spaceOf Bits.field; omega
    simp only [engineByte, hr, hs, true_or, if_true]
  have hp : (sps.any fun p => p.page == (0x20000 + o + i) % 2 ^ 56 / 65536) = true := by
    simp only [sps, List.any_cons, List.any_nil, Bool.or_false, Bool.or_eq_true, beq_iff_eq]
    omega
  simp only [hp, if_true, he _ (show 0x20000 ≤ (0x20000 + o + i) % 2 ^ 56 by omega) (show (0x20000 + o + i) % 2 ^ 56 < 0x40000 by omega),
    show (0x20000 + o + i) % 2 ^ 56 + 0x10000 = 0x30000 + o + i by omega]

/-- Bytes that nothing has written. -/
theorem readBytes_zero {s : State} {a n : Nat} (h : ∀ c ∈ s.mem, c.1 < a ∨ a + n ≤ c.1) (hb : a + n ≤ bootBlock) :
    readBytes s a n = List.replicate n 0 := by
  refine List.eq_replicate_iff.mpr ⟨by simp [readBytes], fun b hx => ?_⟩
  obtain ⟨i, hi, rfl⟩ := List.mem_map.mp hx
  have hi := List.mem_range.mp hi
  have hn : Assoc.find? s.mem (a + i) = none := by
    cases hf : Assoc.find? s.mem (a + i) with
    | none => rfl
    | some v =>
      have := h _ (find_mem hf)
      simp only at this
      omega
  simp only [readByte, hn, resetByte, show a + i < bootBlock by omega, true_or, if_true, Option.getD_none]

/-- Bytes in three parts. -/
theorem readBytes_ends (s : State) (a n N : Nat) (h : N = 4 + n + 4) :
    readBytes s a N = readBytes s a 4 ++ readBytes s (a + 4) n ++ readBytes s (a + 4 + n) 4 := by
  have key : ∀ n m, readBytes s a (n + m) = readBytes s a n ++ readBytes s (a + n) m := by
    intro n m
    simp only [readBytes, List.range_add, List.map_append, List.map_map]
    congr 1
    exact List.map_congr_left fun i _ => by simp [Nat.add_assoc]
  rw [h, key, key, Nat.add_assoc a]

/-- A block of zeros between two words of ones ends with its CRC-32C. -/
theorem ones_ok (n : Nat) : blockOk (List.replicate 4 255 ++ List.replicate n 0 ++ List.replicate 4 255) = true := by
  have hz : ∀ n, Crypto.crcRun 0 (List.replicate n 0) = 0 := by
    intro n
    induction n with
    | zero => rfl
    | succ n ih => exact ih
  have hc : Crypto.crc32c (List.replicate 4 255 ++ List.replicate n 0) = BitVec.allOnes 32 := by
    have : Crypto.crcRun (BitVec.allOnes 32) (List.replicate 4 255 ++ List.replicate n 0) = Crypto.crcRun 0 (List.replicate n 0) := rfl
    rw [Crypto.crc32c, this, hz]
    rfl
  have hl : (List.replicate 4 (255 : Byte) ++ List.replicate n 0 ++ List.replicate 4 255).length - 4 =
      (List.replicate 4 (255 : Byte) ++ List.replicate n 0).length := by simp
  unfold blockOk
  dsimp only
  rw [hl, List.drop_left, List.take_left, hc]
  decide

/-- The saved team's area is sound; its team comes back, but not when a tile of its scratchpad does not decode. -/
theorem test_teamRestore (w : Nat) (hw : w = 0 ∨ w = 4096) :
    let s := snd w
    let u := reached s false
    let rd := readArea u 0 sps 0x20000
    (placerCore s (s.gridAt (s.teamAt (keyOf 1 0)).grid).die = some (.saved (keyOf 1 0), 1) ∧ (s.teamGroups (keyOf 1 0)).length = 1 ∧
      (s.teamAt (keyOf 1 0)).sram ≤ (s.coreAt 1).taken ∧ saveBase s (keyOf 1 0) = 0x20000 ∧ dieOfCore 1 = 0) ∧
    areaAddrs (saveBase s (keyOf 1 0)) (areaMap s (keyOf 1 0)).size = [0x20000, 0x30000] ∧ areaOk u (keyOf 1 0) rd = true ∧
    ((restoreScratch (u.teamAt (keyOf 1 0)) rd (areaMap u (keyOf 1 0)).scratch).isNone = decide (w ≠ 0)) := by
  refine ⟨by rcases hw with rfl | rfl <;> decide +kernel, by rcases hw with rfl | rfl <;> decide +kernel, ?_,
    reached_any (P := fun u => (restoreScratch (u.teamAt (keyOf 1 0)) (readArea u 0 sps 0x20000)
      (areaMap u (keyOf 1 0)).scratch).isNone = decide (w ≠ 0)) (by rcases hw with rfl | rfl <;> decide +kernel)⟩
  obtain ⟨m1, m2, m3, m4⟩ : (areaMap (reached (snd w) false) (keyOf 1 0)).records = [] ∧
      frameCount (reached (snd w) false) (keyOf 1 0) = 0 ∧ (areaMap (reached (snd w) false) (keyOf 1 0)).block = 0x1000 + w ∧
      (areaMap (reached (snd w) false) (keyOf 1 0)).size = 0x1000 + w + 65536 :=
    reached_any (P := fun u => (areaMap u (keyOf 1 0)).records = [] ∧ frameCount u (keyOf 1 0) = 0 ∧
      (areaMap u (keyOf 1 0)).block = 0x1000 + w ∧ (areaMap u (keyOf 1 0)).size = 0x1000 + w + 65536)
      (by rcases hw with rfl | rfl <;> decide +kernel)
  obtain ⟨b0, c0, c1, c2, c3⟩ : readBytes (reached (snd w) false) 0x30000 24 = (saveHeader (reached (snd w) false) (keyOf 1 0)).take 24 ∧
      List.replicate 4064 0 = (saveHeader (reached (snd w) false) (keyOf 1 0)).drop 32 ∧
      readBytes (reached (snd w) false) (0x31000 + w) 4 = List.replicate 4 255 ∧
      readBytes (reached (snd w) false) (0x31000 + w + 4 + 65528) 4 = List.replicate 4 255 ∧
      ((∀ c ∈ (reached (snd w) false).mem, c.1 < 0x30020 ∨ 0x30020 + 4064 ≤ c.1) ∧
        ∀ c ∈ (reached (snd w) false).mem, c.1 < 0x31000 + w + 4 ∨ 0x31000 + w + 4 + 65528 ≤ c.1) :=
    reached_any (P := fun u => readBytes u 0x30000 24 = (saveHeader u (keyOf 1 0)).take 24 ∧
      List.replicate 4064 0 = (saveHeader u (keyOf 1 0)).drop 32 ∧ readBytes u (0x31000 + w) 4 = List.replicate 4 255 ∧
      readBytes u (0x31000 + w + 4 + 65528) 4 = List.replicate 4 255 ∧
      (∀ c ∈ u.mem, c.1 < 0x30020 ∨ 0x30020 + 4064 ≤ c.1) ∧ ∀ c ∈ u.mem, c.1 < 0x31000 + w + 4 ∨ 0x31000 + w + 4 + 65528 ≤ c.1)
      (by rcases hw with rfl | rfl <;> decide +kernel)
  have b1 := (readBytes_zero c3.1 (by decide)).trans c0
  have b2 : readBytes (reached (snd w) false) (0x31000 + w) 65536 =
      List.replicate 4 255 ++ List.replicate 65528 0 ++ List.replicate 4 255 := by
    rw [readBytes_ends _ _ 65528 _ (by norm_num), readBytes_zero (n := 65528) c3.2 (by rcases hw with rfl | rfl <;> decide), c1, c2]
  have hd : 0x1000 + w + 65536 - (0x1000 + w) = 65536 := by omega
  simp only [areaOk, m1, m2, m3, m4, hd, List.range_zero, List.all_nil, Bool.and_true]
  rw [area_bytes _ (by decide), area_bytes _ (by decide), area_bytes _ (by rcases hw with rfl | rfl <;> decide), Nat.add_zero, b0, b1,
    ← Nat.add_assoc, b2, ones_ok]
  simp

/-- A record of page 0x20000, numbered. -/
def frc (kind : Nat) : FaultRecord := ⟨0x20000, 1, 0, 0, kind, 1, 0, 0, 0, 0, 2 ^ 32 - 1, 65536⟩
/-- Die 0 otherwise. -/
def die (f : Die → Die) : State := st.putDie 0 (f (st.dieAt 0))

/-- A page that is mapped, one below a migrating node, and a walk that has waited for 25,000 cycles. -/
theorem test_walks :
    (∀ write : Bool, needsWalk st 0 0x2FFFF write = true ∧ walkBy st 0 0x2FFFF = .leaf 0xC400000000003260 0xE010 3) ∧
    (let s := writeNat st 0xC008 8 (2 ^ 63 + 2 ^ 60 + 7 * 4096)
     ∀ write : Bool, needsWalk s 0 (2 ^ 26) write = true ∧ walkBy s 0 (2 ^ 26) = .waiting 3 ∧
      Assoc.find? (s.dieAt 0).walks (2 ^ 26 / 65536 * 65536) = none) ∧
    (let s : State := { (die fun d => { d with walks := [(0x20000, some 0)] }) with cycle := 25000 }
     Assoc.find? (s.dieAt 0).walks (0x2FFFF / 65536 * 65536) = some (some 0) ∧ 0 + 25000 ≤ s.cycle.toNat) := by decide +kernel

/-- A full queue but for one record; a record that was serviced already; a record of a waiting stream, and one of another kind. -/
theorem test_pageService :
    (let s := die fun d => { d with faultPend := [frc 0], faults := List.replicate 1023 (frc 0), faultSeq := 1023 }
     (s.dieAt 0).faultPend = [frc 0] ∧ (s.dieAt 0).faults.length < 1024 ∧ (s.dieAt 0).queued < 1024) ∧
    (∀ q ∈ (st.dieAt 3).faults, q.seq ≠ 5) ∧
    (let s := (die fun d => { d with faults := [frc 0] }).setGroup { st.group with wait := .service, waitMark := 0x2FFFF }
     let v : Word := 2 ^ 32 - 1
     s.unserviced (Bits.field v.toNat 32 2) (Bits.field v.toNat 0 32) = some (frc 0) ∧ Bits.field v.toNat 34 2 = 0 ∧ (frc 0).kind < 4 ∧
      privateReadOnly s (frc 0) = false ∧ Assoc.find? s.groups (keyOf 1 0) = some s.group ∧ s.group.grid = (frc 0).grid ∧ s.group.die = Bits.field v.toNat 32 2 ∧
      s.group.wait = .service ∧ (frc 0).holds s.group.waitMark = true) ∧
    (let s := die fun d => { d with faults := [frc 2] }
     s.unserviced 0 (2 ^ 32 - 1) = some (frc 2) ∧ hostServes s (frc 2).kind = false ∧ (copyOnWrite s s (frc 2)).isSome = true) := by
  decide +kernel

/-- A ready side-log entry at a page's end. -/
def sle : SideEntry := ⟨4, keyOf 1 0, ⟨0, 0, 0x2FFFC, 4, .store [1, 2, 3, 4], false⟩, 0, true, 0⟩
/-- Two neighbouring regions of one line, quiet for 65,536 cycles. -/
def rgn (line : Nat) : Region := ⟨line, 0, .s, 2, 0, 0⟩

theorem test_caches :
    (let s := st.putCore 1 { st.coreAt 1 with sideLog := [sle] }
     ((s.coreAt 1).sideLog.find? (fun x => x.id == 4) = some sle ∧ sle.ready = true ∧ sle.first (s.coreAt 1).sideLog = true ∧
      logWaiters s 1 = []) ∧ ∃ s1, checkAcc s 1 sle.acc = (.ok [⟨0x3FFFC, 4, 0xC400000000003260⟩], s1) ∧
        refusedPieces s1 sle.acc.kind [⟨0x3FFFC, 4, 0xC400000000003260⟩] = false) ∧
    (let s := st.putCore 1 { st.coreAt 1 with l1 := [(9, ⟨0, some 0⟩)] }
     Assoc.find? (s.coreAt 1).l1 9 = some ⟨0, some 0⟩ ∧ (⟨0, some 0⟩ : L1Line).live s.cycle.toNat = false) ∧
    (let s := die fun d => { d with orrery := [⟨8, 0, .s, 0b1111, 0, 0⟩] }
     8 < dieLines ∧ (s.dieAt 0).orrery.find? (·.covers 8) = some ⟨8, 0, .s, 0b1111, 0, 0⟩ ∧
      ∀ n ∈ [0, 1, 2, 3], (0b1111 : BitVec 4).getLsbD n = true) ∧
    (let s : State := { (die fun d => { d with orrery := [rgn 8, rgn 9] }) with cycle := 65536 }
     (s.dieAt 0).orrery.find? (fun r => r.line == 8) = some (rgn 8) ∧
      (s.dieAt 0).orrery.find? (fun r => r.line == 8 ^^^ 2 ^ (rgn 8).j && r.j == (rgn 8).j) = some (rgn 9) ∧ (rgn 8).j < 9 ∧
      (rgn 8).st = (rgn 9).st ∧ (rgn 8).holders = (rgn 9).holders ∧ (rgn 8).quiet + 65536 ≤ s.cycle.toNat ∧
      (rgn 9).quiet + 65536 ≤ s.cycle.toNat) ∧
    (let s : State := { st with l2 := [(9, ⟨true, false⟩)] }
     Assoc.find? s.l2 9 = some ⟨true, false⟩) :=
  ⟨⟨by decide +kernel, _, pair_eq (by decide +kernel), by decide +kernel⟩, by decide +kernel, by decide +kernel, by decide +kernel,
    by decide +kernel⟩

/-- Accesses of the memory window within it and beyond local memory. -/
theorem test_hostWindow :
    (2 ^ 40 - 4 + [1, 2, 3, (4 : Byte)].length ≤ 2 ^ st.ctl.barLg ∧ windowOpen st (windowAddr st (2 ^ 40 - 4)) 4 true = false) ∧
    (hbmEnd - 4 + [1, 2, 3, (4 : Byte)].length ≤ 2 ^ st.ctl.barLg ∧ windowOpen st (windowAddr st (hbmEnd - 4)) 4 true = true ∧
      overlap (windowAddr st (hbmEnd - 4)) 4 recoverField 8 = false) ∧
    (hbmEnd - 16 + 16 ≤ 2 ^ st.ctl.barLg ∧ busAtomicOk .cas 16 (windowAddr st (hbmEnd - 16)) = true ∧
      windowOpen st (windowAddr st (hbmEnd - 16)) 16 true = true ∧ st.firmware = true ∧
      overlap (windowAddr st (hbmEnd - 16)) 16 recoverField 8 = false) := by decide +kernel

/-- No access is under way. -/
theorem test_atRest : (∀ c ∈ st.cores, c.2.transit = [] ∧ c.2.sideLog = [] ∧ c.2.sent = []) ∧
    (∀ c ∈ st.cores, (st.coreAt c.1).sent = [] ∧ logWaiters st c.1 = []) ∧ ∀ x ∈ st.teams, x.2.engine.queue = [] := by decide +kernel

/-- Another device, which is up or lost; an export range of the first 64 KiB. -/
theorem test_remoteDevices :
    ∃ d, remoteDevice d = true ∧
      (let s (up : Bool) : State := { st with
        incs := [(d, ⟨0, up⟩)], ctl := { st.ctl with exports := [(0, 3), (1, 0x10000)] } }
       ((s true).incAt d).up = true ∧ ((s false).incAt d).up = false ∧
        (65532 + 4 ≤ hbmEnd ∧ exported (s true) 65532 4 1 = true ∧ exported (s true) 65532 4 0 = true ∧
          exported (s true) 65533 4 1 = false)) := by
  by_cases h : Config.deviceNumber.toNat = 0
  · exact ⟨1, by simp [remoteDevice, h], by decide +kernel⟩
  · exact ⟨0, by simp [remoteDevice]; omega, by decide +kernel⟩

/-- A request with this number and record in the first place of the host's ring. -/
def rqs (seq rec_ : Nat) : State :=
  let s : State := { st with ctl := { st.ctl with init := 1, mbox := 1, reqbase := 0x1000, rspbase := 0x100 } }
  writeNat (writeNat s (hostAddr 0x1000) 8 seq) (hostAddr 0x1040) 256 rec_

theorem test_dispatchRequest :
    let ok (s : State) (p : List Byte → Bool) : Bool :=
      let bs := readBytes s (hostAddr 0x1000) 512
      s.firmware && s.request.isNone && s.ctl.init.getLsbD 0 && !s.ctl.fatal && s.ctl.next.toNat == 0 && s.ctl.mbox.toNat == 1 && !launchHeld s &&
        decide (gridsWaiting s (queueDie (recordOfBytes (part bs 0x40 256)).dies 0) < 64) && p bs
    ok (rqs 1 rec1) (fun bs => requestBad bs 0) = true ∧
    ok (rqs 0 (rec1 + 2 ^ (8 * 0x4B + 2))) (fun bs => !requestBad bs 0 && (recordOfBytes (part bs 0x40 256)).system) = true ∧
    ok (rqs 0 rec1) (fun bs => !requestBad bs 0 && !(recordOfBytes (part bs 0x40 256)).system &&
      launchReasons (rqs 0 rec1) (part bs 0x40 256) false 0 == []) = true := by decide +kernel

/-- The same with 64 grids before it in its queue. -/
theorem test_dispatchFull :
    let x := rqs 0 rec1
    let s : State := { x with grids := x.grids ++ (List.range 64).map fun i => (i + 2, { x.gridAt 1 with nextTeam := 0 }) }
    let bs := readBytes s (hostAddr 0x1000) 512
    s.firmware = true ∧ s.ctl.init.getLsbD 0 = true ∧ s.ctl.fatal = false ∧ s.ctl.next.toNat < s.ctl.mbox.toNat ∧ launchHeld s = false ∧
    s.request = none ∧ 64 ≤ gridsWaiting s (queueDie (recordOfBytes (part bs 0x40 256)).dies 0) ∧ requestBad bs 0 = false ∧
    (recordOfBytes (part bs 0x40 256)).system = false ∧ launchReasons s (part bs 0x40 256) false 0 = [] := by decide +kernel

/-- A fabric group at rest; a checkpoint that starts, is refused, and ends for want of a destination. -/
theorem test_control :
    (((1 : Word).getLsbD 0 = true) ∧ groupInUse st st.ctl.fgtidx.toNat = false) ∧
    (st.ctl.fatal = false ∧ st.ctl.ckpt = false ∧ userTeams st = [] ∧ ∀ c ∈ st.cores, c.2.sideLog = []) ∧
    (let s : State := { st with ctl := { st.ctl with ckpt := true } }
     s.ctl.fatal = true ∨ s.ctl.ckpt = true) ∧
    (let s : State := { st with ckpt := some ⟨true, []⟩ }
     s.ckpt = some ⟨true, []⟩ ∧ userTeams s = [] ∧ destinationOk s s.ctl.ckptdst.toNat = false) := by decide +kernel

/-- No image, and an image that the boot ROM's verification accepts: the signature schemes, the digest and the key lengths are
opaque, so that the second is told of any functions that accept it. -/
theorem test_images :
    (let s : State := { st with slotA := [], slotB := [] }
     bootImage s = none) ∧
    (∀ s : State, s.loaded = false → imageValid s.slotA s.fusedMin = true → bootImage s = some (false, s.slotA)) ∧
    (∀ s : State, s.loaded = true → imageValid s.slotB s.fusedMin = true → bootImage s = some (true, s.slotB)) ∧
    (imageValid (readBytes st staging 8) st.fusedMin = false ∧ (8 : Word).toNat = 8 ∧ (8 : Word) ≠ 0x8000000000000000 ∧
      st.bootStat = 1 ∧ st.checking = none ∧ windowOpen st recoverField 8 true = true) ∧
    (∀ n, n ≤ stagingBytes → imageValid (readBytes st staging n) st.fusedMin = true → st.bootStat = 1) ∧
    (windowOpen { st with firmware := false, bootStat := 0 } recoverField 8 true = false ∧
      (let s : State := { st with checking := some 8 }
       windowOpen s recoverField 8 true = true ∧ s.checking.isSome = true)) := by
  refine ⟨by decide +kernel, fun s hl h => ?_, fun s hl h => ?_, by decide +kernel, fun _ _ _ => by decide +kernel, by decide +kernel⟩ <;>
    simp [bootImage, bootChoice, hl, h]

/-- A request for a report; a count of telemetry that turns odd; a counter at its end, and a link's counter. -/
theorem test_reports :
    (st.firmware = true ∧ readNat (writeNat st attestRequest 8 1) attestRequest 8 = 1) ∧ ((st.telemSeq + 1).getLsbD 0 = true) ∧
    (st.telem = [] ∧ tripped ⟨0, 0, [0, 0x7F00, 0, 0]⟩ = true ∧ tripped ⟨0, 0, [0, 0x2000, 0, 0]⟩ = false ∧ st.checking = none) ∧
    (3 < 4 ∧ 5 ≤ 5 ∧ 6 ≤ 8 ∧ 8 ≤ 8) := by decide +kernel

/-- A page that is mapped, and one that is not. -/
theorem test_translation :
    (∃ t, Machine.translate st 0 0x2FFFF true = (.ok 0x3FFFF 0xC400000000003260, t)) ∧
    walkBy st 0 0x2FFFF = .leaf 0xC400000000003260 0xE010 3 ∧ walkBy st 0 0x40000 = .service 1 3 :=
  ⟨⟨_, pair_eq (by decide +kernel)⟩, by decide +kernel, by decide +kernel⟩

/-- Placed instructions: of one word and of two, of the lane stream, no instruction; and nothing chosen. -/
theorem test_step :
    let fetched (s : State) : Bool :=
      match s.issue with
      | [c] =>
        let s0 : State := { s with tick := s.tick + 1 }
        let now : State := { s0 with issue := [], cur := c, core := (s.groupAt c.key).core }
        let g := s.groupAt c.key
        s.cancelled.isEmpty && (overdueTeam s0).isNone && s.firmware && stillReady { s0 with issue := [] } c &&
          (match c.lane with
            | none => match (fetchScalar now g.die g.pc.toNat).1 with
              | .words ws => !ws.isEmpty
              | _ => false
            | some i => match (fetchWords now g.die true ((g.splitAt i).next (s.gridAt g.grid)).toNat 3).1 with
              | .words _ => true
              | _ => false)
      | _ => false
    fetched (State.reset.withFetchWord 32 0) = true ∧ fetched (State.reset.withFetchWord 64 0xB2000000) = true ∧
    fetched (State.reset.withFetchWord 96 0) = true ∧ fetched (State.reset.withFetchWord 32 0xFFFFFFFF) = true ∧
    (State.reset.issue = [] ∧ State.reset.cancelled = [] ∧
      overdueTeam { State.reset with tick := State.reset.tick + 1 } = none) := by decide +kernel

/-- An instruction of each stream and a micro-operation encode. -/
theorem test_encode :
    (∀ i ∈ [Instr.add ⟨1, 2, 3, 4⟩, .li ⟨1, 0, 0, 0xFFFFFFFF⟩, .fadd (wrd 383 0 0 0 0 0), .micLoop 3 63, .micEnd],
      i.wf = true ∧ (encode i).isSome = true) := by decide +kernel

/-- A state whose memory has its form, and a step from it. -/
theorem test_memoryForm : Inv (State.reset.withFetchWord 32 0) ∧ ∃ t, step (State.reset.withFetchWord 32 0) = .next t := by
  refine ⟨by decide +kernel, ?_⟩
  have h : (match step (State.reset.withFetchWord 32 0) with
    | .next _ => true
    | _ => false) = true := by decide +kernel
  cases hs : step (State.reset.withFetchWord 32 0) with
  | next t => exact ⟨t, rfl⟩
  | fault _ => rw [hs] at h; simp at h
  | refused _ => rw [hs] at h; simp at h

/-! Words written out from the spec's encodings. -/

/-- Scalar words by field: arithmetic, logic, control transfer, flags, CSRs (tables of 05_scalar_isa.md), memory, traps. -/
theorem test_scalarWords :
    decodeScalar 0x0028C380 0 = .ok (.add ⟨5, 6, 7, 0⟩) ∧ decodeScalar 0x0441250A 0 = .ok (.mul ⟨8, 9, 10, 10⟩) ∧
    decodeScalar 0x50292345 0 = .ok (.lui ⟨5, 0x12345⟩) ∧ decodeScalar 0x5C380000 0x12345678 = .ok (.li ⟨7, 0, 0, 0x12345678⟩) ∧
    decodeScalar 0x40000010 0 = .ok (.fset ⟨0, 0, 8, 0⟩) ∧ decodeScalar 0x2C000000 0 = .ok (.lrun ⟨0, 0, 0, 0⟩) ∧
    decodeScalar 0x3051400E 0 = .ok (.addi ⟨10, 10, 7, 0⟩) ∧ decodeScalar 0x5A02FFFF 0 = .ok (.loop ⟨0, 11, 0x3FFF⟩) ∧
    decodeScalar 0x42000010 0 = .ok (.fclr ⟨0, 0, 8, 0⟩) ∧ decodeScalar 0x2E000000 0 = .ok (.lsync ⟨0, 0, 0, 0⟩) ∧
    decodeScalar 0x2A288000 0 = .ok (.csrx ⟨5, 4, 0, 0⟩) ∧
    decodeScalar 0b0001011_000001_000010_000011_0000001 0 = .ok (.rotl ⟨1, 2, 3, 1⟩) ∧
    decodeScalar 0b0010000_000001_000010_000011_0001101 0 = .ok (.cmp ⟨1, 2, 3, 13⟩) ∧
    decodeScalar 0b0100010_000000_000000_011111111111_0 0 = .ok (.trap ⟨0, 0, 0x7FF, 0⟩) ∧
    decodeScalar 0b0100011_000000_000000_000000_0000010 0 = .ok (.tretAbort ⟨0, 0, 0, 2⟩) := by decide

/-- Matrix, memory, shape, counter, launch, ring and engine words; micro-operations. -/
theorem test_engineWords :
    decodeScalar 0b0110001_000000_000001_000010_1011_000 0 = .ok (.mma ⟨0, 1, 2, 0x58⟩) ∧
    decodeScalar 0b0110100_000000_000000_000000_1111_111 0 = .error (.illegal (.mzero ⟨0, 0, 0, 127⟩)) ∧
    decodeScalar 0b1000000_001111_000001_000010_0000000 0 = .ok (.apset ⟨15, 1, 2, 0⟩) ∧
    decodeScalar 0b1000010_000001_000010_000011_1010101 0 = .ok (.satom ⟨1, 2, 3, 0x55⟩) ∧
    decodeScalar 0b1001101_000001_000010_100000000000_1 0 = .ok (.sst 1 ⟨1, 2, 0x800, 1⟩) ∧
    decodeScalar 0b1010001_000001_000010_000000_0000000 0 = .ok (.shpld ⟨1, 2, 0, 0⟩) ∧
    decodeScalar 0b1010100_000001_000010_000011_0000010 0 = .ok (.cadd ⟨1, 2, 3, 2⟩) ∧
    decodeScalar 0b1011000_000001_000010_000000_0000000 0 = .ok (.launch ⟨1, 2, 0, 0⟩) ∧
    decodeScalar 0b1011001_000000_000001_0000000001111 0x100 = .ok (.spawn ⟨0, 1, 15, 0x100⟩) ∧
    decodeScalar 0b1011110_001111_000001_000010_1111_000 0 = .ok (.rpush ⟨15, 1, 2, 0x78⟩) ∧
    decodeScalar 0b1100001_000000_000001_000000_0000_000 0 = .ok (.cpy ⟨0, 1, 0, 0⟩) ∧
    decodeMicro 0b000100_0000000000000000_0_110_1_1_1000 = .ok (.micQuant 8 1 1 6) ∧
    decodeMicro 0b001000_11_000000000000000000_111111 = .ok (.micLoop 3 63) := by decide

/-- Lane words: the worked ones of 06_lane_isa.md (RQNT, REDUX.pair, PSET.mask, BRA) and by field a move, a load, an atomic, a
tangent move and a draw. -/
theorem test_laneWords :
    decodeLane 0x0AC100000001000008000000 = .ok (.rqnt { wrd 8 0 0 0 4 0 with round := 1 }) ∧
    decodeLane 0x0F0280A05800000000000020 = .ok (.reduxPair (wrd 20 10 11 0 0 32)) ∧
    decodeLane 0x0C403F80000000000080FFFF = .ok (.pset (wrd 1 504 0 0 0 0x80FFFF)) ∧
    decodeLane 0x100003C0000008000000003C = .ok (.bra { wrd 0 60 0 0 0 60 with pred := 1 }) ∧
    decodeLane (0b0000110011_000000001_111111100_000000000_000000000_1001#96 <<< 46) = .ok (.mov (wrd 1 508 0 0 9 0)) ∧
    decodeLane 0b0001010000_000000001_000000000_000000010_000000000_0000_000_0_000000_00_0000_000_1_1_0_0011_01_010_000000000000000 =
      .ok (.ld { wrd 1 0 2 0 0 0x350000 with fsel := 1, long := 1 }) ∧
    decodeLane 0b0001011000_000000001_000000010_000000011_000000000_1010_000_0_000000_00_0000_000_0_1_0_0001_11_010_0110_11111111111 =
      .ok (.atom { wrd 1 2 3 0 10 0x1D37FF with long := 1 }) ∧
    decodeLane (0b0001001000_000000001_000000010#96 <<< 68 ||| 1) = .ok (.tget (wrd 1 2 0 0 0 1)) ∧
    decodeLane (0b0001100001_000000001#96 <<< 77 ||| 0b1_0000000000000000000000011) =
      .ok (.rng { wrd 1 0 0 0 0 3 with long := 1 }) := by decide

/-! Results that the spec's tables of edges give (05_scalar_isa.md), and a lane FADD. -/

/-- What S4 holds after an instruction on S5 and S6. -/
def res (i : Instr) (x y : Word) : Option Word :=
  match exec i (grp fun g => (g.writeS 5 x).writeS 6 y) with
  | .next t => some (t.group.readS 4)
  | _ => none

theorem test_scalarEdges :
    res (.add ⟨4, 5, 6, 4⟩) 0x7FFFFFFFFFFFFFF0 0x20 = some 0x7FFFFFFFFFFFFFFF ∧ res (.sub ⟨4, 5, 6, 6⟩) 3 5 = some 0 ∧
    res (.add ⟨4, 5, 6, 1⟩) 0x7FFFFFFF 1 = some 0xFFFFFFFF80000000 ∧ res (.div ⟨4, 5, 6, 0⟩) (-7) 2 = some (-3) ∧
    res (.div ⟨4, 5, 6, 8⟩) (-7) 2 = some (-1) ∧ res (.div ⟨4, 5, 6, 0⟩) 5 0 = some 0xFFFFFFFFFFFFFFFF ∧
    res (.div ⟨4, 5, 6, 8⟩) 5 0 = some 5 ∧ res (.div ⟨4, 5, 6, 0⟩) 0x8000000000000000 (-1) = some 0x8000000000000000 ∧
    res (.mul ⟨4, 5, 6, 10⟩) 0xFFFFFFFFFFFFFFFF 2 = some 1 ∧ res (.shr ⟨4, 5, 6, 0⟩) 0x8000000000000000 4 = some 0xF800000000000000 ∧
    res (.shr ⟨4, 5, 6, 2⟩) 0x8000000000000000 4 = some 0x0800000000000000 ∧ res (.clz ⟨4, 5, 0, 1⟩) 1 0 = some 31 ∧
    res (.bfx ⟨4, 5, 6, 0⟩) 0xABCD 0x804 = some 0xFFFFFFFFFFFFFFBC ∧ res (.bfx ⟨4, 5, 6, 2⟩) 0xABCD 0x804 = some 0xBC ∧
    res (.cmp ⟨4, 5, 6, 4⟩) (-1) 1 = some 0 := by decide +kernel

/-- The first three lines of R249's table of examples, and a line of zeros. -/
theorem test_lineTags :
    let words (n k : Nat) (f : Nat → Nat) : VecReg :=
      BitVec.ofNat 1024 ((List.range n).foldl (fun a i => a + f i * 2 ^ (k * i)) 0)
    (Compress.lineTag (words 16 64 fun i => 0x100000000 + i), Compress.lineTag (words 32 32 fun _ => 0x3F800000),
      Compress.lineTag (words 32 32 fun i => 0x3F800000 + i), Compress.lineTag 0) = (3, 2, 5, 1) := by decide +kernel

/-! Ill-formed terms, one for each check of legality, which it refuses. -/

/-- The scalar checks: a field beyond its range, a function value not listed, an unused field that is not zero, and the further
conditions of single instructions. -/
theorem test_scalarIllFormed : ∀ i ∈ [Instr.add ⟨0, 0, 0, 2⟩, .mul ⟨0, 0, 0, 9⟩, .shl ⟨0, 0, 0, 2⟩, .clz ⟨0, 0, 1, 0⟩, .bfx ⟨0, 0, 0, 1⟩,
    .cmp ⟨0, 0, 0, 6⟩, .sel ⟨0, 0, 0, 1⟩, .jr ⟨0, 0, 0, 1⟩, .csrr ⟨0, 1, 0, 0⟩, .csrw ⟨1, 0, 0, 0⟩, .csrx ⟨0, 0, 1, 0⟩,
    .lrun ⟨0, 0, 1, 0⟩, .lsync ⟨1, 0, 0, 0⟩, .andi ⟨0, 0, 0, 1⟩, .shri ⟨0, 0, 64, 0⟩, .shli ⟨0, 0, 32, 1⟩, .fwait ⟨0, 1, 0, 0⟩,
    .fset ⟨0, 0, 0, 1⟩, .trap ⟨0, 0, 2048, 0⟩, .br ⟨7, 0, 0⟩, .br ⟨0, 1, 0⟩, .loop ⟨0, 0, 0⟩, .li ⟨0, 1, 0, 0⟩, .liHi ⟨0, 0, 0, 0⟩,
    .call ⟨0, 0, 0, 2⟩, .mld ⟨0, 0, 0, 2⟩, .mma ⟨0, 0, 0, 96⟩, .mzero ⟨0, 0, 0, 5⟩, .apset ⟨16, 0, 0, 0⟩, .satom ⟨0, 0, 0, 7⟩,
    .satom ⟨0, 0, 0, 8⟩, .scas ⟨1, 0, 0, 8⟩, .scas ⟨0, 0, 0, 72⟩, .waita ⟨0, 1, 0, 0⟩, .pref ⟨2, 0, 0, 0⟩, .tlbinv ⟨0, 1, 0, 1⟩,
    .shpinv ⟨0, 1, 0, 1⟩, .cset ⟨0, 1, 0, 5⟩, .crd ⟨0, 0, 0, 5⟩, .pcfg ⟨1, 0, 0, 0⟩, .spawn ⟨0, 0, 16, 0⟩, .spawn ⟨0, 0, 0, 2⟩,
    .rpush ⟨16, 0, 0, 0⟩, .rwait ⟨0, 16, 0, 0⟩, .cpy ⟨0, 0, 1, 0⟩, .gacc ⟨0, 16, 0, 1⟩, .strm ⟨0, 0, 0, 1⟩], i.wf = false := by
  decide

/-- The lane checks: a reserved register field, a destination that is none, a register pair's end, a type, a modifier, a rounding
mode, a scale, a clamp, a count, the long bit, a flag of a short instruction, function bits, an immediate beside a third source,
and the further conditions of single instructions; the micro-operations'. -/
theorem test_laneIllFormed : ∀ i ∈ [Instr.fadd (wrd 0 448 0 0 0 0), .fadd (wrd 384 0 0 0 0 0), .fcmp (wrd 8 0 0 0 0 0),
    .qmov (wrd 511 0 0 0 0 0), .ffma (wrd 0 504 0 0 0 0), .ldx (wrd 0 0 383 0 0 0), .movx (wrd 0 0 0 0 0 0), .qget (wrd 0 384 0 0 10 0),
    .fadd (wrd 0 0 0 1 0 0), .fadd (wrd 0 0 0 0 3 0), .fadd { wrd 0 0 0 0 0 0 with mods := 1 }, .fadd { wrd 0 0 0 0 0 0 with round := 7 },
    .fmin { wrd 0 0 0 0 0 0 with round := 6 }, .iadd { wrd 0 0 0 0 9 0 with dscale := 1 }, .imin { wrd 0 0 0 0 9 0 with clamp := 1 },
    .iadd (wrd 0 0 0 0 9 0x1000000), .fadd { wrd 0 0 0 0 0 0 with long := 1 }, .fadd { wrd 0 0 0 0 0 0 with fsel := 1 },
    .fadd (wrd 0 0 0 0 0 1), .icmp (wrd 0 0 0 0 9 6), .cvt (wrd 0 0 0 0 8 0), .cvt { wrd 0 0 0 0 0 8 with clamp := 3 },
    .pack (wrd 0 0 0 0 1 2), .scan (wrd 0 0 0 0 9 0), .reduxPair (wrd 0 0 0 0 0 0), .bra (wrd 0 0 1 0 0 0), .stop (wrd 1 0 0 0 0 0),
    .tget (wrd 0 0 0 0 0 5), .tset (wrd 0 0 0 0 0 0), .tclr (wrd 0 0 0 0 0 17), .vote (wrd 0 0 0 0 0 8), .bcast (wrd 0 0 1 0 0 0x800000),
    .ld { wrd 0 0 0 0 0 0x80000 with long := 1 }, .st { wrd 0 0 0 0 0 0x40000 with long := 1 },
    .ld { wrd 0 0 0 0 0 (6 * 2 ^ 15) with long := 1 }, .ldx { wrd 0 0 0 0 0 0x100000 with long := 1 },
    .st { wrd 0 384 0 0 0 0x18000 with long := 1 }, .atom { wrd 0 0 0 0 0 0 with long := 1 }, .acas { wrd 0 0 0 0 0 0 with long := 1 },
    .ared { wrd 0 0 0 0 9 (2 * 2 ^ 15 + 6 * 2 ^ 11) with long := 1 }, .spawnl { wrd 0 0 0 0 0 0 with long := 1 },
    .rng { wrd 0 0 0 0 0 4 with long := 1 }, .micConv 3 0, .micQuant 2 0 0 0, .micStep 3 0], i.wf = false := by
  decide

/-- A header with a reserved bit, a flag number without its valid bit, no instruction, and a reserved override. -/
theorem test_headerIllFormed :
    let refused (w : BitVec 96) : Bool :=
      match decodeHeader w with
      | .error _ => true
      | .ok _ => false
    refused 0xF004880C2000000000000001 = true ∧ refused 0xF00408082000000000000000 = true ∧
    refused 0xF00488002000000000000000 = true ∧ refused 0xF004880EA000000000000000 = true ∧
    refused 0x0004880C2000000000000000 = true := by decide

/-- Lane opcodes that are none, and a micro-operation's reserved bits are refused by name. -/
theorem test_refusedWords :
    decodeLane (1023#96 <<< 86) = .error (.unassigned 1023) ∧
    decodeLane 0 = .error (.unassigned 0) ∧ decodeMicro 0x00000001 = .error (.unassigned 0) := by
  decide

end Sys2Proof.Tests
end

section
/-! PROOFS. What one step of the device is: the action it takes, the stream that issues, the words that the stream fetches and
the instruction that they decode to (R2, R64, R66, R78, R81, R309). -/

namespace Sys2Proof.Machine

/-! A decoded instruction. -/

/-- Counting an issue touches nothing but a performance counter, and those stand in the cores (R386). -/
theorem countIssue_onlyCores (i : Instr) (s t : State) (c : Stream) :
    countIssue i s t c = { t with cores := (countIssue i s t c).cores } := by
  unfold countIssue
  split <;> rfl

/-- What R81 asks of an issue in state `s` whose word decodes to `r`: the outcome is exec's, but for the performance counters,
or the ILLOP of a word that is no instruction. -/
def IssuesAs (s : State) (r : Except Reject Instr) (out : Result State) : Prop :=
  (∀ i, r = .ok i →
    (∀ t, exec i s = .next t → ∃ u, out = .next u ∧ u = { t with cores := u.cores }) ∧
    (∀ f, exec i s = .fault f → out = .fault f) ∧ (∀ f, exec i s = .refused f → out = .refused f)) ∧
  (∀ e, r = .error e → out = trapIllop s)

/-- An instruction that goes on is counted. -/
theorem runDecoded_next {i : Instr} {s t : State} (c : Stream) (h : exec i s = .next t) :
    runDecoded s c (.ok i) = .next (countIssue i s t c) := by
  simp only [runDecoded, h]

theorem runDecoded_fault {i : Instr} {s : State} {f : Fault} (c : Stream) (h : exec i s = .fault f) :
    runDecoded s c (.ok i) = .fault f := by
  simp only [runDecoded, h]

theorem runDecoded_refused {i : Instr} {s : State} {f : Refusal} (c : Stream) (h : exec i s = .refused f) :
    runDecoded s c (.ok i) = .refused f := by
  simp only [runDecoded, h]

/-- Running what was decoded is an issue as R81 asks. -/
theorem runDecoded_issuesAs (s : State) (c : Stream) (r : Except Reject Instr) : IssuesAs s r (runDecoded s c r) := by
  refine ⟨?_, ?_⟩
  · rintro i rfl
    exact ⟨fun t h => ⟨countIssue i s t c, runDecoded_next c h, countIssue_onlyCores i s t c⟩,
      fun _ h => runDecoded_fault c h, fun _ h => runDecoded_refused c h⟩
  · rintro e rfl
    rfl

/-! A fetched word. -/

/-- A scalar stream runs the word it fetched, with its extension word or 0 for none (R64, R66). -/
theorem issueScalarStream_words {c : Stream} {s t : State} {ws : List (BitVec 32)}
    (hf : fetchScalar s (s.groupAt c.key).die (s.groupAt c.key).pc.toNat = (.words ws, t)) (hne : ws ≠ []) :
    issueScalarStream c s = runDecoded t c (decodeScalar (ws.getD 0 0) (ws.getD 1 0)) := by
  match ws with
  | [] => exact absurd rfl hne
  | [w] => simp only [issueScalarStream, hf, List.getD_cons_zero, List.getD_cons_succ, List.getD_nil]
  | w :: x :: _ => simp only [issueScalarStream, hf, List.getD_cons_zero, List.getD_cons_succ]

/-- A split runs the 96 bits it fetched (R67, R78). -/
theorem issueLaneStream_words {c : Stream} {i : Nat} {s t : State} {ws : List (BitVec 32)}
    (hf : fetchWords s (s.groupAt c.key).die true
      (((s.groupAt c.key).splitAt i).next (s.gridAt (s.groupAt c.key).grid)).toNat 3 = (.words ws, t)) :
    issueLaneStream c i s = runDecoded t c (decodeLane (laneBits ws)) := by
  simp only [issueLaneStream, hf]

/-! A chosen stream. -/

/-- A scalar stream that firmware lets run and that is still a candidate issues, on its group's core (R309). -/
theorem issueStream_scalar {c : Stream} {s : State} (hfw : s.firmware = true) (hr : stillReady s c = true) (hl : c.lane = none) :
    issueStream c s = issueScalarStream c { s with cur := c, core := (s.groupAt c.key).core } := by
  simp [issueStream, hfw, hr, hl]

theorem issueStream_lane {c : Stream} {s : State} {i : Nat} (hfw : s.firmware = true) (hr : stillReady s c = true)
    (hl : c.lane = some i) :
    issueStream c s = issueLaneStream c i { s with cur := c, core := (s.groupAt c.key).core } := by
  simp [issueStream, hfw, hr, hl]

/-! The action of a step. -/

/-- The choice is one of the moves, or a cycle of the clock (R2). -/
theorem chooseMove_mem (n : Nat) (l : List Move) : chooseMove n l = .event .coreCycle ∨ chooseMove n l ∈ l := by
  cases l with
  | nil => exact .inl rfl
  | cons m ms =>
    unfold chooseMove
    cases hk : (m :: ms)[n % ((m :: ms).length + 1)]? with
    | none => exact .inl rfl
    | some x => exact .inr (List.mem_of_getElem? hk)

/-- With nothing cancelled and no team overdue, the first of the chosen streams issues (R309). -/
theorem nextAction_chosen {s : State} {c : Stream} {rest : List Stream} (hc : s.cancelled = []) (ho : overdueTeam s = none)
    (hi : s.issue = c :: rest) : nextAction s = issueStream c { s with issue := rest } := by
  simp [nextAction, hc, ho, hi]

/-- With nothing chosen besides, a move is chosen and made (R2). -/
theorem nextAction_idle {s : State} (hc : s.cancelled = []) (ho : overdueTeam s = none) (hi : s.issue = []) :
    nextAction s = runMove (chooseMove (Config.choice s.tick) (possibleMoves s)) s := by
  simp [nextAction, hc, ho, hi]

/-- Settles O58: the step's action is the first chosen stream's issue, whose fetched words are decoded and run; with nothing
chosen it is a chosen move. -/
theorem stepRunsTheDecodedInstruction : Obligations.StepRunsTheDecodedInstruction := by
  intro s s' c rest ws s0 now g runs hc ho
  have hcancelled : s0.cancelled = [] := hc
  refine ⟨fun hi hfw hr => ?_, fun hi => ?_⟩
  · have hstep : step s = issueStream c { s0 with issue := rest } := nextAction_chosen hcancelled ho hi
    refine ⟨fun hl hf hne => ?_, fun i hl hf => ?_⟩
    · have hrun : step s = runDecoded s' c (decodeScalar (ws.getD 0 0) (ws.getD 1 0)) :=
        calc step s = issueScalarStream c now := hstep.trans (issueStream_scalar hfw hr hl)
          _ = _ := issueScalarStream_words hf hne
      show IssuesAs s' _ (step s)
      rw [hrun]
      exact runDecoded_issuesAs s' c _
    · have hrun : step s = runDecoded s' c (decodeLane (laneBits ws)) :=
        calc step s = issueLaneStream c i now := hstep.trans (issueStream_lane hfw hr hl)
          _ = _ := issueLaneStream_words hf
      show IssuesAs s' _ (step s)
      rw [hrun]
      exact runDecoded_issuesAs s' c _
  · have hmove := nextAction_idle hcancelled ho hi
    exact ⟨_, chooseMove_mem _ _, hmove, fun _ => rfl, fun _ _ => rfl⟩

end Sys2Proof.Machine
end

section
/-! PROOFS. What a device reset leaves (R32, R394, R407, R409). -/

namespace Sys2Proof.Machine

open Sys2Proof.Safety

/-- Settles O56: at reset only the dispatcher's grid, team and group exist, no core and no die is listed, so that each reads as
its reset value, and the windows are at theirs. -/
theorem resetState : Obligations.ResetState :=
  ⟨reset_mem_wf, rfl, rfl, rfl, rfl, rfl, rfl, rfl, rfl, rfl, rfl, rfl, rfl, rfl,
    fun _ => ⟨rfl, rfl, rfl, rfl, rfl, rfl⟩, fun _ => ⟨rfl, rfl, rfl, rfl⟩,
    rfl, rfl, rfl, rfl, rfl, rfl, rfl, rfl, rfl, rfl, rfl, rfl, fun _ => rfl⟩

end Sys2Proof.Machine
end

section
/-! PROOFS. Traps of the scalar stream (R17, R103, R195, R217), and the checks of the matrix and copy instructions that raise them. -/

namespace Sys2Proof.Machine

open Sys2Proof.Safety

/-! Traps of the scalar stream. -/

/-- TRAPCAUSE of a scalar instruction's trap has no lane fields (R99, R213). -/
theorem causeWord_eq_r99cause (c : Cause) (detail : Nat) : causeWord c detail none = r99cause c.code detail none := by
  simp [causeWord, r99cause, Nat.add_comm]

/-- A state whose issuing group has entered its trap, and whose memory and other groups are as before, is what trap entry leaves
(R217). -/
theorem trapTaken_of_enterTrap {s t : State} {c : Cause} {detail : Nat} {pc : BitVec 56} {planes : Mask} {addr : Word}
    (hlane : s.cur.lane = none)
    (hgroup : t.group = s.group.enterTrap (trapVector s.grid) (causeWord c detail none) pc planes addr none)
    (hmem : t.mem = s.mem) (hother : ∀ k, k ≠ s.cur.key → Assoc.find? t.groups k = Assoc.find? s.groups k) :
    TrapTaken s t c.code detail none pc planes addr := by
  simp only [TrapTaken, hgroup, hlane]
  refine ⟨causeWord_eq_r99cause c detail, rfl, rfl, rfl, rfl, rfl, rfl, rfl, rfl, ?_, fun n hn => ?_, rfl, rfl, rfl, rfl, rfl, rfl,
    fun _ => rfl, rfl, hmem, hother⟩
  · exact congrArg Aperture.valid ((Group.readA_writeA _ _ _ _).trans (if_pos rfl))
  · exact (Group.readA_writeA _ _ _ _).trans (if_neg hn.symm)

/-- A scalar instruction's trap, outside handler state and with a trap vector, enters the handler (R217). -/
theorem traps_takeTrap {s : State} (hlane : s.cur.lane = none) (h : TrapsToHandler s) (c : Cause) (detail : Nat) (addr : Word) :
    Traps (.next (takeTrap s c detail 0 addr)) s c.code detail addr := by
  refine ⟨_, rfl, ?_⟩
  rw [takeTrap_toHandler h, hlane]
  exact trapTaken_of_enterTrap hlane (State.group_setGroup s _) rfl (onlyGroup_setGroup s _).2

/-- The scalar stream's traps name no lanes (R213). -/
theorem streamMask_scalar {s : State} (hlane : s.cur.lane = none) : streamMask s = 0 := by simp only [streamMask, hlane]

/-- A trap for the role of the group (R17). -/
theorem traps_trapRole {s : State} (hlane : s.cur.lane = none) (h : TrapsToHandler s) : Traps (trapRole s) s 3 0 0 := by
  rw [trapRole, streamMask_scalar hlane]
  exact traps_takeTrap hlane h .roleop 0 0

/-- A trap for a register, tile or width (R103). -/
theorem traps_trapRange {s : State} (hlane : s.cur.lane = none) (h : TrapsToHandler s) (detail : Nat) :
    Traps (trapRange s detail) s 4 detail 0 := by
  rw [trapRange, streamMask_scalar hlane]
  exact traps_takeTrap hlane h .regrange detail 0

/-- A trap for a descriptor (R195). -/
theorem traps_trapDesc {s : State} (hlane : s.cur.lane = none) (h : TrapsToHandler s) (reason : Nat) :
    Traps (trapDesc s reason) s 7 reason 0 := traps_takeTrap hlane h .mxdesc reason 0

/-! The checks of the matrix instructions (R195). -/

/-- Outside its role a matrix instruction traps ROLEOP (R17). -/
theorem matrixRole_other {regs : List Nat} {s : State} {body : Group → Result State} (h : Free s regs)
    (hr : s.group.role ≠ .matrix) : matrixRole regs s body = trapRole s :=
  (scalarInstr_free h).trans (if_pos hr)

/-- In its role it is its body. -/
theorem matrixRole_matrix {regs : List Nat} {s : State} {body : Group → Result State} (h : Free s regs)
    (hr : s.group.role = .matrix) : matrixRole regs s body = body s.group :=
  (scalarInstr_free h).trans (if_neg (not_not_intro hr))

/-- A tile that the team was not granted fails first (R195 step 1). -/
theorem onChecked_badTile {s : State} {t : Team} {z : Nat} {zs more range : List Nat} (hz : t.tiles ≤ z)
    (hrange : range = t.badTiles (z :: zs) ++ more) (k : Unit → Result State) :
    onChecked s (checked range [] []) k = trapRange s z := by
  simp [hrange, Team.badTiles, hz, checked, onChecked]

/-- Granted tiles pass. -/
theorem onChecked_granted {s : State} {t : Team} {l : List Nat} (h : ∀ z ∈ l, z < t.tiles) (k : Unit → Result State) :
    onChecked s (checked (t.badTiles l) [] []) k = k () := by
  have hl : t.badTiles l = [] := by simpa [Team.badTiles] using h
  rw [hl]
  rfl

/-- A check's own reason is not 0. -/
theorem reason_pos (p : Prop) [Decidable p] {n : Nat} (h : 1 ≤ n) : ∀ m ∈ (if p then [n] else []), 1 ≤ m := by
  split
  · simpa using h
  · simp

/-- No reason of an operand is 0. -/
theorem OperandSpec.reasons_pos (o : OperandSpec) (t : Team) (sh : Option Shape) : ∀ n ∈ o.reasons t sh, 1 ≤ n := by
  intro n hn
  simp only [OperandSpec.reasons, List.mem_append, List.mem_ite_nil_right, List.mem_singleton] at hn
  omega

/-- The least of some numbers with 1 among the first is 1, when none is 0. -/
theorem foldl_min_one {l : List Nat} (h : ∀ n ∈ l, 1 ≤ n) : l.foldl min 1 = 1 := by
  induction l with
  | nil => rfl
  | cons n l ih =>
    rw [List.foldl_cons, Nat.min_eq_left (h n List.mem_cons_self)]
    exact ih fun m hm => h m (List.mem_cons_of_mem _ hm)

/-- Reserved bits, which are reason 1, fail before every other reason (R195). -/
theorem onChecked_reserved {s : State} {reasons beyond : List Nat} (hhead : reasons.head? = some 1) (hpos : ∀ n ∈ reasons, 1 ≤ n)
    (k : Unit → Result State) : onChecked s (checked [] reasons beyond) k = trapDesc s 1 := by
  obtain ⟨l, rfl⟩ := List.head?_eq_some_iff.1 hhead
  rw [checked, foldl_min_one fun n hn => hpos n (List.mem_cons_of_mem _ hn), onChecked]

/-- In the matrix role a product or a drain on a tile that was not granted traps with the tile (R98). -/
theorem exec_badTile {f : SR} {s : State} (hfree : Free s [f.dest.toNat, f.src1.toNat, f.src2.toNat])
    (hrole : s.group.role = .matrix) (hz : s.team.tiles ≤ (Ctl.ofWord (s.group.readS f.src2.toNat)).za) :
    ∀ i ∈ [Instr.mma f, .mma2 f, .mdrain f],
      exec i s = trapRange s (Ctl.ofWord (s.group.readS f.src2.toNat)).za := by
  have hsrc : Free s [f.src1.toNat, f.src2.toNat] := free_mono hfree (by simp)
  intro i hi
  simp only [List.mem_cons, List.not_mem_nil, or_false] at hi
  rcases hi with rfl | rfl | rfl
  · show execMma f s = _
    rw [execMma, matrixRole_matrix hsrc hrole]
    exact onChecked_badTile hz (List.append_nil _).symm _
  · show execMma2 f s = _
    rw [execMma2, matrixRole_matrix hfree hrole]
    exact onChecked_badTile hz (List.append_nil _).symm _
  · show execMdrain f s = _
    rw [execMdrain, matrixRole_matrix hsrc hrole]
    exact onChecked_badTile hz rfl _

/-- In the matrix role MZERO of a tile that was not granted traps with the tile (R202). -/
theorem exec_mzero_badTile {f : SR} {s : State} (hfree : Free s []) (hrole : s.group.role = .matrix)
    (hall : f.fn.getLsbD 2 = false) (hz : s.team.tiles ≤ f.fn.toNat % 4) :
    exec (.mzero f) s = trapRange s (f.fn.toNat % 4) := by
  show execMzero f s = _
  rw [execMzero, matrixRole_matrix hfree hrole]
  simp only [hall, Bool.false_eq_true, if_false]
  exact onChecked_badTile hz (List.append_nil _).symm _

/-- MLD with reserved bits in its control word and no handle (R195, R197). -/
theorem exec_mld_reserved {f : SR} {s : State} (hfree : Free s [f.src1.toNat, f.src2.toNat]) (hrole : s.group.role = .matrix)
    (hkind : (Ctl.ofWord (s.group.readS f.src2.toNat)).kind ≠ 2) (hres : (Ctl.ofWord (s.group.readS f.src2.toNat)).reserved = true) :
    exec (.mld f) s = trapDesc s 1 := by
  show execMld f s = _
  rw [execMld, matrixRole_matrix hfree hrole]
  simp only [withRecord, beq_eq_false_iff_ne.2 hkind, Bool.false_eq_true, if_false]
  refine onChecked_reserved (by simp [hres]) ?_ _
  simp only [List.forall_mem_append]
  exact ⟨⟨reason_pos _ (by decide), reason_pos _ (by decide)⟩, OperandSpec.reasons_pos _ _ _⟩

/-- MMA with reserved bits in its control word and no handle, on a granted tile (R195, R198). -/
theorem exec_mma_reserved {f : SR} {s : State} (hfree : Free s [f.src1.toNat, f.src2.toNat]) (hrole : s.group.role = .matrix)
    (hkind : (Ctl.ofWord (s.group.readS f.src2.toNat)).kind ≠ 2) (hres : (Ctl.ofWord (s.group.readS f.src2.toNat)).reserved = true)
    (hza : (Ctl.ofWord (s.group.readS f.src2.toNat)).za < s.team.tiles) : exec (.mma f) s = trapDesc s 1 := by
  show execMma f s = _
  rw [execMma, matrixRole_matrix hfree hrole]
  refine (onChecked_granted (List.forall_mem_singleton.2 hza) _).trans ?_
  simp only [withRecord, beq_eq_false_iff_ne.2 hkind, Bool.false_eq_true, if_false]
  refine onChecked_reserved (by simp [hres]) ?_ _
  simp only [List.forall_mem_append]
  exact ⟨⟨⟨⟨reason_pos _ (by decide), reason_pos _ (by decide)⟩, OperandSpec.reasons_pos _ _ _⟩, reason_pos _ (by decide)⟩,
    reason_pos _ (by decide)⟩

/-- MMA2 with reserved bits in its control word and no handles, on granted tiles (R195, R199). -/
theorem exec_mma2_reserved {f : SR} {s : State} (hfree : Free s [f.dest.toNat, f.src1.toNat, f.src2.toNat])
    (hrole : s.group.role = .matrix) (hkind : (Ctl.ofWord (s.group.readS f.src2.toNat)).kind ≠ 2)
    (hkind2 : (Ctl.ofWord (s.group.readS f.src2.toNat)).kind2 ≠ 2)
    (hres : (Ctl.ofWord (s.group.readS f.src2.toNat)).reserved = true)
    (hza : (Ctl.ofWord (s.group.readS f.src2.toNat)).za < s.team.tiles)
    (hzb : (Ctl.ofWord (s.group.readS f.src2.toNat)).zb < s.team.tiles) : exec (.mma2 f) s = trapDesc s 1 := by
  show execMma2 f s = _
  rw [execMma2, matrixRole_matrix hfree hrole]
  refine (onChecked_granted (List.forall_mem_cons.2 ⟨hza, List.forall_mem_singleton.2 hzb⟩) _).trans ?_
  simp only [withRecord, beq_eq_false_iff_ne.2 hkind, beq_eq_false_iff_ne.2 hkind2, Bool.false_eq_true, if_false]
  refine onChecked_reserved (by simp [hres]) ?_ _
  simp only [List.forall_mem_append]
  exact ⟨⟨⟨⟨⟨reason_pos _ (by decide), reason_pos _ (by decide)⟩, OperandSpec.reasons_pos _ _ _⟩, OperandSpec.reasons_pos _ _ _⟩,
    reason_pos _ (by decide)⟩, reason_pos _ (by decide)⟩

/-- Outside the matrix role every matrix instruction traps ROLEOP (R17). -/
theorem exec_matrix_otherRole {f : SR} {s : State} (hfree : Free s [f.dest.toNat, f.src1.toNat, f.src2.toNat])
    (hrole : s.group.role ≠ .matrix) :
    ∀ i ∈ [Instr.mld f, .mma f, .mma2 f, .mdrain f, .mzero f, .mmode f, .mvnb f, .msync f], exec i s = trapRole s := by
  have hsrc : Free s [f.src1.toNat, f.src2.toNat] := free_mono hfree (by simp)
  have hnone : Free s [] := free_mono hfree (by simp)
  simp only [List.forall_mem_cons, List.not_mem_nil, false_implies, implies_true, and_true]
  exact ⟨show execMld f s = _ from matrixRole_other hsrc hrole,
    show execMma f s = _ from matrixRole_other hsrc hrole,
    show execMma2 f s = _ from matrixRole_other hfree hrole,
    show execMdrain f s = _ from matrixRole_other hsrc hrole,
    show execMzero f s = _ from matrixRole_other hnone hrole,
    show execMmode f s = _ from matrixRole_other hnone hrole,
    show execMvnb f s = _ from matrixRole_other hfree hrole,
    show execMsync f s = _ from matrixRole_other hnone hrole⟩

/-- Outside the copy role CPY traps ROLEOP (R17). -/
theorem exec_cpy_otherRole {f : SR} {s : State} (hfree : Free s [f.src1.toNat]) (hrole : s.group.role ≠ .copy) :
    exec (.cpy f) s = trapRole s :=
  show execCpy f s = _ from (scalarInstr_free hfree).trans (if_pos hrole)

/-- Settles O29: each instruction's first failing check is its role, its tile or its reserved bits, and a failing check traps. -/
theorem engineChecksTrap : Obligations.EngineChecksTrap := by
  intro f s g c hlane htrap hfree
  have hsrc : Free s [f.src1.toNat, f.src2.toNat] := free_mono hfree (by simp)
  refine ⟨fun hrole i hi => ?_, fun hrole => ?_,
    fun hrole hkind hkind2 => ⟨fun hza i hi => ?_, fun hall htile => ?_, fun hres => ⟨?_, fun hza => ⟨?_, fun hzb => ?_⟩⟩⟩⟩
  · rw [exec_matrix_otherRole hfree hrole i hi]
    exact traps_trapRole hlane htrap
  · rw [exec_cpy_otherRole (free_mono hfree (by simp)) hrole]
    exact traps_trapRole hlane htrap
  · rw [exec_badTile hfree hrole hza i hi]
    exact traps_trapRange hlane htrap _
  · rw [exec_mzero_badTile (free_mono hfree (by simp)) hrole hall htile]
    exact traps_trapRange hlane htrap _
  · rw [exec_mld_reserved hsrc hrole hkind hres]
    exact traps_trapDesc hlane htrap 1
  · rw [exec_mma_reserved hsrc hrole hkind hres hza]
    exact traps_trapDesc hlane htrap 1
  · rw [exec_mma2_reserved hfree hrole hkind hkind2 hres hza hzb]
    exact traps_trapDesc hlane htrap 1

end Sys2Proof.Machine
end

section
/-! PROOFS. Children: how SPAWN and SPAWNL create them, and what settling their places leaves (R27, R90, R100, R305, R330). -/

namespace Sys2Proof.Assoc

/-- What a key holds after every value has changed. -/
@[simp] theorem find?_mapVals {α : Type} (l : List (Nat × α)) (f : Nat → α → α) (k : Nat) :
    find? (mapVals l f) k = (find? l k).map (f k) := by
  induction l with
  | nil => rfl
  | cons p t ih =>
    obtain ⟨n, v⟩ := p
    simp only [mapVals, List.map_cons, find?] at ih ⊢
    split
    · subst_vars; rfl
    · exact ih

end Sys2Proof.Assoc

namespace Sys2Proof.Machine

open Sys2Proof.Safety

/-! A group's place: its status, slot, age and frame. -/

/-- `h` is `g` in another place, with `n` children more: of its other fields none has changed. -/
def Placed (n : Nat) (g h : Group) : Prop :=
  h.children = g.children + n ∧
    ∃ status slot age frame, h = { g with status := status, slot := slot, age := age, frame := frame }

theorem Placed.refl (g : Group) : Placed 0 g g := ⟨rfl, _, _, _, _, rfl⟩

theorem Placed.trans {m n : Nat} {g h i : Group} (hgh : Placed m g h) (hhi : Placed n h i) : Placed (m + n) g i := by
  obtain ⟨c, _, _, _, _, rfl⟩ := hgh
  obtain ⟨d, _, _, _, _, rfl⟩ := hhi
  exact ⟨by rw [d, c, Nat.add_assoc], _, _, _, _, rfl⟩

theorem Placed.take (g : Group) (slot : Nat) : Placed 0 g (g.take slot) := ⟨rfl, _, _, _, _, rfl⟩

/-- A frame allocated now counts the children that its group has. -/
theorem frameOr_count (g : Group) (cycle : Nat) : (g.frameOr cycle).count = g.children := by
  unfold Group.frameOr Group.children
  cases g.frame <;> rfl

/-- Another frame of the same count. -/
theorem Placed.frame {n : Nat} (g : Group) {f : Frame} (h : f.count = g.children + n) : Placed n g { g with frame := some f } :=
  ⟨h, _, _, _, _, rfl⟩

/-- Another status, and another frame of the same count. -/
theorem Placed.status (g : Group) (st : Status) {f : Frame} (h : f.count = g.children) :
    Placed 0 g { g with status := st, frame := some f } := ⟨h, _, _, _, _, rfl⟩

theorem Placed.addChildren (g : Group) (cycle n : Nat) (off : Bool) : Placed n g (g.addChildren cycle n off) :=
  Placed.frame g (congrArg (· + n) (frameOr_count g cycle))

/-- In another place a group keeps its grid and its number in it. -/
theorem Placed.grid {n : Nat} {g h : Group} (hp : Placed n g h) : h.grid = g.grid := by
  obtain ⟨_, _, _, _, _, rfl⟩ := hp
  rfl

theorem Placed.serial {n : Nat} {g h : Group} (hp : Placed n g h) : h.serial = g.serial := by
  obtain ⟨_, _, _, _, _, rfl⟩ := hp
  rfl

theorem Placed.key {n : Nat} {g h : Group} (hp : Placed n g h) : h.key = g.key := by
  rw [Group.key, hp.grid, hp.serial, Group.key]

/-- In another place a group keeps its registers and the position of its scalar stream. -/
theorem Placed.keeps {n : Nat} {g h : Group} (hp : Placed n g h) :
    h.pc = g.pc ∧ SameS g h [] ∧ SameLanes g h ∧ SameFlags g h ∧ SameCsrs g h ∧ SameTrap g h := by
  obtain ⟨_, _, _, _, _, rfl⟩ := hp
  exact ⟨rfl, fun _ _ => rfl, ⟨rfl, rfl, rfl, rfl⟩, fun _ => rfl,
    ⟨⟨rfl, rfl, rfl, rfl, rfl, rfl, rfl, rfl, rfl, rfl, rfl, rfl, rfl⟩, rfl⟩, rfl, rfl, rfl, rfl, rfl, rfl, rfl, rfl, rfl⟩

/-- The device's groups have moved to other places: every group stands where it stood, and beside the groups no more than
performance counters have changed. -/
def GroupsMoved (s t : State) : Prop :=
  (∃ groups cores, t = { s with groups := groups, cores := cores }) ∧
    ∀ k g, Assoc.find? s.groups k = some g → ∃ h, Assoc.find? t.groups k = some h ∧ Placed 0 g h

theorem GroupsMoved.refl (s : State) : GroupsMoved s s := ⟨⟨_, _, rfl⟩, fun _ g h => ⟨g, h, Placed.refl g⟩⟩

theorem GroupsMoved.trans {s t u : State} (hst : GroupsMoved s t) (htu : GroupsMoved t u) : GroupsMoved s u := by
  obtain ⟨⟨_, _, rfl⟩, hg⟩ := hst
  obtain ⟨⟨_, _, rfl⟩, hh⟩ := htu
  refine ⟨⟨_, _, rfl⟩, fun k g h => ?_⟩
  obtain ⟨g', h', hp⟩ := hg k g h
  obtain ⟨g'', h'', hq⟩ := hh k g' h'
  exact ⟨g'', h'', hp.trans hq⟩

/-- A change of one group's place. -/
theorem GroupsMoved.modGroup (s : State) (k : Nat) {f : Group → Group} (hf : ∀ g, Assoc.find? s.groups k = some g → Placed 0 g (f g)) :
    GroupsMoved s (s.modGroup k f) := by
  refine ⟨⟨_, _, rfl⟩, fun n g hg => ?_⟩
  by_cases hk : k = n
  · subst hk
    exact ⟨f g, by simp [State.modGroup, hg], hf g hg⟩
  · exact ⟨g, by simp [State.modGroup, hg, hk], Placed.refl g⟩

theorem GroupsMoved.perfEvent (s : State) (c e g n : Nat) : GroupsMoved s (s.perfEvent c e g n) :=
  ⟨⟨_, _, rfl⟩, fun _ g h => ⟨g, h, Placed.refl g⟩⟩

/-- A group without a frame takes one (R25). -/
theorem groupsMoved_withFrame (s : State) (k : Nat) : GroupsMoved s (s.withFrame k) := by
  refine .modGroup s k fun g _ => ?_
  split
  · exact Placed.refl g
  · exact Placed.frame g (frameOr_count g _)

/-- A pending child leaves its parent's list. -/
theorem groupsMoved_unpend (s : State) (k : Nat) : GroupsMoved s (unpend s k) := by
  refine ⟨⟨_, _, rfl⟩, fun n g hg => ?_⟩
  refine ⟨_, by simp only [unpend, Assoc.find?_mapVals, hg, Option.map_some]; rfl, ?_⟩
  split
  · next f hf =>
    split
    · exact Placed.frame g (by simp only [Group.children, hf]; rfl)
    · exact Placed.refl g
  · exact Placed.refl g

/-- A pending child takes a slot. -/
theorem groupsMoved_unpend_take (s : State) (k slot : Nat) : GroupsMoved s ((unpend s k).modGroup k (·.take slot)) :=
  (groupsMoved_unpend s k).trans (.modGroup _ k fun g _ => Placed.take g slot)

theorem groupsMoved_takeSlot (s : State) (k : Nat) : GroupsMoved s (takeSlot s k) := by
  unfold takeSlot
  split
  · exact groupsMoved_unpend_take s k _
  · exact .refl s

theorem groupsMoved_parkGroup (s : State) (k : Nat) : GroupsMoved s (parkGroup s k) := by
  unfold parkGroup
  refine .trans (.modGroup s k fun g _ => ?_) (.perfEvent _ _ _ _ _)
  exact Placed.status g .parked (frameOr_count g _)

/-- Once its children have been created a group keeps its slot or passes it to the first pending one (R305). -/
theorem groupsMoved_settleSpawn (s : State) (k first : Nat) : GroupsMoved s (settleSpawn s k first) := by
  unfold settleSpawn
  split
  · exact .refl s
  · split
    · exact .refl s
    · split
      · exact .refl s
      · dsimp only
        split
        · exact (groupsMoved_parkGroup s k).trans (groupsMoved_unpend_take _ _ _)
        · exact groupsMoved_parkGroup s k

/-! A child (R90, R99, R100, R330). -/

/-- `c` is the child that a group of these registers creates under a number, with an index and an argument. -/
structure ChildOf (g : Group) (entry : BitVec 56) (serial index : Nat) (arg : Word) (c : Group) : Prop where
  gid : c.gid = BitVec.ofNat 32 serial
  parent : c.parent = some g.key
  child : c.child = true
  role : c.role = g.role
  launchIdx : c.launchIdx = index
  pc : c.pc = entry
  argS : c.readS 1 = arg
  indexS : c.readS 2 = BitVec.ofNat 64 index
  team : c.readS 3 = g.readS 3
  priv : c.priv = g.priv
  core : c.core = g.core
  alloc : c.alloc = g.alloc

theorem newChild_key (s : State) (g : Group) (serial index : Nat) (arg : Word) (entry : BitVec 56) :
    (newChild s g serial index arg entry).key = keyOf g.grid serial := by
  simp [newChild, Group.key]

theorem childOf_newChild (s : State) (g : Group) (serial index : Nat) (arg : Word) (entry : BitVec 56) :
    ChildOf g entry serial index arg (newChild s g serial index arg entry) := by
  constructor <;> simp [newChild]

/-- A child is the same child in another place, and of a parent in another place. -/
theorem ChildOf.placed {g h c d : Group} {entry : BitVec 56} {serial index m n : Nat} {arg : Word}
    (hc : ChildOf h entry serial index arg c) (hg : Placed m g h) (hd : Placed n c d) : ChildOf g entry serial index arg d := by
  obtain ⟨_, _, _, _, _, rfl⟩ := hg
  obtain ⟨_, _, _, _, _, rfl⟩ := hd
  exact ⟨hc.gid, hc.parent, hc.child, hc.role, hc.launchIdx, hc.pc, hc.argS, hc.indexS, hc.team, hc.priv, hc.core, hc.alloc⟩

/-! Children created in order. -/

/-- `t` is the state in which a group has created children, numbered from its grid's counter (R100, R330). -/
structure ChildrenAdded (s t : State) (g : Group) (x : Grid) (entry : BitVec 56) (l : List (Nat × Word)) : Prop where
  kept : ∃ groups cores grids stamp, t = { s with groups := groups, cores := cores, grids := grids, stamp := stamp }
  parent : ∃ h, Assoc.find? t.groups g.key = some h ∧ Placed l.length g h
  grid : Assoc.find? t.grids g.grid = some { x with children := x.children + l.length }
  child : ∀ i a, l[i]? = some a → ∃ c, Assoc.find? t.groups (keyOf g.grid (x.children + i)) = some c ∧
    ChildOf g entry (x.children + i) a.1 a.2 c
  other : ∀ n h, n ≠ g.key → (∀ i, i < l.length → keyOf g.grid (x.children + i) ≠ n) → Assoc.find? s.groups n = some h →
    ∃ h', Assoc.find? t.groups n = some h' ∧ Placed 0 h h'

theorem ChildrenAdded.nil {s : State} {g : Group} {x : Grid} (hg : Assoc.find? s.groups g.key = some g)
    (hx : Assoc.find? s.grids g.grid = some x) (entry : BitVec 56) : ChildrenAdded s s g x entry [] where
  kept := ⟨_, _, _, _, rfl⟩
  parent := ⟨g, hg, Placed.refl g⟩
  grid := hx
  child := by simp
  other := fun _ h _ _ hn => ⟨h, hn, Placed.refl h⟩

/-- Groups that move to other places change nothing of it. -/
theorem ChildrenAdded.moved {s t u : State} {g : Group} {x : Grid} {entry : BitVec 56} {l : List (Nat × Word)}
    (h : ChildrenAdded s t g x entry l) (hm : GroupsMoved t u) : ChildrenAdded s u g x entry l := by
  obtain ⟨⟨_, _, rfl⟩, hu⟩ := hm
  obtain ⟨⟨_, _, _, _, rfl⟩, ⟨p, hp, hpp⟩, hgrid, hchild, hother⟩ := h
  refine ⟨⟨_, _, _, _, rfl⟩, ?_, hgrid, fun i a ha => ?_, fun n b hn hne hb => ?_⟩
  · obtain ⟨q, hq, hpq⟩ := hu _ p hp
    exact ⟨q, hq, hpp.trans hpq⟩
  · obtain ⟨c, hc, hcc⟩ := hchild i a ha
    obtain ⟨d, hd, hcd⟩ := hu _ c hc
    exact ⟨d, hd, hcc.placed (Placed.refl g) hcd⟩
  · obtain ⟨c, hc, hbc⟩ := hother n b hn hne hb
    obtain ⟨d, hd, hcd⟩ := hu _ c hc
    exact ⟨d, hd, hbc.trans hcd⟩

/-- Groups may have moved before. -/
theorem ChildrenAdded.after {s t u : State} {g h : Group} {x : Grid} {entry : BitVec 56} {l : List (Nat × Word)}
    (hm : GroupsMoved s t) (hg : Placed 0 g h) (hu : ChildrenAdded t u h x entry l) : ChildrenAdded s u g x entry l := by
  obtain ⟨⟨_, _, rfl⟩, hs⟩ := hm
  obtain ⟨⟨_, _, _, _, rfl⟩, ⟨p, hp, hpp⟩, hgrid, hchild, hother⟩ := hu
  rw [hg.key] at hp hother
  rw [hg.grid] at hgrid hchild hother
  refine ⟨⟨_, _, _, _, rfl⟩, ⟨p, hp, ?_⟩, hgrid, fun i a ha => ?_, fun n b hn hne hb => ?_⟩
  · simpa using hg.trans hpp
  · obtain ⟨c, hc, hcc⟩ := hchild i a ha
    exact ⟨c, hc, hcc.placed hg (Placed.refl c)⟩
  · obtain ⟨b', hb', hbb⟩ := hs n b hb
    obtain ⟨c, hc, hbc⟩ := hother n b' hn hne hb'
    exact ⟨c, hc, hbb.trans hbc⟩

/-- A grid's groups have keys of their own (R100). -/
theorem keyOf_inj {grid m n : Nat} : keyOf grid m = keyOf grid n ↔ m = n := Nat.add_left_cancel_iff

/-- Before its own place is settled, a new child stands beside a parent that counts it. -/
theorem childrenAdded_put {s : State} {g : Group} {x : Grid} (hg : Assoc.find? s.groups g.key = some g)
    (hx : Assoc.find? s.grids g.grid = some x) (hne : x.children ≠ g.serial) {entry : BitVec 56} {index : Nat} {arg : Word}
    {c : Group} (hkey : c.key = keyOf g.grid x.children) (hc : ChildOf g entry x.children index arg c) (cycle stamp : Nat) :
    ChildrenAdded s { ((s.modGrid g.grid fun x => { x with children := x.children + 1 }).modGroup g.key
      (·.addChildren cycle 1 false)).putGroup c.key c with stamp := stamp } g x entry [(index, arg)] where
  kept := ⟨_, _, _, _, rfl⟩
  parent := by
    refine ⟨g.addChildren cycle 1 false, ?_, Placed.addChildren g cycle 1 false⟩
    have hk : c.key ≠ g.key := fun h => hne (keyOf_inj.1 (hkey.symm.trans h))
    simp [State.putGroup, State.modGroup, State.modGrid, hk, hg]
  grid := by simp [State.putGroup, State.modGroup, State.modGrid, hx]
  child := by
    intro i a ha
    obtain ⟨rfl, rfl⟩ : i = 0 ∧ a = (index, arg) := by
      cases i <;> simp_all
    exact ⟨c, by simp [State.putGroup, hkey], hc⟩
  other := by
    intro n h hn hnew hh
    have hcn : c.key ≠ n := by simpa [hkey] using hnew 0 (by simp)
    exact ⟨h, by simp [State.putGroup, State.modGroup, State.modGrid, hcn, hn.symm, hh], Placed.refl h⟩

/-- One child is created: it takes a slot or stands pending (R27, R330). -/
theorem childrenAdded_addChild {s : State} {g : Group} {x : Grid} (hg : Assoc.find? s.groups g.key = some g)
    (hx : Assoc.find? s.grids g.grid = some x) (hne : x.children ≠ g.serial) (entry : BitVec 56) (index : Nat) (arg : Word) :
    ChildrenAdded s (addChild s g.key index arg entry) g x entry [(index, arg)] := by
  have hm := groupsMoved_withFrame s g.key
  obtain ⟨h, hh, hp⟩ := hm.2 _ g hg
  have hgrid : (s.withFrame g.key).gridAt g.grid = x := congrArg (·.getD Grid.blank) hx
  refine .after hm hp ?_
  have hadd := childrenAdded_put (s := s.withFrame g.key) (g := h) (x := x) (by rw [hp.key]; exact hh) (by rw [hp.grid]; exact hx)
    (by rw [hp.serial]; exact hne) (newChild_key (s.withFrame g.key) h x.children index arg entry)
    (childOf_newChild (s.withFrame g.key) h x.children index arg entry) s.cycle.toNat (s.stamp + 1)
  have hat : (s.withFrame g.key).groupAt g.key = h := congrArg (·.getD Group.blank) hh
  simp only [addChild, hat, hp.grid, hgrid]
  rw [hp.key, hp.grid] at hadd
  split
  · exact hadd.moved (groupsMoved_takeSlot _ _)
  · exact hadd.moved (.modGroup _ _ fun p _ => Placed.frame p (frameOr_count p _))

/-- Children created after others. -/
theorem ChildrenAdded.cons {s t u : State} {g h : Group} {x : Grid} {entry : BitVec 56} {a : Nat × Word} {l : List (Nat × Word)}
    (hst : ChildrenAdded s t g x entry [a]) (hh : Assoc.find? t.groups g.key = some h) (hgh : Placed 1 g h)
    (htu : ChildrenAdded t u h { x with children := x.children + 1 } entry l) (hne : ∀ i, i < l.length + 1 → x.children + i ≠ g.serial) :
    ChildrenAdded s u g x entry (a :: l) := by
  obtain ⟨⟨_, _, _, _, rfl⟩, -, -, hchild, hother⟩ := hst
  obtain ⟨⟨_, _, _, _, rfl⟩, ⟨p, hp, hpp⟩, hgrid, hchild', hother'⟩ := htu
  simp only [hgh.key, hgh.grid, Nat.add_assoc] at hp hgrid hchild' hother'
  refine ⟨⟨_, _, _, _, rfl⟩, ⟨p, hp, ?_⟩, ?_, fun i b hb => ?_, fun n b hn hnew hb => ?_⟩
  · simpa [Nat.add_comm] using hgh.trans hpp
  · simpa [Nat.add_comm] using hgrid
  · cases i with
    | zero =>
      obtain ⟨c, hc, hcc⟩ := hchild 0 b hb
      obtain ⟨d, hd, hcd⟩ := hother' _ c (fun hk => hne 0 (by omega) (keyOf_inj.1 hk))
        (fun i _ hk => absurd (keyOf_inj.1 hk) (by omega)) hc
      exact ⟨d, hd, hcc.placed (Placed.refl g) hcd⟩
    | succ i =>
      obtain ⟨c, hc, hcc⟩ := hchild' i b hb
      rw [Nat.add_comm i 1]
      exact ⟨c, hc, hcc.placed hgh (Placed.refl c)⟩
  · obtain ⟨c, hc, hbc⟩ := hother n b hn (fun i hi => by simpa using hnew i (by simp at hi ⊢; omega)) hb
    obtain ⟨d, hd, hcd⟩ := hother' n c hn
      (fun i hi => by simpa [Nat.add_comm 1 i] using hnew (i + 1) (by simpa using hi)) hc
    exact ⟨d, hd, hbc.trans hcd⟩

/-- Children created one after the other. -/
theorem childrenAdded_foldl {s : State} {g : Group} {x : Grid} (entry : BitVec 56) (l : List (Nat × Word))
    (hg : Assoc.find? s.groups g.key = some g) (hx : Assoc.find? s.grids g.grid = some x)
    (hne : ∀ i, i < l.length → x.children + i ≠ g.serial) :
    ChildrenAdded s (l.foldl (fun s c => addChild s g.key c.1 c.2 entry) s) g x entry l := by
  induction l generalizing s g x with
  | nil => exact .nil hg hx entry
  | cons a l ih =>
    have hadd := childrenAdded_addChild hg hx (hne 0 (by simp)) entry a.1 a.2
    rw [List.foldl_cons]
    generalize addChild s g.key a.1 a.2 entry = t at hadd ⊢
    obtain ⟨h, hh, hgh⟩ := hadd.parent
    refine hadd.cons hh hgh ?_ (by simpa using hne)
    rw [← hgh.key]
    refine ih (by rw [hgh.key]; exact hh) (by rw [hgh.grid]; exact hadd.grid) fun i hi => ?_
    have hi' := hne (i + 1) (by simpa using hi)
    rw [hgh.serial]
    dsimp only
    omega

/-- Children created together, and their places settled (R90, R100, R305, R330). -/
theorem childrenAdded_addChildren {s : State} {g : Group} {x : Grid} (entry : BitVec 56) (l : List (Nat × Word))
    (hg : Assoc.find? s.groups g.key = some g) (hx : Assoc.find? s.grids g.grid = some x)
    (hne : ∀ i, i < l.length → x.children + i ≠ g.serial) : ChildrenAdded s (addChildren s g.key entry l) g x entry l :=
  (childrenAdded_foldl entry l hg hx hne).moved (groupsMoved_settleSpawn _ _ _)

theorem ChildrenAdded.mem {s t : State} {g : Group} {x : Grid} {entry : BitVec 56} {l : List (Nat × Word)}
    (h : ChildrenAdded s t g x entry l) : t.mem = s.mem := by
  obtain ⟨_, _, _, _, rfl⟩ := h.kept
  rfl

/-- What the parent of new children keeps: all but its place. -/
theorem ChildrenAdded.group {s t : State} {g : Group} {x : Grid} {entry : BitVec 56} {l : List (Nat × Word)}
    (h : ChildrenAdded s t g x entry l) (hcur : s.cur.key = g.key) : Placed l.length g t.group := by
  obtain ⟨p, hp, hpp⟩ := h.parent
  have htcur : t.cur = s.cur := by
    obtain ⟨_, _, _, _, rfl⟩ := h.kept
    rfl
  have hgroup : t.group = p := by rw [State.group, State.groupAt, htcur, hcur, hp, Option.getD_some]
  exact hgroup ▸ hpp

/-- Settles O22: the children are created in order from a parent that has moved on. -/
theorem spawnCreatesChildren : Obligations.SpawnCreatesChildren := by
  intro f s g n first hfree hhandler hroom hkey hgroup hgrid hne
  let children := (List.range n).map fun i => (i, g.readS f.src1.toNat)
  let entry := s.grid.record.scalarBase + f.imm.setWidth 56
  have hlen : children.length = n := by simp [children]
  have hput : Assoc.find? (s.setGroup (g.advance 8)).groups g.key = some (g.advance 8) := by
    simp [State.setGroup, State.putGroup, hkey]
  obtain ⟨x, hx⟩ := Option.isSome_iff_exists.1 hgrid
  have hfirst : first = x.children := congrArg (fun o => (o.getD Grid.blank).children) hx
  have hadd : ChildrenAdded (s.setGroup (g.advance 8)) (addChildren (s.setGroup (g.advance 8)) g.key entry children)
      (g.advance 8) x entry children :=
    childrenAdded_addChildren (s := s.setGroup (g.advance 8)) (g := g.advance 8) entry children hput hx
      fun i hi => hfirst ▸ hne i (hlen ▸ hi)
  have hparent := hadd.group hkey
  refine ⟨addChildren (s.setGroup (g.advance 8)) g.key entry children, ?_, ?_⟩
  · show execSpawn f s = _
    rw [execSpawn, plainInstr, scalarInstr_free hfree, if_neg (by simpa using hhandler), if_neg (Nat.not_lt.2 hroom)]
    rfl
  · obtain ⟨hpc, hs, hlanes, hflags, hcsrs, htrap⟩ := hparent.keeps
    refine ⟨hadd.mem, hpc, hs, hlanes, hflags, hcsrs, htrap, hlen ▸ hparent.1, ?_, fun i hi => ?_⟩
    · rw [hfirst, ← hlen]
      exact congrArg (fun o => (o.getD Grid.blank).children) hadd.grid
    · obtain ⟨c, hc, h⟩ := hadd.child i (i, g.readS f.src1.toNat) (by simp [children, hi])
      rw [hfirst]
      exact ⟨c, hc, h.gid, h.parent, h.child, h.role, h.launchIdx, h.pc, h.argS, h.indexS, h.team, h.priv, h.core, h.alloc⟩

end Sys2Proof.Machine
end

section
/-! PROOFS. The split table: which split stands where, and what an arrival and a fusion do (R166 to R170). -/

namespace Sys2Proof.Machine

open Sys2Proof.Safety

/-! The split table. -/

theorem Group.splitAt_putSplit_same (g : Group) {i : Nat} (h : i = 4 ∨ i < g.splits.length) (x : Split) :
    (g.putSplit i x).splitAt i = x := by
  by_cases hi : i = 4
  · simp [Group.putSplit, Group.splitAt, hi]
  · simp [Group.putSplit, Group.splitAt, hi, h.resolve_left hi]

theorem Group.splitAt_putSplit_ne (g : Group) {i n : Nat} (h : n ≠ i) (x : Split) : (g.putSplit i x).splitAt n = g.splitAt n := by
  by_cases hi : i = 4
  · simp [Group.putSplit, Group.splitAt, hi, hi ▸ h]
  · simp [Group.putSplit, Group.splitAt, hi, h.symm]

/-- `h` is `g` but for its splits and the operations that belong to them. -/
def SplitsOnly (g h : Group) : Prop :=
  ∃ splits hsplit laneOps, splits.length = g.splits.length ∧ h = { g with splits := splits, hsplit := hsplit, laneOps := laneOps }

theorem SplitsOnly.refl (g : Group) : SplitsOnly g g := ⟨_, _, _, rfl, rfl⟩

theorem SplitsOnly.trans {g h i : Group} (hgh : SplitsOnly g h) (hhi : SplitsOnly h i) : SplitsOnly g i := by
  obtain ⟨_, _, _, hl, rfl⟩ := hgh
  obtain ⟨_, _, _, hm, rfl⟩ := hhi
  exact ⟨_, _, _, hm.trans hl, rfl⟩

theorem SplitsOnly.putSplit (g : Group) (i : Nat) (x : Split) : SplitsOnly g (g.putSplit i x) := by
  unfold Group.putSplit
  split
  · exact ⟨_, _, _, rfl, rfl⟩
  · exact ⟨_, _, _, List.length_set, rfl⟩

theorem SplitsOnly.orphanOps (g : Group) (i heir : Nat) : SplitsOnly g (g.orphanOps i heir) := ⟨_, _, _, rfl, rfl⟩

theorem SplitsOnly.length {g h : Group} (hgh : SplitsOnly g h) : h.splits.length = g.splits.length := by
  obtain ⟨_, _, _, hl, rfl⟩ := hgh
  exact hl

theorem SplitsOnly.sameS {g h : Group} (hgh : SplitsOnly g h) : SameS g h [] := by
  obtain ⟨_, _, _, _, rfl⟩ := hgh
  exact fun _ _ => rfl

/-! Fusion (R170 step 3). -/

/-- The splits of a list but the lowest are freed, and their operations go to it. -/
def Group.freeBut (g : Group) (low : Nat) (l : List Nat) : Group :=
  l.foldl (fun g n => if n = low then g else (g.orphanOps n low).putSplit n Split.free) g

theorem SplitsOnly.freeBut (g : Group) (low : Nat) (l : List Nat) : SplitsOnly g (g.freeBut low l) := by
  unfold Group.freeBut
  induction l generalizing g with
  | nil => exact .refl g
  | cons n l ih =>
    refine .trans ?_ (ih _)
    dsimp only
    split
    · exact .refl g
    · exact (SplitsOnly.orphanOps g n low).trans (.putSplit _ n _)

/-- A split that is not of the list stands. -/
theorem Group.splitAt_freeBut_of_notMem (g : Group) (low : Nat) {l : List Nat} {n : Nat} (h : n ∉ l) :
    (g.freeBut low l).splitAt n = g.splitAt n := by
  unfold Group.freeBut
  induction l generalizing g with
  | nil => rfl
  | cons m l ih =>
    rw [List.foldl_cons, ih _ fun hm => h (List.mem_cons_of_mem _ hm)]
    split
    · rfl
    · exact Group.splitAt_putSplit_ne _ (fun hm => h (List.mem_cons.2 (.inl hm))) _

/-- A split of the list but the lowest is free, whatever it was. -/
theorem Group.splitAt_freeBut_free (g : Group) {low n : Nat} (hn : n ≠ low) (hlen : n < g.splits.length)
    (l : List Nat) (h : n ∈ l ∨ g.splitAt n = Split.free) : (g.freeBut low l).splitAt n = Split.free := by
  unfold Group.freeBut
  induction l generalizing g with
  | nil => exact h.resolve_left List.not_mem_nil
  | cons m l ih =>
    rw [List.foldl_cons]
    by_cases hm : m = low
    · rw [if_pos hm]
      exact ih g hlen (h.imp_left fun hc => (List.mem_cons.1 hc).resolve_left (hm ▸ hn))
    · rw [if_neg hm]
      have honly := (SplitsOnly.orphanOps g m low).trans (.putSplit _ m Split.free)
      refine ih _ (honly.length ▸ hlen) ?_
      by_cases hnm : n = m
      · exact .inr (by rw [hnm]; exact Group.splitAt_putSplit_same _ (.inr (hnm ▸ hlen)) _)
      · exact h.imp (fun hc => (List.mem_cons.1 hc).resolve_left hnm) fun hf => (Group.splitAt_putSplit_ne _ hnm _).trans hf

/-- Entries that take other entries' lanes keep their identifiers. -/
theorem absorbJoins_id (js others : List Join) : (absorbJoins js others).map (·.id) = js.map (·.id) := by
  have habsorb (l : List Join) (j : Join) : (l.foldl Join.absorb j).id = j.id := by
    induction l generalizing j with
    | nil => rfl
    | cons o l ih => exact ih _
  simp [absorbJoins, habsorb]

/-- Entries that are an end of a split's stack, but for the lanes they hold, have identifiers that it holds. -/
theorem holds_of_drop {x y : Split} {id n : Nat} (hy : y.joins.map (·.id) = (x.joins.drop n).map (·.id)) (h : y.holds id = true) :
    x.holds id = true := by
  simp only [Split.holds, List.any_eq_true, beq_iff_eq] at h ⊢
  obtain ⟨j, hj, rfl⟩ := h
  obtain ⟨o, ho, hid⟩ := List.mem_map.1 (hy ▸ List.mem_map_of_mem hj : j.id ∈ (x.joins.drop n).map (·.id))
  exact ⟨o, List.mem_of_mem_drop ho, hid⟩

theorem foldl_absorbJoins_id (l : List (List Join)) (js : List Join) : (l.foldl absorbJoins js).map (·.id) = js.map (·.id) := by
  induction l generalizing js with
  | nil => rfl
  | cons o l ih => rw [List.foldl_cons, ih, absorbJoins_id]

/-- The least of some numbers is one of them. -/
theorem foldl_min_mem (i : Nat) (l : List Nat) : l.foldl min i ∈ i :: l := by
  induction l generalizing i with
  | nil => simp
  | cons n l ih =>
    rw [List.foldl_cons]
    rcases List.mem_cons.1 (ih (min i n)) with h | h
    · rw [h]
      rcases Nat.le_total i n with hin | hin
      · simp [hin]
      · simp [hin]
    · simp [h]

theorem foldl_min_mem_cons (i : Nat) (l : List Nat) : (i :: l).foldl min i ∈ i :: l := by
  rw [List.foldl_cons, Nat.min_self]
  exact foldl_min_mem i l

/-- What a fusion does, if it takes place: some splits, this one and those that hold the identifier of its top join entry, all
of which wait there, become the lowest of them, with no entry of another identifier than it had. -/
theorem Group.fuse_cases (g : Group) (i : Nat) : g.fuse i = g ∨ ∃ j rest all low y,
    (g.splitAt i).valid = true ∧ (g.splitAt i).joins = j :: rest ∧
    (∀ n, n ∈ all ↔ n = i ∨ (n < 4 ∧ n ≠ i ∧ (g.splitAt n).valid = true ∧ (g.splitAt n).holds j.id = true)) ∧
    (∀ n ∈ all, (g.splitAt n).waitsAt j.id = true) ∧ low ∈ all ∧
    (∀ id, y.holds id = true → (g.splitAt low).holds id = true) ∧
    g.fuse i = (g.freeBut low all).putSplit low y := by
  unfold Group.fuse
  dsimp only
  split
  · exact .inl rfl
  · next j rest hj =>
    split
    · exact .inl rfl
    · next hcond =>
      simp only [Bool.or_eq_true, Bool.not_eq_true', not_or, Bool.not_eq_false, List.all_eq_true] at hcond
      obtain ⟨⟨hvalid, hwaits⟩, hall⟩ := hcond
      refine .inr ⟨j, rest, _, _, _, hvalid, hj, fun n => ?_, fun n hn => ?_, ?_, ?_, rfl⟩
      · simp [and_assoc]
      · rcases List.mem_cons.1 hn with rfl | hn
        · exact hwaits
        · exact hall n hn
      · exact foldl_min_mem_cons i _
      · exact fun id => holds_of_drop (foldl_absorbJoins_id _ _)

theorem SplitsOnly.fuse (g : Group) (i : Nat) : SplitsOnly g (g.fuse i) := by
  rcases g.fuse_cases i with h | ⟨_, _, all, low, _, -, -, -, -, -, -, h⟩
  · exact h.symm ▸ .refl g
  · exact h.symm ▸ (SplitsOnly.freeBut g low all).trans (.putSplit _ _ _)

theorem SplitsOnly.foldl_fuse (g : Group) (l : List Nat) : SplitsOnly g (l.foldl Group.fuse g) := by
  induction l generalizing g with
  | nil => exact .refl g
  | cons n l ih => exact (SplitsOnly.fuse g n).trans (ih _)

/-- An arrival changes no more than splits and their operations. -/
theorem SplitsOnly.arrive (g : Group) (i : Nat) : SplitsOnly g (g.arrive i) := by
  unfold Group.arrive
  dsimp only
  split
  · exact .refl g
  · split
    · exact .putSplit _ _ _
    · exact (SplitsOnly.putSplit _ _ _).trans (.foldl_fuse _ _)

/-- Outside split `i` no split that stands holds an identifier. -/
def OthersLack (g : Group) (i id : Nat) : Prop := ∀ n, n < 4 → n ≠ i → (g.splitAt n).valid = true → (g.splitAt n).holds id = false

/-- A split that waits at no entry of another split's top identifier that it holds is no part of that split's fusion, which gives
no split an identifier that none but split `i` held. -/
theorem Group.fuse_other (g : Group) {i n id : Nat} (hlen : g.splits.length = 4) (hn : n < 4) (hni : n ≠ i)
    (hblock : ∀ j rest, (g.splitAt n).valid = true → (g.splitAt n).joins = j :: rest → (g.splitAt i).waitsAt j.id = false)
    (hlack : OthersLack g i id) :
    (g.fuse n).splitAt i = g.splitAt i ∧ OthersLack (g.fuse n) i id := by
  rcases g.fuse_cases n with h | ⟨j, rest, all, low, y, hvalid, hjoins, hall, hwaits, hlow, hholds, h⟩
  · exact h.symm ▸ ⟨rfl, hlack⟩
  · have hiall : i ∉ all := fun hc => Bool.false_ne_true ((hblock j rest hvalid hjoins).symm.trans (hwaits i hc))
    have hstands : ∀ m ∈ all, m < 4 ∧ (g.splitAt m).valid = true := by
      intro m hm
      rcases (hall m).1 hm with rfl | ⟨hm, -, hv, -⟩
      · exact ⟨hn, hvalid⟩
      · exact ⟨hm, hv⟩
    have hlowi : low ≠ i := fun hc => hiall (hc ▸ hlow)
    have hfreed := SplitsOnly.freeBut g low all
    rw [h]
    refine ⟨?_, fun m hm hmi hv => ?_⟩
    · rw [Group.splitAt_putSplit_ne _ hlowi.symm, Group.splitAt_freeBut_of_notMem _ _ hiall]
    · by_cases hml : m = low
      · subst hml
        rw [Group.splitAt_putSplit_same _ (.inr (by rw [hfreed.length, hlen]; exact hm))]
        have hlow' := hlack m hm hmi (hstands m hlow).2
        exact Bool.eq_false_iff.2 fun hc => Bool.false_ne_true (hlow'.symm.trans (hholds id hc))
      · rw [Group.splitAt_putSplit_ne _ hml] at hv ⊢
        by_cases hmall : m ∈ all
        · rw [Group.splitAt_freeBut_free g hml (hlen ▸ hm) all (.inl hmall)] at hv
          exact absurd hv (by decide)
        · rw [Group.splitAt_freeBut_of_notMem _ _ hmall] at hv ⊢
          exact hlack m hm hmi hv

/-- What stands at split `i` itself does not count. -/
theorem OthersLack.putSplit {g : Group} {i id : Nat} (h : OthersLack g i id) (x : Split) : OthersLack (g.putSplit i x) i id := by
  intro n hn hni
  rw [Group.splitAt_putSplit_ne _ hni]
  exact h n hn hni

/-- A split that waits at its top join entry has taken the lanes that had arrived there. -/
def Split.awaitJoin (x : Split) (j : Join) (rest : List Join) : Split :=
  { x with mask := x.mask ||| j.arrived, st := .joining, joins := { j with arrived := 0 } :: rest }

/-- A split has popped its top join entry and runs at its reconvergence address. -/
def Split.passJoin (x : Split) (j : Join) (rest : List Join) : Split :=
  { x with valid := true, st := .running, addr := j.reconv, index := 15, joins := rest, age := 0 }

/-- A split that no other split keeps waiting at its top join entry pops it and goes on past the join. -/
theorem Group.fuse_alone (g : Group) {i : Nat} {j : Join} {rest : List Join}
    (hvalid : (g.splitAt i).valid = true) (hst : (g.splitAt i).st = .joining) (hjoins : (g.splitAt i).joins = j :: rest)
    (hlack : OthersLack g i j.id) :
    g.fuse i = g.putSplit i ((g.splitAt i).passJoin j rest) := by
  have hothers : ((List.range 4).filter fun n => n != i && (g.splitAt n).valid && (g.splitAt n).holds j.id) = [] := by
    refine List.filter_eq_nil_iff.2 fun n hn hc => ?_
    simp only [Bool.and_eq_true, bne_iff_ne, ne_eq] at hc
    exact Bool.false_ne_true ((hlack n (List.mem_range.1 hn) hc.1.1 hc.1.2).symm.trans hc.2)
  have hwaits : (g.splitAt i).waitsAt j.id = true := by simp [Split.waitsAt, hst, hjoins]
  simp only [Group.fuse, hjoins, hothers, hvalid, hwaits]
  simp [hjoins, Split.passJoin]

/-- Fusions of other splits pass a split by that waits at none of their entries. -/
theorem foldl_fuse_other {g : Group} {i id : Nat} (l : List Nat) (hlen : g.splits.length = 4) (hl : ∀ n ∈ l, n < 4 ∧ n ≠ i)
    (hblock : ∀ k, (g.splitAt i).waitsAt k = true → k = id) (hlack : OthersLack g i id) :
    (l.foldl Group.fuse g).splitAt i = g.splitAt i ∧ OthersLack (l.foldl Group.fuse g) i id := by
  induction l generalizing g with
  | nil => exact ⟨rfl, hlack⟩
  | cons n l ih =>
    obtain ⟨hn, hni⟩ := hl n List.mem_cons_self
    have hpass (j : Join) (rest : List Join) (hv : (g.splitAt n).valid = true) (hj : (g.splitAt n).joins = j :: rest) :
        (g.splitAt i).waitsAt j.id = false := by
      refine Bool.eq_false_iff.2 fun hc => ?_
      have hhas : (g.splitAt n).holds j.id = true := by simp [Split.holds, hj]
      exact Bool.false_ne_true ((hlack n hn hni hv).symm.trans (hblock _ hc ▸ hhas))
    obtain ⟨hat, hlack'⟩ := g.fuse_other hlen hn hni hpass hlack
    obtain ⟨hat', hlack''⟩ := ih ((SplitsOnly.fuse g n).length.trans hlen) (fun m hm => hl m (List.mem_cons_of_mem _ hm))
      (hat.symm ▸ hblock) hlack'
    exact ⟨hat'.trans hat, hlack''⟩

/-- When every possible fusion is tried, a split that alone holds the identifier at which it waits pops the entry (R170). -/
theorem Group.settle_alone {g : Group} {i : Nat} {j : Join} {rest : List Join} (hlen : g.splits.length = 4) (hi : i < 4)
    (hvalid : (g.splitAt i).valid = true) (hst : (g.splitAt i).st = .joining) (hjoins : (g.splitAt i).joins = j :: rest)
    (hlack : OthersLack g i j.id) :
    g.settle.splitAt i = (g.splitAt i).passJoin j rest := by
  obtain ⟨before, after, hrange, hb, ha⟩ : ∃ before after, List.range 4 = before ++ i :: after ∧
      (∀ n ∈ before, n < 4 ∧ n ≠ i) ∧ ∀ n ∈ after, n < 4 ∧ n ≠ i := by
    refine ⟨List.range i, (List.range (3 - i)).map (· + (i + 1)), ?_, ?_, ?_⟩
    · interval_cases i <;> rfl
    · simp only [List.mem_range]
      omega
    · simp only [List.mem_map, List.mem_range]
      omega
  have hwaits (k : Nat) (hk : (g.splitAt i).waitsAt k = true) : k = j.id := by
    simp only [Split.waitsAt, hjoins, Bool.and_eq_true, beq_iff_eq] at hk
    exact hk.2.symm
  obtain ⟨hat, hlack'⟩ := foldl_fuse_other before hlen hb hwaits hlack
  have honly := SplitsOnly.foldl_fuse g before
  rw [Group.settle, hrange, List.foldl_append, List.foldl_cons]
  generalize before.foldl Group.fuse g = h at honly hat hlack'
  rw [← hat] at hvalid hst hjoins ⊢
  rw [h.fuse_alone hvalid hst hjoins hlack']
  have hput := Group.splitAt_putSplit_same h (.inr (by rw [honly.length, hlen]; exact hi)) ((h.splitAt i).passJoin j rest)
  have hstep := SplitsOnly.putSplit h i ((h.splitAt i).passJoin j rest)
  obtain ⟨hat', -⟩ := foldl_fuse_other after (hstep.length.trans (honly.length.trans hlen)) ha
    (fun k hk => by rw [hput] at hk; simp [Split.waitsAt, Split.passJoin] at hk) (hlack'.putSplit _)
  exact hat'.trans hput

/-- A split that arrives at its join takes the deferred lanes, at their target (R170). -/
theorem Group.arrive_deferred {g : Group} {i : Nat} {j : Join} {rest : List Join} (hjoins : (g.splitAt i).joins = j :: rest)
    (hdefer : j.defer ≠ 0) : g.arrive i = g.putSplit i { g.splitAt i with
      mask := j.defer, addr := j.target, index := 15,
      joins := { j with arrived := j.arrived ||| (g.splitAt i).mask, defer := 0 } :: rest } := by
  simp only [Group.arrive, hjoins, if_pos hdefer]

/-- With no lanes deferred, and none of the entry's in another split, it goes on past the join with those that had arrived. -/
theorem Group.arrive_alone {g : Group} {i : Nat} {j : Join} {rest : List Join} (hlen : g.splits.length = 4) (hi : i < 4)
    (hvalid : (g.splitAt i).valid = true) (hjoins : (g.splitAt i).joins = j :: rest) (hdefer : j.defer = 0)
    (hlack : OthersLack g i j.id) :
    (g.arrive i).splitAt i = ((g.splitAt i).awaitJoin j rest).passJoin j rest := by
  have harrive : g.arrive i = (g.putSplit i ((g.splitAt i).awaitJoin j rest)).settle := by
    simp only [Group.arrive, hjoins, hdefer, ne_eq, not_true_eq_false, if_false, Split.awaitJoin]
  have hput := Group.splitAt_putSplit_same g (.inr (hlen ▸ hi)) ((g.splitAt i).awaitJoin j rest)
  have hstep := SplitsOnly.putSplit g i ((g.splitAt i).awaitJoin j rest)
  have hat := Group.settle_alone (j := { j with arrived := 0 }) (rest := rest) (hstep.length.trans hlen) hi
    (by rw [hput]; exact hvalid) (by rw [hput]; rfl) (by rw [hput]; rfl) (hlack.putSplit _)
  rw [harrive, hat, hput]
  rfl

end Sys2Proof.Machine
end

section
/-! PROOFS. Operations over memory and caches: fetches, translations and an engine's stores leave all but memory and caches. -/

namespace Sys2Proof.Machine

open Sys2Proof.Safety

/-! Operations over memory and caches. -/

/-- Of the device no more has changed than memory with its tags, L2, and what the dies hold. -/
def CachesOnly (s t : State) : Prop := ∃ mem tags l2 dies, t = { s with mem := mem, tags := tags, l2 := l2, dies := dies }

theorem CachesOnly.refl (s : State) : CachesOnly s s := ⟨_, _, _, _, rfl⟩

theorem CachesOnly.trans {s t u : State} (hst : CachesOnly s t) (htu : CachesOnly t u) : CachesOnly s u := by
  obtain ⟨_, _, _, _, rfl⟩ := hst
  obtain ⟨_, _, _, _, rfl⟩ := htu
  exact ⟨_, _, _, _, rfl⟩

theorem CachesOnly.groups {s t : State} (h : CachesOnly s t) : t.groups = s.groups := by
  obtain ⟨_, _, _, _, rfl⟩ := h
  rfl

theorem CachesOnly.ite {p : Prop} [Decidable p] {s t u : State} (ht : CachesOnly s t) (hu : CachesOnly s u) :
    CachesOnly s (if p then t else u) := by
  split
  · exact ht
  · exact hu

theorem CachesOnly.iteSnd {α : Type} {p : Prop} [Decidable p] {s : State} {x y : α × State} (hx : CachesOnly s x.2)
    (hy : CachesOnly s y.2) : CachesOnly s (if p then x else y).2 := by
  split
  · exact hx
  · exact hy

/-- A fold of such operations is one. -/
theorem CachesOnly.foldl {α : Type} {f : State → α → State} (hf : ∀ s a, CachesOnly s (f s a)) (l : List α) (s : State) :
    CachesOnly s (l.foldl f s) := by
  induction l generalizing s with
  | nil => exact .refl s
  | cons a l ih => exact (hf s a).trans (ih _)

theorem CachesOnly.putDie (s : State) (d : Nat) (x : Die) : CachesOnly s (s.putDie d x) := ⟨_, _, _, _, rfl⟩

theorem cachesOnly_writeByte (s : State) (a : Nat) (b : Byte) : CachesOnly s (writeByte s a b) := ⟨_, _, _, _, rfl⟩

theorem cachesOnly_writeBytes (s : State) (a : Nat) (bs : List Byte) : CachesOnly s (writeBytes s a bs) := by
  induction bs generalizing s a with
  | nil => exact .refl s
  | cons b t ih => exact (cachesOnly_writeByte s a b).trans (ih _ _)

theorem cachesOnly_writeBackLine (s : State) (k : Nat) : CachesOnly s (writeBackLine s k) := by
  unfold writeBackLine
  split
  · split
    · exact ⟨_, _, _, _, rfl⟩
    · exact .refl s
  · exact .refl s

theorem cachesOnly_dropLine (s : State) (k : Nat) : CachesOnly s (dropLine s k) :=
  (cachesOnly_writeBackLine s k).trans ⟨_, _, _, _, rfl⟩

theorem cachesOnly_makeRoom (s : State) (d a : Nat) : CachesOnly s (makeRoom s d a) := by
  unfold makeRoom
  dsimp only
  split
  · exact .refl s
  · split
    · exact cachesOnly_dropLine s _
    · exact .putDie s d _
    · exact .refl s

theorem cachesOnly_fillLine (s : State) (d a : Nat) (l : L2Line) : CachesOnly s (fillLine s d a l) := by
  unfold fillLine
  split
  · split
    · exact ⟨_, _, _, _, rfl⟩
    · exact .refl s
  · exact (cachesOnly_makeRoom s d a).trans ⟨_, _, _, _, rfl⟩

theorem cachesOnly_runFlush (s : State) (d : Nat) (f : Flush) : CachesOnly s (runFlush s d f) := by
  refine .foldl (fun s l => ?_) _ s
  split
  · exact cachesOnly_dropLine s _
  · exact cachesOnly_writeBackLine s _

theorem cachesOnly_orreryTouch (s : State) (d a : Nat) (w : Bool) : CachesOnly s (orreryTouch s d a w) := by
  have hflush (l : List Flush) : CachesOnly s (l.foldl (fun s f => runFlush s (homeDie a) f) s) :=
    .foldl (fun s f => cachesOnly_runFlush s _ f) l s
  unfold orreryTouch
  exact (hflush _).trans (.ite (.ite (cachesOnly_dropLine _ _) (.refl _))
    ((CachesOnly.ite (cachesOnly_dropLine _ _) (.refl _)).trans (.putDie _ _ _)))

theorem cachesOnly_touchSlice (s : State) (d a : Nat) (w fill : Bool) (stored : Option Bool) :
    CachesOnly s (touchSlice s d a w fill stored) := by
  have horrery : CachesOnly s (if ownCopy s d a w then s else orreryTouch s d a w) := .ite (.refl s) (cachesOnly_orreryTouch s d a w)
  unfold touchSlice
  dsimp only
  split
  · exact horrery.trans (cachesOnly_fillLine _ _ _ _)
  · exact .ite (horrery.trans ⟨_, _, _, _, rfl⟩) horrery

theorem cachesOnly_touchFrom (s : State) (d a : Nat) (w : Bool) : CachesOnly s (touchFrom s d a w) :=
  .ite (.refl s) (cachesOnly_touchSlice _ _ _ _ _ _)

theorem cachesOnly_touchLine (s : State) (d a : Nat) (e : Word) (w : Bool) : CachesOnly s (touchLine s d a e w) :=
  .ite (.refl s) (.ite (.ite ⟨_, _, _, _, rfl⟩ (.refl s)) (cachesOnly_touchSlice _ _ _ _ _ _))

/-! Translation. -/

theorem cachesOnly_endWalk (s : State) (d a : Nat) : CachesOnly s (endWalk s d a) := .ite (.putDie s d _) (.refl s)

theorem cachesOnly_cacheNodes (s : State) (d : Nat) (l : List NodeEntry) : CachesOnly s (cacheNodes s d l) :=
  .ite (.refl s) (.putDie s d _)

theorem cachesOnly_awaitNode (s : State) (d a l : Nat) : CachesOnly s (awaitNode s d a l).2 := by
  unfold awaitNode
  dsimp only
  split
  · exact .refl s
  · exact .refl s
  · exact .putDie s d _

theorem cachesOnly_takeLeaf (s : State) (d a at_ b n : Nat) (e : Word) (w : Bool) : CachesOnly s (takeLeaf s d a at_ b n e w) :=
  ((cachesOnly_endWalk s d a).trans
    (.ite (.refl _) ((cachesOnly_touchFrom _ _ _ _).trans (cachesOnly_writeBytes _ _ _)))).trans (.putDie _ d _)

theorem cachesOnly_translateByWalk (s : State) (d a : Nat) (w : Bool) : CachesOnly s (translateByWalk s d a w).2 := by
  have hreads (l : List Nat) (nodes : List NodeEntry) :
      CachesOnly s (l.foldl (fun s a => touchFrom s d a false) (cacheNodes s d nodes)) :=
    (cachesOnly_cacheNodes s d nodes).trans (.foldl (fun s a => cachesOnly_touchFrom s d a false) l _)
  unfold translateByWalk
  dsimp only
  split
  · exact (hreads _ _).trans (cachesOnly_takeLeaf _ _ _ _ _ _ _ _)
  · exact (hreads _ _).trans (cachesOnly_endWalk _ _ _)
  · exact (hreads _ _).trans (cachesOnly_endWalk _ _ _)
  · exact (hreads _ _).trans (cachesOnly_endWalk _ _ _)
  · exact (hreads _ _).trans (cachesOnly_awaitNode _ _ _ _)
  · exact hreads _ _

/-- A translation leaves every group, team, grid and core (R355, R356, R358). -/
theorem cachesOnly_translate (s : State) (d a : Nat) (w : Bool) : CachesOnly s (translate s d a w).2 := by
  unfold translate
  split
  · split
    · exact cachesOnly_translateByWalk s d a w
    · exact .refl s
  · exact cachesOnly_translateByWalk s d a w

/-! Fetching (R78). -/

theorem cachesOnly_fetchPart (s : State) (d : Nat) (lane : Bool) (va n : Nat) : CachesOnly s (fetchPart s d lane va n).2 := by
  have htrans := cachesOnly_translate s d (va % 2 ^ 56) false
  unfold fetchPart
  split
  case h_1 h =>
    rw [h] at htrans
    exact .iteSnd htrans (.iteSnd (htrans.trans (.foldl (fun s a => cachesOnly_touchLine s d a _ false) _ _)) htrans)
  all_goals next h => rw [h] at htrans; exact htrans

/-- A fetch leaves every group. -/
theorem cachesOnly_fetchWords (s : State) (d : Nat) (lane : Bool) (va n : Nat) : CachesOnly s (fetchWords s d lane va n).2 := by
  have hfirst := cachesOnly_fetchPart s d lane va (min n ((65536 - va % 65536) / 4))
  unfold fetchWords
  dsimp only
  split
  · next h =>
    rw [h] at hfirst
    refine .iteSnd hfirst ?_
    have hnext := hfirst.trans (cachesOnly_fetchPart _ d lane (va + 4 * min n ((65536 - va % 65536) / 4))
      (n - min n ((65536 - va % 65536) / 4)))
    split
    · next h' => rw [h'] at hnext; exact hnext
    · exact hnext
  · exact hfirst

/-! Pages of an engine's operation. -/

theorem cachesOnly_reachPages (s : State) (d key : Nat) (w : Bool) (l : List Nat) : CachesOnly s (reachPages s d key w l).2 := by
  induction l generalizing s with
  | nil => exact .refl s
  | cons a l ih =>
    have htrans := cachesOnly_translate s d a w
    unfold reachPages
    split
    case h_1 h =>
      rw [h] at htrans
      refine .iteSnd htrans ?_
      have hrest := htrans.trans (ih _)
      split
      · next h' => rw [h'] at hrest; exact hrest
      · exact hrest
    all_goals next h => rw [h] at htrans; exact htrans

theorem cachesOnly_reachAll (s : State) (d key : Nat) (w : Bool) (l : List Nat) : CachesOnly s (reachAll s d key w l).2 := by
  have hpages := cachesOnly_reachPages s d key w (onePerPage l)
  unfold reachAll
  split
  · next h => rw [h] at hpages; exact hpages
  · exact hpages

theorem cachesOnly_engineStore (s : State) (d : Nat) (ps : List PagePlace) (va : Nat) (b : Byte) :
    CachesOnly s (engineStore s d ps va b) := by
  have hwrite := (cachesOnly_touchLine s d (reachAddr ps va).1 (reachAddr ps va).2 true).trans
    (cachesOnly_writeByte _ (reachAddr ps va).1 b)
  unfold engineStore
  dsimp only
  split
  · exact hwrite.trans (.putDie _ _ _)
  · exact hwrite

theorem cachesOnly_storeRange (s : State) (d : Nat) (ps : List PagePlace) (va : Nat) (bs : List Byte) :
    CachesOnly s (storeRange s d ps va bs) :=
  .foldl (fun s _ => cachesOnly_engineStore s d ps _ _) _ s

end Sys2Proof.Machine
end

section
/-! PROOFS. Events of a lane stream: a program starts, a clause starts, a split arrives (R18, R19, R170, R312). -/

namespace Sys2Proof.Machine

open Sys2Proof.Safety

/-! The events of a lane stream. -/

/-- Placing a group changes no other. -/
theorem groupOnly_putGroup (s : State) (key : Nat) (g : Group) : GroupOnly s (s.putGroup key g) key := by
  refine ⟨rfl, fun k hk => ?_⟩
  simp [State.putGroup, Ne.symm hk]

theorem State.groupAt_putGroup_same (s : State) (key : Nat) (g : Group) : (s.putGroup key g).groupAt key = g := by
  rw [State.groupAt_putGroup, if_pos rfl]

/-- A lane program starts at the head of its queue when none runs and what its LRUN follows has completed (R18, R125, R312). -/
theorem exec_laneProgramStart {s : State} {key : Nat} {g : Group} {a : Queued} {rest : List Queued}
    (hg : Assoc.find? s.groups key = some g) (hrun : g.status = .running) (hqueue : g.queue = a :: rest)
    (hfree : if g.handler = true then g.hsplit.valid = false else ∀ y ∈ g.splits, y.valid = false) (hedge : g.edgeMet a.edge = true) :
    exec (.laneProgramStart key) s =
      .next (s.putGroup key (g.putSplit (if g.handler = true then 4 else 0) (Split.start a.addr))) := by
  have hbusy : (if g.handler = true then g.hsplit.valid else g.splits.any (·.valid)) = false := by
    split at hfree
    · next h => rw [if_pos h, hfree]
    · next h =>
      rw [if_neg h]
      exact List.any_eq_false.2 fun y hy => by simp [hfree y hy]
  show execLaneProgramStart key s = _
  simp [execLaneProgramStart, hg, hbusy, hrun, hqueue, hedge]

/-- An observation's sink leaves every group. -/
@[simp] theorem invalidateL1_groups (s : State) (c : Nat) : (invalidateL1 s c).groups = s.groups := by
  unfold invalidateL1
  dsimp only
  repeat' split
  all_goals rfl

/-- A clause begins at a header that decodes, whose width the group has, whose flags read clear and whose edges have been met (R19,
R81, R103, R129). -/
theorem startClause_begins {s : State} {key i : Nat} {ws : List (BitVec 32)} {h : Header} (hdec : decodeHeader (laneBits ws) = .ok h)
    (hwidth : headerWidth (s.groupAt key) h ≤ (s.groupAt key).tanw) (hflags : (s.groupAt key).flagsReady h.wait false = true)
    (hedges : (clauseEdges (s.groupAt key) h).all (s.groupAt key).edgeMet = true) :
    ∃ t floor, startClause s key i ws = .next t ∧ t.mem = s.mem ∧
      (t.groupAt key) = (s.groupAt key).putSplit i { (s.groupAt key).splitAt i with
        st := .running, index := 0, hdr := h, width := headerWidth (s.groupAt key) h, age := 0, floor := floor } := by
  have hgroup : ({ s with cur := ⟨key, some i⟩ } : State).group = s.groupAt key := rfl
  simp only [startClause, hdec, hgroup, if_neg (Nat.not_lt.2 hwidth), beginClause, hflags, hedges, Bool.not_true,
    Bool.false_eq_true, if_false]
  have hput (x : Split) : (({ s with cur := ⟨key, some i⟩ } : State).setGroup ((s.groupAt key).putSplit i x)).groupAt key =
      (s.groupAt key).putSplit i x := State.groupAt_putGroup_same _ _ _
  by_cases hwait : h.wait = 0
  · rw [if_pos hwait]
    exact ⟨_, _, rfl, rfl, hput _⟩
  · rw [if_neg hwait]
    exact ⟨_, _, rfl, invalidateL1_mem _ _,
      (congrArg (fun l => (Assoc.find? l key).getD Group.blank) (invalidateL1_groups _ _)).trans (hput _)⟩

/-- A split that runs is valid and its state is running (R361). -/
theorem splitRuns_running {g : Group} {i : Nat} (h : g.splitRuns i = true) :
    (g.splitAt i).valid = true ∧ (g.splitAt i).st = .running := by
  simp only [Group.splitRuns, Bool.and_eq_true, beq_iff_eq] at h
  obtain ⟨⟨⟨⟨-, hvalid⟩, hst⟩, -⟩, -⟩ := h
  exact ⟨hvalid, hst⟩

/-- A running split at a clause's end, with nothing held, fetches a header and starts its clause (R19, R78). -/
theorem exec_clauseStart {s s1 : State} {key i : Nat} {ws : List (BitVec 32)} (hruns : (s.groupAt key).splitRuns i = true)
    (hindex : ((s.groupAt key).splitAt i).index = 15) (hjoin : ((s.groupAt key).splitAt i).atJoin = false)
    (hfetch : ((s.groupAt key).splitAt i).fetch = none) (hhold : ((s.groupAt key).splitAt i).hold = [])
    (hbad : ((s.groupAt key).splitAt i).bad = none)
    (hwords : fetchWords { s with cur := ⟨key, some i⟩ } (s.groupAt key).die true
      (((s.groupAt key).splitAt i).next (s.gridAt (s.groupAt key).grid)).toNat 3 = (.words ws, s1)) :
    exec (.clauseStart key i) s = startClause s1 key i ws := by
  have hheld : (s.groupAt key).splitHeld i = false := by simp [Group.splitHeld, (splitRuns_running hruns).2]
  show execClauseStart key i s = _
  simp [execClauseStart, hheld, hruns, hindex, hjoin, hfetch, hhold, hbad, hwords]

/-- A running split at its join arrives (R170). -/
theorem exec_splitArrival {s : State} {key i : Nat} (hruns : (s.groupAt key).splitRuns i = true)
    (hjoin : ((s.groupAt key).splitAt i).atJoin = true) :
    exec (.splitArrival key i) s = .next (s.putGroup key ((s.groupAt key).arrive i)) := by
  show execSplitArrival key i s = _
  simp [execSplitArrival, hruns, hjoin]

/-- Settles O44: a program's start, a clause's start and a split's arrival each put one split of the group. -/
theorem laneStreamEvents : Obligations.LaneStreamEvents := by
  intro key i s s1 g x at_ hlen
  refine ⟨?start, ?clause, ?arrival⟩
  case start =>
    intro a rest hg hrun hqueue hfree hedge
    have hat : at_ = 4 ∨ at_ < g.splits.length := by
      simp only [at_]
      split <;> omega
    refine ⟨_, exec_laneProgramStart hg hrun hqueue hfree hedge, groupOnly_putGroup _ _ _, ?_, ?_⟩ <;>
      rw [State.groupAt_putGroup_same]
    · exact Group.splitAt_putSplit_same g hat _
    · exact (SplitsOnly.putSplit _ _ _).sameS
  case clause =>
    intro ws h _ hi hruns hindex hjoin hfetch hhold hbad hwords hdec hwidth hflags hedges
    have hkept : CachesOnly { s with cur := ⟨key, some i⟩ } s1 := by
      have hfetched := cachesOnly_fetchWords { s with cur := ⟨key, some i⟩ } g.die true (x.next (s.gridAt g.grid)).toNat 3
      rw [hwords] at hfetched
      exact hfetched
    have hgroup : s1.groupAt key = g := congrArg (fun l => (Assoc.find? l key).getD Group.blank) hkept.groups
    rw [← hgroup] at hwidth hflags hedges
    obtain ⟨t, floor, hstart, hmem, hput⟩ := startClause_begins hdec hwidth hflags hedges
    refine ⟨t, (exec_clauseStart hruns hindex hjoin hfetch hhold hbad hwords).trans hstart, readByte_congr hmem, ?_⟩
    rw [hput, hgroup]
    refine ⟨(SplitsOnly.putSplit _ _ _).sameS, ?_⟩
    rw [Group.splitAt_putSplit_same g (by omega)]
    exact ⟨rfl, rfl, rfl, rfl, rfl, rfl⟩
  case arrival =>
    intro j rest hi hruns hjoin hjoins
    obtain ⟨hvalid, hst⟩ := splitRuns_running hruns
    refine ⟨_, exec_splitArrival hruns hjoin, groupOnly_putGroup _ _ _, ?_⟩
    rw [State.groupAt_putGroup_same]
    refine ⟨(SplitsOnly.arrive g i).sameS, fun hdefer => ?_, fun hdefer hlack => ?_⟩
    · rw [Group.arrive_deferred hjoins hdefer, Group.splitAt_putSplit_same g (by omega)]
      exact ⟨rfl, rfl, hst, rfl⟩
    · rw [Group.arrive_alone hlen hi hvalid hjoins hdefer hlack]
      exact ⟨rfl, rfl, rfl, rfl⟩

end Sys2Proof.Machine
end

section
/-! PROOFS. Slots: a claimant takes one, a continuation resumes, a continuation is evicted (R27, R28, R107, R229, R305, R306). -/

namespace Sys2Proof.Machine

open Sys2Proof.Safety

/-! A claimant takes its slot (R27, R28, R305). -/

/-- `h` is `g` running in a slot; of its frame no more than the list of pending children may have changed. -/
def InSlot (m : Nat) (g h : Group) : Prop :=
  ∃ frame, frame.isSome = g.frame.isSome ∧ h = { g with slot := m, status := .running, age := 0, frame := frame }

/-- A group whose key no group stands under reads as one that runs. -/
theorem find?_groups_of_status {s : State} {k : Nat} (h : (s.groupAt k).status ≠ .running) :
    Assoc.find? s.groups k = some (s.groupAt k) := by
  unfold State.groupAt at h ⊢
  cases hk : Assoc.find? s.groups k with
  | none => exact absurd (by rw [hk]; rfl) h
  | some g => rfl

/-- A group takes the lowest free slot of its core, and beside the groups nothing changes. -/
theorem takeSlot_inSlot {s : State} {k m : Nat} {g : Group} (hg : Assoc.find? s.groups k = some g) (hfree : freeSlot s g.core = some m) :
    ∃ groups h, takeSlot s k = { s with groups := groups } ∧ Assoc.find? groups k = some h ∧ InSlot m g h := by
  have hat : s.groupAt k = g := congrArg (·.getD Group.blank) hg
  refine ⟨_, _, by rw [takeSlot, hat, hfree]; rfl, by simp [unpend, hg]; rfl, ?_⟩
  split
  · next f hf =>
    split
    · exact ⟨_, by rw [hf]; rfl, rfl⟩
    · exact ⟨_, rfl, rfl⟩
  · exact ⟨_, rfl, rfl⟩

/-- What a group in a slot keeps: its registers and the position of its scalar stream. -/
theorem InSlot.keeps {m : Nat} {g h : Group} (hh : InSlot m g h) :
    (h.status = .running ∧ h.slot = m) ∧ (SameS g h [] ∧ SameFlags g h ∧ h.p = g.p ∧ h.a = g.a ∧ h.pc = g.pc) ∧ SameLanes g h := by
  obtain ⟨_, -, rfl⟩ := hh
  exact ⟨⟨rfl, rfl⟩, ⟨fun _ _ => rfl, fun _ => rfl, rfl, rfl, rfl⟩, rfl, rfl, rfl, rfl⟩

/-- The size of its registers stays (R102). -/
theorem InSlot.size {m : Nat} {g h : Group} (hh : InSlot m g h) : h.tanw = g.tanw ∧ h.alloc = g.alloc := by
  obtain ⟨_, -, rfl⟩ := hh
  exact ⟨rfl, rfl⟩

/-! Registers read back from an entry (R229, R306). -/

/-- `h` is `g` with other V and scale registers. -/
def RegsOnly (g h : Group) : Prop := ∃ v q, h = { g with v := v, q := q }

theorem RegsOnly.refl (g : Group) : RegsOnly g g := ⟨_, _, rfl⟩

theorem RegsOnly.trans {g h i : Group} (hgh : RegsOnly g h) (hhi : RegsOnly h i) : RegsOnly g i := by
  obtain ⟨_, _, rfl⟩ := hgh
  obtain ⟨_, _, rfl⟩ := hhi
  exact ⟨_, _, rfl⟩

theorem RegsOnly.foldl {α : Type} {f : Group → α → Group} (hf : ∀ g a, RegsOnly g (f g a)) (l : List α) (g : Group) :
    RegsOnly g (l.foldl f g) := by
  induction l generalizing g with
  | nil => exact .refl g
  | cons a l ih => exact (hf g a).trans (ih _)

theorem RegsOnly.alloc {g h : Group} (hgh : RegsOnly g h) : h.alloc = g.alloc := by
  obtain ⟨_, _, rfl⟩ := hgh
  rfl

theorem RegsOnly.putReg (g : Group) (w : RegWrite) : RegsOnly g (g.putReg w) := by
  cases w with
  | v plane reg lanes x =>
    show RegsOnly g (g.writeLanes plane reg lanes _)
    unfold Group.writeLanes
    split
    · exact .refl g
    · exact ⟨_, _, rfl⟩
  | q plane reg x => exact ⟨_, _, rfl⟩

/-- Of steps over some numbers the one of `n` gives what is read, and the others keep it. -/
theorem foldl_reads {β γ : Type} {P : β → Prop} {f : β → Nat → β} {read : β → γ} {n : Nat} {v : γ} {l : List Nat} (hn : n ∈ l)
    (hP : ∀ b m, P b → P (f b m)) (hsame : ∀ b, P b → read (f b n) = v)
    (hother : ∀ b m, P b → m ∈ l → m ≠ n → read (f b m) = read b) {b : β} (hb : P b) : read (l.foldl f b) = v := by
  induction l generalizing b with
  | nil => exact absurd hn List.not_mem_nil
  | cons a l ih =>
    have hrest (b : β) (m : Nat) (hb : P b) (hm : m ∈ l) := hother b m hb (List.mem_cons_of_mem a hm)
    rw [List.foldl_cons]
    by_cases ha : a = n
    · subst ha
      refine (List.foldlRecOn (motive := fun b => P b ∧ read b = v) l f ⟨hP b a hb, hsame b hb⟩ fun b ⟨hb, hv⟩ m hm => ?_).2
      refine ⟨hP b m hb, ?_⟩
      by_cases hma : m = a
      · exact hma ▸ hsame b hb
      · exact (hrest b m hb hm hma).trans hv
    · exact ih ((List.mem_cons.1 hn).resolve_left (Ne.symm ha)) hrest (hP b a hb)

/-- What no step changes reads as before. -/
theorem foldl_keeps {α β γ : Type} {f : β → α → β} {read : β → γ} {l : List α} (h : ∀ b, ∀ a ∈ l, read (f b a) = read b)
    (b : β) : read (l.foldl f b) = read b :=
  List.foldlRecOn (motive := fun c => read c = read b) l f rfl fun c hc a ha => (h c a ha).trans hc

/-- The first `a` V registers of a plane take values. -/
def Group.loadV (g : Group) (k a : Nat) (f : Nat → VecReg) : Group := (List.range a).foldl (fun g n => g.writeV k n (f n)) g

/-- The first `a` scale registers of a plane take values, which depend on the allocation. -/
def Group.loadQ (g : Group) (k a : Nat) (f : Nat → Nat → ScaleReg) : Group :=
  (List.range a).foldl (fun g n => g.writeQ k n (f g.alloc n)) g

theorem RegsOnly.loadV (g : Group) (k a : Nat) (f : Nat → VecReg) : RegsOnly g (g.loadV k a f) := .foldl (fun _ _ => ⟨_, _, rfl⟩) _ g

theorem RegsOnly.loadQ (g : Group) (k a : Nat) (f : Nat → Nat → ScaleReg) : RegsOnly g (g.loadQ k a f) := .foldl (fun _ _ => ⟨_, _, rfl⟩) _ g

theorem Group.readV_loadV_same (g : Group) (p : Nat) {a n : Nat} (hn : n < a) (f : Nat → VecReg) :
    (g.loadV p a f).readV p n = f n :=
  foldl_reads (P := fun _ => True) (read := fun h : Group => h.readV p n) (List.mem_range.2 hn) (fun _ _ _ => trivial)
    (fun h _ => by simp) (fun h m _ _ hm => by simp [hm]) trivial

theorem Group.readQ_loadQ_same (g : Group) (p : Nat) {a n : Nat} (hn : n < a) (f : Nat → Nat → ScaleReg) :
    (g.loadQ p a f).readQ p n = f g.alloc n :=
  foldl_reads (f := fun (h : Group) m => h.writeQ p m (f h.alloc m)) (P := fun h : Group => h.alloc = g.alloc)
    (read := fun h : Group => h.readQ p n) (List.mem_range.2 hn) (fun _ _ hh => hh)
    (fun h hh => by simp [hh]) (fun h m _ _ hm => by simp [hm]) rfl

/-- Registers of different planes are different. -/
theorem regIndex_ne {k p m n a : Nat} (hk : k ≠ p) (ha : a ≤ 512) (hm : m ∈ List.range a) (hn : n < a) : k * 512 + m ≠ p * 512 + n := by
  rw [List.mem_range] at hm
  omega

theorem Group.readV_loadV_ne (g : Group) {k p a n : Nat} (hk : k ≠ p) (ha : a ≤ 512) (hn : n < a) (f : Nat → VecReg) :
    (g.loadV k a f).readV p n = g.readV p n :=
  foldl_keeps (read := fun h : Group => h.readV p n) (fun h m hm => by simp [regIndex_ne hk ha hm hn]) g

theorem Group.readQ_loadQ_ne (g : Group) {k p a n : Nat} (hk : k ≠ p) (ha : a ≤ 512) (hn : n < a) (f : Nat → Nat → ScaleReg) :
    (g.loadQ k a f).readQ p n = g.readQ p n :=
  foldl_keeps (read := fun h : Group => h.readQ p n) (fun h m hm => by simp [regIndex_ne hk ha hm hn]) g

theorem Group.readQ_loadV (g : Group) (k a p n : Nat) (f : Nat → VecReg) : (g.loadV k a f).readQ p n = g.readQ p n :=
  foldl_keeps (f := fun (h : Group) m => h.writeV k m (f m)) (read := fun h : Group => h.readQ p n) (fun _ _ _ => rfl) g

theorem Group.readV_loadQ (g : Group) (k a p n : Nat) (f : Nat → Nat → ScaleReg) : (g.loadQ k a f).readV p n = g.readV p n :=
  foldl_keeps (f := fun (h : Group) m => h.writeQ k m (f h.alloc m)) (read := fun h : Group => h.readV p n) (fun _ _ _ => rfl) g

/-- The registers of one plane take the values at an offset of an area: the V registers, then the scale registers. -/
def Group.loadPlane (rd : AreaRead) (o : Nat) (g : Group) (k : Nat) : Group :=
  let h := g.loadV k g.alloc fun n => BitVec.ofNat 1024 (rd.nat (o + 128 * n) 128)
  h.loadQ k h.alloc fun a n => BitVec.ofNat 256 (rd.nat (o + 128 * a + 32 * n) 32)

theorem restoreRegisters_eq (rd : AreaRead) (o : Nat) (g : Group) :
    restoreRegisters rd o g = (List.range (g.tanw + 1)).foldl (fun h k => h.loadPlane rd (o + k * (160 * g.alloc)) k) g := rfl

theorem RegsOnly.loadPlane (rd : AreaRead) (o : Nat) (g : Group) (k : Nat) : RegsOnly g (g.loadPlane rd o k) := by
  unfold Group.loadPlane
  exact (RegsOnly.loadV _ _ _ _).trans (.loadQ _ _ _ _)

theorem RegsOnly.restoreRegisters (rd : AreaRead) (o : Nat) (g : Group) : RegsOnly g (restoreRegisters rd o g) :=
  .foldl (fun g k => .loadPlane rd _ g k) _ g

/-- A plane that is read back holds the V and scale registers of the area. -/
theorem Group.read_loadPlane_same (rd : AreaRead) (o p : Nat) {g : Group} {n : Nat} (hn : n < g.alloc) :
    (g.loadPlane rd o p).readV p n = BitVec.ofNat 1024 (rd.nat (o + 128 * n) 128) ∧
    (g.loadPlane rd o p).readQ p n = BitVec.ofNat 256 (rd.nat (o + 128 * g.alloc + 32 * n) 32) := by
  simp only [Group.loadPlane, (RegsOnly.loadV _ _ _ _).alloc]
  exact ⟨by rw [Group.readV_loadQ, Group.readV_loadV_same _ _ hn], by rw [Group.readQ_loadQ_same _ _ hn, (RegsOnly.loadV _ _ _ _).alloc]⟩

/-- Another plane's registers stand. -/
theorem Group.read_loadPlane_ne (rd : AreaRead) (o : Nat) {g : Group} {k p n : Nat} (hk : k ≠ p) (hn : n < g.alloc) (ha : g.alloc ≤ 512) :
    (g.loadPlane rd o k).readV p n = g.readV p n ∧ (g.loadPlane rd o k).readQ p n = g.readQ p n := by
  simp only [Group.loadPlane, (RegsOnly.loadV _ _ _ _).alloc]
  exact ⟨by rw [Group.readV_loadQ, Group.readV_loadV_ne _ hk ha hn], by rw [Group.readQ_loadQ_ne _ hk ha hn, Group.readQ_loadV]⟩

/-- Registers read back: those of every plane stand as the area has them. -/
theorem read_restoreRegisters (rd : AreaRead) (o : Nat) {g : Group} {p n : Nat} (hp : p ≤ g.tanw) (hn : n < g.alloc) (ha : g.alloc ≤ 512) :
    (restoreRegisters rd o g).readV p n = BitVec.ofNat 1024 (rd.nat (o + p * (160 * g.alloc) + 128 * n) 128) ∧
    (restoreRegisters rd o g).readQ p n = BitVec.ofNat 256 (rd.nat (o + p * (160 * g.alloc) + 128 * g.alloc + 32 * n) 32) := by
  rw [restoreRegisters_eq, ← Prod.mk.injEq]
  refine foldl_reads (P := fun h : Group => h.alloc = g.alloc) (read := fun h : Group => (h.readV p n, h.readQ p n))
    (List.mem_range.2 (Nat.lt_succ_of_le hp)) (fun h k hh => (RegsOnly.loadPlane rd _ h k).alloc.trans hh)
    (fun h hh => ?_) (fun h k hh _ hk => ?_) rfl
  · obtain ⟨hv, hq⟩ := h.read_loadPlane_same rd (o + p * (160 * g.alloc)) p (hh ▸ hn)
    rw [hv, hq, hh]
  · obtain ⟨hv, hq⟩ := h.read_loadPlane_ne rd (o + k * (160 * g.alloc)) hk (hh ▸ hn) (hh ▸ ha)
    rw [hv, hq]

/-! A continuation resumes (R305, R306). -/

/-- The claimant that is pending takes its slot (R27, R305). -/
theorem exec_pendingChildPlacement {s : State} {core k : Nat} (hnext : nextClaimant s core = some k)
    (hpending : (s.groupAt k).status = .pending) : exec (.pendingChildPlacement core) s = .next (takeSlot s k) := by
  show execPendingChildPlacement core s = _
  simp only [execPendingChildPlacement, hnext, hpending, if_true]

/-- The claimant that is parked resumes (R28, R305). -/
theorem exec_continuationResume {s : State} {core k : Nat} (hnext : nextClaimant s core = some k)
    (hparked : (s.groupAt k).status = .parked) : exec (.continuationResume core) s = .next (resume s core k) := by
  show execContinuationResume core s = _
  simp only [execContinuationResume, hnext, hparked, if_true]

/-- The group of a state with other groups. -/
theorem groupAt_of_find? {s : State} {k : Nat} {g : Group} (h : Assoc.find? s.groups k = some g) : s.groupAt k = g :=
  congrArg (·.getD Group.blank) h

/-- A continuation that was evicted resumes with its registers read back from its entry, once the entry's pages are reached. -/
theorem resume_evicted {s s1 : State} {core k m i : Nat} {ps : List PagePlace} {g : Group} (hg : Assoc.find? s.groups k = some g)
    (hfree : freeSlot s g.core = some m) (hevicted : g.frame.bind (·.evicted) = some i)
    (hreach : reachAll s (dieOfCore core) 0 false (addrRange (entryAddr s g i) g.registerBytes) = (.ok ps, s1)) :
    ∃ groups h, resume s core k = { s1 with groups := groups } ∧ InSlot m g h ∧
      Assoc.find? groups k = some (h.reload (readArea s1 (dieOfCore core) ps (entryAddr s g i))) := by
  have hcaches : CachesOnly s s1 := by
    have h := cachesOnly_reachAll s (dieOfCore core) 0 false (addrRange (entryAddr s g i) g.registerBytes)
    rwa [hreach] at h
  have hfree1 : freeSlot s1 g.core = some m := by
    obtain ⟨_, _, _, _, rfl⟩ := hcaches
    exact hfree
  obtain ⟨groups, h, htake, hh, hslot⟩ := takeSlot_inSlot (hcaches.groups ▸ hg) hfree1
  refine ⟨Assoc.modify groups k (·.reload (readArea s1 (dieOfCore core) ps (entryAddr s g i))), h, ?_, hslot, ?_⟩
  · simp only [resume, groupAt_of_find? hg, hevicted, hreach, htake]
    rfl
  · simp [hh]

/-- An evicted continuation in its slot takes its registers back: those of its entry, and what completions wrote since on top. -/
theorem reload_keeps {m i : Nat} {g h : Group} (hslot : InSlot m g h) (hevicted : g.frame.bind (·.evicted) = some i) (rd : AreaRead) :
    ((h.reload rd).status = .running ∧ (h.reload rd).slot = m) ∧
    (SameS g (h.reload rd) [] ∧ SameFlags g (h.reload rd) ∧ (h.reload rd).p = g.p ∧ (h.reload rd).a = g.a ∧ (h.reload rd).pc = g.pc) ∧
    (h.reload rd).evicted = false ∧
    (h.reload rd).v = (g.late.foldl Group.putReg (restoreRegisters rd 0 h)).v ∧
    (h.reload rd).q = (g.late.foldl Group.putReg (restoreRegisters rd 0 h)).q := by
  have hregs : RegsOnly h (g.late.foldl Group.putReg (restoreRegisters rd 0 h)) :=
    (RegsOnly.restoreRegisters rd 0 h).trans (.foldl RegsOnly.putReg _ _)
  obtain ⟨frame, hsome, rfl⟩ := hslot
  cases frame with
  | none => cases hf : g.frame <;> simp [hf] at hsome hevicted
  | some f =>
    simp only [Group.reload, Group.fromEntry]
    generalize g.late.foldl _ _ = r at hregs ⊢
    obtain ⟨_, _, rfl⟩ := hregs
    exact ⟨⟨rfl, rfl⟩, ⟨fun _ _ => rfl, fun _ => rfl, rfl, rfl, rfl⟩, rfl, trivial, trivial⟩

/-! An eviction (R306). -/

/-- An engine's store of a byte changes the byte at its place and no other. -/
theorem readByte_engineStore (s : State) (d : Nat) (ps : List PagePlace) (va : Nat) (b : Byte) (a : Nat) :
    readByte (engineStore s d ps va b) a = if (reachAddr ps va).1 = a then b else readByte s a := by
  have hmem : (engineStore s d ps va b).mem =
      (writeByte (touchLine s d (reachAddr ps va).1 (reachAddr ps va).2 true) (reachAddr ps va).1 b).mem := by
    unfold engineStore
    dsimp only
    split <;> rfl
  rw [readByte_congr hmem]
  split
  · next h => rw [h, readByte_writeByte_same]
  · next h => rw [readByte_writeByte_ne _ _ h, readByte_congr (touchLine_mem _ _ _ _ _)]

/-- Some bytes from place `n` of a range on are stored. -/
def storeFrom (s : State) (d : Nat) (ps : List PagePlace) (va n : Nat) (bs : List Byte) : State :=
  (bs.zipIdx n).foldl (fun s b => engineStore s d ps ((va + b.2) % 2 ^ 56) b.1) s

theorem storeFrom_cons (s : State) (d : Nat) (ps : List PagePlace) (va n : Nat) (b : Byte) (bs : List Byte) :
    storeFrom s d ps va n (b :: bs) = storeFrom (engineStore s d ps ((va + n) % 2 ^ 56) b) d ps va (n + 1) bs := rfl

/-- No byte outside the places changes. -/
theorem readByte_storeFrom_outside (s : State) (d : Nat) (ps : List PagePlace) (va n : Nat) (bs : List Byte) {a : Nat}
    (h : ∀ j, j < bs.length → (reachAddr ps ((va + (n + j)) % 2 ^ 56)).1 ≠ a) : readByte (storeFrom s d ps va n bs) a = readByte s a := by
  induction bs generalizing s n with
  | nil => rfl
  | cons b bs ih =>
    rw [storeFrom_cons, ih, readByte_engineStore, if_neg (by simpa using h 0 (by simp))]
    intro j hj
    have := h (j + 1) (by simpa using hj)
    rwa [show n + (j + 1) = n + 1 + j by omega] at this

/-- Each byte stands in its place, if no two share one. -/
theorem readByte_storeFrom_inside (s : State) (d : Nat) (ps : List PagePlace) (va n : Nat) {bs : List Byte} {i : Nat} {b : Byte}
    (hinj : ∀ j l, j < bs.length → l < bs.length →
      (reachAddr ps ((va + (n + j)) % 2 ^ 56)).1 = (reachAddr ps ((va + (n + l)) % 2 ^ 56)).1 → j = l) (hb : bs[i]? = some b) :
    readByte (storeFrom s d ps va n bs) (reachAddr ps ((va + (n + i)) % 2 ^ 56)).1 = b := by
  induction bs generalizing s n i with
  | nil => simp at hb
  | cons c bs ih =>
    have hshift (j : Nat) : n + 1 + j = n + (j + 1) := by omega
    rw [storeFrom_cons]
    cases i with
    | zero =>
      rw [readByte_storeFrom_outside, readByte_engineStore, if_pos (by rw [Nat.add_zero])]
      · simpa using hb
      · intro j hj hc
        rw [hshift] at hc
        exact absurd (hinj (j + 1) 0 (by simpa using hj) (by simp) hc) (by omega)
    | succ i =>
      rw [← hshift i]
      refine ih _ _ (fun j l hj hl h => ?_) (by simpa using hb)
      rw [hshift, hshift] at h
      exact Nat.succ.inj (hinj _ _ (by simpa using hj) (by simpa using hl) h)

/-- The image of a group's registers fills its bytes of an entry. -/
theorem registerImage_length (g : Group) : g.registerImage.length = g.registerBytes := by
  simp only [Group.registerImage, Group.registerBytes, List.length_flatMap, List.length_append, leBytes_length, List.map_const',
    List.length_range, List.sum_replicate, smul_eq_mul]
  ring

/-- The continuation that a core evicts goes to its team's lowest free entry (R306). -/
theorem exec_continuationEviction {s : State} {core k i : Nat} (hwanted : evictionWanted s core = true)
    (hnext : nextEvicted s core = some k) (hentry : freeEntry s (s.groupAt k).teamKey = some i) :
    exec (.continuationEviction core) s = .next (evict s core k i) := by
  show execContinuationEviction core s = _
  simp [execContinuationEviction, hwanted, hnext, hentry]

/-- A continuation whose registers have gone to an entry. -/
def Group.evictedTo (g : Group) (cycle i : Nat) : Group :=
  { g with v := [], q := [], frame := some { g.frameOr cycle with evicted := some i } }

/-- An eviction stores the registers' image and empties the registers, once the entry's pages are reached. -/
theorem evict_eq {s s1 : State} {core k i : Nat} {ps : List PagePlace}
    (hreach : reachAll s (dieOfCore core) 0 true (addrRange (entryAddr s (s.groupAt k) i) (s.groupAt k).registerBytes) = (.ok ps, s1)) :
    evict s core k i = (storeFrom s1 (dieOfCore core) ps (entryAddr s (s.groupAt k) i) 0 (s.groupAt k).registerImage).modGroup k
      (·.evictedTo s1.cycle.toNat i) := by
  simp only [evict, hreach]
  rfl

theorem storeFrom_groups (s : State) (d : Nat) (ps : List PagePlace) (va : Nat) (bs : List Byte) :
    (storeFrom s d ps va 0 bs).groups = s.groups := (cachesOnly_storeRange s d ps va bs).groups

/-- What an evicted continuation keeps: all but its V and scale registers (R306). -/
theorem Group.evictedTo_keeps (g : Group) (cycle i : Nat) :
    (SameS g (g.evictedTo cycle i) [] ∧ SameFlags g (g.evictedTo cycle i) ∧ (g.evictedTo cycle i).p = g.p ∧
      (g.evictedTo cycle i).a = g.a ∧ (g.evictedTo cycle i).pc = g.pc) ∧
    (g.evictedTo cycle i).v = [] ∧ (g.evictedTo cycle i).q = [] ∧
    ∃ f, (g.evictedTo cycle i).frame = some f ∧ f.evicted = some i :=
  ⟨⟨fun _ _ => rfl, fun _ => rfl, rfl, rfl, rfl⟩, rfl, rfl, _, rfl, rfl⟩

/-- A parked continuation holds no granules once it is evicted (R306). -/
theorem Group.evictedTo_granules (s : State) {g : Group} (h : g.status = .parked) (cycle i : Nat) :
    (g.evictedTo cycle i).holdsGranules s = false := by
  simp [Group.holdsGranules, Group.evictedTo, Group.evicted, h]

/-- Settles O47: a claimant takes its slot with what it held, an evicted one with its entry's registers, which an eviction put there. -/
theorem slotEvents : Obligations.SlotEvents := by
  intro core k m i s s1 ps g r die va bytes pages place runs kept
  refine ⟨fun hnext hfree => ⟨fun hpending => ?placed, fun hparked hframe => ?resumed, fun hparked hevicted halloc hreach => ?readBack⟩,
    fun hwanted hnext hentry hsome hreach => ?evicted⟩
  case placed =>
    have hg := find?_groups_of_status (s := s) (k := k) (by rw [hpending]; decide)
    obtain ⟨groups, h, htake, hh, hslot⟩ := takeSlot_inSlot hg hfree
    refine ⟨_, exec_pendingChildPlacement hnext hpending, ?_⟩
    have hat : (takeSlot s k).groupAt k = h := groupAt_of_find? (htake ▸ hh)
    simp only [runs, kept, hat]
    exact ⟨by rw [htake], hslot.keeps⟩
  case resumed =>
    have hg := find?_groups_of_status (s := s) (k := k) (by rw [hparked]; decide)
    obtain ⟨groups, h, htake, hh, hslot⟩ := takeSlot_inSlot hg hfree
    refine ⟨_, exec_continuationResume hnext hparked, ?_⟩
    have hresume : resume s core k = takeSlot s k := by simp only [resume]; rw [hframe]
    have hat : (takeSlot s k).groupAt k = h := groupAt_of_find? (htake ▸ hh)
    simp only [runs, kept, hresume, hat]
    exact ⟨by rw [htake], hslot.keeps⟩
  case readBack =>
    have hg := find?_groups_of_status (s := s) (k := k) (by rw [hparked]; decide)
    obtain ⟨groups, h, hresume, hslot, hh⟩ := resume_evicted hg hfree hevicted hreach
    refine ⟨_, exec_continuationResume hnext hparked, ?_⟩
    have hat : (resume s core k).groupAt k = h.reload (readArea s1 die ps va) := groupAt_of_find? (hresume ▸ hh)
    obtain ⟨hruns, hkept, hevicted', hv, hq⟩ := reload_keeps hslot hevicted (readArea s1 die ps va)
    simp only [runs, kept, hat]
    refine ⟨by rw [hresume], hruns, hkept, hevicted', _, hv, hq, fun p n hp hn => ?_⟩
    obtain ⟨hwidth, hregs⟩ := hslot.size
    have hread := read_restoreRegisters (readArea s1 die ps va) 0 (hwidth.symm ▸ hp) (hregs.symm ▸ hn) (hregs.symm ▸ halloc)
    rwa [hregs, Nat.zero_add, ← Nat.mul_assoc] at hread
  case evicted =>
    obtain ⟨g', hg⟩ := Option.isSome_iff_exists.1 hsome
    obtain rfl : g = g' := groupAt_of_find? hg
    have hcaches : CachesOnly s s1 := by
      have h := cachesOnly_reachAll s die 0 true pages
      rwa [hreach] at h
    have hmem (a : Nat) : readByte (evict s core k i) a = readByte (storeFrom s1 die ps va 0 g.registerImage) a := by
      rw [evict_eq hreach]
      rfl
    have hat : (evict s core k i).groupAt k = g.evictedTo s1.cycle.toNat i := by
      refine groupAt_of_find? ?_
      rw [evict_eq hreach]
      simp [State.modGroup, storeFrom_groups, hcaches.groups, hg, g]
    obtain ⟨hkept, hv, hq, hframe⟩ := g.evictedTo_keeps s1.cycle.toNat i
    refine ⟨_, exec_continuationEviction hwanted hnext hentry, ?_⟩
    simp only [kept, hat, hmem]
    refine ⟨hkept, hv, hq, hframe, fun hparked => Group.evictedTo_granules _ hparked _ _, fun a ha => ?_, fun hinj j b hb => ?_⟩
    · refine readByte_storeFrom_outside s1 die ps va 0 _ fun j hj => ?_
      rw [Nat.zero_add]
      exact ha j (hj.trans_eq (registerImage_length g))
    · have hstored := readByte_storeFrom_inside s1 die ps va 0 (i := j) (b := b) (bs := g.registerImage) ?_ hb
      · rwa [Nat.zero_add] at hstored
      · intro j l hj hl h
        rw [Nat.zero_add, Nat.zero_add] at h
        exact hinj j l (hj.trans_eq (registerImage_length g)) (hl.trans_eq (registerImage_length g)) h

end Sys2Proof.Machine
end

section
/-! PROOFS. Where the statements on lane loads and on random numbers fail: at the last instruction of a lane program (R91, R171). -/

namespace Sys2Proof.Machine

open Sys2Proof.Safety

/-! The end of a lane program under a long-latency instruction (R91, R171): the stop frees its split, and every outstanding operation
of the split passes to no split, which the model writes as 9. -/

/-- Split 0 issues, in lane 0 and with no join entry, the one instruction of a clause whose end bit is set, while `ops` stand
outstanding under F0. -/
def endingGroup (ops : List LaneOp) : Group :=
  { State.reset.group with
    role := .vector
    alloc := 16
    flagCount := if ops.isEmpty then [] else [(0, ops.length)]
    laneOps := ops
    nextOp := ops.length
    splits := [{ Split.start 0 with mask := 1, index := 0, hdr := { blankHeader with avalid := true, count := 1, stop := true } },
      Split.free, Split.free, Split.free] }

/-- The state in which that group, whose team has a scratchpad of 4,096 bytes, issues. -/
def endingState (ops : List LaneOp) : State :=
  ({ State.reset with cur := ⟨0, some 0⟩ }.setGroup (endingGroup ops)).putTeam (endingGroup ops).teamKey
    { State.reset.team with w := 4096 }

/-- An instruction's word with the destination V2, the first source V0 and the flag that its header names A. -/
def endingWord : LaneWord :=
  { dest := 2, srcA := 0, srcB := 0, srcC := 0, ty := 0, pred := 0, pinv := 0, mods := 0, clamp := 0, dscale := 0, round := 0,
    fsel := 0, long := 1, fn := 0 }

/-- An RNG of split 0 that has yet to write V5 in lane 0. -/
def earlierRng : LaneOp :=
  { id := 0, split := 0, mask := 1, order := 0, flag := some 0, dest := .regs 1 [(5, 1)], write := false, again := false, todo := [],
    done := [], far := [], since := 0, logWait := none }

/-- The splits to which the issuing group's operations belong after an instruction. -/
def laneOpSplits (r : Result State) : List Nat :=
  match r with
  | .next t => t.group.laneOps.map (·.split)
  | _ => []

theorem laneOpSplits_lds : laneOpSplits (exec (.lds endingWord) (endingState [])) = [9] := by decide +kernel

theorem laneOpSplits_rng : laneOpSplits (exec (.rng endingWord) (endingState [earlierRng])) = [9, 9] := by decide +kernel

/-- Refutes O41: an LDS that is the last instruction of its lane program issues, but its split stops with it, so that the operation
stands outstanding for no split and not for the split that issued it, as the statement has it. LD, LDX and LDQ issue the same way. -/
theorem not_laneLoads : ¬ Obligations.LaneLoads := by
  intro h
  obtain ⟨-, -, -, hlds⟩ := h endingWord (endingState []) (endingState []) []
  obtain ⟨t, ht, -, -, o, ⟨hissued, -, hops, -⟩, -⟩ := hlds (by decide +kernel) (by decide +kernel) (by decide +kernel)
  obtain ⟨-, -, -, -, -, -, -, -, -, -, -, -, -, hsplit, -⟩ := hissued
  have hsplits := laneOpSplits_lds
  rw [ht] at hsplits
  change t.group.laneOps.map (·.split) = [9] at hsplits
  rw [hops] at hsplits
  have hissuer : o.split = 0 := hsplit
  exact absurd (hissuer.symm.trans (List.cons.inj hsplits).1) (by decide)

/-- Refutes O43: an RNG that is the last instruction of its lane program ends its split, so that an earlier operation of the split,
still outstanding, passes to no split; the statement has every earlier operation stand as it was. -/
theorem not_laneSpawnAndRandom : ¬ Obligations.LaneSpawnAndRandom := by
  intro h
  obtain ⟨-, hrng⟩ := h endingWord (endingState [earlierRng])
  obtain ⟨t, ht, -, -, -, -, -, -, -, -, o, _, hops, -⟩ := hrng (by decide +kernel) (by decide +kernel)
  have hsplits := laneOpSplits_rng
  rw [ht] at hsplits
  change t.group.laneOps.map (·.split) = [9, 9] at hsplits
  rw [hops] at hsplits
  exact absurd (List.cons.inj hsplits).1 (by decide)

end Sys2Proof.Machine
end

section
/-! PROOFS. What a lane instruction of short latency is and leaves: its body, the end of it (R19, R171), and what the split that it
moves on keeps. -/

namespace Sys2Proof.Machine

open Sys2Proof.Safety

/-! The form of a lane instruction. -/

/-- In its role, with its registers in the allocation and none awaited, a lane instruction is its body. -/
theorem laneInstr_starts {i : Instr} {w : LaneWord} {s : State} (hrole : s.group.role = .vector) (h : LaneStarts s i w)
    (vectorRole : Bool) (body : Lane → Result State) : laneInstr i w vectorRole s body = body (laneOf s w) := by
  obtain ⟨hrange, hheld⟩ := h
  have hrole : (laneOf s w).g.role = .vector := hrole
  simp [laneInstr, hrole, hrange, hheld]

/-- What holds of every state that satisfies `p` holds of the state an instruction goes on to. -/
theorem goes_mono {r : Result State} {p q : State → Prop} (h : Goes r p) (hpq : ∀ t, p t → q t) : Goes r q := by
  obtain ⟨t, ht, hp⟩ := h
  exact ⟨t, ht, hpq t hp⟩

/-! The end of an instruction. -/

/-- `h` is `g` but for its splits, the operations that belong to them and its queues of lane programs. -/
def StreamOnly (g h : Group) : Prop :=
  ∃ splits hsplit laneOps laneQ handlerQ,
    h = { g with splits := splits, hsplit := hsplit, laneOps := laneOps, laneQ := laneQ, handlerQ := handlerQ }

theorem SplitsOnly.streamOnly {g h : Group} (hgh : SplitsOnly g h) : StreamOnly g h := by
  obtain ⟨_, _, _, -, rfl⟩ := hgh
  exact ⟨_, _, _, _, _, rfl⟩

theorem SplitsOnly.programEnd {g h : Group} (hgh : SplitsOnly g h) (i : Nat) : StreamOnly g (h.programEnd i) := by
  obtain ⟨_, _, _, -, rfl⟩ := hgh
  unfold Group.programEnd
  split
  · exact ⟨_, _, _, _, _, rfl⟩
  · split
    · exact ⟨_, _, _, _, _, rfl⟩
    · exact ⟨_, _, _, _, _, rfl⟩

theorem SplitsOnly.settle (g : Group) : SplitsOnly g g.settle := .foldl_fuse g _

theorem SplitsOnly.freeSplit (g : Group) (i : Nat) : SplitsOnly g (g.freeSplit i) := (SplitsOnly.orphanOps g i 9).trans (.putSplit _ i _)

theorem StreamOnly.stopSplit (g : Group) (i : Nat) (hold : List Stream) : StreamOnly g (g.stopSplit i hold) := by
  unfold Group.stopSplit
  dsimp only
  split
  · exact ((SplitsOnly.putSplit g i _).trans (.settle _)).streamOnly
  · exact ((SplitsOnly.freeSplit g i).trans (.settle _)).programEnd i

/-- The end of an instruction changes nothing of its group but the stream that issued it. -/
theorem StreamOnly.stepSplit (g : Group) (i : Nat) (hold : List Stream) : StreamOnly g (g.stepSplit i hold) := by
  unfold Group.stepSplit
  dsimp only
  split
  · exact (SplitsOnly.putSplit g i _).streamOnly
  · split
    · exact .stopSplit g i hold
    · exact (SplitsOnly.putSplit g i _).streamOnly

/-- Inside its clause a split stands at its next instruction. -/
theorem Group.splitAt_stepSplit_inside {g : Group} {i : Nat} (hi : i = 4 ∨ i < g.splits.length) (h : (g.splitAt i).atLast = false)
    (hold : List Stream) :
    (g.stepSplit i hold).splitAt i = { g.splitAt i with index := (g.splitAt i).index + 1, age := 0 } := by
  simp [Group.stepSplit, h, Group.splitAt_putSplit_same g hi]

/-- Past the end of a clause without an end bit a split stands at the next header. -/
theorem Group.splitAt_stepSplit_last {g : Group} {i : Nat} (hi : i = 4 ∨ i < g.splits.length) (h : (g.splitAt i).atLast = true)
    (hstop : (g.splitAt i).hdr.stop = false) (hold : List Stream) :
    (g.stepSplit i hold).splitAt i =
      { g.splitAt i with addr := (g.splitAt i).fallThrough, index := 15, age := 0, hold := hold } := by
  simp [Group.stepSplit, h, hstop, Group.splitAt_putSplit_same g hi]

/-- Counting non-finite results changes the grid only. -/
theorem countNf_gridsOnly (s : State) (grid n : Nat) : ∃ grids, countNf s grid n = { s with grids := grids } := by
  unfold countNf
  split
  · exact ⟨_, rfl⟩
  · exact ⟨_, rfl⟩

/-! What a lane instruction writes. -/

/-- `h` is `g` but for its vector, scale and predicate registers and its draw counter. -/
def LaneWrites (g h : Group) : Prop := ∃ v q p draws, h = { g with v := v, q := q, p := p, draws := draws }

/-- A state whose issuing group is one that a lane instruction has written to and whose split has moved on, with the memory and the
other groups of the state before. -/
theorem laneOn_of_stepSplit {s t : State} (w : LaneWord) {h : Group} {hold : List Stream} (hh : LaneWrites s.group h)
    (hgroup : t.group = h.stepSplit (laneOf s w).i hold) (hmem : t.mem = s.mem)
    (hothers : ∀ k, k ≠ s.cur.key → Assoc.find? t.groups k = Assoc.find? s.groups k) :
    LaneOn s t (laneOf s w) ∧ t.group.v = h.v ∧ t.group.q = h.q ∧ t.group.p = h.p ∧ t.group.draws = h.draws := by
  have hon : SplitOn t (laneOf s w) := by
    have hsame : h.splitAt (laneOf s w).i = (laneOf s w).sp ∧ h.splits = (laneOf s w).g.splits := by
      obtain ⟨_, _, _, _, rfl⟩ := hh
      exact ⟨rfl, rfl⟩
    obtain ⟨hsp, hsplits⟩ := hsame
    unfold SplitOn
    rw [← hsplits, ← hsp, hgroup]
    dsimp only
    intro hi
    refine ⟨fun hl => Group.splitAt_stepSplit_inside hi hl hold, fun hl hstop => ?_⟩
    rw [Group.splitAt_stepSplit_last hi hl hstop hold]
  obtain ⟨_, _, _, _, _, hstep⟩ := StreamOnly.stepSplit h (laneOf s w).i hold
  obtain ⟨_, _, _, _, rfl⟩ := hh
  rw [hstep] at hgroup
  unfold LaneOn LaneKept
  rw [hgroup]
  exact ⟨⟨⟨rfl, rfl, rfl, ⟨rfl, rfl, rfl, rfl, rfl, rfl, rfl, rfl, rfl, rfl, rfl, rfl, rfl⟩,
    ⟨rfl, rfl, rfl, rfl, rfl, rfl, rfl, rfl, rfl⟩, hmem, hothers⟩, hon, fun _ => rfl⟩, rfl, rfl, rfl, rfl⟩

/-- A lane instruction ends in a state in which its split has moved on and its registers and draw counter are what it has made of
them, whatever free values it has taken. -/
theorem goes_laneDone {s : State} (w : LaneWord) {h : Group} (hh : LaneWrites s.group h) (free nf : Nat) :
    Goes (laneDone { s with free := free } (laneOf s w) h nf) fun t => LaneOn s t (laneOf s w) ∧
      t.group.v = h.v ∧ t.group.q = h.q ∧ t.group.p = h.p ∧ t.group.draws = h.draws := by
  refine ⟨_, rfl, ?_⟩
  obtain ⟨grids, ht⟩ := countNf_gridsOnly (finishLane { s with free := free } h (laneOf s w).i) (laneOf s w).g.grid
    (if (laneOf s w).nf then nf else 0)
  rw [ht]
  exact laneOn_of_stepSplit w hh (State.group_setGroup { s with free := free } _) rfl
    (onlyGroup_setGroup { s with free := free } _).2

end Sys2Proof.Machine
end

section
/-! PROOFS. Lanes and bytes of registers: what reads back after a part of a register was replaced, after the lanes of a mask were
written (R70, R134), and after a lane-wise result was (R136). -/

namespace Sys2Proof.Bits

theorem testBit_field (x lo width i : Nat) : (field x lo width).testBit i = (decide (i < width) && x.testBit (lo + i)) := by
  simp [field, Nat.testBit_mod_two_pow, Nat.testBit_shiftRight]

/-- A number with some of its bits replaced. -/
theorem testBit_splice_nat (a x lo width i : Nat) :
    (a - (field a lo width <<< lo) + ((x % 2 ^ width) <<< lo)).testBit i =
      if lo ≤ i ∧ i < lo + width then x.testBit (i - lo) else a.testBit i := by
  let rest := a / 2 ^ lo
  have ha : 2 ^ lo * (2 ^ width * (rest / 2 ^ width) + rest % 2 ^ width) + a % 2 ^ lo = a := by
    rw [Nat.div_add_mod, Nat.div_add_mod]
  have hsplice : a - (field a lo width <<< lo) + ((x % 2 ^ width) <<< lo) =
      2 ^ lo * (2 ^ width * (rest / 2 ^ width) + x % 2 ^ width) + a % 2 ^ lo := by
    have hfield : field a lo width = rest % 2 ^ width := by rw [field, Nat.shiftRight_eq_div_pow]
    rw [hfield, Nat.shiftLeft_eq, Nat.shiftLeft_eq, Nat.mul_comm _ (2 ^ lo), Nat.mul_comm _ (2 ^ lo)]
    rw [Nat.mul_add] at ha ⊢
    omega
  have hlow : a % 2 ^ lo < 2 ^ lo := Nat.mod_lt _ (by positivity)
  have hx : x % 2 ^ width < 2 ^ width := Nat.mod_lt _ (by positivity)
  rw [hsplice, Nat.testBit_two_pow_mul_add _ hlow, Nat.testBit_two_pow_mul_add _ hx, Nat.testBit_mod_two_pow, Nat.testBit_mod_two_pow]
  by_cases hi : i < lo
  · simp [hi, Nat.not_le.2 hi]
  · by_cases hw : i - lo < width
    · simp [hi, hw, Nat.not_lt.1 hi, (by omega : i < lo + width)]
    · have hrest : (rest / 2 ^ width).testBit (i - lo - width) = a.testBit i := by
        rw [Nat.testBit_div_two_pow, Nat.testBit_div_two_pow]
        congr 1
        omega
      rw [if_neg hi, if_neg hw, hrest, if_neg (by omega)]

theorem getLsbD_splice {n : Nat} (v : BitVec n) (lo width x i : Nat) :
    (splice v lo width x).getLsbD i =
      if i < n ∧ lo ≤ i ∧ i < lo + width then x.testBit (i - lo) else v.getLsbD i := by
  rw [splice, BitVec.getLsbD_ofNat, testBit_splice_nat]
  by_cases hi : i < n
  · simp [hi, BitVec.getLsbD]
  · simp [hi, BitVec.getLsbD_of_ge v i (Nat.not_lt.1 hi)]

/-! Lanes of a vector register (R4). -/

theorem lane_setLane (v : VecReg) {l m : Nat} (hm : m < 32) (x : LaneW) :
    lane (setLane v l x) m = if l = m then x else lane v m := by
  apply BitVec.eq_of_getLsbD_eq
  intro i hi
  rw [lane, setLane, BitVec.getLsbD_extractLsb', getLsbD_splice]
  split
  · next h =>
    have hl : l = m := by omega
    subst hl
    simp [hi, BitVec.getLsbD]
  · next h =>
    have hl : l ≠ m := by omega
    simp [hl, lane]

/-- Of lanes that are set one after another the listed ones hold their values. -/
theorem lane_foldl_setLane (f : Nat → LaneW) (L : List Nat) (v : VecReg) {m : Nat} (hm : m < 32) :
    lane (L.foldl (fun v l => setLane v l (f l)) v) m = if m ∈ L then f m else lane v m := by
  induction L generalizing v with
  | nil => rfl
  | cons l L ih =>
    simp only [List.foldl_cons, ih, lane_setLane v hm, List.mem_cons]
    by_cases hL : m ∈ L
    · simp [hL]
    · by_cases hl : l = m
      · simp [hl]
      · simp [hl, hL, Ne.symm hl]

theorem mem_lanesOf {m : Mask} {l : Nat} : l ∈ lanesOf m ↔ l < 32 ∧ m.getLsbD l = true := by
  simp [lanesOf, lanes, BitVec.getLsbD]

/-! Bytes of a scale register (R51). -/

theorem qbyte_setQbyte (q : ScaleReg) {b c : Nat} (hc : c < 32) (x : Nat) :
    qbyte (setQbyte q b x) c = if b = c then x % 256 else qbyte q c := by
  apply Nat.eq_of_testBit_eq
  intro i
  rw [qbyte, testBit_field, setQbyte]
  change (_ && (splice q (8 * b) 8 x).getLsbD (8 * c + i)) = _
  rw [getLsbD_splice]
  by_cases hb : b = c
  · subst hb
    rw [if_pos rfl, show (x % 256).testBit i = _ from Nat.testBit_mod_two_pow x 8 i]
    by_cases hi : i < 8
    · simp [hi, (by omega : 8 * b + i < 256)]
    · simp [hi]
  · rw [if_neg hb, qbyte, testBit_field]
    by_cases hi : i < 8
    · rw [if_neg (by omega)]
      rfl
    · simp [hi]

end Sys2Proof.Bits

namespace Sys2Proof.Machine

open Sys2Proof.Safety

/-! Planes (R70, R136). -/

/-- Registers of planes stand apart. -/
theorem regIndex_inj {p n k m : Nat} (hn : n < 512) (hm : m < 512) : p * 512 + n = k * 512 + m ↔ n = m ∧ k = p := by omega

theorem lane_readV_writeLanes (g : Group) {p n k m l : Nat} (hn : n < 512) (hm : m < 512) (hl : l < 32) (mask : Mask) (f : Nat → LaneW) :
    Bits.lane ((g.writeLanes p n mask f).readV k m) l =
      if m = n ∧ k = p ∧ mask.getLsbD l = true then f l else Bits.lane (g.readV k m) l := by
  unfold Group.writeLanes
  by_cases h0 : mask = 0
  · simp [h0]
  · rw [if_neg h0, Group.readV_writeV]
    by_cases hreg : n = m ∧ k = p
    · obtain ⟨rfl, rfl⟩ := hreg
      simp [Bits.lane_foldl_setLane f _ _ hl, Bits.mem_lanesOf, hl]
    · rw [if_neg fun h => hreg ((regIndex_inj hn hm).1 h), if_neg fun h => hreg ⟨h.1.symm, h.2.1⟩]

/-- `h` is `g` but for its vector registers. -/
def VecOnly (g h : Group) : Prop := ∃ v, h = { g with v := v }

theorem VecOnly.refl (g : Group) : VecOnly g g := ⟨_, rfl⟩

theorem VecOnly.trans {g h i : Group} (hgh : VecOnly g h) (hhi : VecOnly h i) : VecOnly g i := by
  obtain ⟨_, rfl⟩ := hgh
  obtain ⟨_, rfl⟩ := hhi
  exact ⟨_, rfl⟩

theorem VecOnly.foldl {α : Type} {f : Group → α → Group} (hf : ∀ g a, VecOnly g (f g a)) (l : List α) (g : Group) :
    VecOnly g (l.foldl f g) :=
  List.foldlRecOn (motive := VecOnly g) l f (.refl g) fun _ hh a _ => hh.trans (hf _ a)

theorem VecOnly.writeLanes (g : Group) (p n : Nat) (mask : Mask) (f : Nat → LaneW) : VecOnly g (g.writeLanes p n mask f) := by
  unfold Group.writeLanes
  split
  · exact .refl g
  · exact ⟨_, rfl⟩

theorem VecOnly.writeResult (g : Group) (dest : BitVec 9) (t : Nat) (mask : Mask) (prim : Nat → LaneW) (tan : Nat → Nat → LaneW) :
    VecOnly g (g.writeResult dest t mask prim tan) := by
  unfold Group.writeResult
  dsimp only
  split
  · exact .refl g
  · exact (VecOnly.writeLanes g 0 _ mask prim).trans (.foldl (fun g _ => .writeLanes g _ _ mask _) _ _)

theorem VecOnly.regsOnly {g h : Group} (hgh : VecOnly g h) : RegsOnly g h := by
  obtain ⟨_, rfl⟩ := hgh
  exact ⟨_, _, rfl⟩

theorem VecOnly.q {g h : Group} (hgh : VecOnly g h) : h.q = g.q := by
  obtain ⟨_, rfl⟩ := hgh
  rfl

/-- A register of planes 0 to `t` takes in each plane a value for each lane of a mask. -/
def Group.writePlanes (g : Group) (n t : Nat) (mask : Mask) (prim : Nat → LaneW) (tan : Nat → Nat → LaneW) : Group :=
  (List.range t).foldl (fun g k => g.writeLanes (k + 1) n mask (tan (k + 1))) (g.writeLanes 0 n mask prim)

theorem VecOnly.writePlanes (g : Group) (n t : Nat) (mask : Mask) (prim : Nat → LaneW) (tan : Nat → Nat → LaneW) :
    VecOnly g (g.writePlanes n t mask prim tan) :=
  (VecOnly.writeLanes g 0 _ mask prim).trans (.foldl (fun g _ => .writeLanes g _ _ mask _) _ _)

theorem lane_readV_writePlanes (g : Group) {n k m l : Nat} (t : Nat) (hn : n < 512) (hm : m < 512) (hl : l < 32) (mask : Mask)
    (prim : Nat → LaneW) (tan : Nat → Nat → LaneW) :
    Bits.lane ((g.writePlanes n t mask prim tan).readV k m) l =
      if m = n ∧ k ≤ t ∧ mask.getLsbD l = true then (if k = 0 then prim l else tan k l) else Bits.lane (g.readV k m) l := by
  induction t with
  | zero =>
    rw [show g.writePlanes n 0 mask prim tan = g.writeLanes 0 n mask prim from rfl, lane_readV_writeLanes g hn hm hl]
    by_cases hk : k = 0 <;> simp [hk]
  | succ t ih =>
    have hstep : g.writePlanes n (t + 1) mask prim tan =
        (g.writePlanes n t mask prim tan).writeLanes (t + 1) n mask (tan (t + 1)) := by
      simp only [Group.writePlanes, List.range_succ, List.foldl_append, List.foldl_cons, List.foldl_nil]
    rw [hstep, lane_readV_writeLanes _ hn hm hl, ih]
    by_cases hk : k = t + 1
    · simp [hk]
    · have hle : k ≤ t + 1 ↔ k ≤ t := by omega
      simp [hk, hle]

theorem writeResult_vec (g : Group) {dest : BitVec 9} (hd : dest.toNat < 384) (t : Nat) (mask : Mask) (prim : Nat → LaneW)
    (tan : Nat → Nat → LaneW) : g.writeResult dest t mask prim tan = g.writePlanes dest.toNat t mask prim tan := by
  simp [Group.writeResult, Group.writePlanes, Nat.not_le.2 hd]

theorem writeResult_discards (g : Group) {dest : BitVec 9} (hd : 384 ≤ dest.toNat) (t : Nat) (mask : Mask) (prim : Nat → LaneW)
    (tan : Nat → Nat → LaneW) : g.writeResult dest t mask prim tan = g := by
  simp [Group.writeResult, hd]

/-! Results. -/

theorem Group.readV_congr {g h : Group} (hv : h.v = g.v) (k n : Nat) : h.readV k n = g.readV k n :=
  congrArg (Assoc.get 0 · (k * 512 + n)) hv

theorem Group.readQ_congr {g h : Group} (hq : h.q = g.q) (k n : Nat) : h.readQ k n = g.readQ k n :=
  congrArg (Assoc.get 0 · (k * 512 + n)) hq

/-- A lane-wise result is what the rule of R134 says of the vector registers. -/
theorem laneValues_writeResult {t : State} {c : Lane} {prim : Nat → LaneW} {tan : Nat → Nat → LaneW}
    (hv : t.group.v = (c.g.writeResult c.w.dest c.t c.act prim tan).v) (hq : t.group.q = c.g.q) (hp : t.group.p = c.g.p) :
    LaneValues t c prim tan := by
  refine ⟨hq, hp, fun hd => ?_, fun hd k n l hn hl => ?_⟩
  · rw [hv, writeResult_discards c.g hd]
  · rw [Group.readV_congr hv, writeResult_vec c.g hd]
    exact lane_readV_writePlanes c.g c.t (Nat.lt_trans hd (by decide)) hn hl c.act prim tan

/-- An instruction that writes vector and scale registers ends in a state with these registers and with this draw counter. -/
theorem goes_laneRegisters (s : State) (w : LaneWord) {h : Group} (hh : RegsOnly s.group h) (draws : BitVec 32) (nf : Nat) :
    Goes (laneDone s (laneOf s w) { h with draws := draws } nf) fun t => LaneOn s t (laneOf s w) ∧ t.group.draws = draws ∧
      t.group.p = s.group.p ∧ t.group.v = h.v ∧ t.group.q = h.q := by
  obtain ⟨_, _, rfl⟩ := hh
  obtain ⟨t, ht, hon, hv, hq, hp, hdraws⟩ := goes_laneDone (s := s) w ⟨_, _, _, draws, rfl⟩ s.free nf
  exact ⟨t, ht, hon, hdraws, hp, hv, hq⟩

/-- A lane-wise result ends in a state with these values in the destination's lanes and shadows, and with this draw counter. -/
theorem goes_laneResult (s : State) (w : LaneWord) (prim : Nat → LaneW) (tan : Nat → Nat → LaneW) (draws : BitVec 32) (nf : Nat) :
    let c := laneOf s w
    Goes (laneDone s c { c.g.writeResult c.w.dest c.t c.act prim tan with draws := draws } nf) fun t =>
      LaneOn s t c ∧ t.group.draws = draws ∧ LaneValues t c prim tan := by
  intro c
  have honly := VecOnly.writeResult c.g c.w.dest c.t c.act prim tan
  exact goes_mono (goes_laneRegisters s w honly.regsOnly draws nf) fun t ⟨hon, hdraws, hp, hv, hq⟩ =>
    ⟨hon, hdraws, laneValues_writeResult hv (hq.trans honly.q) hp⟩

/-- A result that is not rounded takes no draws. -/
theorem goes_laneWrite (s : State) (w : LaneWord) (prim : Nat → LaneW) (tan : Nat → Nat → LaneW) :
    Goes (laneWrite s (laneOf s w) prim tan) fun t => MoveRule s t (laneOf s w) prim tan := by
  obtain ⟨v, hv⟩ := VecOnly.writeResult (laneOf s w).g (laneOf s w).w.dest (laneOf s w).t (laneOf s w).act prim tan
  have h := goes_laneResult s w prim tan (laneOf s w).g.draws 0
  dsimp only at h
  rw [hv] at h
  unfold laneWrite
  rw [hv]
  exact h

end Sys2Proof.Machine
end

section
/-! PROOFS. Floating-point lane arithmetic and the dot products (R49, R58, R134, R136, R140, R141, R146 to R148). -/

namespace Sys2Proof.Machine

open Sys2Proof.Safety
open Sys2Proof.Num (XVal RMode)

/-- The draw counter moves on by four values an element when the mode is stochastic (R58). -/
theorem Lane.drawn_eq (c : Lane) (n : Nat) :
    c.drawn n = if c.modeCode = 6 then c.g.draws + BitVec.ofNat 32 (4 * n) else c.g.draws := by
  simp [Lane.drawn, Lane.stochastic]

/-! Slot-wise arithmetic (R140, R141). -/

/-- Element `i` of an operation's sources is the modified value of source `i`. -/
theorem xv_vals (s : State) (w : LaneWord) {n i : Nat} (h : i < n) (l j : Nat) :
    xv ((laneOf s w).vals (laneFmt w) n l j) i = fpIn (laneOf s w) i l j := by
  simp [xv, Lane.vals, fpIn, laneOf, h]

/-- Element `i` of its tangents in a plane is the modified tangent of source `i`. -/
theorem xv_tans (s : State) (w : LaneWord) {n i : Nat} (h : i < n) (k l j : Nat) :
    xv ((laneOf s w).tans (laneFmt w) n k l j) i = fpTan (laneOf s w) i k l j := by
  simp [xv, Lane.tans, fpTan, laneOf, h]

/-- A slot-wise floating-point instruction follows the rule of R49, R134 and R136 for what its operation's exact result and tangent
are on the modified sources. -/
theorem goes_fpInstr {i : Instr} {w : LaneWord} {s : State} {op : FpOp} {x : RMode → Nat → Nat → XVal}
    {dx : XVal → Nat → Nat → Nat → XVal} (hrole : s.group.role = .vector) (h : LaneStarts s i w)
    (hx : ∀ m l j, op.prim m.isRdn m ((laneOf s w).vals (laneFmt w) op.srcs l j) = x m l j)
    (hdx : ∀ y k l j,
      op.tan y ((laneOf s w).vals (laneFmt w) op.srcs l j) ((laneOf s w).tans (laneFmt w) op.srcs k l j) = dx y k l j) :
    Goes (fpInstr i w op s) fun t => FpRule s t (laneOf s w) x dx := by
  obtain rfl := (funext fun m => funext fun l => funext (hx m l) : _ = x)
  obtain rfl := (funext fun y => funext fun k => funext fun l => funext (hdx y k l) : _ = dx)
  rw [fpInstr, laneInstr_starts hrole h]
  exact goes_mono (goes_laneResult s w _ _ _ _) fun t ⟨hon, hdraws, hvals⟩ => ⟨hon, hdraws.trans (Lane.drawn_eq _ _), hvals⟩

/-- FMIN and FMAX give the canonical NaN of a NaN source, and else one of the sources with its tangent (R141). -/
theorem goes_minMax {i : Instr} {w : LaneWord} {s : State} (isMin : Bool) (hrole : s.group.role = .vector) (h : LaneStarts s i w) :
    let a := fpIn (laneOf s w) 0
    let b := fpIn (laneOf s w) 1
    let choose (l j : Nat) (x y : XVal) : XVal :=
      if a l j = .nan ∨ b l j = .nan then .nan else if Num.chooseA isMin (a l j) (b l j) then x else y
    Goes (fpInstr i w (minMaxOp isMin) s) fun t => FpRule s t (laneOf s w) (fun _ l j => choose l j (a l j) (b l j))
      fun _ k l j => choose l j (fpTan (laneOf s w) 0 k l j) (fpTan (laneOf s w) 1 k l j) :=
  goes_fpInstr hrole h (fun m l j => by simp [minMaxOp, xv_vals]) fun y k l j => by simp [minMaxOp, xv_vals, xv_tans]

/-- Settles O31: each of the five is a slot-wise instruction, whose operation is the rule's on the modified sources. -/
theorem laneFloatArithmetic : Obligations.LaneFloatArithmetic := by
  intro w s c a b d da db dd choose hrole
  refine ⟨fun h => ?fadd, fun h => ?fmul, fun h => ?ffma, fun h => ?fmin, fun h => ?fmax⟩
  case fadd =>
    exact goes_fpInstr hrole h (fun m l j => by simp [xv_vals, a, b, c]) fun y k l j => by simp [xv_tans, tsum, da, db, c]
  case fmul =>
    exact goes_fpInstr hrole h (fun m l j => by simp [xv_vals, a, b, c])
      fun y k l j => by simp [xv_vals, xv_tans, tsum, a, b, da, db, c]
  case ffma =>
    exact goes_fpInstr hrole h (fun m l j => by simp [xv_vals, a, b, d, c])
      fun y k l j => by simp [xv_vals, xv_tans, tsum, a, b, da, db, dd, c]
  case fmin => exact goes_minMax true hrole h
  case fmax => exact goes_minMax false hrole h

/-! Dot products (R146 to R148). -/

/-- The primal codes of a dot product: the exact sum of the products of the slots of A and B and of C, rounded once. -/
def dotCodes (c : Lane) (e : Nat) (v : Nat → Nat → Nat → XVal) (l : Nat) : Nat × Nat :=
  c.destCodes .fp32 false (c.mode 1 l 0) (Num.sum (c.mode 1 l 0).isRdn
    (((List.range e).map fun j => (v 0 l j).mul (v 1 l j)) ++ [c.fpVal .fp32 2 (c.operand c.w.srcC l).toNat]))

/-- Its tangent in a plane: the sum of the products' derivatives and of C's tangent. -/
def dotTan (c : Lane) (e : Nat) (v : Nat → Nat → Nat → XVal) (d : Nat → Nat → Nat → Nat → XVal) (k l : Nat) : XVal :=
  Num.sum false (((List.range e).flatMap fun j => [(d 0 k l j).mul (v 1 l j), (v 0 l j).mul (d 1 k l j)]) ++
    [c.tanVal .fp32 2 (c.operand c.w.srcC l).toNat (c.shadow c.w.srcC k l).toNat])

/-- A dot product writes these codes and tangents, and takes four draws when the mode is stochastic. -/
theorem goes_dotInstr (s : State) (w : LaneWord) (e : Nat) (x : DotVal) :
    let c := laneOf s w
    Goes (dotInstr s c e x) fun t => LaneOn s t c ∧ t.group.draws = (if c.modeCode = 6 then c.g.draws + 4 else c.g.draws) ∧
      LaneValues t c (fun l => BitVec.ofNat 32 (dotCodes c e x.v l).2) fun k l =>
        BitVec.ofNat 32 (c.tanCode .fp32 (dotCodes c e x.v l).1 (dotTan c e x.v x.d k l)) :=
  goes_mono (goes_laneResult s w _ _ _ _) fun _ ⟨hon, hdraws, hvals⟩ => ⟨hon, hdraws.trans (Lane.drawn_eq _ 1), hvals⟩

/-- A sum that starts from its last term. -/
theorem foldl_add_eq_add_sum (f : Nat → Int) (L : List Nat) (a : Int) : L.foldl (fun a j => a + f j) a = a + (L.map f).sum := by
  induction L generalizing a with
  | nil => simp
  | cons j L ih => rw [List.foldl_cons, ih, List.map_cons, List.sum_cons, Int.add_assoc]

/-- Settles O33: FDOT and MXDOT are one dot product on different slot values, and IDOT's sum starts from C. -/
theorem laneDotProducts : Obligations.LaneDotProducts := by
  intro w s c ty e cv len mx dmx dc codes dot cty hrole
  refine ⟨fun h => ?fdot, fun h => ?mxdot, fun h => ?idot⟩
  case fdot =>
    show Goes (execFdot w s) _
    rw [execFdot, laneInstr_starts hrole h]
    exact goes_dotInstr s w e ⟨fpIn c, fpTan c⟩
  case mxdot =>
    show Goes (execMxdot w s) _
    rw [execMxdot, laneInstr_starts hrole h]
    exact goes_dotInstr s w e ⟨mx, dmx⟩
  case idot =>
    show Goes (execIdot w s) _
    rw [execIdot, laneInstr_starts hrole h]
    simp only [foldl_add_eq_add_sum]
    exact goes_laneWrite s w _ _

end Sys2Proof.Machine
end

section
/-! PROOFS. Conversions of lanes: CVT, and the blocks and scales of RQNT and DQNT (R51, R58, R70, R153, R155, R156). -/

namespace Sys2Proof.Machine

open Sys2Proof.Safety
open Sys2Proof.Num (XVal RMode Block)

/-! Folds of which one step decides what is read. -/

/-- Of steps over some numbers the one of `n` changes what is read, no matter how often, and the others keep it. -/
theorem foldl_reads_update {β γ : Type} {f : β → Nat → β} {read : β → γ} {u : γ → γ} {n : Nat} {l : List Nat} (hn : n ∈ l)
    (hu : ∀ x, u (u x) = u x) (hsame : ∀ b, read (f b n) = u (read b))
    (hother : ∀ b, ∀ m ∈ l, m ≠ n → read (f b m) = read b) (b : β) : read (l.foldl f b) = u (read b) := by
  induction l generalizing b with
  | nil => exact absurd hn List.not_mem_nil
  | cons a l ih =>
    have hrest (b : β) (m : Nat) (hm : m ∈ l) := hother b m (List.mem_cons_of_mem a hm)
    rw [List.foldl_cons]
    by_cases hl : n ∈ l
    · rw [ih hl hrest]
      by_cases ha : a = n
      · rw [ha, hsame, hu]
      · rw [hother b a List.mem_cons_self ha]
    · have ha : a = n := ((List.mem_cons.1 hn).resolve_right hl).symm
      rw [foldl_keeps fun b m hm => hrest b m hm fun h => hl (h ▸ hm), ha, hsame]

/-! CVT (R153). -/

theorem cvtDraws_eq (c : Lane) (p : CvtPlan) :
    cvtDraws c p = if (Num.fmtOfCode p.s).isSome = true ∨ (Num.fmtOfCode p.d).isSome = true then c.drawn p.count else c.g.draws := by
  unfold cvtDraws
  cases Num.fmtOfCode p.s <;> cases Num.fmtOfCode p.d <;> rfl

/-! The lanes of a block (R51). -/

theorem slotsOf_cases (ty : Nat) : slotsOf ty = 1 ∨ slotsOf ty = 2 ∨ slotsOf ty = 8 ∨ slotsOf ty = 4 := by
  unfold slotsOf
  split
  · exact .inl rfl
  · split
    · exact .inr (.inl rfl)
    · split
      · exact .inr (.inr (.inl rfl))
      · exact .inr (.inr (.inr rfl))

theorem slotsOf_le (ty : Nat) : slotsOf ty ≤ 8 := by rcases slotsOf_cases ty with h | h | h | h <;> omega

/-- A block of 16 or 32 elements is a whole number of lanes. -/
theorem slotsOf_mul_div {len : Nat} (hlen : len = 16 ∨ len = 32) (ty : Nat) : slotsOf ty * (len / slotsOf ty) = len := by
  rcases slotsOf_cases ty with h | h | h | h <;> rw [h] <;> omega

/-- The lanes of block `b` are those whose first element it holds. -/
theorem mem_blockLanes {ty len : Nat} (hlen : len = 16 ∨ len = 32) {b l : Nat} :
    l ∈ blockLanes ty len b ↔ b * len ≤ slotsOf ty * l ∧ slotsOf ty * l < (b + 1) * len := by
  have hslots : 0 < slotsOf ty := by rcases slotsOf_cases ty with h | h | h | h <;> omega
  have hstart (n : Nat) : n * len = slotsOf ty * (n * (len / slotsOf ty)) := by
    rw [Nat.mul_left_comm, slotsOf_mul_div hlen]
  rw [hstart, hstart, Nat.mul_le_mul_left_iff hslots, Nat.mul_lt_mul_left hslots, Nat.succ_mul]
  simp only [blockLanes, List.mem_map, List.mem_range]
  exact ⟨fun ⟨i, hi, hl⟩ => by omega, fun h => ⟨l - b * (len / slotsOf ty), by omega, by omega⟩⟩

/-- A lane is in no two blocks. -/
theorem block_eq_of_mem {ty len : Nat} (hlen : len = 16 ∨ len = 32) {b c l : Nat} (hb : l ∈ blockLanes ty len b)
    (hc : l ∈ blockLanes ty len c) : b = c := by
  rw [mem_blockLanes hlen] at hb hc
  rcases hlen with rfl | rfl <;> omega

/-! The images of a requantised register (R155). -/

/-- What a requantisation gives byte `b` of a scale register and its companion, if it writes them: of a block its own, and 0x7F and
0x00 where there is none. -/
def scaleAt (nb : Nat) (blk : Nat → Option Block) (b : Nat) : Option (Nat × Nat) :=
  if b < nb then (blk b).map fun x => (x.scale, x.comp) else some (0x7F, 0)

/-- A scale byte and its companion. -/
def scalePair (q : ScaleReg) (b : Nat) : Nat × Nat := (Bits.qbyte q b, Bits.qbyte q (16 + b))

/-- A scale register with a byte and its companion replaced, if there is something to write. -/
def putScale (q : ScaleReg) (b : Nat) (x : Option (Nat × Nat)) : ScaleReg :=
  x.elim q fun y => Bits.setQbyte (Bits.setQbyte q b y.1) (16 + b) y.2

/-- The bytes that a pair of numbers leaves in place of others. -/
def pairOver (x : Option (Nat × Nat)) (old : Nat × Nat) : Nat × Nat := x.elim old fun y => (y.1 % 256, y.2 % 256)

theorem scalePair_putScale_same (q : ScaleReg) {b : Nat} (hb : b < 16) (x : Option (Nat × Nat)) :
    scalePair (putScale q b x) b = pairOver x (scalePair q b) := by
  cases x with
  | none => rfl
  | some y =>
    simp [putScale, scalePair, pairOver, Bits.qbyte_setQbyte _ (by omega : b < 32), Bits.qbyte_setQbyte _ (by omega : 16 + b < 32)]

theorem scalePair_putScale_ne (q : ScaleReg) {b c : Nat} (hb : b < 16) (hc : c < 16) (hne : c ≠ b) (x : Option (Nat × Nat)) :
    scalePair (putScale q c x) b = scalePair q b := by
  cases x with
  | none => rfl
  | some y =>
    simp [putScale, scalePair, Bits.qbyte_setQbyte _ (by omega : b < 32), Bits.qbyte_setQbyte _ (by omega : 16 + b < 32), hne]
    omega

theorem scaleImage_eq (old : ScaleReg) (nb : Nat) (blk : Nat → Option Block) :
    scaleImage old nb blk = (List.range 16).foldl (fun q b => putScale q b (scaleAt nb blk b)) old := by
  unfold scaleImage
  congr 1
  funext q b
  unfold scaleAt
  split
  · cases blk b <;> rfl
  · rfl

/-- Each of the 16 scale bytes, with its companion, is what the requantisation gives it, or as before. -/
theorem scalePair_scaleImage (old : ScaleReg) (nb : Nat) (blk : Nat → Option Block) {b : Nat} (hb : b < 16) :
    scalePair (scaleImage old nb blk) b = pairOver (scaleAt nb blk b) (scalePair old b) := by
  rw [scaleImage_eq]
  refine foldl_reads_update (read := fun q => scalePair q b) (u := pairOver (scaleAt nb blk b)) (List.mem_range.2 hb)
    (fun x => ?_) (fun q => scalePair_putScale_same q hb _)
    (fun q c hc hne => scalePair_putScale_ne q hb (List.mem_range.1 hc) hne _) old
  cases scaleAt nb blk b <;> rfl

/-- The word of lane `l` that block `b` gives: the slots that hold its elements. -/
def blockWord (ty len b : Nat) (x : Block) (l : Nat) : LaneW :=
  packSlots ty fun j => x.codes.getD ((l - b * (len / slotsOf ty)) * slotsOf ty + j) 0

/-- A vector register with the lanes of block `b` replaced, if there is something to write. -/
def putBlock (ty len : Nat) (v : VecReg) (b : Nat) (x : Option Block) : VecReg :=
  x.elim v fun x => (blockLanes ty len b).foldl (fun v l => Bits.setLane v l (blockWord ty len b x l)) v

/-- The word of lane `l` that a block leaves in place of another. -/
def wordOver (ty len b l : Nat) (x : Option Block) (old : LaneW) : LaneW := x.elim old fun x => blockWord ty len b x l

theorem lane_putBlock_mem (ty len : Nat) (v : VecReg) {b l : Nat} (hl : l < 32) (hmem : l ∈ blockLanes ty len b) (x : Option Block) :
    Bits.lane (putBlock ty len v b x) l = wordOver ty len b l x (Bits.lane v l) := by
  cases x with
  | none => rfl
  | some x => exact (Bits.lane_foldl_setLane _ _ v hl).trans (if_pos hmem)

theorem lane_putBlock_notMem (ty len : Nat) (v : VecReg) {b l : Nat} (hl : l < 32) (hmem : l ∉ blockLanes ty len b)
    (x : Option Block) : Bits.lane (putBlock ty len v b x) l = Bits.lane v l := by
  cases x with
  | none => rfl
  | some x => exact (Bits.lane_foldl_setLane _ _ v hl).trans (if_neg hmem)

theorem blockImage_eq (old : VecReg) (ty len nb : Nat) (blk : Nat → Option Block) :
    blockImage old ty len nb blk = (List.range nb).foldl (fun v b => putBlock ty len v b (blk b)) old := by
  unfold blockImage
  dsimp only
  congr 1
  funext v b
  cases blk b <;> rfl

/-- Each lane of a block is what its block gives it, or as before. -/
theorem lane_blockImage {ty len nb : Nat} (hlen : len = 16 ∨ len = 32) (old : VecReg) (blk : Nat → Option Block) {b l : Nat}
    (hb : b < nb) (hl : l < 32) (hmem : l ∈ blockLanes ty len b) :
    Bits.lane (blockImage old ty len nb blk) l = wordOver ty len b l (blk b) (Bits.lane old l) := by
  rw [blockImage_eq]
  refine foldl_reads_update (read := fun v => Bits.lane v l) (u := wordOver ty len b l (blk b)) (List.mem_range.2 hb) (fun x => ?_)
    (fun v => lane_putBlock_mem ty len v hl hmem _)
    (fun v c _ hne => lane_putBlock_notMem ty len v hl (fun hc => hne (block_eq_of_mem hlen hc hmem)) _) old
  cases blk b <;> rfl

/-! Registers of several planes. -/

/-- A vector and a scale register of planes 0 to `t` take these values. -/
def Group.putPlanes (g : Group) (n t : Nat) (v : Nat → VecReg) (q : Nat → ScaleReg) : Group :=
  (List.range t).foldl (fun g k => (g.writeV (k + 1) n (v (k + 1))).writeQ (k + 1) n (q (k + 1))) ((g.writeV 0 n (v 0)).writeQ 0 n (q 0))

theorem Group.putPlanes_succ (g : Group) (n t : Nat) (v : Nat → VecReg) (q : Nat → ScaleReg) :
    g.putPlanes n (t + 1) v q = ((g.putPlanes n t v q).writeV (t + 1) n (v (t + 1))).writeQ (t + 1) n (q (t + 1)) := by
  simp only [Group.putPlanes, List.range_succ, List.foldl_append, List.foldl_cons, List.foldl_nil]

theorem RegsOnly.putPlanes (g : Group) (n t : Nat) (v : Nat → VecReg) (q : Nat → ScaleReg) : RegsOnly g (g.putPlanes n t v q) :=
  RegsOnly.trans ⟨_, _, rfl⟩ (.foldl (fun _ _ => ⟨_, _, rfl⟩) _ _)

theorem readV_putPlanes (g : Group) {n m : Nat} (hn : n < 512) (hm : m < 512) (t k : Nat) (v : Nat → VecReg) (q : Nat → ScaleReg) :
    (g.putPlanes n t v q).readV k m = if m = n ∧ k ≤ t then v k else g.readV k m := by
  induction t with
  | zero =>
    change ((g.writeV 0 n (v 0)).readV k m) = _
    rw [Group.readV_writeV]
    by_cases h : m = n ∧ k = 0
    · simp [h]
    · rw [if_neg fun hc => h (by omega), if_neg fun hc => h (by omega)]
  | succ t ih =>
    rw [Group.putPlanes_succ]
    change (((g.putPlanes n t v q).writeV (t + 1) n (v (t + 1))).readV k m) = _
    rw [Group.readV_writeV, ih]
    by_cases h : m = n ∧ k = t + 1
    · simp [h]
    · rw [if_neg fun hc => h (by omega)]
      exact if_congr (by omega) rfl rfl

theorem readQ_putPlanes (g : Group) {n m : Nat} (hn : n < 512) (hm : m < 512) (t k : Nat) (v : Nat → VecReg) (q : Nat → ScaleReg) :
    (g.putPlanes n t v q).readQ k m = if m = n ∧ k ≤ t then q k else g.readQ k m := by
  induction t with
  | zero =>
    change (((g.writeV 0 n (v 0)).writeQ 0 n (q 0)).readQ k m) = _
    rw [Group.readQ_writeQ]
    by_cases h : m = n ∧ k = 0
    · simp [h]
    · rw [if_neg fun hc => h (by omega), if_neg fun hc => h (by omega)]
      rfl
  | succ t ih =>
    rw [Group.putPlanes_succ, Group.readQ_writeQ]
    by_cases h : m = n ∧ k = t + 1
    · simp [h]
    · rw [if_neg fun hc => h (by omega)]
      refine Eq.trans ih (if_congr (by omega) rfl rfl)

/-- Registers `d` to `d + e - 1` of planes 0 to `t` take in the lanes of a mask a value for each lane and register. -/
def Group.writeEach (g : Group) (d e t : Nat) (mask : Mask) (prim : Nat → Nat → LaneW) (tan : Nat → Nat → Nat → LaneW) : Group :=
  (List.range e).foldl (fun g j => g.writePlanes (d + j) t mask (prim j) (tan j)) g

theorem VecOnly.writeEach (g : Group) (d e t : Nat) (mask : Mask) (prim : Nat → Nat → LaneW) (tan : Nat → Nat → Nat → LaneW) :
    VecOnly g (g.writeEach d e t mask prim tan) := .foldl (fun g _ => .writePlanes g _ _ mask _ _) _ _

theorem lane_readV_writeEach (g : Group) {d e k n l : Nat} (t : Nat) (hd : d + e ≤ 512) (hn : n < 512) (hl : l < 32) (mask : Mask)
    (prim : Nat → Nat → LaneW) (tan : Nat → Nat → Nat → LaneW) :
    Bits.lane ((g.writeEach d e t mask prim tan).readV k n) l =
      if d ≤ n ∧ n < d + e ∧ k ≤ t ∧ mask.getLsbD l = true then (if k = 0 then prim (n - d) l else tan (n - d) k l)
      else Bits.lane (g.readV k n) l := by
  induction e with
  | zero => rw [if_neg (by omega)]; rfl
  | succ e ih =>
    have hstep : g.writeEach d (e + 1) t mask prim tan =
        (g.writeEach d e t mask prim tan).writePlanes (d + e) t mask (prim e) (tan e) := by
      simp only [Group.writeEach, List.range_succ, List.foldl_append, List.foldl_cons, List.foldl_nil]
    rw [hstep, lane_readV_writePlanes _ t (by omega) hn hl, ih (by omega)]
    by_cases h : n = d + e
    · subst h
      simp
    · have hlt : n < d + (e + 1) ↔ n < d + e := by omega
      simp only [if_neg fun hc : n = d + e ∧ _ => h hc.1, hlt]

/-! RQNT (R155). -/

/-- Unused scale bytes take 0x7F and 0x00. -/
theorem scaleImage_unused (old : ScaleReg) {nb b : Nat} (hb : b < 16) (hnb : nb ≤ b) (blk : Nat → Option Block) :
    Bits.qbyte (scaleImage old nb blk) b = 0x7F ∧ Bits.qbyte (scaleImage old nb blk) (16 + b) = 0 := by
  have h := scalePair_scaleImage old nb blk hb
  rw [scaleAt, if_neg (by omega)] at h
  exact Prod.mk.inj h

/-- A whole block takes its scale and companion. -/
theorem scaleImage_whole (old : ScaleReg) {nb b : Nat} (hb : b < 16) (hnb : b < nb) {blk : Nat → Option Block} {x : Block}
    (hx : blk b = some x) :
    Bits.qbyte (scaleImage old nb blk) b = x.scale % 256 ∧ Bits.qbyte (scaleImage old nb blk) (16 + b) = x.comp % 256 := by
  have h := scalePair_scaleImage old nb blk hb
  rw [scaleAt, if_pos hnb, hx] at h
  exact Prod.mk.inj h

/-- Any other block keeps both. -/
theorem scaleImage_partial (old : ScaleReg) {nb b : Nat} (hb : b < 16) (hnb : b < nb) {blk : Nat → Option Block} (hx : blk b = none) :
    Bits.qbyte (scaleImage old nb blk) b = Bits.qbyte old b ∧
      Bits.qbyte (scaleImage old nb blk) (16 + b) = Bits.qbyte old (16 + b) := by
  have h := scalePair_scaleImage old nb blk hb
  rw [scaleAt, if_pos hnb, hx] at h
  exact Prod.mk.inj h

/-- The slots of a lane hold the elements of its block that start with the lane's first. -/
theorem blockWord_eq {ty len : Nat} (hlen : len = 16 ∨ len = 32) {b l : Nat} (hl : b * len ≤ slotsOf ty * l) (x : Block) :
    blockWord ty len b x l = packSlots ty fun j => x.codes.getD (slotsOf ty * l + j - b * len) 0 := by
  unfold blockWord
  congr 1
  funext j
  have hfirst : (l - b * (len / slotsOf ty)) * slotsOf ty = slotsOf ty * l - b * len := by
    rw [Nat.mul_comm, Nat.mul_sub, Nat.mul_left_comm, slotsOf_mul_div hlen]
  rw [hfirst, Nat.sub_add_comm hl]

/-- The blocks of a register have lanes below 32. -/
theorem lane_lt_of_block {e len b l : Nat} (hb : b < 32 * e / len) (hl : e * l < (b + 1) * len) : l < 32 := by
  have hle : (b + 1) * len ≤ 32 * e := le_trans (Nat.mul_le_mul_right len hb) (Nat.div_mul_le_self _ _)
  exact Nat.lt_of_mul_lt_mul_left (a := e) (by omega)

/-- The length of the blocks that an RQNT or a DQNT names. -/
def mxLen (w : LaneWord) : Nat := if w.fn.getLsbD 0 then 16 else 32

theorem mxLen_cases (w : LaneWord) : mxLen w = 16 ∨ mxLen w = 32 := by
  unfold mxLen
  split
  · exact .inl rfl
  · exact .inr rfl

/-- The blocks of plane `k` of an RQNT: the primal's in plane 0, and the tangents' in the others. -/
def rqntPlane (c : Lane) (k : Nat) : Nat → Option Block :=
  let ty := c.w.ty.toNat
  let code (k l j : Nat) := (Bits.lane (c.g.readV k (c.w.srcA.toNat + j)) l).toNat
  let m := c.modeCode
  match k with
  | 0 => rqntBlocks c ty (mxLen c.w) (c.w.fn.getLsbD 1) (fun i => RMode.ofCode m (if m = 6 then c.chunk i else 0)) fun l j =>
      c.fpVal .fp32 0 (code 0 l j)
  | k + 1 => rqntBlocks c ty (mxLen c.w) false (fun _ => .rne) fun l j => c.tanVal .fp32 0 (code 0 l j) (code (k + 1) l j)

/-- The destination of an RQNT in plane `k`, with its whole blocks in place. -/
def rqntVec (c : Lane) (k : Nat) : VecReg :=
  blockImage (c.g.readV k c.w.dest.toNat) c.w.ty.toNat (mxLen c.w) (blockCount c.w.ty.toNat (mxLen c.w)) (rqntPlane c k)

/-- Its scale register in plane `k`. -/
def rqntScale (c : Lane) (k : Nat) : ScaleReg :=
  scaleImage (c.g.readQ k c.w.dest.toNat) (blockCount c.w.ty.toNat (mxLen c.w)) (rqntPlane c k)

/-- The group as an RQNT leaves its registers. -/
def rqntGroup (c : Lane) : Group :=
  if 384 ≤ c.w.dest.toNat ∨ c.act = 0 then c.g else c.g.putPlanes c.w.dest.toNat c.t (rqntVec c) (rqntScale c)

theorem RegsOnly.rqntGroup (c : Lane) : RegsOnly c.g (rqntGroup c) := by
  unfold Machine.rqntGroup
  split
  · exact .refl _
  · exact .putPlanes _ _ _ _ _

/-- The destination of an RQNT that writes at all. -/
theorem read_rqntGroup {c : Lane} (hd : c.w.dest.toNat < 384) (hact : c.act ≠ 0) {k : Nat} (hk : k ≤ c.t) :
    (rqntGroup c).readV k c.w.dest.toNat = rqntVec c k ∧ (rqntGroup c).readQ k c.w.dest.toNat = rqntScale c k := by
  have hn : c.w.dest.toNat < 512 := by omega
  rw [rqntGroup, if_neg fun h => h.elim (Nat.not_le.2 hd) hact, readV_putPlanes _ hn hn, readQ_putPlanes _ hn hn]
  exact ⟨if_pos ⟨rfl, hk⟩, if_pos ⟨rfl, hk⟩⟩

/-- Every other register of an RQNT, and every wider plane. -/
theorem read_rqntGroup_other (c : Lane) {k n : Nat} (hn : n < 512) (h : n ≠ c.w.dest.toNat ∨ c.t < k) :
    (rqntGroup c).readV k n = c.g.readV k n ∧ (rqntGroup c).readQ k n = c.g.readQ k n := by
  unfold rqntGroup
  split
  · exact ⟨rfl, rfl⟩
  · have hd : c.w.dest.toNat < 512 := c.w.dest.isLt
    rw [readV_putPlanes _ hd hn, readQ_putPlanes _ hd hn]
    exact ⟨if_neg (by omega), if_neg (by omega)⟩

theorem execRqnt_eq {w : LaneWord} {s : State} (hrole : s.group.role = .vector) (h : LaneStarts s (.rqnt w) w) :
    ∃ nf, execRqnt w s = laneDone s (laneOf s w) { rqntGroup (laneOf s w) with draws := (laneOf s w).drawn (slotsOf w.ty.toNat) } nf := by
  rw [execRqnt, laneInstr_starts hrole h]
  exact ⟨_, rfl⟩

/-- A block whose lanes are all active is requantised from its own elements. -/
theorem rqntBlocks_whole {c : Lane} {ty len b : Nat} (h : ∀ l ∈ blockLanes ty len b, c.act.getLsbD l = true) (nansat : Bool)
    (mode : Nat → RMode) (val : Nat → Nat → XVal) :
    rqntBlocks c ty len nansat mode val b =
      some (Num.requantise ((List.range len).map fun j => val ((b * len + j) / slotsOf ty) ((b * len + j) % slotsOf ty)) ty
        ((List.range len).map fun j => mode (b * len + j)) nansat) := by
  simp only [rqntBlocks, List.all_eq_true.2 h, if_true, List.map_map, Function.comp_def]

/-- Any other block is left as it is. -/
theorem rqntBlocks_partial {c : Lane} {ty len b : Nat} (h : ¬∀ l ∈ blockLanes ty len b, c.act.getLsbD l = true) (nansat : Bool)
    (mode : Nat → RMode) (val : Nat → Nat → XVal) : rqntBlocks c ty len nansat mode val b = none :=
  if_neg fun hall => h (List.all_eq_true.1 hall)

/-! DQNT (R156). -/

/-- The primal code of element `j` of lane `l` of a DQNT. -/
def dqntCodes (c : Lane) (len l j : Nat) : Nat × Nat :=
  let e := slotsOf c.w.ty.toNat
  c.destCodes .fp32 false (c.mode e l j) (mxElem c.g c.w.ty.toNat 0 c.w.srcA.toNat len (e * l + j))

/-- Its tangent's code in plane `k`. -/
def dqntTan (c : Lane) (len k l j : Nat) : Nat :=
  c.tanCode .fp32 (dqntCodes c len l j).1 (mxElem c.g c.w.ty.toNat k c.w.srcA.toNat len (slotsOf c.w.ty.toNat * l + j))

/-- The group as a DQNT leaves its registers. -/
def dqntGroup (c : Lane) : Group :=
  if 384 ≤ c.w.dest.toNat then c.g
  else c.g.writeEach c.w.dest.toNat (slotsOf c.w.ty.toNat) c.t c.act (fun j l => BitVec.ofNat 32 (dqntCodes c (mxLen c.w) l j).2)
    fun j k l => BitVec.ofNat 32 (dqntTan c (mxLen c.w) k l j)

theorem VecOnly.dqntGroup (c : Lane) : VecOnly c.g (dqntGroup c) := by
  unfold Machine.dqntGroup
  split
  · exact .refl _
  · exact .writeEach _ _ _ _ _ _ _

/-- The lanes of the registers that a DQNT names, and every other lane. -/
theorem lane_readV_dqntGroup (c : Lane) {k n l : Nat} (hn : n < 512) (hl : l < 32) :
    let d := c.w.dest.toNat
    Bits.lane ((dqntGroup c).readV k n) l =
      if d < 384 ∧ d ≤ n ∧ n < d + slotsOf c.w.ty.toNat ∧ k ≤ c.t ∧ c.act.getLsbD l = true then
        BitVec.ofNat 32 (if k = 0 then (dqntCodes c (mxLen c.w) l (n - d)).2 else dqntTan c (mxLen c.w) k l (n - d))
      else Bits.lane (c.g.readV k n) l := by
  intro d
  unfold dqntGroup
  by_cases hd : d < 384
  · have hslots := slotsOf_le c.w.ty.toNat
    rw [if_neg (Nat.not_le.2 hd), lane_readV_writeEach c.g c.t (by omega) hn hl]
    simp only [hd, true_and, apply_ite (BitVec.ofNat 32)]
    rfl
  · rw [if_pos (Nat.not_lt.1 hd), if_neg fun h => hd h.1]

theorem execDqnt_eq {w : LaneWord} {s : State} (hrole : s.group.role = .vector) (h : LaneStarts s (.dqnt w) w) :
    ∃ nf, execDqnt w s = laneDone s (laneOf s w) { dqntGroup (laneOf s w) with draws := (laneOf s w).drawn (slotsOf w.ty.toNat) } nf := by
  rw [execDqnt, laneInstr_starts hrole h]
  exact ⟨_, rfl⟩

/-- Settles O37: CVT is a lane-wise result; RQNT's register and scale images are read block by block; DQNT writes its registers one
after another. -/
theorem laneConversions : Obligations.LaneConversions := by
  intro w s c d ty e p float drawn source code tangent put len nb full word elements m block hrole
  refine ⟨fun h => ?cvt, fun h _ _ => ?rqnt, fun h => ?dqnt⟩
  case cvt =>
    show Goes (execCvt w s) _
    rw [execCvt, laneInstr_starts hrole h]
    refine goes_mono (goes_laneResult s w _ _ _ _) fun t ⟨hon, hdraws, hvals⟩ => ⟨hon, ?_, hvals⟩
    rw [cvtDraws_eq, Lane.drawn_eq] at hdraws
    split
    · next hf => exact hdraws.trans (if_pos hf)
    · next hf => exact hdraws.trans (if_neg hf)
  case rqnt =>
    obtain ⟨nf, hexec⟩ := execRqnt_eq hrole h
    show Goes (execRqnt w s) _
    rw [hexec]
    refine goes_mono (goes_laneRegisters s w (.rqntGroup c) _ nf) fun t ⟨hon, hdraws, hp, hv, hq⟩ =>
      ⟨hon, hdraws.trans (Lane.drawn_eq _ _), hp, fun hkeep => ?_, fun k n hn hother => ?_, fun hd hact k b hk hb => ?_⟩
    · have hg : rqntGroup c = c.g := if_pos hkeep
      exact ⟨hv.trans (congrArg Group.v hg), hq.trans (congrArg Group.q hg)⟩
    · obtain ⟨hreadV, hreadQ⟩ := read_rqntGroup_other c hn hother
      exact ⟨(Group.readV_congr hv k n).trans hreadV, (Group.readQ_congr hq k n).trans hreadQ⟩
    · obtain ⟨hreadV, hreadQ⟩ := read_rqntGroup hd hact hk
      have hlen : len = 16 ∨ len = 32 := mxLen_cases w
      have hvec : t.group.readV k d = rqntVec c k := (Group.readV_congr hv k d).trans hreadV
      have hscale : t.group.readQ k d = rqntScale c k := (Group.readQ_congr hq k d).trans hreadQ
      have hfull : full b ↔ ∀ l ∈ blockLanes ty len b, c.act.getLsbD l = true := by
        simp only [mem_blockLanes hlen, and_imp]
        rfl
      have hlane (hnb : b < nb) (l : Nat) (hlo : b * len ≤ e * l) (hhi : e * l < (b + 1) * len) :
          Bits.lane (rqntVec c k) l = wordOver ty len b l (rqntPlane c k b) (Bits.lane (c.g.readV k d) l) :=
        lane_blockImage hlen _ _ hnb (lane_lt_of_block hnb hhi) ((mem_blockLanes hlen).2 ⟨hlo, hhi⟩)
      rw [hvec, hscale]
      refine ⟨fun hnb => scaleImage_unused _ hb hnb _, fun hnb hwhole => ?_, fun hnb hpartial => ?_⟩
      · have hblock : rqntPlane c k b = some (block k b) := by
          unfold rqntPlane
          cases k <;> exact (rqntBlocks_whole (hfull.1 hwhole) _ _ _).trans rfl
        obtain ⟨hbyte, hcomp⟩ := scaleImage_whole (c.g.readQ k d) hb hnb hblock
        refine ⟨hbyte, hcomp, fun l hlo hhi => ?_⟩
        rw [hlane hnb l hlo hhi, hblock]
        exact blockWord_eq hlen hlo _
      · have hblock : rqntPlane c k b = none := by
          unfold rqntPlane
          cases k <;> exact rqntBlocks_partial (fun hall => hpartial (hfull.2 hall)) _ _ _
        obtain ⟨hbyte, hcomp⟩ := scaleImage_partial (c.g.readQ k d) hb hnb hblock
        refine ⟨hbyte, hcomp, fun l hlo hhi => ?_⟩
        rw [hlane hnb l hlo hhi, hblock]
        rfl
  case dqnt =>
    obtain ⟨nf, hexec⟩ := execDqnt_eq hrole h
    show Goes (execDqnt w s) _
    rw [hexec]
    exact goes_mono (goes_laneRegisters s w (VecOnly.dqntGroup c).regsOnly _ nf) fun t ⟨hon, hdraws, hp, hv, hq⟩ =>
      ⟨hon, hdraws.trans (Lane.drawn_eq _ _), hq.trans (VecOnly.dqntGroup c).q, hp, fun k n l hn hl =>
        (congrArg (Bits.lane · l) (Group.readV_congr hv k n)).trans (lane_readV_dqntGroup c hn hl)⟩

end Sys2Proof.Machine
end

section
/-! PROOFS. Where the statement on lane trees fails: on integer types of several slots, which no legal word gives REDUX or SCAN (R166). -/

namespace Sys2Proof.Machine

open Sys2Proof.Safety

/-- A REDUX that sums 16-bit integers, with its immediate as the source and V2 as the destination. Its fields hold 4 as the op of R166,
and so the immediate is 4 as well. -/
def halvesSumWord : LaneWord := { endingWord with srcA := 504, ty := 11, fn := 4 }

/-- Lane `l` of V`n` after an instruction. -/
def laneAfter (r : Result State) (n l : Nat) : LaneW :=
  match r with
  | .next t => Bits.lane (t.group.readV 0 n) l
  | _ => 0

/-- The model sums each half of the lanes on its own. -/
theorem laneAfter_halvesSum : laneAfter (exec (.redux halvesSumWord) (endingState [])) 2 0 = 0x00000004 := by decide +kernel

/-- Refutes O38: of a type with two integer slots the statement takes the whole lane word for the leaf of each slot, so that a REDUX
over one lane that holds 4 would leave 4 in both halves; the model's leaf is the slot, and leaves 4 and 0. R166 allows integer trees
of 32-bit types only, but the statement is of every word. -/
theorem not_laneTrees : ¬ Obligations.LaneTrees := by
  intro h
  obtain ⟨hredux, -⟩ := h halvesSumWord (endingState []) (by decide +kernel)
  obtain ⟨t, ht, ⟨-, -, hroot⟩, -⟩ := hredux (by decide +kernel)
  have hlane := hroot (by decide +kernel) (.inr (by decide +kernel)) 0 0 (Nat.zero_le _) (by decide) (by decide +kernel)
  have hmodel := laneAfter_halvesSum
  rw [ht] at hmodel
  exact absurd (hmodel.symm.trans hlane) (by decide +kernel)

end Sys2Proof.Machine
end

section
/-! PROOFS. The decoder undoes the encoder: the form that the opcode maps give the words of an instruction, and its legality (R63,
R64, R67, R72, R81, R350). -/

namespace Sys2Proof

/-! A word's form. -/

/-- The instruction that the opcode maps name for a code, before its legality. -/
def Code.form (c : Code) : Option Instr :=
  match c with
  | .scalar w => scalarForm w 0
  | .scalarX w x => scalarForm w x
  | .lane w => laneForm (w.extractLsb' 86 10) (LaneWord.ofWord w)
  | .micro w => microForm w

theorem legal_some (opcode : Nat) {i : Instr} (hw : i.wf = true) : legal opcode (some i) = .ok i := if_pos hw

/-- A code decodes to its form when that is well-formed. -/
theorem decode_of_form {c : Code} {i : Instr} (hw : i.wf = true) (hf : c.form = some i) : decode c = .ok i := by
  cases c with
  | scalar w => exact (congrArg (legal _) hf).trans (legal_some _ hw)
  | scalarX w x => exact (congrArg (legal _) hf).trans (legal_some _ hw)
  | lane w => exact (congrArg (legal _) hf).trans (legal_some _ hw)
  | micro w => exact (congrArg (legal _) hf).trans (legal_some _ hw)

/-! The rows that share an opcode: their function bits choose among them. -/

/-- An SR word whose rule names one function value has that value. -/
theorem SrRule.fn_of_ok {d a b n : Nat} {f : SR} (h : SrRule.ok ⟨d, a, b, [n]⟩ f = true) : f.fn.toNat = n := by
  simp only [SrRule.ok, Bool.and_eq_true, List.contains_cons, List.contains_nil, Bool.or_false, beq_iff_eq] at h
  exact h.2

/-- The TRETs share an opcode. -/
theorem scalarForm_trets (f : SR) : scalarForm (f.word 0x23) 0 = trets f := by
  unfold scalarForm
  rw [SR.opcode_word, SR.ofWord_word]
  rfl

theorem trets_tret {f : SR} (h : (Instr.tret f).wf = true) : trets f = some (.tret f) := by
  have hfn : f.fn = 0 := BitVec.eq_of_toNat_eq (SrRule.fn_of_ok h)
  simp [trets, hfn]

theorem trets_tretPark {f : SR} (h : (Instr.tretPark f).wf = true) : trets f = some (.tretPark f) := by
  have hfn : f.fn = 1 := BitVec.eq_of_toNat_eq (SrRule.fn_of_ok h)
  simp [trets, hfn]

theorem trets_tretAbort {f : SR} (h : (Instr.tretAbort f).wf = true) : trets f = some (.tretAbort f) := by
  have hfn : f.fn = 2 := BitVec.eq_of_toNat_eq (SrRule.fn_of_ok h)
  simp [trets, hfn]

/-- LI and LI.hi share an opcode. -/
theorem scalarForm_lis (f : SX) : scalarForm (f.word 0x2E) f.imm = lis f := by
  unfold scalarForm
  rw [SX.opcode_word, SX.ofWords_word]
  rfl

theorem lis_li {f : SX} (h : (Instr.li f).wf = true) : lis f = some (.li f) := by
  simp only [Instr.wf, legalWord, Bool.and_eq_true, beq_iff_eq] at h
  simp [lis, h]

theorem lis_liHi {f : SX} (h : (Instr.liHi f).wf = true) : lis f = some (.liHi f) := by
  simp only [Instr.wf, legalWord, Bool.and_eq_true, beq_iff_eq] at h
  simp [lis, h]

/-- A field that may not hold the immediate does not. -/
theorem SrcKind.ne_imm {k : SrcKind} (hk : k = .any ∨ k = .unused) {f : BitVec 9} (h : k.ok f = true) : f ≠ 504 := by
  rintro rfl
  rcases hk with rfl | rfl <;> exact absurd h (by decide)

/-- The function bits of a lane word without an immediate source are all its own (R73), and its rule accepts those below .nf. -/
theorem LaneRule.fn_of_ok {r : LaneRule} {w : LaneWord} (ha : r.a = .any ∨ r.a = .unused) (hb : r.b = .any ∨ r.b = .unused)
    (h : r.ok w = true) : r.fn (w.fn.toNat % 2 ^ 24) = true := by
  simp only [LaneRule.ok, Bool.and_eq_true] at h
  obtain ⟨⟨⟨⟨⟨⟨⟨⟨⟨⟨⟨⟨-, hsA⟩, hsB⟩, -⟩, -⟩, -⟩, -⟩, -⟩, -⟩, -⟩, hfn⟩, -⟩, -⟩ := h
  have himm : w.immForm = false := by
    rw [LaneWord.immForm, Bool.or_eq_false_iff]
    exact ⟨beq_false_of_ne (SrcKind.ne_imm ha hsA), beq_false_of_ne (SrcKind.ne_imm hb hsB)⟩
  simpa only [LaneWord.func, himm, Bool.false_eq_true, if_false] using hfn

/-- REDUX's .pair is bit 5 of the function bits (R166, R167). -/
theorem LaneWord.getLsbD_fn_five (w : LaneWord) : w.fn.getLsbD 5 = decide (w.fn.toNat % 2 ^ 24 / 32 % 2 = 1) := by
  rw [BitVec.getLsbD, Nat.testBit_eq_decide_div_mod_eq]
  exact decide_eq_decide.2 (by omega)

/-- REDUX and REDUX.pair share an opcode. -/
theorem laneForm_reduxes (w : LaneWord) :
    laneForm ((w.word 0x3C).extractLsb' 86 10) (LaneWord.ofWord (w.word 0x3C)) = reduxes w := by
  rw [LaneWord.opcode_word, LaneWord.ofWord_word]
  rfl

theorem reduxes_redux {w : LaneWord} (h : (Instr.redux w).wf = true) : reduxes w = some (.redux w) := by
  have hfn : w.fn.toNat % 2 ^ 24 < 16 :=
    of_decide_eq_true (LaneRule.fn_of_ok (r := treeRule (w.fn.toNat % 16) (below 16)) (.inl rfl) (.inr rfl) h)
  have hbit : ¬w.fn.toNat % 2 ^ 24 / 32 % 2 = 1 := by omega
  rw [reduxes, w.getLsbD_fn_five, decide_eq_false hbit]
  rfl

theorem reduxes_reduxPair {w : LaneWord} (h : (Instr.reduxPair w).wf = true) : reduxes w = some (.reduxPair w) := by
  have hfn : w.fn.toNat % 2 ^ 24 = 32 := beq_iff_eq.1 (LaneRule.fn_of_ok (.inl rfl) (.inl rfl) h)
  rw [reduxes, w.getLsbD_fn_five, hfn]
  rfl

/-! The micro-operations with fields (R350). -/

/-- Bits laid above others weigh as much more. -/
theorem toNat_append_eq_add {m n : Nat} (x : BitVec m) (y : BitVec n) : (x ++ y).toNat = x.toNat * 2 ^ n + y.toNat := by
  rw [BitVec.toNat_append, ← Nat.shiftLeft_add_eq_or_of_lt y.isLt, Nat.shiftLeft_eq]

theorem microForm_micConv (fmt : BitVec 4) (mode : BitVec 3) :
    microForm ((3 : BitVec 6) ++ (0 : BitVec 19) ++ mode ++ fmt) = some (.micConv fmt mode) := by
  have hlow : (((3 : BitVec 6) ++ (0 : BitVec 19) ++ mode ++ fmt).extractLsb' 0 26).toNat < 2 ^ 7 := by
    simp only [BitVec.extractLsb'_toNat, toNat_append_eq_add, Nat.shiftRight_zero, BitVec.ofNat_eq_ofNat,
      BitVec.toNat_ofNat]
    omega
  simp (disch := omega) only [microForm, hlow, ↓reduceIte, BitVec.extractLsb'_append_eq_of_le,
    BitVec.extractLsb'_append_eq_of_add_le, Nat.reduceSub, Nat.sub_self, BitVec.extractLsb'_eq_self]
  rfl

theorem microForm_micQuant (fmt : BitVec 4) (b16 nansat : BitVec 1) (mode : BitVec 3) :
    microForm ((4 : BitVec 6) ++ (0 : BitVec 17) ++ mode ++ nansat ++ b16 ++ fmt) =
      some (.micQuant fmt b16 nansat mode) := by
  have hlow : (((4 : BitVec 6) ++ (0 : BitVec 17) ++ mode ++ nansat ++ b16 ++ fmt).extractLsb' 0 26).toNat < 2 ^ 9 := by
    simp only [BitVec.extractLsb'_toNat, toNat_append_eq_add, Nat.shiftRight_zero, BitVec.ofNat_eq_ofNat,
      BitVec.toNat_ofNat]
    omega
  simp (disch := omega) only [microForm, hlow, ↓reduceIte, BitVec.extractLsb'_append_eq_of_le,
    BitVec.extractLsb'_append_eq_of_add_le, Nat.reduceSub, Nat.sub_self, BitVec.extractLsb'_eq_self]
  rfl

theorem microForm_micPush (ring : BitVec 4) :
    microForm ((5 : BitVec 6) ++ (0 : BitVec 22) ++ ring) = some (.micPush ring) := by
  have hlow : (((5 : BitVec 6) ++ (0 : BitVec 22) ++ ring).extractLsb' 0 26).toNat < 2 ^ 4 := by
    simp only [BitVec.extractLsb'_toNat, toNat_append_eq_add, Nat.shiftRight_zero, BitVec.ofNat_eq_ofNat,
      BitVec.toNat_ofNat]
    omega
  simp (disch := omega) only [microForm, hlow, ↓reduceIte, BitVec.extractLsb'_append_eq_of_le,
    BitVec.extractLsb'_append_eq_of_add_le, Nat.reduceSub, Nat.sub_self, BitVec.extractLsb'_eq_self]
  rfl

theorem microForm_micStep (coord : BitVec 2) (delta : BitVec 16) :
    microForm ((6 : BitVec 6) ++ coord ++ (0 : BitVec 8) ++ delta) = some (.micStep coord delta) := by
  simp (disch := omega) only [microForm, BitVec.extractLsb'_append_eq_of_le, BitVec.extractLsb'_append_eq_of_add_le,
    Nat.reduceSub, Nat.sub_self, BitVec.extractLsb'_eq_self, ↓reduceIte]
  rfl

theorem microForm_micSetc (ctr : BitVec 2) (n : BitVec 16) :
    microForm ((7 : BitVec 6) ++ ctr ++ (0 : BitVec 8) ++ n) = some (.micSetc ctr n) := by
  simp (disch := omega) only [microForm, BitVec.extractLsb'_append_eq_of_le, BitVec.extractLsb'_append_eq_of_add_le,
    Nat.reduceSub, Nat.sub_self, BitVec.extractLsb'_eq_self, ↓reduceIte]
  rfl

theorem microForm_micLoop (ctr : BitVec 2) (target : BitVec 6) :
    microForm ((8 : BitVec 6) ++ ctr ++ (0 : BitVec 18) ++ target) = some (.micLoop ctr target) := by
  simp (disch := omega) only [microForm, BitVec.extractLsb'_append_eq_of_le, BitVec.extractLsb'_append_eq_of_add_le,
    Nat.reduceSub, Nat.sub_self, BitVec.extractLsb'_eq_self, ↓reduceIte]
  rfl

/-! The forms of all words. -/

/-- The words of a well-formed instruction have it as their form. Each format's opcode picks the row, and its fields are read back
as they were written. -/
theorem form_of_encode {i : Instr} {c : Code} (hw : i.wf = true) (h : encode i = some c) : c.form = some i := by
  cases i
  case add f | sub f | mul f | div f | min f | max f | and f | or f | xor f | shl f | shr f | rotl f | clz f | popc f
      | bfx f | bfi f | cmp f | sel f | jr f | csrr f | csrw f | csrx f | lsync f | uliret f | mld f | mma f | mma2 f
      | mdrain f | mzero f | mmode f | mvnb f | msync f | apset f | apclr f | satom f | scas f | waita f | tlbinv f
      | keyld f | keydel f | shpld f | shpinv f | cset f | cadd f | crd f | pcfg f | launch f | await f | exit f
      | yield f | tbar f | rpush f | rpop f | rwait f | cpy f | gacc f | commit f | coll f | strm f =>
    cases h
    change scalarForm _ _ = _
    unfold scalarForm
    rw [SR.opcode_word, SR.ofWord_word]
    rfl
  case addi f | andi f | ori f | xori f | shli f | shri f | cmpi f | fwait f | fset f | fclr f | trap f =>
    cases h
    change scalarForm _ _ = _
    unfold scalarForm
    rw [SI.opcode_word, SI.ofWord_word]
    rfl
  case pref f =>
    cases h
    change scalarForm _ _ = _
    unfold scalarForm
    rw [SM.opcode_word, SM.ofWord_word]
    rfl
  case br f | loop f =>
    cases h
    change scalarForm _ _ = _
    unfold scalarForm
    rw [SB.opcode_word, SB.ofWord_word]
    rfl
  case lrun f | call f | spawn f =>
    cases h
    change scalarForm _ _ = _
    unfold scalarForm
    rw [SX.opcode_word, SX.ofWords_word]
    rfl
  case lui f | addpc f =>
    cases h
    change scalarForm _ _ = _
    unfold scalarForm
    rw [SU.opcode_word, SU.ofWord_word]
    obtain hbit | hbit : f.imm.extractLsb' 19 1 = 0 ∨ f.imm.extractLsb' 19 1 = 1 := BitVec.eq_zero_or_eq_one _
    all_goals
      rw [hbit]
      rfl
  case sld n f | sst n f =>
    cases h
    change scalarForm _ _ = _
    unfold scalarForm
    rw [SM.opcode_word, SM.ofWord_word]
    match n with
    | 0 | 1 | 2 | 3 => rfl
  case tret f =>
    cases h
    exact (scalarForm_trets f).trans (trets_tret hw)
  case tretPark f =>
    cases h
    exact (scalarForm_trets f).trans (trets_tretPark hw)
  case tretAbort f =>
    cases h
    exact (scalarForm_trets f).trans (trets_tretAbort hw)
  case li f =>
    cases h
    exact (scalarForm_lis f).trans (lis_li hw)
  case liHi f =>
    cases h
    exact (scalarForm_lis f).trans (lis_liHi hw)
  case fadd w | fmul w | ffma w | fmin w | fmax w | fcmp w | fclass w | fexp2 w | flog2 w | frcp w | frsq w | fsqrt w
      | fsin w | fcos w | ftanh w | frnd w | fscl w | fexpo w | fdot w | mxdot w | idot w | iadd w | isub w | imul w
      | imad w | imulh w | imin w | imax w | icmp w | iand w | ior w | ixor w | ishl w | ishr w | ipopc w | iclz w
      | ibfx w | cvt w | pack w | unpk w | rqnt w | dqnt w | qmov w | qset w | qget w | plop w | pset w | pmov w | mov w
      | movx w | selLane w | shfl w | vote w | bcast w | scan w | bra w | stop w | tget w | tset w | tclr w | tswp w
      | ld w | st w | ldx w | stx w | lds w | sts w | ldq w | stq w | atom w | acas w | ared w | spawnl w | rng w =>
    cases h
    change laneForm _ _ = _
    rw [LaneWord.opcode_word, LaneWord.ofWord_word]
    rfl
  case redux w =>
    cases h
    exact (laneForm_reduxes w).trans (reduxes_redux hw)
  case reduxPair w =>
    cases h
    exact (laneForm_reduxes w).trans (reduxes_reduxPair hw)
  case micEnd | micLoad | micXpose | micZero =>
    cases h
    rfl
  case micConv fmt mode =>
    cases h
    exact microForm_micConv fmt mode
  case micQuant fmt b16 nansat mode =>
    cases h
    exact microForm_micQuant fmt b16 nansat mode
  case micPush ring =>
    cases h
    exact microForm_micPush ring
  case micStep coord delta =>
    cases h
    exact microForm_micStep coord delta
  case micSetc ctr n =>
    cases h
    exact microForm_micSetc ctr n
  case micLoop ctr target =>
    cases h
    exact microForm_micLoop ctr target
  all_goals cases h -- the events have no word

/-- Settles O59: the words of an instruction have it as their form, and it is legal. -/
theorem decodeOfEncode : Obligations.DecodeOfEncode := fun _ _ hw h => decode_of_form hw (form_of_encode hw h)

/-- Settles O57: each word is decoded. -/
theorem decodedWords : Obligations.DecodedWords := by
  unfold Obligations.DecodedWords
  decide

end Sys2Proof
end

section
/-! PROOFS. The control transfers of the scalar stream (R65, R121 to R124), and instructions outside the mode or state that they
need (R82, R220, R225). -/

namespace Sys2Proof.Machine

open Sys2Proof.Safety

/-! Branches (R65). -/

/-- The offset of a branch counts words and has a sign. -/
theorem branchTarget_eq (g : Group) (f : SB) : branchTarget g f = r65target g.pc f.off := by
  rw [branchTarget, r65target, BitVec.ofInt_add, BitVec.ofInt_natCast, BitVec.ofNat_toNat, BitVec.setWidth_eq, Int.mul_comm,
    BitVec.ofInt_mul, BitVec.signExtend, BitVec.shiftLeft_eq_mul_twoPow]
  rfl

/-- A word that is positive as a signed number. -/
theorem pos_iff_msb (x : Word) : (!x.msb && x != 0) = decide (0 < x.toInt) := by
  have hz : x = 0 ↔ x.toInt = 0 := ⟨fun h => by rw [h]; rfl, fun h => BitVec.eq_of_toInt_eq h⟩
  rw [BitVec.msb_eq_toInt, bne, Bool.eq_iff_iff]
  simp only [Bool.and_eq_true, Bool.not_eq_true', decide_eq_false_iff_not, beq_eq_false_iff_ne, ne_eq, hz, decide_eq_true_eq]
  omega

/-- The conditions of BR that test a register. -/
theorem branchTest_eq_r65 {c : Nat} (hc : c ≤ 6) (x : Word) : branchTest c x = r65 c x := by
  match c, hc with
  | 0, _ | 1, _ | 2, _ => rfl
  | 3, _ => exact BitVec.msb_eq_toInt
  | 4, _ =>
    rw [branchTest, r65, BitVec.msb_eq_toInt, ← decide_not]
    exact decide_eq_decide.2 Int.not_lt
  | 5, _ => exact pos_iff_msb x
  | 6, _ =>
    have h := congrArg not (pos_iff_msb x)
    rw [Bool.not_and, Bool.not_not, bne, Bool.not_not, ← decide_not] at h
    exact h.trans (decide_eq_decide.2 Int.not_lt)

/-- A branch that tests its register goes on, to its target or to the next word. -/
theorem exec_br_register {b : SB} {s : State} (h : Free s [b.src.toNat]) (hc : b.cond.toNat ≤ 6) :
    exec (.br b) s = .next (if r65 b.cond.toNat (s.group.readS b.src.toNat)
      then s.setGroup (s.group.jump (r65target s.group.pc b.off)) else movedOn s 4) := by
  show execBr b s = _
  rw [execBr, scalarInstr_free h]
  refine congrArg Host.Outcome.next ?_
  have hflag : ¬8 ≤ b.cond.toNat := by omega
  rw [← branchTest_eq_r65 hc, ← branchTarget_eq]
  simp only [hflag, decide_false, Bool.false_and, Bool.false_eq_true, if_false]
  split <;> rfl

/-- A branch on a flag that reads clear observes it. -/
theorem exec_br_flag {b : SB} {s : State} (h : Free s [b.src.toNat]) (hc : 8 ≤ b.cond.toNat) :
    exec (.br b) s = .next (if s.group.flagSet (b.cond.toNat - 8)
      then s.setGroup (s.group.jump (r65target s.group.pc b.off)) else observeClear (movedOn s 4)) := by
  show execBr b s = _
  rw [execBr, scalarInstr_free h]
  refine congrArg Host.Outcome.next ?_
  rw [← branchTarget_eq]
  simp only [hc, decide_true, Bool.true_and, if_true]
  cases s.group.flagSet (b.cond.toNat - 8) <;> rfl

/-- LOOP goes back while its register, less one, is positive. -/
theorem exec_loop {b : SB} {s : State} (h : Free s [b.src.toNat]) :
    exec (.loop b) s = .next (
      let a := b.src.toNat
      let g := s.group.writeS a (s.group.readS a - 1)
      if 0 < (s.group.readS a - 1).toInt then s.setGroup (g.jump (r65target s.group.pc b.off)) else s.setGroup (g.advance 4)) := by
  show execLoop b s = _
  rw [execLoop, scalarInstr_free h]
  refine congrArg Host.Outcome.next ?_
  rw [← branchTarget_eq]
  simp only [pos_iff_msb, decide_eq_true_eq]
  split <;> rfl

/-- An address's word: without its low two bits. -/
theorem wordAddress_eq (x : Word) : x.setWidth 56 &&& ~~~3 = BitVec.ofNat 56 (x.toNat / 4 * 4) := by
  have hshift : x.toNat / 4 * 4 = (x.toNat >>> 2) <<< 2 := by rw [Nat.shiftRight_eq_div_pow, Nat.shiftLeft_eq]
  have hthree (i : Nat) : (3 : BitVec 56).getLsbD i = decide (i < 2) := by
    rw [show (3 : BitVec 56) = BitVec.ofNat 56 (2 ^ 2 - 1) from rfl, BitVec.getLsbD_ofNat, Nat.testBit_two_pow_sub_one,
      ← Bool.decide_and]
    exact decide_eq_decide.2 (by omega)
  refine BitVec.eq_of_getLsbD_eq fun i hi => ?_
  rw [hshift, BitVec.getLsbD_and, BitVec.getLsbD_not, hthree, BitVec.getLsbD_setWidth, BitVec.getLsbD_ofNat, Nat.testBit_shiftLeft,
    Nat.testBit_shiftRight]
  by_cases h2 : i < 2
  · simp [h2, Nat.not_le.2 h2]
  · simp [h2, hi, Nat.le_of_not_lt h2, Nat.add_sub_cancel' (Nat.le_of_not_lt h2), BitVec.getLsbD]

/-- BR's reserved conditions are illegal, and so is a register where its condition tests none (R65, R121). -/
theorem br_illegal {b : SB}
    (h : b.cond.toNat = 7 ∨ 20 ≤ b.cond.toNat ∨ ((b.cond.toNat = 0 ∨ 8 ≤ b.cond.toNat) ∧ b.src ≠ 0)) :
    (Instr.br b).wf = false := by
  have hsrc : b.src ≠ 0 → (b.src == 0) = false := beq_false_of_ne
  change brOk b = false
  simp only [brOk, Bool.or_eq_true, Bool.and_eq_true, beq_iff_eq, decide_eq_true_eq]
  split
  · exact hsrc (h.resolve_left (by omega) |>.resolve_left (by omega)).2
  · rw [← Bool.decide_and]
    exact decide_eq_false (by omega)

/-- Settles O5: with its registers not awaited each transfer is its body. -/
theorem controlTransferResult : Obligations.ControlTransferResult := by
  intro b f x s
  refine ⟨fun h => ⟨fun hc => exec_br_register h hc, fun hc _ => exec_br_flag h hc, exec_loop h⟩, br_illegal, fun h => ?_,
    fun h => ?_, fun h => ?_, fun h => ?_⟩
  · simp [Instr.wf, legalWord, h]
  · simp [Instr.wf, legalWord, h]
  · show execJr f s = _
    rw [execJr, scalarInstr_free h, wordAddress_eq]
    rfl
  · show execCall x s = _
    rw [execCall, scalarInstr_free h]
    rfl

/-! Instructions outside their mode or state (R82). -/

/-- A trap for the mode or the state (R82). -/
theorem traps_trapPriv {s : State} (hlane : s.cur.lane = none) (h : TrapsToHandler s) : Traps (trapPriv s) s 2 0 0 := by
  rw [trapPriv, streamMask_scalar hlane]
  exact traps_takeTrap hlane h .privop 0 0

/-- In user mode an instruction of the system traps. -/
theorem systemInstr_user {regs : List Nat} {s : State} {body : Group → Result State} (h : Free s regs)
    (hp : s.group.priv = false) : systemInstr regs s body = trapPriv s :=
  (scalarInstr_free h).trans (if_neg (by simp [hp]))

/-- Outside handler state a TRET traps (R220). -/
theorem tretInstr_outside {s : State} {body : Group → Result State} (h : Free s []) (hh : s.group.handler = false) :
    tretInstr s body = trapPriv s :=
  (scalarInstr_free h).trans (if_pos (by simp [hh]))

/-- In user mode the instructions of the system trap (R297, R298). -/
theorem exec_system_user {f : SR} {s : State} (hfree : Free s [f.src1.toNat]) (hp : s.group.priv = false) :
    ∀ i ∈ [Instr.tlbinv f, .keyld f, .keydel f], exec i s = trapPriv s := by
  simp only [List.forall_mem_cons, List.not_mem_nil, false_implies, implies_true, and_true]
  exact ⟨show execTlbinv f s = _ from systemInstr_user hfree hp,
    show execKeyld f s = _ from systemInstr_user hfree hp,
    show execKeydel f s = _ from systemInstr_user (free_mono hfree (by simp)) hp⟩

/-- Outside handler state every TRET traps (R220). -/
theorem exec_tret_outside {f : SR} {s : State} (hfree : Free s []) (hh : s.group.handler = false) :
    ∀ i ∈ [Instr.tret f, .tretPark f, .tretAbort f], exec i s = trapPriv s := by
  simp only [List.forall_mem_cons, List.not_mem_nil, false_implies, implies_true, and_true]
  exact ⟨show execTret f s = _ from tretInstr_outside hfree hh,
    show execTretPark f s = _ from tretInstr_outside hfree hh,
    show execTretAbort f s = _ from tretInstr_outside hfree hh⟩

/-- Outside interrupt state ULIRET traps (R225). -/
theorem exec_uliret_outside {f : SR} {s : State} (hfree : Free s []) (hi : s.group.intState = false) :
    exec (.uliret f) s = trapPriv s := by
  show execUliret f s = _
  rw [execUliret, scalarInstr_free hfree]
  exact if_neg (ne_true_of_eq_false hi)

/-- Settles O12: each of them finds its mode or state missing. -/
theorem privilegeTraps : Obligations.PrivilegeTraps := by
  intro f s g hfree hlane hto
  have htraps := traps_trapPriv hlane hto
  have hsrc : Free s [f.src1.toNat] := free_mono hfree (by simp)
  have hnone : Free s [] := free_mono hfree (by simp)
  exact ⟨fun hp i hi => (exec_system_user hsrc hp i hi).symm ▸ htraps,
    fun i hi => (exec_tret_outside hnone hto.1 i hi).symm ▸ htraps,
    fun hi => (exec_uliret_outside hnone hi).symm ▸ htraps⟩

end Sys2Proof.Machine
end

section
/-! PROOFS. Branches of the lane stream (R78, R168, R169) and the end of a split (R171). -/

namespace Sys2Proof.Machine

open Sys2Proof.Safety

/-! What a change of the streams leaves. -/

/-- A change of the streams alone keeps every register, flag and byte of memory. -/
theorem kept_of_streamOnly {s : State} {h : Group} (hh : StreamOnly s.group h) :
    LaneKept s (s.setGroup h) ∧ SameFlags s.group (s.setGroup h).group ∧ (s.setGroup h).group.v = s.group.v ∧
      (s.setGroup h).group.q = s.group.q ∧ (s.setGroup h).group.p = s.group.p ∧
      (s.setGroup h).group.draws = s.group.draws := by
  unfold LaneKept
  rw [State.group_setGroup]
  obtain ⟨_, _, _, _, _, rfl⟩ := hh
  exact ⟨⟨rfl, rfl, rfl, ⟨rfl, rfl, rfl, rfl, rfl, rfl, rfl, rfl, rfl, rfl, rfl, rfl, rfl⟩,
    ⟨rfl, rfl, rfl, rfl, rfl, rfl, rfl, rfl, rfl⟩, rfl, (onlyGroup_setGroup s _).2⟩, fun _ => rfl, rfl, rfl, rfl, rfl⟩

theorem SplitsOnly.stepSplit {g h : Group} (hgh : SplitsOnly g h) (i : Nat) (hold : List Stream) :
    StreamOnly g (h.stepSplit i hold) := by
  obtain ⟨_, _, _, _, _, hstep⟩ := StreamOnly.stepSplit h i hold
  obtain ⟨_, _, _, -, rfl⟩ := hgh
  exact ⟨_, _, _, _, _, hstep⟩

/-- At the end of a clause only the split itself moves on, unless the clause stops it. -/
theorem Group.splitAt_stepSplit_other {g : Group} {i n : Nat} (hn : n ≠ i) (h : (g.splitAt i).atLast = true)
    (hstop : (g.splitAt i).hdr.stop = false) (hold : List Stream) : (g.stepSplit i hold).splitAt n = g.splitAt n := by
  simp [Group.stepSplit, h, hstop, Group.splitAt_putSplit_ne g hn]

/-! A divergence (R169). -/

/-- The lowest free index names a free split. -/
theorem Group.freeIndex_spec {g : Group} {n : Nat} (h : g.freeIndex = some n) : n < 4 ∧ (g.splitAt n).valid = false :=
  ⟨List.mem_range.1 (List.mem_of_find?_eq_some h), by simpa using List.find?_some h⟩

/-- The branching split of a divergence: its other lanes and the stack that they reconverge by. -/
def Split.untaken (x : Split) (taken : Mask) (js : List Join) : Split := { x with mask := x.mask &&& ~~~taken, joins := js }

/-- With a free entry and room in the stack the taken lanes become a split of their own, at the target. -/
theorem Group.diverge_free {g : Group} {i n : Nat} {x : Split} {taken : Mask} {r : BitVec 32} (hx : x = g.splitAt i)
    (hfree : g.freeIndex = some n) (hroom : (joinsFor g x r).length ≤ 8) (target : BitVec 32) :
    ∃ y : Split, y.valid = true ∧ y.mask = taken ∧ y.addr = target ∧ y.joins = (joinsFor g x r).map Join.bare ∧
      g.diverge i taken r target = some ((g.putSplit i (x.untaken taken (joinsFor g x r))).putSplit n y) := by
  subst hx
  simp only [Group.diverge, hfree, if_neg (Nat.not_lt.2 hroom)]
  exact ⟨_, rfl, rfl, rfl, rfl, rfl⟩

/-- Of two splits put into a table, the one at the end of its clause moves on and the other stands. -/
theorem Group.splitAt_stepSplit_two (g : Group) {i n : Nat} (hi : i < g.splits.length) (hn : n < g.splits.length) (hni : n ≠ i)
    {x y : Split} (hlast : x.atLast = true) (hstop : x.hdr.stop = false) (hold : List Stream) :
    (((g.putSplit i x).putSplit n y).stepSplit i hold).splitAt n = y ∧
    (((g.putSplit i x).putSplit n y).stepSplit i hold).splitAt i =
      { x with addr := x.fallThrough, index := 15, age := 0, hold := hold } := by
  have hlen : (g.putSplit i x).splits.length = g.splits.length := (SplitsOnly.putSplit g i x).length
  have hlen2 : ((g.putSplit i x).putSplit n y).splits.length = g.splits.length := (SplitsOnly.putSplit _ n y).length.trans hlen
  have hx : ((g.putSplit i x).putSplit n y).splitAt i = x :=
    (Group.splitAt_putSplit_ne _ hni.symm y).trans (Group.splitAt_putSplit_same g (.inr hi) x)
  have hy : ((g.putSplit i x).putSplit n y).splitAt n = y := Group.splitAt_putSplit_same _ (.inr (hlen.symm ▸ hn)) y
  rw [Group.splitAt_stepSplit_other hni (hx.symm ▸ hlast) (hx.symm ▸ hstop),
    Group.splitAt_stepSplit_last (.inr (hlen2.symm ▸ hi)) (hx.symm ▸ hlast) (hx.symm ▸ hstop), hx, hy]
  exact ⟨rfl, rfl⟩

/-! BRA (R168, R169). -/

/-- A branch that all lanes take goes to its target. -/
theorem exec_bra_taken {w : LaneWord} {s : State} {c : Lane} (hc : laneOf s w = c) (hlast : c.sp.atLast = true)
    (hact : c.act = c.sp.mask) :
    exec (.bra w) s = .next (s.setGroup (s.group.putSplit c.i { c.sp with
      addr := c.sp.addr + (braOffset w).2, index := 15, age := 0, hold := yieldHold s s.group c.i c.sp })) := by
  subst hc
  show execBra w s = _
  simp only [execBra, hlast, hact, Bool.not_true, Bool.false_eq_true, if_false, if_true]
  rfl

/-- A branch that no lane takes is the end of its clause. -/
theorem exec_bra_untaken {w : LaneWord} {s : State} {c : Lane} (hc : laneOf s w = c) (hlast : c.sp.atLast = true)
    (hact : c.act ≠ c.sp.mask) (hnone : c.act = 0) :
    exec (.bra w) s = .next (s.setGroup (s.group.stepSplit c.i (yieldHold s s.group c.i c.sp))) := by
  subst hc
  show execBra w s = _
  simp only [execBra, hlast, Bool.not_true, Bool.false_eq_true, if_false]
  rw [if_neg hact, if_pos hnone]
  rfl

/-- A branch that some lanes take is the end of its clause in the table that the divergence leaves. -/
theorem exec_bra_diverge {w : LaneWord} {s : State} {c : Lane} {h : Group} (hc : laneOf s w = c) (hlast : c.sp.atLast = true)
    (hact : c.act ≠ c.sp.mask) (hsome : c.act ≠ 0) (hi : c.i ≠ 4) (hfree : s.group.freeIndex ≠ none)
    (hh : s.group.diverge c.i c.act (c.sp.addr + (braOffset w).1) (c.sp.addr + (braOffset w).2) = some h) :
    exec (.bra w) s = .next (s.setGroup (h.stepSplit c.i (yieldHold s s.group c.i c.sp))) := by
  subst hc
  show execBra w s = _
  simp only [execBra, hlast, Bool.not_true, Bool.false_eq_true, if_false]
  rw [if_neg hact, if_neg hsome, if_neg hi, show (laneOf s w).g.diverge _ _ _ _ = _ from hh]
  exact congrArg Host.Outcome.next (if_neg hfree)

/-! STOP (R171). -/

/-- A fusion makes no split of a free entry. -/
theorem Group.splitAt_fuse_free (g : Group) (i : Nat) {n : Nat} (h : (g.splitAt n).valid = false) :
    (g.fuse i).splitAt n = g.splitAt n := by
  rcases g.fuse_cases i with hf | ⟨j, _, all, low, y, hvalid, -, hmem, -, hlow, -, hf⟩
  · rw [hf]
  · have hn : n ∉ all := by
      rw [hmem]
      rintro (rfl | ⟨-, -, hn, -⟩)
      · exact absurd (hvalid.symm.trans h) (by decide)
      · exact absurd (hn.symm.trans h) (by decide)
    rw [hf, Group.splitAt_putSplit_ne _ (fun he => hn (by rw [he]; exact hlow)), Group.splitAt_freeBut_of_notMem _ _ hn]

theorem Group.splitAt_settle_free (g : Group) {n : Nat} (h : (g.splitAt n).valid = false) : g.settle.splitAt n = g.splitAt n := by
  unfold Group.settle
  generalize List.range 4 = l
  induction l generalizing g with
  | nil => rfl
  | cons i l ih =>
    have hi := g.splitAt_fuse_free i h
    exact (ih (g.fuse i) (hi ▸ h)).trans hi

/-- The table of a group whose split has stopped. -/
def Group.afterStop (g : Group) (i : Nat) : Group := (g.freeSplit i).settle

theorem SplitsOnly.afterStop (g : Group) (i : Nat) : SplitsOnly g (g.afterStop i) :=
  (SplitsOnly.freeSplit g i).trans (.settle _)

/-- A split that stops is free afterwards, and so is one that was free before. -/
theorem Group.valid_afterStop {g : Group} {i n : Nat} (hi : i < g.splits.length) (h : n = i ∨ (g.splitAt n).valid = false) :
    ((g.afterStop i).splitAt n).valid = false := by
  have hfree : ((g.freeSplit i).splitAt n).valid = false := by
    by_cases hn : n = i
    · have hlen : i < (g.orphanOps i 9).splits.length := (SplitsOnly.orphanOps g i 9).length.symm ▸ hi
      rw [hn, Group.freeSplit, Group.splitAt_putSplit_same _ (.inr hlen)]
      rfl
    · exact (congrArg Split.valid (Group.splitAt_putSplit_ne _ hn _)).trans (h.resolve_left hn)
  rw [Group.afterStop, Group.splitAt_settle_free _ hfree]
  exact hfree

/-- A table has a split exactly when one of its entries is valid. -/
theorem Group.any_valid_eq_false {g : Group} (hlen : g.splits.length = 4) (h : ∀ j, j < 4 → (g.splitAt j).valid = false) :
    g.splits.any (·.valid) = false := by
  rw [List.any_eq_false]
  intro x hx
  obtain ⟨j, hj, rfl⟩ := List.getElem_of_mem hx
  have hvalid := h j (hlen ▸ hj)
  rw [Group.splitAt, if_neg (by omega), List.getElem?_eq_getElem hj] at hvalid
  exact ne_true_of_eq_false hvalid

theorem exec_stop_last {w : LaneWord} {s : State} {c : Lane} (hc : laneOf s w = c) (hlast : c.sp.atLast = true)
    (hjoins : c.sp.joins = []) : exec (.stop w) s = .next (s.setGroup ((s.group.afterStop c.i).programEnd c.i)) := by
  subst hc
  have hstop : stopJoins ((laneOf s w).g.splitAt (laneOf s w).i) ((laneOf s w).g.splitAt (laneOf s w).i).joins = none :=
    (congrArg (stopJoins _) hjoins).trans rfl
  show execStop w s = _
  simp only [execStop, hlast, Bool.not_true, Bool.false_eq_true, if_false, Group.stopSplit, hstop]
  rfl

/-- The end of a program touches no split. -/
theorem Group.splitAt_programEnd (g : Group) (i n : Nat) : (g.programEnd i).splitAt n = g.splitAt n := by
  unfold Group.programEnd
  split
  · rfl
  · split <;> rfl

/-- A program whose last split has stopped leaves the queue (R312). -/
theorem Group.laneQ_programEnd {g : Group} {i : Nat} (hi : i ≠ 4) (h : g.splits.any (·.valid) = false) :
    (g.programEnd i).laneQ = g.laneQ.drop 1 := by
  rw [Group.programEnd, if_neg hi, if_neg (ne_true_of_eq_false h)]

/-- Settles O39: each outcome of BRA and STOP is a change of the split table, read entry by entry. -/
theorem laneBranches : Obligations.LaneBranches := by
  intro w s
  dsimp only
  have hsp : (laneOf s w).sp = s.group.splitAt (laneOf s w).i := rfl
  generalize hc : laneOf s w = c at hsp ⊢
  intro hlast hi hlen
  have hi4 : c.i ≠ 4 := by omega
  have hin : c.i = 4 ∨ c.i < s.group.splits.length := .inr (hlen ▸ hi)
  refine ⟨fun hact => ?_, fun hact hnone => ?_, fun n hact hsome hfree hroom hvalid => ?_, fun hjoins => ?_⟩
  · refine ⟨_, exec_bra_taken hc hlast hact, kept_of_streamOnly (SplitsOnly.putSplit _ c.i _).streamOnly, ?_⟩
    rw [State.group_setGroup, Group.splitAt_putSplit_same _ hin]
    exact ⟨rfl, rfl, rfl, fun j _ hj => Group.splitAt_putSplit_ne _ hj _⟩
  · refine ⟨_, exec_bra_untaken hc hlast hact hnone, kept_of_streamOnly (.stepSplit _ c.i _), fun hstop => ?_⟩
    rw [hsp] at hlast hstop ⊢
    rw [State.group_setGroup, Group.splitAt_stepSplit_last hin hlast hstop]
    exact ⟨rfl, rfl⟩
  · obtain ⟨hn, hinvalid⟩ := Group.freeIndex_spec hfree
    have hni : n ≠ c.i := by
      rintro rfl
      exact absurd (hvalid.symm.trans (hsp ▸ hinvalid)) (by decide)
    obtain ⟨y, hyvalid, hymask, hyaddr, hyjoins, hdiverge⟩ :=
      Group.diverge_free (taken := c.act) hsp hfree hroom (c.sp.addr + (braOffset w).2)
    refine ⟨_, exec_bra_diverge hc hlast hact hsome hi4 (by simp [hfree]) hdiverge,
      kept_of_streamOnly (((SplitsOnly.putSplit _ c.i _).trans (.putSplit _ n y)).stepSplit c.i _), fun hstop => ?_⟩
    obtain ⟨hsn, hsi⟩ := Group.splitAt_stepSplit_two s.group (x := c.sp.untaken c.act _) (y := y) (hlen ▸ hi) (hlen ▸ hn) hni
      hlast hstop (yieldHold s s.group c.i c.sp)
    rw [State.group_setGroup, hsn, hsi]
    exact ⟨hymask, hyaddr, hyvalid, rfl, rfl, hyjoins⟩
  · refine ⟨_, exec_stop_last hc hlast hjoins, kept_of_streamOnly ((SplitsOnly.afterStop _ c.i).programEnd c.i), ?_⟩
    rw [State.group_setGroup, Group.splitAt_programEnd]
    refine ⟨Group.valid_afterStop (hlen ▸ hi) (.inl rfl), fun hothers => ?_⟩
    have hnone (j : Nat) (hj : j < 4) : ((s.group.afterStop c.i).splitAt j).valid = false :=
      Group.valid_afterStop (hlen ▸ hi) (or_iff_not_imp_left.2 (hothers j hj))
    rw [Group.laneQ_programEnd hi4 (Group.any_valid_eq_false ((SplitsOnly.afterStop _ c.i).length.trans hlen) hnone)]
    obtain ⟨_, _, _, -, hafter⟩ := SplitsOnly.afterStop s.group c.i
    rw [hafter]

end Sys2Proof.Machine
end

section
/-! PROOFS. Where the statement on the return from a trap fails: at a group that stands under another group's key (R100, R229). -/

namespace Sys2Proof.Machine

open Sys2Proof.Safety

/-! TRET.park (R222, R227): the record that it writes is the one of the group whose own key is the issuing stream's. -/

/-- A save area's bytes in pages that are all reached are stored one by one. -/
theorem storeReached_eq_storeFrom {ps : List PagePlace} {va : Nat} {bs : List Byte} (s : State) (die : Nat)
    (h : ∀ j, j < bs.length → (ps.any fun p => p.page == (va + j) % 2 ^ 56 / 65536) = true) :
    storeReached s die ps va bs = storeFrom s die ps va 0 bs := by
  refine List.foldl_ext _ _ _ fun t b hb => ?_
  have hj : b.2 < bs.length := by simpa using List.snd_lt_of_mem_zipIdx hb
  rw [if_pos (h b.2 hj)]

/-- The state in which a parking group has its slot no more, before its record is written. -/
def parkedState (s s1 : State) (tk : Nat) (h : Group) : State :=
  { (s1.putTeam tk { s.teamAt tk with hidden := s1.free }).putGroup s.cur.key h.park with
    free := s1.free + (areaMap (s.setGroup h.park) tk).size }

/-- TRET.park stores the parts of a record into the pages that were reached. -/
theorem exec_tretPark {f : SR} {s s1 : State} {tk o : Nat} {h x : Group} {ps : List PagePlace} (hfree : Free s [])
    (hhandler : s.group.handler = true) (hq : s.group.handlerQ = []) (hsplit : s.group.hsplit.valid = false)
    (hops : s.group.scalarOps = []) (hcan : canPark s s.group = true) (hh : s.group.leaveTrap s.grid = h) (htk : h.teamKey = tk)
    (hrec : (areaMap (s.setGroup h.park) tk).records.find? (fun r => r.2.key == s.cur.key) = some (o, x))
    (hpages : areaPages s h.die true (areaAddrs ((saveBase s tk + o) % 2 ^ 56) (recordBytes x)) = (ps, none, s1)) :
    exec (.tretPark f) s = .next ((recordImage (parkedState s s1 tk h) { s.teamAt tk with hidden := s1.free } x o).foldl
      (fun t y => storeReached t h.die ps (saveBase s tk + y.1) y.2) (parkedState s s1 tk h)) := by
  subst htk hh
  show execTretPark f s = _
  rw [execTretPark, tretInstr, scalarInstr_free hfree]
  simp only [hhandler, hq, hsplit, hops, hcan, Bool.not_true, Bool.false_eq_true, ne_eq, not_true_eq_false, or_self, if_false, if_true]
  simp only [State.setGroup] at hrec
  simp only [parkInArea, hrec, hpages]
  rfl

/-! A handler that parks a group whose number within its grid is 1, but which stands where group 0 belongs; group 0, with another
value in S1, stands in its place. -/

/-- Both groups in handler state, with no lane registers, and a save area whose second record begins 4 KiB into page 2. -/
def strayState : State :=
  let s := writeNat (State.reset.withFetchWord 64 0) 0xE010 8 0xC400000000003260
  let s := { s with cur := ⟨keyOf 1 0, none⟩ }
  let s := s.putGrid 1 { s.gridAt 1 with record := { (s.gridAt 1).record with savePool := 2 ^ 56 - 487424 } }
  let g := { s.group with handler := true, alloc := 0 }
  (s.setGroup { g with serial := 1 }).putGroup (keyOf 1 1) { g with s := [(1, 1)] }

/-- The group whose own key is the issuing stream's. -/
def strayGroup : Group := strayState.groupAt (keyOf 1 1)

/-- The group that parks, back from its handler. -/
def strayParked : Group := strayState.group.leaveTrap strayState.grid

/-- Page 2 as an engine reaches it. -/
def strayPages : List PagePlace := [⟨2, 0x30000, 0xC400000000003260⟩]

/-- The state that the translation of the record's pages leaves. -/
def strayReached : State := (areaPages strayState 0 true [0x21000]).2.2

theorem strayState_record :
    (areaMap (strayState.setGroup strayParked.park) (keyOf 1 0)).records.find? (fun r => r.2.key == strayState.cur.key) =
      some (622592, strayGroup) := by decide +kernel

theorem strayState_pages :
    areaPages strayState strayParked.die true
      (areaAddrs ((saveBase strayState (keyOf 1 0) + 622592) % 2 ^ 56) (recordBytes strayGroup)) =
      (strayPages, none, strayReached) := by
  have haddrs : areaAddrs ((saveBase strayState (keyOf 1 0) + 622592) % 2 ^ 56) (recordBytes strayGroup) = [0x21000] := by
    decide +kernel
  have hdie : strayParked.die = 0 := by decide +kernel
  rw [haddrs, hdie]
  exact Prod.ext (by decide +kernel) (Prod.ext (by decide +kernel) rfl)

/-- The record's bytes lie in page 2, one after another. -/
theorem stray_place {k j : Nat} (h : k + j < 4096) :
    (reachAddr strayPages ((saveBase strayState (keyOf 1 0) + (622592 + k) + j) % 2 ^ 56)).1 = 0x31000 + (k + j) ∧
      (strayPages.any fun p => p.page == (saveBase strayState (keyOf 1 0) + (622592 + k) + j) % 2 ^ 56 / 65536) = true := by
  have hbase : saveBase strayState (keyOf 1 0) = 2 ^ 56 - 487424 := by decide +kernel
  have haddr : (saveBase strayState (keyOf 1 0) + (622592 + k) + j) % 2 ^ 56 = 0x21000 + (k + j) := by omega
  have hpage : (0x21000 + (k + j)) / 65536 = 2 := by omega
  rw [haddr]
  simp only [reachAddr, strayPages, List.find?_cons, List.any_cons, hpage]
  refine ⟨?_, rfl⟩
  show 0x30000 + (0x21000 + (k + j)) % 65536 = _
  omega

/-- S1 stands in a record from byte 8 on (R229). -/
theorem Group.visibleImage_eight (g : Group) : g.visibleImage[8]? = some (BitVec.ofNat 8 (g.readS 1).toNat) := rfl

theorem Team.hiddenBlock_length (t : Team) (o : Nat) {n : Nat} (h : 4 ≤ n) : (t.hiddenBlock o n).length = n := by
  simp only [Team.hiddenBlock, Team.openBytes, List.length_append, List.length_map, List.length_range, leBytes_length]
  omega

/-- The parts of the other group's record, which has no lane registers. -/
theorem recordImage_strayGroup (s : State) (t : Team) :
    recordImage s t strayGroup 622592 =
      [(622592, strayGroup.visibleImage), (622592 + 0x400, t.hiddenBlock (622592 + 0x400) 3072), (622592 + 0x1000, [])] := by
  have hresident : strayGroup.frame.bind (·.evicted) = none := by decide +kernel
  have hregisters : strayGroup.registerImage = [] := by decide +kernel
  simp only [recordImage, State.savedRegisters, hresident, hregisters]

/-- Byte 8 of the record is S1 of the other group. -/
theorem readByte_strayRecord (s : State) (t : Team) (d : Nat) :
    readByte ((recordImage s t strayGroup 622592).foldl
      (fun u y => storeReached u d strayPages (saveBase strayState (keyOf 1 0) + y.1) y.2) s) 0x31008 = 1 := by
  have hvisible : strayGroup.visibleImage.length = 1024 := by decide +kernel
  have hhidden : (t.hiddenBlock (622592 + 0x400) 3072).length = 3072 := t.hiddenBlock_length _ (by decide)
  have hfirst (j : Nat) (h : j < 1024) :
      (reachAddr strayPages ((saveBase strayState (keyOf 1 0) + 622592 + (0 + j)) % 2 ^ 56)).1 = 0x31000 + j := by
    rw [Nat.zero_add]
    exact (stray_place (k := 0) (by omega)).1.trans (by omega)
  rw [recordImage_strayGroup]
  simp only [List.foldl_cons, List.foldl_nil]
  rw [storeReached_eq_storeFrom _ _ (by simp), storeReached_eq_storeFrom _ _ fun j hj => (stray_place (k := 0x400) (by omega)).2,
    storeReached_eq_storeFrom _ _ fun j hj => (stray_place (k := 0) (by omega)).2,
    show ∀ u, storeFrom u d strayPages _ 0 [] = u from fun _ => rfl, readByte_storeFrom_outside]
  · have hread := readByte_storeFrom_inside s d strayPages (saveBase strayState (keyOf 1 0) + 622592) 0 (fun j l hj hl he => by
      rw [hfirst j (hvisible ▸ hj), hfirst l (hvisible ▸ hl)] at he
      omega) strayGroup.visibleImage_eight
    rw [hfirst 8 (by decide)] at hread
    exact hread.trans (by decide +kernel)
  · intro j hj
    rw [Nat.zero_add, (stray_place (k := 0x400) (by omega)).1]
    omega

/-- A byte of the record by its offset in the save area. -/
theorem stray_byte {i : Nat} (hlow : 622592 ≤ i) (hhigh : i < 622592 + recordBytes strayGroup) :
    (reachAddr strayPages ((saveBase strayState (keyOf 1 0) + i) % 2 ^ 56)).1 = 0x31000 + (i - 622592) := by
  have hbytes : recordBytes strayGroup = 4096 := by decide +kernel
  have h := (stray_place (k := i - 622592) (j := 0) (by omega)).1
  rwa [Nat.add_zero, Nat.add_zero, Nat.add_sub_cancel' hlow] at h

theorem stray_inj {i j : Nat} (hi : 622592 ≤ i ∧ i < 622592 + recordBytes strayGroup)
    (hj : 622592 ≤ j ∧ j < 622592 + recordBytes strayGroup)
    (he : (reachAddr strayPages ((saveBase strayState (keyOf 1 0) + i) % 2 ^ 56)).1 =
      (reachAddr strayPages ((saveBase strayState (keyOf 1 0) + j) % 2 ^ 56)).1) : i = j := by
  rw [stray_byte hi.1 hi.2, stray_byte hj.1 hj.2] at he
  omega

/-- Refutes O11: TRET.park of a group that stands under another group's key finds that group's record, and writes there the other
group's registers and not its own. The statement asks of no state that its groups stand under their own keys. -/
theorem not_trapReturn : ¬ Obligations.TrapReturn := by
  intro h
  obtain ⟨hreturn, -⟩ := h
  obtain ⟨-, hpark⟩ := hreturn ⟨0, 0, 0, 1⟩ strayState strayReached strayPages 622592 strayGroup (by decide +kernel)
    (by decide +kernel) (by decide +kernel) (by decide +kernel) (by decide +kernel)
  obtain ⟨t, ht, ⟨-, -, -, hs, -⟩, -, -, ⟨-, hparts⟩, -⟩ := hpark (by decide +kernel) (by decide +kernel) (by decide +kernel)
    strayState_record strayState_pages
  have hown : readByte t 0x31008 = 0 := by
    have hthere : 622592 ≤ 622600 ∧ 622600 < 622592 + recordBytes strayGroup ∧
        ∃ p ∈ strayPages, p.page = (saveBase strayState (keyOf 1 0) + 622600) % 2 ^ 56 / 65536 :=
      ⟨by decide, by decide +kernel, _, List.mem_cons_self .., by decide +kernel⟩
    have hread := hparts (fun i j hi hj => stray_inj ⟨hi.1, hi.2.1⟩ ⟨hj.1, hj.2.1⟩) (622592, t.group.visibleImage)
      (List.mem_cons_self ..) 8 _ t.group.visibleImage_eight hthere
    have hzero : t.group.readS 1 = 0 := by
      rw [Group.readS, hs]
      decide +kernel
    rw [hzero] at hread
    exact (congrArg (readByte t) (stray_byte hthere.1 hthere.2.1)).symm.trans hread
  have hother : readByte t 0x31008 = 1 := by
    have hexec := exec_tretPark (f := ⟨0, 0, 0, 1⟩) (by decide +kernel) (by decide +kernel) (by decide +kernel) (by decide +kernel)
      (by decide +kernel) (by decide +kernel) rfl (by decide +kernel) strayState_record strayState_pages
    rw [Host.Outcome.next.inj (ht.symm.trans hexec)]
    exact readByte_strayRecord _ _ _
  exact absurd (hown.symm.trans hother) (by decide)

end Sys2Proof.Machine
end

section
/-! PROOFS. Where the statements on lane stores and on completions fail: at the last instruction of a lane program (R91, R171). -/

namespace Sys2Proof.Machine

open Sys2Proof.Safety

theorem laneOpSplits_sts : laneOpSplits (exec (.sts endingWord) (endingState [])) = [9] := by decide +kernel

/-- Refutes O42: an STS that is the last instruction of its lane program writes and issues, but its split stops with it, so that the
operation stands outstanding for no split and not for the split that issued it, as the statement has it. -/
theorem not_laneStoresAndAtomics : ¬ Obligations.LaneStoresAndAtomics := by
  intro h
  obtain ⟨-, -, -, -, -, -, hsts⟩ := h endingWord (endingState []) (endingState []) []
  obtain ⟨t, ht, -, -, ⟨o, ⟨hissued, hops, -⟩, -⟩, -⟩ :=
    hsts (by decide +kernel) (by decide +kernel) (by decide +kernel) (by decide +kernel)
  obtain ⟨-, -, -, -, -, -, -, -, -, -, -, -, -, hsplit, -⟩ := hissued
  have hsplits := laneOpSplits_sts
  rw [ht] at hsplits
  change t.group.laneOps.map (·.split) = [9] at hsplits
  rw [hops] at hsplits
  have hissuer : o.split = 0 := hsplit
  exact absurd (hissuer.symm.trans (List.cons.inj hsplits).1) (by decide)

/-- An LD of split 0 into V2 that has waited for its lane's word from host memory, and has it now. -/
def arrivedLoad : LaneOp :=
  { id := 1, split := 0, mask := 1, order := 0, flag := some 0, dest := .lanes 2 4 false false [], write := false, again := false,
    todo := [], done := [⟨0, 0, 7⟩], far := [(⟨0, 0, 0x20000, 4, .load, true⟩, 0)], since := 0, logWait := none }

/-- The splits to which the operations of the group with a key belong after an event. -/
def laneOpSplitsAt (key : Nat) (r : Result State) : List Nat :=
  match r with
  | .next t => (t.groupAt key).laneOps.map (·.split)
  | _ => []

theorem laneOpSplitsAt_arrivedLoad :
    laneOpSplitsAt 0 (exec (.laneMemoryComplete 0 1) (endingState [earlierRng, arrivedLoad])) = [9] := by decide +kernel

/-- Refutes O45: a load whose data from afar has held its split at the last instruction of the lane program completes; its split
moves on and so stops, and an earlier operation of the split, still outstanding, passes to no split. The statement has every
other operation stand as it was. -/
theorem not_accessCompletionEvents : ¬ Obligations.AccessCompletionEvents := by
  intro h
  obtain ⟨hload, -⟩ := h 0 1 (endingState [earlierRng, arrivedLoad])
  obtain ⟨t, ht, -, -, hfar⟩ := hload arrivedLoad (by decide +kernel)
  have hops := hfar (by decide)
  rw [if_pos (by decide +kernel)] at hops
  have hstood : (t.groupAt 0).laneOps.map (·.split) = [0] := (congrArg (List.map (·.split)) hops).trans (by decide +kernel)
  have hsplits := laneOpSplitsAt_arrivedLoad
  rw [ht] at hsplits
  exact absurd (hstood.symm.trans hsplits) (by decide)

end Sys2Proof.Machine
end

section
/-! PROOFS. The completion flags of the scalar stream (R97, R127 to R129): setting, clearing and waiting. -/

namespace Sys2Proof.Machine

open Sys2Proof.Safety

/-! Waiting (R127). -/

theorem Group.flagsReady_zero (g : Group) (any : Bool) : g.flagsReady 0 any = true := by simp [Group.flagsReady]

/-- FWAIT goes on when every flag named reads clear. -/
theorem Group.flagsReady_all {g : Group} {mask : BitVec 12} :
    g.flagsReady mask false = true ↔ ∀ n, n < 12 → mask.getLsbD n = true → g.flagSet n = false := by
  simp only [Group.flagsReady, Group.flagClear, Bool.or_eq_true, List.isEmpty_iff, List.filter_eq_nil_iff, List.mem_range,
    Bool.false_eq_true, if_false, List.all_eq_true, List.mem_filter, Bool.not_eq_true', and_imp]
  exact ⟨fun h n hn hm => h.elim (fun h => absurd hm (h n hn)) fun h => h n hn hm, Or.inr⟩

/-- A mask that is not 0 names a flag. -/
theorem exists_flag_of_ne_zero {mask : BitVec 12} (h : mask ≠ 0) : ∃ n, n < 12 ∧ mask.getLsbD n = true := by
  by_contra hnone
  push Not at hnone
  exact h (BitVec.eq_of_getLsbD_eq fun n hn => by simpa using hnone n hn)

/-- FWAIT.any goes on when one of the flags named reads clear. -/
theorem Group.flagsReady_any {g : Group} {mask : BitVec 12} (hmask : mask ≠ 0) :
    g.flagsReady mask true = true ↔ ∃ n, n < 12 ∧ mask.getLsbD n = true ∧ g.flagSet n = false := by
  simp only [Group.flagsReady, Group.flagClear, Bool.or_eq_true, List.isEmpty_iff, List.filter_eq_nil_iff, List.mem_range,
    if_true, List.any_eq_true, List.mem_filter, Bool.not_eq_true', and_assoc]
  obtain ⟨n, hn, hm⟩ := exists_flag_of_ne_zero hmask
  exact ⟨fun h => h.elim (fun h => absurd hm (h n hn)) id, Or.inr⟩

/-- FWAIT on flags that are ready goes on, and observes them when it names any (R129). -/
theorem exec_fwait_ready {f : SI} {s : State} (hfree : Free s []) (h : s.group.flagsReady f.imm (f.f == 1) = true) :
    exec (.fwait f) s = .next (if f.imm = 0 then movedOn s 4 else observeClear (movedOn s 4)) := by
  show execFwait f s = _
  simp only [execFwait, scalarInstr_free hfree, h, if_true]
  rfl

theorem exec_fwait_waits {f : SI} {s : State} (hfree : Free s []) (h : s.group.flagsReady f.imm (f.f == 1) = false) :
    exec (.fwait f) s = .next (s.setGroup { s.group with wait := .flags f.imm (f.f == 1) }) := by
  show execFwait f s = _
  simp only [execFwait, scalarInstr_free hfree, h, Bool.false_eq_true, if_false]
  rfl

/-! Setting and clearing (R128). -/

/-- The scalar stream moves on with other software bits and notes of FCLRs, and nothing else of its group changes. -/
theorem goes_softFlags (s : State) (soft : BitVec 12) (cleared : List (Nat × Edge)) :
    Goes (.next (s.setGroup ({ s.group with flagSoft := soft, cleared := cleared }.advance 4))) fun t =>
      (OnlyGroup s t ∧ t.group.pc = s.group.pc + 4 ∧ t.group.flagCount = s.group.flagCount) ∧ t.group.flagSoft = soft ∧
      SameS s.group t.group [] ∧ SameLanes s.group t.group ∧ SameCsrs s.group t.group ∧ SameTrap s.group t.group := by
  refine ⟨_, rfl, ?_⟩
  simp only [State.group_setGroup]
  exact ⟨⟨onlyGroup_setGroup s _, rfl, rfl⟩, rfl, fun _ _ => rfl, ⟨rfl, rfl, rfl, rfl⟩,
    ⟨⟨rfl, rfl, rfl, rfl, rfl, rfl, rfl, rfl, rfl, rfl, rfl, rfl, rfl⟩, rfl⟩, rfl, rfl, rfl, rfl, rfl, rfl, rfl, rfl, rfl⟩

/-- A flag reads set by its software bit or its count (R97). -/
theorem Group.flagSet_of_count {g h : Group} (hcount : h.flagCount = g.flagCount) (n : Nat) :
    h.flagSet n = (h.flagSoft.getLsbD n || g.flagCnt n != 0) := by
  rw [Group.flagSet, Group.flagCnt, hcount, Group.flagCnt]

theorem goes_fset {f : SI} {s : State} (hfree : Free s []) : Goes (exec (.fset f) s) fun t =>
    (OnlyGroup s t ∧ t.group.pc = s.group.pc + 4 ∧ t.group.flagCount = s.group.flagCount) ∧
    t.group.flagSoft = s.group.flagSoft ||| f.imm ∧
    SameS s.group t.group [] ∧ SameLanes s.group t.group ∧ SameCsrs s.group t.group ∧ SameTrap s.group t.group := by
  show Goes (execFset f s) _
  rw [execFset, scalarInstr_free hfree]
  exact goes_softFlags s _ s.group.cleared

theorem goes_fclr {f : SI} {s : State} (hfree : Free s []) : Goes (exec (.fclr f) s) fun t =>
    (OnlyGroup s t ∧ t.group.pc = s.group.pc + 4 ∧ t.group.flagCount = s.group.flagCount) ∧
    t.group.flagSoft = s.group.flagSoft &&& ~~~f.imm ∧
    SameS s.group t.group [] ∧ SameLanes s.group t.group ∧ SameCsrs s.group t.group ∧ SameTrap s.group t.group := by
  show Goes (execFclr f s) _
  rw [execFclr, scalarInstr_free hfree]
  exact goes_softFlags s _ _

/-- Settles O7: FSET and FCLR change the software bits alone, so that a flag's count still decides, and FWAIT goes on exactly when the
flags that it names are ready. -/
theorem flagInstructions : Obligations.FlagInstructions := by
  intro f s g hfree
  have hform (b : BitVec 1) (hb : f.f = b) : (f.f == 1) = (b == 1) := by rw [hb]
  refine ⟨goes_mono (goes_fset hfree) ?_, goes_mono (goes_fclr hfree) ?_, fun h0 => ?_, fun h0 hf hall => ?_, fun h0 hf hone => ?_,
    fun h0 hf hset => ?_, fun h0 hf hset => ?_⟩
  · rintro t ⟨⟨honly, hpc, hcount⟩, hsoft, hkept⟩
    refine ⟨honly, hpc, hcount, fun n _ => ?_, hkept⟩
    rw [Group.flagSet_of_count hcount, Group.flagSet_of_count (g := g) rfl, hsoft, BitVec.getLsbD_or, ← Bool.or_assoc,
      Bool.or_comm (f.imm.getLsbD n)]
  · rintro t ⟨⟨honly, hpc, hcount⟩, hsoft, hkept⟩
    refine ⟨honly, hpc, hcount, fun n hn => ?_, hkept⟩
    rw [Group.flagSet_of_count hcount, Group.flagSet_of_count (g := g) rfl, hsoft, BitVec.getLsbD_and, BitVec.getLsbD_not]
    show _ = if f.imm.getLsbD n then _ else (g.flagSoft.getLsbD n || _)
    cases f.imm.getLsbD n <;> simp [hn, g, bne, beq_eq_decide]
  · rw [exec_fwait_ready hfree (h0 ▸ g.flagsReady_zero _), if_pos h0]
  · rw [exec_fwait_ready hfree (by rw [hform 0 hf]; exact Group.flagsReady_all.2 hall), if_neg h0]
  · rw [exec_fwait_ready hfree (by rw [hform 1 hf]; exact (Group.flagsReady_any h0).2 hone), if_neg h0]
  · obtain ⟨n, hn, hm, hs⟩ := hset
    have hnot : g.flagsReady f.imm false = false := Bool.eq_false_iff.2 fun h =>
      Bool.false_ne_true ((Group.flagsReady_all.1 h n hn hm).symm.trans hs)
    rw [exec_fwait_waits hfree (by rw [hform 0 hf]; exact hnot), hform 0 hf]
    rfl
  · have hnot : g.flagsReady f.imm true = false := Bool.eq_false_iff.2 fun h => by
      obtain ⟨n, hn, hm, hs⟩ := (Group.flagsReady_any h0).1 h
      exact Bool.false_ne_true (hs.symm.trans (hset n hn hm))
    rw [exec_fwait_waits hfree (by rw [hform 1 hf]; exact hnot), hform 1 hf]
    rfl

end Sys2Proof.Machine
end

section
/-! PROOFS. Accesses of a core: translations and loads leave all but memory and caches (R241, R242, R358), and what a load reads. -/

namespace Sys2Proof.Machine

open Sys2Proof.Safety

/-! What an access of a core changes. -/

/-- Of the device no more has changed than memory with its tags, L2, and what the dies and the cores hold. -/
def CoresOnly (s t : State) : Prop :=
  ∃ mem tags l2 dies cores, t = { s with mem := mem, tags := tags, l2 := l2, dies := dies, cores := cores }

theorem CoresOnly.refl (s : State) : CoresOnly s s := ⟨_, _, _, _, _, rfl⟩

theorem CoresOnly.trans {s t u : State} (hst : CoresOnly s t) (htu : CoresOnly t u) : CoresOnly s u := by
  obtain ⟨_, _, _, _, _, rfl⟩ := hst
  obtain ⟨_, _, _, _, _, rfl⟩ := htu
  exact ⟨_, _, _, _, _, rfl⟩

theorem CachesOnly.coresOnly {s t : State} (h : CachesOnly s t) : CoresOnly s t := by
  obtain ⟨_, _, _, _, rfl⟩ := h
  exact ⟨_, _, _, _, _, rfl⟩

theorem CoresOnly.putCore (s : State) (n : Nat) (c : Core) : CoresOnly s (s.putCore n c) := ⟨_, _, _, _, _, rfl⟩

theorem CoresOnly.perfEvent (s : State) (c e g n : Nat) : CoresOnly s (s.perfEvent c e g n) := ⟨_, _, _, _, _, rfl⟩

theorem CoresOnly.groups {s t : State} (h : CoresOnly s t) : t.groups = s.groups := by
  obtain ⟨_, _, _, _, _, rfl⟩ := h
  rfl

theorem CoresOnly.cur {s t : State} (h : CoresOnly s t) : t.cur = s.cur := by
  obtain ⟨_, _, _, _, _, rfl⟩ := h
  rfl

theorem CoresOnly.clock {s t : State} (h : CoresOnly s t) : t.cycle = s.cycle ∧ t.firmware = s.firmware := by
  obtain ⟨_, _, _, _, _, rfl⟩ := h
  exact ⟨rfl, rfl⟩

/-! Translation (R358). -/

theorem coresOnly_cacheCore (s : State) (c a : Nat) : CoresOnly s (cacheCore s c a) := by
  unfold cacheCore
  split
  · exact .putCore s c _
  · exact .refl s

theorem coresOnly_translateCore (s : State) (c a : Nat) (w : Bool) : CoresOnly s (translateCore s c a w).2 := by
  have hbelow := (cachesOnly_translate s (dieOfCore c) a w).coresOnly.trans (coresOnly_cacheCore _ c a)
  unfold translateCore
  dsimp only
  split
  · split
    · exact hbelow
    · exact .refl s
  · exact hbelow

theorem coresOnly_xlatPart (s : State) (c a n : Nat) (w : Bool) : CoresOnly s (xlatPart s c a n w).2 := by
  have htrans := (coresOnly_translateCore s c a w).trans
    (.perfEvent _ c 5 (((translateCore s c a w).2.groupAt (translateCore s c a w).2.cur.key).grid) (if tlbMisses s c a then 1 else 0))
  unfold xlatPart
  dsimp only
  split <;> exact htrans

theorem coresOnly_xlatRange (s : State) (c a n : Nat) (w : Bool) : CoresOnly s (xlatRange s c a n w).2 := by
  unfold xlatRange
  dsimp only
  split
  · exact coresOnly_xlatPart _ _ _ _ _
  · exact (coresOnly_xlatPart _ _ _ _ _).trans (coresOnly_xlatPart _ _ _ _ _)

/-- The checks of one access leave every group, team and grid. -/
theorem coresOnly_checkAcc (s : State) (c : Nat) (a : Acc) : CoresOnly s (checkAcc s c a).2 := by
  have hrange := coresOnly_xlatRange s c a.va a.bytes a.kind.writes
  unfold checkAcc
  split
  · next h =>
    rw [h] at hrange
    repeat' split
    all_goals exact hrange
  · next h =>
    rw [h] at hrange
    split <;> exact hrange
  · exact hrange

/-! Loads (R241, R257, R271). -/

theorem coresOnly_dieLine (s : State) (d a : Nat) (e : Word) : CoresOnly s (dieLine s d a e).2 := by
  have hfill : CoresOnly s (if sliceWindow s d (sliceOf a) then s else
      (makeRoom s d a).putDie d { (makeRoom s d a).dieAt d with
        ncLines := Assoc.put ((makeRoom s d a).dieAt d).ncLines (a / 128) (lineOf (readBytes s (a / 128 * 128) 128)) }) :=
    (CachesOnly.ite (.refl s) ((cachesOnly_makeRoom s d a).trans (.putDie _ _ _))).coresOnly
  unfold dieLine
  dsimp only
  split
  · exact .refl s
  · split
    · split
      · exact hfill
      · exact .refl s
    · exact hfill

theorem coresOnly_fillL1 (s : State) (c a : Nat) (e : Word) : CoresOnly s (fillL1 s c a e).2 :=
  (coresOnly_dieLine s (dieOfCore c) a e).trans (.putCore _ c _)

theorem coresOnly_l1Line (s : State) (c a : Nat) (e : Word) : CoresOnly s (l1Line s c a e).2 := by
  unfold l1Line
  split
  · split
    · exact .refl s
    · exact coresOnly_fillL1 s c a e
  · exact coresOnly_fillL1 s c a e

theorem coresOnly_l1Bytes (s : State) (c a : Nat) (e : Word) (n : Nat) : CoresOnly s (l1Bytes s c a e n).2 := by
  induction n generalizing s a with
  | zero => exact .refl s
  | succ n ih => exact (coresOnly_l1Line s c a e).trans (ih _ _)

theorem coresOnly_invalidateL1 (s : State) (c : Nat) : CoresOnly s (invalidateL1 s c) := by
  unfold invalidateL1
  dsimp only
  repeat' split
  all_goals exact ⟨_, _, _, _, _, rfl⟩

theorem coresOnly_coreRead (s : State) (c a n : Nat) (e : Word) (acq : Bool) : CoresOnly s (coreRead s c a n e acq).2 := by
  have htouch := (cachesOnly_touchLine s (dieOfCore c) a e false).coresOnly
  unfold coreRead
  dsimp only
  split
  · exact htouch.trans (coresOnly_invalidateL1 _ c)
  · split
    · exact htouch.trans (coresOnly_l1Bytes _ c a e n)
    · exact htouch

theorem coresOnly_loadPieces (s : State) (c : Nat) (ps : List Piece) (acq : Bool) : CoresOnly s (loadPieces s c ps acq).2 := by
  induction ps generalizing s with
  | nil => exact .refl s
  | cons p ps ih => exact ((coresOnly_coreRead s c p.pa p.n p.leaf acq).trans (.perfEvent _ _ _ _ _)).trans (ih _)

@[simp] theorem loadPieces_mem (s : State) (c : Nat) (ps : List Piece) (acq : Bool) : (loadPieces s c ps acq).2.mem = s.mem := by
  induction ps generalizing s with
  | nil => rfl
  | cons p ps ih =>
    rw [loadPieces, ih]
    exact coreRead_mem s c p.pa p.n p.leaf acq

theorem l1Bytes_length (s : State) (c a : Nat) (e : Word) (n : Nat) : (l1Bytes s c a e n).1.length = n := by
  induction n generalizing s a with
  | zero => rfl
  | succ n ih => simp [l1Bytes, ih]

theorem readBytes_length (s : State) (a n : Nat) : (readBytes s a n).length = n := by simp [readBytes]

theorem readBytes_congr {s t : State} (h : t.mem = s.mem) (a n : Nat) : readBytes t a n = readBytes s a n :=
  List.map_congr_left fun _ _ => readByte_congr h _

theorem coreRead_length (s : State) (c a n : Nat) (e : Word) (acq : Bool) : (coreRead s c a n e acq).1.length = n := by
  unfold coreRead
  dsimp only
  split
  · exact readBytes_length _ _ _
  · split
    · exact l1Bytes_length _ _ _ _ _
    · exact readBytes_length _ _ _

/-- An acquire, and a load that L1 may not hold, read the home. -/
theorem coreRead_home (s : State) (c a n : Nat) {e : Word} {acq : Bool} (h : acq = true ∨ l1Cacheable a e = false) :
    (coreRead s c a n e acq).1 = readBytes s a n := by
  have hmem := readBytes_congr (touchLine_mem s (dieOfCore c) a e false) a n
  unfold coreRead
  dsimp only
  rcases h with rfl | h
  · exact hmem
  · rw [h]
    cases acq
    · exact hmem
    · exact hmem

theorem loadPieces_singleton (s : State) (c : Nat) (p : Piece) (acq : Bool) :
    (loadPieces s c [p] acq).1 = (coreRead s c p.pa p.n p.leaf acq).1 := by simp [loadPieces]

/-- A number is below the power of 256 that its bytes count. -/
theorem leNat_lt (bs : List Byte) : Bits.leNat bs < 2 ^ (8 * bs.length) := by
  induction bs with
  | nil => simp [Bits.leNat]
  | cons b bs ih =>
    have hb := b.isLt
    rw [List.length_cons, Nat.mul_succ, Nat.pow_add]
    simp only [Bits.leNat]
    omega

/-! Pieces (R237). -/

/-- An access that ends before the next 64 KiB boundary lies in one piece. -/
theorem checkAcc_onePiece {s s' : State} {core : Nat} {a : Acc} {ps : List Piece} (hva : a.va < 2 ^ 56)
    (hfits : a.bytes ≤ 65536 - a.va % 65536) (h : checkAcc s core a = (.ok ps, s')) : ∃ p, ps = [p] ∧ p.n = a.bytes := by
  have hrange : (xlatRange s core a.va a.bytes a.kind.writes).1 = .ok ps := by
    unfold checkAcc at h
    repeat' split at h
    all_goals simp_all
  unfold xlatRange xlatPart at hrange
  dsimp only at hrange
  rw [Nat.mod_eq_of_lt hva, firstPart, Nat.min_eq_left hfits, if_pos rfl] at hrange
  split at hrange
  · split at hrange
    · cases hrange
    · exact ⟨_, (Verdict.ok.inj hrange).symm, rfl⟩
  · next x hx =>
    cases hxl : (translateCore s core a.va a.kind.writes).1 with
    | ok pa leaf => exact absurd hxl (hx pa leaf)
    | _ => rw [hxl] at hrange; cases hrange

end Sys2Proof.Machine
end

section
/-! PROOFS. SLD (R292, R293): what a scalar load issues. -/

namespace Sys2Proof.Machine

open Sys2Proof.Safety

theorem CoresOnly.group {s t : State} (h : CoresOnly s t) : t.group = s.group := by
  obtain ⟨_, _, _, _, _, rfl⟩ := h
  rfl

/-- The load has issued with the value of its bytes, in a state that differs from the load's own in memory and caches alone. -/
theorem goes_issueScalar {s u : State} (h : CoresOnly s u) (d va : Nat) (v : Word) (ps : List Piece) :
    Moved s (u.setGroup ((s.group.issueScalar u.cycle.toNat [(d, v)] va ps).advance 4)) 4 [] ∧
      Issued s.group (u.setGroup ((s.group.issueScalar u.cycle.toNat [(d, v)] va ps).advance 4)).group [(d, v)] := by
  have hothers (k : Nat) (hk : k ≠ s.cur.key) (g : Group) : Assoc.find? (u.setGroup g).groups k = Assoc.find? s.groups k := by
    rw [State.setGroup, State.putGroup, h.cur, h.groups]
    rw [Assoc.find?_put, if_neg hk.symm]
  rw [Moved, State.group_setGroup]
  exact ⟨⟨rfl, fun _ _ => rfl, ⟨rfl, rfl, rfl, rfl⟩, fun _ => rfl,
    ⟨⟨rfl, rfl, rfl, rfl, rfl, rfl, rfl, rfl, rfl, rfl, rfl, rfl, rfl⟩, rfl⟩, ⟨rfl, rfl, rfl, rfl, rfl, rfl, rfl, rfl, rfl⟩,
    fun k hk => hothers k hk _⟩, _, rfl, rfl⟩

/-- The window's addresses have all their upper bits set (R293). -/
theorem scratchWindow_iff (va : Nat) : scratchWindow va = true ↔ InWindow va := by
  simp [scratchWindow, InWindow, Bits.field, Nat.shiftRight_eq_div_pow]

theorem sideTouches_of_noLog {s : State} (h : NoLog s) (va n : Nat) : sideTouches s s.group.core va n = false := by
  simp [Machine.sideTouches, h.1]

/-- With no stream held at a page none is held at a device's (R270). -/
theorem deviceHeld_of_noLog {s : State} (h : NoLog s) (va : Nat) : deviceHeld s s.group none va = false := by
  obtain ⟨-, -, -, -, hlane⟩ := h
  have hnone : (s.group.laneOps.any fun o => some o.split != none && o.todo.any fun a => deviceTyped s a.va) = false := by
    simp only [List.any_eq_false]
    intro o ho
    simp [hlane o ho]
  simp [Machine.deviceHeld, hnone]

theorem readPlain_window {s : State} {g : Group} {va n : Nat} {acq : Bool} (hwin : InWindow va)
    (hfits : va % 2 ^ 32 + n ≤ (s.teamAt g.teamKey).w) (k : List Byte → List Piece → State → Result State) :
    readPlain s g va n acq k = k ((s.teamAt g.teamKey).readScratch (va % 2 ^ 32) n) [] s := by
  rw [readPlain, if_pos ((scratchWindow_iff va).2 hwin)]
  exact if_neg (Nat.not_lt.2 hfits)

theorem readPlain_memory {s s' : State} {va n : Nat} {acq : Bool} {ps : List Piece} (hwin : ¬InWindow va) (hlog : NoLog s)
    (h : Reaches s va n .load ps s') (k : List Byte → List Piece → State → Result State) :
    readPlain s s.group va n acq k =
      k (loadPieces s' s.group.core ps acq).1 ps (loadPieces s' s.group.core ps acq).2 := by
  have hnot : ¬ scratchWindow va = true := fun hw => hwin ((scratchWindow_iff va).1 hw)
  rw [readPlain, if_neg hnot, sideTouches_of_noLog hlog, deviceHeld_of_noLog hlog, scalarAccess, h]
  rfl

/-- An aligned scalar access ends before the next 64 KiB boundary. -/
theorem fits_of_aligned (n : BitVec 2) {va : Nat} (h : va % 2 ^ n.toNat = 0) : 2 ^ n.toNat ≤ 65536 - va % 65536 := by
  have hn : n.toNat = 0 ∨ n.toNat = 1 ∨ n.toNat = 2 ∨ n.toNat = 3 := by have := n.isLt; omega
  rcases hn with hn | hn | hn | hn <;> rw [hn] at h ⊢ <;> omega

/-- Settles O14: an aligned SLD takes its bytes from the scratchpad window or from its one piece of memory. -/
theorem scalarLoad : Obligations.ScalarLoad := by
  intro n f s s' ps g d bytes va hfree halign
  have hexec : exec (.sld n f) s = readPlain s g va bytes (f.f == 1) fun bs ps s =>
      .next (s.setGroup ((g.issueScalar s.cycle.toNat [(d, BitVec.ofNat 64 (Bits.leNat bs))] va ps).advance 4)) := by
    show execSld n f s = _
    rw [execSld, scalarInstr_free hfree]
    exact if_neg (not_not.2 halign)
  constructor
  · intro hwin hfits
    rw [hexec, readPlain_window hwin hfits]
    exact ⟨_, rfl, onlyGroup_setGroup s _, goes_issueScalar (.refl s) d va _ []⟩
  · intro hwin hlog hreach
    rw [hexec, readPlain_memory hwin hlog hreach]
    have hchecked : CoresOnly s s' := by
      have hkept := coresOnly_checkAcc s g.core ⟨0, 0, va, bytes, .load, true⟩
      rwa [show checkAcc _ _ _ = _ from hreach] at hkept
    have hloaded := hchecked.trans (coresOnly_loadPieces s' g.core ps (f.f == 1))
    obtain ⟨hmoved, hissued⟩ := goes_issueScalar hloaded d va (BitVec.ofNat 64 (Bits.leNat (loadPieces s' g.core ps (f.f == 1)).1)) ps
    obtain ⟨p, rfl, hp⟩ := checkAcc_onePiece (by show va < 2 ^ 56; omega) (fits_of_aligned n halign) hreach
    have hbytes := loadPieces_singleton s' g.core p (f.f == 1)
    refine ⟨_, rfl, hmoved, fun a => readByte_congr (by simp) a, hissued, ?_, p, rfl, hp, fun hhome => ?_⟩
    · have hlt := leNat_lt (loadPieces s' g.core [p] (f.f == 1)).1
      have hlen : (loadPieces s' g.core [p] (f.f == 1)).1.length = bytes := by rw [hbytes, coreRead_length, hp]
      rwa [hlen] at hlt
    · rw [hbytes, coreRead_home _ _ _ _ (hhome.imp_left fun hf => by simp [hf]), hp]
      rfl

end Sys2Proof.Machine
end

section
/-! PROOFS. Bytes that moves leave in the scratchpad and in ring slots (R179, R314), and the end of a command of a group (R97, R223, R365). -/

namespace Sys2Proof.Machine

open Sys2Proof.Safety

/-! Sparse byte arrays. -/

/-- A byte reads as what was written to it, and every other one as before. -/
theorem get_setBytes (l : List (Nat × Byte)) (a : Nat) (bs : List Byte) (j : Nat) :
    Assoc.get 0 (setBytes l a bs) j = if a ≤ j ∧ j < a + bs.length then bs.getD (j - a) 0 else Assoc.get 0 l j := by
  induction bs generalizing l a with
  | nil => exact (if_neg fun h => by simp at h; omega).symm
  | cons b bs ih =>
    rw [setBytes, ih, Assoc.get_set, List.length_cons]
    by_cases hj : a = j
    · subst hj
      simp
    · by_cases hin : a ≤ j ∧ j < a + (bs.length + 1)
      · rw [if_pos (by omega), if_pos hin, show j - a = (j - (a + 1)) + 1 by omega, List.getD_cons_succ]
      · rw [if_neg (by omega), if_neg hj, if_neg hin]

theorem bytesAt_setBytes_same (l : List (Nat × Byte)) (a : Nat) (bs : List Byte) : bytesAt (setBytes l a bs) a bs.length = bs := by
  refine List.ext_getElem (by simp [bytesAt]) fun i _ hi => ?_
  simp only [bytesAt, List.getElem_map, List.getElem_range, get_setBytes]
  rw [if_pos (by omega), Nat.add_sub_cancel_left, List.getD_eq_getElem _ _ hi]

theorem bytesAt_setBytes_outside (l : List (Nat × Byte)) {a c n : Nat} {bs : List Byte} (h : c + n ≤ a ∨ a + bs.length ≤ c) :
    bytesAt (setBytes l a bs) c n = bytesAt l c n := by
  refine List.map_congr_left fun i hi => ?_
  rw [List.mem_range] at hi
  rw [get_setBytes, if_neg (by omega)]

/-- The bytes of a run from an offset, set one by one. -/
theorem foldl_set_fromOffset (l : List (Nat × Byte)) (base : Nat) (bs : List Byte) :
    (fromOffset 0 bs).foldl (fun l b => Assoc.set 0 l (base + b.1) b.2) l = setBytes l base bs := by
  have hfrom (bs : List Byte) (n : Nat) (l : List (Nat × Byte)) :
      (bs.zipIdx n).foldl (fun l p => Assoc.set 0 l (base + (0 + p.2)) p.1) l = setBytes l (base + n) bs := by
    induction bs generalizing n l with
    | nil => rfl
    | cons b bs ih => rw [List.zipIdx_cons, List.foldl_cons, ih, setBytes, Nat.zero_add, Nat.add_assoc]
  rw [fromOffset, List.foldl_map]
  exact hfrom bs 0 l

/-- The `k`-th of some rows of at most `n` bytes ends before or begins after another one. -/
theorem rows_apart (base : Nat) {k m n a b : Nat} (h : k ≠ m) (ha : a ≤ n) (hb : b ≤ n) :
    base + k * n + a ≤ base + m * n ∨ base + m * n + b ≤ base + k * n := by
  rcases Nat.lt_or_gt_of_ne h with h | h
  all_goals
    have hrows := Nat.mul_le_mul_right n (Nat.succ_le_of_lt h)
    rw [Nat.succ_mul] at hrows
    omega

theorem Team.readScratch_writeScratch_same (t : Team) (o : Nat) (bs : List Byte) :
    (t.writeScratch o bs).readScratch o bs.length = bs := bytesAt_setBytes_same _ _ _

theorem Team.readScratch_writeScratch_outside (t : Team) {o a n : Nat} {bs : List Byte} (h : a + n ≤ o ∨ o + bs.length ≤ a) :
    (t.writeScratch o bs).readScratch a n = t.readScratch a n := bytesAt_setBytes_outside _ h

theorem Ring.read_write_same (x : Ring) (m o : Nat) (bs : List Byte) : (x.write m o bs).read m o bs.length = bs :=
  bytesAt_setBytes_same _ _ _

theorem Ring.read_write_outside (x : Ring) (m : Nat) {o a n : Nat} {bs : List Byte} (h : a + n ≤ o ∨ o + bs.length ≤ a) :
    (x.write m o bs).read m a n = x.read m a n :=
  bytesAt_setBytes_outside x.data (a := m % x.slots * x.size + o) (c := m % x.slots * x.size + a) (by omega)

/-! Folds. -/

/-- Of steps that each give what is read or keep it, with one that gives it. -/
theorem foldl_settles {α β γ : Type} {P : β → Prop} {f : β → α → β} {read : β → γ} {v : γ} {l : List α} {a : α} (ha : a ∈ l)
    (hP : ∀ b, ∀ x ∈ l, P b → P (f b x)) (hgives : ∀ b, P b → read (f b a) = v)
    (hstep : ∀ b, ∀ x ∈ l, P b → read (f b x) = v ∨ read (f b x) = read b) {b : β} (hb : P b) : read (l.foldl f b) = v := by
  obtain ⟨l₁, l₂, rfl⟩ := List.append_of_mem ha
  have hbefore : P (l₁.foldl f b) := List.foldlRecOn l₁ f hb fun b hb x hx => hP b x (by simp [hx]) hb
  rw [List.foldl_append, List.foldl_cons]
  refine (List.foldlRecOn (motive := fun b => P b ∧ read b = v) l₂ f ⟨hP _ a ha hbefore, hgives _ hbefore⟩ ?_).2
  intro b ⟨hb, hv⟩ x hx
  have hmem : x ∈ l₁ ++ a :: l₂ := by simp [hx]
  exact ⟨hP b x hmem hb, (hstep b x hmem hb).elim id fun h => h.trans hv⟩

/-! Rings and teams. -/

theorem Team.ring_modRing (t : Team) (r : Nat) (f : Ring → Ring) (n : Nat) :
    (t.modRing r f).ring n = if r = n then (t.ring n).map f else t.ring n := Assoc.find?_modify _ _ _ _

/-- The numbers 0 to 15 name bits of a slot table. -/
theorem getLsbD_putBit_same (v : BitVec 16) {i : Nat} (hi : i < 16) (b : Bool) : (putBit v i b).getLsbD i = b := by
  have hbit : (BitVec.ofNat 16 (2 ^ i)).getLsbD i = true := by
    rw [BitVec.getLsbD_ofNat, Nat.testBit_two_pow_self, Bool.and_true, decide_eq_true hi]
  cases b
  · rw [putBit, if_neg Bool.false_ne_true, BitVec.getLsbD_and, BitVec.getLsbD_not, hbit, Bool.not_true, Bool.and_false, Bool.and_false]
  · rw [putBit, if_pos rfl, BitVec.getLsbD_or, hbit, Bool.or_true]

theorem State.teamAt_putTeam (s : State) (k : Nat) (t : Team) : (s.putTeam k t).teamAt k = t := by
  simp [State.teamAt, State.putTeam]

theorem State.teamAt_modTeam {s : State} {k : Nat} (h : (Assoc.find? s.teams k).isSome = true) (f : Team → Team) :
    (s.modTeam k f).teamAt k = f (s.teamAt k) := by
  obtain ⟨t, ht⟩ := Option.isSome_iff_exists.1 h
  simp [State.teamAt, State.modTeam, ht]

theorem State.groupAt_modGroup {s : State} {k : Nat} (h : (Assoc.find? s.groups k).isSome = true) (f : Group → Group) :
    (s.modGroup k f).groupAt k = f (s.groupAt k) := by
  obtain ⟨g, hg⟩ := Option.isSome_iff_exists.1 h
  simp [State.groupAt, State.modGroup, hg]

theorem State.groupAt_modGroup_absent {s : State} {k : Nat} (h : Assoc.find? s.groups k = none) (f : Group → Group) :
    (s.modGroup k f).groupAt k = Group.blank := by
  simp [State.groupAt, State.modGroup, h]

/-! The end of a command of a group. -/

/-- What the end of a command leaves in its group (R97, R365). -/
def EndedIn (flag : Option Nat) (child : Bool) (g h : Group) : Prop :=
  (∀ n, h.flagCnt n = if flag = some n then g.flagCnt n - 1 else g.flagCnt n) ∧
  h.children = g.children - (if child then 1 else 0) ∧ SameS g h [] ∧ SameLanes g h ∧ h.pc = g.pc

/-- `h` is `g` with other notes of a mismatch, an interrupt or a transfer error (R223). -/
def NotesOnly (g h : Group) : Prop :=
  ∃ m i c x, h = { g with mismatch := m, intPending := i, intCycle := c, xfererr := x }

theorem EndedIn.notes {flag : Option Nat} {child : Bool} {g h i : Group} (hgh : EndedIn flag child g h) (hhi : NotesOnly h i) :
    EndedIn flag child g i := by
  obtain ⟨_, _, _, _, rfl⟩ := hhi
  exact hgh

theorem Group.flagCnt_dropFlag (g : Group) (flag : Option Nat) (n : Nat) :
    (g.dropFlag flag).flagCnt n = if flag = some n then g.flagCnt n - 1 else g.flagCnt n := by
  cases flag with
  | none => rfl
  | some m =>
    rw [Group.dropFlag, Group.flagCnt, Assoc.get_set]
    by_cases h : m = n
    · simp [h]
    · simp [h, Group.flagCnt]

/-- Dropping a flag leaves all but the counts. -/
theorem Group.dropFlag_only (g : Group) (flag : Option Nat) : ∃ f, g.dropFlag flag = { g with flagCount := f } := by
  cases flag <;> exact ⟨_, rfl⟩

theorem endedIn_dropFlag (g : Group) (flag : Option Nat) : EndedIn flag false g (g.dropFlag flag) := by
  have hcount := g.flagCnt_dropFlag flag
  obtain ⟨f, hf⟩ := g.dropFlag_only flag
  rw [hf] at hcount ⊢
  exact ⟨hcount, rfl, fun _ _ => rfl, ⟨rfl, rfl, rfl, rfl⟩, rfl⟩

theorem EndedIn.childDone {flag : Option Nat} {g h : Group} (hgh : EndedIn flag false g h) (off : Bool) :
    EndedIn flag true g (h.childDone off) := by
  obtain ⟨hcount, hchildren, hs, hlanes, hpc⟩ := hgh
  have hdone : (h.childDone off).children = h.children - 1 := by
    cases hf : h.frame <;> simp [Group.childDone, Group.children, hf]
  obtain ⟨f, hf⟩ : ∃ f, h.childDone off = { h with frame := f } := by
    cases hf : h.frame <;> simp only [Group.childDone, hf] <;> exact ⟨_, rfl⟩
  refine ⟨?_, by rw [hdone, hchildren]; rfl, ?_⟩
  · rw [hf]
    exact hcount
  · rw [hf]
    exact ⟨hs, hlanes, hpc⟩

/-- A change of its group that ends the command in it, where the group exists. -/
theorem commandEnded_modGroup (s : State) (k : Nat) {flag : Option Nat} {child : Bool} {f : Group → Group}
    (hf : ∀ g, EndedIn flag child g (f g)) : CommandEnded s (s.modGroup k f) k flag child := by
  cases h : Assoc.find? s.groups k with
  | none =>
    have hblank : s.groupAt k = Group.blank := by simp [State.groupAt, h]
    rw [CommandEnded, State.groupAt_modGroup_absent h, hblank]
    refine ⟨fun n => ?_, ?_, fun _ _ => rfl, ⟨rfl, rfl, rfl, rfl⟩, rfl⟩
    · rw [show Group.blank.flagCnt n = 0 from rfl, ite_self]
    · rw [show Group.blank.children = 0 from rfl, Nat.zero_sub]
  | some g =>
    rw [CommandEnded, State.groupAt_modGroup (by simp [h])]
    exact hf _

/-- What `deliver` does in the group. -/
def Group.delivered (g : Group) (notify : Bool) (code : BitVec 16) (addr : Word) (cycle : Word) : Group :=
  if g.ulivec ≠ 0 then (if notify || code != 0 then { g with intPending := true, intCycle := some cycle } else g)
  else if code ≠ 0 ∧ g.xfererr = none then { g with xfererr := some (code, addr) }
  else g

theorem Group.delivered_notes (g : Group) (notify : Bool) (code : BitVec 16) (addr cycle : Word) :
    NotesOnly g (g.delivered notify code addr cycle) := by
  unfold Group.delivered
  repeat' split
  all_goals exact ⟨_, _, _, _, rfl⟩

end Sys2Proof.Machine
end

section
/-! PROOFS. Matrix commands, ring operations and coelostat programs complete (R187, R200, R207, R314, R317, R337). -/

namespace Sys2Proof.Machine

open Sys2Proof.Safety

/-! The end of a command. -/

/-- The end of a command is a change of its group alone. -/
theorem endCommand_eq (s : State) (k : Nat) (flag : Option Nat) (child notify : Bool) (code : BitVec 16) (addr : Nat) :
    endCommand s k flag child notify code addr =
      (s.modGroup k fun g => if child then (g.dropFlag flag).childDone true else g.dropFlag flag).modGroup k
        fun g => g.delivered notify code (BitVec.ofNat 64 addr) s.cycle := rfl

theorem modGroup_modGroup (s : State) (k : Nat) (f h : Group → Group) :
    (s.modGroup k f).modGroup k h = s.modGroup k fun g => h (f g) := by
  simp only [State.modGroup, Assoc.modify, List.map_map]
  congr 1
  refine List.map_congr_left fun p _ => ?_
  by_cases hp : p.1 = k <;> simp [hp]

/-- What the end of a command makes of its group. -/
def Group.ended (g : Group) (flag : Option Nat) (child notify : Bool) (code : BitVec 16) (addr cycle : Word) : Group :=
  (if child then (g.dropFlag flag).childDone true else g.dropFlag flag).delivered notify code addr cycle

theorem endCommand_modGroup (s : State) (k : Nat) (flag : Option Nat) (child notify : Bool) (code : BitVec 16) (addr : Nat) :
    endCommand s k flag child notify code addr =
      s.modGroup k fun g => g.ended flag child notify code (BitVec.ofNat 64 addr) s.cycle :=
  (endCommand_eq ..).trans (modGroup_modGroup ..)

theorem endedIn_ended (g : Group) (flag : Option Nat) (child notify : Bool) (code : BitVec 16) (addr cycle : Word) :
    EndedIn flag child g (g.ended flag child notify code addr cycle) := by
  refine EndedIn.notes ?_ (Group.delivered_notes ..)
  cases child
  · exact endedIn_dropFlag g flag
  · exact (endedIn_dropFlag g flag).childDone true

theorem endCommand_ended (s : State) (k : Nat) (flag : Option Nat) (child notify : Bool) (code : BitVec 16) (addr : Nat) :
    CommandEnded s (endCommand s k flag child notify code addr) k flag child := by
  rw [endCommand_modGroup]
  exact commandEnded_modGroup s k fun g => endedIn_ended g ..

theorem Group.ended_mismatch (g : Group) (flag : Option Nat) (child notify : Bool) (code : BitVec 16) (addr cycle : Word) :
    (g.ended flag child notify code addr cycle).mismatch = g.mismatch := by
  have hdeliver (h : Group) : (h.delivered notify code addr cycle).mismatch = h.mismatch := by
    unfold Group.delivered
    repeat' split
    all_goals rfl
  rw [Group.ended, hdeliver]
  cases child <;> cases flag <;> simp only [Group.dropFlag, Group.childDone] <;> repeat' split
  all_goals rfl

/-- With no completion ring the completion writer does nothing (R318). -/
theorem writeRecord_none {x : Sample} {l : Life} (h : NoRecord x l) (s : State) (g : Group) (number : Option Nat) (body : RecordBody)
    (hold : Nat → Option Nat → State → Result State) (k : State → Result State) :
    writeRecord s g x.cring l.noRing number body hold k = k s := if_pos h

/-! The coelostat's programs (R317). -/

theorem goes_strmComplete {core : Nat} {s : State} {c : StrmCmd} (h : (s.coreAt core).strmReady = some c)
    (hrec : NoRecord c.sample c.life) : Goes (exec (.strmComplete core) s) fun u =>
      u.mem = s.mem ∧ CommandEnded s u c.key c.flag false ∧
      (u.coreAt core).strmDone = (s.coreAt core).strmDone.filter fun x => !(x.key == c.key && x.id == c.id) := by
  show Goes (execStrmComplete core s) _
  rw [execStrmComplete, h]
  dsimp only
  rw [writeRecord_none (l := { c.life with bytes := c.bytes }) hrec]
  refine ⟨_, rfl, rfl, endCommand_ended (s.putCore core _) .., ?_⟩
  rw [endCommand_modGroup]
  simp [State.coreAt, State.modGroup, State.putCore]

/-! Ring operations (R314, R337). -/

/-- One plane of a ring operation moves: a push's to its slot, a pop's to the scratchpad. -/
def RingOp.movePlane (o : RingOp) (t : Team) (k : Nat) : Team :=
  if o.push then t.modRing o.ring fun x => x.write o.pos (k * o.bytes) (t.readScratch (o.off + k * t.w) o.bytes)
  else match t.ring o.ring with
    | some x => t.writeScratch (o.off + k * t.w) (x.read o.pos (k * o.bytes) o.bytes)
    | none => t

theorem RingOp.move_eq (o : RingOp) (t : Team) : o.move t = (List.range (o.width + 1)).foldl o.movePlane t := rfl

theorem readScratch_length (t : Team) (o n : Nat) : (t.readScratch o n).length = n := by simp [Team.readScratch, bytesAt]

theorem ringRead_length (x : Ring) (m o n : Nat) : (x.read m o n).length = n := by simp [Ring.read, bytesAt]

/-- A push changes only its ring, and of that only the bytes. -/
def PushMoving (t : Team) (r : Nat) (x : Ring) (v : Team) : Prop :=
  ∃ data, v = { t with rings := v.rings } ∧ v.ring r = some { x with data := data }

theorem PushMoving.movePlane {t v : Team} {o : RingOp} {x : Ring} (hpush : o.push = true) (h : PushMoving t o.ring x v) (k : Nat) :
    PushMoving t o.ring x (o.movePlane v k) := by
  obtain ⟨data, hv, hr⟩ := h
  rw [RingOp.movePlane, if_pos hpush]
  refine ⟨_, ?_, by rw [Team.ring_modRing, if_pos rfl, hr]; rfl⟩
  rw [hv]
  rfl

/-- The bytes of a plane that a push has moved, in its slot. -/
theorem ring_move_push {t : Team} {o : RingOp} {x : Ring} (hpush : o.push = true) (hx : t.ring o.ring = some x) :
    PushMoving t o.ring x (o.move t) ∧ ∀ y, (o.move t).ring o.ring = some y → ∀ k, k ≤ o.width →
      y.read o.pos (k * o.bytes) o.bytes = t.readScratch (o.off + k * t.w) o.bytes := by
  have hstart : PushMoving t o.ring x t := ⟨x.data, rfl, hx⟩
  have hkeep (v : Team) (k : Nat) (h : PushMoving t o.ring x v) := h.movePlane hpush k
  refine ⟨List.foldlRecOn (motive := PushMoving t o.ring x) _ _ hstart fun v hv k _ => hkeep v k hv, fun y hy k hk => ?_⟩
  have hwrite (v : Team) (m : Nat) (h : PushMoving t o.ring x v) : ∃ z, v.ring o.ring = some z ∧
      (o.movePlane v m).ring o.ring = some (z.write o.pos (m * o.bytes) (t.readScratch (o.off + m * t.w) o.bytes)) := by
    obtain ⟨data, hv, hr⟩ := h
    refine ⟨_, hr, ?_⟩
    rw [RingOp.movePlane, if_pos hpush, Team.ring_modRing, if_pos rfl, hr, hv]
    rfl
  have hread := foldl_settles (P := PushMoving t o.ring x) (f := o.movePlane)
    (read := fun v => (v.ring o.ring).map fun z => z.read o.pos (k * o.bytes) o.bytes)
    (v := some (t.readScratch (o.off + k * t.w) o.bytes)) (List.mem_range.2 (Nat.lt_succ_of_le hk)) (fun v m _ h => hkeep v m h)
    (fun v h => by
      obtain ⟨z, -, hz⟩ := hwrite v k h
      have hsame := z.read_write_same o.pos (k * o.bytes) (t.readScratch (o.off + k * t.w) o.bytes)
      rw [readScratch_length] at hsame
      rw [hz, Option.map_some, hsame])
    (fun v m _ h => by
      obtain ⟨z, hvz, hz⟩ := hwrite v m h
      by_cases hmk : m = k
      · subst hmk
        have hsame := z.read_write_same o.pos (m * o.bytes) (t.readScratch (o.off + m * t.w) o.bytes)
        rw [readScratch_length] at hsame
        exact .inl (by rw [hz, Option.map_some, hsame])
      · refine .inr ?_
        rw [hz, hvz, Option.map_some, Option.map_some, Ring.read_write_outside]
        have := rows_apart 0 (Ne.symm hmk) (Nat.le_refl o.bytes) (Nat.le_refl o.bytes)
        rw [readScratch_length]
        omega) hstart
  rw [← RingOp.move_eq, hy, Option.map_some] at hread
  exact Option.some.inj hread

/-- A pop changes only the scratchpad. -/
theorem ring_move_pop {t : Team} {o : RingOp} {x : Ring} (hpush : o.push = false) (hx : t.ring o.ring = some x) :
    (o.move t = { t with scratch := (o.move t).scratch }) ∧
    (o.bytes ≤ t.w → ∀ k, k ≤ o.width → (o.move t).readScratch (o.off + k * t.w) o.bytes = x.read o.pos (k * o.bytes) o.bytes) ∧
    ∀ a, (∀ k, k ≤ o.width → a < o.off + k * t.w ∨ o.off + k * t.w + o.bytes ≤ a) → (o.move t).readScratch a 1 = t.readScratch a 1 := by
  have hwrite (v : Team) (k : Nat) (hv : v = { t with scratch := v.scratch }) :
      o.movePlane v k = v.writeScratch (o.off + k * t.w) (x.read o.pos (k * o.bytes) o.bytes) := by
    have hr : v.ring o.ring = some x := by rw [hv]; exact hx
    rw [RingOp.movePlane, hpush, if_neg Bool.false_ne_true, hr, hv]
  have hkeep (v : Team) (k : Nat) (hv : v = { t with scratch := v.scratch }) :
      o.movePlane v k = { t with scratch := (o.movePlane v k).scratch } := by
    rw [hwrite v k hv, hv]
    rfl
  refine ⟨List.foldlRecOn (motive := fun v : Team => v = { t with scratch := v.scratch }) _ _ rfl fun v hv k _ => hkeep v k hv,
    fun hb k hk => ?_, fun a ha => ?_⟩
  · have hgives (v : Team) (m : Nat) (h : v = { t with scratch := v.scratch }) : (o.movePlane v m).readScratch (o.off + m * t.w) o.bytes =
        x.read o.pos (m * o.bytes) o.bytes := by
      have hsame := v.readScratch_writeScratch_same (o.off + m * t.w) (x.read o.pos (m * o.bytes) o.bytes)
      rw [ringRead_length] at hsame
      rw [hwrite v m h, hsame]
    refine foldl_settles (P := fun v : Team => v = { t with scratch := v.scratch })
      (read := fun v : Team => v.readScratch (o.off + k * t.w) o.bytes) (List.mem_range.2 (Nat.lt_succ_of_le hk))
      (fun v m _ h => hkeep v m h) (fun v h => hgives v k h) (fun v m _ h => ?_) rfl
    by_cases hmk : m = k
    · exact .inl (hmk ▸ hgives v m h)
    · refine .inr ?_
      rw [hwrite v m h, Team.readScratch_writeScratch_outside]
      rw [ringRead_length]
      exact rows_apart o.off (Ne.symm hmk) hb hb
  · refine (List.foldlRecOn (motive := fun v : Team => v = { t with scratch := v.scratch } ∧ v.readScratch a 1 = t.readScratch a 1)
      _ _ ⟨rfl, rfl⟩ fun v ⟨hv, hr⟩ k hk => ⟨hkeep v k hv, ?_⟩).2
    have hk := ha k (Nat.le_of_lt_succ (List.mem_range.1 hk))
    rw [hwrite v k hv, Team.readScratch_writeScratch_outside _ (by rw [ringRead_length]; omega), hr]

/-- The team as a ring operation's end leaves it. -/
def RingOp.endIn (o : RingOp) (t : Team) : Team :=
  let t := (o.move t).modRing o.ring fun x => if o.push then x.endPush o.pos else x.endPop o.pos
  { t with ringOps := t.ringOps.filter fun x => x.id != o.id }

/-- At the end of a ring operation its flag's count falls, and its team is as `RingOp.endIn` says. -/
theorem endRingOp_ends (s : State) (tk : Nat) (o : RingOp) :
    (endRingOp s tk o).mem = s.mem ∧ CommandEnded s (endRingOp s tk o) o.key o.flag false ∧
      (endRingOp s tk o).teamAt tk = o.endIn (s.teamAt tk) :=
  ⟨rfl, commandEnded_modGroup (s.putTeam tk _) o.key fun g => endedIn_dropFlag g o.flag, State.teamAt_putTeam s tk _⟩

theorem RingOp.ring_endIn {o : RingOp} {t : Team} {x : Ring} (h : (o.move t).ring o.ring = some x) :
    (o.endIn t).ring o.ring = some (if o.push then x.endPush o.pos else x.endPop o.pos) := by
  show ((o.move t).modRing o.ring fun x => if o.push then x.endPush o.pos else x.endPop o.pos).ring o.ring = _
  rw [Team.ring_modRing, if_pos rfl, h]
  rfl

/-- An operation that was found has the identity and the direction that were asked for. -/
theorem find?_ringOp {l : List RingOp} {id : Nat} {o : RingOp} {p : RingOp → Bool}
    (h : l.find? (fun y => y.id == id && p y) = some o) : o.id = id ∧ p o = true := by
  simpa using List.find?_some h

theorem goes_ringPushComplete {tk id : Nat} {s : State} {o : RingOp} {x : Ring}
    (ho : (s.teamAt tk).ringOps.find? (fun y => y.id == id && y.push) = some o) (hturn : o.turn (s.teamAt tk) = true)
    (hx : (s.teamAt tk).ring o.ring = some x) :
    let t := s.teamAt tk
    Goes (exec (.ringPushComplete tk id) s) fun u => u.mem = s.mem ∧ CommandEnded s u o.key o.flag false ∧
      (u.teamAt tk).ringOps = t.ringOps.filter (fun y => y.id != id) ∧ (u.teamAt tk).scratch = t.scratch ∧
      ∃ y, (u.teamAt tk).ring o.ring = some y ∧ (o.pos % x.slots < 16 → y.full.getLsbD (o.pos % x.slots) = true ∧
        y.phase.getLsbD (o.pos % x.slots) = decide (o.pos / x.slots % 2 = 1)) ∧
      ∀ k, k ≤ o.width → y.read o.pos (k * o.bytes) o.bytes = t.readScratch (o.off + k * t.w) o.bytes := by
  intro t
  obtain ⟨hid, hpush⟩ := find?_ringOp ho
  obtain ⟨⟨data, hteam, hring⟩, hread⟩ := ring_move_push hpush hx
  obtain ⟨hmem, hended, hteamAt⟩ := endRingOp_ends s tk o
  refine ⟨endRingOp s tk o, ?_, hmem, hended, ?_⟩
  · show execRingPushComplete tk id s = _
    simp only [execRingPushComplete, ho, hturn, if_true]
  · have hy := RingOp.ring_endIn hring
    rw [if_pos hpush] at hy
    rw [hteamAt]
    refine ⟨?_, ?_, _, hy, fun h16 => ⟨getLsbD_putBit_same _ h16 true, getLsbD_putBit_same _ h16 _⟩,
      fun k hk => hread { x with data := data } hring k hk⟩
    · show (o.move t).ringOps.filter _ = _
      rw [hteam, hid]
    · show (o.move t).scratch = _
      rw [hteam]

theorem goes_ringPopComplete {tk id : Nat} {s : State} {o : RingOp} {x : Ring}
    (ho : (s.teamAt tk).ringOps.find? (fun y => y.id == id && !y.push) = some o) (hturn : o.turn (s.teamAt tk) = true)
    (hx : (s.teamAt tk).ring o.ring = some x) :
    let t := s.teamAt tk
    Goes (exec (.ringPopComplete tk id) s) fun u => u.mem = s.mem ∧ CommandEnded s u o.key o.flag false ∧
      (u.teamAt tk).ringOps = t.ringOps.filter (fun y => y.id != id) ∧
      (∃ y, (u.teamAt tk).ring o.ring = some y ∧ (o.pos % x.slots < 16 → y.full.getLsbD (o.pos % x.slots) = false)) ∧
      (o.bytes ≤ t.w → ∀ k, k ≤ o.width →
        (u.teamAt tk).readScratch (o.off + k * t.w) o.bytes = x.read o.pos (k * o.bytes) o.bytes) ∧
      ∀ a, (∀ k, k ≤ o.width → a < o.off + k * t.w ∨ o.off + k * t.w + o.bytes ≤ a) →
        (u.teamAt tk).readScratch a 1 = t.readScratch a 1 := by
  intro t
  obtain ⟨hid, hpop⟩ := find?_ringOp ho
  have hpush : o.push = false := by simpa using hpop
  obtain ⟨hteam, hread, hothers⟩ := ring_move_pop hpush hx
  obtain ⟨hmem, hended, hteamAt⟩ := endRingOp_ends s tk o
  refine ⟨endRingOp s tk o, ?_, hmem, hended, ?_⟩
  · show execRingPopComplete tk id s = _
    simp only [execRingPopComplete, ho, hturn, if_true]
  · have hring : (o.move t).ring o.ring = some x := by rw [hteam]; exact hx
    have hy := RingOp.ring_endIn hring
    rw [hpush, if_neg Bool.false_ne_true] at hy
    rw [hteamAt]
    refine ⟨?_, ⟨_, hy, fun h16 => getLsbD_putBit_same _ h16 false⟩, hread, hothers⟩
    show (o.move t).ringOps.filter _ = _
    rw [hteam, hid]

/-- A result of the coelostat goes to its slot (R317). -/
theorem goes_ringPushResult {tk id : Nat} {s : State} {o : StrmOut}
    (hnone : (s.teamAt tk).ringOps.find? (fun y => y.id == id && y.push) = none) (ho : outFor s tk id = some o)
    (hturn : (s.teamAt tk).turn true o.ring (some o.pos) = true) :
    Goes (exec (.ringPushComplete tk id) s) fun u => u.mem = s.mem ∧ u.groups = s.groups ∧
      ∀ x, (s.teamAt tk).ring o.ring = some x → ∃ y, (u.teamAt tk).ring o.ring = some y ∧ y.read o.pos 0 o.data.length = o.data := by
  have hexec : exec (.ringPushComplete tk id) s = execRingPushComplete tk id s := rfl
  rw [hexec, execRingPushComplete]
  simp only [hnone, ho, hturn, if_true]
  refine ⟨_, rfl, rfl, rfl, fun x hx => ⟨(x.write o.pos 0 o.data).endPush o.pos, ?_, x.read_write_same o.pos 0 o.data⟩⟩
  show ((s.putTeam tk _).teamAt tk).ring o.ring = _
  rw [State.teamAt_putTeam, Team.ring_modRing, if_pos rfl, hx]
  rfl

end Sys2Proof.Machine
end

section
/-! PROOFS. Matrix commands complete (R187, R194, R200, R201, R207). -/

namespace Sys2Proof.Machine

open Sys2Proof.Safety

/-! The end of the head command. -/

theorem Engine.foretell_queue (e : Engine) : e.foretell.queue = e.queue := by
  refine foldl_keeps (read := Engine.queue) (fun b a _ => ?_) _
  repeat' split
  all_goals rfl

/-- The end of a command's claims changes the rings alone. -/
theorem Team.endClaims_only (t : Team) (c : MatrixCmd) : t.endClaims c = { t with rings := (t.endClaims c).rings } := by
  unfold Team.endClaims
  dsimp only
  cases c.claim1 <;> cases c.claim2 <;> rfl

/-- The push that a drain has claimed completes. -/
theorem Team.endClaims_drain {t : Team} {c : MatrixCmd} {m : Nat} (hop : c.op = .mdrain) (h1 : c.claim1 = some m)
    (h2 : c.claim2 = none) : t.endClaims c = t.modRing c.word.ring fun x => x.endPush m := by
  rw [Team.endClaims, h1, h2, hop]
  rfl

/-- The note of a drain whose redundant copies differ (R201). -/
def mismatchNote (t : Team) (c : MatrixCmd) : List (Word × Word) :=
  ((if c.op = .mdrain ∧ c.loaded = [] ∧ c.life.fault = 0 then mismatchAt t c.word.za c.word.m t.planes else none).map fun p =>
    (BitVec.ofNat 64 (p.2 + 2 ^ 8 * c.word.za + 2 ^ 10 * p.1), c.sample.pc.setWidth 64)).toList

theorem mismatchNote_some {t : Team} {c : MatrixCmd} {k m : Nat} (hop : c.op = .mdrain) (hload : c.loaded = [])
    (hfault : c.life.fault = 0) (h : mismatchAt t c.word.za c.word.m t.planes = some (k, m)) :
    mismatchNote t c = [(BitVec.ofNat 64 (m + 256 * c.word.za + 1024 * k), c.sample.pc.setWidth 64)] := by
  rw [mismatchNote, if_pos ⟨hop, hload, hfault⟩, h]
  rfl

/-- A group with further notes of mismatches. -/
def Group.noteMismatch (l : List (Word × Word)) (g : Group) : Group := { g with mismatch := g.mismatch ++ l }

theorem modGroup_noteMismatch_nil (s : State) (k : Nat) : s.modGroup k (Group.noteMismatch []) = s := by
  have hid : Group.noteMismatch [] = id := funext fun g => by simp [Group.noteMismatch]
  simp [State.modGroup, Assoc.modify, hid]

/-- The head command leaves the queue, its claims end, a difference is noted, and its group is told. -/
theorem endMatrix_eq {s : State} {tk : Nat} {c : MatrixCmd} (hrec : c.child = true → NoRecord c.sample c.life) :
    ∃ e n, e.queue = (s.teamAt tk).engine.queue.drop 1 ∧ endMatrix s tk c = .next (endCommand
      ((countNf (s.putTeam tk { (s.teamAt tk).endClaims c with engine := e }) ((s.teamAt tk).endClaims c).grid n).modGroup c.key
        (Group.noteMismatch (mismatchNote (s.teamAt tk) c))) c.key c.flag c.child false c.life.fault c.life.addr) := by
  have hengine : ((s.teamAt tk).endClaims c).engine = (s.teamAt tk).engine := by rw [Team.endClaims_only]
  have hforetell (b : Bool) (e : Engine) : (if b then e.foretell else e).queue = e.queue := by
    cases b
    · rfl
    · exact e.foretell_queue
  unfold endMatrix mismatchNote
  dsimp only
  rw [ite_eq_right_iff.2 fun hch => writeRecord_none (hrec hch) ..]
  generalize (if c.op = .mdrain ∧ c.loaded = [] ∧ c.life.fault = 0 then
    mismatchAt (s.teamAt tk) c.word.za c.word.m (s.teamAt tk).planes else none) = mm
  cases mm with
  | none =>
    refine ⟨_, _, ?_, congrArg (fun u => Host.Outcome.next (endCommand u c.key c.flag c.child false c.life.fault c.life.addr))
      (modGroup_noteMismatch_nil _ c.key).symm⟩
    rw [hforetell, ← hengine]
  | some p =>
    refine ⟨_, _, ?_, rfl⟩
    rw [hforetell, ← hengine]

theorem countNf_kept (s : State) (grid n : Nat) :
    (countNf s grid n).mem = s.mem ∧ (countNf s grid n).teams = s.teams ∧ (countNf s grid n).groups = s.groups := by
  unfold countNf
  split <;> exact ⟨rfl, rfl, rfl⟩

theorem groupAt_congr {s t : State} (h : t.groups = s.groups) (k : Nat) : t.groupAt k = s.groupAt k := by
  rw [State.groupAt, h, State.groupAt]

theorem teamAt_congr {s t : State} (h : t.teams = s.teams) (k : Nat) : t.teamAt k = s.teamAt k := by
  rw [State.teamAt, h, State.teamAt]

theorem goes_endMatrix {s : State} {tk : Nat} {c : MatrixCmd} (hrec : c.child = true → NoRecord c.sample c.life)
    (hgroup : (Assoc.find? s.groups c.key).isSome = true) : Goes (endMatrix s tk c) fun u => u.mem = s.mem ∧
      (∃ e, u.teamAt tk = { (s.teamAt tk).endClaims c with engine := e } ∧ e.queue = (s.teamAt tk).engine.queue.drop 1) ∧
      CommandEnded s u c.key c.flag c.child ∧
      (u.groupAt c.key).mismatch = (s.groupAt c.key).mismatch ++ mismatchNote (s.teamAt tk) c := by
  obtain ⟨e, n, hqueue, heq⟩ := endMatrix_eq (s := s) (tk := tk) hrec
  obtain ⟨hmem, hteams, hgroups⟩ :=
    countNf_kept (s.putTeam tk { (s.teamAt tk).endClaims c with engine := e }) ((s.teamAt tk).endClaims c).grid n
  generalize countNf (s.putTeam tk { (s.teamAt tk).endClaims c with engine := e }) ((s.teamAt tk).endClaims c).grid n = v at *
  have hteam : v.teamAt tk = { (s.teamAt tk).endClaims c with engine := e } := (teamAt_congr hteams tk).trans (State.teamAt_putTeam ..)
  have hgroupAt : v.groupAt c.key = s.groupAt c.key := groupAt_congr hgroups c.key
  have hpresent : (Assoc.find? v.groups c.key).isSome = true := by rw [hgroups]; exact hgroup
  rw [endCommand_modGroup, modGroup_modGroup] at heq
  refine ⟨_, heq, hmem, ⟨e, hteam, hqueue⟩, ?_⟩
  rw [CommandEnded, State.groupAt_modGroup hpresent, hgroupAt]
  exact ⟨endedIn_ended (Group.noteMismatch _ (s.groupAt c.key)) .., Group.ended_mismatch ..⟩

/-! The writes of a drain (R200). -/

/-- A drain's writes to the scratchpad or to a slot change its team alone, and of that the bytes, the offset tables, the slots and
the engine's notes. -/
def DrainOnly (s : State) (tk : Nat) (u : State) : Prop :=
  (∃ teams, u = { s with teams := teams }) ∧ (Assoc.find? u.teams tk).isSome = true ∧
  ∃ scratch offsets rings drains, u.teamAt tk = { s.teamAt tk with
    scratch := scratch, offsets := offsets, rings := rings, engine := { (s.teamAt tk).engine with drains := drains } }

theorem DrainOnly.refl {s : State} {tk : Nat} (h : (Assoc.find? s.teams tk).isSome = true) : DrainOnly s tk s :=
  ⟨⟨_, rfl⟩, h, _, _, _, _, rfl⟩

theorem isSome_find?_modTeam (s : State) (k : Nat) (f : Team → Team) (h : (Assoc.find? s.teams k).isSome = true) :
    (Assoc.find? (s.modTeam k f).teams k).isSome = true := by
  rw [State.modTeam, Assoc.find?_modify, if_pos rfl, Option.isSome_map]
  exact h

/-- A change of the team that keeps to these fields. -/
theorem DrainOnly.modTeam {s u : State} {tk : Nat} (h : DrainOnly s tk u) {f : Team → Team}
    (hf : ∀ t, ∃ scratch offsets rings drains, f t = { t with
      scratch := scratch, offsets := offsets, rings := rings, engine := { t.engine with drains := drains } }) :
    DrainOnly s tk (u.modTeam tk f) := by
  obtain ⟨⟨_, rfl⟩, hsome, _, _, _, _, hteam⟩ := h
  refine ⟨⟨_, rfl⟩, isSome_find?_modTeam _ tk f hsome, ?_⟩
  rw [State.teamAt_modTeam hsome, hteam]
  obtain ⟨_, _, _, _, hf⟩ := hf _
  rw [hf]
  exact ⟨_, _, _, _, rfl⟩

/-- A plane's bytes go to the scratchpad in one run. -/
theorem store_scratch (s : State) (tk : Nat) (ps : List PagePlace) (x : Sample) (off k : Nat) (bs : List Byte) :
    ∃ f, (Place.scratch off).store s tk ps x k (fromOffset 0 bs) = s.modTeam tk f ∧
      ∀ t, ∃ offsets, f t = { t.writeScratch (off + k * t.w) bs with offsets := offsets } := by
  refine ⟨_, rfl, fun t => ?_⟩
  rw [foldl_set_fromOffset]
  split
  · exact ⟨_, rfl⟩
  · exact ⟨_, rfl⟩

/-- A plane's bytes go to the slot of the claimed position in one run. -/
theorem store_slot (s : State) (tk : Nat) (ps : List PagePlace) (x : Sample) (r pos n k : Nat) (bs : List Byte) :
    (Place.slot r pos n).store s tk ps x k (fromOffset 0 bs) = s.modTeam tk fun t => t.modRing r fun y => y.write pos (k * n) bs := by
  simp only [Place.store, foldl_set_fromOffset]
  rfl

/-- The bytes that a drain writes in a plane of the scratchpad or of a slot. -/
def drainRow (c : MatrixCmd) (x : Tile) : List Byte := if c.word.split then x.codeBytes else x.linearBytes

theorem drainBytes_row {c : MatrixCmd} (h : c.word.kind < 2) (x : Tile) : drainBytes c x = fromOffset 0 (drainRow c x) :=
  if_neg (by omega)

/-- The state once a drain has written its planes. -/
def drainPlanes (s : State) (tk : Nat) (c : MatrixCmd) : State :=
  (drainImages c).zipIdx.foldl (fun s b => (c.first c.word.m 128).1.store s tk [] c.sample b.2 b.1) s

theorem first_scratch {c : MatrixCmd} (h : c.word.kind = 0) (m n : Nat) : (c.first m n).1 = .scratch c.src.toNat := by
  rw [MatrixCmd.first, h]
  rfl

theorem first_slot {c : MatrixCmd} (h : c.word.kind = 1) (m n : Nat) : (c.first m n).1 =
    .slot c.word.ring (c.claim1.getD 0) (operandBytes c.word.fmt (blockLen c.word.b16) m n false) := by
  rw [MatrixCmd.first, h]
  rfl

/-- A plane of a drain's images is the row of the plane's tile. -/
theorem mem_drainImages {c : MatrixCmd} (hkind : c.word.kind < 2) {b : List (Nat × Byte) × Nat} (h : b ∈ (drainImages c).zipIdx) :
    ∃ x, c.loaded[b.2]? = some x ∧ b.1 = fromOffset 0 (drainRow c x) := by
  rw [List.mem_zipIdx_iff_getElem?, drainImages, List.getElem?_map, Option.map_eq_some_iff] at h
  obtain ⟨x, hx, hb⟩ := h
  exact ⟨x, hx, by rw [← hb, drainBytes_row hkind]⟩

theorem drainImages_mem {c : MatrixCmd} (hkind : c.word.kind < 2) {k : Nat} {x : Tile} (h : c.loaded[k]? = some x) :
    (fromOffset 0 (drainRow c x), k) ∈ (drainImages c).zipIdx := by
  rw [List.mem_zipIdx_iff_getElem?, drainImages, List.getElem?_map, h, ← drainBytes_row hkind]
  rfl

theorem DrainOnly.store {s u : State} {tk : Nat} {c : MatrixCmd} (hkind : c.word.kind < 2) (h : DrainOnly s tk u)
    {b : List (Nat × Byte) × Nat} (hb : b ∈ (drainImages c).zipIdx) :
    DrainOnly s tk ((c.first c.word.m 128).1.store u tk [] c.sample b.2 b.1) := by
  obtain ⟨x, -, hrow⟩ := mem_drainImages hkind hb
  rw [hrow]
  rcases (by omega : c.word.kind = 0 ∨ c.word.kind = 1) with hk | hk
  · rw [first_scratch hk]
    obtain ⟨f, hf, hteam⟩ := store_scratch u tk [] c.sample c.src.toNat b.2 (drainRow c x)
    rw [hf]
    refine h.modTeam fun t => ?_
    obtain ⟨_, ht⟩ := hteam t
    exact ⟨_, _, _, _, ht⟩
  · rw [first_slot hk, store_slot]
    exact h.modTeam fun t => ⟨_, _, _, _, rfl⟩

theorem drainOnly_drainPlanes {s : State} {tk : Nat} {c : MatrixCmd} (hkind : c.word.kind < 2)
    (h : (Assoc.find? s.teams tk).isSome = true) : DrainOnly s tk (drainPlanes s tk c) :=
  List.foldlRecOn (motive := DrainOnly s tk) _ _ (.refl h) fun _ hu _ hb => hu.store hkind hb

theorem DrainOnly.w {s u : State} {tk : Nat} (h : DrainOnly s tk u) : (u.teamAt tk).w = (s.teamAt tk).w := by
  obtain ⟨-, -, _, _, _, _, h⟩ := h
  rw [h]

/-- Each plane of a drain to the scratchpad reads back. -/
theorem readScratch_drainPlanes {s : State} {tk : Nat} {c : MatrixCmd} (hkind : c.word.kind = 0)
    (hteam : (Assoc.find? s.teams tk).isSome = true) (hlen : ∀ x ∈ c.loaded, (drainRow c x).length ≤ (s.teamAt tk).w) {k : Nat}
    {x : Tile} (hx : c.loaded[k]? = some x) :
    ((drainPlanes s tk c).teamAt tk).readScratch (c.src.toNat + k * (s.teamAt tk).w) (drainRow c x).length = drainRow c x := by
  have hlt : c.word.kind < 2 := by omega
  have hstore (u : State) (m : Nat) (bs : List Byte) (h : DrainOnly s tk u) (o n : Nat) :
      (((c.first c.word.m 128).1.store u tk [] c.sample m (fromOffset 0 bs)).teamAt tk).readScratch o n =
        ((u.teamAt tk).writeScratch (c.src.toNat + m * (s.teamAt tk).w) bs).readScratch o n := by
    rw [first_scratch hkind, ← h.w]
    obtain ⟨f, hf, hft⟩ := store_scratch u tk [] c.sample c.src.toNat m bs
    obtain ⟨-, hpresent, -⟩ := h
    obtain ⟨_, hft⟩ := hft (u.teamAt tk)
    rw [hf, State.teamAt_modTeam hpresent, hft]
    rfl
  refine foldl_settles (P := DrainOnly s tk)
    (read := fun u => (u.teamAt tk).readScratch (c.src.toNat + k * (s.teamAt tk).w) (drainRow c x).length) (drainImages_mem hlt hx)
    (fun u b hb h => h.store hlt hb) (fun u h => (hstore u k _ h _ _).trans (Team.readScratch_writeScratch_same ..))
    (fun u b hb h => ?_) (.refl hteam)
  obtain ⟨y, hy, hrow⟩ := mem_drainImages hlt hb
  rw [hrow, hstore u b.2 _ h]
  by_cases hbk : b.2 = k
  · rw [hbk, hx] at hy
    cases hy
    exact .inl (hbk ▸ Team.readScratch_writeScratch_same ..)
  · exact .inr (Team.readScratch_writeScratch_outside _
      (rows_apart _ (Ne.symm hbk) (hlen x (List.mem_of_getElem? hx)) (hlen y (List.mem_of_getElem? hy))))

/-- Each plane of a drain to a slot reads back. -/
theorem ringRead_drainPlanes {s : State} {tk m n : Nat} {c : MatrixCmd} {r : Ring} (hkind : c.word.kind = 1)
    (hteam : (Assoc.find? s.teams tk).isSome = true) (hclaim : c.claim1 = some m) (hr : (s.teamAt tk).ring c.word.ring = some r)
    (hn : operandBytes c.word.fmt (blockLen c.word.b16) c.word.m 128 false = n)
    (hlen : ∀ x ∈ c.loaded, (drainRow c x).length ≤ n) :
    ∃ data, ((drainPlanes s tk c).teamAt tk).ring c.word.ring = some { r with data := data } ∧
      ∀ k x, c.loaded[k]? = some x → ({ r with data := data } : Ring).read m (k * n) (drainRow c x).length = drainRow c x := by
  have hlt : c.word.kind < 2 := by omega
  have hstore (u : State) (k : Nat) (bs : List Byte) (h : DrainOnly s tk u) :
      (((c.first c.word.m 128).1.store u tk [] c.sample k (fromOffset 0 bs)).teamAt tk).ring c.word.ring =
        ((u.teamAt tk).ring c.word.ring).map fun y => y.write m (k * n) bs := by
    obtain ⟨-, hpresent, -⟩ := h
    rw [first_slot hkind, store_slot, State.teamAt_modTeam hpresent, Team.ring_modRing, if_pos rfl, hclaim, hn]
    rfl
  have hdata : ∃ data, ((drainPlanes s tk c).teamAt tk).ring c.word.ring = some { r with data := data } := by
    refine (List.foldlRecOn (motive := fun u => DrainOnly s tk u ∧ ∃ data, (u.teamAt tk).ring c.word.ring = some { r with data := data })
      _ _ ⟨.refl hteam, r.data, hr⟩ fun u ⟨hu, data, hd⟩ b hb => ⟨hu.store hlt hb, ?_⟩).2
    obtain ⟨x, -, hrow⟩ := mem_drainImages hlt hb
    exact ⟨_, by rw [hrow, hstore u b.2 _ hu, hd]; rfl⟩
  obtain ⟨data, hd⟩ := hdata
  refine ⟨data, hd, fun k x hx => ?_⟩
  have hread := foldl_settles (P := fun u => DrainOnly s tk u ∧ ((u.teamAt tk).ring c.word.ring).isSome = true)
    (f := fun u (b : List (Nat × Byte) × Nat) => (c.first c.word.m 128).1.store u tk [] c.sample b.2 b.1)
    (read := fun u => ((u.teamAt tk).ring c.word.ring).map fun y => y.read m (k * n) (drainRow c x).length)
    (v := some (drainRow c x)) (drainImages_mem hlt hx)
    (fun u b hb ⟨h, hring⟩ => ⟨h.store hlt hb, by
      obtain ⟨y, -, hrow⟩ := mem_drainImages hlt hb
      rw [hrow, hstore u b.2 _ h, Option.isSome_map]
      exact hring⟩)
    (fun u ⟨h, hring⟩ => by
      obtain ⟨z, hz⟩ := Option.isSome_iff_exists.1 hring
      rw [hstore u k _ h, hz, Option.map_some, Option.map_some, Ring.read_write_same])
    (fun u b hb ⟨h, hring⟩ => by
      obtain ⟨y, hy, hrow⟩ := mem_drainImages hlt hb
      obtain ⟨z, hz⟩ := Option.isSome_iff_exists.1 hring
      rw [hrow, hstore u b.2 _ h, hz, Option.map_some, Option.map_some, Option.map_some]
      by_cases hbk : b.2 = k
      · rw [hbk, hx] at hy
        cases hy
        rw [hbk, Ring.read_write_same]
        exact .inl rfl
      · refine .inr (congrArg some (Ring.read_write_outside z m ?_))
        have := rows_apart 0 (Ne.symm hbk) (hlen x (List.mem_of_getElem? hx)) (hlen y (List.mem_of_getElem? hy))
        omega) (b := s) ⟨.refl hteam, by rw [hr]; rfl⟩
  rw [show List.foldl _ _ _ = drainPlanes s tk c from rfl, hd, Option.map_some] at hread
  exact Option.some.inj hread

end Sys2Proof.Machine
end

section
/-! PROOFS. The head command of the matrix engine: what its completion leaves (R200, R201, R207). -/

namespace Sys2Proof.Machine

open Sys2Proof.Safety

/-! The scales of a split drain (R51, R200). -/

/-- The writes of a split drain's scales. -/
def scaleWrites (base : Nat) (tiles : List Tile) : List RegWrite :=
  tiles.zipIdx.flatMap fun t => t.1.scaleRegs.zipIdx.map fun q => .q t.2 (base + q.2) q.1

theorem mem_scaleWrites {base : Nat} {tiles : List Tile} {w : RegWrite} : w ∈ scaleWrites base tiles ↔
    ∃ k x i q, tiles[k]? = some x ∧ x.scaleRegs[i]? = some q ∧ w = .q k (base + i) q := by
  simp only [scaleWrites, List.mem_flatMap, List.mem_map, Prod.exists, List.mem_zipIdx_iff_getElem?]
  constructor
  · rintro ⟨x, k, hx, q, i, hq, rfl⟩
    exact ⟨k, x, i, q, hx, hq, rfl⟩
  · rintro ⟨k, x, i, q, hx, hq, rfl⟩
    exact ⟨x, k, hx, q, i, hq, rfl⟩

/-- Writes of scale registers change nothing else, but for what an evicted continuation keeps of them. -/
theorem completeWrites_scales {l : List RegWrite} (h : ∀ w ∈ l, ∃ p n x, w = .q p n x) (g : Group) :
    ∃ q late, g.completeWrites l = { g with q := q, late := late } := by
  obtain ⟨q, hq⟩ : ∃ q, l.foldl Group.putReg g = { g with q := q } := by
    refine List.foldlRecOn (motive := fun h : Group => ∃ q, h = { g with q := q }) l _ ⟨_, rfl⟩ fun g' ⟨q, hg'⟩ w hw => ?_
    obtain ⟨p, n, x, rfl⟩ := h w hw
    exact ⟨_, by rw [hg']; rfl⟩
  unfold Group.completeWrites
  rw [hq]
  dsimp only
  split
  · exact ⟨_, _, rfl⟩
  · exact ⟨_, _, rfl⟩

theorem takeScales_only (g : Group) (base : Nat) (tiles : List Tile) :
    ∃ q late, g.takeScales base tiles = { g with q := q, late := late } :=
  completeWrites_scales (fun w hw => by
    obtain ⟨k, x, i, q, -, -, rfl⟩ := mem_scaleWrites.1 hw
    exact ⟨_, _, _, rfl⟩) g

theorem readQ_takeScales (g : Group) {base : Nat} {tiles : List Tile} (hfit : ∀ x ∈ tiles, base + x.scaleRegs.length ≤ 512)
    {k i : Nat} {x : Tile} {q : ScaleReg} (hx : tiles[k]? = some x) (hq : x.scaleRegs[i]? = some q) :
    (g.takeScales base tiles).readQ k (base + i) = q := by
  have hlt (m j : Nat) (y : Tile) (v : ScaleReg) (hy : tiles[m]? = some y) (hv : y.scaleRegs[j]? = some v) : base + j < 512 := by
    have hj := (List.getElem?_eq_some_iff.1 hv).1
    have := hfit y (List.mem_of_getElem? hy)
    omega
  have hlate : (g.takeScales base tiles).readQ k (base + i) = ((scaleWrites base tiles).foldl Group.putReg g).readQ k (base + i) := by
    show (Group.completeWrites g (scaleWrites base tiles)).readQ _ _ = _
    unfold Group.completeWrites
    dsimp only
    split <;> rfl
  rw [hlate]
  refine foldl_settles (P := fun _ => True) (f := Group.putReg) (read := fun h : Group => h.readQ k (base + i))
    (mem_scaleWrites.2 ⟨k, x, i, q, hx, hq, rfl⟩) (fun _ _ _ _ => trivial) (fun h _ => ?_) (fun h w hw _ => ?_) trivial
  · show (h.writeQ k (base + i) q).readQ k (base + i) = q
    simp
  · obtain ⟨m, y, j, v, hy, hv, rfl⟩ := mem_scaleWrites.1 hw
    have hi := hlt k i x q hx hq
    have hj := hlt m j y v hy hv
    show (h.writeQ m (base + j) v).readQ k (base + i) = q ∨ (h.writeQ m (base + j) v).readQ k (base + i) = h.readQ k (base + i)
    rw [Group.readQ_writeQ]
    split
    · next hsame =>
      obtain ⟨rfl, rfl⟩ : m = k ∧ j = i := by omega
      rw [hx] at hy
      cases hy
      exact .inl (Option.some.inj (hv.symm.trans hq))
    · exact .inr rfl

/-! The completion of the head command (R207). -/

/-- A drain writes planes at its completion (R200). -/
def DrainWrites (c : MatrixCmd) : Prop :=
  c.op = .mdrain ∧ c.passes = c.total ∧ c.life.fault = 0 ∧ c.loaded ≠ [] ∧ c.word.kind < 2

/-- The state once a drain has written its planes and noted its ranges. -/
def drainNoted (s : State) (tk : Nat) (c : MatrixCmd) : State :=
  if c.word.kind = 0 then (drainPlanes s tk c).modTeam tk (·.noteDrain c ((drainImages c).headD []).length) else drainPlanes s tk c

/-- The state once a drain has written its planes and its scales. -/
def drainDone (s : State) (tk : Nat) (c : MatrixCmd) : State :=
  if c.word.split then (drainNoted s tk c).modGroup c.key (·.takeScales c.word.qbase c.loaded) else drainNoted s tk c

/-- `d` is the command `c` with other counts of passes and bytes. -/
def Counted (c d : MatrixCmd) : Prop :=
  ∃ passes life, d = { c with passes := passes, life := life } ∧ life.fault = c.life.fault ∧ life.noRing = c.life.noRing

theorem exec_matrixCommandComplete_idle {tk : Nat} {s : State} {c : MatrixCmd} {rest : List MatrixCmd}
    (hqueue : (s.teamAt tk).engine.queue = c :: rest) (hdone : matrixDone (s.teamAt tk) = true) (hidle : ¬ DrainWrites c) :
    ∃ d, Counted c d ∧ exec (.matrixCommandComplete tk) s = endMatrix s tk d := by
  show ∃ d, Counted c d ∧ execMatrixCommandComplete tk s = endMatrix s tk d
  unfold execMatrixCommandComplete
  simp only [hqueue, hdone, Bool.not_true, Bool.false_eq_true, if_false]
  by_cases hop : c.op = .mdrain
  · rw [if_pos hop]
    by_cases hend : c.passes = c.total ∧ c.life.fault = 0
    · have hnone : c.loaded = [] ∨ 2 ≤ c.word.kind := by
        by_contra hsome
        push Not at hsome
        exact hidle ⟨hop, hend.1, hend.2, hsome.1, hsome.2⟩
      rw [if_pos hend]
      refine ⟨{ c with passes := c.passes + 1 }, ⟨_, _, rfl, rfl, rfl⟩, ?_⟩
      simp only [finishDrain, if_pos hnone]
    · rw [if_neg hend]
      exact ⟨c, ⟨_, _, rfl, rfl, rfl⟩, rfl⟩
  · rw [if_neg hop]
    exact ⟨{ c with life := { c.life with bytes := if c.life.fault = 0 then c.readBytes else 0 } }, ⟨_, _, rfl, rfl, rfl⟩, rfl⟩

theorem exec_matrixCommandComplete_writes {tk : Nat} {s : State} {c : MatrixCmd} {rest : List MatrixCmd}
    (hqueue : (s.teamAt tk).engine.queue = c :: rest) (hdone : matrixDone (s.teamAt tk) = true) (hwrites : DrainWrites c)
    (hwhole : c.word.kind = 0 → (s.teamAt tk).wholeTiles c.src.toNat ((drainImages c).headD []).length = true) :
    ∃ d, Counted c d ∧ exec (.matrixCommandComplete tk) s = endMatrix (drainDone s tk c) tk d := by
  obtain ⟨hop, hpasses, hfault, hload, hkind⟩ := hwrites
  show ∃ d, Counted c d ∧ execMatrixCommandComplete tk s = endMatrix (drainDone s tk c) tk d
  unfold execMatrixCommandComplete
  simp only [hqueue, hdone, Bool.not_true, Bool.false_eq_true, if_false]
  rw [if_pos hop, if_pos ⟨hpasses, hfault⟩]
  have hsome : ¬(c.loaded = [] ∨ 2 ≤ c.word.kind) := fun h => h.elim hload fun h => by omega
  have hcovers : ¬(c.word.kind = 0 ∧ (!(s.teamAt tk).wholeTiles c.src.toNat ((drainImages c).headD []).length) = true) := fun h => by
    rw [hwhole h.1] at h
    exact Bool.false_ne_true h.2
  refine ⟨(finishDrain s tk c).1, ?_, ?_⟩
  · simp only [finishDrain, if_neg hsome, if_neg hcovers]
    exact ⟨_, _, rfl, rfl, rfl⟩
  · simp only [finishDrain, if_neg hsome, if_neg hcovers]
    rfl

/-- What a drain writes changes, besides its team, nothing but the scales of its group. -/
theorem drainNoted_only {s : State} {tk : Nat} {c : MatrixCmd} (hkind : c.word.kind < 2)
    (hteam : (Assoc.find? s.teams tk).isSome = true) : DrainOnly s tk (drainNoted s tk c) ∧
      ((drainNoted s tk c).teamAt tk).scratch = ((drainPlanes s tk c).teamAt tk).scratch ∧
      ((drainNoted s tk c).teamAt tk).rings = ((drainPlanes s tk c).teamAt tk).rings := by
  have honly := drainOnly_drainPlanes hkind hteam
  unfold drainNoted
  split
  · have ⟨_, hpresent, _⟩ := honly
    refine ⟨honly.modTeam fun t => ⟨_, _, _, _, rfl⟩, ?_⟩
    rw [State.teamAt_modTeam hpresent]
    exact ⟨rfl, rfl⟩
  · exact ⟨honly, rfl, rfl⟩

theorem drainDone_teams (s : State) (tk : Nat) (c : MatrixCmd) : (drainDone s tk c).teams = (drainNoted s tk c).teams ∧
    (drainDone s tk c).mem = (drainNoted s tk c).mem := by
  unfold drainDone
  split <;> exact ⟨rfl, rfl⟩

/-- A team with commands in its engine's queue exists. -/
theorem isSome_team_of_queue {s : State} {tk : Nat} {c : MatrixCmd} {rest : List MatrixCmd}
    (h : (s.teamAt tk).engine.queue = c :: rest) : (Assoc.find? s.teams tk).isSome = true := by
  cases ht : Assoc.find? s.teams tk with
  | none =>
    rw [State.teamAt, ht] at h
    cases h
  | some t => rfl

theorem Counted.record {c d : MatrixCmd} (h : Counted c d) (hrec : c.child = true → NoRecord c.sample c.life) :
    d.child = true → NoRecord d.sample d.life := by
  obtain ⟨passes, life, rfl, -, hring⟩ := h
  intro hchild
  exact (hrec hchild).imp_right fun h => hring.trans h

theorem Counted.mismatchNote {c d : MatrixCmd} (h : Counted c d) (t : Team) : mismatchNote t d = mismatchNote t c := by
  obtain ⟨passes, life, rfl, hfault, -⟩ := h
  simp only [Machine.mismatchNote, hfault]
  rfl

section

variable {tk : Nat} {s : State} {c : MatrixCmd} {rest : List MatrixCmd} (hqueue : (s.teamAt tk).engine.queue = c :: rest)
  (hdone : matrixDone (s.teamAt tk) = true) (hrec : c.child = true → NoRecord c.sample c.life)
  (hgroup : (Assoc.find? s.groups c.key).isSome = true)

include hqueue hdone hrec hgroup

/-- A command that writes nothing at its end only ends. -/
theorem goes_matrixComplete_idle (hidle : ¬ DrainWrites c) : Goes (exec (.matrixCommandComplete tk) s) fun u =>
    u.mem = s.mem ∧ (u.teamAt tk).engine.queue = rest ∧ CommandEnded s u c.key c.flag c.child ∧
    (u.groupAt c.key).mismatch = (s.groupAt c.key).mismatch ++ mismatchNote (s.teamAt tk) c := by
  obtain ⟨d, hd, hexec⟩ := exec_matrixCommandComplete_idle hqueue hdone hidle
  have hnote := hd.mismatchNote (s.teamAt tk)
  have hrec := hd.record hrec
  obtain ⟨_, _, rfl, -, -⟩ := hd
  rw [hexec]
  refine goes_mono (goes_endMatrix hrec hgroup) ?_
  rintro u ⟨hmem, ⟨e, hteam, he⟩, hended, hmismatch⟩
  refine ⟨hmem, ?_, hended, hmismatch.trans (by rw [hnote])⟩
  rw [hteam]
  exact he.trans (by rw [hqueue]; rfl)

/-- A drain that writes planes leaves its team as they leave it, but for its claims, and its group with its scales. -/
theorem goes_matrixComplete_writes (hwrites : DrainWrites c)
    (hwhole : c.word.kind = 0 → (s.teamAt tk).wholeTiles c.src.toNat ((drainImages c).headD []).length = true) :
    Goes (exec (.matrixCommandComplete tk) s) fun u =>
      u.mem = s.mem ∧ (u.teamAt tk).engine.queue = rest ∧
      (∃ e, u.teamAt tk = { ((drainNoted s tk c).teamAt tk).endClaims c with engine := e }) ∧
      EndedIn c.flag c.child
        (if c.word.split then (s.groupAt c.key).takeScales c.word.qbase c.loaded else s.groupAt c.key) (u.groupAt c.key) := by
  obtain ⟨d, hd, hexec⟩ := exec_matrixCommandComplete_writes hqueue hdone hwrites hwhole
  have ⟨_, _, _, _, hkind⟩ := hwrites
  obtain ⟨hteams, hmem⟩ := drainDone_teams s tk c
  obtain ⟨⟨⟨_, hnoted⟩, -, _, _, _, _, hteam⟩, -⟩ := drainNoted_only hkind (isSome_team_of_queue hqueue)
  have hnotedGroups : (drainNoted s tk c).groups = s.groups := by rw [hnoted]
  have hat : (drainDone s tk c).groupAt c.key =
      if c.word.split then (s.groupAt c.key).takeScales c.word.qbase c.loaded else s.groupAt c.key := by
    rw [← groupAt_congr hnotedGroups c.key, drainDone]
    split
    · exact State.groupAt_modGroup (by rw [hnotedGroups]; exact hgroup) _
    · rfl
  have hpresent : (Assoc.find? (drainDone s tk c).groups c.key).isSome = true := by
    unfold drainDone
    split
    · rw [State.modGroup, Assoc.find?_modify, if_pos rfl, Option.isSome_map, hnotedGroups]
      exact hgroup
    · rw [hnotedGroups]
      exact hgroup
  have hrec := hd.record hrec
  obtain ⟨_, _, rfl, -, -⟩ := hd
  rw [hexec]
  refine goes_mono (goes_endMatrix hrec hpresent) ?_
  rintro u ⟨humem, ⟨e, huteam, he⟩, hended, -⟩
  refine ⟨humem.trans (hmem.trans (by rw [hnoted])), ?_, ⟨e, ?_⟩, ?_⟩
  · rw [huteam]
    refine he.trans ?_
    rw [teamAt_congr hteams tk, hteam]
    exact congrArg (List.drop 1) hqueue
  · rw [huteam, teamAt_congr hteams tk]
    rfl
  · rw [← hat]
    exact hended

end

end Sys2Proof.Machine
end

section
/-! PROOFS. Matrix commands, ring operations and coelostat programs complete: the statement. -/

namespace Sys2Proof.Machine

open Sys2Proof.Safety

/-- A split drain leaves in its group its scales and the end of its command. -/
theorem EndedIn.takeScales {flag : Option Nat} {child : Bool} {g h : Group} {base : Nat} {tiles : List Tile}
    (hended : EndedIn flag child (g.takeScales base tiles) h) :
    (∀ m, h.flagCnt m = if flag = some m then g.flagCnt m - 1 else g.flagCnt m) ∧
    SameS g h [] ∧ h.pc = g.pc ∧ h.v = g.v ∧ h.p = g.p ∧ h.a = g.a ∧
    ((∀ x ∈ tiles, base + x.scaleRegs.length ≤ 512) → ∀ k x i q, tiles[k]? = some x → x.scaleRegs[i]? = some q →
      h.readQ k (base + i) = q) := by
  obtain ⟨hflags, -, hs, ⟨hv, hq, hp, ha⟩, hpc⟩ := hended
  have hread := Group.readQ_congr hq
  obtain ⟨q, late, hg⟩ := takeScales_only g base tiles
  refine ⟨?_, ?_, ?_, ?_, ?_, ?_, fun hfit k x i q hx hq => (hread k _).trans (readQ_takeScales g hfit hx hq)⟩
  all_goals rw [hg] at hflags hs hv hp ha hpc
  · exact hflags
  · exact hs
  · exact hpc
  · exact hv
  · exact hp
  · exact ha

/-- Settles O49: the head command of the engine, a ring operation, and a program of the coelostat each complete as stated. -/
theorem matrixAndRingCompletion : Obligations.MatrixAndRingCompletion := by
  intro tk core id s t
  refine ⟨?_, fun o x ho hturn hx _ => goes_ringPushComplete ho hturn hx, fun o x ho hturn hx _ => goes_ringPopComplete ho hturn hx,
    fun o => goes_ringPushResult, fun c rest hnone hqueue => ⟨_, ?_, rfl⟩, fun c => goes_strmComplete⟩
  · intro c rest hqueue hdone hrec hgroup w g n bytes writes hwhole
    have hteam := isSome_team_of_queue hqueue
    by_cases hw : DrainWrites c
    · have ⟨_, _, _, hload, hkind⟩ := hw
      obtain ⟨-, hscratch, hrings⟩ := drainNoted_only hkind hteam
      refine goes_mono (goes_matrixComplete_writes hqueue hdone hrec hgroup hw (hwhole hw)) ?_
      rintro u ⟨hmem, hrest, ⟨e, huteam⟩, hended⟩
      refine ⟨hmem, hrest, fun hnot => ?_, fun _ hsplit => ?_, fun _ hk _ hlen k x hx => ?_, fun m r _ hk _ hclaim hclaim2 hr _ hlen => ?_,
        fun k m _ hnil => absurd hnil hload⟩
      · rwa [if_neg fun hsplit => hnot ⟨hw, hsplit⟩] at hended
      · rw [if_pos hsplit] at hended
        exact hended.takeScales
      · have hread := readScratch_drainPlanes hk hteam hlen hx
        rw [huteam, Team.endClaims_only]
        rwa [Team.readScratch, ← hscratch] at hread
      · obtain ⟨data, hdata, hread⟩ := ringRead_drainPlanes hk hteam hclaim hr rfl hlen
        have hring : (u.teamAt tk).ring w.ring = some (({ r with data := data } : Ring).endPush m) := by
          rw [Team.ring, ← hrings] at hdata
          rw [huteam, Team.endClaims_drain hw.1 hclaim hclaim2]
          show (((drainNoted s tk c).teamAt tk).modRing c.word.ring fun x => x.endPush m).ring c.word.ring = _
          rw [Team.ring_modRing, if_pos rfl, Team.ring, hdata]
          rfl
        exact ⟨_, hring, fun h16 => getLsbD_putBit_same _ h16 true, hread⟩
    · refine goes_mono (goes_matrixComplete_idle hqueue hdone hrec hgroup hw) ?_
      rintro u ⟨hmem, hrest, hended, hmismatch⟩
      refine ⟨hmem, hrest, fun _ => hended, fun h => absurd h hw, fun h => absurd h hw, fun _ _ h => absurd h hw,
        fun k m hop hnil hfault hdiffer => ?_⟩
      rw [hmismatch, mismatchNote_some hop hnil hfault hdiffer]
  · show execCoelostatProgramStart core s = _
    simp only [execCoelostatProgramStart, hnone, hqueue]

end Sys2Proof.Machine
end

section
/-! PROOFS. The boot block and the boot sequence (R407 to R410): what the device's own agents write, and where a reset ends. -/

namespace Sys2Proof.Machine

open Sys2Proof.Safety

/-! Writes below the translation (R252). -/

theorem writeRaw_eq (s : State) (a : Nat) (bs : List Byte) : ∃ u, CachesOnly s u ∧ u.mem = s.mem ∧ writeRaw s a bs = writeBytes u a bs :=
  ⟨_, .foldl (fun s a => cachesOnly_touchFrom s (homeDie a) a true) _ s, foldl_mem (fun s a => touchRaw_mem s a true) _ s, rfl⟩

theorem cachesOnly_writeRaw (s : State) (a : Nat) (bs : List Byte) : CachesOnly s (writeRaw s a bs) := by
  obtain ⟨u, hu, -, h⟩ := writeRaw_eq s a bs
  rw [h]
  exact hu.trans (cachesOnly_writeBytes u a bs)

theorem readByte_writeRaw_outside (s : State) {a c : Nat} {bs : List Byte} (h : c < a ∨ a + bs.length ≤ c) :
    readByte (writeRaw s a bs) c = readByte s c := by
  obtain ⟨u, -, hmem, hw⟩ := writeRaw_eq s a bs
  rw [hw, readByte_writeBytes_outside u a bs h, readByte_congr hmem]

theorem readBytes_writeRaw_outside (s : State) {a c n : Nat} {bs : List Byte} (h : c + n ≤ a ∨ a + bs.length ≤ c) :
    readBytes (writeRaw s a bs) c n = readBytes s c n := by
  refine List.map_congr_left fun i hi => readByte_writeRaw_outside s ?_
  rw [List.mem_range] at hi
  omega

/-- A field of what was written. -/
theorem readBytes_writeRaw_part (s : State) (a : Nat) (pre mid post : List Byte) :
    readBytes (writeRaw s a (pre ++ mid ++ post)) (a + pre.length) mid.length = mid := by
  obtain ⟨u, -, -, hw⟩ := writeRaw_eq s a (pre ++ mid ++ post)
  refine List.ext_getElem (readBytes_length _ _ _) fun i _ hi => ?_
  have hin : pre.length + i < (pre ++ mid ++ post).length := by simp; omega
  simp only [readBytes, List.getElem_map, List.getElem_range, hw, Nat.add_assoc]
  rw [readByte_writeBytes_inside u a _ _ hin, List.getElem_append_left (by simp; omega),
    List.getElem_append_right (Nat.le_add_right _ _)]
  simp

theorem readNat_writeRaw_outside (s : State) {a c n : Nat} {bs : List Byte} (h : c + n ≤ a ∨ a + bs.length ≤ c) :
    readNat (writeRaw s a bs) c n = readNat s c n := by
  rw [readNat, readBytes_writeRaw_outside s h, readNat]

/-- A number among what was written. -/
theorem readNat_writeRaw_part (s : State) (a n x : Nat) (pre post : List Byte) (hx : x < 256 ^ n) :
    readNat (writeRaw s a (pre ++ Bits.leBytes n x ++ post)) (a + pre.length) n = x := by
  have h := readBytes_writeRaw_part s a pre (Bits.leBytes n x) post
  rw [leBytes_length] at h
  rw [readNat, h, leNat_leBytes, Nat.mod_eq_of_lt hx]

theorem readNat_writeRaw_same (s : State) (a n x : Nat) (hx : x < 256 ^ n) : readNat (writeRaw s a (Bits.leBytes n x)) a n = x := by
  simpa using readNat_writeRaw_part s a n x [] [] hx

theorem readNat_writeBoot_same (s : State) (off x : Nat) (hx : x < 256 ^ 8) : readNat (writeBoot s off x) (bootBlock + off) 8 = x :=
  readNat_writeRaw_same s _ 8 x hx

theorem readNat_writeBoot_outside (s : State) {off x c n : Nat} (h : c + n ≤ bootBlock + off ∨ bootBlock + off + 8 ≤ c) :
    readNat (writeBoot s off x) c n = readNat s c n := readNat_writeRaw_outside s (by rwa [leBytes_length])

theorem readBytes_writeBoot_outside (s : State) {off x c n : Nat} (h : c + n ≤ bootBlock + off ∨ bootBlock + off + 8 ≤ c) :
    readBytes (writeBoot s off x) c n = readBytes s c n := readBytes_writeRaw_outside s (by rwa [leBytes_length])

theorem cachesOnly_writeBoot (s : State) (off x : Nat) : CachesOnly s (writeBoot s off x) := cachesOnly_writeRaw _ _ _

/-- A word fits in 8 bytes. -/
theorem toNat_lt_bytes (x : Word) : x.toNat < 256 ^ 8 := by have := x.isLt; omega

/-! A reset under way (R407, R408). -/

/-- The memories of the host and of other devices lie above local HBM and the windows (R234). -/
theorem le_of_spaceOf {a : Nat} (h : 2 ≤ spaceOf a) : 2 ^ 51 ≤ a := by
  simp only [spaceOf, Bits.field, Nat.shiftRight_eq_div_pow] at h
  omega

/-- What every step of a device reset keeps: the flash and the fuses, and the memories of the host and of other devices; and what
it has discarded. -/
structure Wiped (s t : State) : Prop where
  tick : t.tick = s.tick
  slotA : t.slotA = s.slotA
  slotB : t.slotB = s.slotB
  fusedMin : t.fusedMin = s.fusedMin
  cycle : t.cycle = State.reset.cycle
  ctl : t.ctl = State.reset.ctl
  keys : t.keys = State.reset.keys
  high : ∀ a, 2 ≤ spaceOf a → readByte t a = readByte s a

/-- The boot block shows the fused minimum (R410). -/
def MinimumShown (s t : State) : Prop := readNat t (bootBlock + 0x18) 8 = s.fusedMin.toNat

/-- Nothing is placed, and no firmware runs. -/
structure Empty (t : State) : Prop where
  firmware : t.firmware = false
  groups : t.groups = []
  teams : t.teams = []
  grids : t.grids = []

theorem find?_filter {α : Type} (p : Nat → Bool) (l : List (Nat × α)) (k : Nat) (hk : p k = true) :
    Assoc.find? (l.filter fun x => p x.1) k = Assoc.find? l k := by
  induction l with
  | nil => rfl
  | cons x l ih =>
    by_cases hx : x.1 = k
    · rw [List.filter_cons_of_pos (by rw [hx]; exact hk)]
      simp [Assoc.find?, hx]
    · cases hp : p x.1
      · rw [List.filter_cons_of_neg (by simp [hp]), ih]
        simp [Assoc.find?, hx]
      · rw [List.filter_cons_of_pos (by simp [hp])]
        simp [Assoc.find?, hx, ← ih]

/-- `t` has the clock of the model's choices, the flash, the fuses and the memory of `s`. -/
structure FlashKept (s t : State) : Prop where
  tick : t.tick = s.tick
  slotA : t.slotA = s.slotA
  slotB : t.slotB = s.slotB
  fusedMin : t.fusedMin = s.fusedMin
  loaded : t.loaded = s.loaded
  mem : t.mem = s.mem

theorem FlashKept.refl (s : State) : FlashKept s s := ⟨rfl, rfl, rfl, rfl, rfl, rfl⟩

theorem FlashKept.trans {s t u : State} (hst : FlashKept s t) (htu : FlashKept t u) : FlashKept s u :=
  ⟨htu.tick.trans hst.tick, htu.slotA.trans hst.slotA, htu.slotB.trans hst.slotB, htu.fusedMin.trans hst.fusedMin,
    htu.loaded.trans hst.loaded, htu.mem.trans hst.mem⟩

theorem FlashKept.foldl {α : Type} {f : State → α → State} (hf : ∀ s a, FlashKept s (f s a)) (l : List α) (s : State) :
    FlashKept s (l.foldl f s) := by
  induction l generalizing s with
  | nil => exact .refl s
  | cons a l ih => exact (hf s a).trans (ih _)

theorem FlashKept.wiped_discarded {s t : State} (h : FlashKept s t) : Wiped s (discarded t) where
  tick := h.tick
  slotA := h.slotA
  slotB := h.slotB
  fusedMin := h.fusedMin
  cycle := rfl
  ctl := rfl
  keys := rfl
  high a ha := by
    have hfind := find?_filter (fun a => decide (2 ≤ spaceOf a)) t.mem a (decide_eq_true ha)
    exact (congrArg (·.getD (resetByte a)) hfind).trans (readByte_congr h.mem a)

/-- Writes to the boot block keep it. -/
theorem Wiped.writeRaw {s t : State} (h : Wiped s t) {a : Nat} {bs : List Byte} (ha : a + bs.length ≤ 2 ^ 51) :
    Wiped s (writeRaw t a bs) := by
  obtain ⟨_, _, _, _, hw⟩ := cachesOnly_writeRaw t a bs
  have hread (c : Nat) (hc : 2 ≤ spaceOf c) : readByte (Machine.writeRaw t a bs) c = readByte s c := by
    have := le_of_spaceOf hc
    exact (readByte_writeRaw_outside t (.inr (by omega))).trans (h.high c hc)
  constructor
  case high => exact hread
  all_goals rw [hw]
  · exact h.tick
  · exact h.slotA
  · exact h.slotB
  · exact h.fusedMin
  · exact h.cycle
  · exact h.ctl
  · exact h.keys

theorem Wiped.writeBoot {s t : State} (h : Wiped s t) {off x : Nat} (hoff : off ≤ 0x100) : Wiped s (writeBoot t off x) :=
  h.writeRaw (by rw [leBytes_length, bootBlock]; omega)

/-- Only the boot block's fields and the status of the boot sequence change. -/
theorem Wiped.setStatus {s t : State} (h : Wiped s t) (n : Nat) : Wiped s (setStatus t n) :=
  Wiped.writeBoot (t := { t with bootStat := n }) ⟨h.tick, h.slotA, h.slotB, h.fusedMin, h.cycle, h.ctl, h.keys, h.high⟩ (by omega)

theorem MinimumShown.setStatus {s t : State} (h : MinimumShown s t) (n : Nat) : MinimumShown s (setStatus t n) :=
  (readNat_writeBoot_outside _ (.inr (by omega))).trans h

/-- A status is set in the state and in the boot block, and nothing else changes but memory and caches. -/
theorem setStatus_status (t : State) {n : Nat} (hn : n < 8) : CachesOnly { t with bootStat := n } (setStatus t n) ∧
    readNat (setStatus t n) bootBlock 8 = n :=
  ⟨cachesOnly_writeBoot _ 0 n, readNat_writeBoot_same _ 0 n (by omega)⟩

theorem Wiped.halted {s t : State} (h : Wiped s t) : Wiped s (halted t) := by
  refine Wiped.writeBoot (Wiped.writeRaw ?_ (by rw [List.length_replicate, bootBlock]; omega)) (by omega)
  exact ⟨h.tick, h.slotA, h.slotB, h.fusedMin, h.cycle, h.ctl, h.keys, h.high⟩

/-- A halted device has nothing placed, shows its minimum, and has its flash as before. -/
theorem halted_empty (t : State) : Empty (halted t) ∧ MinimumShown t (halted t) ∧ (halted t).loaded = t.loaded ∧ (halted t).boot = t.boot := by
  have hread : MinimumShown t (halted t) := readNat_writeBoot_same _ 0x18 _ (toNat_lt_bytes _)
  obtain ⟨_, _, _, _, h⟩ := (cachesOnly_writeRaw { t with
    firmware := false, windows := [], l2windows := [], grids := [], teams := [], groups := [], svn := 0, measured := [] }
    (bootBlock + 8) (List.replicate 0x48 0)).trans (cachesOnly_writeBoot _ 0x18 t.fusedMin.toNat)
  have h : halted t = _ := h
  exact ⟨by rw [h]; exact ⟨rfl, rfl, rfl, rfl⟩, hread, by rw [h], by rw [h]⟩

end Sys2Proof.Machine
end

section
/-! PROOFS. Where a device reset ends (R407 to R410, R415). -/

namespace Sys2Proof.Machine

open Sys2Proof.Safety

/-! The steps of the boot sequence (R408). -/

/-- Where the boot sequence stands before firmware runs: at step `boot`, with everything discarded but what a reset keeps. -/
structure Booting (s t : State) (boot : Option Nat) : Prop where
  wiped : Wiped s t
  minimum : MinimumShown s t
  empty : Empty t
  at_ : t.boot = boot

/-- The boot sequence has ended early with a status (R408, R410). -/
structure Stopped (s t : State) (n : Nat) : Prop where
  booting : Booting s t none
  bootStat : t.bootStat = n
  shown : readNat t bootBlock 8 = n

/-- The fields of the boot block and of the state for the image that runs (R410). -/
structure ImageShown (t : State) (slotB : Bool) (img : List Byte) : Prop where
  slot : readNat t (bootBlock + 8) 8 = if slotB = true then 1 else 0
  svn : readNat t (bootBlock + 0x10) 8 = imageSvn img
  measured : readBytes t (bootBlock + 0x20) 48 = fixedBytes 48 (measurement img)
  version : t.svn.toNat = imageSvn img

theorem setStatus_bootStat (t : State) (n : Nat) : (setStatus t n).bootStat = n := by
  obtain ⟨_, _, _, _, hset⟩ := cachesOnly_writeBoot { t with bootStat := n } 0 n
  have hset : Machine.setStatus t n = _ := hset
  rw [hset]

theorem Booting.setStatus {s t : State} {b : Option Nat} (h : Booting s t b) {n : Nat} (hn : n < 8) :
    Booting s (setStatus t n) b := by
  obtain ⟨⟨_, _, _, _, hset⟩, -⟩ := setStatus_status t hn
  refine ⟨h.wiped.setStatus n, h.minimum.setStatus n, ?_, ?_⟩
  · rw [hset]
    exact ⟨h.empty.firmware, h.empty.groups, h.empty.teams, h.empty.grids⟩
  · rw [hset]
    exact h.at_

theorem Booting.halted {s t : State} (h : Wiped s t) {b : Option Nat} (hb : t.boot = b) : Booting s (halted t) b := by
  obtain ⟨hempty, hmin, -, hboot⟩ := halted_empty t
  exact ⟨h.halted, hmin.trans (by rw [h.fusedMin]), hempty, hboot.trans hb⟩

theorem FlashKept.beginReset {s t : State} (h : FlashKept s t) :
    Booting s (beginReset t) (some 1) ∧ (beginReset t).loaded = s.loaded := by
  obtain ⟨hempty, hmin, hloaded, -⟩ := halted_empty (discarded t)
  have hmin : MinimumShown s (Machine.halted (discarded t)) := hmin.trans (congrArg BitVec.toNat h.fusedMin)
  have hloaded := hloaded.trans h.loaded
  have hw := h.wiped_discarded.halted
  exact ⟨⟨⟨hw.tick, hw.slotA, hw.slotB, hw.fusedMin, hw.cycle, hw.ctl, hw.keys, hw.high⟩, hmin,
    ⟨hempty.firmware, hempty.groups, hempty.teams, hempty.grids⟩, rfl⟩, hloaded⟩

theorem Wiped.stops {s t : State} (h : Wiped s t) {n : Nat} (hn : n < 8) : Stopped s (bootStops t n) n := by
  obtain ⟨hw, hmin, hempty, -⟩ := Booting.halted h (b := t.boot) rfl
  have hb : Booting s { Machine.halted t with boot := none } none :=
    ⟨⟨hw.tick, hw.slotA, hw.slotB, hw.fusedMin, hw.cycle, hw.ctl, hw.keys, hw.high⟩, hmin,
      ⟨hempty.firmware, hempty.groups, hempty.teams, hempty.grids⟩, rfl⟩
  exact ⟨hb.setStatus hn, setStatus_bootStat _ n, (setStatus_status _ hn).2⟩

/-- A sequence that has ended makes no further step. -/
theorem bootStep_of_none {t : State} (h : t.boot = none) : bootStep t = t := by rw [bootStep, h]

theorem bootImage_congr {s t : State} (hw : Wiped s t) (hloaded : t.loaded = s.loaded) : bootImage t = bootImage s := by
  rw [bootImage, hw.slotA, hw.slotB, hw.fusedMin, hloaded, bootImage]

theorem imageSvn_lt (img : List Byte) : imageSvn img < 256 ^ 8 := by
  have hlt := leNat_lt (part img 8 8)
  have hlen : (part img 8 8).length ≤ 8 := by
    rw [part, List.length_take]
    omega
  have hpow : 2 ^ (8 * (part img 8 8).length) ≤ 2 ^ 64 := Nat.pow_le_pow_right (by omega) (by omega)
  rw [imageSvn]
  omega

theorem fixedBytes_length (n : Nat) (l : List Byte) : (fixedBytes n l).length = n := by simp [fixedBytes]

/-- The boot block's fields for an image, read back. -/
theorem bootBytes_fields (t : State) (slotB : Bool) (img : List Byte) (m : Word) :
    let u := writeRaw t (bootBlock + 8) (bootBytes (slotB, img) m)
    readNat u (bootBlock + 8) 8 = (if slotB = true then 1 else 0) ∧ readNat u (bootBlock + 0x10) 8 = imageSvn img ∧
    readNat u (bootBlock + 0x18) 8 = m.toNat ∧ readBytes u (bootBlock + 0x20) 48 = fixedBytes 48 (measurement img) := by
  intro u
  have hslot : (if slotB = true then 1 else 0) < 256 ^ 8 := by split <;> omega
  have h1 := readNat_writeRaw_part t (bootBlock + 8) 8 (if slotB = true then 1 else 0) []
    (Bits.leBytes 8 (imageSvn img) ++ Bits.leBytes 8 m.toNat ++ fixedBytes 48 (measurement img)) hslot
  have h2 := readNat_writeRaw_part t (bootBlock + 8) 8 (imageSvn img) (Bits.leBytes 8 (if slotB = true then 1 else 0))
    (Bits.leBytes 8 m.toNat ++ fixedBytes 48 (measurement img)) (imageSvn_lt img)
  have h3 := readNat_writeRaw_part t (bootBlock + 8) 8 m.toNat
    (Bits.leBytes 8 (if slotB = true then 1 else 0) ++ Bits.leBytes 8 (imageSvn img)) (fixedBytes 48 (measurement img)) (toNat_lt_bytes m)
  have h4 := readBytes_writeRaw_part t (bootBlock + 8)
    (Bits.leBytes 8 (if slotB = true then 1 else 0) ++ Bits.leBytes 8 (imageSvn img) ++ Bits.leBytes 8 m.toNat)
    (fixedBytes 48 (measurement img)) []
  simp only [List.nil_append, List.append_nil, ← List.append_assoc, leBytes_length, List.length_append, List.length_nil,
    fixedBytes_length] at h1 h2 h3 h4
  exact ⟨h1, h2, h3, h4⟩

/-- An image is shown in the boot block, and the sequence goes on. -/
theorem Booting.bootFields {s t : State} {b : Option Nat} (h : Booting s t b) (slotB : Bool) (img : List Byte) :
    Booting s (bootFields t (slotB, img)) b ∧ ImageShown (bootFields t (slotB, img)) slotB img := by
  obtain ⟨h1, h2, h3, h4⟩ := bootBytes_fields { t with
    svn := BitVec.ofNat 64 (imageSvn img), measured := fixedBytes 48 (measurement img) } slotB img t.fusedMin
  obtain ⟨_, _, _, _, hboth⟩ := (cachesOnly_writeRaw { t with
    svn := BitVec.ofNat 64 (imageSvn img), measured := fixedBytes 48 (measurement img) }
    (bootBlock + 8) (bootBytes (slotB, img) t.fusedMin)).trans (cachesOnly_writeBoot _ 0x50 0)
  have hset : Machine.bootFields t (slotB, img) = _ := hboth
  have hlen : (bootBytes (slotB, img) t.fusedMin).length = 72 := by
    simp [bootBytes, fixedBytes_length]
  have hwiped : Wiped s (Machine.bootFields t (slotB, img)) := by
    refine Wiped.writeBoot (Wiped.writeRaw ?_ (by rw [hlen, bootBlock]; omega)) (by omega)
    exact ⟨h.wiped.tick, h.wiped.slotA, h.wiped.slotB, h.wiped.fusedMin, h.wiped.cycle, h.wiped.ctl, h.wiped.keys, h.wiped.high⟩
  have hversion : (Machine.bootFields t (slotB, img)).svn.toNat = imageSvn img := by
    rw [hset]
    exact (BitVec.toNat_ofNat _ _).trans (Nat.mod_eq_of_lt (imageSvn_lt img))
  refine ⟨⟨hwiped, ?_, ?_, ?_⟩, ⟨?_, ?_, ?_, hversion⟩⟩
  · exact (readNat_writeBoot_outside _ (.inl (by omega))).trans (h3.trans (by rw [h.wiped.fusedMin]))
  · rw [hset]
    exact ⟨h.empty.firmware, h.empty.groups, h.empty.teams, h.empty.grids⟩
  · rw [hset]
    exact h.at_
  · exact (readNat_writeBoot_outside _ (.inl (by omega))).trans h1
  · exact (readNat_writeBoot_outside _ (.inl (by omega))).trans h2
  · exact (readBytes_writeBoot_outside _ (.inl (by omega))).trans h4

/-- Firmware runs an image (R408, R410). -/
structure Running (s t : State) (slotB : Bool) (img : List Byte) : Prop where
  wiped : Wiped s t
  minimum : MinimumShown s t
  image : ImageShown t slotB img
  at_ : t.boot = none
  bootStat : t.bootStat = 1
  shown : readNat t bootBlock 8 = 1
  firmware : t.firmware = true
  placed : t.groups = State.reset.groups ∧ t.teams = State.reset.teams ∧ t.grids = State.reset.grids

/-- Firmware runs, with the windows and what is placed of `r`. -/
def firmwareUp (r t : State) : State :=
  { t with boot := none, firmware := true, windows := r.windows, l2windows := r.l2windows, grids := r.grids, teams := r.teams, groups := r.groups }

theorem bootStep_one {t : State} (h : t.boot = some 1) :
    bootStep t = if Config.trainingFails t.tick 1 then bootStops t 3 else setStatus { t with boot := some 2 } 0 := by
  simp only [bootStep, h]

theorem bootStep_two_none {t : State} (h : t.boot = some 2) (himage : bootImage t = none) : bootStep t = bootStops t 2 := by
  simp only [bootStep, h, himage]

theorem bootStep_two_some {t : State} (h : t.boot = some 2) {image : Bool × List Byte} (himage : bootImage t = some image) :
    bootStep t = bootFields { t with boot := some 3, loaded := false } image := by
  simp only [bootStep, h, himage]

theorem bootStep_three {t : State} (h : t.boot = some 3) :
    bootStep t = if Config.trainingFails t.tick 3 then bootStops t 3 else { t with boot := some 4 } := by
  simp only [bootStep, h]

theorem bootStep_four {t : State} (h : t.boot = some 4) : bootStep t = setStatus (firmwareUp State.reset t) 1 := by
  simp only [bootStep, h]
  rfl

theorem Wiped.firmwareUp {s t : State} (h : Wiped s t) (r : State) : Wiped s (firmwareUp r t) :=
  ⟨h.tick, h.slotA, h.slotB, h.fusedMin, h.cycle, h.ctl, h.keys, h.high⟩

theorem ImageShown.firmwareUp {t : State} {slotB : Bool} {img : List Byte} (h : ImageShown t slotB img) (r : State) :
    ImageShown (Machine.setStatus (Machine.firmwareUp r t) 1) slotB img where
  slot := (readNat_writeBoot_outside _ (.inr (by omega))).trans h.slot
  svn := (readNat_writeBoot_outside _ (.inr (by omega))).trans h.svn
  measured := (readBytes_writeBoot_outside _ (.inr (by omega))).trans h.measured
  version := by
    obtain ⟨⟨_, _, _, _, hset⟩, -⟩ := setStatus_status (Machine.firmwareUp r t) (n := 1) (by omega)
    rw [hset]
    exact h.version

theorem MinimumShown.firmwareUp {s t : State} (h : MinimumShown s t) (r : State) : MinimumShown s (Machine.setStatus (Machine.firmwareUp r t) 1) :=
  MinimumShown.setStatus (t := Machine.firmwareUp r t) h 1

theorem firmwareUp_runs {r t u : State} (h : u = setStatus (firmwareUp r t) 1) :
    u.boot = none ∧ u.firmware = true ∧ u.groups = r.groups ∧ u.teams = r.teams ∧ u.grids = r.grids := by
  obtain ⟨⟨_, _, _, _, hset⟩, -⟩ := setStatus_status (firmwareUp r t) (n := 1) (by omega)
  rw [h, hset]
  exact ⟨rfl, rfl, rfl, rfl, rfl⟩

/-- The last step: firmware places the dispatcher. -/
theorem Booting.runs {s t : State} (h : Booting s t (some 4)) {slotB : Bool} {img : List Byte} (himg : ImageShown t slotB img) :
    Running s (bootStep t) slotB img := by
  have hstep := bootStep_four h.at_
  obtain ⟨hboot, hfirmware, hplaced⟩ := firmwareUp_runs hstep
  have hwiped := (h.wiped.firmwareUp State.reset).setStatus 1
  have hmin := h.minimum.firmwareUp State.reset
  have himg := himg.firmwareUp State.reset
  have hstat := setStatus_bootStat (Machine.firmwareUp State.reset t) 1
  have hshown := (setStatus_status (Machine.firmwareUp State.reset t) (n := 1) (by omega)).2
  rw [← hstep] at hwiped hmin himg hstat hshown
  exact ⟨hwiped, hmin, himg, hboot, hstat, hshown, hfirmware, hplaced⟩

/-- A step of the sequence that only counts on. -/
theorem Booting.moveOn {s t : State} {b : Option Nat} (h : Booting s t b) (n : Nat) (loaded : Bool) :
    Booting s { t with boot := some n, loaded := loaded } (some n) :=
  ⟨⟨h.wiped.tick, h.wiped.slotA, h.wiped.slotB, h.wiped.fusedMin, h.wiped.cycle, h.wiped.ctl, h.wiped.keys, h.wiped.high⟩,
    h.minimum, ⟨h.empty.firmware, h.empty.groups, h.empty.teams, h.empty.grids⟩, rfl⟩

theorem Booting.stopsAtOne {s t : State} (h : Booting s t (some 1)) (hfails : Config.trainingFails s.tick 1 = true) :
    Stopped s (bootStep t) 3 := by
  rw [bootStep_one h.at_, if_pos (by rw [h.wiped.tick]; exact hfails)]
  exact h.wiped.stops (by omega)

theorem Booting.stepOne {s t : State} (h : Booting s t (some 1)) (hno : Config.trainingFails s.tick 1 = false) :
    Booting s (bootStep t) (some 2) ∧ (bootStep t).loaded = t.loaded := by
  rw [bootStep_one h.at_, if_neg (by rw [h.wiped.tick, hno]; exact Bool.false_ne_true)]
  obtain ⟨⟨_, _, _, _, hset⟩, -⟩ := setStatus_status { t with boot := some 2 } (n := 0) (by omega)
  exact ⟨(h.moveOn 2 t.loaded).setStatus (by omega), by rw [hset]⟩

theorem Booting.stopsAtTwo {s t : State} (h : Booting s t (some 2)) (himage : bootImage t = none) : Stopped s (bootStep t) 2 := by
  rw [bootStep_two_none h.at_ himage]
  exact h.wiped.stops (by omega)

theorem Booting.stepTwo {s t : State} (h : Booting s t (some 2)) {slotB : Bool} {img : List Byte}
    (himage : bootImage t = some (slotB, img)) : Booting s (bootStep t) (some 3) ∧ ImageShown (bootStep t) slotB img := by
  rw [bootStep_two_some h.at_ himage]
  exact (h.moveOn 3 false).bootFields slotB img

theorem Booting.stopsAtThree {s t : State} (h : Booting s t (some 3)) (hfails : Config.trainingFails s.tick 3 = true) :
    Stopped s (bootStep t) 3 := by
  rw [bootStep_three h.at_, if_pos (by rw [h.wiped.tick]; exact hfails)]
  exact h.wiped.stops (by omega)

theorem Booting.stepThree {s t : State} (h : Booting s t (some 3)) (hno : ¬ Config.trainingFails s.tick 3 = true) {slotB : Bool}
    {img : List Byte} (himg : ImageShown t slotB img) : Booting s (bootStep t) (some 4) ∧ ImageShown (bootStep t) slotB img := by
  rw [bootStep_three h.at_, if_neg (by rw [h.wiped.tick]; exact hno)]
  exact ⟨h.moveOn 4 t.loaded, himg.slot, himg.svn, himg.measured, himg.version⟩

/-- Where a device reset ends (R408): it stops at the training of links, or without a valid image, or an image runs. -/
def ResetEnds (s t : State) : Prop :=
  (Config.trainingFails s.tick 1 = true → Stopped s t 3) ∧
  (Config.trainingFails s.tick 1 = false → bootImage s = none → Stopped s t 2) ∧
  ∀ slotB img, Config.trainingFails s.tick 1 = false → bootImage s = some (slotB, img) →
    if Config.trainingFails s.tick 3 = true then Stopped s t 3 else Running s t slotB img

theorem FlashKept.deviceReset_ends {s s' : State} (h : FlashKept s s') : ResetEnds s (deviceReset s') := by
  obtain ⟨h0, hloaded⟩ := h.beginReset
  have hend {t : State} {n : Nat} (h : Stopped s t n) : bootStep t = t := bootStep_of_none h.booting.at_
  unfold deviceReset
  refine ⟨fun hfails => ?_, fun hno hnone => ?_, fun slotB img hno himage => ?_⟩
  · have hstop := h0.stopsAtOne hfails
    rw [hend hstop, hend hstop, hend hstop]
    exact hstop
  · obtain ⟨h1, hkept⟩ := h0.stepOne hno
    have hstop := h1.stopsAtTwo ((bootImage_congr h1.wiped (hkept.trans hloaded)).trans hnone)
    rw [hend hstop, hend hstop]
    exact hstop
  · obtain ⟨h1, hkept⟩ := h0.stepOne hno
    obtain ⟨h2, hshown⟩ := h1.stepTwo ((bootImage_congr h1.wiped (hkept.trans hloaded)).trans himage)
    split
    · next hfails =>
      have hstop := h2.stopsAtThree hfails
      rw [hend hstop]
      exact hstop
    · next hno =>
      obtain ⟨h3, hshown⟩ := h2.stepThree hno hshown
      exact h3.runs hshown

end Sys2Proof.Machine
end

section
/-! PROOFS. The events of the device's own agents (R410, R412 to R415): trips, recovery, the fused minimum, attestation, telemetry. -/

namespace Sys2Proof.Machine

open Sys2Proof.Safety

/-! Where a reset ends, as one statement. -/

theorem ResetEnds.cases {s t : State} (h : ResetEnds s t) : (∃ n, Stopped s t n) ∨ ∃ slotB img, Running s t slotB img := by
  obtain ⟨hfails, hnone, hsome⟩ := h
  cases h1 : Config.trainingFails s.tick 1 with
  | true => exact .inl ⟨3, hfails h1⟩
  | false =>
    cases himage : bootImage s with
    | none => exact .inl ⟨2, hnone h1 himage⟩
    | some image =>
      have h3 := hsome image.1 image.2 h1 himage
      split at h3
      · exact .inl ⟨3, h3⟩
      · exact .inr ⟨_, _, h3⟩

/-- What every end of a reset has kept and discarded. -/
theorem ResetEnds.kept {s t : State} (h : ResetEnds s t) :
    (t.slotA = s.slotA ∧ t.slotB = s.slotB ∧ t.fusedMin = s.fusedMin ∧
      (t.firmware = true → t.groups = State.reset.groups ∧ t.teams = State.reset.teams ∧ t.grids = State.reset.grids) ∧
      (t.firmware = false → t.groups = [] ∧ t.teams = [] ∧ t.grids = []) ∧ t.cycle = State.reset.cycle ∧
      t.ctl = State.reset.ctl ∧ t.keys = State.reset.keys ∧ ∀ a, 2 ≤ spaceOf a → readByte t a = readByte s a) ∧
    t.boot = none ∧ readNat t (bootBlock + 0x18) 8 = s.fusedMin.toNat := by
  rcases h.cases with ⟨n, ⟨hw, hmin, hempty, hboot⟩, -, -⟩ | ⟨slotB, img, hrun⟩
  · exact ⟨⟨hw.slotA, hw.slotB, hw.fusedMin, fun hf => absurd (hempty.firmware.symm.trans hf) Bool.false_ne_true,
      fun _ => ⟨hempty.groups, hempty.teams, hempty.grids⟩, hw.cycle, hw.ctl, hw.keys, hw.high⟩, hboot, hmin⟩
  · have hw := hrun.wiped
    exact ⟨⟨hw.slotA, hw.slotB, hw.fusedMin, fun _ => hrun.placed, fun hf => absurd (hf.symm.trans hrun.firmware) Bool.false_ne_true,
      hw.cycle, hw.ctl, hw.keys, hw.high⟩, hrun.at_, hrun.minimum⟩

/-! The thermal trip (R415). -/

theorem flashKept_wakeLog (s : State) (c : Nat) : FlashKept s (wakeLog s c) := by
  refine FlashKept.foldl (fun u p => ?_) _ s
  exact ⟨rfl, rfl, rfl, rfl, rfl, rfl⟩

theorem flashKept_modDies (s : State) (f : Die → Die) : FlashKept s (s.modDies f) := by
  refine FlashKept.foldl (fun u p => ?_) _ s
  exact ⟨rfl, rfl, rfl, rfl, rfl, rfl⟩

theorem flashKept_pended (s : State) (f : Die → Die) (d : Nat) (r : FaultRecord) (cores : List (Nat × Core)) (c : Nat) :
    FlashKept s (wakeLog { pendRecord (s.modDies f) d r with cores := cores } c) := by
  refine FlashKept.trans (flashKept_modDies s f) (FlashKept.trans ?_ (flashKept_wakeLog _ c))
  generalize s.modDies f = u
  exact ⟨rfl, rfl, rfl, rfl, rfl, rfl⟩

/-- The end of a team leaves the flash and the memory. -/
theorem flashKept_abortTeam (s : State) (tk : Nat) (gid : BitVec 32) (reason : AbortReason) (cause pc addr : Word) :
    FlashKept s (abortTeam s tk gid reason cause pc addr) := by
  obtain ⟨w, n, f, groups, teams, colls, cancelled, hw, h⟩ : ∃ w n f groups teams colls cancelled, FlashKept s w ∧
      abortTeam s tk gid reason cause pc addr =
        { w.modGrid n f with groups := groups, teams := teams, colls := colls, cancelled := cancelled } :=
    ⟨_, _, _, _, _, _, _, flashKept_pended s _ _ _ _ _, rfl⟩
  rw [h]
  exact hw.trans ⟨rfl, rfl, rfl, rfl, rfl, rfl⟩

theorem flashKept_machineCheckTeam (s : State) (tk : Nat) (g : Group) : FlashKept s (machineCheckTeam s tk g) := by
  refine (flashKept_abortTeam s tk g.gid .machineCheck g.trapcause (g.trappc.setWidth 64) g.trapaddr).trans ?_
  unfold machineCheckTeam
  generalize abortTeam s tk g.gid .machineCheck g.trapcause (g.trappc.setWidth 64) g.trapaddr = u
  exact ⟨rfl, rfl, rfl, rfl, rfl, rfl⟩

theorem flashKept_tripTeams (s : State) : FlashKept s (tripTeams s) := by
  refine FlashKept.foldl (fun u p => ?_) _ s
  split
  · exact .refl u
  · exact flashKept_machineCheckTeam u p.1 _

/-- A device reset and a thermal trip end in the same ways. -/
theorem goes_deviceReset (s : State) : Goes (exec .deviceReset s) (ResetEnds s) := ⟨_, rfl, (FlashKept.refl s).deviceReset_ends⟩

theorem goes_thermalTrip (s : State) : Goes (exec .thermalTrip s) (ResetEnds s) := ⟨_, rfl, (flashKept_tripTeams s).deviceReset_ends⟩

/-! Recovery and the fused minimum (R412). -/

theorem exec_recover_closed {value : Word} {s : State} (h : windowOpen s recoverField 8 true = false) :
    exec (.recover value) s = .next { s with outputs := s.outputs ++ [.unsupported] } := by
  show execRecover value s = _
  simp only [execRecover, h, Bool.not_false, if_true]
  rfl

theorem exec_recover_checking {value : Word} {s : State} (h : windowOpen s recoverField 8 true = true)
    (hc : s.checking.isSome = true) : exec (.recover value) s = .next s := by
  show execRecover value s = _
  simp only [execRecover, h, hc, Bool.not_true, Bool.false_eq_true, if_false, if_true]

theorem exec_recover_open {value : Word} {s : State} (h : windowOpen s recoverField 8 true = true) (hc : s.checking = none) :
    exec (.recover value) s = .next (endCheck (recoverActs (writeBoot s 0x50 value.toNat) value)) := by
  show execRecover value s = _
  simp only [execRecover, h, hc, Option.isSome_none, Bool.not_true, Bool.false_eq_true, if_false]

/-- A staged image is judged (R412): it goes to slot B, or nothing of the flash changes. -/
theorem recoverImage_judged (s : State) (n : Nat) :
    let t := recoverImage s n
    t.slotA = s.slotA ∧ t.fusedMin = s.fusedMin ∧ t.groups = s.groups ∧
    (n ≤ stagingBytes → imageValid (readBytes s staging n) s.fusedMin = true →
      t.slotB = readBytes s staging n ∧ t.loaded = true ∧ t.bootStat = 4 ∧ readNat t bootBlock 8 = 4) ∧
    ((stagingBytes < n ∨ imageValid (readBytes s staging n) s.fusedMin = false) →
      t.slotB = s.slotB ∧ t.loaded = s.loaded ∧ t.bootStat = 5 ∧ readNat t bootBlock 8 = 5) := by
  intro t
  by_cases hok : n ≤ stagingBytes ∧ imageValid (readBytes s staging n) s.fusedMin = true
  · have ht : t = setStatus { s with slotB := readBytes s staging n, loaded := true } 4 := if_pos hok
    obtain ⟨⟨_, _, _, _, hset⟩, hshown⟩ := setStatus_status { s with slotB := readBytes s staging n, loaded := true } (n := 4) (by omega)
    have hbad : ¬(stagingBytes < n ∨ imageValid (readBytes s staging n) s.fusedMin = false) := fun h => h.elim
      (fun h => absurd hok.1 (Nat.not_le.2 h)) fun h => Bool.false_ne_true (h.symm.trans hok.2)
    rw [← ht] at hset hshown
    refine ⟨?_, ?_, ?_, fun _ _ => ⟨?_, ?_, ?_, hshown⟩, fun h => absurd h hbad⟩
    all_goals rw [hset]
  · have ht : t = setStatus s 5 := if_neg hok
    obtain ⟨⟨_, _, _, _, hset⟩, hshown⟩ := setStatus_status s (n := 5) (by omega)
    rw [← ht] at hset hshown
    refine ⟨?_, ?_, ?_, fun h1 h2 => absurd ⟨h1, h2⟩ hok, fun _ => ⟨?_, ?_, ?_, hshown⟩⟩
    all_goals rw [hset]

/-- The host's write of recover, before what it begins, leaves all but memory and caches, and the staging area. -/
theorem writeBoot_recover (s : State) (x : Nat) : CachesOnly s (writeBoot s 0x50 x) ∧
    ∀ n, readBytes (writeBoot s 0x50 x) staging n = readBytes s staging n :=
  ⟨cachesOnly_writeBoot s 0x50 x, fun n => readBytes_writeBoot_outside s (.inr (by unfold staging; omega))⟩

theorem goes_recover {value : Word} {s : State} (h : windowOpen s recoverField 8 true = true) (hc : s.checking = none)
    (hvalue : value ≠ 0x8000000000000000) (hstat : s.bootStat = 1 ∨ s.bootStat = 2) :
    let n := value.toNat
    Goes (exec (.recover value) s) fun t => t.slotA = s.slotA ∧ t.fusedMin = s.fusedMin ∧ t.groups = s.groups ∧
      (n ≤ stagingBytes → imageValid (readBytes s staging n) s.fusedMin = true →
        t.slotB = readBytes s staging n ∧ t.loaded = true ∧ t.bootStat = 4 ∧ readNat t bootBlock 8 = 4) ∧
      ((stagingBytes < n ∨ imageValid (readBytes s staging n) s.fusedMin = false) →
        t.slotB = s.slotB ∧ t.loaded = s.loaded ∧ t.bootStat = 5 ∧ readNat t bootBlock 8 = 5) := by
  intro n
  obtain ⟨⟨mem, tags, l2, dies, hw⟩, hstaging⟩ := writeBoot_recover s n
  have hacts : endCheck (recoverActs (writeBoot s 0x50 n) value) = recoverImage { writeBoot s 0x50 n with checking := none } n := by
    rw [recoverActs, if_neg hvalue, if_pos (by rw [hw]; exact hstat)]
    rfl
  have hjudged := recoverImage_judged { writeBoot s 0x50 n with checking := none } n
  rw [exec_recover_open h hc, hacts]
  refine ⟨_, rfl, ?_⟩
  have hread : readBytes { writeBoot s 0x50 n with checking := none } staging n = readBytes s staging n := hstaging n
  generalize recoverImage { writeBoot s 0x50 n with checking := none } n = t at hjudged ⊢
  rw [hread] at hjudged
  rw [hw] at hjudged
  exact hjudged

/-- The window stands open while firmware runs (R408). -/
theorem windowOpen_recover {s : State} (h : s.firmware = true) : windowOpen s recoverField 8 true = true := by
  simp [windowOpen, h, recoverField, bootBlock, hbmEnd]

theorem cachesOnly_raiseMinimum {s : State} (hf : s.firmware = true) :
    CachesOnly { s with fusedMin := BitVec.ofNat 64 (max s.fusedMin.toNat s.svn.toNat) } (raiseMinimum s) := by
  unfold raiseMinimum
  rw [hf]
  exact cachesOnly_writeBoot _ _ _

theorem endCheck_none {s : State} (h : s.checking = none) : endCheck s = s := by rw [endCheck, h]

theorem goes_fusedMinimumRaise {s : State} (hf : s.firmware = true) (hc : s.checking = none) :
    Goes (exec (.fusedMinimumRaise 0x8000000000000000) s) fun t => t.slotA = s.slotA ∧ t.slotB = s.slotB ∧
      t.fusedMin.toNat = max s.fusedMin.toNat s.svn.toNat ∧ t.groups = s.groups := by
  have hexec : exec (.fusedMinimumRaise 0x8000000000000000) s = exec (.recover 0x8000000000000000) s := rfl
  have hmax : max s.fusedMin.toNat s.svn.toNat < 2 ^ 64 := Nat.max_lt.2 ⟨s.fusedMin.isLt, s.svn.isLt⟩
  have hw := cachesOnly_writeBoot s 0x50 (0x8000000000000000 : Word).toNat
  rw [hexec, exec_recover_open (windowOpen_recover hf) hc, recoverActs, if_pos rfl]
  generalize writeBoot s 0x50 (0x8000000000000000 : Word).toNat = w at hw ⊢
  obtain ⟨_, _, _, _, hw⟩ := hw
  obtain ⟨_, _, _, _, hraise⟩ := cachesOnly_raiseMinimum (s := w) (by rw [hw]; exact hf)
  refine ⟨_, congrArg Host.Outcome.next (endCheck_none (by rw [hraise, hw]; exact hc)), ?_⟩
  rw [hraise, hw]
  exact ⟨rfl, rfl, (BitVec.toNat_ofNat _ _).trans (Nat.mod_eq_of_lt hmax), rfl⟩

/-! Attestation (R413). -/

/-- The fields of a report, read back. -/
theorem attestBody_fields (s u : State) (post : List Byte) :
    let t := writeRaw u (bootBlock + 0x3000) (attestBody s ++ post)
    readBytes t (bootBlock + 0x3000) 32 = fixedBytes 32 (attestNonce s) ∧
    readBytes t (bootBlock + 0x3020) 48 = fixedBytes 48 s.measured ∧
    readNat t (bootBlock + 0x3050) 8 = s.svn.toNat ∧ readNat t (bootBlock + 0x3058) 8 = s.fusedMin.toNat ∧
    readNat t (bootBlock + 0x3060) 8 = s.ctl.init.toNat := by
  intro t
  let nonce := fixedBytes 32 (attestNonce s)
  let measured := fixedBytes 48 s.measured
  let svn := Bits.leBytes 8 s.svn.toNat
  let least := Bits.leBytes 8 s.fusedMin.toNat
  let init := Bits.leBytes 8 s.ctl.init.toNat
  let tail := List.replicate 408 (0 : Byte) ++ post
  have h1 := readBytes_writeRaw_part u (bootBlock + 0x3000) [] nonce (measured ++ svn ++ least ++ init ++ tail)
  have h2 := readBytes_writeRaw_part u (bootBlock + 0x3000) nonce measured (svn ++ least ++ init ++ tail)
  have h3 := readNat_writeRaw_part u (bootBlock + 0x3000) 8 s.svn.toNat (nonce ++ measured) (least ++ init ++ tail) (toNat_lt_bytes _)
  have h4 := readNat_writeRaw_part u (bootBlock + 0x3000) 8 s.fusedMin.toNat (nonce ++ measured ++ svn) (init ++ tail) (toNat_lt_bytes _)
  have h5 := readNat_writeRaw_part u (bootBlock + 0x3000) 8 s.ctl.init.toNat (nonce ++ measured ++ svn ++ least) tail (toNat_lt_bytes _)
  simp only [nonce, measured, svn, least, init, tail, List.nil_append, ← List.append_assoc, leBytes_length, List.length_append,
    List.length_nil, fixedBytes_length] at h1 h2 h3 h4 h5
  simp only [t, attestBody]
  exact ⟨h1, h2, h3, h4, h5⟩

/-- The request's state word stands before the report. -/
theorem readBytes_afterState (s : State) {a n : Nat} (ha : bootBlock + 0x3000 ≤ a) :
    readBytes (writeRaw s attestRequest (Bits.leBytes 8 2)) a n = readBytes s a n := by
  refine readBytes_writeRaw_outside s (.inr ?_)
  rw [leBytes_length]
  unfold attestRequest
  generalize bootBlock = b at *
  omega

theorem goes_attestation {s : State} (hf : s.firmware = true) (hreq : readNat s attestRequest 8 = 1) :
    Goes (exec .attestation s) fun t => t.groups = s.groups ∧
      readNat t attestRequest 8 = 2 ∧ readBytes t (bootBlock + 0x3000) 32 = fixedBytes 32 (attestNonce s) ∧
      readBytes t (bootBlock + 0x3020) 48 = fixedBytes 48 s.measured ∧
      readNat t (bootBlock + 0x3050) 8 = s.svn.toNat ∧ readNat t (bootBlock + 0x3058) 8 = s.fusedMin.toNat ∧
      readNat t (bootBlock + 0x3060) 8 = s.ctl.init.toNat := by
  obtain ⟨h1, h2, h3, h4, h5⟩ :=
    attestBody_fields s { s with free := s.free + 80, nonce := none } (attestSignatures s (attestBody s))
  have hgroups := ((cachesOnly_writeRaw { s with free := s.free + 80, nonce := none } (bootBlock + 0x3000)
    (attestBody s ++ attestSignatures s (attestBody s))).trans (cachesOnly_writeRaw _ attestRequest (Bits.leBytes 8 2))).groups
  refine ⟨_, ?_, hgroups, readNat_writeRaw_same _ attestRequest 8 2 (by omega), ?_⟩
  · show execAttestation s = _
    simp only [execAttestation, hf, hreq, Bool.not_true, bne_self_eq_false, Bool.or_self, Bool.false_eq_true, if_false]
  · generalize writeRaw { s with free := s.free + 80, nonce := none } (bootBlock + 0x3000)
      (attestBody s ++ attestSignatures s (attestBody s)) = u at *
    rw [readBytes_afterState _ (by omega), readBytes_afterState _ (by omega), readNat, readBytes_afterState _ (by omega),
      readNat, readBytes_afterState _ (by omega), readNat, readBytes_afterState _ (by omega)]
    exact ⟨h1, h2, h3, h4, h5⟩

end Sys2Proof.Machine
end

section
/-! PROOFS. Telemetry and the status counters (R387, R414, R415). -/

namespace Sys2Proof.Machine

open Sys2Proof.Safety

/-! Telemetry (R414). -/

theorem cachesOnly_telemetryWrites (l : List (Nat × Word)) (s : State) : CachesOnly s (l.foldl telemetryWrite s) :=
  .foldl (f := telemetryWrite) (fun s w => cachesOnly_writeRaw s (telemetryBlock + w.1) (Bits.leBytes 8 w.2.toNat)) l s

theorem readNat_telemetryWrite_same (s : State) (o : Nat) (x : Word) :
    readNat (telemetryWrite s (o, x)) (telemetryBlock + o) 8 = x.toNat := readNat_writeRaw_same s _ 8 _ (toNat_lt_bytes x)

theorem readNat_telemetryWrite_ne (s : State) {o c : Nat} (x : Word) (h : c + 8 ≤ o ∨ o + 8 ≤ c) :
    readNat (telemetryWrite s (o, x)) (telemetryBlock + c) 8 = readNat s (telemetryBlock + c) 8 := by
  refine readNat_writeRaw_outside s ?_
  rw [leBytes_length]
  dsimp only
  generalize telemetryBlock = b
  omega

/-- A field of the block is what the last of some writes to it has left. -/
theorem readNat_telemetryWrites {l : List (Nat × Word)} (i : Nat) {o : Nat} {x : Word} (hi : l[i]? = some (o, x))
    (hafter : ∀ w ∈ l.drop (i + 1), o + 8 ≤ w.1 ∨ w.1 + 8 ≤ o) (s : State) :
    readNat (l.foldl telemetryWrite s) (telemetryBlock + o) 8 = x.toNat := by
  obtain ⟨hlt, hget⟩ := List.getElem?_eq_some_iff.1 hi
  rw [← List.take_append_drop i l, List.drop_eq_getElem_cons hlt, hget, List.foldl_append, List.foldl_cons]
  exact (foldl_keeps (f := telemetryWrite) (read := fun s => readNat s (telemetryBlock + o) 8)
    (fun s w hw => readNat_telemetryWrite_ne s w.2 (hafter w hw)) _).trans (readNat_telemetryWrite_same _ o x)

theorem throttleBits_lt (t : Telemetry) (cap : Word) : throttleBits t cap < 2 ^ 64 := by
  unfold throttleBits
  split <;> split <;> omega

/-- The writes of an update one by one (R414). -/
theorem telemetryWrites_eq (t : Telemetry) (seq energy cap : Word) : telemetryWrites t seq energy cap =
    [(0, seq + 1), (0x08, t.power), (0x10, energy), (0x18 + 8 * 0, t.temps.getD 0 0), (0x18 + 8 * 1, t.temps.getD 1 0),
      (0x18 + 8 * 2, t.temps.getD 2 0), (0x18 + 8 * 3, t.temps.getD 3 0), (0x38, BitVec.ofNat 64 (throttleBits t cap)), (0, seq + 2)] := rfl

/-- What an update's writes leave at an offset (R414). -/
def telemetryField (t : Telemetry) (seq energy cap : Word) (o : Nat) (x : Word) : Prop :=
  ∃ i, (telemetryWrites t seq energy cap)[i]? = some (o, x) ∧
    ∀ w ∈ (telemetryWrites t seq energy cap).drop (i + 1), o + 8 ≤ w.1 ∨ w.1 + 8 ≤ o

theorem telemetryField.read {t : Telemetry} {seq energy cap : Word} {o : Nat} {x : Word} (h : telemetryField t seq energy cap o x)
    (s : State) : readNat ((telemetryWrites t seq energy cap).foldl telemetryWrite s) (telemetryBlock + o) 8 = x.toNat := by
  obtain ⟨i, hi, hafter⟩ := h
  exact readNat_telemetryWrites i hi hafter s

/-- The fields of an update: its number, power, energy, temperatures and throttle bits. -/
theorem telemetryFields (t : Telemetry) (seq energy cap : Word) :
    telemetryField t seq energy cap 0 (seq + 2) ∧ telemetryField t seq energy cap 8 t.power ∧
    telemetryField t seq energy cap 0x10 energy ∧ (∀ d, d < 4 → telemetryField t seq energy cap (0x18 + 8 * d) (t.temps.getD d 0)) ∧
    telemetryField t seq energy cap 0x38 (BitVec.ofNat 64 (throttleBits t cap)) := by
  simp only [telemetryField, telemetryWrites_eq]
  refine ⟨⟨8, rfl, by simp⟩, ⟨1, rfl, by simp⟩, ⟨2, rfl, by simp⟩, fun d hd => ⟨d + 3, ?_⟩, ⟨7, rfl, by simp⟩⟩
  match d, hd with
  | 0, _ => exact ⟨rfl, by simp⟩
  | 1, _ => exact ⟨rfl, by simp⟩
  | 2, _ => exact ⟨rfl, by simp⟩
  | 3, _ => exact ⟨rfl, by simp⟩

theorem exec_telemetryUpdate_trip {tel : Telemetry} {s : State} (hf : s.firmware = true) (htrip : tripped tel = true) :
    exec (.telemetryUpdate tel) s = exec .thermalTrip s := by
  show execTelemetryUpdate tel s = execThermalTrip s
  simp only [execTelemetryUpdate, hf, htrip, Bool.not_true, Bool.false_eq_true, if_false, if_true]

theorem endTelemetry_kept (s : State) : CachesOnly { s with telem := [] } (endTelemetry s) ∧
    ∀ a n, readNat (endTelemetry s) a n = readNat (s.telem.foldl telemetryWrite s) a n := by
  have h := cachesOnly_telemetryWrites s.telem s
  unfold endTelemetry
  generalize s.telem.foldl telemetryWrite s = u at h ⊢
  obtain ⟨_, _, _, _, rfl⟩ := h
  exact ⟨⟨_, _, _, _, rfl⟩, fun a n => congrArg Bits.leNat (readBytes_congr rfl a n)⟩

theorem endTelemetry_nil {s : State} (h : s.telem = []) : endTelemetry s = s := by
  rw [endTelemetry, h]
  show { s with telem := [] } = s
  rw [← h]

/-- The greater of two energies. -/
theorem toNat_greater (x y : Word) : (if x.ult y then y else x).toNat = max x.toNat y.toNat := by
  by_cases h : x.ult y = true
  · rw [if_pos h]
    rw [BitVec.ult_iff_lt, BitVec.lt_def] at h
    omega
  · rw [if_neg h]
    rw [BitVec.ult_iff_lt, BitVec.lt_def] at h
    omega

/-- An update that no other is left before (R414). -/
def telemetryBegun (s : State) (tel : Telemetry) : State :=
  { s with
    telem := telemetryWrites tel s.telemSeq (if s.energy.ult tel.energy then tel.energy else s.energy) s.capNext
    telemSeq := s.telemSeq + 2
    energy := if s.energy.ult tel.energy then tel.energy else s.energy
    cap := s.capNext
    capNext := capOf (BitVec.ofNat 64 (readNat s (telemetryBlock + 0x40) 8)) }

theorem goes_telemetryUpdate {tel : Telemetry} {s : State} (hf : s.firmware = true) (htrip : tripped tel = false)
    (hnil : s.telem = []) : Goes (exec (.telemetryUpdate tel) s) fun t => t.groups = s.groups ∧
      t.telemSeq = s.telemSeq + 2 ∧ readNat t telemetryBlock 8 = (s.telemSeq + 2).toNat ∧ t.telem = [] ∧
      readNat t (telemetryBlock + 8) 8 = tel.power.toNat ∧ readNat t (telemetryBlock + 0x10) 8 = max s.energy.toNat tel.energy.toNat ∧
      (∀ d, d < 4 → readNat t (telemetryBlock + 0x18 + 8 * d) 8 = (tel.temps.getD d 0).toNat) ∧
      readNat t (telemetryBlock + 0x38) 8 = throttleBits tel s.capNext ∧ t.cap = s.capNext ∧
      t.capNext = capOf (BitVec.ofNat 64 (readNat s (telemetryBlock + 0x40) 8)) := by
  have hbegun : beginTelemetry s tel = telemetryBegun s tel := by
    rw [beginTelemetry, endTelemetry_nil hnil]
    rfl
  have hexec : exec (.telemetryUpdate tel) s = .next (endTelemetry (telemetryBegun s tel)) := by
    show execTelemetryUpdate tel s = _
    simp only [execTelemetryUpdate, hf, htrip, hbegun, Bool.not_true, Bool.false_eq_true, if_false]
  obtain ⟨hseq, hpower, henergy, htemps, hbits⟩ :=
    telemetryFields tel s.telemSeq (if s.energy.ult tel.energy then tel.energy else s.energy) s.capNext
  obtain ⟨hkept, hsame⟩ := endTelemetry_kept (telemetryBegun s tel)
  have hread {o : Nat} {x : Word} (h : telemetryField tel s.telemSeq
      (if s.energy.ult tel.energy then tel.energy else s.energy) s.capNext o x) :
      readNat (endTelemetry (telemetryBegun s tel)) (telemetryBlock + o) 8 = x.toNat := (hsame _ 8).trans (h.read (telemetryBegun s tel))
  generalize endTelemetry (telemetryBegun s tel) = t at hexec hread hkept hsame
  obtain ⟨_, _, _, _, hkept⟩ := hkept
  have hseq := hread hseq
  rw [Nat.add_zero] at hseq
  refine ⟨t, hexec, ?_, ?_, hseq, ?_, hread hpower, (hread henergy).trans (toNat_greater _ _), fun d hd => ?_,
    (hread hbits).trans ((BitVec.toNat_ofNat _ _).trans (Nat.mod_eq_of_lt (throttleBits_lt tel _))), ?_, ?_⟩
  · rw [hkept]
    rfl
  · rw [hkept]
    rfl
  · rw [hkept]
  · rw [Nat.add_assoc]
    exact hread (htemps d hd)
  · rw [hkept]
    rfl
  · simp only [hkept, telemetryBegun]

/-! The status counters (R387). -/

theorem State.dieAt_putDie (s : State) (d : Nat) (x : Die) : (s.putDie d x).dieAt d = x := by
  simp [State.dieAt, State.putDie]

/-- A counter of the die rises by 1, up to its greatest value, and nothing else changes. -/
theorem countStatus_counts (s : State) (die index : Nat) :
    let t := countStatus s die index
    t = { s with dies := t.dies } ∧ ∀ j, Assoc.get 0 (t.dieAt die).status j =
      if j = index then (if Assoc.get 0 (s.dieAt die).status index = BitVec.allOnes 32 then Assoc.get 0 (s.dieAt die).status index
        else Assoc.get 0 (s.dieAt die).status index + 1)
      else Assoc.get 0 (s.dieAt die).status j := by
  intro t
  refine ⟨rfl, fun j => ?_⟩
  simp only [t, countStatus, State.dieAt_putDie, Assoc.get_set, eq_comm (a := index)]

theorem goes_status {die index : Nat} {i : Instr} {s : State} (hdie : die < 4)
    (hi : (i = Instr.correctedError die index ∧ index ≤ 5) ∨ (i = .linkRetry die index ∧ 6 ≤ index ∧ index ≤ 8)) :
    exec i s = .next (countStatus s die index) := by
  rcases hi with ⟨rfl, h5⟩ | ⟨rfl, h6, h8⟩
  · exact if_neg (by omega)
  · exact if_neg (by omega)

end Sys2Proof.Machine
end

section
/-! PROOFS. A cycle of the clock (R101, R272, R309, R316, R360): the registers and the clock through what settles before the choice. -/

namespace Sys2Proof.Machine

open Sys2Proof.Safety

/-! What settles before a cycle's choice. -/

/-- `h` has the registers of `g`. -/
def SameRegs (g h : Group) : Prop := h.s = g.s ∧ SameLanes g h

theorem SameRegs.refl (g : Group) : SameRegs g g := ⟨rfl, rfl, rfl, rfl, rfl⟩

theorem SameRegs.trans {g h i : Group} (hgh : SameRegs g h) (hhi : SameRegs h i) : SameRegs g i := by
  obtain ⟨hs, hv, hq, hp, ha⟩ := hgh
  obtain ⟨is, iv, iq, ip, ia⟩ := hhi
  exact ⟨is.trans hs, iv.trans hv, iq.trans hq, ip.trans hp, ia.trans ha⟩

theorem SameRegs.sameS {g h : Group} (hgh : SameRegs g h) : SameS g h [] := fun n _ => by
  rw [Group.readS, Group.readS, hgh.1]

/-- The clock and every register of every group are as before. -/
structure Settled (s t : State) : Prop where
  cycle : t.cycle = s.cycle
  firmware : t.firmware = s.firmware
  regs : ∀ k, SameRegs (s.groupAt k) (t.groupAt k)

theorem Settled.refl (s : State) : Settled s s := ⟨rfl, rfl, fun _ => .refl _⟩

theorem Settled.trans {s t u : State} (hst : Settled s t) (htu : Settled t u) : Settled s u :=
  ⟨htu.cycle.trans hst.cycle, htu.firmware.trans hst.firmware, fun k => (hst.regs k).trans (htu.regs k)⟩

theorem Settled.foldl {α : Type} {f : State → α → State} (hf : ∀ s a, Settled s (f s a)) (l : List α) (s : State) :
    Settled s (l.foldl f s) := by
  induction l generalizing s with
  | nil => exact .refl s
  | cons a l ih => exact (hf s a).trans (ih _)

theorem CoresOnly.settled {s t : State} (h : CoresOnly s t) : Settled s t := by
  obtain ⟨hcycle, hfirmware⟩ := h.clock
  exact ⟨hcycle, hfirmware, fun k => by rw [groupAt_congr h.groups]; exact .refl _⟩

theorem settled_modGroup (s : State) (k : Nat) {f : Group → Group} (hf : ∀ g, SameRegs g (f g)) : Settled s (s.modGroup k f) := by
  refine ⟨rfl, rfl, fun n => ?_⟩
  simp only [State.groupAt, State.modGroup, Assoc.find?_modify]
  split
  · cases Assoc.find? s.groups n with
    | none => exact .refl _
    | some g => exact hf g
  · exact .refl _

theorem settled_wakeLog (s : State) (c : Nat) : Settled s (wakeLog s c) := by
  refine Settled.foldl (fun u p => ?_) _ s
  exact settled_modGroup u p.1 fun g => .refl g

theorem settled_acknowledge (s : State) (c : Nat) : Settled s (acknowledge s c) := by
  unfold acknowledge
  dsimp only
  split
  · exact .refl s
  · exact (CoresOnly.putCore s c _).settled.trans (settled_wakeLog _ c)

/-! The page service that waiting stores ask for (R215, R321). -/

theorem CoresOnly.foldl {α : Type} {f : State → α → State} (hf : ∀ s a, CoresOnly s (f s a)) (l : List α) (s : State) :
    CoresOnly s (l.foldl f s) := by
  induction l generalizing s with
  | nil => exact .refl s
  | cons a l ih => exact (hf s a).trans (ih _)

theorem coresOnly_askService (s : State) (die : Nat) (g : Group) (kind level base size detail : Nat) :
    CoresOnly s (askService s die g kind level base size detail) := (CachesOnly.ite (.refl s) (.putDie s die _)).coresOnly

theorem coresOnly_askAcc (s : State) (core : Nat) (g : Group) (a : Acc) : CoresOnly s (askAcc s core g a) := by
  refine CoresOnly.foldl (fun u va => ?_) _ s
  have htrans := coresOnly_translateCore u core va a.kind.writes
  split
  · next h =>
    rw [h] at htrans
    exact htrans.trans (coresOnly_askService ..)
  · exact .refl u

theorem coresOnly_askAll (s : State) (core : Nat) (g : Group) (l : List (Acc × Verdict)) : CoresOnly s (askAll s core g l) := by
  induction l generalizing s with
  | nil => exact .refl s
  | cons x l ih =>
    obtain ⟨a, v⟩ := x
    cases v with
    | service kind level base size => exact (coresOnly_askAcc s core g a).trans (ih _)
    | _ => exact ih s

theorem coresOnly_logStore (s : State) (core key order : Nat) (ready : Bool) (a : Acc) : CoresOnly s (logStore s core key order ready a) :=
  (CoresOnly.putCore s core _).trans (.perfEvent _ core 8 _ 1)

/-! The side log (R272). -/

/-- A store takes an entry of the side log as the group's access. -/
def takeEntry (s : State) (core key order : Nat) (a : Acc) : State :=
  let r := checkAcc { s with cur := ⟨key, none⟩ } core a
  logStore (askAll r.2 core (s.groupAt key) [(a, r.1)]) core key order (!r.1.isService) a

theorem settled_takeEntry (s : State) (core key order : Nat) (a : Acc) : Settled s (takeEntry s core key order a) := by
  have hcur : Settled s { s with cur := ⟨key, none⟩ } := ⟨rfl, rfl, fun _ => .refl _⟩
  have hcheck := coresOnly_checkAcc { s with cur := ⟨key, none⟩ } core a
  exact hcur.trans ((hcheck.trans (coresOnly_askAll _ core _ _)).trans (coresOnly_logStore ..)).settled

theorem settled_putOp (s : State) (k : Nat) (o : LaneOp) : Settled s (s.modGroup k fun g => g.putOp o) :=
  settled_modGroup s k fun g => .refl g

theorem settled_enterLog (s : State) (core ticket : Nat) : Settled s (enterLog s core ticket) := by
  unfold enterLog
  dsimp only
  split
  · next k w _ => exact (settled_takeEntry s core k w.order w.acc).trans (settled_modGroup _ k fun g => .refl g)
  · split
    · exact .refl s
    · next k o _ =>
      split
      · exact settled_putOp s k _
      · next a rest _ => exact (settled_takeEntry s core k (o.logWait.elim 0 (·.2)) a).trans (settled_putOp _ k _)

theorem settled_admitLog (s : State) (core n : Nat) : Settled s (admitLog s core n) := by
  induction n generalizing s with
  | zero => exact .refl s
  | succ n ih =>
    unfold admitLog
    split
    · exact .refl s
    · split
      · exact .refl s
      · exact (settled_enterLog s core _).trans (ih _)

/-! What a cycle brings (R316, R360). -/

theorem settled_raiseFor (s : State) (core tk : Nat) (c : MatrixCmd) : Settled s (raiseFor s core tk c) := by
  unfold raiseFor
  refine List.foldlRecOn (motive := fun a : State × MatrixCmd => Settled s a.1) _ _ (.refl s) fun a ha n _ => ?_
  dsimp only
  split
  · exact ha
  · exact ha.trans ⟨rfl, rfl, fun _ => .refl _⟩

theorem settled_raiseTransfers (s : State) : Settled s (raiseTransfers s) := by
  refine Settled.foldl (fun u p => ?_) _ s
  split
  · exact .foldl (fun v c => settled_raiseFor v p.2.core p.1 c) _ u
  · exact .refl u

theorem settled_settleStores (s : State) : Settled s (settleStores s) := by
  refine Settled.trans (Settled.foldl (fun u c => ?_) _ s) (settled_raiseTransfers _)
  exact (settled_acknowledge u c).trans (settled_admitLog _ c logEntries)

/-- A fold whose steps do nothing to `s`. -/
theorem foldl_fixed {α β : Type} {f : β → α → β} {l : List α} {b : β} (h : ∀ a ∈ l, f b a = b) : l.foldl f b = b :=
  List.foldlRecOn (motive := (· = b)) l f rfl fun _ hc a ha => hc ▸ h a ha

theorem settleStores_idle {s : State} (hcores : ∀ c ∈ s.cores, (s.coreAt c.1).sent = [] ∧ logWaiters s c.1 = [])
    (hteams : ∀ x ∈ s.teams, x.2.engine.queue = []) : settleStores s = s := by
  have hstores : (s.cores.map (·.1)).foldl (fun s c => admitLog (acknowledge s c) c logEntries) s = s := by
    refine foldl_fixed fun c hc => ?_
    obtain ⟨x, hx, rfl⟩ := List.mem_map.1 hc
    obtain ⟨hsent, hwait⟩ := hcores x hx
    have hack : acknowledge s x.1 = s := by simp [acknowledge, hsent]
    rw [hack, show logEntries = 255 + 1 from rfl, admitLog, hwait]
    rfl
  rw [settleStores, hstores]
  refine foldl_fixed fun x hx => ?_
  rw [hteams x hx]
  exact ite_self _

/-- The groups after a cycle: those before it, aged. -/
theorem groupAt_afterCycle {s t : State} {l : List Picked} (h : t.groups = Assoc.mapVals s.groups fun k g => g.afterCycle s l k) (k : Nat) :
    (t.groupAt k).pc = (s.groupAt k).pc ∧ SameRegs (s.groupAt k) (t.groupAt k) := by
  rw [State.groupAt, h, Assoc.find?_mapVals, State.groupAt]
  cases Assoc.find? s.groups k with
  | none => exact ⟨rfl, .refl _⟩
  | some g => exact ⟨rfl, rfl, rfl, rfl, rfl, rfl⟩

theorem goes_coreCycle (s : State) : Goes (exec .coreCycle s) fun t =>
    let s1 := settleStores s
    t.cycle = (if s.firmware = true then s.cycle + 1 else s.cycle) ∧ t.mem = s1.mem ∧
    t.issue = issueOrder s1 ((pickAll s1).filterMap (·.chosen)) ∧
    (∀ k, (t.groupAt k).pc = (s1.groupAt k).pc ∧ SameS (s.groupAt k) (t.groupAt k) [] ∧ SameLanes (s.groupAt k) (t.groupAt k)) ∧
    ((∀ c ∈ s.cores, (s.coreAt c.1).sent = [] ∧ logWaiters s c.1 = []) → (∀ x ∈ s.teams, x.2.engine.queue = []) → s1 = s) := by
  have hsettled := settled_settleStores s
  obtain ⟨t, hexec, hcycle, hmem, hissue, hgroups⟩ : ∃ t, exec .coreCycle s = .next t ∧
      t.cycle = (if (settleStores s).firmware then (settleStores s).cycle + 1 else (settleStores s).cycle) ∧
      t.mem = (settleStores s).mem ∧ t.issue = issueOrder (settleStores s) ((pickAll (settleStores s)).filterMap (·.chosen)) ∧
      t.groups = Assoc.mapVals (settleStores s).groups fun k g => g.afterCycle (settleStores s) (pickAll (settleStores s)) k :=
    ⟨_, rfl, rfl, rfl, rfl, rfl⟩
  refine ⟨t, hexec, ?_, hmem, hissue, fun k => ?_, settleStores_idle⟩
  · rw [hcycle, hsettled.firmware, hsettled.cycle]
  · obtain ⟨hpc, hregs⟩ := groupAt_afterCycle hgroups k
    have hregs := (hsettled.regs k).trans hregs
    exact ⟨hpc, hregs.sameS, hregs.2⟩

end Sys2Proof.Machine
end

section
/-! PROOFS. The clock, errors, device reset, recovery, attestation and telemetry: the statement. -/

namespace Sys2Proof.Machine

open Sys2Proof.Safety

/-- Settles O54: a reset and a trip end where the boot sequence does, and each other event of the device's own agents and of the
clock does what its rule says. -/
theorem resetAndClockEvents : Obligations.ResetAndClockEvents := by
  intro die index n tel value s kept stopped booted
  have hstopped {t : State} {n : Nat} (h : Stopped s t n) : stopped t n := ⟨h.bootStat, h.booting.empty.firmware, h.shown⟩
  have hbooted (t : State) (h : ResetEnds s t) : booted t := by
    obtain ⟨hkept, hboot, hmin⟩ := h.kept
    obtain ⟨hfails, hnone, hsome⟩ := h
    refine ⟨hkept, hboot, hmin, fun h1 => hstopped (hfails h1), fun h1 h2 => hstopped (hnone h1 h2), fun slotB img h1 h2 => ?_⟩
    have hend := hsome slotB img h1 h2
    split
    · next h3 =>
      rw [if_pos h3] at hend
      exact hstopped hend
    · next h3 =>
      rw [if_neg h3] at hend
      exact ⟨hend.bootStat, hend.firmware, hend.shown, hend.image.slot, hend.image.svn, hend.image.measured, hend.image.version⟩
  refine ⟨goes_mono (goes_deviceReset s) hbooted, goes_mono (goes_thermalTrip s) hbooted, exec_recover_closed,
    exec_recover_checking, ?_, goes_fusedMinimumRaise, goes_attestation, exec_telemetryUpdate_trip, goes_telemetryUpdate,
    goes_coreCycle s, fun i hdie hi => ⟨_, goes_status hdie hi, countStatus_counts s die index⟩⟩
  rintro hopen hidle rfl hvalue hstat
  exact goes_recover hopen hidle hvalue hstat

end Sys2Proof.Machine
end

section
/-! PROOFS. The scalar arithmetic and the shifts (R113, R114): words read as integers, and integers written as words. -/

namespace Sys2Proof.Bits

/-- The signed reading of the low bits of a number is that of its word. -/
theorem signed_eq_toInt (x n : Nat) : signed x n = (BitVec.ofNat n x).toInt := by
  rw [signed, BitVec.toInt_eq_toNat_cond, BitVec.toNat_ofNat]
  cases n with
  | zero => simp [Nat.mod_one]
  | succ k =>
    have hpow : 2 ^ (k + 1) = 2 * 2 ^ k := Nat.pow_succ'
    simp only [Nat.add_sub_cancel, ne_eq, Nat.succ_ne_zero, not_false_eq_true, true_and, Nat.cast_pow, Nat.cast_ofNat]
    rw [ite_eq_iff']
    refine ⟨fun h => (if_neg (by omega)).symm, fun h => (if_pos (by omega)).symm⟩

/-- An integer wrapped is the word of that integer. -/
theorem wrap_eq_toNat (t : Int) (n : Nat) : wrap t n = (BitVec.ofInt n t).toNat := by
  rw [wrap, BitVec.toNat_ofInt, Nat.cast_pow, Nat.cast_ofNat]

end Sys2Proof.Bits

namespace Sys2Proof.Machine

open Sys2Proof.Safety

/-- A source is read at the operation's width. -/
theorem AluMods.read_eq (m : AluMods) (x : Word) :
    m.read x = if m.u then ((x.setWidth m.bits).toNat : Int) else (x.setWidth m.bits).toInt := by
  rw [AluMods.read, Bits.signed_eq_toInt, BitVec.ofNat_toNat, BitVec.toNat_setWidth]

/-- A result is wrapped to the operation's width and extended from it. -/
theorem AluMods.extend_eq (m : AluMods) (t : Int) :
    m.extend t = if m.u then (BitVec.ofInt m.bits t).setWidth 64 else (BitVec.ofInt m.bits t).signExtend 64 := by
  rw [AluMods.extend, Bits.signed_eq_toInt, Bits.wrap_eq_toNat, BitVec.ofNat_toNat, BitVec.ofNat_toNat, BitVec.setWidth_eq]
  rfl

theorem AluMods.read_eq_intIn (m : AluMods) (x : Word) : m.read x = intIn m.w m.u x := by
  rw [AluMods.read_eq]
  obtain ⟨w, u, -, -⟩ := m
  cases w <;> cases u <;> simp [AluMods.bits, intIn]

theorem AluMods.extend_eq_intOut (m : AluMods) (t : Int) : m.extend t = intOut m.w m.u t := by
  rw [AluMods.extend_eq]
  obtain ⟨w, u, -, -⟩ := m
  cases w <;> cases u <;> simp [AluMods.bits, intOut]

/-- Clamping to an interval that is not empty. -/
theorem clampI_eq {lo hi : Int} (h : lo ≤ hi) (t : Int) : Bits.clampI t lo hi = max lo (min t hi) := by
  unfold Bits.clampI
  split_ifs <;> omega

theorem AluMods.clamp_eq_intSat (m : AluMods) (t : Int) : m.clamp t = intSat m.w m.u m.sat t := by
  obtain ⟨w, u, sat, hi⟩ := m
  have hpos (k : Nat) : (1 : Int) ≤ 2 ^ k := one_le_pow₀ (by decide)
  rw [AluMods.clamp, intSat, clampI_eq (by linarith [hpos (AluMods.bits ⟨w, u, sat, hi⟩)]),
    clampI_eq (by linarith [hpos (AluMods.bits ⟨w, u, sat, hi⟩ - 1)])]
  cases sat <;> rfl

/-- The model computes the value of R113. -/
theorem arith_eq_r113 (fn : BitVec 7) (op : AluMods → Int → Int → Int) : arith fn op = r113 fn (op (aluMods fn)) := by
  funext x y
  rw [arith, AluMods.extend_eq_intOut, AluMods.clamp_eq_intSat, AluMods.read_eq_intIn, AluMods.read_eq_intIn]
  rfl

/-- A remainder is what the quotient leaves (R113). -/
theorem divide_eq_r113div (m : AluMods) : divide m = r113div m.hi := by
  funext a b
  rw [divide, r113div, Int.tmod_def, Int.mul_comm b]

/-- With none of its registers awaited an SR instruction writes its value and goes on. -/
theorem aluSR_free {f : SR} {s : State} (h : Free s [f.dest.toNat, f.src1.toNat, f.src2.toNat]) (v : Word → Word → Word) :
    aluSR f s v = .next (wrote s f.dest.toNat (v (s.group.readS f.src1.toNat) (s.group.readS f.src2.toNat)) 4) :=
  scalarSet_free h

/-- Settles O1: each of the six is one computation of R113, with its own operation. -/
theorem scalarArithmeticResult : Obligations.ScalarArithmeticResult := by
  intro f s x y d h
  have harith (op : AluMods → Int → Int → Int) :
      aluSR f s (arith f.fn op) = .next (wrote s d (r113 f.fn (op (aluMods f.fn)) x y) 4) := by
    rw [aluSR_free h, arith_eq_r113]
  refine ⟨harith _, harith _, (harith _).trans ?_, (harith _).trans ?_, harith _, harith _⟩
  · simp only [Int.fdiv_eq_ediv_of_nonneg _ (by decide : (0:Int) ≤ 2 ^ 64)]
    rfl
  · rw [divide_eq_r113div]
    rfl

/-! Shifts (R114). -/

/-- SHL's result has a sign (R114). -/
theorem shiftLeft_eq {m : AluMods} (hu : m.u = false) (x : Word) (k : Nat) :
    shiftLeft m x k = ((x.setWidth m.bits) <<< k).signExtend 64 := by
  have hword : BitVec.ofInt m.bits ((x.toNat % 2 ^ m.bits * 2 ^ k % 2 ^ m.bits : Nat) : Int) = (x.setWidth m.bits) <<< k := by
    refine BitVec.eq_of_toNat_eq ?_
    rw [BitVec.ofInt_natCast, BitVec.toNat_ofNat, BitVec.toNat_shiftLeft, BitVec.toNat_setWidth, Nat.shiftLeft_eq, Nat.mod_mod]
  rw [shiftLeft, AluMods.extend_eq, hu, if_neg Bool.false_ne_true, hword]

/-- SHR.u shifts in zeros (R114). -/
theorem shiftRight_logical {m : AluMods} (hu : m.u = true) (x : Word) (k : Nat) :
    shiftRight m x k = ((x.setWidth m.bits) >>> k).setWidth 64 := by
  have hword (a : BitVec m.bits) : BitVec.ofInt m.bits ((a.toNat : Int) / 2 ^ k) = a >>> k := by
    refine BitVec.eq_of_toNat_eq ?_
    have hcast : (a.toNat : Int) / 2 ^ k = ((a >>> k).toNat : Nat) := by
      rw [BitVec.toNat_ushiftRight, Nat.shiftRight_eq_div_pow]
      push_cast
      rfl
    rw [hcast, BitVec.ofInt_natCast, BitVec.ofNat_toNat, BitVec.setWidth_eq]
  rw [shiftRight, AluMods.extend_eq, AluMods.read_eq, hu, if_pos rfl, if_pos rfl, hword]

/-- SHR shifts in the sign (R114). -/
theorem shiftRight_arithmetic {m : AluMods} (hu : m.u = false) (x : Word) (k : Nat) :
    shiftRight m x k = ((x.setWidth m.bits).sshiftRight k).signExtend 64 := by
  rw [shiftRight, AluMods.extend_eq, AluMods.read_eq, hu, if_neg Bool.false_ne_true, if_neg Bool.false_ne_true, BitVec.sshiftRight,
    Int.shiftRight_eq_div_pow, Nat.cast_pow, Nat.cast_ofNat]

/-- The bits that ROTL shifts out at the top come in below (R114). -/
theorem rotateLeft_eq {m : AluMods} (hu : m.u = false) (x : Word) {k : Nat} (hk : k < m.bits) :
    rotateLeft m x k = ((x.setWidth m.bits).rotateLeft k).signExtend 64 := by
  have hrotated : ((x.setWidth m.bits).rotateLeft k).toNat =
      x.toNat % 2 ^ m.bits * 2 ^ k % 2 ^ m.bits ||| x.toNat % 2 ^ m.bits / 2 ^ (m.bits - k) := by
    rw [BitVec.toNat_rotateLeft, Nat.mod_eq_of_lt hk, BitVec.toNat_setWidth, Nat.shiftLeft_eq, Nat.shiftRight_eq_div_pow]
  rw [rotateLeft, ← hrotated, AluMods.extend_eq, hu, if_neg Bool.false_ne_true, BitVec.ofInt_natCast, BitVec.ofNat_toNat,
    BitVec.setWidth_eq]

theorem shiftLeft_eq_r114shl {m : AluMods} (hu : m.u = false) (x y : Word) :
    shiftLeft m x (y.toNat % m.bits) = r114shl m.w x y := by
  rw [shiftLeft_eq hu]
  obtain ⟨_ | _, -, -, -⟩ := m
  · show ((x.setWidth 64) <<< (y.toNat % 64)).signExtend 64 = x <<< (y.toNat % 64)
    rw [BitVec.setWidth_eq, BitVec.signExtend_eq]
  · rfl

theorem shiftRight_eq_r114shr (m : AluMods) (x : Word) (k : Nat) : shiftRight m x k = r114shr m.w m.u x k := by
  obtain ⟨w, _ | _, -, -⟩ := m
  · rw [shiftRight_arithmetic rfl]
    cases w
    · show ((x.setWidth 64).sshiftRight k).signExtend 64 = x.sshiftRight k
      rw [BitVec.setWidth_eq, BitVec.signExtend_eq]
    · rfl
  · rw [shiftRight_logical rfl]
    cases w
    · show ((x.setWidth 64) >>> k).setWidth 64 = x >>> k
      rw [BitVec.setWidth_eq, BitVec.setWidth_eq]
    · rfl

theorem rotateLeft_eq_r114rotl {m : AluMods} (hu : m.u = false) (x y : Word) :
    rotateLeft m x (y.toNat % m.bits) = r114rotl m.w x y := by
  have hbits : 0 < m.bits := by rw [AluMods.bits]; split <;> decide
  rw [rotateLeft_eq hu x (Nat.mod_lt _ hbits)]
  obtain ⟨_ | _, -, -, -⟩ := m
  · show ((x.setWidth 64).rotateLeft (y.toNat % 64)).signExtend 64 = x.rotateLeft (y.toNat % 64)
    rw [BitVec.setWidth_eq, BitVec.signExtend_eq]
  · rfl

/-- A legal function value is one of its rule's (R64). -/
theorem SrRule.fn_mem {r : SrRule} {f : SR} (h : r.ok f = true) : f.fn.toNat ∈ r.fn := by
  simpa using (Bool.and_eq_true_iff.1 h).2

/-- SHL and ROTL do not take .u (R114). -/
theorem aluMods_signed {f : SR} (h : SrRule.ok ⟨64, 64, 64, [0, 1]⟩ f = true) : (aluMods f.fn).u = false := by
  have hfn := SrRule.fn_mem h
  have hlt : f.fn.toNat < 2 ^ 1 := by
    simp only [List.mem_cons, List.not_mem_nil, or_false] at hfn
    omega
  exact Nat.testBit_lt_two_pow hlt

/-- Settles O2: the logic acts on whole words, and each shift is that of a bit vector of the operation's width. -/
theorem logicAndShiftResult : Obligations.LogicAndShiftResult := by
  intro f s x y d w h
  refine ⟨aluSR_free h _, aluSR_free h _, aluSR_free h _, fun hwf => ?_, fun _ => ?_, fun hwf => ?_⟩
  · show execShl f s = _
    rw [execShl, aluSR_free h, shiftLeft_eq_r114shl (aluMods_signed hwf)]
    rfl
  · show execShr f s = _
    rw [execShr, aluSR_free h, shiftRight_eq_r114shr]
    rfl
  · show execRotl f s = _
    rw [execRotl, aluSR_free h, rotateLeft_eq_r114rotl (aluMods_signed hwf)]
    rfl

end Sys2Proof.Machine
end

section
/-! PROOFS. Counts, bit fields, immediates and constants of the scalar stream (R115 to R118). -/

namespace Sys2Proof.Bits

/-- Counting the bits of a number one by one. -/
theorem popcount_eq (n x : Nat) : popcount n x = ((List.range n).filter x.testBit).length := by
  induction n generalizing x with
  | zero => rfl
  | succ n ih =>
    have hbit : x % 2 = if x.testBit 0 then 1 else 0 := by
      rw [Nat.testBit_zero]
      rcases Nat.mod_two_eq_zero_or_one x with h | h <;> simp [h]
    have hrest : (x / 2).testBit = x.testBit ∘ Nat.succ := funext fun i => (Nat.testBit_succ x i).symm
    rw [popcount, ih, hbit, List.range_succ_eq_map, List.filter_cons, List.filter_map, hrest]
    split <;> simp [Nat.add_comm]

/-- Of the low bits of a number only those count. -/
theorem popcount_mod {m n : Nat} (h : m ≤ n) (x : Nat) : popcount n (x % 2 ^ m) = popcount m x := by
  obtain ⟨k, rfl⟩ := Nat.exists_eq_add_of_le h
  have hlow : (List.range m).filter (x % 2 ^ m).testBit = (List.range m).filter x.testBit :=
    List.filter_congr fun i hi => by simp [Nat.testBit_mod_two_pow, List.mem_range.1 hi]
  have hhigh : ((List.range k).map (m + ·)).filter (x % 2 ^ m).testBit = [] := by
    simp [Nat.testBit_mod_two_pow]
  rw [popcount_eq, popcount_eq, List.range_add, List.filter_append, hlow, hhigh, List.append_nil]

end Sys2Proof.Bits

namespace Sys2Proof.Machine

open Sys2Proof.Safety

/-! Counts (R115). -/

/-- The leading zeros end at the highest bit. -/
theorem leadingZeros_toNat {n : Nat} (x : BitVec n) : leadingZeros n x.toNat = x.clz.toNat := by
  rw [leadingZeros]
  split
  · next h =>
    have hzero : x = 0#n := BitVec.eq_of_toNat_eq (h.trans (by simp))
    rw [BitVec.clz_eq_iff_eq_zero.2 hzero, BitVec.natCast_eq_ofNat, BitVec.toNat_ofNat, Nat.mod_eq_of_lt Nat.lt_two_pow_self]
  · next h =>
    have hne : x ≠ 0#n := fun hx => h (by rw [hx]; simp)
    have hn : 0 < n := Nat.pos_of_ne_zero fun hn => by subst hn; exact h (by simp [BitVec.of_length_zero])
    have hlt : x.clz.toNat < n := by
      have := BitVec.lt_def.1 (BitVec.clz_lt_iff_ne_zero.2 hne)
      rwa [BitVec.natCast_eq_ofNat, BitVec.toNat_ofNat, Nat.mod_eq_of_lt Nat.lt_two_pow_self] at this
    have hlog : x.toNat.log2 = n - 1 - x.clz.toNat := by
      refine (Nat.log2_eq_iff h).2 ⟨BitVec.two_pow_sub_clz_le_toNat_of_ne_zero hn hne, ?_⟩
      rw [show n - 1 - x.clz.toNat + 1 = n - x.clz.toNat by omega]
      exact BitVec.toNat_lt_two_pow_sub_clz
    omega

/-- CLZ's value (R115). -/
theorem clz_value (fn : BitVec 7) (x : Word) :
    BitVec.ofNat 64 (leadingZeros (if fn.getLsbD 0 then 32 else 64) (countOperand fn x)) =
      if fn.getLsbD 0 then (x.setWidth 32).clz.setWidth 64 else x.clz := by
  rw [countOperand]
  split
  · rw [← BitVec.toNat_setWidth, leadingZeros_toNat, BitVec.ofNat_toNat]
  · rw [leadingZeros_toNat, BitVec.ofNat_toNat, BitVec.setWidth_eq]

/-- POPC's value (R115). -/
theorem popc_value (fn : BitVec 7) (x : Word) :
    Bits.popcount 64 (countOperand fn x) = ((List.range (if fn.getLsbD 0 then 32 else 64)).filter fun n => x.getLsbD n).length := by
  rw [countOperand]
  split
  · rw [Bits.popcount_mod (by decide), Bits.popcount_eq]
    rfl
  · rw [Bits.popcount_eq]
    rfl

/-! Bit fields (R116). -/

/-- A field of a width that is not 0 ends at `r116end`. -/
theorem fieldOf_eq (y : Word) :
    fieldOf y = ((y.extractLsb' 0 6).toNat, if y.extractLsb' 8 7 = 0 then 0 else r116end y - (y.extractLsb' 0 6).toNat + 1) := by
  have hpos : (y.extractLsb' 0 6).toNat < 64 := (y.extractLsb' 0 6).isLt
  have hwidth : y.extractLsb' 8 7 = 0 ↔ (y.extractLsb' 8 7).toNat = 0 := BitVec.toNat_inj.symm
  simp only [fieldOf, r116end, hwidth]
  congr 1
  split <;> omega

/-- A field of a width that is not 0 holds its first bit. -/
theorem le_r116end {y : Word} (h : y.extractLsb' 8 7 ≠ 0) : (y.extractLsb' 0 6).toNat ≤ r116end y := by
  have hpos : (y.extractLsb' 0 6).toNat < 64 := (y.extractLsb' 0 6).isLt
  have hwidth : (y.extractLsb' 8 7).toNat ≠ 0 := fun hw => h (BitVec.toNat_inj.1 hw)
  rw [r116end]
  omega

/-- BFX's value (R116). -/
theorem bitExtract_eq (fn : BitVec 7) (x y : Word) :
    bitExtract fn x y =
      let pos := (y.extractLsb' 0 6).toNat
      let e := r116end y
      if y.extractLsb' 8 7 = 0 then 0
      else if fn.getLsbD 1 then (x.extractLsb' pos (e - pos + 1)).setWidth 64
      else (x.extractLsb' pos (e - pos + 1)).signExtend 64 := by
  have hfield (pos n : Nat) : Bits.field x.toNat pos n = (x.extractLsb' pos n).toNat := (BitVec.extractLsb'_toNat _ _ _).symm
  simp only [bitExtract, fieldOf_eq]
  by_cases h : y.extractLsb' 8 7 = 0
  · simp [h]
  · simp only [h, if_false, Nat.succ_ne_zero, hfield, Bits.signed_eq_toInt, BitVec.ofNat_toNat, BitVec.setWidth_eq]
    rfl

/-- BFI replaces the bits of the field and keeps the others (R116). -/
theorem getLsbD_bitInsert (old x y : Word) {n : Nat} (hn : n < 64) :
    (bitInsert old x y).getLsbD n =
      let pos := (y.extractLsb' 0 6).toNat
      if y.extractLsb' 8 7 ≠ 0 ∧ pos ≤ n ∧ n ≤ r116end y then x.getLsbD (n - pos) else old.getLsbD n := by
  simp only [bitInsert, fieldOf_eq]
  by_cases h : y.extractLsb' 8 7 = 0
  · simp [h]
  · simp only [h, if_false, Nat.succ_ne_zero, Bits.getLsbD_splice]
    refine if_congr ?_ rfl rfl
    have hle := le_r116end h
    simp only [hn, ne_eq, h, not_false_eq_true, true_and]
    omega

/-! Immediates and constants (R117, R118). -/

/-- With none of its registers awaited an SI instruction writes its value and goes on. -/
theorem aluSI_free {f : SI} {s : State} (h : Free s [f.dest.toNat, f.src1.toNat]) (v : Word → Word → Word) :
    aluSI f s v = .next (wrote s f.dest.toNat (v (s.group.readS f.src1.toNat) (f.imm.signExtend 64)) 4) :=
  scalarSet_free h

/-- The form bit of an SI instruction, taken for a function value, is .w (R117). -/
theorem aluMods_form (b : BitVec 1) : aluMods (b.setWidth 7) = ⟨b == 1, false, false, false⟩ := by
  revert b
  decide

/-- ADDI's value (R117). -/
theorem addi_value (b : BitVec 1) (x y : Word) :
    arith (b.setWidth 7) (fun _ a b => a + b) x y =
      if b = 1 then (x.setWidth 32 + y.setWidth 32).signExtend 64 else x + y := by
  rw [arith, aluMods_form, AluMods.extend_eq_intOut, AluMods.read_eq_intIn, AluMods.read_eq_intIn]
  rcases BitVec.eq_zero_or_eq_one b with rfl | rfl
  · show BitVec.ofInt 64 (x.toInt + y.toInt) = x + y
    rw [BitVec.ofInt_add, BitVec.ofInt_toInt, BitVec.ofInt_toInt]
  · show (BitVec.ofInt 32 ((x.setWidth 32).toInt + (y.setWidth 32).toInt)).signExtend 64 = _
    rw [BitVec.ofInt_add, BitVec.ofInt_toInt, BitVec.ofInt_toInt]
    rfl

/-- SHLI's value (R117). -/
theorem shli_value (b : BitVec 1) (x : Word) (k : Nat) :
    shiftLeft (aluMods (b.setWidth 7)) x k = if b = 1 then ((x.setWidth 32) <<< k).signExtend 64 else x <<< k := by
  rw [aluMods_form, shiftLeft_eq rfl]
  rcases BitVec.eq_zero_or_eq_one b with rfl | rfl
  · show ((x.setWidth 64) <<< k).signExtend 64 = x <<< k
    rw [BitVec.setWidth_eq, BitVec.signExtend_eq]
  · rfl

/-- SHRI's value (R117). -/
theorem shri_value (b : BitVec 1) (x : Word) (k : Nat) :
    shiftRight ⟨false, b == 1, false, false⟩ x k = if b = 1 then x >>> k else x.sshiftRight k := by
  rw [shiftRight_eq_r114shr]
  rcases BitVec.eq_zero_or_eq_one b with rfl | rfl <;> rfl

/-- The upper immediate counts units of 2^12 and has a sign (R118). -/
theorem upperImm_eq (imm : BitVec 20) (n : Nat) : imm.signExtend n <<< 12 = BitVec.ofInt n (imm.toInt * 4096) := by
  have hunit : BitVec.twoPow n 12 = BitVec.ofInt n 4096 := by
    refine BitVec.eq_of_toNat_eq ?_
    rw [BitVec.toNat_twoPow, show (4096 : Int) = ((2 ^ 12 : Nat) : Int) from rfl, BitVec.ofInt_natCast, BitVec.toNat_ofNat]
  rw [BitVec.ofInt_mul, BitVec.signExtend, BitVec.shiftLeft_eq_mul_twoPow, hunit]

/-- An address of 56 bits as a word. -/
theorem setWidth_ofInt_56 (x : Int) : (BitVec.ofInt 56 x).setWidth 64 = BitVec.ofInt 64 (x % 2 ^ 56) := by
  rw [← BitVec.ofNat_toNat, BitVec.toNat_ofInt, ← BitVec.ofInt_natCast, Int.toNat_of_nonneg (Int.emod_nonneg _ (by decide))]
  rfl

/-- ADDPC's value (R118). -/
theorem addpc_value (pc : BitVec 56) (imm : BitVec 20) :
    (pc + (imm.signExtend 56 <<< 12)).setWidth 64 = BitVec.ofInt 64 (((pc.toNat : Int) + imm.toInt * 4096) % 2 ^ 56) := by
  rw [upperImm_eq, ← setWidth_ofInt_56, BitVec.ofInt_add, BitVec.ofInt_natCast, BitVec.ofNat_toNat, BitVec.setWidth_eq]

/-- The low bits of a word under their mask. -/
theorem and_lowMask (x : Word) (n : Nat) : x &&& BitVec.ofNat 64 (2 ^ n - 1) = (x.setWidth n).setWidth 64 := by
  refine BitVec.eq_of_getLsbD_eq fun i hi => ?_
  rw [BitVec.getLsbD_and, BitVec.getLsbD_ofNat, Nat.testBit_two_pow_sub_one, BitVec.getLsbD_setWidth, BitVec.getLsbD_setWidth]
  simp [hi, Bool.and_comm]

/-- LI.hi keeps the low half (R118). -/
theorem liHi_value (imm : BitVec 32) (x : Word) : imm ++ x.setWidth 32 = (imm.setWidth 64 <<< 32) ||| (x &&& 0xFFFFFFFF) := by
  have hlow : x &&& 0xFFFFFFFF = (x.setWidth 32).setWidth 64 := and_lowMask x 32
  rw [hlow, BitVec.append_def, BitVec.shiftLeftZeroExtend_eq, BitVec.setWidth'_eq]

/-- Settles O3: each instruction's value is the rule's, for every operand. -/
theorem bitFieldAndImmediateResult : Obligations.BitFieldAndImmediateResult := by
  refine ⟨fun f s => ?_, fun f u l s => ?_⟩
  · intro x y d w pos e h
    have hone : Free s [d, f.src1.toNat] := free_mono h (by simp)
    refine ⟨?_, ?_, ?_, _, ?_, _, rfl, fun n hn => getLsbD_bitInsert _ x y hn⟩
    · show execClz f s = _
      rw [execClz, scalarSet_free hone, clz_value]
    · show execPopc f s = _
      rw [execPopc, scalarSet_free hone, popc_value]
    · show execBfx f s = _
      rw [execBfx, aluSR_free h, bitExtract_eq]
    · show execBfi f s = _
      rw [execBfi, scalarSet_free h]
  · intro x d m
    refine ⟨fun h => ⟨?_, aluSI_free h _, aluSI_free h _, aluSI_free h _, fun _ => ?_, fun _ => ?_⟩, fun h => ⟨?_, ?_⟩,
      fun h => ⟨?_, ?_⟩⟩
    · show execAddi f s = _
      rw [execAddi, aluSI_free h, addi_value]
    · show execShli f s = _
      rw [execShli, aluSI_free h, shli_value]
    · show execShri f s = _
      rw [execShri, aluSI_free h, shri_value]
    · show execLui u s = _
      rw [execLui, scalarSet_free h, upperImm_eq]
    · show execAddpc u s = _
      rw [execAddpc, scalarSet_free h, addpc_value]
    · show execLi l s = _
      rw [execLi, scalarInstr_free h]
      rfl
    · show execLiHi l s = _
      rw [execLiHi, scalarInstr_free h, liHi_value]
      rfl

end Sys2Proof.Machine
end

section
/-! PROOFS. Compare and select of the scalar stream (R119, R120, R129). -/

namespace Sys2Proof.Machine

open Sys2Proof.Safety

/-- A condition of R119 on sources of any one width. -/
def cmpHolds {n : Nat} (cond : Nat) (a b : BitVec n) : Bool :=
  match cond with
  | 0 => a == b
  | 1 => a != b
  | 2 => a.slt b
  | 3 => b.sle a
  | 4 => a.ult b
  | _ => b.ule a

/-- CMP's condition stands in its low bits, and bit 3 is its width. -/
theorem compare_eq_cmpHolds (fn : BitVec 7) (x y : Word) :
    compare fn x y =
      if fn.getLsbD 3 then cmpHolds (fn.extractLsb' 0 3).toNat (x.setWidth 32) (y.setWidth 32)
      else cmpHolds (fn.extractLsb' 0 3).toNat x y := by
  have heq {n : Nat} (a b : BitVec n) : (a.toNat == b.toNat) = (a == b) := by
    rw [Bool.eq_iff_iff, beq_iff_eq, beq_iff_eq, BitVec.toNat_inj]
  have hsigned {n : Nat} (a : BitVec n) : Bits.signed a.toNat n = a.toInt := by
    rw [Bits.signed_eq_toInt, BitVec.ofNat_toNat, BitVec.setWidth_eq]
  have hwidth : compare fn x y =
      let n := if fn.getLsbD 3 then 32 else 64
      cmpHolds (fn.extractLsb' 0 3).toNat (x.setWidth n) (y.setWidth n) := by
    simp only [compare, ← BitVec.toNat_setWidth, hsigned]
    generalize (fn.extractLsb' 0 3).toNat = cond
    match cond with
    | 0 => exact heq _ _
    | 1 => exact congrArg not (heq _ _)
    | 2 => exact BitVec.slt_eq_decide.symm
    | 3 => exact BitVec.sle_eq_decide.symm
    | 4 => exact BitVec.ult_eq_decide.symm
    | _ + 5 => exact BitVec.ule_eq_decide.symm
  rw [hwidth]
  split
  · rfl
  · show cmpHolds _ (x.setWidth 64) (y.setWidth 64) = _
    rw [BitVec.setWidth_eq, BitVec.setWidth_eq]

/-- CMP's condition is the one of R119. -/
theorem compare_eq_r119 (fn : BitVec 7) (x y : Word) : compare fn x y = r119 fn x y := compare_eq_cmpHolds fn x y

/-- CMPI compares whole words (R119). -/
theorem cmpi_value (b : BitVec 1) (x y : Word) :
    compare (if b = 0 then 0 else 2) x y = if b = 0 then x == y else x.slt y := by
  rw [compare_eq_cmpHolds]
  split <;> rfl

/-- SEL by its destination's old value. -/
theorem exec_sel_dest {f : SR} {s : State} (h : Free s [f.dest.toNat, f.src1.toNat, f.src2.toNat]) (hfn : f.fn = 0) :
    exec (.sel f) s = .next (wrote s f.dest.toNat
      (if s.group.readS f.dest.toNat ≠ 0 then s.group.readS f.src1.toNat else s.group.readS f.src2.toNat) 4) := by
  show execSel f s = _
  rw [execSel, scalarInstr_free h]
  simp [hfn, wrote]

/-- SEL by a flag, which it observes when it finds it clear. -/
theorem exec_sel_flag {f : SR} {s : State} (h : Free s [f.dest.toNat, f.src1.toNat, f.src2.toNat]) (hfn : 8 ≤ f.fn.toNat) :
    exec (.sel f) s = .next (if s.group.flagSet (f.fn.toNat - 8) then wrote s f.dest.toNat (s.group.readS f.src1.toNat) 4
      else observeClear (wrote s f.dest.toNat (s.group.readS f.src2.toNat) 4)) := by
  have hne : f.fn.toNat ≠ 0 := by omega
  show execSel f s = _
  rw [execSel, scalarInstr_free h]
  cases hflag : s.group.flagSet (f.fn.toNat - 8) <;> simp [hne, hflag, wrote]

/-- CMP's unlisted functions (R119). -/
theorem cmp_illegal {f : SR} (h : f.fn.toNat ∈ [6, 7, 14, 15]) : (Instr.cmp f).wf = false := by
  refine Bool.eq_false_iff.2 fun hwf => ?_
  have hfn := SrRule.fn_mem (r := ⟨64, 64, 64, [0, 1, 2, 3, 4, 5, 8, 9, 10, 11, 12, 13]⟩) hwf
  simp only [List.mem_cons, List.not_mem_nil, or_false] at h hfn
  omega

/-- Settles O4: CMP and CMPI write their condition, and SEL's choice by a flag observes it when it is clear. -/
theorem compareAndSelectResult : Obligations.CompareAndSelectResult := by
  intro f i s x y d
  refine ⟨fun h => ⟨?_, exec_sel_dest h, fun hfn hset => ?_, fun hfn hset => ?_⟩, cmp_illegal, fun h => ?_⟩
  · show execCmp f s = _
    rw [execCmp, aluSR_free h, compare_eq_r119]
    rfl
  · rw [exec_sel_flag h hfn, hset]
    rfl
  · rw [exec_sel_flag h hfn, hset]
    rfl
  · show execCmpi i s = _
    rw [execCmpi, aluSI_free h, cmpi_value]
    rfl

end Sys2Proof.Machine
end

section
/-! PROOFS. Starting lane programs and waiting for them (R125, R126). -/

namespace Sys2Proof.Machine

open Sys2Proof.Safety

/-- ILLOP of the scalar stream (R81). -/
theorem traps_trapIllop {s : State} (hlane : s.cur.lane = none) (h : TrapsToHandler s) : Traps (trapIllop s) s 1 0 0 := by
  rw [trapIllop, streamMask_scalar hlane]
  exact traps_takeTrap hlane h .illop 0 0

/-- LRUN's address is a sum modulo 2^56. -/
theorem lrunAddress_eq (x : Word) (imm : BitVec 32) :
    ((x.setWidth 56 + imm.signExtend 56).toNat : Int) = (x.toNat + imm.toInt) % 2 ^ 56 := by
  rw [← BitVec.ofNat_toNat, ← BitVec.ofInt_natCast, BitVec.signExtend, ← BitVec.ofInt_add, BitVec.toNat_ofInt,
    Int.toNat_of_nonneg (Int.emod_nonneg _ (by decide))]
  rfl

/-- The group with the lane program at `l` in its queue, whose notes of older values begin anew when no lane program could read one. -/
def Group.enqueue (g : Group) (l : Nat) : Group :=
  let g := if g.lanesQueued then g else { g with past := [], cleared := [] }
  let q := g.queue ++ [⟨BitVec.ofNat 32 l, g.edgeHere⟩]
  if g.handler then { g with handlerQ := q } else { g with laneQ := q }

/-- Only the notes and the queues change, and of these only the one of the group's state, by one program at its end. -/
theorem Group.enqueue_eq (g : Group) (l : Nat) : ∃ past cleared laneQ handlerQ,
    g.enqueue l = { g with past := past, cleared := cleared, laneQ := laneQ, handlerQ := handlerQ } ∧
    (g.handler = false → laneQ.map (·.addr) = g.laneQ.map (·.addr) ++ [BitVec.ofNat 32 l] ∧ handlerQ = g.handlerQ) ∧
    (g.handler = true → handlerQ.map (·.addr) = g.handlerQ.map (·.addr) ++ [BitVec.ofNat 32 l] ∧ laneQ = g.laneQ) := by
  have hnoted : ∃ past cleared, (if g.lanesQueued then g else { g with past := [], cleared := [] }) =
      { g with past := past, cleared := cleared } := by
    split
    · exact ⟨_, _, rfl⟩
    · exact ⟨_, _, rfl⟩
  obtain ⟨past, cleared, hnoted⟩ := hnoted
  simp only [Group.enqueue, hnoted, Group.queue]
  cases g.handler
  · exact ⟨past, cleared, _, _, rfl, fun _ => ⟨List.map_append, rfl⟩, nofun⟩
  · exact ⟨past, cleared, _, _, rfl, nofun, fun _ => ⟨List.map_append, rfl⟩⟩

theorem Group.queue_length (g : Group) : g.queue.length = if g.handler then g.handlerQ.length else g.laneQ.length := by
  rw [Group.queue]
  split <;> rfl

/-- LRUN by its address and the room in its queue (R125). -/
theorem exec_lrun {f : SX} {s : State} (h : Free s [f.src1.toNat]) {l : Nat}
    (hl : ((s.group.readS f.src1.toNat).setWidth 56 + f.imm.signExtend 56).toNat = l) :
    exec (.lrun f) s =
      if 2 ^ 32 ≤ l ∨ l % 4 ≠ 0 then trapIllop s
      else if 4 ≤ s.group.queue.length then .next (s.setGroup { s.group with wait := .laneQueue })
      else .next (s.setGroup ((s.group.enqueue l).advance 8)) := by
  show execLrun f s = _
  rw [execLrun, scalarInstr_free h, hl]
  rfl

/-- LSYNC goes on when nothing that it waits for is left (R126, R218). -/
theorem exec_lsync {r : SR} {s : State} (h : Free s []) (hdone : s.group.lanesDone = true) :
    exec (.lsync r) s = .next (movedOn s 4) := by
  show execLsync r s = _
  rw [execLsync, scalarInstr_free h, if_pos hdone]
  rfl

theorem Group.lanesDone_iff (g : Group) : g.lanesDone = true ↔
    if g.handler then g.handlerQ = [] ∧ ∀ o ∈ g.laneOps, o.split ≠ 4 else g.laneQ = [] ∧ g.laneOps = [] := by
  rw [Group.lanesDone]
  split <;> simp

/-- Settles O6: LRUN's address and the room in its queue decide what it does, and LSYNC waits for what the group's state queues. -/
theorem laneProgramInstructions : Obligations.LaneProgramInstructions := by
  intro f r s g l full
  have hl : (((g.readS f.src1.toNat).setWidth 56 + f.imm.signExtend 56).toNat : Int) = l := lrunAddress_eq _ _
  generalize ha : ((g.readS f.src1.toNat).setWidth 56 + f.imm.signExtend 56).toNat = a at hl
  have hfull : full ↔ 4 ≤ g.queue.length := by rw [Group.queue_length]
  refine ⟨fun h hlt hal => ⟨fun hroom => ?_, fun hroom => ?_⟩, fun h hbad hlane hto => ?_, fun h hdone =>
    exec_lsync h (g.lanesDone_iff.2 hdone)⟩
  · rw [exec_lrun h ha, if_neg (by omega), if_neg (by rwa [← hfull])]
    obtain ⟨past, cleared, laneQ, handlerQ, hq, huser, hhandler⟩ := s.group.enqueue_eq a
    have hword : BitVec.ofNat 32 a = BitVec.ofInt 32 l := by rw [← hl, BitVec.ofInt_natCast]
    rw [hword] at huser hhandler
    refine ⟨_, rfl, ?_⟩
    simp only [State.group_setGroup, hq]
    exact ⟨onlyGroup_setGroup s _, rfl, fun _ _ => rfl, ⟨rfl, rfl, rfl, rfl⟩, fun _ => rfl,
      ⟨⟨rfl, rfl, rfl, rfl, rfl, rfl, rfl, rfl, rfl, rfl, rfl, rfl, rfl⟩, rfl⟩,
      ⟨rfl, rfl, rfl, rfl, rfl, rfl, rfl, rfl, rfl⟩, rfl, rfl, huser, hhandler⟩
  · rw [exec_lrun h ha, if_neg (by omega), if_pos (hfull.1 hroom)]
  · rw [exec_lrun h ha, if_pos (by omega)]
    exact traps_trapIllop hlane hto

end Sys2Proof.Machine
end

section
/-! PROOFS. The control and status registers (R99, R130, R131). -/

namespace Sys2Proof.Machine

open Sys2Proof.Safety

/-! The numbers of the registers (R99, R131). -/

/-- The numbers that name a register. -/
theorem csrValue_isSome (s : State) (g : Group) (n : Nat) :
    (csrValue s g n).isSome = true ↔ n ∈ r99writable ++ r99readOnly := by
  unfold csrValue
  split
  case h_24 =>
    have hkeys : n ∈ r99writable ++ r99readOnly ↔ 0x40 ≤ n ∧ n ≤ 0x47 := by
      simp only [r99writable, r99readOnly, List.cons_append, List.nil_append, List.mem_cons, List.not_mem_nil, or_false,
        imp_false] at *
      omega
    rw [hkeys]
    split
    · next h => exact iff_of_true rfl h
    · next h => exact iff_of_false Bool.false_ne_true h
  all_goals exact iff_of_true rfl (by decide)

/-- A named register has a value. -/
theorem exists_csrValue (s : State) (g : Group) {n : Nat} (hn : n ∈ r99writable ++ r99readOnly) : ∃ old, csrValue s g n = some old :=
  Option.isSome_iff_exists.1 ((csrValue_isSome s g n).2 hn)

/-- What has a value is named. -/
theorem mem_of_csrValue {s : State} {g : Group} {n : Nat} {old : Word} (hold : csrValue s g n = some old) :
    n ∈ r99writable ++ r99readOnly := (csrValue_isSome s g n).1 (Option.isSome_iff_exists.2 ⟨old, hold⟩)

/-- The registers with a field that software writes. -/
theorem csrWritable_iff (n : Nat) : csrWritable n = true ↔ n ∈ r99writable := by
  simp only [csrWritable, csrHandler, r99writable, Bool.or_eq_true, Bool.and_eq_true, beq_iff_eq, decide_eq_true_eq, List.mem_cons,
    List.not_mem_nil, or_false]
  omega

/-- No register is both written and only read. -/
theorem not_mem_writable {n : Nat} (h : n ∈ r99readOnly) : n ∉ r99writable := by
  revert n
  decide

/-- The checks of the mode and of the state pass (R131 steps 2 and 3). -/
theorem csrOpen_iff (g : Group) {n : Nat} (hn : n ∈ r99writable ++ r99readOnly) :
    (csrSystem n && !g.priv) = false ∧ (csrHandler n && !g.handler) = false ↔ r131open g n := by
  have hle : ∀ n ∈ r99writable ++ r99readOnly, n ≤ 0x47 := by decide
  have hsystem : csrSystem n = true ↔ n ∈ [0x08, 0x38, 0x39] := by simp [csrSystem, or_assoc]
  have hhandler : csrHandler n = true ↔ 0x40 ≤ n := by simp [csrHandler, hle n hn]
  simp only [r131open, ← hsystem, ← hhandler, Bool.and_eq_false_imp, Bool.not_eq_false']

/-- The values that a field map forbids (R131 step 5). -/
theorem csrRefuses_iff (n : Nat) (v : Word) : csrRefuses n v = true ↔ r131bad n v := by
  have hlow (k : Nat) : (v.extractLsb' 0 k).toNat = v.toNat % 2 ^ k := BitVec.extractLsb'_toNat 0 k v
  have hbase : Bits.field v.toNat 9 47 = v.toNat % 2 ^ 56 / 512 := by
    rw [Bits.field, Nat.shiftRight_eq_div_pow]
    omega
  unfold csrRefuses
  split
  · simp [r131bad, rndMode, hlow]
  · have hzero : v.extractLsb' 0 7 = 0#7 ↔ v.toNat % 128 = 0 := by
      rw [← BitVec.toNat_inj, hlow]
      rfl
    simp [r131bad, hzero]
  · simp [r131bad, hlow, hbase]
  · next h0 h3 h5 => exact iff_of_false Bool.false_ne_true (by rintro (⟨h, -⟩ | ⟨h, -⟩ | ⟨h, -⟩) <;> contradiction)

/-! The merge of a written value (R130). -/

/-- Only the notes of older values change. -/
theorem csrNote_eq (g : Group) (n : Nat) : csrNote g n = { g with past := (csrNote g n).past } := by
  unfold csrNote
  split <;> rfl

/-- Merge as one update: every register takes its part of the value under its own number and keeps its own under another. -/
theorem csrMerge_eq (g : Group) (n : Nat) (v : Word) : csrMerge g n v = { g with
    past := (csrNote g n).past
    rnd := if n = 0x00 then v &&& 0xF else g.rnd
    dplane := if n = 0x02 then v.setWidth 56 else g.dplane
    dstride := if n = 0x03 then v.setWidth 56 else g.dstride
    srseed := if n = 0x04 then v else g.srseed
    cring := if n = 0x05 then v &&& 0x00FFFFFFFFFFFE0F else g.cring
    ulivec := if n = 0x06 then v.setWidth 56 &&& ~~~3 else g.ulivec
    prdeadline := if n = 0x08 then (if (v.setWidth 32).toNat < 12500 then 12500 else v.setWidth 32) else g.prdeadline
    drawid := if n = 0x09 then v.setWidth 32 else g.drawid
    trappc := if n = 0x11 then v.setWidth 56 else g.trappc
    keysel := if n = 0x39 then v.setWidth 6 else g.keysel
    k := if csrHandler n then Assoc.set 0 g.k (n - 0x40) v else g.k } := by
  unfold csrMerge
  rw [csrNote_eq]
  split
  case h_11 h0 h2 h3 h4 h5 h6 h8 h9 h11 h39 =>
    simp only [if_neg h0, if_neg h2, if_neg h3, if_neg h4, if_neg h5, if_neg h6, if_neg h8, if_neg h9, if_neg h11, if_neg h39]
    split <;> rfl
  all_goals rfl

/-- K registers are named by a range (R99). -/
theorem csrValue_key (s : State) (g : Group) {n : Nat} (h : 0x40 ≤ n ∧ n ≤ 0x47) : csrValue s g n = some (g.readK (n - 0x40)) := by
  unfold csrValue
  split
  case h_24 => exact if_pos h
  all_goals exact absurd h (by decide)

theorem Group.readK_csrMerge (g : Group) (n i : Nat) (v : Word) :
    (csrMerge g n v).readK i = if csrHandler n = true ∧ n - 0x40 = i then v else g.readK i := by
  rw [csrMerge_eq]
  simp only [Group.readK]
  split <;> simp [*]

/-- The registers under other numbers read as before. -/
theorem csrValue_csrMerge_ne (s : State) (g : Group) {n m : Nat} (v : Word) (h : m ≠ n) :
    csrValue s (csrMerge g n v) m = csrValue s g m := by
  by_cases hm : 0x40 ≤ m ∧ m ≤ 0x47
  · have hother : ¬(csrHandler n = true ∧ n - 0x40 = m - 0x40) := by
      simp only [csrHandler, Bool.and_eq_true, decide_eq_true_eq]
      omega
    rw [csrValue_key s _ hm, csrValue_key s _ hm, Group.readK_csrMerge, if_neg hother]
  · rw [csrMerge_eq]
    unfold csrValue
    split
    case h_20 => rfl
    case h_24 => rw [if_neg hm, if_neg hm]
    all_goals simp [h.symm]

/-- K registers take the whole value. -/
theorem r130_key {n : Nat} (v : Word) (h : 0x40 ≤ n ∧ n ≤ 0x47) : r130 n v = v := by
  unfold r130
  split
  case h_10 => rfl
  all_goals exact absurd h (by decide)

/-- A written register reads as its field map lets it. -/
theorem csrValue_csrMerge_same (s : State) (g : Group) {n : Nat} (v : Word) (hn : n ∈ r99writable) :
    csrValue s (csrMerge g n v) n = some (r130 n v) := by
  have h56 : v &&& 0x00FFFFFFFFFFFFFF = (v.setWidth 56).setWidth 64 := and_lowMask v 56
  have h32 : v &&& 0xFFFFFFFF = (v.setWidth 32).setWidth 64 := and_lowMask v 32
  have hcases : n = 0 ∨ n = 2 ∨ n = 3 ∨ n = 4 ∨ n = 5 ∨ n = 6 ∨ n = 8 ∨ n = 9 ∨ n = 0x11 ∨ n = 0x39 ∨ (0x40 ≤ n ∧ n ≤ 0x47) := by
    revert n
    decide
  rcases hcases with rfl | rfl | rfl | rfl | rfl | rfl | rfl | rfl | rfl | rfl | hkey
  · rfl
  · exact congrArg some h56.symm
  · exact congrArg some h56.symm
  · rfl
  · rfl
  · refine congrArg some ?_
    show (v.setWidth 56 &&& ~~~3).setWidth 64 = v &&& 0x00FFFFFFFFFFFFFC
    rw [BitVec.setWidth_and, ← h56, BitVec.and_assoc]
    rfl
  · refine congrArg some ?_
    show (if (v.setWidth 32).toNat < 12500 then 12500 else v.setWidth 32 : BitVec 32).setWidth 64 =
      if (v &&& 0xFFFFFFFF).ult 12500 then 12500 else v &&& 0xFFFFFFFF
    have hnat : ((v.setWidth 32).setWidth 64).toNat = (v.setWidth 32).toNat := BitVec.toNat_setWidth_of_le (by decide)
    rw [h32, apply_ite (BitVec.setWidth 64), BitVec.ult_eq_decide, hnat]
    simp only [decide_eq_true_eq]
    rfl
  · exact congrArg some h32.symm
  · exact congrArg some h56.symm
  · exact congrArg some (and_lowMask v 6).symm
  · rw [csrValue_key s _ hkey, Group.readK_csrMerge, if_pos ⟨by simpa [csrHandler] using hkey, rfl⟩, r130_key v hkey]

/-! The accesses (R130, R131). -/

/-- A number that names no register fails first. -/
theorem csrAccess_unknown {s : State} {g : Group} {n : Nat} (hn : n ∉ r99writable ++ r99readOnly) (write : Option Word)
    (k : Word → Result State) : csrAccess s g n write k = trapIllop s := by
  have hnone : csrValue s g n = none := by
    rw [← Option.not_isSome_iff_eq_none, csrValue_isSome]
    exact hn
  rw [csrAccess, hnone]

/-- Then the mode and the state fail. -/
theorem csrAccess_closed {s : State} {g : Group} {n : Nat} (hn : n ∈ r99writable ++ r99readOnly) (hclosed : ¬r131open g n)
    (write : Option Word) (k : Word → Result State) : csrAccess s g n write k = trapPriv s := by
  obtain ⟨old, hold⟩ := exists_csrValue s g hn
  rw [← csrOpen_iff g hn, not_and_or, Bool.not_eq_false, Bool.not_eq_false] at hclosed
  simp only [csrAccess, hold]
  by_cases hsystem : (csrSystem n && !g.priv) = true
  · rw [if_pos hsystem]
  · rw [if_neg hsystem, if_pos (hclosed.resolve_left hsystem)]

/-- Reading a permitted register goes on. -/
theorem csrAccess_read {s : State} {g : Group} {n : Nat} {old : Word} (hold : csrValue s g n = some old) (hopen : r131open g n)
    (k : Word → Result State) : csrAccess s g n none k = k old := by
  obtain ⟨hsystem, hhandler⟩ := (csrOpen_iff g (mem_of_csrValue hold)).2 hopen
  simp only [csrAccess, hold, hsystem, hhandler, Bool.false_eq_true, if_false]

/-- Writing a permitted register goes on when software writes it and its field map takes the value. -/
theorem csrAccess_write {s : State} {g : Group} {n : Nat} {old : Word} (hold : csrValue s g n = some old) (hopen : r131open g n)
    (v : Word) (k : Word → Result State) :
    csrAccess s g n (some v) k = if n ∈ r99writable ∧ ¬r131bad n v then k old else trapIllop s := by
  obtain ⟨hsystem, hhandler⟩ := (csrOpen_iff g (mem_of_csrValue hold)).2 hopen
  have hrefused : (!csrWritable n || csrRefuses n v) = true ↔ ¬(n ∈ r99writable ∧ ¬r131bad n v) := by
    rw [← csrWritable_iff, ← csrRefuses_iff, Bool.or_eq_true, Bool.not_eq_true', not_and_or, not_not, Bool.not_eq_true]
  simp only [csrAccess, hold, hsystem, hhandler, Bool.false_eq_true, if_false, hrefused, ite_not]

/-- With its registers not awaited each access is its checks and its effect. -/
theorem exec_csrr {f : SR} {s : State} (h : Free s [f.dest.toNat]) :
    exec (.csrr f) s = csrAccess s s.group f.fn.toNat none fun old => .next (wrote s f.dest.toNat old 4) := by
  show execCsrr f s = _
  rw [execCsrr, scalarInstr_free h]
  rfl

theorem exec_csrw {f : SR} {s : State} (h : Free s [f.src1.toNat]) :
    exec (.csrw f) s = csrAccess s s.group f.fn.toNat (some (s.group.readS f.src1.toNat)) fun _ =>
      .next (s.setGroup ((csrMerge s.group f.fn.toNat (s.group.readS f.src1.toNat)).advance 4)) := by
  show execCsrw f s = _
  rw [execCsrw, scalarInstr_free h]

theorem exec_csrx {f : SR} {s : State} (h : Free s [f.dest.toNat, f.src1.toNat]) :
    exec (.csrx f) s = csrAccess s s.group f.fn.toNat (some (s.group.readS f.src1.toNat)) fun old =>
      .next (s.setGroup (((csrMerge s.group f.fn.toNat (s.group.readS f.src1.toNat)).writeS f.dest.toNat old).advance 4)) := by
  show execCsrx f s = _
  rw [execCsrx, scalarInstr_free h]

/-- An access whose check fails whatever it would write ends each of the three. -/
theorem exec_csr_of_access {f : SR} {s : State} {r : Result State} (h : Free s [f.dest.toNat, f.src1.toNat])
    (hr : ∀ write k, csrAccess s s.group f.fn.toNat write k = r) :
    exec (.csrr f) s = r ∧ exec (.csrw f) s = r ∧ exec (.csrx f) s = r :=
  ⟨(exec_csrr (free_mono h (by simp))).trans (hr _ _), (exec_csrw (free_mono h (by simp))).trans (hr _ _),
    (exec_csrx h).trans (hr _ _)⟩

/-- What a permitted write leaves: the register as its field map lets it, and all else but the S registers as it was. -/
def CsrWritten (s t : State) (n : Nat) (v : Word) : Prop :=
  let g := s.group
  let h := t.group
  (OnlyGroup s t ∧ h.pc = g.pc + 4 ∧ csrValue t h n = some (r130 n v) ∧ ∀ m, m ≠ n → csrValue t h m = csrValue s g m) ∧
  SameLanes g h ∧ SameFlags g h ∧ h.handler = g.handler ∧ h.priv = g.priv

theorem Group.writeS_eq (g : Group) (n : Nat) (v : Word) : ∃ past regs, g.writeS n v = { g with past := past, s := regs } := by
  unfold Group.writeS
  split
  · exact ⟨_, _, rfl⟩
  · exact ⟨_, _, rfl⟩

/-- The merge changes the registers of R99 alone, but for the notes of older values. -/
theorem csrMerge_keeps (g : Group) (n : Nat) (v : Word) :
    let h := csrMerge g n v
    h.pc = g.pc ∧ h.s = g.s ∧ SameLanes g h ∧ SameFlags g h ∧ h.handler = g.handler ∧ h.priv = g.priv := by
  rw [csrMerge_eq]
  exact ⟨rfl, rfl, ⟨rfl, rfl, rfl, rfl⟩, fun _ => rfl, rfl, rfl⟩

theorem Group.readS_csrMerge (g : Group) (n m : Nat) (v : Word) : (csrMerge g n v).readS m = g.readS m := by
  obtain ⟨-, hregs, -⟩ := csrMerge_keeps g n v
  rw [Group.readS, hregs, Group.readS]

/-- The merge is what a permitted write leaves, whatever becomes of the S registers. -/
theorem csrWritten_merge (s : State) {n : Nat} (v : Word) (hn : n ∈ r99writable) (past : List Older) (regs : List (Nat × Word)) :
    CsrWritten s (s.setGroup (Group.advance { csrMerge s.group n v with past := past, s := regs } 4)) n v := by
  obtain ⟨hpc, -, hlanes, hflags, hmode⟩ := csrMerge_keeps s.group n v
  have hvalue (m : Nat) : csrValue (s.setGroup (Group.advance { csrMerge s.group n v with past := past, s := regs } 4))
      (Group.advance { csrMerge s.group n v with past := past, s := regs } 4) m = csrValue s (csrMerge s.group n v) m := rfl
  rw [CsrWritten, State.group_setGroup]
  refine ⟨⟨onlyGroup_setGroup s _, congrArg (· + 4) hpc, ?_, fun m hm => ?_⟩, hlanes, hflags, hmode⟩
  · exact (hvalue n).trans (csrValue_csrMerge_same s _ v hn)
  · exact (hvalue m).trans (csrValue_csrMerge_ne s _ v hm)

/-- A permitted CSRW changes no S register. -/
theorem goes_csrw {f : SR} {s : State} {old : Word} (h : Free s [f.src1.toNat]) (hold : csrValue s s.group f.fn.toNat = some old)
    (hopen : r131open s.group f.fn.toNat) (hn : f.fn.toNat ∈ r99writable) (hv : ¬r131bad f.fn.toNat (s.group.readS f.src1.toNat)) :
    Goes (exec (.csrw f) s) fun t =>
      CsrWritten s t f.fn.toNat (s.group.readS f.src1.toNat) ∧ SameS s.group t.group [] := by
  rw [exec_csrw h, csrAccess_write hold hopen, if_pos ⟨hn, hv⟩]
  refine ⟨_, rfl, csrWritten_merge s _ hn (csrMerge s.group _ _).past (csrMerge s.group _ _).s, fun m _ => ?_⟩
  rw [State.group_setGroup]
  exact Group.readS_csrMerge s.group _ m _

/-- A permitted CSRX also leaves the register's old value in its destination. -/
theorem goes_csrx {f : SR} {s : State} {old : Word} (h : Free s [f.dest.toNat, f.src1.toNat])
    (hold : csrValue s s.group f.fn.toNat = some old) (hopen : r131open s.group f.fn.toNat) (hn : f.fn.toNat ∈ r99writable)
    (hv : ¬r131bad f.fn.toNat (s.group.readS f.src1.toNat)) :
    Goes (exec (.csrx f) s) fun t =>
      CsrWritten s t f.fn.toNat (s.group.readS f.src1.toNat) ∧
      t.group.readS f.dest.toNat = (if f.dest = 0 then 0 else old) ∧ SameS s.group t.group [f.dest.toNat] := by
  rw [exec_csrx h, csrAccess_write hold hopen, if_pos ⟨hn, hv⟩]
  generalize hv : s.group.readS f.src1.toNat = v
  obtain ⟨past, regs, hwrite⟩ := (csrMerge s.group f.fn.toNat v).writeS_eq f.dest.toNat old
  have hread (m : Nat) : (((csrMerge s.group f.fn.toNat v).writeS f.dest.toNat old).advance 4).readS m =
      if m = 0 then 0 else if f.dest.toNat = m then old else s.group.readS m := by
    rw [← Group.readS_csrMerge s.group f.fn.toNat m v]
    exact Group.readS_writeS _ _ m old
  refine ⟨_, rfl, hwrite ▸ csrWritten_merge s v hn past regs, ?_, fun m hm => ?_⟩
  · rw [State.group_setGroup, hread, if_pos rfl]
    exact if_congr (BitVec.toNat_inj (x := f.dest) (y := 0)) rfl rfl
  · have hne : f.dest.toNat ≠ m := fun hd => hm (List.mem_singleton.2 hd.symm)
    rw [State.group_setGroup, hread, if_neg hne, ite_eq_right_iff]
    rintro rfl
    rfl

/-- Settles O8: an access fails at its first check, in the order of R131, and a permitted write is one merge, which every register
but the one written outlives. -/
theorem csrAccesses : Obligations.CsrAccess := by
  refine ⟨fun f s => ?_, fun f s => ?_⟩
  · intro g n v hopen
    refine ⟨fun hn => ?_, fun hn hv => ?_⟩
    · obtain ⟨old, hold⟩ := exists_csrValue s g hn
      exact ⟨old, hold, fun h => (exec_csrr h).trans (csrAccess_read hold hopen _)⟩
    · obtain ⟨old, hold⟩ := exists_csrValue s g (List.mem_append_left _ hn)
      refine ⟨old, hold, fun h => ?_, fun h => ?_⟩
      · refine goes_mono (goes_csrw h hold hopen hn hv) ?_
        rintro t ⟨⟨⟨honly, hpc, hsame, hother⟩, hkept⟩, hregs⟩
        exact ⟨honly, hpc, hsame, hother, hregs, hkept⟩
      · refine goes_mono (goes_csrx h hold hopen hn hv) ?_
        rintro t ⟨⟨⟨honly, hpc, hsame, hother⟩, hkept⟩, hdest, hregs⟩
        exact ⟨honly, hpc, hsame, hother, hdest, hregs, hkept⟩
  · intro g n v known h hlane hto
    have hill := traps_trapIllop hlane hto
    have hpriv := traps_trapPriv hlane hto
    refine ⟨fun hn => ?_, fun hn hclosed => ?_, fun hn hopen hbad => ?_⟩
    · obtain ⟨hr, hw, hx⟩ := exec_csr_of_access h fun _ _ => csrAccess_unknown hn _ _
      rw [hr, hw, hx]
      exact ⟨hill, hill, hill⟩
    · obtain ⟨hr, hw, hx⟩ := exec_csr_of_access h fun _ _ => csrAccess_closed hn hclosed _ _
      rw [hr, hw, hx]
      exact ⟨hpriv, hpriv, hpriv⟩
    · obtain ⟨old, hold⟩ := exists_csrValue s g hn
      have hnot : ¬(n ∈ r99writable ∧ ¬r131bad n v) := fun ⟨hw, hv⟩ => hbad.elim (not_mem_writable · hw) hv
      rw [exec_csrw (free_mono h (by simp)), exec_csrx h, csrAccess_write hold hopen, csrAccess_write hold hopen, if_neg hnot,
        if_neg hnot]
      exact ⟨hill, hill⟩

end Sys2Proof.Machine
end

section
/-! PROOFS. The floating-point functions of lanes: FRND, FEXPO, FSCL and the eight functions of R145 (R144, R145). -/

namespace Sys2Proof.Machine

open Sys2Proof.Safety
open Sys2Proof.Num (XVal)

/-- A function of R145 follows the rule of R49 and R136 for its value and its derivative at the modified source. -/
theorem goes_unaryInstr {i : Instr} {w : LaneWord} {s : State} {f : XVal → XVal} {tan : XVal → XVal → XVal → XVal}
    (hrole : s.group.role = .vector) (h : LaneStarts s i w) :
    let a := fpIn (laneOf s w) 0
    Goes (fpInstr i w (unaryOp f tan) s) fun t => FpRule s t (laneOf s w) (fun _ l j => f (a l j))
      fun y k l j => tan y (a l j) (fpTan (laneOf s w) 0 k l j) :=
  goes_fpInstr hrole h (fun m l j => by simp [unaryOp, xv_vals]) fun y k l j => by simp [unaryOp, xv_vals, xv_tans]

/-- FSCL scales each slot and its tangents by its own power of two (R144). -/
theorem goes_fscl {w : LaneWord} {s : State} (hrole : s.group.role = .vector) (h : LaneStarts s (.fscl w) w) :
    let c := laneOf s w
    Goes (execFscl w s) fun t => FpRule s t c (fun _ l j => (fpIn c 0 l j).scale2 (fsclScale c l j))
      fun _ k l j => (fpTan c 0 k l j).scale2 (fsclScale c l j) := by
  simp only [execFscl, laneInstr_starts hrole h, xv_vals s w Nat.zero_lt_one, xv_tans s w Nat.zero_lt_one]
  exact goes_mono (goes_laneResult s w _ _ _ _) fun t ⟨hon, hdraws, hvals⟩ => ⟨hon, hdraws.trans (Lane.drawn_eq _ _), hvals⟩

/-- Settles O32: but for FSCL, whose scale differs from slot to slot, each is a slot-wise instruction of one source. -/
theorem laneFloatFunctions : Obligations.LaneFloatFunctions := by
  intro w s c a da n hrole
  refine ⟨fun h => ?frnd, fun h => ?fexpo, goes_fscl hrole, goes_unaryInstr hrole, goes_unaryInstr hrole, goes_unaryInstr hrole,
    goes_unaryInstr hrole, goes_unaryInstr hrole, goes_unaryInstr hrole, goes_unaryInstr hrole, goes_unaryInstr hrole⟩
  case frnd => exact goes_fpInstr hrole h (fun m l j => by simp [xv_vals, a, c]) fun _ _ _ _ => rfl
  case fexpo => exact goes_fpInstr hrole h (fun m l j => by simp [xv_vals, a, c]) fun _ _ _ _ => rfl

end Sys2Proof.Machine
end

section
/-! PROOFS. The integer lane instructions (R149, R151, R152). -/

namespace Sys2Proof.Bits

/-- A natural number wraps to its remainder. -/
theorem wrap_natCast (x n : Nat) : wrap (x : Int) n = x % 2 ^ n := by
  rw [wrap_eq_toNat, BitVec.ofInt_natCast, BitVec.toNat_ofNat]

end Sys2Proof.Bits

namespace Sys2Proof.Machine

open Sys2Proof.Safety

/-- An instruction whose body is a lane-wise write follows the rule of such a write (R134). -/
theorem goes_moveInstr {i : Instr} {w : LaneWord} {s : State} {prim : Lane → Nat → LaneW} {tan : Lane → Nat → Nat → LaneW}
    (hrole : s.group.role = .vector) (h : LaneStarts s i w) :
    Goes (laneInstr i w true s fun c => laneWrite s c (prim c) (tan c)) fun t =>
      MoveRule s t (laneOf s w) (prim (laneOf s w)) (tan (laneOf s w)) := by
  rw [laneInstr_starts hrole h]
  exact goes_laneWrite s w _ _

/-- A slot-wise integer instruction follows the rule of R149 for its operation. -/
theorem goes_intSlots {i : Instr} {w : LaneWord} {s : State} {op : Lane → Nat → Nat → Int} (hrole : s.group.role = .vector)
    (h : LaneStarts s i w) : Goes (intSlots i w op s) fun t => IntRule s t (laneOf s w) (op (laneOf s w)) :=
  goes_moveInstr hrole h

/-- A bitwise instruction writes its operation of whole lanes (R151). -/
theorem goes_bitwise {i : Instr} {w : LaneWord} {s : State} {op : LaneW → LaneW → LaneW} (hrole : s.group.role = .vector)
    (h : LaneStarts s i w) : Goes (bitwise i w op s) fun t => MoveRule s t (laneOf s w)
      (fun l => op ((laneOf s w).operand w.srcA l) ((laneOf s w).operand w.srcB l)) fun _ _ => 0 :=
  goes_moveInstr hrole h

/-- Division by a power of two rounds down (R149, R151). -/
theorem ediv_two_pow_eq_fdiv (t : Int) (k : Nat) : t / 2 ^ k = t.fdiv (2 ^ k) :=
  (Int.fdiv_eq_ediv_of_nonneg t (by positivity)).symm

/-- Settles O35: seven slot-wise instructions of integers, and eight lane-wise writes, each with its own operation. -/
theorem laneIntegerArithmetic : Obligations.LaneIntegerArithmetic := by
  intro w s c ty n a b x y plain hrole
  refine ⟨fun h => ?iadd, fun h => ?isub, fun h => ?imul, fun h => ?imad, fun h => ?imulh, fun h => ?imin, fun h => ?imax,
    fun h => ?iand, fun h => ?ior, fun h => ?ixor, fun h => ?ishl, fun h => ?ishr, fun h => ?ipopc, fun h => ?iclz, fun h => ?ibfx⟩
  case iadd => exact goes_intSlots (op := fun c l j => c.int 0 l j + c.int 1 l j) hrole h
  case isub => exact goes_intSlots (op := fun c l j => c.int 0 l j - c.int 1 l j) hrole h
  case imul => exact goes_intSlots (op := fun c l j => c.int 0 l j * c.int 1 l j) hrole h
  case imad => exact goes_intSlots (op := fun c l j => c.int 0 l j * c.int 1 l j + c.int 2 l j) hrole h
  case imulh =>
    simp only [← ediv_two_pow_eq_fdiv]
    exact goes_intSlots (op := fun c l j => c.int 0 l j * c.int 1 l j / 2 ^ n) hrole h
  case imin => exact goes_intSlots (op := fun c l j => min (c.int 0 l j) (c.int 1 l j)) hrole h
  case imax => exact goes_intSlots (op := fun c l j => max (c.int 0 l j) (c.int 1 l j)) hrole h
  case iand => exact goes_bitwise (op := (· &&& ·)) hrole h
  case ior => exact goes_bitwise (op := (· ||| ·)) hrole h
  case ixor => exact goes_bitwise (op := (· ^^^ ·)) hrole h
  case ishl =>
    show Goes (execIshl w s) _
    simp only [execIshl, shiftSlots, ← Bits.wrap_natCast]
    exact goes_moveInstr hrole h
  case ishr =>
    show Goes (execIshr w s) _
    simp only [execIshr, shiftSlots, ← ediv_two_pow_eq_fdiv]
    exact goes_moveInstr hrole h
  case ipopc =>
    show Goes (execIpopc w s) _
    simp only [execIpopc, countSlots, ← Bits.popcount_eq]
    exact goes_moveInstr hrole h
  case iclz =>
    show Goes (execIclz w s) _
    rw [execIclz, countSlots]
    exact goes_moveInstr hrole h
  case ibfx =>
    show Goes (execIbfx w s) _
    rw [execIbfx]
    exact goes_moveInstr hrole h

end Sys2Proof.Machine
end

section
/-! PROOFS. The lane instructions that write predicates, and those that read them into vector registers (R142, R143, R150, R158,
R159, R164). -/

namespace Sys2Proof.Bits

/-- A number made of the powers of two at which `p` holds. -/
theorem foldl_two_pow (p : Nat → Bool) (n : Nat) :
    let x := (List.range n).foldl (fun a l => if p l then a + 2 ^ l else a) 0
    x < 2 ^ n ∧ ∀ i, x.testBit i = (decide (i < n) && p i) := by
  induction n with
  | zero => simp
  | succ n ih =>
    obtain ⟨hlt, hbits⟩ := ih
    simp only [List.range_succ, List.foldl_append, List.foldl_cons, List.foldl_nil]
    generalize (List.range n).foldl (fun a l => if p l then a + 2 ^ l else a) 0 = x at hlt hbits ⊢
    have hstep : (if p n then x + 2 ^ n else x) = 2 ^ n * (p n).toNat + x := by cases p n <;> simp [Nat.add_comm]
    rw [hstep]
    refine ⟨?_, fun i => ?_⟩
    · have hle : 2 ^ n * (p n).toNat ≤ 2 ^ n * 1 := Nat.mul_le_mul_left _ (Bool.toNat_le _)
      omega
    · rw [Nat.testBit_two_pow_mul_add _ hlt, hbits, Nat.testBit_bool_toNat]
      rcases Nat.lt_trichotomy i n with hi | rfl | hi
      · simp [hi, Nat.lt_succ_of_lt hi]
      · simp
      · simp [Nat.not_lt.2 hi.le, Nat.not_le.2 hi, Nat.sub_ne_zero_of_lt hi]

/-- The mask of the lanes for which `p` holds. -/
theorem getLsbD_maskOf (p : Nat → Bool) {l : Nat} (hl : l < 32) : (maskOf p).getLsbD l = p l := by
  rw [maskOf, BitVec.getLsbD_ofNat, lanes, (foldl_two_pow p 32).2]
  simp [hl]

end Sys2Proof.Bits

namespace Sys2Proof.Machine

open Sys2Proof.Safety

theorem Group.readP_congr {g h : Group} (hp : h.p = g.p) (n : Nat) : h.readP n = g.readP n := by rw [Group.readP, hp, Group.readP]

/-- A predicate of which the lanes of a mask are written; P0 stays all ones (R93). -/
theorem getLsbD_readP_writePred (g : Group) (n m : Nat) (mask : Mask) (f : Nat → Bool) {l : Nat} (hl : l < 32) :
    ((g.writePred n mask f).readP m).getLsbD l =
      if m = n ∧ m ≠ 0 ∧ mask.getLsbD l = true then f l else (g.readP m).getLsbD l := by
  rw [Group.writePred, Group.readP_writeP]
  by_cases hm : m = 0
  · simp [hm, Group.readP]
  · by_cases hn : n = m
    · subst hn
      simp only [hm, if_false, if_true, BitVec.getLsbD_or, BitVec.getLsbD_and, BitVec.getLsbD_not, Bits.getLsbD_maskOf f hl, hl]
      cases mask.getLsbD l <;> simp [hm]
    · rw [if_neg hm, if_neg hn, if_neg fun h => hn h.1.symm]

theorem LaneWrites.writePred (g : Group) (n : Nat) (mask : Mask) (f : Nat → Bool) : LaneWrites g (g.writePred n mask f) := by
  unfold Group.writePred Group.writeP
  split
  · exact ⟨_, _, _, _, rfl⟩
  · exact ⟨_, _, _, _, rfl⟩

/-- A write of a predicate follows the rule of R93. -/
theorem goes_predWrite (s : State) (w : LaneWord) (f : Nat → Bool) :
    Goes (laneDone s (laneOf s w) ((laneOf s w).g.writePred w.dest.toNat (laneOf s w).act f) 0) fun t =>
      PredRule s t (laneOf s w) f := by
  refine goes_mono (goes_laneDone w (.writePred _ _ _ f) s.free 0) fun t ⟨hon, hv, hq, hp, hdraws⟩ =>
    ⟨hon, hdraws.trans (Group.writeP_draws _ _ _), hv.trans (Group.writeP_v _ _ _), hq.trans (Group.writeP_q _ _ _),
      fun m l hl => ?_⟩
  rw [Group.readP_congr hp]
  exact getLsbD_readP_writePred _ _ m _ f hl

/-- An instruction whose body is a write of a predicate follows the rule of such a write. -/
theorem goes_predInstr {i : Instr} {w : LaneWord} {s : State} {f : Lane → Nat → Bool} (hrole : s.group.role = .vector)
    (h : LaneStarts s i w) :
    Goes (laneInstr i w true s fun c => laneDone s c (c.g.writePred w.dest.toNat c.act (f c)) 0) fun t =>
      PredRule s t (laneOf s w) (f (laneOf s w)) := by
  rw [laneInstr_starts hrole h]
  exact goes_predWrite s w _

/-- PMOV reads a predicate into a vector register, or copies it (R159). -/
theorem goes_pmov {w : LaneWord} {s : State} (hrole : s.group.role = .vector) (h : LaneStarts s (.pmov w) w) :
    let c := laneOf s w
    let src := c.g.readP w.srcA.toNat
    Goes (execPmov w s) fun t =>
      if w.fn.getLsbD 23 then MoveRule s t c (fun _ => src) fun _ _ => 0 else PredRule s t c fun l => src.getLsbD l := by
  rw [execPmov, laneInstr_starts hrole h]
  cases w.fn.getLsbD 23
  · exact goes_predWrite s w _
  · exact goes_laneWrite s w _ _

/-- VOTE reads the lanes of a mask into a vector register, or asks whether all, some, or all or none of the active lanes are
among them (R164). -/
theorem goes_vote {w : LaneWord} {s : State} (hrole : s.group.role = .vector) (h : LaneStarts s (.vote w) w) :
    let c := laneOf s w
    let f := w.func
    let src := c.g.readP w.srcA.toNat
    let yes := c.act &&& (if f / 4 % 2 = 1 then ~~~src else src)
    let all := yes = c.act
    Goes (execVote w s) fun t =>
      if f % 4 = 3 then MoveRule s t c (fun _ => yes) fun _ _ => 0
      else PredRule s t c fun _ => decide (if f % 4 = 0 then all else if f % 4 = 1 then yes ≠ 0 else all ∨ yes = 0) := by
  intro c f src yes all
  rw [execVote, laneInstr_starts hrole h]
  have hfunc : w.func = f := rfl
  have hpred (r : Bool) {p : Prop} [Decidable p] (hr : r = decide p) :
      Goes (laneDone s c (c.g.writePred w.dest.toNat c.act fun _ => r) 0) fun t => PredRule s t c fun _ => decide p :=
    hr ▸ goes_predWrite s w _
  rcases (by omega : f % 4 = 0 ∨ f % 4 = 1 ∨ f % 4 = 2 ∨ f % 4 = 3) with h0 | h1 | h2 | h3
  · simp only [hfunc, h0]
    exact hpred _ (beq_eq_decide _ _)
  · simp only [hfunc, h1]
    exact hpred _ (by simp [bne, beq_eq_decide, all, yes, src, c])
  · simp only [hfunc, h2]
    exact hpred _ (by simp [beq_eq_decide, all, yes, src, c])
  · simp only [hfunc, h3]
    exact goes_laneWrite s w _ _

/-- Settles O34: four of them write their condition to a predicate, PMOV and VOTE write one or a vector register, and FCLASS writes its
masks to lanes. -/
theorem lanePredicates : Obligations.LanePredicates := by
  intro w s c f ty old p src yes all hrole
  refine ⟨fun h => ?fcmp, fun h => ?icmp, fun h => ?plop, fun h => ?pset, goes_pmov hrole, goes_vote hrole, fun h => ?fclass⟩
  case fcmp =>
    show Goes (execFcmp w s) _
    rw [execFcmp]
    exact goes_predInstr hrole h
  case icmp =>
    show Goes (execIcmp w s) _
    rw [execIcmp]
    exact goes_predInstr hrole h
  case plop =>
    show Goes (execPlop w s) _
    rw [execPlop]
    exact goes_predInstr hrole h
  case pset =>
    show Goes (execPset w s) _
    rw [execPset]
    exact goes_predInstr hrole h
  case fclass =>
    show Goes (execFclass w s) _
    rw [execFclass]
    exact goes_moveInstr hrole h

end Sys2Proof.Machine
end

section
/-! PROOFS. The lane instructions that move bits: packing, moves, selects, exchanges across lanes, and the bytes of scale registers
(R154, R157, R160 to R165, R370). -/

namespace Sys2Proof.Bits

/-- Of bytes that are set one after another the listed ones hold their values. -/
theorem qbyte_foldl_setQbyte (f : Nat → Nat) (L : List Nat) (q : ScaleReg) {b : Nat} (hb : b < 32) :
    qbyte (L.foldl (fun q l => setQbyte q l (f l)) q) b = if b ∈ L then f b % 256 else qbyte q b := by
  induction L generalizing q with
  | nil => rfl
  | cons l L ih =>
    simp only [List.foldl_cons, ih, qbyte_setQbyte q hb, List.mem_cons]
    by_cases hL : b ∈ L
    · simp [hL]
    · by_cases hl : l = b
      · simp [hl]
      · simp [hl, hL, Ne.symm hl]

/-- A mask without a lowest lane has no lanes. -/
theorem getLsbD_of_lowestLane_eq_none {m : Mask} (h : lowestLane m = none) {l : Nat} (hl : l < 32) : m.getLsbD l = false := by
  have hnone : lanesOf m = [] := List.head?_eq_none_iff.1 h
  exact Bool.eq_false_iff.2 fun hact => List.not_mem_nil (hnone ▸ mem_lanesOf.2 ⟨hl, hact⟩)

end Sys2Proof.Bits

namespace Sys2Proof.Machine

open Sys2Proof.Safety

/-! The bytes of scale registers (R157). -/

/-- The bytes of a scale register that a mask names take values in one plane. -/
def Group.writeScaleLanes (g : Group) (d k : Nat) (act : Mask) (f : Nat → Nat) : Group :=
  g.writeQ k d ((Bits.lanesOf act).foldl (fun q l => Bits.setQbyte q l (f l)) (g.readQ k d))

theorem qbyte_readQ_writeScaleLanes (g : Group) {d p k n l : Nat} (hd : d < 512) (hn : n < 512) (hl : l < 32) (act : Mask)
    (f : Nat → Nat) :
    Bits.qbyte ((g.writeScaleLanes d p act f).readQ k n) l =
      if n = d ∧ k = p ∧ act.getLsbD l = true then f l % 256 else Bits.qbyte (g.readQ k n) l := by
  rw [Group.writeScaleLanes, Group.readQ_writeQ]
  by_cases hreg : d = n ∧ k = p
  · obtain ⟨rfl, rfl⟩ := hreg
    simp [Bits.qbyte_foldl_setQbyte f _ _ hl, Bits.mem_lanesOf, hl]
  · rw [if_neg fun h => hreg ((regIndex_inj hd hn).1 h), if_neg fun h => hreg ⟨h.1.symm, h.2.1⟩]

theorem qbyte_readQ_writeScaleBytes (g : Group) {d k n l : Nat} (t : Nat) (hd : d < 512) (hn : n < 512) (hl : l < 32) (act : Mask)
    (f : Nat → Nat → Nat) :
    Bits.qbyte ((writeScaleBytes g d t act f).readQ k n) l =
      if n = d ∧ k ≤ t ∧ act.getLsbD l = true then f k l % 256 else Bits.qbyte (g.readQ k n) l := by
  induction t with
  | zero =>
    refine (qbyte_readQ_writeScaleLanes g hd hn hl act (f 0)).trans ?_
    by_cases hk : k = 0 <;> simp [hk]
  | succ t ih =>
    have hstep : writeScaleBytes g d (t + 1) act f = (writeScaleBytes g d t act f).writeScaleLanes d (t + 1) act (f (t + 1)) := by
      rw [writeScaleBytes, List.range_succ, List.foldl_append]
      rfl
    rw [hstep, qbyte_readQ_writeScaleLanes _ hd hn hl, ih]
    by_cases hk : k = t + 1
    · simp [hk]
    · have hle : k ≤ t + 1 ↔ k ≤ t := by omega
      simp [hk, hle]

/-- `h` is `g` but for its scale registers. -/
def ScalesOnly (g h : Group) : Prop := ∃ q, h = { g with q := q }

theorem ScalesOnly.writeScaleBytes (g : Group) (d t : Nat) (act : Mask) (f : Nat → Nat → Nat) :
    ScalesOnly g (writeScaleBytes g d t act f) :=
  List.foldlRecOn (motive := ScalesOnly g) _ _ ⟨_, rfl⟩ fun h hgh _ _ => by
    obtain ⟨_, rfl⟩ := hgh
    exact ⟨_, rfl⟩

theorem ScalesOnly.laneWrites {g h : Group} (hgh : ScalesOnly g h) : LaneWrites g h := by
  obtain ⟨_, rfl⟩ := hgh
  exact ⟨_, _, _, _, rfl⟩

theorem ScalesOnly.others {g h : Group} (hgh : ScalesOnly g h) : h.v = g.v ∧ h.p = g.p := by
  obtain ⟨_, rfl⟩ := hgh
  exact ⟨rfl, rfl⟩

/-- A write of bytes of the destination in the active lanes and the planes of the clause changes nothing else (R157). -/
theorem goes_scaleBytes (s : State) (w : LaneWord) (f : Nat → Nat → Nat) :
    let c := laneOf s w
    Goes (laneDone s c (writeScaleBytes c.g w.dest.toNat c.t c.act f) 0) fun t =>
      LaneOn s t c ∧ t.group.v = c.g.v ∧ t.group.p = c.g.p ∧ ∀ k n l, n < 512 → l < 32 → Bits.qbyte (t.group.readQ k n) l =
        if n = w.dest.toNat ∧ k ≤ c.t ∧ c.act.getLsbD l = true then f k l % 256 else Bits.qbyte (c.g.readQ k n) l := by
  intro c
  have honly := ScalesOnly.writeScaleBytes c.g w.dest.toNat c.t c.act f
  obtain ⟨hsameV, hsameP⟩ := honly.others
  refine goes_mono (goes_laneDone w honly.laneWrites s.free 0) fun t ⟨hon, hv, hq, hp, _⟩ =>
    ⟨hon, hv.trans hsameV, hp.trans hsameP, fun k n l hn hl => ?_⟩
  rw [Group.readQ_congr hq]
  exact qbyte_readQ_writeScaleBytes c.g c.t w.dest.isLt hn hl c.act f

/-! MOVX (R161). -/

/-- A lane-wise result that goes to another register than the word's destination. -/
theorem goes_laneWriteTo (s : State) (w : LaneWord) (dest : BitVec 9) (prim : Nat → LaneW) (tan : Nat → Nat → LaneW) :
    let c := laneOf s w
    Goes (laneDone s c (c.g.writeResult dest c.t c.act prim tan) 0) fun t =>
      LaneOn s t c ∧ LaneValues t { c with w := { w with dest := dest } } prim tan :=
  goes_mono (goes_laneWrite s { w with dest := dest } prim tan) fun _ ⟨hon, _, hvals⟩ => ⟨hon, hvals⟩

/-- A computed index inside the allocation names the register that MOVX reads, or writes in place of its destination. -/
theorem goes_movx {w : LaneWord} {s : State} (hrole : s.group.role = .vector) (h : LaneStarts s (.movx w) w) :
    let c := laneOf s w
    let i := movxIndex c
    0 ≤ i → i < c.g.alloc → c.g.heldV c.i [i.toNat] [] = false → Goes (execMovx w s) fun t =>
      if w.fn.getLsbD 23 then
        LaneOn s t c ∧ LaneValues t { c with w := { w with dest := BitVec.ofNat 9 i.toNat } } (fun l => c.operand w.srcA l)
          fun k l => c.shadow w.srcA k l
      else MoveRule s t c (fun l => Bits.lane (c.g.readV 0 i.toNat) l) fun k l => Bits.lane (c.g.readV k i.toNat) l := by
  intro c i hlo hhi hfree
  have hin : ¬(movxIndex (laneOf s w) < 0 ∨ ((laneOf s w).g.alloc : Int) ≤ movxIndex (laneOf s w)) := by
    rintro (hneg | hpast)
    · exact absurd hlo (Int.not_le.2 hneg)
    · exact absurd hhi (Int.not_lt.2 hpast)
  have hheld : (laneOf s w).g.heldV (laneOf s w).i [(movxIndex (laneOf s w)).toNat] [] = false := hfree
  rw [execMovx, laneInstr_starts hrole h]
  simp only [hin, hheld, if_false, Bool.false_eq_true]
  cases w.fn.getLsbD 23
  · exact goes_laneWrite s w _ _
  · exact goes_laneWriteTo s w _ _ _

/-! BCAST (R165, R370). -/

/-- The lanes that a trap of BCAST would name are the active ones whose operand is not that of the lowest. -/
theorem getLsbD_differing (c : Lane) (f : BitVec 9) {l : Nat} (hl : l < 32) : (differing c f).getLsbD l = true ↔
    c.act.getLsbD l = true ∧ c.operand f l ≠ c.operand f ((Bits.lowestLane c.act).getD 0) := by
  unfold differing
  split
  · next hnone => simp [Bits.getLsbD_of_lowestLane_eq_none hnone hl]
  · next low hlow => simp [BitVec.getLsbD_and, Bits.getLsbD_maskOf _ hl, hlow]

theorem differing_eq_zero {c : Lane} {f : BitVec 9}
    (h : ∀ l, l < 32 → c.act.getLsbD l = true → c.operand f l = c.operand f ((Bits.lowestLane c.act).getD 0)) :
    differing c f = 0 := by
  refine BitVec.eq_of_getLsbD_eq fun l hl => (Bool.eq_false_iff.2 fun hl' => ?_).trans BitVec.getLsbD_zero.symm
  obtain ⟨hact, hne⟩ := (getLsbD_differing c f hl).1 hl'
  exact hne (h l hl hact)

/-- BCAST.first, and a BCAST whose active lanes agree, write the named lane to every active one. -/
theorem goes_bcast {w : LaneWord} {s : State} (hrole : s.group.role = .vector) (h : LaneStarts s (.bcast w) w) :
    let c := laneOf s w
    let low := (Bits.lowestLane c.act).getD 0
    let first := w.func / 2 ^ 23 % 2 = 1
    first ∨ (∀ l, l < 32 → c.act.getLsbD l = true → c.operand w.srcB l = c.operand w.srcB low) → Goes (execBcast w s) fun t =>
      let n := if first then low else (c.operand w.srcB low).toNat % 32
      MoveRule s t c (fun _ => c.operand w.srcA n) fun k _ => c.shadow w.srcA k n := by
  intro c low first hsame
  have hbad : (if w.func / 2 ^ 23 % 2 = 1 then 0 else differing c w.srcB) = 0 := by
    rcases hsame with hfirst | hsame
    · exact if_pos hfirst
    · rw [differing_eq_zero hsame, ite_self]
  rw [execBcast, laneInstr_starts hrole h]
  simp only [show laneOf s w = c from rfl, beq_iff_eq, hbad, ne_eq, not_true_eq_false, if_false]
  exact goes_laneWrite s w _ _

/-- TRAPCAUSE of a trap, of the scalar stream or of a lane stream at its split and place (R99, R213). -/
theorem causeWord_eq_r99 (c : Cause) (detail : Nat) (lane : Option (Nat × Nat)) :
    causeWord c detail lane = r99cause c.code detail lane := by
  cases lane with
  | none => exact causeWord_eq_r99cause c detail
  | some x =>
    simp only [causeWord, r99cause]
    congr 1
    omega

/-- A state whose issuing group has entered its trap in a lane stream, and whose memory and other groups are as before, is what trap
entry leaves (R217). -/
theorem trapTaken_of_enterTrap_lane {s t : State} {c : Cause} {detail i index : Nat} {pc : BitVec 56} {planes : Mask} {addr : Word}
    (hlane : s.cur.lane = some i)
    (hgroup : t.group = s.group.enterTrap (trapVector s.grid) (causeWord c detail (some (i, index))) pc planes addr (some i))
    (hmem : t.mem = s.mem) (hother : ∀ k, k ≠ s.cur.key → Assoc.find? t.groups k = Assoc.find? s.groups k) :
    TrapTaken s t c.code detail (some (i, index)) pc planes addr := by
  simp only [TrapTaken, hgroup, hlane]
  refine ⟨causeWord_eq_r99 c detail (some (i, index)), rfl, rfl, rfl, rfl, rfl, rfl, rfl, rfl, ?_, fun n hn => ?_, rfl, rfl, rfl,
    rfl, rfl, rfl, fun _ => rfl, rfl, hmem, hother⟩
  · exact congrArg Aperture.valid ((Group.readA_writeA _ _ _ _).trans (if_pos rfl))
  · exact (Group.readA_writeA _ _ _ _).trans (if_neg hn.symm)

/-- A lane instruction's trap, outside handler state and with a trap vector, enters the handler (R217). -/
theorem laneTraps_takeTrap {s : State} {w : LaneWord} (hlane : s.cur.lane = some (laneOf s w).i) (h : TrapsToHandler s) (c : Cause)
    (detail : Nat) (planes : Mask) (addr : Word) :
    LaneTraps (.next (takeTrap s c detail planes addr)) s (laneOf s w) c.code detail planes addr := by
  refine ⟨_, rfl, ?_⟩
  rw [takeTrap_toHandler h, hlane]
  exact trapTaken_of_enterTrap_lane hlane (State.group_setGroup s _) rfl (onlyGroup_setGroup s _).2

/-- A BCAST of an operand that differs between active lanes traps, and names the lanes that differ from the lowest (R165, R370). -/
theorem laneTraps_bcast {w : LaneWord} {s : State} (hrole : s.group.role = .vector) (h : LaneStarts s (.bcast w) w)
    (hfirst : ¬w.func / 2 ^ 23 % 2 = 1) (hlane : s.cur.lane = some (laneOf s w).i) (hto : TrapsToHandler s) {lanes : Mask}
    (hne : lanes ≠ 0) (hdiff : differing (laneOf s w) w.srcB = lanes) :
    LaneTraps (execBcast w s) s (laneOf s w) 5 0 lanes 0 := by
  have hbad : (if w.func / 2 ^ 23 % 2 = 1 then 0 else differing (laneOf s w) w.srcB) = lanes := (if_neg hfirst).trans hdiff
  rw [execBcast, laneInstr_starts hrole h]
  simp only [beq_iff_eq, hbad, ne_eq, hne, not_false_eq_true, if_true]
  exact laneTraps_takeTrap hlane hto .nonuni 0 lanes 0

/-- Settles O36: six of them are lane-wise writes of what they read, MOVX of a register that it computes; QMOV and QSET write scale
bytes; and BCAST traps on exactly the lanes that differ. -/
theorem laneMoves : Obligations.LaneMoves := by
  intro w s c f ty pw x dx i from_ pick low first scales hrole
  refine ⟨fun h => ?pack, fun h => ?unpk, fun h => ?qget, fun h => ?mov, fun h hlo hhi _ hfree => goes_movx hrole h hlo hhi hfree,
    fun h => ?sel, fun h => ?shfl, goes_bcast hrole, fun h hnot hlane hto lanes hne hlanes => ?nonuni, fun _ => ⟨fun h => ?qmov,
    fun h => ?qset⟩⟩
  case pack =>
    show Goes (execPack w s) _
    rw [execPack]
    exact goes_moveInstr hrole h
  case unpk =>
    show Goes (execUnpk w s) _
    rw [execUnpk]
    exact goes_moveInstr hrole h
  case qget =>
    show Goes (execQget w s) _
    rw [execQget]
    exact goes_moveInstr hrole h
  case mov =>
    show Goes (execMov w s) _
    rw [execMov]
    exact goes_moveInstr hrole h
  case sel =>
    show Goes (execSelLane w s) _
    rw [execSelLane]
    exact goes_moveInstr hrole h
  case shfl =>
    show Goes (execShfl w s) _
    rw [execShfl]
    exact goes_moveInstr hrole h
  case nonuni =>
    exact laneTraps_bcast hrole h hnot hlane hto hne <| BitVec.eq_of_getLsbD_eq fun l hl =>
      Bool.eq_iff_iff.2 ((getLsbD_differing c w.srcB hl).trans (hlanes l hl).symm)
  case qmov =>
    show Goes (execQmov w s) _
    rw [execQmov, laneInstr_starts hrole h]
    exact goes_scaleBytes s w _
  case qset =>
    show Goes (execQset w s) _
    rw [execQset, laneInstr_starts hrole h]
    refine goes_mono (goes_scaleBytes s w _) fun t ⟨hon, hv, hp, hbytes⟩ => ⟨hon, hv, hp, fun k n l hn hl => ?_⟩
    rw [hbytes k n l hn hl, Nat.mod_mod]

end Sys2Proof.Machine
end

section
/-! PROOFS. The tangent moves (R185, R186): lanes and bytes of a register that are written plane by plane, and the trap of a plane
that the clause's width does not reach. -/

namespace Sys2Proof.Machine

open Sys2Proof.Safety

/-! Planes that are written one by one. -/

/-- Register `d` has taken `v` in the lanes of a mask and in these planes, and no other lane of a vector register differs. -/
def LanesTaken (g h : Group) (d : Nat) (act : Mask) (planes : List Nat) (v : Nat → Nat → LaneW) : Prop :=
  ∀ m n l, n < 512 → l < 32 → Bits.lane (h.readV m n) l =
    if n = d ∧ m ∈ planes ∧ act.getLsbD l = true then v m l else Bits.lane (g.readV m n) l

/-- Scale register `d` has taken the bytes `b` in the lanes of a mask and in these planes, and no other byte differs. -/
def ScalesTaken (g h : Group) (d : Nat) (act : Mask) (planes : List Nat) (b : Nat → Nat → Nat) : Prop :=
  ∀ m n l, n < 512 → l < 32 → Bits.qbyte (h.readQ m n) l =
    if n = d ∧ m ∈ planes ∧ act.getLsbD l = true then b m l else Bits.qbyte (g.readQ m n) l

theorem LanesTaken.nil {g h : Group} (hv : h.v = g.v) (d : Nat) (act : Mask) (v : Nat → Nat → LaneW) : LanesTaken g h d act [] v :=
  fun m n l _ _ => by simp [Group.readV_congr hv]

theorem ScalesTaken.nil {g h : Group} (hq : h.q = g.q) (d : Nat) (act : Mask) (b : Nat → Nat → Nat) : ScalesTaken g h d act [] b :=
  fun m n l _ _ => by simp [Group.readQ_congr hq]

theorem LanesTaken.congr {g h i : Group} {d : Nat} {act : Mask} {planes : List Nat} {v : Nat → Nat → LaneW}
    (hgh : LanesTaken g h d act planes v) (hv : i.v = h.v) : LanesTaken g i d act planes v :=
  fun m n l hn hl => (congrArg (Bits.lane · l) (Group.readV_congr hv m n)).trans (hgh m n l hn hl)

theorem ScalesTaken.congr {g h i : Group} {d : Nat} {act : Mask} {planes : List Nat} {b : Nat → Nat → Nat}
    (hgh : ScalesTaken g h d act planes b) (hq : i.q = h.q) : ScalesTaken g i d act planes b :=
  fun m n l hn hl => (congrArg (Bits.qbyte · l) (Group.readQ_congr hq m n)).trans (hgh m n l hn hl)

/-- A choice by the last plane before the earlier ones is a choice by all of them. -/
theorem ite_mem_concat {α : Type} {r a : Prop} [Decidable r] [Decidable a] {m k : Nat} {planes : List Nat} {x y z : α}
    (hx : m = k → x = y) :
    (if r ∧ m = k ∧ a then x else if r ∧ m ∈ planes ∧ a then y else z) = if r ∧ m ∈ planes ++ [k] ∧ a then y else z := by
  by_cases hk : m = k
  · by_cases hra : r ∧ a
    · simp [hra, hk, hx hk]
    · have hno (p : Prop) : ¬(r ∧ p ∧ a) := fun h => hra ⟨h.1, h.2.2⟩
      simp only [hno, if_false]
  · simp [hk]

/-- One more plane is written. -/
theorem LanesTaken.writeLanes {g h : Group} {d : Nat} {act : Mask} {planes : List Nat} {v : Nat → Nat → LaneW}
    (hgh : LanesTaken g h d act planes v) (hd : d < 512) {k : Nat} {f : Nat → LaneW} (hf : f = v k) :
    LanesTaken g (h.writeLanes k d act f) d act (planes ++ [k]) v := by
  subst hf
  intro m n l hn hl
  rw [lane_readV_writeLanes h hd hn hl, hgh m n l hn hl]
  exact ite_mem_concat fun hk => by rw [hk]

/-- One more plane's bytes are written. -/
theorem ScalesTaken.writeScaleLanes {g h : Group} {d : Nat} {act : Mask} {planes : List Nat} {b : Nat → Nat → Nat}
    (hgh : ScalesTaken g h d act planes b) (hd : d < 512) {k : Nat} {f : Nat → Nat} (hf : ∀ l, f l % 256 = b k l) :
    ScalesTaken g (h.writeScaleLanes d k act f) d act (planes ++ [k]) b := by
  intro m n l hn hl
  rw [qbyte_readQ_writeScaleLanes h hd hn hl, hgh m n l hn hl, hf]
  exact ite_mem_concat fun hk => by rw [hk]

theorem qbyte_mod (q : ScaleReg) (l : Nat) : Bits.qbyte q l % 256 = Bits.qbyte q l := Nat.mod_mod _ _

/-! What a tangent move leaves. -/

/-- A tangent move has made `h` of `g`: register `d` has taken `v`, and with `q` its scale register the bytes `b`, in these planes
and the lanes of a mask (R186). -/
def TangentMoved (g h : Group) (d : Nat) (act : Mask) (q : Bool) (planes : List Nat) (v : Nat → Nat → LaneW)
    (b : Nat → Nat → Nat) : Prop :=
  RegsOnly g h ∧ (q = false → h.q = g.q) ∧ LanesTaken g h d act planes v ∧ (q = true → ScalesTaken g h d act planes b)

/-- Without .q the scale registers are as they were, and with it a plane's bytes are written. -/
theorem moveScale_eq (g : Group) (q : Bool) (act : Mask) (k : Nat) {d : Nat} (hd : d < 384) (f : Nat → Nat) :
    moveScale g q act k d f = if q = true then g.writeScaleLanes d k act f else g := by
  cases q <;> simp [moveScale, Group.writeScaleLanes, Nat.not_le.2 hd]

theorem ScalesOnly.moveScale (g : Group) (q : Bool) (act : Mask) (k d : Nat) (f : Nat → Nat) :
    ScalesOnly g (moveScale g q act k d f) := by
  unfold Machine.moveScale
  split
  · exact ⟨_, rfl⟩
  · exact ⟨_, rfl⟩

theorem ScalesOnly.regsOnly {g h : Group} (hgh : ScalesOnly g h) : RegsOnly g h := by
  obtain ⟨_, rfl⟩ := hgh
  exact ⟨_, _, rfl⟩

/-- A plane that takes lanes and, with .q, bytes. -/
theorem TangentMoved.plane {g h : Group} {d : Nat} {act : Mask} {q : Bool} {planes : List Nat} {v : Nat → Nat → LaneW}
    {b : Nat → Nat → Nat} (hgh : TangentMoved g h d act q planes v b) (hd : d < 384) {k : Nat} {f : Nat → LaneW} {x : Nat → Nat}
    (hf : f = v k) (hx : ∀ l, x l % 256 = b k l) :
    TangentMoved g (moveScale (h.writeLanes k d act f) q act k d x) d act q (planes ++ [k]) v b := by
  obtain ⟨hregs, hsame, hlanes, hscales⟩ := hgh
  have hd' : d < 512 := Nat.lt_trans hd (by decide)
  have hvec := VecOnly.writeLanes h k d act f
  have hmove := ScalesOnly.moveScale (h.writeLanes k d act f) q act k d x
  refine ⟨(hregs.trans hvec.regsOnly).trans hmove.regsOnly, fun hq => ?_, (hlanes.writeLanes hd' hf).congr hmove.others.1,
    fun hq => ?_⟩
  · rw [moveScale_eq _ _ _ _ hd, hq, if_neg Bool.false_ne_true, hvec.q, hsame hq]
  · rw [moveScale_eq _ _ _ _ hd, if_pos hq]
    exact ((hscales hq).congr hvec.q).writeScaleLanes hd' hx

theorem TangentMoved.start (g : Group) (d : Nat) (act : Mask) (q : Bool) (v : Nat → Nat → LaneW) (b : Nat → Nat → Nat) :
    TangentMoved g g d act q [] v b := ⟨.refl g, fun _ => rfl, .nil rfl d act v, fun _ => .nil rfl d act b⟩

/-- A move into one plane. -/
theorem TangentMoved.one (g : Group) {d : Nat} (hd : d < 384) (act : Mask) (q : Bool) (k : Nat) (f : Nat → LaneW) (x : Nat → Nat)
    (hx : ∀ l, x l % 256 = x l) :
    TangentMoved g (moveScale (g.writeLanes k d act f) q act k d x) d act q [k] (fun _ => f) fun _ => x :=
  (TangentMoved.start g d act q (fun _ => f) fun _ => x).plane hd rfl hx

/-- Planes that are cleared one after another. -/
theorem TangentMoved.clear {g h : Group} {d : Nat} (hd : d < 384) (act : Mask) (q : Bool) {done : List Nat}
    (hgh : TangentMoved g h d act q done (fun _ _ => 0) fun _ _ => 0) (planes : List Nat) :
    TangentMoved g (planes.foldl (fun g k => moveScale (g.writeLanes k d act fun _ => 0) q act k d fun _ => 0) h) d act q
      (done ++ planes) (fun _ _ => 0) fun _ _ => 0 := by
  induction planes generalizing h done with
  | nil => simpa using hgh
  | cons k planes ih => simpa using ih (hgh.plane hd rfl fun _ => rfl)

/-- An exchange of a register with its shadow. -/
theorem TangentMoved.swap (g : Group) {d : Nat} (hd : d < 384) (act : Mask) (q : Bool) {k : Nat} (hk : k ≠ 0) :
    let new := (g.writeLanes 0 d act fun l => Bits.lane (g.readV k d) l).writeLanes k d act fun l => Bits.lane (g.readV 0 d) l
    TangentMoved g (moveScale (moveScale new q act 0 d fun l => Bits.qbyte (g.readQ k d) l) q act k d
        fun l => Bits.qbyte (g.readQ 0 d) l) d act q [0, k]
      (fun m l => Bits.lane (g.readV (if m = 0 then k else 0) d) l) fun m l => Bits.qbyte (g.readQ (if m = 0 then k else 0) d) l := by
  intro new
  have hd' : d < 512 := Nat.lt_trans hd (by decide)
  have hvec : VecOnly g new := (VecOnly.writeLanes g 0 d act _).trans (.writeLanes _ k d act _)
  have hlanes : LanesTaken g new d act [0, k] fun m l => Bits.lane (g.readV (if m = 0 then k else 0) d) l :=
    ((LanesTaken.nil rfl d act _).writeLanes hd' (by simp)).writeLanes hd' (by simp [hk])
  have hfirst := ScalesOnly.moveScale new q act 0 d fun l => Bits.qbyte (g.readQ k d) l
  have hboth := ScalesOnly.moveScale (moveScale new q act 0 d fun l => Bits.qbyte (g.readQ k d) l) q act k d
    fun l => Bits.qbyte (g.readQ 0 d) l
  refine ⟨(hvec.regsOnly.trans hfirst.regsOnly).trans hboth.regsOnly, fun hq => ?_,
    (hlanes.congr hfirst.others.1).congr hboth.others.1, fun hq => ?_⟩
  · simp only [moveScale_eq _ _ _ _ hd, hq, Bool.false_eq_true, if_false, hvec.q]
  · simp only [moveScale_eq _ _ _ _ hd, hq, if_true]
    exact ((ScalesTaken.nil hvec.q d act _).writeScaleLanes hd' fun l => by simp [qbyte_mod]).writeScaleLanes hd'
      fun l => by simp [hk, qbyte_mod]

/-! The instructions. -/

/-- A tangent move of a plane beyond the clause's width traps, and one within it ends in the registers that its body makes (R185). -/
theorem laneTraps_tangentMove {i : Instr} {w : LaneWord} {s : State} (hrole : s.group.role = .vector) (h : LaneStarts s i w)
    {k : Nat} (hk : (laneOf s w).t < k) (hlane : s.cur.lane = some (laneOf s w).i) (hto : TrapsToHandler s) (named : Nat)
    {body : Lane → Group} :
    LaneTraps (tangentMove i w k named s body) s (laneOf s w) 4 (named + 65536 * k) (laneOf s w).sp.mask 0 := by
  have hmask : streamMask s = (laneOf s w).sp.mask := by
    rw [streamMask, hlane]
    rfl
  rw [tangentMove, laneInstr_starts hrole h, if_pos hk, trapRange, hmask]
  exact laneTraps_takeTrap hlane hto .regrange _ _ 0

theorem goes_tangentMove {i : Instr} {w : LaneWord} {s : State} (hrole : s.group.role = .vector) (h : LaneStarts s i w)
    {k : Nat} (hk : k ≤ (laneOf s w).t) (named : Nat) {body : Lane → Group} {q : Bool} {planes : List Nat} {v : Nat → Nat → LaneW}
    {b : Nat → Nat → Nat} (hdiscards : 384 ≤ w.dest.toNat → body (laneOf s w) = s.group)
    (hbody : w.dest.toNat < 384 →
      TangentMoved s.group (body (laneOf s w)) w.dest.toNat (laneOf s w).act q planes v b) :
    let c := laneOf s w
    Goes (tangentMove i w k named s body) fun t => LaneOn s t c ∧ t.group.p = c.g.p ∧ t.group.draws = c.g.draws ∧
      (q = false → t.group.q = c.g.q) ∧ (384 ≤ w.dest.toNat → t.group.v = c.g.v ∧ t.group.q = c.g.q) ∧
      (w.dest.toNat < 384 → LanesTaken c.g t.group w.dest.toNat c.act planes v ∧ (q = true → ScaleBytes t c planes b)) := by
  intro c
  rw [tangentMove, laneInstr_starts hrole h, if_neg (Nat.not_lt.2 hk)]
  rcases Nat.lt_or_ge w.dest.toNat 384 with hd | hd
  · obtain ⟨hregs, hsame, hlanes, hscales⟩ := hbody hd
    have hdraws : { body c with draws := s.group.draws } = body c := by
      obtain ⟨_, _, he⟩ := hregs
      rw [show body c = _ from he]
    have hgoes := goes_laneRegisters s w hregs s.group.draws 0
    rw [hdraws] at hgoes
    exact goes_mono hgoes fun t ⟨hon, hdr, hp, hv, hq⟩ => ⟨hon, hp, hdr, fun h => hq.trans (hsame h),
      fun h => absurd hd (Nat.not_lt.2 h), fun _ => ⟨hlanes.congr hv, fun h => (hscales h).congr hq⟩⟩
  · rw [hdiscards hd]
    exact goes_mono (goes_laneRegisters s w (.refl s.group) s.group.draws 0) fun t ⟨hon, hdr, hp, hv, hq⟩ =>
      ⟨hon, hp, hdr, fun _ => hq, fun _ => ⟨hv, hq⟩, fun h => absurd h (Nat.not_lt.2 hd)⟩

/-- A move to a destination that is no register is discarded. -/
theorem moveScale_discards (g : Group) (q : Bool) (act : Mask) (k : Nat) {d : Nat} (hd : 384 ≤ d) (f : Nat → Nat) :
    moveScale g q act k d f = g := by
  simp [moveScale, hd]

/-- Settles O40: each tangent move writes its planes one by one, and traps on a plane beyond the clause's width. -/
theorem tangentMoves : Obligations.TangentMoves := by
  intro w s c d a f k kb moved wide q hrole
  refine ⟨fun h => ⟨fun hk hlane hto => ?tgetTraps, fun hk => ?tget⟩, fun h => ⟨fun hk hlane hto => ?tsetTraps, fun hk => ?tset⟩,
    fun h => ⟨fun hk hlane hto => ?tclrTraps, fun hk => ?tclr⟩, fun h => ⟨fun hk hlane hto => ?tswpTraps, fun hk h0 => ?tswp⟩⟩
  case tgetTraps =>
    show LaneTraps (execTget w s) s c _ _ _ _
    exact laneTraps_tangentMove hrole h hk hlane hto a
  case tsetTraps =>
    show LaneTraps (execTset w s) s c _ _ _ _
    exact laneTraps_tangentMove hrole h hk hlane hto d
  case tclrTraps =>
    show LaneTraps (execTclr w s) s c _ _ _ _
    exact laneTraps_tangentMove hrole h hk hlane hto d
  case tswpTraps =>
    show LaneTraps (execTswp w s) s c _ _ _ _
    exact laneTraps_tangentMove hrole h hk hlane hto d
  case tget =>
    show Goes (execTget w s) _
    refine goes_tangentMove hrole h hk a (fun hd => ?_) fun hd => ?_
    · exact (moveScale_discards _ _ _ _ hd _).trans (if_pos hd)
    · rw [if_neg (Nat.not_le.2 hd)]
      exact .one c.g hd c.act q 0 _ _ fun l => qbyte_mod _ l
  case tset =>
    show Goes (execTset w s) _
    refine goes_tangentMove hrole h hk d (fun hd => ?_) fun hd => ?_
    · exact (moveScale_discards _ _ _ _ hd _).trans (if_pos hd)
    · rw [if_neg (Nat.not_le.2 hd)]
      exact .one c.g hd c.act _ kb _ _ fun l => qbyte_mod _ l
  case tclr =>
    show Goes (execTclr w s) _
    refine goes_tangentMove hrole h hk d (fun hd => if_pos hd) fun hd => ?_
    rw [if_neg (Nat.not_le.2 hd)]
    exact (TangentMoved.start c.g d c.act q _ _).clear hd c.act q _
  case tswp =>
    show Goes (execTswp w s) _
    refine goes_tangentMove hrole h hk d (fun hd => if_pos hd) fun hd => ?_
    rw [if_neg (Nat.not_le.2 hd)]
    exact .swap c.g hd c.act q h0

end Sys2Proof.Machine
end

section
/-! PROOFS. Accumulator tiles (R98, R196): what a plane of Z reads after a write of it or of another plane, and the products that passes
add to it. -/

namespace Sys2Proof.Machine

open Sys2Proof.Num (XVal)

/-! Planes of Z. -/

/-- The nonzero codes of a plane from a place on, as 32-bit words. -/
def planeCodes (k : Nat) (cs : List Nat) : List (Nat × Nat) :=
  (cs.zipIdx k).filterMap fun p => if p.1 = 0 then none else some (p.2, p.1 % 2 ^ 32)

theorem planeCodes_cons (k c : Nat) (cs : List Nat) :
    planeCodes k (c :: cs) = if c = 0 then planeCodes (k + 1) cs else (k, c % 2 ^ 32) :: planeCodes (k + 1) cs := by
  rw [planeCodes, List.zipIdx_cons, List.filterMap_cons]
  by_cases hc : c = 0 <;> simp [hc, planeCodes]

theorem le_of_mem_planeCodes {k : Nat} {cs : List Nat} {p : Nat × Nat} (h : p ∈ planeCodes k cs) : k ≤ p.1 := by
  simp only [planeCodes, List.mem_filterMap, Prod.exists] at h
  obtain ⟨c, j, hmem, hsome⟩ := h
  have hj := List.le_snd_of_mem_zipIdx hmem
  split at hsome
  · exact absurd hsome (by simp)
  · cases hsome
    exact hj

/-- A place that no pair of a sorted list names reads 0. -/
theorem dense_succ_of_absent {n k : Nat} {l : List (Nat × Nat)} (h : ∀ p ∈ l, p.1 ≠ k) : dense (n + 1) k l = 0 :: dense n (k + 1) l := by
  cases l with
  | nil => rfl
  | cons p l => exact if_neg (h p (by simp))

/-- The codes of a plane read back, as words of 32 bits. -/
theorem getD_dense_planeCodes (n k : Nat) (cs : List Nat) (j : Nat) :
    (dense n k (planeCodes k cs)).getD j 0 = if j < n then cs.getD j 0 % 2 ^ 32 else 0 := by
  induction n generalizing k cs j with
  | zero => simp [dense]
  | succ n ih =>
    obtain ⟨head, tail, hcs, hdense⟩ : ∃ c cs', cs.getD j 0 = (c :: cs').getD j 0 ∧
        dense (n + 1) k (planeCodes k cs) = c % 2 ^ 32 :: dense n (k + 1) (planeCodes (k + 1) cs') := by
      cases cs with
      | nil => exact ⟨0, [], by cases j <;> rfl, rfl⟩
      | cons c cs =>
        refine ⟨c, cs, rfl, ?_⟩
        rw [planeCodes_cons]
        split
        · next hc =>
          rw [hc]
          exact dense_succ_of_absent fun p hp => Nat.ne_of_gt (le_of_mem_planeCodes hp)
        · exact if_pos rfl
    rw [hcs, hdense]
    cases j with
    | zero => simp
    | succ j => simpa using ih (k + 1) tail j

theorem Team.readZ_congr {t u : Team} (h : u.z = t.z) (i k : Nat) : u.readZ i k = t.readZ i k := by
  rw [Team.readZ, Team.readZ, h]

/-- A written plane reads back. -/
theorem Team.getD_readZ_writeZ_same (t : Team) (i k : Nat) {cs : List Nat} (hlen : cs.length ≤ 16384) (j : Nat) :
    ((t.writeZ i k cs).readZ i k).getD j 0 = cs.getD j 0 % 2 ^ 32 := by
  have hplane : (((t.writeZ i k cs).z.filter fun p => zBase i k ≤ p.1 && p.1 < zBase i k + 16384).map
      fun p => (p.1 - zBase i k, p.2.toNat)) = planeCodes 0 cs := by
    have hlow : (t.z.filter fun p => p.1 < zBase i k).filter (fun p => zBase i k ≤ p.1 && p.1 < zBase i k + 16384) = [] := by
      simp only [List.filter_filter, List.filter_eq_nil_iff, Bool.and_eq_true, decide_eq_true_eq]
      omega
    have hhigh : (t.z.filter fun p => zBase i k + 16384 ≤ p.1).filter (fun p => zBase i k ≤ p.1 && p.1 < zBase i k + 16384) = [] := by
      simp only [List.filter_filter, List.filter_eq_nil_iff, Bool.and_eq_true, decide_eq_true_eq]
      omega
    simp only [Team.writeZ, List.filter_append, hlow, hhigh, List.nil_append, List.append_nil, List.filter_filterMap,
      List.map_filterMap, planeCodes]
    refine List.filterMap_congr fun p hp => ?_
    have hp' := List.snd_lt_of_mem_zipIdx hp
    by_cases hz : p.1 = 0
    · simp [hz]
    · have hin : p.2 < 16384 := by omega
      simp [hz, hin, Option.filter]
  rw [Team.readZ, hplane, getD_dense_planeCodes]
  split
  · rfl
  · rw [List.getD_eq_default _ _ (by omega), Nat.zero_mod]

/-- The planes 0 to 4 of the tiles stand apart. -/
theorem zBase_apart {i k i' k' : Nat} (hk : k < 5) (hk' : k' < 5) (h : ¬(i' = i ∧ k' = k)) :
    zBase i' k' + 16384 ≤ zBase i k ∨ zBase i k + 16384 ≤ zBase i' k' := by
  have hne : i' * 5 + k' ≠ i * 5 + k := fun he => h (by omega)
  unfold zBase
  omega

/-- Another plane reads as before. -/
theorem Team.readZ_writeZ_other (t : Team) {i k i' k' : Nat} (cs : List Nat) (hlen : cs.length ≤ 16384) (hk : k < 5) (hk' : k' < 5)
    (h : ¬(i' = i ∧ k' = k)) : (t.writeZ i k cs).readZ i' k' = t.readZ i' k' := by
  have hapart := zBase_apart hk hk' h
  have hnone : (cs.zipIdx.filterMap fun p => if p.1 = 0 then none else some (zBase i k + p.2, BitVec.ofNat 32 p.1)).filter
      (fun p => zBase i' k' ≤ p.1 && p.1 < zBase i' k' + 16384) = [] := by
    simp only [List.filter_eq_nil_iff, List.mem_filterMap, Prod.exists]
    rintro a ⟨c, j, hmem, hsome⟩
    have hj := List.snd_lt_of_mem_zipIdx hmem
    dsimp only at hsome hj
    split at hsome
    · exact absurd hsome (by simp)
    · cases hsome
      simp only [Bool.and_eq_true, decide_eq_true_eq]
      omega
  have hsplit : (t.writeZ i k cs).z.filter (fun p => zBase i' k' ≤ p.1 && p.1 < zBase i' k' + 16384) =
      t.z.filter fun p => zBase i' k' ≤ p.1 && p.1 < zBase i' k' + 16384 := by
    simp only [Team.writeZ, List.filter_append, hnone, List.append_nil, List.filter_filter]
    rcases hapart with hlow | hhigh
    · refine (congrArg₂ (· ++ ·) (List.filter_congr fun p _ => ?_) (List.filter_eq_nil_iff.2 fun p _ => ?_)).trans (List.append_nil _)
      · rw [Bool.eq_iff_iff]
        simp only [Bool.and_eq_true, decide_eq_true_eq]
        omega
      · simp only [Bool.and_eq_true, decide_eq_true_eq]
        omega
    · refine (congrArg₂ (· ++ ·) (List.filter_eq_nil_iff.2 fun p _ => ?_) (List.filter_congr fun p _ => ?_)).trans (List.nil_append _)
      · simp only [Bool.and_eq_true, decide_eq_true_eq]
        omega
      · rw [Bool.eq_iff_iff]
        simp only [Bool.and_eq_true, decide_eq_true_eq]
        omega
  rw [Team.readZ, Team.readZ, hsplit]

/-- `u` is `t` but for its accumulators. -/
def TilesOnly (t u : Team) : Prop := ∃ z, u = { t with z := z }

theorem TilesOnly.refl (t : Team) : TilesOnly t t := ⟨_, rfl⟩

theorem TilesOnly.trans {t u v : Team} (htu : TilesOnly t u) (huv : TilesOnly u v) : TilesOnly t v := by
  obtain ⟨_, rfl⟩ := htu
  obtain ⟨_, rfl⟩ := huv
  exact ⟨_, rfl⟩

theorem TilesOnly.writeZ (t : Team) (i k : Nat) (cs : List Nat) : TilesOnly t (t.writeZ i k cs) := ⟨_, rfl⟩

theorem TilesOnly.engine {t u : Team} (h : TilesOnly t u) : u.engine = t.engine := by
  obtain ⟨_, rfl⟩ := h
  rfl

theorem TilesOnly.planes {t u : Team} (h : TilesOnly t u) : u.planes = t.planes := by
  obtain ⟨_, rfl⟩ := h
  rfl

/-! Elements. -/

/-- The code of an element of Z. -/
def Team.zElem (t : Team) (i k m n : Nat) : Nat := (t.readZ i k).getD (m * 128 + n) 0

theorem Team.getD_readZ_toArray (t : Team) (i k m n : Nat) : (t.readZ i k).toArray.getD (m * 128 + n) 0 = t.zElem i k m n := by
  simp [Team.zElem]

/-- The element of a plane whose codes are given by place. -/
theorem Team.zElem_writeZ_same (t : Team) (i k : Nat) (f : Nat → Nat) {m n : Nat} (hm : m < 128) (hn : n < 128) :
    (t.writeZ i k ((List.range 16384).map f)).zElem i k m n = f (m * 128 + n) % 2 ^ 32 := by
  rw [Team.zElem, Team.getD_readZ_writeZ_same _ _ _ (by simp)]
  have hin : m * 128 + n < 16384 := by omega
  simp [hin]

theorem Team.zElem_congr {t u : Team} {i k : Nat} (h : u.readZ i k = t.readZ i k) (m n : Nat) : u.zElem i k m n = t.zElem i k m n := by
  rw [Team.zElem, h, Team.zElem]

/-- The row of A that adds to a row of Z: with two copies of every row, the same for both (R203). -/
def sourceRow (double : Bool) (m : Nat) : Nat := if double = true ∧ 64 ≤ m then m - 64 else m

/-- A product's element (R196). -/
theorem zElem_addProduct (t : Team) (i k : Nat) (mode : Num.RMode) (rows cols depth len : Nat) (a b : Nat → Nat → XVal) (double : Bool)
    {m n : Nat} (hm : m < 128) (hn : n < 128) :
    (addProduct t i k mode rows cols depth len a b double).zElem i k m n =
      (if sourceRow double m < rows ∧ n < cols then
        contract mode (t.zElem i k m n) depth len fun j => (a (sourceRow double m) j).mul (b j n)
      else t.zElem i k m n) % 2 ^ 32 := by
  have hrow : (m * 128 + n) / 128 = m := by omega
  have hcol : (m * 128 + n) % 128 = n := by omega
  rw [addProduct, Team.zElem_writeZ_same _ _ _ _ hm hn]
  simp only [hrow, hcol, t.getD_readZ_toArray, sourceRow, Bool.and_eq_true, decide_eq_true_eq]
  cases double
  · simp
  · simp

theorem TilesOnly.addProduct (t : Team) (i k : Nat) (mode : Num.RMode) (rows cols depth len : Nat) (a b : Nat → Nat → XVal) (double : Bool) :
    TilesOnly t (addProduct t i k mode rows cols depth len a b double) := .writeZ t i k _

theorem readZ_addProduct_other (t : Team) {i k i' k' : Nat} (mode : Num.RMode) (rows cols depth len : Nat) (a b : Nat → Nat → XVal)
    (double : Bool) (hk : k < 5) (hk' : k' < 5) (h : ¬(i' = i ∧ k' = k)) :
    (addProduct t i k mode rows cols depth len a b double).readZ i' k' = t.readZ i' k' :=
  t.readZ_writeZ_other _ (by simp) hk hk' h

/-! Tiles that are cleared (R202). -/

theorem TilesOnly.clearPlanes (t : Team) (i : Nat) (l : List Nat) : TilesOnly t (l.foldl (fun t k => t.writeZ i k []) t) :=
  List.foldlRecOn (motive := TilesOnly t) l _ (.refl t) fun _ h k _ => h.trans (.writeZ _ i k [])

theorem TilesOnly.clearTile (t : Team) (i : Nat) : TilesOnly t (t.clearTile i) := .clearPlanes t i _

/-- A cleared plane reads +0. -/
theorem getD_readZ_cleared (t : Team) (i k j : Nat) : ((t.writeZ i k []).readZ i k).getD j 0 = 0 := by
  rw [Team.getD_readZ_writeZ_same _ _ _ (by simp)]
  rfl

/-- Every plane of a cleared tile reads +0. -/
theorem getD_readZ_clearTile_same (t : Team) (i : Nat) (hplanes : t.planes ≤ 5) {k : Nat} (hk : k < t.planes) (j : Nat) :
    ((t.clearTile i).readZ i k).getD j 0 = 0 := by
  refine foldl_settles (P := fun _ => True) (f := fun t k => Team.writeZ t i k []) (read := fun u : Team => (u.readZ i k).getD j 0)
    (List.mem_range.2 hk) (fun _ _ _ _ => trivial) (fun u _ => getD_readZ_cleared u i k j) (fun u k' hk' _ => ?_) trivial
  have hk' := List.mem_range.1 hk'
  by_cases h : k = k'
  · exact .inl (h ▸ getD_readZ_cleared u i k j)
  · exact .inr (by rw [u.readZ_writeZ_other [] (by simp) (by omega) (by omega) fun he => h he.2])

/-- A plane of another tile reads as before. -/
theorem readZ_clearTile_other (t : Team) {i i' : Nat} (hplanes : t.planes ≤ 5) (h : i' ≠ i) {k : Nat} (hk : k < 5) :
    (t.clearTile i).readZ i' k = t.readZ i' k :=
  List.foldlRecOn (motive := fun u : Team => u.readZ i' k = t.readZ i' k) _ _ rfl fun u hu k' hk' =>
    (u.readZ_writeZ_other [] (by simp) (by have := List.mem_range.1 hk'; omega) hk fun he => h he.1).trans hu

/-- Of tiles that are cleared one after another every plane reads +0. -/
theorem getD_readZ_clearTiles (t : Team) (hplanes : t.planes ≤ 5) {l : List Nat} {i : Nat} (hi : i ∈ l) {k : Nat} (hk : k < t.planes)
    (j : Nat) : ((l.foldl Team.clearTile t).readZ i k).getD j 0 = 0 := by
  refine foldl_settles (P := TilesOnly t) (read := fun u : Team => (u.readZ i k).getD j 0) hi
    (fun u i' _ hu => hu.trans (.clearTile u i')) (fun u hu => ?_) (fun u i' _ hu => ?_) (.refl t)
  · exact getD_readZ_clearTile_same u i (hu.planes ▸ hplanes) (hu.planes ▸ hk) j
  · by_cases h : i = i'
    · exact .inl (h ▸ getD_readZ_clearTile_same u i (hu.planes ▸ hplanes) (hu.planes ▸ hk) j)
    · exact .inr (by rw [readZ_clearTile_other u (hu.planes ▸ hplanes) h (by omega)])

theorem TilesOnly.clearTiles (t : Team) (l : List Nat) : TilesOnly t (l.foldl Team.clearTile t) :=
  List.foldlRecOn (motive := TilesOnly t) l _ (.refl t) fun _ h i _ => h.trans (.clearTile _ i)

end Sys2Proof.Machine
end

section
/-! PROOFS. The passes of the matrix engine (R184, R189, R196 to R203, R205, R207): what each leaves of its team and of its command. -/

namespace Sys2Proof.Machine

open Sys2Proof.Safety
open Sys2Proof.Num (XVal)

/-! The end of a pass. -/

/-- `d` is the command `c` after one more pass, with other claims. -/
def PassRun (c d : MatrixCmd) : Prop := ∃ a b, d = { c with passes := c.passes + 1, claim1 := a, claim2 := b }

/-- `u` is a state in which the team `t`, with its head command `d` in place of the one that ran, has taken its place, and which
leaves the memory and the groups of `s`. -/
def PassEnded (s : State) (tk : Nat) (t : Team) (d : MatrixCmd) (u : State) : Prop :=
  u.mem = s.mem ∧ u.groups = s.groups ∧
    ∃ rings, u.teamAt tk = { t with rings := rings, engine := { t.engine with queue := d :: t.engine.queue.drop 1 } }

/-- A pass ends (R207). -/
theorem passEnded_endPass {s s' : State} (hmem : s'.mem = s.mem) (hgroups : s'.groups = s.groups) (tk : Nat) (t : Team) (c : MatrixCmd) :
    ∃ d, PassRun c d ∧ PassEnded s tk t d (endPass s' tk t c) := by
  unfold endPass
  dsimp only
  split
  · refine ⟨_, ⟨none, none, rfl⟩, hmem, hgroups,
      ((t.setHead { c with passes := c.passes + 1 }).endClaims { c with passes := c.passes + 1 }).rings, ?_⟩
    rw [State.teamAt_putTeam, Team.endClaims_only]
    rfl
  · exact ⟨_, ⟨c.claim1, c.claim2, rfl⟩, hmem, hgroups, _, State.teamAt_putTeam ..⟩

theorem PassEnded.readZ {s u : State} {tk : Nat} {t : Team} {d : MatrixCmd} (h : PassEnded s tk t d u) (i k : Nat) :
    (u.teamAt tk).readZ i k = t.readZ i k := by
  obtain ⟨-, -, rings, hteam⟩ := h
  exact Team.readZ_congr (by rw [hteam]) i k

theorem PassEnded.engine {s u : State} {tk : Nat} {t : Team} {d : MatrixCmd} (h : PassEnded s tk t d u) :
    (u.teamAt tk).engine = { t.engine with queue := d :: t.engine.queue.drop 1 } := by
  obtain ⟨-, -, rings, hteam⟩ := h
  rw [hteam]

/-! Operands. -/

/-- Taking an operand takes free values only. -/
theorem takeOperand_state (s : State) (tk : Nat) (c : MatrixCmd) (o : Place × View × Nat) (brought : List Tile) :
    ∃ free, (takeOperand s tk c o brought).2 = { s with free := free } := by
  unfold takeOperand
  dsimp only
  split <;> exact ⟨_, rfl⟩

/-- An operand of the scratchpad that has not changed since the command issued is what stands there (R209). -/
theorem takeOperand_scratch {s : State} {tk : Nat} {c : MatrixCmd} (h : c.early = (s.teamAt tk).scratch) (off : Nat) (v : View) (n : Nat) :
    (takeOperand s tk c (.scratch off, v, n) []).1 = (Place.scratch off).tiles s (s.teamAt tk) [] c.sample v := by
  have hbyte (free a : Nat) : c.scratchByte (s.teamAt tk) free a = Assoc.get 0 (s.teamAt tk).scratch a := by
    rw [MatrixCmd.scratchByte, h]
    simp [raced]
  simp only [takeOperand, hbyte]
  rfl


/-! The head command (R207). -/

/-- The head command of the engine has run a pass as `d`. -/
def Passed (s : State) (tk : Nat) (c : MatrixCmd) (rest : List MatrixCmd) (u : State) (d : MatrixCmd) : Prop :=
  u.mem = s.mem ∧ u.groups = s.groups ∧ (u.teamAt tk).engine.queue = d :: rest ∧ d.op = c.op ∧ d.passes = c.passes + 1

theorem PassEnded.passed {s u : State} {tk : Nat} {t : Team} {c c' d : MatrixCmd} {rest : List MatrixCmd} (h : PassEnded s tk t d u)
    (hd : PassRun c' d) (hqueue : t.engine.queue = c :: rest) (hop : c'.op = c.op) (hpasses : c'.passes = c.passes) :
    Passed s tk c rest u d := by
  have hengine := h.engine
  obtain ⟨hmem, hgroups, -⟩ := h
  obtain ⟨_, _, rfl⟩ := hd
  refine ⟨hmem, hgroups, ?_, hop, congrArg (· + 1) hpasses⟩
  rw [hengine]
  simp [hqueue]

/-- Which planes a pass of a command works on lie among the five of a tile (R184). -/
theorem passPlanes_lt {c : MatrixCmd} (hpasses : c.passes < c.total) (hwidth : c.sample.width ≤ 4) :
    (passPlanes c.passes).2.2 < 5 := by
  have htotal : c.total ≤ 9 := by
    unfold MatrixCmd.total
    split <;> omega
  unfold passPlanes
  split
  · decide
  · split
    · show (c.passes + 1) / 2 < 5
      omega
    · show c.passes / 2 < 5
      omega

section

variable {tk : Nat} {s : State} {c : MatrixCmd} {rest : List MatrixCmd} (hqueue : (s.teamAt tk).engine.queue = c :: rest)
  (hready : passReady (s.teamAt tk) = true)

include hqueue hready

/-- A head command that may start a pass has passes left (R184). -/
theorem passes_lt_total : c.passes < c.total := by
  simp only [passReady, hqueue, Bool.and_eq_true, decide_eq_true_eq] at hready
  obtain ⟨⟨-, hpasses⟩, -⟩ := hready
  exact hpasses

/-- A command with one pass starts its first. -/
theorem passes_eq_zero (hone : c.total = 1) : c.passes = 0 := by
  have := passes_lt_total hqueue hready
  omega

variable (hpaused : enginePaused s tk = false)

include hpaused

theorem exec_matrixPassStart_first (hpasses : c.passes = 0) : exec (.matrixPassStart tk) s = firstPass s tk c := by
  show execMatrixPassStart tk s = _
  simp only [execMatrixPassStart, hqueue, hready, hpaused, hpasses, Bool.not_true, Bool.or_self, Bool.false_eq_true, if_false, if_true]

theorem exec_matrixPassStart_later (hpasses : c.passes ≠ 0) :
    (c.op = .mma → exec (.matrixPassStart tk) s = .next (endPass s tk (passMma (s.teamAt tk) c) c)) ∧
    (c.op = .mma2 → exec (.matrixPassStart tk) s = .next (endPass s tk (passMma2 (s.teamAt tk) c) c)) ∧
    (c.op = .mvnb → exec (.matrixPassStart tk) s = .next (endPass s tk (passMvnb (s.teamAt tk) c) c)) := by
  have hexec : exec (.matrixPassStart tk) s = execMatrixPassStart tk s := rfl
  rw [hexec]
  simp only [execMatrixPassStart, hqueue, hready, hpaused, hpasses, Bool.not_true, Bool.or_self, Bool.false_eq_true, if_false]
  exact ⟨fun hop => by simp only [hop], fun hop => by simp only [hop], fun hop => by simp only [hop]⟩

end

end Sys2Proof.Machine
end

section
/-! PROOFS. The products of the matrix engine: the passes of MMA and MMA2 (R184, R196, R198, R199, R203). -/

namespace Sys2Proof.Machine

open Sys2Proof.Safety
open Sys2Proof.Num (XVal)

/-- The head command, a product, has run a pass as `d`, which leaves S, the mode and, after its first, its operands. -/
def ProductPassed (s : State) (tk : Nat) (c : MatrixCmd) (rest : List MatrixCmd) (u : State) (d : MatrixCmd) : Prop :=
  Passed s tk c rest u d ∧ (u.teamAt tk).engine.stat = (s.teamAt tk).engine.stat ∧
  (u.teamAt tk).engine.redundant = (s.teamAt tk).engine.redundant ∧
  (c.passes ≠ 0 → d.loaded = c.loaded ∧ d.loaded2 = c.loaded2)

/-- Every plane of Z but one of some tiles reads as before. -/
def OtherPlanes (t u : Team) (tiles : List Nat) (plane : Nat) : Prop :=
  ∀ i k, k < 5 → i ∉ tiles ∨ k ≠ plane → u.readZ i k = t.readZ i k

theorem OtherPlanes.congr {t u v : Team} {tiles : List Nat} {plane : Nat} (h : OtherPlanes t u tiles plane)
    (hv : ∀ i k, v.readZ i k = u.readZ i k) : OtherPlanes t v tiles plane := fun i k hk hother => (hv i k).trans (h i k hk hother)

theorem otherPlanes_writeZ (t : Team) (i : Nat) {k : Nat} {cs : List Nat} (hlen : cs.length ≤ 16384) (hk : k < 5) :
    OtherPlanes t (t.writeZ i k cs) [i] k := fun i' k' hk' hother =>
  t.readZ_writeZ_other cs hlen hk hk' fun ⟨hi, hkk⟩ => hother.elim (fun h => h (by simp [hi])) fun h => h hkk

theorem OtherPlanes.more {t u v : Team} {i i' k : Nat} (h : OtherPlanes t u [i] k) (h' : OtherPlanes u v [i'] k) :
    OtherPlanes t v [i, i'] k := by
  intro j k' hk hother
  have hnot : (j ∉ [i] ∨ k' ≠ k) ∧ (j ∉ [i'] ∨ k' ≠ k) := by
    simp only [List.mem_cons, List.not_mem_nil, or_false, not_or] at hother ⊢
    exact ⟨hother.imp_left And.left, hother.imp_left And.right⟩
  exact (h' j k' hk hnot.2).trans (h j k' hk hnot.1)

/-- After its pass a command has the operands that it ran with. -/
theorem PassRun.operands {c d : MatrixCmd} (h : PassRun c d) : d.loaded = c.loaded ∧ d.loaded2 = c.loaded2 ∧ d.banks = c.banks := by
  obtain ⟨_, _, rfl⟩ := h
  exact ⟨rfl, rfl, rfl⟩

/-! MMA. -/

/-- A pass of MMA adds a product to one plane (R198). -/
theorem passMma_eq (t : Team) (c : MatrixCmd) :
    let x := passPlanes c.passes
    let a := tileOf c.loaded x.1
    let b := stationary t.engine x.2.1
    passMma t c = addProduct t c.word.za x.2.2 (passMode c.sample c.passes) a.rows 128 128 (stepLength a b.1) (a.pick a.values) b.2
      t.engine.redundant := rfl

theorem TilesOnly.passMma (t : Team) (c : MatrixCmd) : TilesOnly t (passMma t c) := by
  rw [passMma_eq]
  exact .addProduct ..

theorem otherPlanes_passMma (t : Team) {c : MatrixCmd} (hplane : (passPlanes c.passes).2.2 < 5) :
    OtherPlanes t (passMma t c) [c.word.za] (passPlanes c.passes).2.2 := by
  rw [passMma_eq]
  exact otherPlanes_writeZ t _ (by simp) hplane

theorem zElem_passMma (t : Team) (c : MatrixCmd) {m n : Nat} (hm : m < 128) (hn : n < 128) :
    let w := c.word
    let x := passPlanes c.passes
    let a := tileOf c.loaded x.1
    let b := stationary t.engine x.2.1
    let i := sourceRow t.engine.redundant m
    (passMma t c).zElem w.za x.2.2 m n = (if i < a.rows then
        contract (passMode c.sample c.passes) (t.zElem w.za x.2.2 m n) 128 (stepLength a b.1) fun k => (a.pick a.values i k).mul (b.2 k n)
      else t.zElem w.za x.2.2 m n) % 2 ^ 32 := by
  intro w x a b i
  rw [passMma_eq]
  refine (zElem_addProduct t _ _ _ _ _ _ _ _ _ _ hm hn).trans ?_
  simp only [hn, and_true]
  rfl

/-- The state in which a pass of MMA ends: its operand `l` is what it has taken or has, and the bypass is emptied by the pass that
reads it (R198). -/
theorem exec_mma {tk : Nat} {s : State} {c : MatrixCmd} {rest : List MatrixCmd} (hqueue : (s.teamAt tk).engine.queue = c :: rest)
    (hready : passReady (s.teamAt tk) = true) (hpaused : enginePaused s tk = false) (hop : c.op = .mma) :
    let e := (s.teamAt tk).engine
    ∃ s' l b, s'.mem = s.mem ∧ s'.groups = s.groups ∧ exec (.matrixPassStart tk) s = .next (endPass s' tk
        (passMma { s.teamAt tk with engine := { e with bypass := b } } { c with loaded := l }) { c with loaded := l }) ∧
      (c.passes ≠ 0 → l = c.loaded) ∧
      (c.passes = 0 → c.word.kind ≠ 3 → l = (takeOperand s tk c (c.first c.word.m 128) c.loaded).1 ∧ b = e.bypass) ∧
      (c.passes = 0 → c.word.kind = 3 → (∀ l', e.bypass = some l' → l = l') ∧ b = none) := by
  intro e
  by_cases hpasses : c.passes = 0
  · rw [exec_matrixPassStart_first hqueue hready hpaused hpasses, firstPass, hop]
    by_cases hkind : c.word.kind = 3
    · simp only [hkind, if_true]
      split
      · next tiles hbypass =>
        exact ⟨s, tiles, none, rfl, rfl, rfl, fun h => absurd hpasses h, fun _ h => absurd rfl h,
          fun _ _ => ⟨fun l' hl' => Option.some.inj (hbypass.symm.trans hl'), rfl⟩⟩
      · next hbypass =>
        exact ⟨(freeBypass s c e.redundant).2, _, none, rfl, rfl, rfl, fun h => absurd hpasses h, fun _ h => absurd rfl h,
          fun _ _ => ⟨fun l' hl' => absurd (hbypass.symm.trans hl') (by simp), rfl⟩⟩
    · obtain ⟨free, hfree⟩ := takeOperand_state s tk c (c.first c.word.m 128) c.loaded
      simp only [hkind, if_false, hfree]
      exact ⟨{ s with free := free }, _, e.bypass, rfl, rfl, rfl, fun h => absurd hpasses h, fun _ _ => ⟨rfl, rfl⟩,
        fun _ h => absurd h id⟩
  · obtain ⟨hexec, -⟩ := exec_matrixPassStart_later hqueue hready hpaused hpasses
    exact ⟨s, c.loaded, e.bypass, rfl, rfl, hexec hop, fun _ => rfl, fun h => absurd h hpasses, fun h => absurd h hpasses⟩

/-- A pass of MMA (R184, R198, R203). -/
theorem goes_mma {tk : Nat} {s : State} {c : MatrixCmd} {rest : List MatrixCmd} (hqueue : (s.teamAt tk).engine.queue = c :: rest)
    (hready : passReady (s.teamAt tk) = true) (hpaused : enginePaused s tk = false) (hwidth : c.sample.width ≤ 4) (hop : c.op = .mma) :
    let t := s.teamAt tk
    let e := t.engine
    let w := c.word
    let x := passPlanes c.passes
    Goes (exec (.matrixPassStart tk) s) fun u => ∃ d, ProductPassed s tk c rest u d ∧ OtherPlanes t (u.teamAt tk) [w.za] x.2.2 ∧
      (c.passes = 0 → w.kind ≠ 3 → d.loaded = (takeOperand s tk c (c.first w.m 128) c.loaded).1 ∧
        (u.teamAt tk).engine.bypass = e.bypass) ∧
      (c.passes = 0 → w.kind = 3 → (∀ l, e.bypass = some l → d.loaded = l) ∧ (u.teamAt tk).engine.bypass = none) ∧
      let a := tileOf d.loaded x.1
      let b := stationary e x.2.1
      ∀ m n, m < 128 → n < 128 →
        let i := sourceRow e.redundant m
        (u.teamAt tk).zElem w.za x.2.2 m n = (if i < a.rows then
            contract (passMode c.sample c.passes) (t.zElem w.za x.2.2 m n) 128 (stepLength a b.1) fun k => (a.pick a.values i k).mul (b.2 k n)
          else t.zElem w.za x.2.2 m n) % 2 ^ 32 := by
  intro t e w x
  obtain ⟨s', l, b, hmem, hgroups, hexec, hlater, hfirst, hbypass⟩ := exec_mma hqueue hready hpaused hop
  have hplane : x.2.2 < 5 := passPlanes_lt (passes_lt_total hqueue hready) hwidth
  obtain ⟨d, hd, hend⟩ := passEnded_endPass hmem hgroups tk
    (passMma { s.teamAt tk with engine := { e with bypass := b } } { c with loaded := l }) { c with loaded := l }
  have hengine := (TilesOnly.passMma { s.teamAt tk with engine := { e with bypass := b } } { c with loaded := l }).engine
  have hpassed := hend.passed hd ((congrArg Engine.queue hengine).trans hqueue) rfl rfl
  have hread := hend.readZ
  have heng := hend.engine
  rw [hengine] at heng
  obtain ⟨hload, hload2, -⟩ := hd.operands
  have hother := otherPlanes_passMma { s.teamAt tk with engine := { e with bypass := b } } (c := { c with loaded := l }) hplane
  refine ⟨_, hexec, d, ⟨hpassed, by rw [heng], by rw [heng], fun h => ⟨hload.trans (hlater h), hload2⟩⟩, hother.congr hread, fun h0 h3 => ?_, fun h0 h3 => ?_, fun m n hm hn => ?_⟩
  · obtain ⟨hl, hb⟩ := hfirst h0 h3
    exact ⟨hload.trans hl, by rw [heng]; exact hb⟩
  · obtain ⟨hl, hb⟩ := hbypass h0 h3
    exact ⟨fun l' hl' => hload.trans (hl l' hl'), by rw [heng]; exact hb⟩
  · rw [hload]
    exact (Team.zElem_congr (hread _ _) m n).trans (zElem_passMma _ { c with loaded := l } hm hn)

/-! MMA2. -/

/-- A pass of MMA2 adds two products to one plane (R199). -/
theorem passMma2_eq (t : Team) (c : MatrixCmd) :
    let w := c.word
    let x := passPlanes c.passes
    let mode := passMode c.sample c.passes
    let p := tileOf c.loaded x.1
    let q := tileOf c.loaded2 x.1
    let b := stationary t.engine x.2.1
    passMma2 t c = addProduct
      (addProduct t w.za x.2.2 mode 128 128 w.m (stepLength p b.1) (fun k m => p.pick p.values m k) b.2 false)
      w.zb x.2.2 mode 128 w.m 128 (stepLength q b.1) (q.pick q.values) (fun n m => b.2 m n) false := rfl

theorem TilesOnly.passMma2 (t : Team) (c : MatrixCmd) : TilesOnly t (passMma2 t c) := by
  rw [passMma2_eq]
  exact (TilesOnly.addProduct ..).trans (.addProduct ..)

theorem otherPlanes_passMma2 (t : Team) {c : MatrixCmd} (hplane : (passPlanes c.passes).2.2 < 5) :
    OtherPlanes t (passMma2 t c) [c.word.za, c.word.zb] (passPlanes c.passes).2.2 := by
  rw [passMma2_eq]
  exact (otherPlanes_writeZ t _ (by simp) hplane).more (otherPlanes_writeZ _ _ (by simp) hplane)

theorem zElem_passMma2 (t : Team) {c : MatrixCmd} (hplane : (passPlanes c.passes).2.2 < 5) (hne : c.word.za ≠ c.word.zb) {m n : Nat}
    (hm : m < 128) (hn : n < 128) :
    let w := c.word
    let x := passPlanes c.passes
    let mode := passMode c.sample c.passes
    let p := tileOf c.loaded x.1
    let q := tileOf c.loaded2 x.1
    let b := stationary t.engine x.2.1
    (passMma2 t c).zElem w.za x.2.2 m n = contract mode (t.zElem w.za x.2.2 m n) w.m (stepLength p b.1)
      (fun k => (p.pick p.values k m).mul (b.2 k n)) % 2 ^ 32 ∧
    (passMma2 t c).zElem w.zb x.2.2 m n = (if n < w.m then
        contract mode (t.zElem w.zb x.2.2 m n) 128 (stepLength q b.1) fun k => (q.pick q.values m k).mul (b.2 n k)
      else t.zElem w.zb x.2.2 m n) % 2 ^ 32 := by
  intro w x mode p q b
  rw [passMma2_eq]
  constructor
  · refine (Team.zElem_congr (readZ_addProduct_other _ _ _ _ _ _ _ _ _ hplane hplane fun h => hne h.1) m n).trans ?_
    refine (zElem_addProduct t _ _ _ _ _ _ _ _ _ _ hm hn).trans ?_
    simp only [sourceRow, hm, hn, Bool.false_eq_true, false_and, if_false, and_self, if_true]
    rfl
  · refine (zElem_addProduct _ _ _ _ _ _ _ _ _ _ _ hm hn).trans ?_
    rw [Team.zElem_congr (readZ_addProduct_other t _ _ _ _ _ _ _ _ hplane hplane fun h => hne h.1.symm)]
    simp only [sourceRow, hm, Bool.false_eq_true, false_and, if_false, true_and]
    rfl

/-- The state in which a pass of MMA2 ends. -/
theorem exec_mma2 {tk : Nat} {s : State} {c : MatrixCmd} {rest : List MatrixCmd} (hqueue : (s.teamAt tk).engine.queue = c :: rest)
    (hready : passReady (s.teamAt tk) = true) (hpaused : enginePaused s tk = false) (hop : c.op = .mma2) :
    ∃ s' l l2, s'.mem = s.mem ∧ s'.groups = s.groups ∧ exec (.matrixPassStart tk) s = .next (endPass s' tk
        (passMma2 (s.teamAt tk) { c with loaded := l, loaded2 := l2 }) { c with loaded := l, loaded2 := l2 }) ∧
      (c.passes ≠ 0 → l = c.loaded ∧ l2 = c.loaded2) ∧
      (c.passes = 0 → l = (takeOperand s tk c (c.first c.word.m 128) c.loaded).1 ∧
        l2 = (takeOperand (takeOperand s tk c (c.first c.word.m 128) c.loaded).2 tk c c.second c.loaded2).1) := by
  by_cases hpasses : c.passes = 0
  · obtain ⟨free, hfree⟩ := takeOperand_state s tk c (c.first c.word.m 128) c.loaded
    obtain ⟨free2, hfree2⟩ :=
      takeOperand_state (takeOperand s tk c (c.first c.word.m 128) c.loaded).2 tk c c.second c.loaded2
    refine ⟨_, _, _, ?_, ?_, (exec_matrixPassStart_first hqueue hready hpaused hpasses).trans (by rw [firstPass, hop]),
      fun h => absurd hpasses h, fun _ => ⟨rfl, rfl⟩⟩
    · rw [hfree2, hfree]
    · rw [hfree2, hfree]
  · obtain ⟨-, hexec, -⟩ := exec_matrixPassStart_later hqueue hready hpaused hpasses
    exact ⟨s, c.loaded, c.loaded2, rfl, rfl, hexec hop, fun _ => ⟨rfl, rfl⟩, fun h => absurd h hpasses⟩

/-- A pass of MMA2 (R184, R199). -/
theorem goes_mma2 {tk : Nat} {s : State} {c : MatrixCmd} {rest : List MatrixCmd} (hqueue : (s.teamAt tk).engine.queue = c :: rest)
    (hready : passReady (s.teamAt tk) = true) (hpaused : enginePaused s tk = false) (hwidth : c.sample.width ≤ 4) (hop : c.op = .mma2)
    (hne : c.word.za ≠ c.word.zb) :
    let t := s.teamAt tk
    let w := c.word
    let x := passPlanes c.passes
    let mode := passMode c.sample c.passes
    let first := takeOperand s tk c (c.first w.m 128) c.loaded
    Goes (exec (.matrixPassStart tk) s) fun u => ∃ d, ProductPassed s tk c rest u d ∧
      OtherPlanes t (u.teamAt tk) [w.za, w.zb] x.2.2 ∧
      (c.passes = 0 → d.loaded = first.1 ∧ d.loaded2 = (takeOperand first.2 tk c c.second c.loaded2).1) ∧
      let p := tileOf d.loaded x.1
      let q := tileOf d.loaded2 x.1
      let b := stationary t.engine x.2.1
      ∀ m n, m < 128 → n < 128 →
        (u.teamAt tk).zElem w.za x.2.2 m n = contract mode (t.zElem w.za x.2.2 m n) w.m (stepLength p b.1)
          (fun k => (p.pick p.values k m).mul (b.2 k n)) % 2 ^ 32 ∧
        (u.teamAt tk).zElem w.zb x.2.2 m n = (if n < w.m then
            contract mode (t.zElem w.zb x.2.2 m n) 128 (stepLength q b.1) fun k => (q.pick q.values m k).mul (b.2 n k)
          else t.zElem w.zb x.2.2 m n) % 2 ^ 32 := by
  intro t w x mode first
  obtain ⟨s', l, l2, hmem, hgroups, hexec, hlater, hfirst⟩ := exec_mma2 hqueue hready hpaused hop
  have hplane : x.2.2 < 5 := passPlanes_lt (passes_lt_total hqueue hready) hwidth
  obtain ⟨d, hd, hend⟩ := passEnded_endPass hmem hgroups tk
    (passMma2 (s.teamAt tk) { c with loaded := l, loaded2 := l2 }) { c with loaded := l, loaded2 := l2 }
  have hengine := (TilesOnly.passMma2 (s.teamAt tk) { c with loaded := l, loaded2 := l2 }).engine
  have hpassed := hend.passed hd ((congrArg Engine.queue hengine).trans hqueue) rfl rfl
  have hread := hend.readZ
  have heng := hend.engine
  rw [hengine] at heng
  obtain ⟨hload, hload2, -⟩ := hd.operands
  have hother := otherPlanes_passMma2 (s.teamAt tk) (c := { c with loaded := l, loaded2 := l2 }) hplane
  refine ⟨_, hexec, d, ⟨hpassed, by rw [heng], by rw [heng], fun h => (hlater h).imp hload.trans hload2.trans⟩, hother.congr hread, fun h0 => (hfirst h0).imp hload.trans hload2.trans, fun m n hm hn => ?_⟩
  obtain ⟨ha, hb⟩ := zElem_passMma2 t (c := { c with loaded := l, loaded2 := l2 }) hplane hne hm hn
  rw [hload, hload2]
  exact ⟨(Team.zElem_congr (hread _ _) m n).trans ha, (Team.zElem_congr (hread _ _) m n).trans hb⟩

end Sys2Proof.Machine
end

section
/-! PROOFS. The passes of MVNB (R204, R205): the pages that it reaches, the bytes that it reads, and the partial sums of near banks. -/

namespace Sys2Proof.Machine

open Sys2Proof.Safety
open Sys2Proof.Num (XVal)

/-! Pages. -/

theorem mem_of_assocFind? {α : Type} {l : List (Nat × α)} {k : Nat} {v : α} (h : Assoc.find? l k = some v) : (k, v) ∈ l := by
  induction l with
  | nil => exact absurd h (by simp [Assoc.find?])
  | cons p l ih =>
    by_cases hk : p.1 = k
    · have hp : p = (k, v) := Prod.ext hk (Option.some.inj ((if_pos hk).symm.trans h))
      simp [hp]
    · exact List.mem_cons_of_mem _ (ih ((if_neg hk).symm.trans h))

theorem mem_assocPut {α : Type} {l : List (Nat × α)} {k : Nat} {v : α} {p : Nat × α} (h : p ∈ Assoc.put l k v) : p = (k, v) ∨ p ∈ l :=
  (Assoc.mem_place h).imp_right fun hp => List.mem_of_mem_filter hp

/-- The address that stands for a page is one of the addresses. -/
theorem mem_of_mem_onePerPage {l : List Nat} {a : Nat} (h : a ∈ onePerPage l) : a ∈ l := by
  obtain ⟨p, hp, rfl⟩ := List.mem_map.1 h
  refine List.foldlRecOn (motive := fun m : List (Nat × Nat) => ∀ p ∈ m, p.2 ∈ l) l _ (by simp) (fun m hm a ha p hp => ?_) p hp
  rcases mem_assocPut hp with rfl | hp
  · cases hfind : Assoc.find? m (a / 65536) with
    | none => simpa using ha
    | some b =>
      have hb : b ∈ l := hm _ (mem_of_assocFind? hfind)
      rcases Nat.le_total a b with hab | hab
      · simpa [hab] using ha
      · simpa [hab] using hb
  · exact hm p hp

/-- An access whose pages are all reached goes on with their places. -/
theorem withPages_ok {s s1 : State} {tk : Nat} {g : Group} {key : Nat} {write : Bool} {addrs : List Nat} {ps : List PagePlace}
    (h : reachAll s (dieOfCore (s.teamAt tk).core) key write addrs = (.ok ps, s1)) (hold : Nat → State → Result State)
    (fail : BitVec 16 → Nat → State → Result State) (k : List PagePlace → State → Result State) :
    withPages s tk g key write addrs hold fail k = k ps s1 := by
  rw [withPages, h]

/-! What an operand in memory reads. -/

/-- `t` is `s` but for the tags of lines and the slices. -/
def SlicesOnly (s t : State) : Prop := ∃ tags l2, t = { s with tags := tags, l2 := l2 }

theorem SlicesOnly.refl (s : State) : SlicesOnly s s := ⟨_, _, rfl⟩

theorem SlicesOnly.writeBackLine {s t : State} (h : SlicesOnly s t) (n : Nat) : SlicesOnly s (writeBackLine t n) := by
  obtain ⟨_, _, rfl⟩ := h
  unfold Machine.writeBackLine
  split
  · split
    · exact ⟨_, _, rfl⟩
    · exact ⟨_, _, rfl⟩
  · exact ⟨_, _, rfl⟩

/-- Writing lines back changes tags and slices only (R204). -/
theorem SlicesOnly.writeBackAll (s : State) (ps : List PagePlace) (l : List Nat) : SlicesOnly s (writeBackAll s ps l) :=
  List.foldlRecOn (motive := SlicesOnly s) _ _ (.refl s) fun _ hu _ _ =>
    List.foldlRecOn (motive := SlicesOnly s) _ _ hu fun _ hv _ _ => hv.writeBackLine _

/-- Bytes that no other agent has written since the command issued are read as they stand (R209). -/
theorem racedTiles_now {s u : State} (h : SlicesOnly s u) (t : Team) (ps : List PagePlace) (x : Sample) (base : Nat) (v : View) (key : Nat) :
    (racedTiles u (dieOfCore t.core) ps x [] (.mem base, v, key)).1 = (Place.mem base).tiles s t ps x v := by
  obtain ⟨_, _, rfl⟩ := h
  have hnow (free a : Nat) (b : Byte) : raced free a ((Assoc.find? ([] : List (Nat × Byte)) a).getD b) b = b := by
    simp [raced, Assoc.find?]
  simp only [racedTiles, hnow]
  rfl

/-! The partial sums. -/

/-- A pass of MVNB writes one plane (R205). -/
theorem passMvnb_eq (t : Team) (c : MatrixCmd) :
    let w := c.word
    let x := passPlanes c.passes
    let a := tileOf c.loaded x.1
    let b := tileOf c.loaded2 x.2.1
    let per := b.cols / b.blk
    passMvnb t c = t.writeZ w.za x.2.2 ((List.range 16384).map fun i =>
      if i / 128 < w.m && i % 128 < b.rows then
        nearSum (passMode c.sample c.passes) ((t.readZ w.za x.2.2).toArray.getD i 0) b.blk
          ((c.banks.drop ((x.2.1 * b.rows + i % 128) * per)).take per)
          fun k => (a.pick a.values (i / 128) k).mul (b.pick b.values (i % 128) k)
      else (t.readZ w.za x.2.2).toArray.getD i 0) := rfl

theorem TilesOnly.passMvnb (t : Team) (c : MatrixCmd) : TilesOnly t (passMvnb t c) := by
  rw [passMvnb_eq]
  exact .writeZ ..

theorem otherPlanes_passMvnb (t : Team) {c : MatrixCmd} (hplane : (passPlanes c.passes).2.2 < 5) :
    OtherPlanes t (passMvnb t c) [c.word.za] (passPlanes c.passes).2.2 := by
  rw [passMvnb_eq]
  exact otherPlanes_writeZ t _ (by simp) hplane

theorem zElem_passMvnb (t : Team) (c : MatrixCmd) {m n : Nat} (hm : m < 128) (hn : n < 128) :
    let w := c.word
    let x := passPlanes c.passes
    let a := tileOf c.loaded x.1
    let b := tileOf c.loaded2 x.2.1
    let per := b.cols / b.blk
    (passMvnb t c).zElem w.za x.2.2 m n = (if m < w.m ∧ n < b.rows then
        nearSum (passMode c.sample c.passes) (t.zElem w.za x.2.2 m n) b.blk ((c.banks.drop ((x.2.1 * b.rows + n) * per)).take per)
          fun k => (a.pick a.values m k).mul (b.pick b.values n k)
      else t.zElem w.za x.2.2 m n) % 2 ^ 32 := by
  intro w x a b per
  have hrow : (m * 128 + n) / 128 = m := by omega
  have hcol : (m * 128 + n) % 128 = n := by omega
  rw [passMvnb_eq]
  refine (Team.zElem_writeZ_same t w.za x.2.2 _ hm hn).trans ?_
  simp only [hrow, hcol, t.getD_readZ_toArray, Bool.and_eq_true, decide_eq_true_eq]
  rfl

/-- The state in which a pass of MVNB ends: the first has taken A, reached and read B, and noted its banks (R204, R205). -/
theorem exec_mvnb {tk : Nat} {s s1 : State} {c : MatrixCmd} {rest : List MatrixCmd} {ps : List PagePlace}
    (hqueue : (s.teamAt tk).engine.queue = c :: rest) (hready : passReady (s.teamAt tk) = true) (hpaused : enginePaused s tk = false)
    (hop : c.op = .mvnb) (hreach : c.passes = 0 →
      let sh := shapeOf c.rec2
      let r := takeOperand s tk c (c.first c.word.m (sh.bx 0)) c.loaded
      c.early2 = [] ∧ reachAll r.2 (dieOfCore (r.2.teamAt tk).core) sh.key false
        ((Place.mem (sh.base false)).addrs c.sample (sh.view c.other).offsets) = (.ok ps, s1) ∧
      ∀ va, va ∈ (Place.mem (sh.base false)).addrs c.sample (sh.view c.other).offsets → spaceOf (reachAddr ps va).1 = 0) :
    let sh := shapeOf c.rec2
    ∃ s' l l2 banks, s'.mem = (if c.passes = 0 then s1 else s).mem ∧ s'.groups = s.groups ∧
      exec (.matrixPassStart tk) s = .next (endPass s' tk
        (passMvnb (s.teamAt tk) { c with loaded := l, loaded2 := l2, banks := banks }) { c with loaded := l, loaded2 := l2, banks := banks }) ∧
      (c.passes = 0 → l = (takeOperand s tk c (c.first c.word.m (sh.bx 0)) c.loaded).1 ∧
        banks = bankList c.sample (sh.base false) (sh.view c.other) ps ∧
        l2 = (Place.mem (sh.base false)).tiles s1 (s.teamAt tk) ps c.sample (sh.view c.other)) := by
  intro sh
  by_cases hpasses : c.passes = 0
  · obtain ⟨hearly, hpages, hspace⟩ := hreach hpasses
    obtain ⟨free, hfree⟩ := takeOperand_state s tk c (c.first c.word.m (sh.bx 0)) c.loaded
    have hcaches : CachesOnly (takeOperand s tk c (c.first c.word.m (sh.bx 0)) c.loaded).2 s1 := by
      have h := cachesOnly_reachAll (takeOperand s tk c (c.first c.word.m (sh.bx 0)) c.loaded).2
        (dieOfCore ((takeOperand s tk c (c.first c.word.m (sh.bx 0)) c.loaded).2.teamAt tk).core) sh.key false
        ((Place.mem (sh.base false)).addrs c.sample (sh.view c.other).offsets)
      rwa [hpages] at h
    rw [hfree] at hcaches
    have hgroups : s1.groups = s.groups := hcaches.groups
    have hteam : s1.teamAt tk = s.teamAt tk := by
      obtain ⟨_, _, _, _, rfl⟩ := hcaches
      rfl
    let b := nearPlace c.other c.rec2
    have hnear : ((onePerPage (b.1.addrs c.sample b.2.1.offsets)).find? fun va => spaceOf (reachAddr ps va).1 != 0) = none :=
      List.find?_eq_none.2 fun va hva => by simp [hspace va (mem_of_mem_onePerPage hva)]
    have hback := SlicesOnly.writeBackAll s1 ps (b.1.addrs c.sample b.2.1.offsets)
    have htiles := racedTiles_now hback (s.teamAt tk) ps c.sample (sh.base false) (sh.view c.other) sh.key
    rw [← hearly] at htiles
    refine ⟨(racedTiles (writeBackAll s1 ps (b.1.addrs c.sample b.2.1.offsets)) (dieOfCore (s.teamAt tk).core) ps c.sample c.early2 b).2,
      _, _, _, ?_, ?_, (exec_matrixPassStart_first hqueue hready hpaused hpasses).trans ?_, fun _ => ⟨rfl, rfl, htiles⟩⟩
    · obtain ⟨_, _, hback⟩ := hback
      rw [if_pos hpasses, hback]
      rfl
    · obtain ⟨_, _, hback⟩ := hback
      rw [hback]
      exact hgroups
    · rw [firstPass, hop]
      refine (withPages_ok hpages _ _ _).trans ?_
      have hteams : (racedTiles (writeBackAll s1 ps (b.1.addrs c.sample b.2.1.offsets)) (dieOfCore (s.teamAt tk).core) ps c.sample
          c.early2 b).2.teamAt tk = s.teamAt tk := by
        obtain ⟨_, _, hback⟩ := hback
        rw [hback]
        exact hteam
      simp only [b] at hnear hteams
      simp only [hnear, hteams]
      rfl
  · obtain ⟨-, -, hexec⟩ := exec_matrixPassStart_later hqueue hready hpaused hpasses
    exact ⟨s, c.loaded, c.loaded2, c.banks, by rw [if_neg hpasses], rfl, hexec hop, fun h => absurd h hpasses⟩

/-- A pass of MVNB (R184, R204, R205). -/
theorem goes_mvnb {tk : Nat} {s s1 : State} {c : MatrixCmd} {rest : List MatrixCmd} {ps : List PagePlace}
    (hqueue : (s.teamAt tk).engine.queue = c :: rest) (hready : passReady (s.teamAt tk) = true) (hpaused : enginePaused s tk = false)
    (hwidth : c.sample.width ≤ 4) (hop : c.op = .mvnb) (hreach : c.passes = 0 →
      let sh := shapeOf c.rec2
      let r := takeOperand s tk c (c.first c.word.m (sh.bx 0)) c.loaded
      c.early2 = [] ∧ reachAll r.2 (dieOfCore (r.2.teamAt tk).core) sh.key false
        ((Place.mem (sh.base false)).addrs c.sample (sh.view c.other).offsets) = (.ok ps, s1) ∧
      ∀ va, va ∈ (Place.mem (sh.base false)).addrs c.sample (sh.view c.other).offsets → spaceOf (reachAddr ps va).1 = 0) :
    let t := s.teamAt tk
    let w := c.word
    let x := passPlanes c.passes
    Goes (exec (.matrixPassStart tk) s) fun u => ∃ d, SameBytes (if c.passes = 0 then s1 else s) u ∧ u.groups = s.groups ∧
      (u.teamAt tk).engine.queue = d :: rest ∧ d.passes = c.passes + 1 ∧ (u.teamAt tk).engine.stat = t.engine.stat ∧
      OtherPlanes t (u.teamAt tk) [w.za] x.2.2 ∧
      (c.passes = 0 → let sh := shapeOf c.rec2
        d.loaded = (takeOperand s tk c (c.first w.m (sh.bx 0)) c.loaded).1 ∧
        d.banks = bankList c.sample (sh.base false) (sh.view c.other) ps ∧
        d.loaded2 = (Place.mem (sh.base false)).tiles s1 t ps c.sample (sh.view c.other)) ∧
      let a := tileOf d.loaded x.1
      let b := tileOf d.loaded2 x.2.1
      let per := b.cols / b.blk
      ∀ m n, m < 128 → n < 128 → (u.teamAt tk).zElem w.za x.2.2 m n = (if m < w.m ∧ n < b.rows then
          nearSum (passMode c.sample c.passes) (t.zElem w.za x.2.2 m n) b.blk ((d.banks.drop ((x.2.1 * b.rows + n) * per)).take per)
            fun k => (a.pick a.values m k).mul (b.pick b.values n k)
        else t.zElem w.za x.2.2 m n) % 2 ^ 32 := by
  intro t w x
  obtain ⟨s', l, l2, banks, hmem, hgroups, hexec, hfirst⟩ := exec_mvnb hqueue hready hpaused hop hreach
  have hplane : x.2.2 < 5 := passPlanes_lt (passes_lt_total hqueue hready) hwidth
  let ran : MatrixCmd := { c with loaded := l, loaded2 := l2, banks := banks }
  obtain ⟨d, hd, hend⟩ := passEnded_endPass rfl rfl tk (passMvnb (s.teamAt tk) ran) ran (s := s')
  have hengine := (TilesOnly.passMvnb (s.teamAt tk) ran).engine
  obtain ⟨humem, hugroups, huqueue, -, hupasses⟩ := hend.passed hd ((congrArg Engine.queue hengine).trans hqueue) rfl rfl
  have hread := hend.readZ
  have heng := hend.engine
  rw [hengine] at heng
  obtain ⟨hload, hload2, hbanks⟩ := hd.operands
  refine ⟨_, hexec, d, fun a => readByte_congr (humem.trans hmem) a, hugroups.trans hgroups, huqueue, hupasses, by rw [heng],
    (otherPlanes_passMvnb (s.teamAt tk) (c := ran) hplane).congr hread, fun h0 => ?_, fun m n hm hn => ?_⟩
  · obtain ⟨hl, hb, hl2⟩ := hfirst h0
    exact ⟨hload.trans hl, hbanks.trans hb, hload2.trans hl2⟩
  · rw [hload, hload2, hbanks]
    exact (Team.zElem_congr (hread _ _) m n).trans (zElem_passMvnb (s.teamAt tk) ran hm hn)

end Sys2Proof.Machine
end

section
/-! PROOFS. The passes of the matrix engine: the commands with one pass (R197, R200 to R202, R206), and the statement. -/

namespace Sys2Proof.Machine

open Sys2Proof.Safety

/-- A command with one pass that ends with the team `t` and the operands of `c'` runs it. -/
theorem goes_onePass {tk : Nat} {s s' : State} {c c' : MatrixCmd} {rest : List MatrixCmd} {t : Team}
    (hexec : exec (.matrixPassStart tk) s = .next (endPass s' tk t c')) (hmem : s'.mem = s.mem) (hgroups : s'.groups = s.groups)
    (hqueue : t.engine.queue = c :: rest) (hop : c'.op = c.op) (hpasses : c'.passes = c.passes) :
    Goes (exec (.matrixPassStart tk) s) fun u => (∃ d, Passed s tk c rest u d ∧ d.loaded = c'.loaded) ∧
      (∀ i k, (u.teamAt tk).readZ i k = t.readZ i k) ∧ ∃ q, (u.teamAt tk).engine = { t.engine with queue := q } := by
  obtain ⟨d, hd, hend⟩ := passEnded_endPass hmem hgroups tk t c'
  exact ⟨_, hexec, ⟨d, hend.passed hd hqueue hop hpasses, hd.operands.1⟩, hend.readZ, _, hend.engine⟩

section

variable {tk : Nat} {s : State} {c : MatrixCmd} {rest : List MatrixCmd} (hqueue : (s.teamAt tk).engine.queue = c :: rest)
  (hready : passReady (s.teamAt tk) = true) (hpaused : enginePaused s tk = false)

include hqueue hready hpaused

/-- MLD loads S in its orientation (R197). -/
theorem goes_mld {west : Bool} (hop : c.op = .mld west) : Goes (exec (.matrixPassStart tk) s) fun u =>
    (∃ d, Passed s tk c rest u d) ∧ (∀ i k, (u.teamAt tk).readZ i k = (s.teamAt tk).readZ i k) ∧
    (u.teamAt tk).engine.west = west ∧ (u.teamAt tk).engine.stat = (takeOperand s tk c (c.first 128 128) c.loaded).1 ∧
    (u.teamAt tk).engine.bypass = (s.teamAt tk).engine.bypass := by
  have hfirst := passes_eq_zero hqueue hready (by rw [MatrixCmd.total, hop])
  obtain ⟨free, hfree⟩ := takeOperand_state s tk c (c.first 128 128) c.loaded
  have hexec := exec_matrixPassStart_first hqueue hready hpaused hfirst
  rw [firstPass, hop] at hexec
  refine goes_mono (goes_onePass (c := c) (rest := rest) hexec (by rw [hfree]) (by rw [hfree]) hqueue hop.symm rfl) ?_
  rintro u ⟨⟨d, hd, -⟩, hread, q, heng⟩
  exact ⟨⟨d, hd⟩, hread, by rw [heng], by rw [heng], by rw [heng]⟩

/-- MMODE sets the mode (R206). -/
theorem goes_mmode {red : Bool} (hop : c.op = .mmode red) : Goes (exec (.matrixPassStart tk) s) fun u =>
    (∃ d, Passed s tk c rest u d) ∧ (∀ i k, (u.teamAt tk).readZ i k = (s.teamAt tk).readZ i k) ∧
    (u.teamAt tk).engine.redundant = red := by
  have hfirst := passes_eq_zero hqueue hready (by rw [MatrixCmd.total, hop])
  have hexec := exec_matrixPassStart_first hqueue hready hpaused hfirst
  rw [firstPass, hop] at hexec
  refine goes_mono (goes_onePass (c := c) (rest := rest) hexec rfl rfl hqueue rfl rfl) ?_
  rintro u ⟨⟨d, hd, -⟩, hread, q, heng⟩
  exact ⟨⟨d, hd⟩, hread, by rw [heng]⟩

/-- MZERO clears its tile, or all of them (R202). -/
theorem goes_mzero {all : Bool} {tile : Nat} (hplanes : (s.teamAt tk).planes ≤ 5) (hop : c.op = .mzero all tile) :
    let t := s.teamAt tk
    let zero (u : State) (i : Nat) : Prop := ∀ k, k < t.planes → ∀ j, ((u.teamAt tk).readZ i k).getD j 0 = 0
    Goes (exec (.matrixPassStart tk) s) fun u => (∃ d, Passed s tk c rest u d) ∧
      (all = false → zero u tile ∧ ∀ i k, k < 5 → i ≠ tile → (u.teamAt tk).readZ i k = t.readZ i k) ∧
      (all = true → ∀ i, i < t.tiles → zero u i) := by
  intro t zero
  have hfirst := passes_eq_zero hqueue hready (by rw [MatrixCmd.total, hop])
  have hexec := exec_matrixPassStart_first hqueue hready hpaused hfirst
  rw [firstPass, hop] at hexec
  have hengine := (TilesOnly.clearTiles t (if all then List.range t.tiles else [tile])).engine
  refine goes_mono (goes_onePass (c := c) (rest := rest) hexec rfl rfl ((congrArg Engine.queue hengine).trans hqueue) rfl rfl) ?_
  rintro u ⟨⟨d, hd, -⟩, hread, -⟩
  refine ⟨⟨d, hd⟩, fun hone => ⟨fun k hk j => ?_, fun i k hk hi => ?_⟩, fun hall i hi k hk j => ?_⟩
  · rw [hread, hone]
    exact getD_readZ_clearTile_same t tile hplanes hk j
  · rw [hread, hone]
    exact readZ_clearTile_other t hplanes hi hk
  · rw [hread, hall]
    exact getD_readZ_clearTiles t hplanes (List.mem_range.2 hi) hk j

/-- A drain reads its rows converted and clears them with clr, unless redundant copies differ (R200, R201). -/
theorem goes_mdrain (hplanes : (s.teamAt tk).planes ≤ 5) (hop : c.op = .mdrain) :
    let t := s.teamAt tk
    let e := t.engine
    let w := c.word
    let same (u : State) : Prop := ∀ i k, (u.teamAt tk).readZ i k = t.readZ i k
    (e.redundant = false ∨ mismatchAt t w.za w.m t.planes = none → Goes (exec (.matrixPassStart tk) s) fun u =>
      (∃ d, Passed s tk c rest u d ∧ d.loaded = drainTiles t c) ∧ (w.clr = false → same u) ∧
      (w.clr = true → (∀ k, k < t.planes → ∀ j, ((u.teamAt tk).readZ w.za k).getD j 0 = 0) ∧
        ∀ i k, k < 5 → i ≠ w.za → (u.teamAt tk).readZ i k = t.readZ i k) ∧
      (u.teamAt tk).engine.bypass = if w.kind = 3 then some (drainTiles t c) else e.bypass) ∧
    (e.redundant = true → mismatchAt t w.za w.m t.planes ≠ none → Goes (exec (.matrixPassStart tk) s) fun u =>
      (∃ d, Passed s tk c rest u d ∧ d.loaded = c.loaded) ∧ same u ∧ (u.teamAt tk).engine.bypass = e.bypass) := by
  intro t e w same
  have hfirst := passes_eq_zero hqueue hready (by rw [MatrixCmd.total, hop])
  have hexec := exec_matrixPassStart_first hqueue hready hpaused hfirst
  rw [firstPass, hop] at hexec
  constructor
  · intro hagree
    have hcopies : ¬(t.engine.redundant = true ∧ mismatchAt t w.za w.m t.planes ≠ none) := fun ⟨hred, hdiffer⟩ =>
      hagree.elim (fun h => Bool.false_ne_true (h.symm.trans hred)) hdiffer
    let cleared : Team := if w.clr then t.clearTile w.za else t
    let ended : Team := if w.kind = 3 then { cleared with engine := { cleared.engine with bypass := some (drainTiles t c) } } else cleared
    have hcleared : cleared.engine = e := by
      cases hclr : w.clr
      · simp [cleared, hclr, e]
      · simpa [cleared, hclr] using (TilesOnly.clearTile t w.za).engine
    have hended : ended.engine = { e with bypass := if w.kind = 3 then some (drainTiles t c) else e.bypass } := by
      by_cases hkind : w.kind = 3
      · simp [ended, hkind, hcleared]
      · simp [ended, hkind, hcleared]
    have hz (i k : Nat) : ended.readZ i k = cleared.readZ i k := Team.readZ_congr (by by_cases hkind : w.kind = 3 <;> simp [ended, hkind]) i k
    have hpass : passDrain t c = (ended, { c with loaded := drainTiles t c }) := if_neg hcopies
    rw [hpass] at hexec
    refine goes_mono (goes_onePass (c := c) (rest := rest) hexec rfl rfl ((congrArg Engine.queue hended).trans hqueue) rfl rfl) ?_
    rintro u ⟨hd, hread, q, heng⟩
    refine ⟨hd, fun hclr i k => ?_, fun hclr => ⟨fun k hk j => ?_, fun i k hk hi => ?_⟩, ?_⟩
    · rw [hread, hz]
      simp [cleared, hclr]
    · rw [hread, hz]
      simpa [cleared, hclr] using getD_readZ_clearTile_same t w.za hplanes hk j
    · rw [hread, hz]
      simpa [cleared, hclr] using readZ_clearTile_other t hplanes hi hk
    · rw [heng, hended]
  · intro hred hdiffer
    have hpass : passDrain t c = (t, c) := if_pos ⟨hred, hdiffer⟩
    rw [hpass] at hexec
    refine goes_mono (goes_onePass (c := c) (rest := rest) hexec rfl rfl hqueue rfl rfl) ?_
    rintro u ⟨hd, hread, q, heng⟩
    exact ⟨hd, hread, by rw [heng]⟩

end

/-- Settles O48: the passes of each command, one lemma per kind. -/
theorem matrixPasses : Obligations.MatrixPasses := by
  intro tk s c rest t e w x mode elem passed product others same zero took start hqueue hready hpaused hwidth hplanes
  refine ⟨fun off v hearly => takeOperand_scratch hearly off v 0, goes_mma hqueue hready hpaused hwidth,
    goes_mma2 hqueue hready hpaused hwidth, fun ps s1 hop hreach => goes_mvnb hqueue hready hpaused hwidth hop hreach,
    fun west => goes_mld hqueue hready hpaused, fun hop => (goes_mdrain hqueue hready hpaused hplanes hop).1,
    fun hop => (goes_mdrain hqueue hready hpaused hplanes hop).2, fun all tile => goes_mzero hqueue hready hpaused hplanes,
    fun red => goes_mmode hqueue hready hpaused⟩

end Sys2Proof.Machine
end

section
/-! PROOFS. Where the statement on transit commands fails: at a copy to the scratchpad of a team that there is not (R339, R341). -/

namespace Sys2Proof.Machine

open Sys2Proof.Safety

/-! What the statement says of a copy to the scratchpad. -/

theorem reachAll_nil (s : State) (die key : Nat) (write : Bool) : reachAll s die key write [] = (.ok [], s) := rfl

/-- A copy to the scratchpad that reads no memory and seals nothing writes its images there. -/
theorem scratchCopy_placed (h : Obligations.TransitAndCollectiveCompletion) {core id off : Nat} {s : State} {c : TransitCmd}
    {d : BitVec 512} {t : Team} {images : List (List (Nat × Byte))}
    (hfind : (s.coreAt core).transit.find? (fun x => x.id == id) = some c) (hrun : c.running = true)
    (ht : s.teamAt (s.groupAt c.key).teamKey = t) (hturns : c.turns t = true) (hrecord : NoRecord c.sample c.life)
    (hop : c.op = .copy d) (hpast : c.life.past = false) (hfault : c.life.fault = 0)
    (hregions : t.coversTiles (copyEnd d 1).value.toNat ((copyPlan d c).offsets d) = true)
    (hreads : (copyPlan d c).reads c = []) (hwrites : (copyPlan d c).writes d c = [])
    (hplain : sealingOf d c [] [] (copyPlan d c).cols = .plain) (hdst : (copyPlan d c).dst.1 = .scratch off)
    (himages : (copyImages s t d c (copyPlan d c).a (copyPlan d c).b (copyPlan d c).src (copyPlan d c).dst [] [] .plain).2 =
      images) :
    ∃ u, exec (.transitCopyComplete core id) s = .next u ∧
      Safety.Placed (Assoc.get 0 t.scratch) (Assoc.get 0 (u.teamAt (s.groupAt c.key).teamKey).scratch) images
        fun n o => off + n * t.w + o := by
  subst ht himages
  have hreach {die key : Nat} {write : Bool} {l : List Nat} (hl : l = []) : reachAll s die key write l = (.ok [], s) :=
    hl ▸ reachAll_nil s die key write
  obtain ⟨-, h⟩ := h
  obtain ⟨-, hcopy, -⟩ := h core id s s s [] [] 0 0
  obtain ⟨hcopy, -⟩ := hcopy c hfind hrun hturns hrecord
  obtain ⟨-, -, -, hdone⟩ := hcopy d hop
  obtain ⟨-, -, hreached⟩ := hdone hpast hfault fun _ => hregions
  obtain ⟨-, hends⟩ := hreached (hreach hreads) (hreach hwrites)
  obtain ⟨u, hu, -, hplaced⟩ := hends fun n hbad => nomatch hplain.symm.trans hbad
  split at hplaced
  next base heq => nomatch hdst.symm.trans heq
  next n heq =>
    cases hdst.symm.trans heq
    exact ⟨u, hu, hplain ▸ hplaced.2⟩
  next heq => nomatch hdst.symm.trans heq

/-! A copy from a handle whose tile lies beyond its tensor, so that it brings the tensor's fill and reads no memory (R367). -/

/-- The record of a tensor of one FP32 element, in boxes of one element, with NaN beyond the tensor. -/
def filledRecord : BitVec 512 := BitVec.ofNat 512 (2 ^ 240 + 2 ^ 243 + 2 ^ 256)

/-- The descriptor of a copy of tile 1 of the handle's tensor to byte 0 of the scratchpad. -/
def filledDesc : BitVec 512 := 0x0103#512 <<< 320 ||| 1#512

/-- The copy in execution. -/
def filledCopy : TransitCmd where
  id := 0
  key := 0
  op := .copy filledDesc
  flag := none
  sample := ⟨0, 0, 0, 0, 0, 0, 0, 0, 0⟩
  srcRec := filledRecord
  dstRec := 0
  srcPos := none
  dstPos := none
  started := true
  sealing := []
  crc := 0
  left := false
  early := []
  since := 0
  life := Life.fresh

/-- The copy in core 0's transit queue, with no team in the device. -/
def teamlessState : State :=
  { State.reset.putCore 0 { State.reset.coreAt 0 with transit := [filledCopy] } with teams := [] }

/-- The image of the copy is one FP32 NaN. -/
theorem filledCopy_images :
    let p := copyPlan filledDesc filledCopy
    (copyImages teamlessState Team.blank filledDesc filledCopy p.a p.b p.src p.dst [] [] .plain).2 =
      [[(0, 0), (1, 0), (2, 0xC0), (3, 0x7F)]] := by
  decide +kernel

/-- A byte of team 0's scratchpad after an instruction. -/
def scratchAfter (r : Result State) (a : Nat) : Option Byte :=
  match r with
  | .next t => some (Assoc.get 0 (t.teamAt 0).scratch a)
  | _ => none

/-- The model's copy leaves no byte in the scratchpad of the team that is not there. -/
theorem scratchAfter_filledCopy : scratchAfter (exec (.transitCopyComplete 0 0) teamlessState) 2 = some 0 := by decide +kernel

/-- Of one image, placed at its offsets, the byte at an offset that stands once in it. -/
theorem placed_single {before after : Nat → Byte} {image : List (Nat × Byte)} {w : Nat}
    (h : Safety.Placed before after [image] fun n o => 0 + n * w + o) (x : Nat × Byte) (hx : x ∈ image)
    (honce : ∀ y ∈ image, y.1 = x.1 → y.2 = x.2) : after x.1 = x.2 := by
  refine (h x.1).2 0 x ⟨image, rfl, hx, by simp⟩ fun l y ⟨im, hl, hy, ha⟩ => ?_
  obtain ⟨rfl, rfl⟩ : l = 0 ∧ image = im := by simpa [List.getElem?_singleton] using hl
  exact honce y hy (by simpa using ha)

/-- Refutes O50: a copy to the scratchpad of a team that does not exist ends with nothing written, whereas the statement has its
image, here a NaN, stand in that scratchpad; it does not ask that the team of the command's group exist. -/
theorem not_transitAndCollectiveCompletion : ¬ Obligations.TransitAndCollectiveCompletion := by
  intro h
  obtain ⟨u, hu, hplaced⟩ := scratchCopy_placed h (core := 0) (id := 0) (s := teamlessState) (c := filledCopy) (t := Team.blank)
    (by decide +kernel) (by decide +kernel) (by decide +kernel) (by decide +kernel) (by decide +kernel) rfl rfl rfl
    (by decide +kernel) (by decide +kernel) (by decide +kernel) (by decide +kernel)
    (show (copyPlan filledDesc filledCopy).dst.1 = .scratch 0 by decide +kernel) filledCopy_images
  have hteam : (teamlessState.groupAt filledCopy.key).teamKey = 0 := by decide +kernel
  rw [hteam] at hplaced
  have hbyte := placed_single hplaced (2, 0xC0) (by decide) (by decide)
  have hmodel := scratchAfter_filledCopy
  rw [hu] at hmodel
  exact absurd (hbyte.symm.trans (Option.some.inj hmodel)) (by decide)

end Sys2Proof.Machine
end

section
/-! PROOFS. Sampling the record of a handle (R326, R368, R369): a record that is sampled leaves all but memory and caches. -/

namespace Sys2Proof.Machine

open Sys2Proof.Safety

/-! Operations that go on at most once. -/

/-- What follows the operation `x` either takes over, in a state that differs from `s` in memory and caches alone, or has no part
in the outcome. -/
def GoesOn {α : Type} (s : State) (x : (α → State → Result State) → Result State) : Prop :=
  (∃ a t, CoresOnly s t ∧ ∀ k, x k = k a t) ∨ ∃ r, ∀ k, x k = r

theorem GoesOn.next {α : Type} {s t : State} (h : CoresOnly s t) (a : α) : GoesOn s fun k => k a t := .inl ⟨a, t, h, fun _ => rfl⟩

theorem GoesOn.stop {α : Type} (s : State) (r : Result State) : GoesOn (α := α) s fun _ => r := .inr ⟨r, fun _ => rfl⟩

theorem GoesOn.bind {α β : Type} {s : State} {x : (α → State → Result State) → Result State}
    {y : α → State → (β → State → Result State) → Result State} (hx : GoesOn s x) (hy : ∀ a t, GoesOn t (y a t)) :
    GoesOn s fun k => x fun a t => y a t k := by
  rcases hx with ⟨a, t, ht, hk⟩ | ⟨r, hr⟩
  · rcases hy a t with ⟨b, u, hu, hl⟩ | ⟨r, hr⟩
    · exact .inl ⟨b, u, ht.trans hu, fun k => (hk _).trans (hl k)⟩
    · exact .inr ⟨r, fun k => (hk _).trans (hr k)⟩
  · exact .inr ⟨r, fun k => hr _⟩

/-- If it goes on, it does so in a state that differs in memory and caches alone. -/
theorem GoesOn.coresOnly {α : Type} {s t : State} {x : (α → State → Result State) → Result State} {a : α} (h : GoesOn s x)
    (hx : ∀ k, x k = k a t) : CoresOnly s t := by
  have hnext := hx fun _ u => .next u
  rcases h with ⟨b, u, hu, hk⟩ | ⟨r, hr⟩
  · obtain rfl : u = t := by simpa using (hk _).symm.trans hnext
    exact hu
  · have hrefused := hx fun _ _ => .refused (.notEnabled "")
    rw [hr] at hnext hrefused
    rw [hnext] at hrefused
    cases hrefused

/-! Reading a record (R369). -/

theorem cachesOnly_modDies (s : State) (f : Die → Die) : CachesOnly s (s.modDies f) :=
  .foldl (f := fun s d => s.putDie d (f (s.dieAt d))) (fun s d => .putDie s d _) _ s

theorem coresOnly_dropCopies (s : State) (pa n : Nat) : CoresOnly s (dropCopies s pa n) :=
  (cachesOnly_modDies s fun d => { d with ncLines := outside d.ncLines pa n }).coresOnly.trans ⟨_, _, _, _, _, rfl⟩

theorem coresOnly_readHome (s : State) (d : Nat) (ps : List Piece) : CoresOnly s (readHome s d ps).2 := by
  have hpiece (s : State) (p : Piece) : CoresOnly s (dropCopies (touchLine s d p.pa p.leaf false) p.pa p.n) :=
    (cachesOnly_touchLine s d p.pa p.leaf false).coresOnly.trans (coresOnly_dropCopies (touchLine s d p.pa p.leaf false) p.pa p.n)
  exact .foldl hpiece ps s

theorem goesOn_scalarAccess (s : State) (g : Group) (va n : Nat) (kind : AccKind) : GoesOn s (scalarAccess s g va n kind) := by
  have hcheck := coresOnly_checkAcc s g.core ⟨0, 0, va, n, kind, true⟩
  unfold scalarAccess
  split
  case h_1 ps t h =>
    rw [h] at hcheck
    exact .next hcheck ps
  all_goals exact .stop s _

theorem goesOn_readShape (s : State) (g : Group) (i : Nat) : GoesOn s (readShape s g i) := by
  unfold readShape
  dsimp only
  split
  · exact .stop s _
  · split
    · exact .stop s _
    · exact (goesOn_scalarAccess s g _ 64 .load).bind fun ps t => .next (coresOnly_readHome t g.die ps) _

theorem coresOnly_installShape (s : State) (d grid i : Nat) (r : BitVec 512) : CoresOnly s (installShape s d grid i r) :=
  (CachesOnly.putDie s d _).coresOnly

theorem goesOn_sampleShape (s : State) (g : Group) (h : Word) : GoesOn s (sampleShape s g h) := by
  unfold sampleShape
  dsimp only
  split
  · exact .next (.refl s) none
  · refine (goesOn_readShape s g _).bind fun r t => ?_
    split
    · exact .next (.refl t) _
    · exact .next (coresOnly_installShape t _ _ _ r) (some r)

/-- A sampled record leaves every group, team and grid (R326). -/
theorem samples_coresOnly {s t : State} {g : Group} {needed : Bool} {h : Word} {r : Option (BitVec 512)}
    (hs : Samples s g needed h r t) : CoresOnly s t := by
  cases needed
  · exact (GoesOn.next (.refl s) none).coresOnly hs
  · exact (goesOn_sampleShape s g h).coresOnly hs

end Sys2Proof.Machine
end

section
/-! PROOFS. The acceptance of an engine's command, and of one of the matrix engine (R30, R97, R189 to R191, R332, R365). -/

namespace Sys2Proof.Machine

open Sys2Proof.Safety

/-! The group of an accepted command. -/

/-- Raising a flag counts one operation more on it, and leaves all but the counts. -/
theorem Group.flagCnt_raiseFlag (g : Group) (flag : Option Nat) (n : Nat) :
    (g.raiseFlag flag).flagCnt n = g.flagCnt n + if flag = some n then 1 else 0 := by
  cases flag with
  | none => rfl
  | some m =>
    rw [Group.raiseFlag, Group.flagCnt, Assoc.get_set]
    by_cases h : m = n
    · simp [h]
    · simp [h, Group.flagCnt]

theorem Group.raiseFlag_only (g : Group) (flag : Option Nat) : ∃ f, g.raiseFlag flag = { g with flagCount := f } := by
  cases flag <;> exact ⟨_, rfl⟩

/-- What acceptance makes of the issuing group, apart from its place: counter values are taken, the flag rises, and the stream moves
on. -/
def Group.accepting (g : Group) (draws : Nat) (flag : Option Nat) : Group := ((g.draw draws).raiseFlag flag).advance 4

/-- A group takes a frame without a change of its children (R25, R363). -/
theorem children_withFrame (s : State) (k : Nat) : ((s.withFrame k).groupAt k).children = (s.groupAt k).children := by
  cases h : Assoc.find? s.groups k with
  | none =>
    have hblank : s.groupAt k = Group.blank := by simp [State.groupAt, h]
    rw [hblank]
    exact congrArg Group.children (State.groupAt_modGroup_absent h _)
  | some g =>
    obtain ⟨g', hg', hp⟩ := (groupsMoved_withFrame s k).2 k g h
    have hgroup : s.groupAt k = g := by simp [State.groupAt, h]
    have hframed : (s.withFrame k).groupAt k = g' := by simp [State.groupAt, hg']
    rw [hgroup, hframed]
    exact hp.1

/-- The issuing group's children, read under its own key. -/
theorem children_groupAt_key {s t : State} (hgroups : t.groups = s.groups) (hkey : s.cur.key = s.group.key) :
    (t.groupAt s.group.key).children = s.group.children :=
  congrArg Group.children ((groupAt_congr hgroups _).trans (congrArg s.groupAt hkey.symm))

/-- Acceptance changes the groups alone. -/
theorem acceptCommand_groups (s : State) (g : Group) (flag : Option Nat) (child : Bool) :
    ∃ groups, acceptCommand s g flag child = { s with groups := groups } := by
  cases child <;> exact ⟨_, rfl⟩

/-- Acceptance leaves the other groups. -/
theorem find?_acceptCommand_other {s : State} {g : Group} (hkey : s.cur.key = g.key) (flag : Option Nat) (child : Bool) {k : Nat}
    (hk : k ≠ s.cur.key) : Assoc.find? (acceptCommand s g flag child).groups k = Assoc.find? s.groups k := by
  cases child
  · exact (onlyGroup_setGroup s _).2 k hk
  · refine ((onlyGroup_setGroup (s.withFrame g.key) _).2 k hk).trans ?_
    simp [State.withFrame, State.modGroup, ← hkey, hk.symm]

/-- Another frame with the same children is another place. -/
theorem placed_accepting (g : Group) (draws : Nat) (flag : Option Nat) {f : Option Frame}
    (hf : ({ g with frame := f } : Group).children = g.children) :
    Placed 0 (g.accepting draws flag) ((({ g.draw draws with frame := f } : Group).raiseFlag flag).advance 4) := by
  cases flag <;> exact ⟨hf, g.status, g.slot, g.age, f, rfl⟩

/-- The accepting group stands in another place, with a child more for an engine child (R332, R365). -/
theorem placed_acceptCommand {t : State} {g : Group} (hchildren : (t.groupAt g.key).children = g.children) (draws : Nat)
    (flag : Option Nat) (child : Bool) :
    Placed (if child then 1 else 0) (g.accepting draws flag) (acceptCommand t (g.draw draws) flag child).group := by
  unfold acceptCommand
  rw [State.group_setGroup]
  cases child
  · exact placed_accepting g draws flag hchildren
  · exact (placed_accepting g draws flag ((children_withFrame t g.key).trans hchildren)).trans (.addChildren _ _ 1 true)

/-- An accepting group has moved on with its flag raised and its registers as they were, wherever it stands (R97, R332). -/
theorem Placed.accepted {n draws : Nat} {flag : Option Nat} {g h : Group} (hp : Placed n (g.accepting draws flag) h) :
    h.pc = g.pc + 4 ∧ SameS g h [] ∧ SameLanes g h ∧ SameHeld g h ∧ SameTrap g h ∧ h.flagSoft = g.flagSoft ∧
    (∀ m, h.flagCnt m = g.flagCnt m + if flag = some m then 1 else 0) ∧ h.children = g.children + n := by
  have hcount := Group.flagCnt_raiseFlag (g.draw draws) flag
  obtain ⟨f, hf⟩ := Group.raiseFlag_only (g.draw draws) flag
  rw [Group.accepting, hf] at hp
  rw [hf] at hcount
  obtain ⟨hchildren, _, _, _, _, rfl⟩ := hp
  exact ⟨rfl, fun _ _ => rfl, ⟨rfl, rfl, rfl, rfl⟩, ⟨rfl, rfl, rfl, rfl, rfl, rfl, rfl, rfl, rfl, rfl, rfl, rfl, rfl⟩,
    ⟨rfl, rfl, rfl, rfl, rfl, rfl, rfl, rfl, rfl⟩, rfl, hcount, hchildren⟩

/-- It is of its team still, and has taken its counter values. -/
theorem Placed.accepting_draws {n draws : Nat} {flag : Option Nat} {g h : Group} (hp : Placed n (g.accepting draws flag) h) :
    h.teamKey = g.teamKey ∧ h.draws = g.draws + BitVec.ofNat 32 draws := by
  obtain ⟨f, hf⟩ := Group.raiseFlag_only (g.draw draws) flag
  rw [Group.accepting, hf] at hp
  obtain ⟨-, _, _, _, _, rfl⟩ := hp
  exact ⟨rfl, rfl⟩

/-- What the statements ask of an acceptance (R97, R332). -/
theorem accepted_acceptCommand {s t : State} (hgroups : t.groups = s.groups) (hcur : t.cur = s.cur) (hkey : s.cur.key = s.group.key)
    (draws : Nat) (flag : Option Nat) (child : Bool) : Accepted s (acceptCommand t (s.group.draw draws) flag child) flag child := by
  obtain ⟨hpc, hs, hlanes, hheld, htrap, hsoft, hcount, hchildren⟩ :=
    (placed_acceptCommand (children_groupAt_key hgroups hkey) draws flag child).accepted
  refine ⟨hpc, hs, hlanes, hheld, htrap, hsoft, hcount, hchildren, fun k hk => ?_⟩
  rw [← hgroups]
  exact find?_acceptCommand_other (hcur.symm ▸ hkey) flag child (hcur.symm ▸ hk)

/-- Nothing holds an engine's instruction: its counts have room, and its core's stores have been performed (R97, R271, R332). -/
theorem engineStall_none {s t : State} {flag : Option Nat} {child : Bool} (hroom : Room s flag child)
    (hdrained : drained t s.group.core = true) : engineStall t s.group flag child = none := by
  obtain ⟨-, hflag, hchild⟩ := hroom
  have hfull : s.group.flagFull flag = false := by
    cases flag with
    | none => rfl
    | some n => exact decide_eq_false (Nat.not_le.2 (hflag n rfl))
  have hframe : (child && decide (65535 ≤ s.group.children)) = false := by
    cases child
    · rfl
    · exact decide_eq_false (Nat.not_le.2 (hchild rfl))
  simp [engineStall, hfull, hframe, hdrained]

/-! A command of the matrix engine (R189 to R191). -/

/-- Claims leave the engine (R314). -/
theorem Team.claimIf_engine (t : Team) (needed push : Bool) (r : Nat) : (t.claimIf needed push r).2.engine = t.engine := by
  unfold Team.claimIf Team.claim
  repeat' split
  all_goals rfl

/-- The team once it has taken a command with its claims into its engine's queue. -/
def Team.taking (t : Team) (c : MatrixCmd) (push : Bool) (ring1 ring2 : Option Nat) (engine : Engine → Engine) : Team :=
  let a := t.claimIf ring1.isSome push (ring1.getD 0)
  let b := a.2.claimIf ring2.isSome false (ring2.getD 0)
  let e := engine b.2.engine
  { b.2 with nextOp := t.nextOp + 1, engine := { e with queue := e.queue ++ [{ c with claim1 := a.1, claim2 := b.1 }] } }

theorem Team.taking_engine (t : Team) (c : MatrixCmd) (push : Bool) (ring1 ring2 : Option Nat) {engine : Engine → Engine}
    (hengine : ∀ e, (engine e).queue = e.queue) : ∃ a b, (t.taking c push ring1 ring2 engine).engine =
      { engine t.engine with queue := t.engine.queue ++ [{ c with claim1 := a, claim2 := b }] } := by
  have hclaims : ((t.claimIf ring1.isSome push (ring1.getD 0)).2.claimIf ring2.isSome false (ring2.getD 0)).2.engine = t.engine :=
    (Team.claimIf_engine ..).trans (Team.claimIf_engine ..)
  unfold Team.taking
  dsimp only
  rw [hclaims, hengine]
  exact ⟨_, _, rfl⟩

/-- With room in the queue, and nothing that holds it, a command joins the queue with its claims. -/
theorem acceptMatrix_next {s : State} {g : Group} {c : MatrixCmd} (hqueue : (s.teamAt g.teamKey).engine.queue.length < 16)
    (hstall : engineStall s g c.flag c.child = none) (push : Bool) (ring1 ring2 : Option Nat) (draws : Nat) (engine : Engine → Engine) :
    acceptMatrix s g c push ring1 ring2 draws engine = .next (acceptCommand
      (s.putTeam g.teamKey ((s.teamAt g.teamKey).taking c push ring1 ring2 engine)) (g.draw draws) c.flag c.child) := by
  unfold acceptMatrix
  dsimp only
  rw [if_neg (Nat.not_le.2 hqueue), hstall]
  rfl

/-- A matrix command of the issuing group is accepted: it stands last in the queue, and its counter values have been taken. -/
theorem goes_acceptMatrix {f : SR} {s t : State} {op : MatrixOp} {child : Bool} (hs : CoresOnly s t)
    (hqueue : (t.teamAt s.group.teamKey).engine.queue.length < 16) (hroom : Room s (fnFlag f.fn) child)
    (hdrained : drained t s.group.core = true) (r1 r2 : Option (BitVec 512)) (push : Bool) (ring1 ring2 : Option Nat) (draws : Nat)
    {engine : Engine → Engine} (hengine : ∀ e, (engine e).queue = e.queue) :
    Goes (acceptMatrix t s.group (newCommand t s.group (t.teamAt s.group.teamKey) op f child r1 r2) push ring1 ring2 draws engine)
      fun u => Accepted s u (fnFlag f.fn) child ∧ u.mem = t.mem ∧ Enqueued s u f op child r1 r2 ∧
        u.group.draws = s.group.draws + BitVec.ofNat 32 draws ∧
        ∃ q, u.team.engine = { engine (t.teamAt s.group.teamKey).engine with queue := q } := by
  have hkey := hroom.1
  have hteams : t.teamAt s.group.teamKey = s.team := by
    obtain ⟨_, _, _, _, _, rfl⟩ := hs
    rfl
  have hnext := acceptMatrix_next (c := newCommand t s.group (t.teamAt s.group.teamKey) op f child r1 r2) hqueue
    (engineStall_none hroom hdrained) push ring1 ring2 draws engine
  obtain ⟨a, b, hx⟩ := (t.teamAt s.group.teamKey).taking_engine
    (newCommand t s.group (t.teamAt s.group.teamKey) op f child r1 r2) push ring1 ring2 hengine
  generalize (t.teamAt s.group.teamKey).taking (newCommand t s.group (t.teamAt s.group.teamKey) op f child r1 r2) push ring1 ring2
    engine = x at hnext hx
  have hgroups : (t.putTeam s.group.teamKey x).groups = s.groups := hs.groups
  have hcur : (t.putTeam s.group.teamKey x).cur = s.cur := hs.cur
  have hissued := (placed_acceptCommand (children_groupAt_key hgroups hkey) draws (fnFlag f.fn) child).accepting_draws
  obtain ⟨groups, hrest⟩ := acceptCommand_groups (t.putTeam s.group.teamKey x) (s.group.draw draws) (fnFlag f.fn) child
  generalize hu : acceptCommand (t.putTeam s.group.teamKey x) (s.group.draw draws) (fnFlag f.fn) child = u at hissued hrest
  have hteam : u.team = x := by
    rw [State.team, hissued.1, hrest]
    exact State.teamAt_putTeam t _ x
  refine ⟨u, hnext.trans (congrArg Host.Outcome.next hu), hu ▸ accepted_acceptCommand hgroups hcur hkey draws _ child, ?_, ?_,
    hissued.2, ?_⟩
  · rw [hrest]
    rfl
  · rw [Enqueued, hteam, hx, hteams]
    exact ⟨_, rfl, rfl, rfl, rfl, rfl, rfl, rfl, rfl, rfl, rfl, rfl⟩
  · exact ⟨_, by rw [hteam, hx]⟩

end Sys2Proof.Machine
end

section
/-! PROOFS. The checks of a matrix command that pass (R193 to R195), and the products that are accepted (R197 to R199, R204). -/

namespace Sys2Proof.Machine

open Sys2Proof.Safety

/-! Checks that pass (R195). -/

/-- Nothing fails where no reason and no offset is listed. -/
theorem onChecked_pass {s : State} {reasons : List Nat} {beyond : List Nat} (hreasons : reasons = []) (hbeyond : beyond = [])
    (k : Unit → Result State) : onChecked s (checked [] reasons beyond) k = k () := by
  rw [hreasons, hbeyond]
  rfl

/-- An operand that fits has no reason to fail. -/
theorem OperandSpec.reasons_of_fits {o : OperandSpec} {t : Team} {r : Option (BitVec 512)} (h : OperandFits t o r) :
    o.reasons t (shapeUsable r o.value false) = [] := by
  obtain ⟨hkind, hring, hreg, hfmt, hb16, hscratch, hslot, hbox⟩ := h
  simp only [OperandSpec.reasons, List.append_eq_nil_iff, ite_eq_right_iff, List.cons_ne_nil, imp_false]
  refine ⟨⟨⟨⟨⟨fun ⟨hr, hk⟩ => hr (hring hk), ?_⟩, ?_⟩, ?_⟩, ?_⟩, ?_⟩
  · simp only [List.contains_eq_mem, hkind, decide_true, Bool.not_true, Bool.false_or, Bool.and_eq_true, Bool.or_eq_true, beq_iff_eq,
      bne_iff_ne, ne_eq]
    exact fun ⟨hk, hr⟩ => hr (hreg hk)
  · simp only [List.contains_eq_mem, hfmt, decide_true, Bool.not_true, Bool.false_or, Bool.and_eq_true, Bool.not_eq_true']
    exact fun ⟨hb, hmx⟩ => Bool.false_ne_true (hmx.symm.trans (hb16 hb))
  · rintro ⟨hk, hbad⟩
    obtain ⟨halign, hlt, -⟩ := hscratch hk
    exact hbad.elim (Nat.not_le.2 hlt) (absurd halign)
  · rintro ⟨hk, hsmall⟩
    obtain ⟨x, hx, hsize⟩ := hslot hk
    rw [hx] at hsmall
    exact absurd hsize (Nat.not_le.2 (of_decide_eq_true hsmall))
  · rintro ⟨hk, hbad⟩
    obtain ⟨sh, hsh, hok⟩ := hbox hk
    rw [hsh] at hbad
    exact Bool.false_ne_true ((Bool.not_eq_true' _ ▸ hbad).symm.trans hok)

/-- Nor does it lie beyond the scratchpad. -/
theorem OperandSpec.beyond_of_fits {o : OperandSpec} {t : Team} {r : Option (BitVec 512)} (h : OperandFits t o r) :
    (o.beyond t).toList = [] := by
  obtain ⟨-, -, -, -, -, hscratch, -, -⟩ := h
  have hin : ¬(o.kind = 0 ∧ t.w < o.value.toNat + o.bytes) := fun ⟨hk, hlt⟩ => Nat.not_le.2 hlt (hscratch hk).2.2
  rw [OperandSpec.beyond, if_neg hin]
  rfl

/-- A sampled record leaves the team (R326). -/
theorem teamAt_samples {s t : State} {g : Group} {needed : Bool} {h : Word} {r : Option (BitVec 512)}
    (hs : Samples s g needed h r t) (k : Nat) : t.teamAt k = s.teamAt k := by
  obtain ⟨_, _, _, _, _, rfl⟩ := samples_coresOnly hs
  rfl

/-- An instruction that is accepted as a matrix command, as the statements say it. -/
theorem goes_accepted {i : Instr} {f : SR} {s t : State} {op : MatrixOp} {child : Bool} {r1 r2 : Option (BitVec 512)} {push : Bool}
    {ring1 ring2 : Option Nat} {draws : Nat} {engine : Engine → Engine} (hexec : exec i s = acceptMatrix t s.group
      (newCommand t s.group (t.teamAt s.group.teamKey) op f child r1 r2) push ring1 ring2 draws engine)
    (hengine : ∀ e, (engine e).queue = e.queue) (hs : CoresOnly s t)
    (hqueue : (t.teamAt s.group.teamKey).engine.queue.length < 16) (hroom : Room s (fnFlag f.fn) child)
    (hdrained : drained t s.group.core = true) :
    Goes (exec i s) fun u => Accepted s u (fnFlag f.fn) child ∧ SameBytes t u ∧ Enqueued s u f op child r1 r2 := by
  rw [hexec]
  exact goes_mono (goes_acceptMatrix hs hqueue hroom hdrained r1 r2 push ring1 ring2 draws hengine)
    fun u ⟨haccepted, hmem, hqueued, _⟩ => ⟨haccepted, readByte_congr hmem, hqueued⟩

/-! The products (R197 to R199, R204). -/

section

variable {f : SR} {s t : State} {r : Option (BitVec 512)} {c : Ctl} (hc : Ctl.ofWord (s.group.readS f.src2.toNat) = c)
  (hrole : s.group.role = .matrix) (hreserved : c.reserved = false) (hdrain : c.noDrain = true)

include hc hrole hreserved hdrain

/-- MLD whose checks pass (R197). -/
theorem exec_mld_accepts (hfree : Free s [f.src1.toNat, f.src2.toNat]) (hsecond : c.noSecond = true) (hzb : c.zb = 0) (hza : c.za = 0)
    (hrows : c.rows = 127) (hs : Samples s s.group (c.kind == 2) (s.group.readS f.src1.toNat) r t)
    (hfits : OperandFits (t.teamAt s.group.teamKey) (mldOperand s.group f c) r) :
    exec (.mld f) s = acceptMatrix t s.group
      (newCommand t s.group (t.teamAt s.group.teamKey) (.mld (f.fn.getLsbD 0)) f (c.kind == 2) r none) false
      (if c.kind = 1 then some c.ring else none) none 0 id := by
  subst hc
  show execMld f s = _
  rw [execMld, matrixRole_matrix hfree hrole]
  refine (hs _).trans (onChecked_pass ?_ (OperandSpec.beyond_of_fits hfits) _)
  simp [hreserved, hdrain, hsecond, hzb, hza, hrows, OperandSpec.reasons_of_fits hfits]

/-- MMA whose checks pass; one from the bypass leaves it empty (R198). -/
theorem exec_mma_accepts (hfree : Free s [f.src1.toNat, f.src2.toNat]) (hsecond : c.noSecond = true) (hzb : c.zb = 0)
    (hza : c.za < (t.teamAt s.group.teamKey).tiles) (hm : c.m ≤ 128)
    (hs : Samples s s.group (c.kind == 2) (s.group.readS f.src1.toNat) r t)
    (hfits : OperandFits (t.teamAt s.group.teamKey) (productOperand s.group f c [0, 1, 2, 3]) r)
    (hbypass : c.kind = 3 → c.rows = 0 ∧ (t.teamAt s.group.teamKey).engine.accBypass = true)
    (hred : (t.teamAt s.group.teamKey).engine.accRed = true →
      (if c.kind = 3 then (t.teamAt s.group.teamKey).engine.accRows else c.m) ≤ 64) :
    exec (.mma f) s = acceptMatrix t s.group (newCommand t s.group (t.teamAt s.group.teamKey) .mma f (c.kind == 2) r none) false
      (if c.kind = 1 then some c.ring else none) none 0 fun e => if c.kind = 3 then { e with accBypass := false } else e := by
  subst hc
  show execMma f s = _
  rw [execMma, matrixRole_matrix hfree hrole]
  refine (onChecked_granted (List.forall_mem_singleton.2 (teamAt_samples hs _ ▸ hza)) _).trans ((hs _).trans ?_)
  refine onChecked_pass ?_ (OperandSpec.beyond_of_fits hfits) _
  simp only [List.append_eq_nil_iff, ite_eq_right_iff, List.cons_ne_nil, imp_false]
  refine ⟨⟨⟨⟨by simp [hreserved, hdrain, hsecond, hzb], ?_⟩, OperandSpec.reasons_of_fits hfits⟩, ?_⟩, ?_⟩
  · exact fun h => h.elim (Nat.not_lt.2 hm) fun ⟨hk, hrows⟩ => hrows (hbypass hk).1
  · rintro ⟨hk, hempty⟩
    simp [(hbypass hk).2] at hempty
  · exact fun ⟨hr, hlt⟩ => Nat.not_lt.2 (hred hr) hlt

/-- MMA2 whose checks pass (R199). -/
theorem exec_mma2_accepts {u : State} {r2 : Option (BitVec 512)} (hfree : Free s [f.dest.toNat, f.src1.toNat, f.src2.toNat])
    (hs : Samples s s.group (c.kind == 2) (s.group.readS f.src1.toNat) r t)
    (hs2 : Samples t s.group (c.kind2 == 2) (s.group.readS f.dest.toNat) r2 u)
    (hza : c.za < (u.teamAt s.group.teamKey).tiles) (hzb : c.zb < (u.teamAt s.group.teamKey).tiles) (hne : c.za ≠ c.zb)
    (hm : c.m ≤ 128) (hred : (u.teamAt s.group.teamKey).engine.accRed = false)
    (hfits : OperandFits (u.teamAt s.group.teamKey) (productOperand s.group f c [0, 1, 2]) r)
    (hfits2 : OperandFits (u.teamAt s.group.teamKey) (secondOperand s.group f c) r2) :
    exec (.mma2 f) s = acceptMatrix u s.group
      (newCommand u s.group (u.teamAt s.group.teamKey) .mma2 f (c.kind == 2 || c.kind2 == 2) r r2) false
      (if c.kind = 1 then some c.ring else none) (if c.kind2 = 1 then some c.ring2 else none) 0 id := by
  subst hc
  have hteam := (teamAt_samples hs2 s.group.teamKey).trans (teamAt_samples hs _)
  show execMma2 f s = _
  rw [execMma2, matrixRole_matrix hfree hrole]
  refine (onChecked_granted (List.forall_mem_cons.2 ⟨hteam ▸ hza, List.forall_mem_singleton.2 (hteam ▸ hzb)⟩) _).trans ?_
  refine (hs _).trans ((hs2 _).trans (onChecked_pass ?_ ?_ _))
  · simpa [hreserved, hdrain, hne, hred, Nat.not_lt.2 hm] using
      And.intro (OperandSpec.reasons_of_fits hfits) (OperandSpec.reasons_of_fits hfits2)
  · rw [OperandSpec.beyond_of_fits hfits, OperandSpec.beyond_of_fits hfits2]
    rfl

/-- MVNB whose checks pass (R204). -/
theorem exec_mvnb_accepts {sh : Shape} (hfree : Free s [f.dest.toNat, f.src1.toNat, f.src2.toNat])
    (hs : Samples s s.group true (s.group.readS f.dest.toNat) r t) (hsh : shapeUsable r (s.group.readS f.dest.toNat) false = some sh)
    (hbox : nearBox sh = true) (hsecond : c.noSecond = true) (hzb : c.zb = 0) (hza : c.za < (t.teamAt s.group.teamKey).tiles)
    (hm : c.m ≤ 8) (hred : (t.teamAt s.group.teamKey).engine.accRed = false)
    (hfits : OperandFits (t.teamAt s.group.teamKey) (nearOperand s.group f c (sh.bx 0)) none) :
    exec (.mvnb f) s = acceptMatrix t s.group (newCommand t s.group (t.teamAt s.group.teamKey) .mvnb f true none r) false
      (if c.kind = 1 then some c.ring else none) none 0 id := by
  subst hc
  have hrows : (Ctl.ofWord (s.group.readS f.src2.toNat)).rows ≤ 7 := Nat.le_of_succ_le_succ hm
  have hreasons : (nearOperand s.group f (Ctl.ofWord (s.group.readS f.src2.toNat)) (sh.bx 0)).reasons
      (t.teamAt s.group.teamKey) none = [] := OperandSpec.reasons_of_fits hfits
  have hsample : ∀ k, sampleShape s s.group (s.group.readS f.dest.toNat) k = k r t := hs
  show execMvnb f s = _
  rw [execMvnb, matrixRole_matrix hfree hrole]
  refine (onChecked_granted (List.forall_mem_singleton.2 (teamAt_samples hs _ ▸ hza)) _).trans ((hsample _).trans ?_)
  simp only [hsh, Option.map_some, Option.getD_some]
  refine onChecked_pass ?_ (OperandSpec.beyond_of_fits hfits) _
  simp [hreserved, hdrain, hsecond, hzb, hbox, hred, Nat.not_lt.2 hrows, hreasons]

end

/-- Settles O27: each instruction's checks pass, so that it is accepted with the record that it has sampled. -/
theorem matrixProductsAccepted : Obligations.MatrixProductsAccepted := by
  intro f s s1 s2 r1 r2 g c flag t1 t2 child hrole hreserved hdrain
  refine ⟨fun hfree hsecond hzb hs hqueue hroom hdrained => ⟨fun hza hrows hfits => ?_, fun hza hm hfits hbypass hred => ?_⟩,
    fun hfree => ⟨fun hs hs2 hqueue hroom hdrained hza hzb hne hm hred hfits hfits2 => ?_,
      fun sh hs hsh hbox hsecond hzb hza hm hred hfits hqueue hroom hdrained => ?_⟩⟩
  · exact goes_accepted (exec_mld_accepts rfl hrole hreserved hdrain hfree hsecond hzb hza hrows hs hfits) (fun _ => rfl)
      (samples_coresOnly hs) hqueue hroom hdrained
  · refine goes_accepted (exec_mma_accepts rfl hrole hreserved hdrain hfree hsecond hzb hza hm hs hfits hbypass hred) (fun e => ?_)
      (samples_coresOnly hs) hqueue hroom hdrained
    split <;> rfl
  · exact goes_accepted (exec_mma2_accepts rfl hrole hreserved hdrain hfree hs hs2 hza hzb hne hm hred hfits hfits2) (fun _ => rfl)
      ((samples_coresOnly hs).trans (samples_coresOnly hs2)) hqueue hroom hdrained
  · exact goes_accepted (exec_mvnb_accepts rfl hrole hreserved hdrain hfree hs hsh hbox hsecond hzb hza hm hred hfits) (fun _ => rfl)
      (samples_coresOnly hs) hqueue hroom hdrained

end Sys2Proof.Machine
end

section
/-! PROOFS. MDRAIN, MZERO, MMODE and MSYNC (R200, R202, R203, R206, R271). -/

namespace Sys2Proof.Machine

open Sys2Proof.Safety

/-- The counter values of a drain of whole rows of 128 elements (R58, R200). -/
theorem drawsFor_rows (s : State) (g : Group) (m : Nat) :
    (sampleOf s g).drawsFor 0 (128 * m) = if rndMode g.rnd = 6 then 16 * m else 0 := by
  have hceil : Bits.ceilDiv (128 * m) 8 = 16 * m := by
    unfold Bits.ceilDiv
    omega
  simp [Sample.drawsFor, sampleOf, hceil]

section

variable {f : SR} {s t : State} {r : Option (BitVec 512)} {c : Ctl} (hc : Ctl.ofWord (s.group.readS f.src2.toNat) = c)
  (hrole : s.group.role = .matrix)

include hc hrole

/-- MDRAIN whose checks pass; one to the bypass fills it (R200). -/
theorem exec_mdrain_accepts (hfree : Free s [f.src1.toNat, f.src2.toNat])
    (hs : Samples s s.group (c.kind == 2) (s.group.readS f.src1.toNat) r t) (hreserved : c.reserved = false)
    (hsecond : c.noSecond = true) (hzb : c.zb = 0) (hsplit : c.split = true → c.kind = 0 ∧ isMx c.fmt = true)
    (hqbase : c.qbase ≠ 0 → c.kind = 0 ∧ isMx c.fmt = true)
    (hnansat : c.nansat = true → if c.kind = 2 then
      (∀ h, shapeUsable r (drainDest s.group f c).value false = some h → isMx h.fmt = true) else isMx c.fmt = true)
    (hm : c.m ≤ 128) (hza : c.za < (t.teamAt s.group.teamKey).tiles)
    (hregs : c.split = true → c.qbase + drainRegs c ≤ s.group.alloc)
    (hbypass : c.kind = 3 → (t.teamAt s.group.teamKey).engine.accBypass = false)
    (hred : (t.teamAt s.group.teamKey).engine.accRed = true → c.m ≤ 64)
    (hfits : OperandFits (t.teamAt s.group.teamKey) (drainDest s.group f c) r) :
    exec (.mdrain f) s = acceptMatrix t s.group (newCommand t s.group (t.teamAt s.group.teamKey) .mdrain f (c.kind == 2) r none) true
      (if c.kind = 1 then some c.ring else none) none
      (if (if c.kind = 2 then ((shapeUsable r (drainDest s.group f c).value false).map (·.fmt)).getD 0 else c.fmt) = 0 then 0
        else (sampleOf t s.group).drawsFor 0 (128 * c.m))
      fun e => if c.kind = 3 then { e with accBypass := true, accRows := c.m } else e := by
  have hrange : (s.teamAt s.group.teamKey).badTiles [c.za] ++ (if (drainDest s.group f c).split ∧ s.group.alloc < c.qbase + drainRegs c
      then [max c.qbase s.group.alloc] else []) = [] := by
    have htile : c.za < (s.teamAt s.group.teamKey).tiles := teamAt_samples hs _ ▸ hza
    simp only [Team.badTiles, List.append_eq_nil_iff, List.filter_eq_nil_iff, List.mem_singleton, forall_eq, decide_eq_true_eq,
      Nat.not_le.2 htile, not_false_iff, true_and, ite_eq_right_iff, List.cons_ne_nil, imp_false, not_and, Nat.not_lt]
    intro h
    simp only [drainDest, Bool.and_eq_true] at h
    exact hregs h.1.1
  have hown : (c.split && !(drainDest s.group f c).split) = false := by
    cases hs : c.split
    · rfl
    · simp [drainDest, hs, hsplit hs]
  have hq : (c.qbase != 0 && !(c.kind == 0 && isMx c.fmt)) = false := by
    by_cases h : c.qbase = 0
    · simp [h]
    · simp [hqbase h]
  show execMdrain f s = _
  rw [execMdrain, matrixRole_matrix hfree hrole]
  dsimp only
  rw [hc, hrange]
  refine (hs _).trans (onChecked_pass ?_ (OperandSpec.beyond_of_fits hfits) _)
  simp only [List.append_eq_nil_iff, ite_eq_right_iff, List.cons_ne_nil, imp_false]
  refine ⟨⟨⟨⟨?_, Nat.not_lt.2 hm⟩, OperandSpec.reasons_of_fits hfits⟩, ?_⟩, ?_⟩
  · simp only [hreserved, hsecond, hzb, hown, hq]
    cases hn : c.nansat with
    | false => simp
    | true =>
      have hmx := hnansat hn
      by_cases hk : c.kind = 2
      · rw [if_pos hk] at hmx ⊢
        cases hsh : shapeUsable r (drainDest s.group f c).value false with
        | none => decide
        | some h => simp [hmx h hsh]
      · rw [if_neg hk] at hmx ⊢
        simp [hmx]
  · rintro ⟨hk, hfull⟩
    exact Bool.false_ne_true ((hbypass hk).symm.trans hfull)
  · exact fun ⟨hr, hlt⟩ => Nat.not_lt.2 (hred hr) hlt

omit hc in
/-- MZERO of granted tiles (R202). -/
theorem exec_mzero_accepts (hfree : Free s []) (htile : f.fn.getLsbD 2 = true ∨ f.fn.toNat % 4 < s.team.tiles) :
    exec (.mzero f) s = acceptMatrix s s.group
      (newCommand s s.group (s.teamAt s.group.teamKey) (.mzero (f.fn.getLsbD 2) (f.fn.toNat % 4)) f false none none) false none none 0
      id := by
  show execMzero f s = _
  rw [execMzero, matrixRole_matrix hfree hrole]
  dsimp only
  split
  · rfl
  · next hall => exact onChecked_granted (List.forall_mem_singleton.2 (htile.resolve_left hall)) _

omit hc in
/-- MMODE (R203). -/
theorem exec_mmode_accepts (hfree : Free s []) :
    exec (.mmode f) s = acceptMatrix s s.group
      (newCommand s s.group (s.teamAt s.group.teamKey) (.mmode (f.fn.getLsbD 0)) f false none none) false none none 0
      fun e => { e with accRed := f.fn.getLsbD 0 } := by
  show execMmode f s = _
  rw [execMmode, matrixRole_matrix hfree hrole]

omit hc in
/-- MSYNC of a group with no command left goes on, which is an edge (R206, R271). -/
theorem exec_msync_idle (hfree : Free s []) (hidle : ∀ x ∈ s.team.engine.queue, x.key ≠ s.group.key) :
    exec (.msync f) s = .next (observeClear (movedOn s 4)) := by
  have hnone : s.team.engine.queue.any (fun c => c.key == s.group.key) = false := by simpa [List.any_eq_false] using hidle
  show execMsync f s = _
  rw [execMsync, matrixRole_matrix hfree hrole]
  exact if_neg (Bool.not_eq_true _ ▸ hnone)

end

/-- Settles O28: each instruction's checks pass, so that it is accepted; MSYNC finds no command of its group. -/
theorem matrixDrainsAccepted : Obligations.MatrixDrainsAccepted := by
  intro f s s1 r g c o flag t1 child sh ty mx red hrole
  refine ⟨fun hfree hs hreserved hsecond hzb hsplit hqbase hnansat hm hza hregs hbypass haccRed hfits hqueue hroom hdrained => ?_,
    fun hfree hqueue hroom hdrained => ⟨fun htile => ?_, ?_⟩, exec_msync_idle hrole⟩
  · rw [exec_mdrain_accepts rfl hrole hfree hs hreserved hsecond hzb hsplit hqbase hnansat hm hza hregs hbypass haccRed hfits,
      drawsFor_rows]
    refine goes_mono (goes_acceptMatrix (samples_coresOnly hs) hqueue hroom hdrained r none _ _ _ _ fun e => by split <;> rfl) ?_
    rintro u ⟨haccepted, hmem, hqueued, hdraws, -⟩
    refine ⟨haccepted, readByte_congr hmem, hqueued, hdraws.trans (congrArg (fun n => g.draws + BitVec.ofNat 32 n) ?_)⟩
    show (if ty = 0 then 0 else if rndMode g.rnd = 6 then 16 * c.m else 0) = _
    by_cases hty : ty = 0 <;> simp [hty]
  · rw [exec_mzero_accepts hrole hfree htile]
    exact goes_mono (goes_acceptMatrix (.refl s) hqueue hroom hdrained none none _ _ _ _ fun _ => rfl)
      fun u ⟨haccepted, hmem, hqueued, _⟩ => ⟨haccepted, hmem, hqueued⟩
  · rw [exec_mmode_accepts hrole hfree]
    exact goes_mono (goes_acceptMatrix (.refl s) hqueue hroom hdrained none none _ _ _ _ fun _ => rfl)
      fun u ⟨haccepted, hmem, hqueued, _, _, hengine⟩ => ⟨haccepted, hmem, hqueued, congrArg Engine.accRed hengine⟩

end Sys2Proof.Machine
end

section
/-! PROOFS. The coelostat's micro-operations (R317, R350, R351): when one runs, and what END, XPOSE, STEP, SETC, LOOP and ZERO leave. -/

namespace Sys2Proof.Bits

/-- Another field of 16 bits reads as before, and the spliced one as what it took. -/
theorem field_splice (h : Word) {d j : Nat} (hj : j < 4) (x : Nat) :
    field (splice h (16 * d) 16 x).toNat (16 * j) 16 = if j = d then x % 2 ^ 16 else field h.toNat (16 * j) 16 := by
  apply Nat.eq_of_testBit_eq
  intro i
  rw [testBit_field]
  change (_ && (splice h (16 * d) 16 x).getLsbD (16 * j + i)) = _
  rw [getLsbD_splice]
  by_cases hi : i < 16
  · by_cases hd : j = d
    · subst hd
      rw [if_pos ⟨by omega, by omega, by omega⟩, if_pos rfl, Nat.testBit_mod_two_pow, Nat.add_sub_cancel_left]
    · rw [if_neg (by omega), if_neg hd, testBit_field]
      rfl
  · by_cases hd : j = d
    · rw [if_pos hd, Nat.testBit_mod_two_pow]
      simp [hi]
    · rw [if_neg hd, testBit_field]
      simp [hi]

end Sys2Proof.Bits

namespace Sys2Proof.Machine

open Sys2Proof.Safety

/-! The running program (R317). -/

theorem State.coreAt_putCore (s : State) (n : Nat) (k : Core) (m : Nat) :
    (s.putCore n k).coreAt m = if n = m then k else s.coreAt m := by
  simp only [State.coreAt, State.putCore, Assoc.find?_put]
  split <;> rfl

/-- A change of the core at work, of the teams and of the count of free values changes nothing else. -/
theorem micKept_putCore (s : State) (k : Core) (teams : List (Nat × Team)) (free : Nat) :
    MicKept s (({ s with teams := teams, free := free } : State).putCore s.core k) :=
  ⟨rfl, fun n hn => (State.coreAt_putCore _ _ _ n).trans (if_neg hn.symm)⟩

/-- The core of a running program that may go on is ready for its next micro-operation (R317). -/
theorem Core.micReady_of_running {k : Core} {c : StrmCmd} (hc : k.strm = some c) (hwait : c.life.wait = none)
    (hout : k.strmOut.length < 4) : k.micReady = true := by
  simp [Core.micReady, hc, hwait, hout]

/-- The program as a micro-operation finds it: it counts the step, and goes on behind the micro-operation (R350). -/
def StrmCmd.stepped (c : StrmCmd) : StrmCmd := { c with steps := c.steps + 1, mpc := c.mpc + 1 }

/-- A running program executes its next micro-operation, which counts one step (R350). -/
theorem micInstr_runs {s : State} {c : StrmCmd} (h : MicRuns s c) (name : String) (body : StrmCmd → Result State) :
    micInstr name s body = body c.stepped := by
  obtain ⟨hc, hwait, hfault, hout, hsteps⟩ := h
  have hlimit : ¬stepLimit ≤ c.steps := Nat.not_le.2 hsteps
  simp [micInstr, hc, Core.micReady_of_running hc hwait hout, hfault, hlimit, StrmCmd.stepped]

/-- Past the limit a program ends (R351). -/
theorem micInstr_overrun {s : State} {c : StrmCmd} (hc : (s.coreAt s.core).strm = some c) (hwait : c.life.wait = none)
    (hfault : c.life.fault = 0) (hout : (s.coreAt s.core).strmOut.length < 4) (hsteps : 2 ^ 20 ≤ c.steps) (name : String)
    (body : StrmCmd → Result State) :
    micInstr name s body = .next (s.endProgram { c with life := c.life.fail 0x103 0 }) := by
  have hlimit : stepLimit ≤ c.steps := hsteps
  simp [micInstr, hc, Core.micReady_of_running hc hwait hout, hfault, hlimit]

/-- A program that ends stands last among the ended ones of its core (R317). -/
theorem micKept_endProgram (s : State) (c : StrmCmd) : MicKept s (s.endProgram c) ∧ (s.endProgram c).teams = s.teams ∧
    ((s.endProgram c).coreAt s.core).strm = none ∧
    ((s.endProgram c).coreAt s.core).strmDone = (s.coreAt s.core).strmDone ++ [c] := by
  have hcore := (State.coreAt_putCore s s.core { s.coreAt s.core with strm := none, strmDone := (s.coreAt s.core).strmDone ++ [c] }
    s.core).trans (if_pos rfl)
  exact ⟨micKept_putCore s _ s.teams s.free, rfl, congrArg Core.strm hcore, congrArg Core.strmDone hcore⟩

theorem micKept_putStrm (s : State) (free : Nat) (d : StrmCmd) : MicKept s (({ s with free := free } : State).putStrm d) ∧
    (({ s with free := free } : State).putStrm d).teams = s.teams ∧
    ((({ s with free := free } : State).putStrm d).coreAt s.core).strm = some d := by
  have hcore := (State.coreAt_putCore { s with free := free } s.core { s.coreAt s.core with strm := some d } s.core).trans (if_pos rfl)
  exact ⟨micKept_putCore s _ s.teams free, rfl, congrArg Core.strm hcore⟩

/-- The program runs on as `d` after one more step. -/
def RunsOn (s : State) (c : StrmCmd) (t : State) (d : StrmCmd) : Prop :=
  (t.coreAt s.core).strm = some d ∧ d.steps = c.steps + 1 ∧ d.key = c.key ∧ d.prog = c.prog ∧ d.life = c.life

/-- A micro-operation that puts the program `d` in the place of `c`, and takes free values at most. -/
theorem goes_putStrm {s : State} {c d : StrmCmd} (free : Nat) {p : StrmCmd → Prop} (hsteps : d.steps = c.steps + 1)
    (hkey : d.key = c.key) (hprog : d.prog = c.prog) (hlife : d.life = c.life) (hp : p d) :
    Goes (.next (({ s with free := free } : State).putStrm d)) fun t => MicKept s t ∧ t.teams = s.teams ∧
      ∃ d, RunsOn s c t d ∧ p d := by
  obtain ⟨hkept, hteams, hstrm⟩ := micKept_putStrm s free d
  exact ⟨_, rfl, hkept, hteams, d, ⟨hstrm, hsteps, hkey, hprog, hlife⟩, hp⟩

/-- The buffer of a program that has loaded it stands; that of another takes free values (R350). -/
theorem bufferOf_cases (s : State) (c : StrmCmd) :
    ∃ tiles free, bufferOf s c = (tiles, { s with free := free }) ∧ (c.buf ≠ [] → tiles = c.buf) := by
  unfold bufferOf
  split
  · next h => exact ⟨_, _, rfl, fun hne => absurd h hne⟩
  · exact ⟨_, _, rfl, fun _ => rfl⟩

/-! The micro-operations (R350). -/

section

variable {s : State} {c : StrmCmd} (hruns : MicRuns s c)

include hruns

theorem goes_micEnd : Goes (exec .micEnd s) fun t => MicKept s t ∧ t.teams = s.teams ∧ (t.coreAt s.core).strm = none ∧
    ∃ d, (t.coreAt s.core).strmDone = (s.coreAt s.core).strmDone ++ [d] ∧ d.key = c.key ∧ d.id = c.id ∧ d.life = c.life := by
  obtain ⟨hkept, hteams, hstrm, hdone⟩ := micKept_endProgram s c.stepped
  show Goes (execMicEnd s) _
  rw [execMicEnd, micInstr_runs hruns]
  exact ⟨_, rfl, hkept, hteams, hstrm, _, hdone, rfl, rfl, rfl⟩

theorem goes_micXpose : Goes (exec .micXpose s) fun t => MicKept s t ∧ t.teams = s.teams ∧ ∃ d, RunsOn s c t d ∧
    d.mpc = c.mpc + 1 ∧ d.flip = !c.flip ∧ (c.buf ≠ [] → d.buf = c.buf) := by
  obtain ⟨tiles, free, hbuf, htiles⟩ := bufferOf_cases s c.stepped
  show Goes (execMicXpose s) _
  rw [execMicXpose, micInstr_runs hruns, hbuf]
  exact goes_putStrm free rfl rfl rfl rfl ⟨rfl, rfl, htiles⟩

theorem goes_micStep (coord : BitVec 2) (delta : BitVec 16) : Goes (exec (.micStep coord delta) s) fun t => MicKept s t ∧
    t.teams = s.teams ∧ ∃ d, RunsOn s c t d ∧ d.mpc = c.mpc + 1 ∧ d.buf = c.buf ∧ d.l = c.l ∧
      ∀ j, j < 4 → handleT d.handle j = if j = coord.toNat then (handleT c.handle j + delta.toNat) % 2 ^ 16 else handleT c.handle j := by
  show Goes (execMicStep coord delta s) _
  rw [execMicStep, micInstr_runs hruns]
  refine goes_putStrm s.free rfl rfl rfl rfl ⟨rfl, rfl, rfl, fun j hj => ?_⟩
  refine (Bits.field_splice c.handle hj _).trans ?_
  by_cases h : j = coord.toNat
  · rw [if_pos h, if_pos h, h]
    rfl
  · rw [if_neg h, if_neg h]
    rfl

theorem goes_micSetc (ctr : BitVec 2) (n : BitVec 16) : Goes (exec (.micSetc ctr n) s) fun t => MicKept s t ∧ t.teams = s.teams ∧
    ∃ d, RunsOn s c t d ∧ d.mpc = c.mpc + 1 ∧ d.buf = c.buf ∧ d.handle = c.handle ∧
      ∀ j, Assoc.get 0 d.l j = if j = ctr.toNat then n else Assoc.get 0 c.l j := by
  show Goes (execMicSetc ctr n s) _
  rw [execMicSetc, micInstr_runs hruns]
  refine goes_putStrm s.free rfl rfl rfl rfl ⟨rfl, rfl, rfl, fun j => ?_⟩
  simp only [Assoc.get_set, StrmCmd.stepped, eq_comm]

theorem goes_micLoop (ctr : BitVec 2) (target : BitVec 6) : Goes (exec (.micLoop ctr target) s) fun t => MicKept s t ∧
    t.teams = s.teams ∧ ∃ d, RunsOn s c t d ∧ d.buf = c.buf ∧ d.handle = c.handle ∧
      (∀ j, Assoc.get 0 d.l j = if j = ctr.toNat then Assoc.get 0 c.l j - 1 else Assoc.get 0 c.l j) ∧
      d.mpc = if Assoc.get 0 c.l ctr.toNat = 1 then c.mpc + 1 else target.toNat := by
  show Goes (execMicLoop ctr target s) _
  rw [execMicLoop, micInstr_runs hruns]
  refine goes_putStrm s.free rfl rfl rfl rfl ⟨rfl, rfl, fun j => ?_, ?_⟩
  · refine (Assoc.get_set ..).trans ?_
    by_cases h : j = ctr.toNat
    · rw [if_pos h.symm, if_pos h, h]
      rfl
    · rw [if_neg (Ne.symm h), if_neg h]
      rfl
  · simp only [loopNext, sub_eq_zero, StrmCmd.stepped, Nat.add_sub_cancel]

theorem goes_micZero : Goes (exec .micZero s) fun t => MicKept s t ∧ t.teams = s.teams ∧ ∃ d, RunsOn s c t d ∧ d.mpc = c.mpc + 1 ∧
    d.flip = c.flip ∧ (∀ x ∈ d.buf, x.codes = [] ∧ x.scales = [] ∧ x.comps = []) ∧
    (c.buf ≠ [] → d.buf.map (fun x => (x.ty, x.blk, x.rows, x.cols)) = c.buf.map fun x => (x.ty, x.blk, x.rows, x.cols)) := by
  obtain ⟨tiles, free, hbuf, htiles⟩ := bufferOf_cases s c.stepped
  show Goes (execMicZero s) _
  rw [execMicZero, micInstr_runs hruns, hbuf]
  refine goes_putStrm free rfl rfl rfl rfl ⟨rfl, rfl, ?_, fun hne => ?_⟩
  · intro x hx
    obtain ⟨y, -, rfl⟩ := List.mem_map.1 hx
    exact ⟨rfl, rfl, rfl⟩
  · rw [List.map_map, htiles hne]
    rfl

end

end Sys2Proof.Machine
end

section
/-! PROOFS. CONV and QUANT of the coelostat (R43, R44, R46, R53, R350): what a converted image holds, and what the two
micro-operations make of the buffer. -/

namespace Sys2Proof.Machine

open Sys2Proof.Safety
open Sys2Proof.Num (XVal)

/-! What a converted image holds. -/

/-- The nonzero values listed for some keys read as the values of those keys. -/
theorem get_filterMap_nonzero (f : Nat → Nat) (l : List Nat) (k : Nat) :
    Assoc.get 0 (l.filterMap fun k => if f k = 0 then none else some (k, f k)) k = if k ∈ l then f k else 0 := by
  induction l with
  | nil => rfl
  | cons a l ih =>
    by_cases hzero : f a = 0
    · rw [List.filterMap_cons_none (by simp [hzero]), ih]
      by_cases ha : k = a
      · simp [ha, hzero]
      · simp [ha]
    · rw [List.filterMap_cons_some (b := (a, f a)) (by simp [hzero])]
      by_cases ha : a = k
      · simp [Assoc.get, Assoc.find?, ha]
      · refine Eq.trans ?_ (ih.trans ?_)
        · simp [Assoc.get, Assoc.find?, ha]
        · simp [Ne.symm ha]

theorem get_sparse (n : Nat) (f : Nat → Nat) {k : Nat} (hk : k < n) : Assoc.get 0 (sparse n f) k = f k :=
  (get_filterMap_nonzero f (List.range n) k).trans (if_pos (List.mem_range.2 hk))

/-- The value of an element that is converted: subnormals of a source format that flushes read as zeros (R44). -/
def convertedValue (src : Option Num.Fmt) (ftz : Bool) (v : XVal) : XVal := (src.map fun f => Num.flushIn f ftz v).getD v

/-- Block `b` of some values, requantised (R53). -/
def requantised (ty len : Nat) (v : Nat → XVal) (r : Rounding) (b : Nat) : Num.Block :=
  Num.requantise ((List.range len).map fun j => v (b * len + j)) ty ((List.range len).map fun j => r.at_ (b * len + j)) r.nansat

section

variable {ty : Nat} (len rows cols : Nat) (vs : Array XVal) (src : Option Num.Fmt) (r : Rounding)

theorem convertTile_plain (hty : isMx ty = false) : convertTile ty len rows cols vs src r =
    { ty := ty
      blk := len
      rows := rows
      cols := cols
      codes := sparse (rows * cols) fun k => Num.roundTo ((Num.fmtOfCode ty).getD .fp32)
        (r.ftz && ((Num.fmtOfCode ty).getD .fp32).flushes) (if r.nansat then .nansat else .table) (r.at_ k)
        (convertedValue src r.ftz (vs.getD k XVal.zero))
      scales := []
      comps := [] } := by
  simp only [convertTile, hty, Bool.false_eq_true, if_false]
  cases src <;> rfl

/-- Every block is requantised by itself (R53). -/
theorem convertTile_mx (hty : isMx ty = true) :
    let get (b : Nat) : Num.Block := ((List.range (rows * cols / len)).map (requantised ty len
      (fun k => convertedValue src r.ftz (vs.getD k XVal.zero)) r)).toArray.getD b ⟨0, [], 0⟩
    convertTile ty len rows cols vs src r =
      { ty := ty
        blk := len
        rows := rows
        cols := cols
        codes := sparse (rows * cols) fun k => (get (k / len)).codes.getD (k % len) 0
        scales := sparse (rows * cols / len) fun b => (get b).scale
        comps := if ty = 8 then sparse (rows * cols / len) fun b => (get b).comp else [] } := by
  simp only [convertTile, hty, if_true]
  cases src <;> rfl

theorem convertTile_form : (convertTile ty len rows cols vs src r).ty = ty ∧ (convertTile ty len rows cols vs src r).blk = len ∧
    (convertTile ty len rows cols vs src r).rows = rows ∧ (convertTile ty len rows cols vs src r).cols = cols := by
  cases hty : isMx ty
  · rw [convertTile_plain len rows cols vs src r hty]
    exact ⟨rfl, rfl, rfl, rfl⟩
  · rw [convertTile_mx len rows cols vs src r hty]
    exact ⟨rfl, rfl, rfl, rfl⟩

/-- An element of a format without scales is rounded by itself (R43, R46). -/
theorem get_codes_convertTile_plain (hty : isMx ty = false) (hnan : r.nansat = false) {n : Nat} (hn : n < rows * cols) :
    Assoc.get 0 (convertTile ty len rows cols vs src r).codes n =
      Num.roundTo ((Num.fmtOfCode ty).getD .fp32) (r.ftz && ((Num.fmtOfCode ty).getD .fp32).flushes) .table (r.at_ n)
        (convertedValue src r.ftz (vs.getD n XVal.zero)) := by
  rw [convertTile_plain len rows cols vs src r hty, hnan]
  exact get_sparse _ _ hn

/-- A whole block of a format with scales holds what its requantisation gives (R53). -/
theorem block_convertTile_mx (hty : isMx ty = true) (hlen : 0 < len) {b : Nat} (hb : (b + 1) * len ≤ rows * cols) :
    let y := convertTile ty len rows cols vs src r
    let q := requantised ty len (fun n => convertedValue src r.ftz (vs.getD n XVal.zero)) r b
    Assoc.get 0 y.scales b = q.scale ∧ (ty = 8 → Assoc.get 0 y.comps b = q.comp) ∧
      ∀ j, j < len → Assoc.get 0 y.codes (b * len + j) = q.codes.getD j 0 := by
  intro y q
  have hblock : b < rows * cols / len := (Nat.le_div_iff_mul_le hlen).2 hb
  have hq : ((List.range (rows * cols / len)).map (requantised ty len
      (fun k => convertedValue src r.ftz (vs.getD k XVal.zero)) r)).toArray.getD b ⟨0, [], 0⟩ = q := by
    simp [hblock, q]
  have hy : y = _ := convertTile_mx len rows cols vs src r hty
  rw [hy]
  refine ⟨(get_sparse _ _ hblock).trans (congrArg Num.Block.scale hq), fun h8 => ?_, fun j hj => ?_⟩
  · rw [if_pos h8]
    exact (get_sparse _ _ hblock).trans (congrArg Num.Block.comp hq)
  · have hin : b * len + j < rows * cols := by
      rw [Nat.add_mul, Nat.one_mul] at hb
      omega
    have hdiv : (b * len + j) / len = b := by
      rw [Nat.add_comm, Nat.add_mul_div_right _ _ hlen, Nat.div_eq_of_lt hj, Nat.zero_add]
    have hmod : (b * len + j) % len = j := by
      rw [Nat.add_comm, Nat.add_mul_mod_self_right, Nat.mod_eq_of_lt hj]
    refine (get_sparse _ _ hin).trans ?_
    rw [hdiv, hmod]
    exact congrArg (fun x : Num.Block => x.codes.getD j 0) hq

end

/-! The two micro-operations (R350). -/

/-- A converted image of the buffer, as the program sees it. -/
def StrmCmd.convertImage (c : StrmCmd) (ty len : Nat) (r : Rounding) (x : Tile) : Tile :=
  convertTile ty len (seenSize c.flip x).1 (seenSize c.flip x).2 (seenValues c.flip x) (Num.fmtOfCode x.ty) r

/-- The value of an element that the program sees. -/
def StrmCmd.seenValue (c : StrmCmd) (r : Rounding) (x : Tile) (n : Nat) : XVal :=
  convertedValue (Num.fmtOfCode x.ty) r.ftz ((seenValues c.flip x).getD n XVal.zero)

/-- The first image is converted in the mode of the micro-operation, the tangents in RNE (R182). -/
def Rounding.ofImage (r : Rounding) (i : Nat) : Rounding := if i = 0 then r else r.tangent

section

variable (c : StrmCmd) {ty : Nat} (len : Nat) (r : Rounding) (x : Tile)

theorem convertImage_form : (c.convertImage ty len r x).ty = ty ∧ (c.convertImage ty len r x).blk = len ∧
    (c.convertImage ty len r x).rows = (seenSize c.flip x).1 ∧ (c.convertImage ty len r x).cols = (seenSize c.flip x).2 :=
  convertTile_form ..

/-- An image of a format without scales holds every element rounded. -/
theorem convertImage_plain (hty : isMx ty = false) (hnan : r.nansat = false) {n : Nat}
    (hn : n < (c.convertImage ty len r x).rows * (c.convertImage ty len r x).cols) :
    Assoc.get 0 (c.convertImage ty len r x).codes n = Num.roundTo ((Num.fmtOfCode ty).getD .fp32)
      (r.ftz && ((Num.fmtOfCode ty).getD .fp32).flushes) .table (r.at_ n) (c.seenValue r x n) := by
  obtain ⟨-, -, hrows, hcols⟩ := convertImage_form c (ty := ty) len r x
  rw [hrows, hcols] at hn
  exact get_codes_convertTile_plain _ _ _ _ _ _ hty hnan hn

/-- An image of a format with scales holds every whole block requantised. -/
theorem convertImage_block (hty : isMx ty = true) (hlen : 0 < len) {b : Nat}
    (hb : (b + 1) * (c.convertImage ty len r x).blk ≤ (c.convertImage ty len r x).rows * (c.convertImage ty len r x).cols) :
    let y := c.convertImage ty len r x
    let q := requantised ty y.blk (c.seenValue r x) r b
    Assoc.get 0 y.scales b = q.scale ∧ (ty = 8 → Assoc.get 0 y.comps b = q.comp) ∧
      ∀ j, j < y.blk → Assoc.get 0 y.codes (b * y.blk + j) = q.codes.getD j 0 := by
  obtain ⟨-, hblk, hrows, hcols⟩ := convertImage_form c (ty := ty) len r x
  rw [hrows, hcols, hblk] at hb
  dsimp only
  rw [hblk]
  exact block_convertTile_mx _ _ _ _ _ _ hty hlen hb

end

/-- What CONV and QUANT make of a loaded buffer: every image converted as `p` says of its place, itself and the result. -/
def Converted (c d : StrmCmd) (r : Rounding) (p : Nat → Tile → Tile → Prop) : Prop :=
  d.flip = false ∧ (c.buf ≠ [] → d.buf.length = c.buf.length ∧ d.draws = c.draws + r.draws ((c.buf.map Tile.size).headD 0)) ∧
  ∀ i x y, c.buf[i]? = some x → d.buf[i]? = some y → (y.rows, y.cols) = seenSize c.flip x ∧ p i x y

/-- A conversion of the buffer: the program runs on with its images converted, and takes draws for the first one (R58, R350). -/
theorem goes_convertBuffer {s : State} (c : StrmCmd) (ty len mode : Nat) (nansat : Bool) :
    let r := c.sample.rounding mode nansat (c.sample.counter + BitVec.ofNat 32 c.draws)
    Goes (convertBuffer s c.stepped ty len mode nansat) fun t => MicKept s t ∧ t.teams = s.teams ∧ ∃ d, RunsOn s c t d ∧
      d.mpc = c.mpc + 1 ∧ (∀ y ∈ d.buf, y.ty = ty ∧ y.blk = len) ∧
      Converted c d r fun i x y => y = c.convertImage ty len (r.ofImage i) x := by
  intro r
  obtain ⟨tiles, free, hbuf, htiles⟩ := bufferOf_cases s c.stepped
  rw [convertBuffer, hbuf]
  refine goes_putStrm free rfl rfl rfl rfl ⟨rfl, ?_, rfl, fun hne => ?_, fun i x y hx hy => ?_⟩
  · intro y hy
    obtain ⟨p, -, rfl⟩ := List.mem_map.1 hy
    obtain ⟨hty, hblk, -⟩ := convertImage_form c.stepped (ty := ty) len ((c.stepped.sample.rounding mode nansat
      (c.stepped.sample.counter + BitVec.ofNat 32 c.stepped.draws)).ofImage p.2) p.1
    exact ⟨hty, hblk⟩
  · rw [htiles hne]
    refine ⟨by simp [StrmCmd.stepped], ?_⟩
    cases hb : c.buf with
    | nil => exact absurd hb hne
    | cons x l => simp [StrmCmd.stepped, hb, r]
  · have hi : i < c.buf.length := (List.getElem?_eq_some_iff.1 hx).1
    have hne : c.buf ≠ [] := List.ne_nil_of_length_pos (Nat.zero_lt_of_lt hi)
    have himage : y = c.convertImage ty len (r.ofImage i) x := by
      rw [htiles hne] at hy
      simpa [StrmCmd.stepped, StrmCmd.convertImage, Rounding.ofImage, r, hx, eq_comm] using hy
    obtain ⟨-, -, hrows, hcols⟩ := convertImage_form c (ty := ty) len (r.ofImage i) x
    exact ⟨himage ▸ Prod.ext hrows hcols, himage⟩

section

variable {s : State} {c : StrmCmd} (hruns : MicRuns s c)

include hruns

theorem goes_micConv (fmt : BitVec 4) (mode : BitVec 3) :
    let r := c.sample.rounding mode.toNat false (c.sample.counter + BitVec.ofNat 32 c.draws)
    let f := (Num.fmtOfCode fmt.toNat).getD .fp32
    Goes (exec (.micConv fmt mode) s) fun t => MicKept s t ∧ t.teams = s.teams ∧ ∃ d, RunsOn s c t d ∧ d.mpc = c.mpc + 1 ∧
      (∀ y ∈ d.buf, y.ty = fmt.toNat) ∧ (fmt.toNat < 3 → Converted c d r fun i x y => ∀ n, n < y.rows * y.cols →
        Assoc.get 0 y.codes n = Num.roundTo f ((r.ofImage i).ftz && f.flushes) .table ((r.ofImage i).at_ n)
          (c.seenValue (r.ofImage i) x n)) := by
  intro r f
  show Goes (execMicConv fmt mode s) _
  rw [execMicConv, micInstr_runs hruns]
  refine goes_mono (goes_convertBuffer c fmt.toNat 32 mode.toNat false) ?_
  rintro t ⟨hkept, hteams, d, hon, hmpc, hform, hflip, hdraws, himages⟩
  refine ⟨hkept, hteams, d, hon, hmpc, fun y hy => (hform y hy).1, fun hfmt => ⟨hflip, hdraws, fun i x y hx hy => ?_⟩⟩
  obtain ⟨hsize, himage⟩ := himages i x y hx hy
  have hplain : isMx fmt.toNat = false := by simp [isMx, Nat.not_le.2 hfmt]
  have hnan : (r.ofImage i).nansat = false := by
    unfold Rounding.ofImage
    split <;> rfl
  subst himage
  exact ⟨hsize, fun n hn => convertImage_plain c 32 (r.ofImage i) x hplain hnan hn⟩

theorem goes_micQuant (fmt : BitVec 4) (b16 nansat : BitVec 1) (mode : BitVec 3) :
    let r := c.sample.rounding mode.toNat (nansat == 1) (c.sample.counter + BitVec.ofNat 32 c.draws)
    Goes (exec (.micQuant fmt b16 nansat mode) s) fun t => MicKept s t ∧ t.teams = s.teams ∧ ∃ d, RunsOn s c t d ∧
      d.mpc = c.mpc + 1 ∧ (∀ y ∈ d.buf, y.ty = fmt.toNat ∧ y.blk = if b16 = 1 then 16 else 32) ∧
      (3 ≤ fmt.toNat → fmt.toNat ≤ 8 → Converted c d r fun i x y => ∀ b, (b + 1) * y.blk ≤ y.rows * y.cols →
        let q := requantised fmt.toNat y.blk (c.seenValue (r.ofImage i) x) (r.ofImage i) b
        Assoc.get 0 y.scales b = q.scale ∧ (fmt = 8 → Assoc.get 0 y.comps b = q.comp) ∧
        ∀ j, j < y.blk → b * y.blk + j < y.rows * y.cols → Assoc.get 0 y.codes (b * y.blk + j) = q.codes.getD j 0) := by
  intro r
  show Goes (execMicQuant fmt b16 nansat mode s) _
  rw [execMicQuant, micInstr_runs hruns]
  refine goes_mono (goes_convertBuffer c fmt.toNat (if b16 = 1 then 16 else 32) mode.toNat (nansat == 1)) ?_
  rintro t ⟨hkept, hteams, d, hon, hmpc, hform, hflip, hdraws, himages⟩
  refine ⟨hkept, hteams, d, hon, hmpc, hform, fun hlo hhi => ⟨hflip, hdraws, fun i x y hx hy => ?_⟩⟩
  obtain ⟨hsize, himage⟩ := himages i x y hx hy
  have hmx : isMx fmt.toNat = true := by simp [isMx, hlo, hhi]
  have hlen : 0 < if b16 = 1 then 16 else 32 := by split <;> decide
  subst himage
  refine ⟨hsize, fun b hb => ?_⟩
  obtain ⟨hscale, hcomp, hcodes⟩ := convertImage_block c _ (r.ofImage i) x hmx hlen hb
  exact ⟨hscale, fun h8 => hcomp (congrArg BitVec.toNat h8), fun j hj _ => hcodes j hj⟩

end

end Sys2Proof.Machine
end

section
/-! PROOFS. PUSH and LOAD of the coelostat (R194, R314, R350, R351), the limit of its steps, and the micro-operations together. -/

namespace Sys2Proof.Machine

open Sys2Proof.Safety

/-! PUSH (R314, R350). -/

/-- A claim leaves the other rings. -/
theorem Team.ring_claim_other (t : Team) (push : Bool) {r j : Nat} (hj : j ≠ r) : (t.claim push r).2.ring j = t.ring j := by
  unfold Team.claim
  split
  · rfl
  · cases push <;> exact (Team.ring_modRing ..).trans (if_neg hj.symm)

/-- A push claims the producer's position (R314). -/
theorem Team.claim_push {t : Team} {r : Nat} {x : Ring} (h : t.ring r = some x) :
    (t.claim true r).1 = some x.p ∧
      (t.claim true r).2.ring r = some { x with p := x.p + 1, pushOut := x.pushOut ++ [x.p] } := by
  rw [Team.claim, h]
  refine ⟨rfl, (Team.ring_modRing ..).trans ?_⟩
  rw [if_pos rfl, h]
  rfl

/-- The program takes its new form, and its core stays as it is but for it. -/
theorem micKept_putStrm_trans {s t : State} (h : MicKept s t) (d : StrmCmd) : MicKept s (t.putStrm d) ∧
    ((t.putStrm d).coreAt s.core).strm = some d ∧ ((t.putStrm d).coreAt s.core).strmOut = (t.coreAt s.core).strmOut := by
  obtain ⟨hrest, hothers⟩ := h
  have hat : t.core = s.core := (congrArg State.core hrest :)
  have hcore := State.coreAt_putCore t t.core { t.coreAt t.core with strm := some d }
  have hself := (hcore s.core).trans (if_pos hat)
  refine ⟨⟨congrArg (fun u : State => { u with cores := (t.putStrm d).cores }) hrest, fun n hn => ?_⟩, congrArg Core.strm hself, ?_⟩
  · exact ((hcore n).trans (if_neg fun h => hn (h.symm.trans hat))).trans (hothers n hn)
  · exact (congrArg Core.strmOut hself).trans (congrArg (fun n => (t.coreAt n).strmOut) hat)

/-- The program's core takes an output and the program runs on, as its team claims a position. -/
theorem micKept_push (s : State) (free tk : Nat) (t : Team) (o : StrmOut) (d : StrmCmd) :
    let s1 := ({ s with free := free } : State).putTeam tk t
    let u := (s1.putCore s.core { s1.coreAt s.core with strmOut := (s1.coreAt s.core).strmOut ++ [o] }).putStrm d
    MicKept s u ∧ (u.coreAt s.core).strm = some d ∧ (u.coreAt s.core).strmOut = (s.coreAt s.core).strmOut ++ [o] ∧
      u.teamAt tk = t := by
  intro s1 u
  have hout := State.coreAt_putCore s1 s.core { s1.coreAt s.core with strmOut := (s1.coreAt s.core).strmOut ++ [o] } s.core
  obtain ⟨hkept, hstrm, hkeeps⟩ := micKept_putStrm_trans (micKept_putCore s
    { s1.coreAt s.core with strmOut := (s1.coreAt s.core).strmOut ++ [o] } s1.teams free) d
  exact ⟨hkept, hstrm, hkeeps.trans (congrArg Core.strmOut (hout.trans (if_pos rfl))), State.teamAt_putTeam _ tk t⟩

theorem goes_micPush {s : State} {c : StrmCmd} (hruns : MicRuns s c) (ring : BitVec 4) :
    let tk := (s.groupAt c.key).teamKey
    Goes (exec (.micPush ring) s) fun t => MicKept s t ∧ ∃ d o, RunsOn s c t d ∧ d.mpc = c.mpc + 1 ∧
      (t.coreAt s.core).strmOut = (s.coreAt s.core).strmOut ++ [o] ∧ o.key = c.key ∧ o.cmd = c.id ∧ o.ring = ring.toNat ∧
      d.bytes = c.bytes + o.data.length ∧
      (c.buf ≠ [] → d.buf = c.buf ∧ o.data = c.buf.flatMap fun x => (if c.flip then x.transposeCodes else x).linearBytes) ∧
      (∀ j, j ≠ ring.toNat → (t.teamAt tk).ring j = (s.teamAt tk).ring j) ∧
      ∀ x, (s.teamAt tk).ring ring.toNat = some x → o.pos = x.p ∧
        (t.teamAt tk).ring ring.toNat = some { x with p := x.p + 1, pushOut := x.pushOut ++ [x.p] } := by
  intro tk
  obtain ⟨tiles, free, hbuf, htiles⟩ := bufferOf_cases s c.stepped
  show Goes (execMicPush ring s) _
  rw [execMicPush, micInstr_runs hruns, hbuf]
  refine ⟨_, rfl, ?_⟩
  obtain ⟨hkept, hstrm, hout, hteam⟩ := micKept_push s free tk
    { ((s.teamAt tk).claim true ring.toNat).2 with nextOp := ((s.teamAt tk).claim true ring.toNat).2.nextOp + 1 }
    ⟨((s.teamAt tk).claim true ring.toNat).2.nextOp, c.id, c.key, ring.toNat, ((s.teamAt tk).claim true ring.toNat).1.getD 0,
      tiles.flatMap fun x => (if c.flip then x.transposeCodes else x).linearBytes⟩
    { c.stepped with
      buf := tiles
      bytes := c.bytes + (tiles.flatMap fun x => (if c.flip then x.transposeCodes else x).linearBytes).length }
  refine ⟨hkept, _, _, ⟨hstrm, rfl, rfl, rfl, rfl⟩, rfl, hout, rfl, rfl, rfl, rfl, fun hne => ?_, fun j hj => ?_, fun x hx => ?_⟩
  · have hsame : tiles = c.buf := htiles hne
    exact ⟨hsame, by rw [hsame]⟩
  · exact (congrArg (fun t : Team => t.ring j) hteam).trans (Team.ring_claim_other _ true hj)
  · obtain ⟨hpos, hring⟩ := Team.claim_push hx
    exact ⟨by rw [hpos]; rfl, (congrArg (fun t : Team => t.ring ring.toNat) hteam).trans hring⟩

/-! LOAD (R350, R351). -/

theorem withPages_fault {s s1 : State} {tk : Nat} {g : Group} {key : Nat} {write : Bool} {addrs : List Nat} {code : BitVec 16}
    {va : Nat} (h : reachAll s (dieOfCore (s.teamAt tk).core) key write addrs = (.fault code va, s1))
    (hold : Nat → State → Result State) (fail : BitVec 16 → Nat → State → Result State)
    (k : List PagePlace → State → Result State) : withPages s tk g key write addrs hold fail k = fail code va s1 := by
  rw [withPages, h]

/-- Reading lines into the slices changes no byte, and caches alone. -/
theorem touchReads_mem (s : State) (die : Nat) (ps : List PagePlace) (l : List Nat) : (touchReads s die ps l).mem = s.mem :=
  foldl_mem (fun _ _ => touchLine_mem ..) _ _

theorem cachesOnly_touchReads (s : State) (die : Nat) (ps : List PagePlace) (l : List Nat) : CachesOnly s (touchReads s die ps l) :=
  .foldl (fun _ _ => cachesOnly_touchLine ..) _ _

theorem CachesOnly.core {s t : State} (h : CachesOnly s t) : t.core = s.core := by
  obtain ⟨_, _, _, _, rfl⟩ := h
  rfl

theorem mem_strmDone_endProgram (s : State) (d : StrmCmd) : d ∈ ((s.endProgram d).coreAt s.core).strmDone := by
  obtain ⟨-, -, -, hdone⟩ := micKept_endProgram s d
  rw [hdone]
  exact List.mem_append_right _ (List.mem_singleton_self d)

/-- The running program of a state whose caches alone have changed. -/
theorem strm_putStrm_cachesOnly {s t : State} (h : CachesOnly s t) (d : StrmCmd) :
    SameBytes t (t.putStrm d) ∧ (t.putStrm d).groups = s.groups ∧ ((t.putStrm d).coreAt s.core).strm = some d := by
  obtain ⟨-, -, hstrm⟩ := micKept_putStrm t t.free d
  exact ⟨readByte_congr rfl, h.groups, h.core ▸ hstrm⟩

theorem strm_endProgram_cachesOnly {s t : State} (h : CachesOnly s t) (d : StrmCmd) :
    SameBytes t (t.endProgram d) ∧ (t.endProgram d).groups = s.groups ∧ ((t.endProgram d).coreAt s.core).strm = none ∧
      d ∈ ((t.endProgram d).coreAt s.core).strmDone := by
  obtain ⟨-, -, hstrm, -⟩ := micKept_endProgram t d
  exact ⟨readByte_congr rfl, h.groups, h.core ▸ hstrm, h.core ▸ mem_strmDone_endProgram t d⟩

section

variable {s s' : State} {c : StrmCmd} (hruns : MicRuns s c)

include hruns

/-- Once every page of the box is reached, LOAD fills the buffer. -/
theorem goes_micLoad_ok {ps : List PagePlace} :
    let g := s.groupAt c.key
    let sh := shapeOf c.shape
    let place := Place.mem (sh.base false)
    reachAll s (dieOfCore (s.teamAt g.teamKey).core) sh.key false c.loads = (.ok ps, s') →
      Goes (exec .micLoad s) fun t => SameBytes s' t ∧ t.groups = s.groups ∧ ∃ d, (t.coreAt s.core).strm = some d ∧
        d.mpc = c.mpc + 1 ∧ d.steps = c.steps + 1 ∧ d.flip = false ∧
        d.buf = place.tiles s' (s'.teamAt g.teamKey) ps c.sample (sh.view c.handle) := by
  intro g sh place hreach
  have hcaches : CachesOnly s s' := by
    have h := cachesOnly_reachAll s (dieOfCore (s.teamAt g.teamKey).core) sh.key false c.loads
    rwa [hreach] at h
  show Goes (execMicLoad s) _
  rw [execMicLoad, micInstr_runs hruns]
  refine ⟨_, withPages_ok hreach _ _ _, ?_⟩
  have htouched := touchReads_mem s' g.die ps c.loads
  have hall := hcaches.trans (cachesOnly_touchReads s' g.die ps c.loads)
  obtain ⟨hbytes, hgroups, hstrm⟩ := strm_putStrm_cachesOnly hall
    { c.stepped with buf := place.tiles s' (s'.teamAt g.teamKey) ps c.sample (sh.view c.handle), flip := false }
  exact ⟨fun a => (hbytes a).trans (readByte_congr htouched a), hgroups, _, hstrm, rfl, rfl, rfl, rfl⟩

/-- A page that refuses ends the program. -/
theorem goes_micLoad_fault {code : BitVec 16} {va : Nat} :
    let g := s.groupAt c.key
    let sh := shapeOf c.shape
    reachAll s (dieOfCore (s.teamAt g.teamKey).core) sh.key false c.loads = (.fault code va, s') →
      Goes (exec .micLoad s) fun t => SameBytes s' t ∧ t.groups = s.groups ∧ (t.coreAt s.core).strm = none ∧
        ∃ d ∈ (t.coreAt s.core).strmDone, d.key = c.key ∧ d.id = c.id ∧ d.life.fault = code ∧ d.life.addr = va := by
  intro g sh hreach
  have hcaches : CachesOnly s s' := by
    have h := cachesOnly_reachAll s (dieOfCore (s.teamAt g.teamKey).core) sh.key false c.loads
    rwa [hreach] at h
  show Goes (execMicLoad s) _
  rw [execMicLoad, micInstr_runs hruns]
  refine ⟨_, withPages_fault hreach _ _ _, ?_⟩
  obtain ⟨hbytes, hgroups, hstrm, hdone⟩ := strm_endProgram_cachesOnly hcaches { c.stepped with life := c.life.fail code va }
  exact ⟨hbytes, hgroups, hstrm, _, hdone, rfl, rfl, rfl, rfl⟩

end

/-! The limit of steps (R351). -/

/-- Every micro-operation has the common form. -/
theorem exec_micInstr {i : Instr} {fmt ring : BitVec 4} {mode : BitVec 3} {b16 nansat : BitVec 1} {coord ctr : BitVec 2}
    {delta n : BitVec 16} {target : BitVec 6} (hi : i ∈ [Instr.micEnd, .micLoad, .micXpose, .micZero, .micConv fmt mode,
      .micQuant fmt b16 nansat mode, .micPush ring, .micStep coord delta, .micSetc ctr n, .micLoop ctr target]) (s : State) :
    ∃ name body, exec i s = micInstr name s body := by
  simp only [List.mem_cons, List.not_mem_nil, or_false] at hi
  rcases hi with rfl | rfl | rfl | rfl | rfl | rfl | rfl | rfl | rfl | rfl
  · exact ⟨_, _, execMicEnd.eq_def s⟩
  · exact ⟨_, _, execMicLoad.eq_def s⟩
  · exact ⟨_, _, execMicXpose.eq_def s⟩
  · exact ⟨_, _, execMicZero.eq_def s⟩
  · exact ⟨_, _, execMicConv.eq_def fmt mode s⟩
  · exact ⟨_, _, execMicQuant.eq_def fmt b16 nansat mode s⟩
  · exact ⟨_, _, execMicPush.eq_def ring s⟩
  · exact ⟨_, _, execMicStep.eq_def coord delta s⟩
  · exact ⟨_, _, execMicSetc.eq_def ctr n s⟩
  · exact ⟨_, _, execMicLoop.eq_def ctr target s⟩

/-- Past the limit, whichever micro-operation is next ends the program with fault 0x0103. -/
theorem goes_overrun {s : State} {c : StrmCmd} {i : Instr} (hform : ∃ name body, exec i s = micInstr name s body)
    (hc : (s.coreAt s.core).strm = some c) (hwait : c.life.wait = none) (hfault : c.life.fault = 0)
    (hout : (s.coreAt s.core).strmOut.length < 4) (hsteps : 2 ^ 20 ≤ c.steps) :
    Goes (exec i s) fun t => MicKept s t ∧ (t.coreAt s.core).strm = none ∧ ∃ d ∈ (t.coreAt s.core).strmDone,
      d.key = c.key ∧ d.id = c.id ∧ d.life.fault = 0x103 := by
  obtain ⟨name, body, hexec⟩ := hform
  obtain ⟨hkept, -, hstrm, -⟩ := micKept_endProgram s { c with life := c.life.fail 0x103 0 }
  rw [hexec, micInstr_overrun hc hwait hfault hout hsteps]
  exact ⟨_, rfl, hkept, hstrm, _, mem_strmDone_endProgram s _, rfl, rfl, rfl⟩

/-- Settles O30: each micro-operation of a running program by its own rule, LOAD by what its pages answer, and the limit of steps by
the form that all of them share. -/
theorem microOperations : Obligations.MicroOperations := by
  refine ⟨?_, ?_⟩
  · intro s c fmt ring mode b16 nansat coord ctr delta n target k runs value converted hruns
    exact ⟨goes_micEnd hruns, goes_micXpose hruns, goes_micStep hruns coord delta, goes_micSetc hruns ctr n,
      goes_micLoop hruns ctr target, goes_micZero hruns, goes_micConv hruns fmt mode, goes_micQuant hruns fmt b16 nansat mode,
      goes_micPush hruns ring⟩
  · intro s s' c ps code va i fmt ring mode b16 nansat coord ctr delta n target g sh place addrs die
    exact ⟨fun hruns => ⟨goes_micLoad_ok hruns, goes_micLoad_fault hruns⟩, fun hc hwait hfault hout hsteps hi =>
      goes_overrun (exec_micInstr hi s) hc hwait hfault hout hsteps⟩

end Sys2Proof.Machine
end

section
/-! PROOFS. Trap entry (R213, R216, R217, R221), and the ends of teams that traps bring (R217 to R219, R222, R231). -/

namespace Sys2Proof.Machine

open Sys2Proof.Safety

/-! Trap entry (R217). -/

/-- TRAPCAUSE of a trap names the split and the index of a lane stream (R99, R213). -/
theorem causeWord_eq_r99cause_lane (c : Cause) (detail : Nat) (lane : Option (Nat × Nat)) :
    causeWord c detail lane = r99cause c.code detail lane := by
  match lane with
  | none => exact causeWord_eq_r99cause c detail
  | some (split, index) =>
    refine congrArg (BitVec.ofNat 64) ?_
    show _ + _ + (_ + _ + _) = _
    omega

/-- A precise trap outside handler state, in a grid with a trap vector, leaves what trap entry leaves (R217). -/
theorem trapTaken_takeTrap {s : State} (h : TrapsToHandler s) (c : Cause) (detail : Nat) (planes : Mask) (addr : Word) :
    TrapTaken s (takeTrap s c detail planes addr) c.code detail
      (s.cur.lane.map fun i => (i, (s.group.splitAt i).index))
      (match s.cur.lane with
        | none => s.group.pc
        | some i => laneAddr s.grid (s.group.splitAt i).addr) planes addr := by
  rw [takeTrap_toHandler h]
  have hgroup (g : Group) (c e n m : Nat) : ((s.setGroup g).perfEvent c e n m).group = g := State.group_setGroup s g
  simp only [TrapTaken, hgroup]
  refine ⟨causeWord_eq_r99cause_lane c detail _, rfl, rfl, rfl, rfl, rfl, rfl, rfl, rfl, ?_, fun n hn => ?_, rfl, rfl, rfl, rfl, rfl,
    rfl, fun _ => rfl, rfl, rfl, (onlyGroup_setGroup s _).2⟩
  · exact congrArg Aperture.valid ((Group.readA_writeA _ _ _ _).trans (if_pos rfl))
  · exact (Group.readA_writeA _ _ _ _).trans (if_neg hn.symm)

/-- Settles O9: the trap of each kind of stream is one trap entry, and TRAP's is that of the stream that has moved on. -/
theorem trapEntry : Obligations.TrapEntry := by
  intro f c detail planes addr s h
  have htaken := trapTaken_takeTrap h c detail planes addr
  refine ⟨fun hlane => ?_, fun i hlane => ?_, fun hlane hfree => ?_⟩
  · rwa [hlane] at htaken
  · rwa [hlane] at htaken
  · refine ⟨_, show execTrap f s = _ from scalarInstr_free hfree, ?_⟩
    have hmoved : TrapsToHandler (movedOn s 4) := by
      obtain ⟨hhandler, hvec, -⟩ := h
      refine ⟨?_, ?_, .inl hlane⟩
      · rw [movedOn, State.group_setGroup]
        exact hhandler
      · rw [State.grid, movedOn, State.group_setGroup]
        exact hvec
    have hmove := trapTaken_takeTrap hmoved .swtrap f.imm.toNat 0 (s.group.pc.setWidth 64)
    rw [show (movedOn s 4).cur.lane = none from hlane] at hmove
    simp only [movedOn, State.group_setGroup] at hmove
    exact hmove

/-! The end of a team (R231). -/

/-- A group whose lane operations may be tried again, and is otherwise as before. -/
def Woken (g h : Group) : Prop := ∃ f : LaneOp → LaneOp, (∀ o, (f o).logWait = o.logWait) ∧ h = { g with laneOps := g.laneOps.map f }

theorem Woken.refl (g : Group) : Woken g g := ⟨id, fun _ => rfl, by rw [List.map_id]⟩

theorem Woken.trans {g h i : Group} (hgh : Woken g h) (hhi : Woken h i) : Woken g i := by
  obtain ⟨f, hf, rfl⟩ := hgh
  obtain ⟨e, he, rfl⟩ := hhi
  exact ⟨e ∘ f, fun o => (he _).trans (hf o), by simp only [List.map_map]⟩

/-- Every group of a state is one of another whose lane operations may be tried again. -/
def WokenFrom (s t : State) : Prop := ∀ p ∈ t.groups, ∃ g, (p.1, g) ∈ s.groups ∧ Woken g p.2

/-- Entries that leave a side log wake lane operations and nothing else (R271, R272). -/
theorem wakeLog_only (s : State) (c : Nat) : wakeLog s c = { s with groups := (wakeLog s c).groups } ∧ WokenFrom s (wakeLog s c) := by
  unfold wakeLog
  generalize s.coreGroups c = l
  induction l generalizing s with
  | nil => exact ⟨rfl, fun p hp => ⟨p.2, hp, .refl _⟩⟩
  | cons a l ih =>
    obtain ⟨honly, hfrom⟩ := ih (s.modGroup a.1 fun g => { g with
      laneOps := g.laneOps.map fun o => if o.todo != [] && o.logWait.isNone then { o with again := true } else o })
    refine ⟨honly, fun p hp => ?_⟩
    obtain ⟨g, hg, hwoken⟩ := hfrom p hp
    obtain ⟨q, hq, he⟩ := List.mem_map.1 hg
    split at he
    · obtain ⟨hkey, rfl⟩ := Prod.mk.inj he
      refine ⟨q.2, hkey ▸ hq, Woken.trans ⟨_, fun o => ?_, rfl⟩ hwoken⟩
      split <;> rfl
    · subst he
      exact ⟨_, hq, hwoken⟩

/-- What an abort does before the team goes: its unserviced faults and its work in the cores' queues leave, and its record is pended. -/
def abortBegun (s : State) (tk : Nat) (r : FaultRecord) : State :=
  let t := s.teamAt tk
  let ks := (s.teamGroups tk).map (·.1)
  let alone := !(s.groups.any fun p => p.2.grid == t.grid && !ks.contains p.1)
  let u := pendRecord (s.modDies fun d => d.dropFaults t.grid t.index alone) (dieOfCore t.core) r
  wakeLog { u with cores := Assoc.mapVals u.cores fun _ c => c.dropTeam ks } t.core

theorem abortTeam_eq (s : State) (tk : Nat) (gid : BitVec 32) (reason : AbortReason) (cause pc addr : Word) :
    abortTeam s tk gid reason cause pc addr =
      let w := (abortBegun s tk (abortRecord s (s.teamAt tk) gid reason cause pc addr)).modGrid (s.teamAt tk).grid fun x =>
        { x with aborted := x.aborted + 1, reason := if x.aborted = 0 then reason.code else x.reason }
      { w with
        groups := w.groups.filter fun p => !((s.teamGroups tk).map (·.1)).contains p.1
        teams := Assoc.erase w.teams tk
        colls := w.colls.filter fun c => !((s.teamGroups tk).map (·.1)).contains c.key
        cancelled := s.cancelled ++ cancelledOf s (s.teamAt tk) ((s.teamGroups tk).map (·.1)) } := rfl

/-- What an abort has begun: its record is the last of those pending on the team's die, and no core's queue holds the team's work. -/
theorem abortBegun_spec (s : State) (tk : Nat) (r : FaultRecord) :
    WokenFrom s (abortBegun s tk r) ∧ r ∈ ((abortBegun s tk r).dieAt (dieOfCore (s.teamAt tk).core)).faultPend ∧
      (abortBegun s tk r).cores = Assoc.mapVals s.cores fun _ c => c.dropTeam ((s.teamGroups tk).map (·.1)) := by
  unfold abortBegun
  dsimp only
  generalize hv : s.modDies _ = v
  have hv : CachesOnly s v := hv ▸ cachesOnly_modDies s _
  generalize hu : ({ pendRecord v (dieOfCore (s.teamAt tk).core) r with cores := _ } : State) = u
  obtain ⟨honly, hfrom⟩ := wakeLog_only u (s.teamAt tk).core
  have hgroups : u.groups = s.groups := hu ▸ hv.groups
  refine ⟨fun p hp => hgroups ▸ hfrom p hp, ?_, ?_⟩
  · rw [honly, ← hu]
    show r ∈ ((v.putDie _ _).dieAt _).faultPend
    rw [State.dieAt_putDie]
    exact List.mem_append_right _ (List.mem_singleton_self r)
  · obtain ⟨_, _, _, _, rfl⟩ := hv
    rw [honly, ← hu]
    rfl

/-- An abort ends its team (R231). -/
theorem teamEnded_abortTeam (s : State) (tk : Nat) (gid : BitVec 32) (reason : AbortReason) (cause pc addr : Word) :
    TeamEnded s (abortTeam s tk gid reason cause pc addr) tk reason.code := by
  have hkeys {k : Nat} {g : Group} (hg : (k, g) ∈ s.groups) (htk : g.teamKey = tk) :
      ((s.teamGroups tk).map (·.1)).contains k = true :=
    List.contains_iff_mem.2 (List.mem_map.2 ⟨(k, g), List.mem_filter.2 ⟨hg, beq_iff_eq.2 htk⟩, rfl⟩)
  obtain ⟨hfrom, hrecord, hcores⟩ := abortBegun_spec s tk (abortRecord s (s.teamAt tk) gid reason cause pc addr)
  rw [abortTeam_eq]
  refine ⟨fun p hp htk => ?_, ?_, fun k g hg htk c hc => ?_, _, rfl, rfl, rfl, rfl, hrecord⟩
  · obtain ⟨hp, hnot⟩ := List.mem_filter.1 hp
    obtain ⟨g, hg, f, -, he⟩ := hfrom p hp
    rw [he] at htk
    rw [hkeys hg htk] at hnot
    exact Bool.false_ne_true hnot
  · exact (Assoc.find?_erase _ _ _).trans (if_pos rfl)
  · have hc : c ∈ (abortBegun s tk (abortRecord s (s.teamAt tk) gid reason cause pc addr)).cores := hc
    rw [hcores] at hc
    obtain ⟨d, -, rfl⟩ := List.mem_map.1 hc
    have hgone {α : Type} {key : α → Nat} {l : List α} {x : α}
        (hx : x ∈ l.filter fun y => !((s.teamGroups tk).map (·.1)).contains (key y)) : key x ≠ k := by
      rintro rfl
      rw [List.mem_filter, hkeys hg htk] at hx
      exact Bool.false_ne_true hx.2
    exact ⟨fun e he => hgone (key := SideEntry.key) he, fun x hx => hgone (key := TransitCmd.key) hx⟩

/-! Traps that end the team (R217 to R219, R222). -/

/-- A trap in handler state ends the team (R219). -/
theorem teamEnded_takeTrap_inHandler {s : State} (h : s.group.handler = true) (c : Cause) (detail : Nat) (planes : Mask) (addr : Word) :
    TeamEnded s (takeTrap s c detail planes addr) s.group.teamKey 1 := by
  rw [takeTrap_inHandler h]
  exact teamEnded_abortTeam s _ _ .double _ _ _

/-- TRET.abort ends the team (R222). -/
theorem goes_tretAbort {f : SR} {s : State} (h : s.group.handler = true) (hq : s.group.handlerQ = [])
    (hsplit : s.group.hsplit.valid = false) (hops : s.group.scalarOps = []) :
    Goes (exec (.tretAbort f) s) fun t => TeamEnded s t s.group.teamKey 5 := by
  have hfree : Free s [] := by simp only [Free, Group.heldS, hops, List.any_nil]
  refine ⟨_, ?_, teamEnded_abortTeam s _ s.group.gid .tretAbort s.group.trapcause (s.group.trappc.setWidth 64) s.group.trapaddr⟩
  show execTretAbort f s = _
  rw [execTretAbort, tretInstr, scalarInstr_free hfree]
  simp only [h, hq, hsplit, hops, Bool.not_true, Bool.false_eq_true, ne_eq, not_true_eq_false, or_self, if_false]

/-- The instructions that handler state forbids are illegal there (R218). -/
theorem plainInstr_inHandler {regs : List Nat} {s : State} {body : Group → Result State} (hfree : Free s regs)
    (h : s.group.handler = true) : plainInstr regs s body = trapIllop s := (scalarInstr_free hfree).trans (if_pos h)

theorem exec_plain_inHandler {f : SR} {x : SX} {s : State} (hfree : Free s [f.dest.toNat, f.src1.toNat, x.src1.toNat])
    (h : s.group.handler = true) :
    ∀ i ∈ [Instr.launch f, .spawn x, .await f, .exit f, .yield f, .tbar f], exec i s = trapIllop s := by
  simp only [List.forall_mem_cons, List.not_mem_nil, false_implies, implies_true, and_true]
  have hnone : Free s [] := free_mono hfree (by simp)
  exact ⟨show execLaunch f s = _ from plainInstr_inHandler (free_mono hfree (by simp)) h,
    show execSpawn x s = _ from plainInstr_inHandler (free_mono hfree (by simp)) h,
    show execAwait f s = _ from plainInstr_inHandler hnone h, show execExit f s = _ from plainInstr_inHandler hnone h,
    show execYield f s = _ from plainInstr_inHandler hnone h, show execTbar f s = _ from plainInstr_inHandler hnone h⟩

/-- Settles O10: each of these traps is an abort, and an abort ends its team. -/
theorem trapEndsTheTeam : Obligations.TrapEndsTheTeam := by
  intro f x c detail planes addr s k
  refine ⟨fun h => ⟨teamEnded_takeTrap_inHandler h c detail planes addr, goes_tretAbort h, fun _ hfree i hi => ?_⟩,
    fun h hvec hboundary => ?_⟩
  · rw [exec_plain_inHandler hfree h i hi]
    exact ⟨_, rfl, teamEnded_takeTrap_inHandler h _ _ _ _⟩
  · rw [takeTrap_noVector h hvec hboundary]
    exact teamEnded_abortTeam s _ _ .noHandler _ _ _

end Sys2Proof.Machine
end

section
/-! PROOFS. Where the statement on boundary traps and pre-emption fails: at a group that stands under another group's key (R100, R217,
R229). -/

namespace Sys2Proof.Machine

open Sys2Proof.Safety

/-! PREEMPT without a handler (R217): the record that is written is the one of the group whose own key is the event's. -/

/-- A group as it parks when PREEMPT finds no handler: trap entry, and the return from it at once (R217). -/
def preemptedGroup (s : State) (key : Nat) : Group :=
  let g := s.groupAt key
  let grid := s.gridAt g.grid
  (g.enterTrap (trapVector grid) (causeWord .preempt 0 none) g.pc 0 0 none).leaveTrap grid

/-- The state in which a pre-empted group has its slot no more, before its record is written. -/
def preemptedState (s s1 : State) (key : Nat) : State :=
  let h := preemptedGroup s key
  { (s1.putTeam h.teamKey { s.teamAt h.teamKey with hidden := s1.free }).putGroup key h.park with
    free := s1.free + (areaMap (s.putGroup key h.park) h.teamKey).size }

/-- PREEMPT without a handler stores the parts of a record into the pages that were reached. -/
theorem exec_trapEntry_parks {key tk o : Nat} {s s1 : State} {x : Group} {ps : List PagePlace}
    (hrunning : (s.groupAt key).status = .running) (hpending : (s.groupAt key).boundaryPending = true)
    (hboundary : (s.groupAt key).atBoundary = true) (hmismatch : (s.groupAt key).mismatch = []) (hxfererr : (s.groupAt key).xfererr = none)
    (hvec : (s.gridAt (s.groupAt key).grid).record.trapVec = 0) (hcan : canPark s (s.groupAt key) = true)
    (htk : (preemptedGroup s key).teamKey = tk)
    (hrec : (areaMap (s.putGroup key (preemptedGroup s key).park) tk).records.find? (fun r => r.2.key == key) = some (o, x))
    (hpages : areaPages s (preemptedGroup s key).die true (areaAddrs ((saveBase s tk + o) % 2 ^ 56) (recordBytes x)) = (ps, none, s1)) :
    exec (.trapEntry key) s = .next (((recordImage (preemptedState s s1 key) { s.teamAt tk with hidden := s1.free } x o).foldl
      (fun t y => storeReached t (preemptedGroup s key).die ps (saveBase s tk + y.1) y.2) (preemptedState s s1 key)).perfEvent
        (s.groupAt key).core 10 (s.groupAt key).grid 1) := by
  subst htk
  show execTrapEntry key s = _
  rw [execTrapEntry]
  simp only [hrunning, hpending, hboundary, hmismatch, hxfererr, hvec, bne_self_eq_false, Bool.not_true, Bool.or_self,
    Bool.false_eq_true, if_false, if_true]
  rw [parkNow, if_pos hcan]
  show (match parkInArea s key (preemptedGroup s key) with
    | (some t, _) => Host.Outcome.next (t.perfEvent _ _ _ _)
    | (none, t) => .next t) = _
  simp only [parkInArea, hrec, hpages]
  rfl

/-! The two groups of `strayState`, the first now pre-empted in a grid without a trap vector. -/

/-- The first group is out of handler state, with PREEMPT pending. -/
def strayPreempted : State :=
  let s := strayState.putGrid 1 { strayState.gridAt 1 with record := { (strayState.gridAt 1).record with trapVec := 0 } }
  s.setGroup { s.group with handler := false, preempt := true }

/-- The state that the translation of the record's pages leaves. -/
def strayPreemptedReached : State := (areaPages strayPreempted 0 true [0x21000]).2.2

theorem saveBase_strayPreempted : saveBase strayPreempted (keyOf 1 0) = saveBase strayState (keyOf 1 0) := by decide +kernel

theorem strayPreempted_record :
    (areaMap (strayPreempted.putGroup (keyOf 1 0) (preemptedGroup strayPreempted (keyOf 1 0)).park) (keyOf 1 0)).records.find?
      (fun r => r.2.key == keyOf 1 0) = some (622592, strayGroup) := by decide +kernel

theorem strayPreempted_pages :
    areaPages strayPreempted (preemptedGroup strayPreempted (keyOf 1 0)).die true
      (areaAddrs ((saveBase strayPreempted (keyOf 1 0) + 622592) % 2 ^ 56) (recordBytes strayGroup)) =
      (strayPages, none, strayPreemptedReached) := by
  have haddrs : areaAddrs ((saveBase strayPreempted (keyOf 1 0) + 622592) % 2 ^ 56) (recordBytes strayGroup) = [0x21000] := by
    decide +kernel
  have hdie : (preemptedGroup strayPreempted (keyOf 1 0)).die = 0 := by decide +kernel
  rw [haddrs, hdie]
  exact Prod.ext (by decide +kernel) (Prod.ext (by decide +kernel) rfl)

/-- Refutes O51: PREEMPT of a group that stands under another group's key, in a grid without a trap vector, finds that group's record,
and writes there the other group's registers and not its own. The statement asks of no state that its groups stand under their own
keys. -/
theorem not_trapAndPreemptionEvents : ¬ Obligations.TrapAndPreemptionEvents := by
  intro h
  obtain ⟨hboundary, -⟩ := h (keyOf 1 0) 0 0 0 0 0 0 0 [] strayPreempted strayPreemptedReached strayPages
  obtain ⟨-, -, hpreempt, -⟩ := hboundary (by decide +kernel) (by decide +kernel) (by decide +kernel) (by decide +kernel)
  obtain ⟨-, hpark⟩ := hpreempt (by decide +kernel) (by decide +kernel) (by decide +kernel)
  obtain ⟨t, ht, -, -, -, -, -, -, -, -, hs, -, -, -, -, -, -, -, hparts⟩ := hpark (by decide +kernel) (by decide +kernel)
    (by decide +kernel) 622592 strayGroup strayPreempted_record strayPreempted_pages
  have hown : readByte t 0x31008 = 0 := by
    rw [show (strayPreempted.groupAt (keyOf 1 0)).teamKey = keyOf 1 0 by decide +kernel, saveBase_strayPreempted] at hparts
    have hthere : 622592 ≤ 622600 ∧ 622600 < 622592 + recordBytes strayGroup ∧
        ∃ p ∈ strayPages, p.page = (saveBase strayState (keyOf 1 0) + 622600) % 2 ^ 56 / 65536 :=
      ⟨by decide, by decide +kernel, _, List.mem_cons_self .., by decide +kernel⟩
    have hread := hparts (fun i j hi hj => stray_inj ⟨hi.1, hi.2.1⟩ ⟨hj.1, hj.2.1⟩) (622592, (t.groupAt (keyOf 1 0)).visibleImage)
      (List.mem_cons_self ..) 8 _ (t.groupAt (keyOf 1 0)).visibleImage_eight hthere
    have hzero : (t.groupAt (keyOf 1 0)).readS 1 = 0 := (hs 1 (by decide)).trans (by decide +kernel)
    rw [hzero] at hread
    exact (congrArg (readByte t) (stray_byte hthere.1 hthere.2.1)).symm.trans hread
  have hother : readByte t 0x31008 = 1 := by
    have hexec := exec_trapEntry_parks (s := strayPreempted) (key := keyOf 1 0) (by decide +kernel) (by decide +kernel)
      (by decide +kernel) (by decide +kernel) (by decide +kernel) (by decide +kernel) (by decide +kernel) (by decide +kernel)
      strayPreempted_record strayPreempted_pages
    rw [Host.Outcome.next.inj (ht.symm.trans hexec), saveBase_strayPreempted]
    exact (readByte_congr (State.perfEvent_mem _ _ _ _ _) _).trans (readByte_strayRecord _ _ _)
  exact absurd (hown.symm.trans hother) (by decide)

end Sys2Proof.Machine
end

section
/-! PROOFS. What the slices and the orrery change of what a die holds: their directory and their copies, and nothing else (R242 to R245). -/

namespace Sys2Proof.Machine

open Sys2Proof.Safety

/-! What a die holds. -/

theorem State.dieAt_putDie_if (s : State) (d : Nat) (x : Die) (n : Nat) : (s.putDie d x).dieAt n = if d = n then x else s.dieAt n := by
  simp only [State.dieAt, State.putDie, Assoc.find?_put]
  split <;> rfl

theorem dieAt_congr {s t : State} (h : t.dies = s.dies) (n : Nat) : t.dieAt n = s.dieAt n := by unfold State.dieAt; rw [h]

/-- Of what the dies hold no more has changed than the directories and the copies of NC lines. -/
def SlicesKeep (s t : State) : Prop := ∀ n, ∃ rs ls, t.dieAt n = { s.dieAt n with orrery := rs, ncLines := ls }

theorem SlicesKeep.of_eq {s t : State} (h : t.dies = s.dies) : SlicesKeep s t := fun n => ⟨_, _, dieAt_congr h n⟩

theorem SlicesKeep.trans {s t u : State} (hst : SlicesKeep s t) (htu : SlicesKeep t u) : SlicesKeep s u := fun n => by
  obtain ⟨_, _, ht⟩ := hst n
  obtain ⟨rs, ls, hu⟩ := htu n
  exact ⟨rs, ls, by rw [hu, ht]⟩

theorem SlicesKeep.foldl {α : Type} {f : State → α → State} (hf : ∀ s a, SlicesKeep s (f s a)) (l : List α) (s : State) :
    SlicesKeep s (l.foldl f s) := by
  induction l generalizing s with
  | nil => exact .of_eq rfl
  | cons a l ih => exact (hf s a).trans (ih _)

theorem SlicesKeep.ite {p : Prop} [Decidable p] {s t u : State} (ht : SlicesKeep s t) (hu : SlicesKeep s u) :
    SlicesKeep s (if p then t else u) := by
  split
  · exact ht
  · exact hu

theorem SlicesKeep.putDie (s : State) (d : Nat) (rs : List Region) (ls : List (Nat × VecReg)) :
    SlicesKeep s (s.putDie d { s.dieAt d with orrery := rs, ncLines := ls }) := fun n => by
  rw [State.dieAt_putDie_if]
  split
  · subst_vars
    exact ⟨_, _, rfl⟩
  · exact ⟨_, _, rfl⟩

/-! Lines of a slice (R242, R249). -/

@[simp] theorem writeBackLine_dies (s : State) (k : Nat) : (writeBackLine s k).dies = s.dies := by
  unfold writeBackLine
  split
  · split <;> rfl
  · rfl

@[simp] theorem dropLine_dies (s : State) (k : Nat) : (dropLine s k).dies = s.dies := writeBackLine_dies s k

@[simp] theorem runFlush_dies (s : State) (home : Nat) (f : Flush) : (runFlush s home f).dies = s.dies := by
  unfold runFlush
  generalize s.l2.filter _ = l
  induction l generalizing s with
  | nil => rfl
  | cons a l ih =>
    refine (ih _).trans ?_
    split <;> simp

@[simp] theorem runFlushes_dies (l : List Flush) (s : State) (home : Nat) :
    (l.foldl (fun s f => runFlush s home f) s).dies = s.dies := by
  induction l generalizing s with
  | nil => rfl
  | cons a l ih => exact (ih _).trans (runFlush_dies s home a)

/-- Room in a set is made by giving up a line or an NC copy, so that the directories stand. -/
theorem makeRoom_dies (s : State) (die pa n : Nat) : ∃ ls, (makeRoom s die pa).dieAt n = { s.dieAt n with ncLines := ls } := by
  unfold makeRoom
  dsimp only
  split
  · exact ⟨_, rfl⟩
  · split
    · exact ⟨_, dieAt_congr (dropLine_dies s _) n⟩
    · rw [State.dieAt_putDie_if]
      split
      · subst_vars
        exact ⟨_, rfl⟩
      · exact ⟨_, rfl⟩
    · exact ⟨_, rfl⟩

theorem fillLine_dies (s : State) (die pa : Nat) (l : L2Line) (n : Nat) :
    ∃ ls, (fillLine s die pa l).dieAt n = { s.dieAt n with ncLines := ls } := by
  unfold fillLine
  split
  · split <;> exact ⟨_, rfl⟩
  · exact makeRoom_dies s die pa n

/-! The orrery (R243, R244). -/

/-- The state in which the holders have done what a request asks of them, and the home's slice has given up a line that another die
takes to write. -/
def orreryFlushed (s : State) (die pa : Nat) (write : Bool) (l : List Flush) : State :=
  let u := l.foldl (fun s f => runFlush s (homeDie pa) f) s
  if write && die != homeDie pa && (Assoc.find? u.l2 (pa / 128)).isSome then dropLine u (pa / 128) else u

theorem orreryTouch_eq (s : State) (die pa : Nat) (write : Bool) :
    orreryTouch s die pa write =
      let r := orreryServe (s.dieAt (homeDie pa)).orrery (homeDie pa) die (dieOffset pa / 128) write s.cycle.toNat
      let u := orreryFlushed s die pa write r.2
      if r.1 = (u.dieAt (homeDie pa)).orrery then u else u.putDie (homeDie pa) { u.dieAt (homeDie pa) with orrery := r.1 } := rfl

theorem orreryFlushed_dies (s : State) (die pa : Nat) (write : Bool) (l : List Flush) : (orreryFlushed s die pa write l).dies = s.dies := by
  unfold orreryFlushed
  dsimp only
  split <;> simp

/-- A request of another die for a line that no entry covers brings an entry of its own (R244, R376). -/
theorem orreryServe_fresh {rs : List Region} {home requester line : Nat} {write : Bool} {now : Nat}
    (hfind : (rs.find? fun r => r.covers line) = none) (hne : requester ≠ home) :
    orreryServe rs home requester line write now =
      let kept := rs.filter fun x => !(victim rs 1).toList.contains x
      let j := newRegionSize kept line
      (kept ++ [⟨line / 2 ^ j * 2 ^ j, j, if write then .m else .e, dieBit requester, now, now⟩],
        (victim rs 1).toList.map fun r => ⟨r, r.holders, true⟩) := by
  simp only [orreryServe, hfind, if_neg hne]

/-- A read of another die that conflicts with nobody adds the die to the holders of its region (R244). -/
theorem orreryServe_shared {rs : List Region} {r : Region} {home requester line now : Nat}
    (hfind : (rs.find? fun r => r.covers line) = some r) (hquiet : conflicts r home requester false = false) (hne : requester ≠ home) :
    orreryServe rs home requester line false now =
      ((rs.filter fun x => x != r) ++ [{ r with holders := r.holders ||| dieBit requester, age := now }], []) := by
  simp only [orreryServe, hfind, hquiet, if_neg hne, Bool.false_eq_true, if_false]

/-- A request leaves its home the entries that its orrery serves it with. -/
theorem orrery_orreryTouch (s : State) (die pa : Nat) (write : Bool) :
    ((orreryTouch s die pa write).dieAt (homeDie pa)).orrery =
      (orreryServe (s.dieAt (homeDie pa)).orrery (homeDie pa) die (dieOffset pa / 128) write s.cycle.toNat).1 := by
  rw [orreryTouch_eq]
  dsimp only
  split
  · next h => exact h.symm
  · rw [State.dieAt_putDie]

theorem SlicesKeep.orreryTouch (s : State) (die pa : Nat) (write : Bool) : SlicesKeep s (orreryTouch s die pa write) := by
  rw [orreryTouch_eq]
  exact (SlicesKeep.of_eq (orreryFlushed_dies s die pa write _)).trans (.ite (.of_eq rfl) (.putDie _ _ _ _))

theorem SlicesKeep.touchSlice (s : State) (die pa : Nat) (write fill : Bool) (stored : Option Bool) :
    SlicesKeep s (touchSlice s die pa write fill stored) := by
  have horrery : SlicesKeep s (if ownCopy s die pa write then s else Machine.orreryTouch s die pa write) :=
    .ite (.of_eq rfl) (.orreryTouch s die pa write)
  unfold Machine.touchSlice
  dsimp only
  split
  · exact horrery.trans fun n => ⟨_, fillLine_dies _ die pa _ n⟩
  · exact .ite (horrery.trans (.of_eq rfl)) horrery

theorem SlicesKeep.touchFrom (s : State) (die pa : Nat) (write : Bool) : SlicesKeep s (touchFrom s die pa write) :=
  .ite (.of_eq rfl) (.touchSlice _ _ _ _ _ _)

theorem SlicesKeep.touchLine (s : State) (die pa : Nat) (leaf : Word) (write : Bool) : SlicesKeep s (touchLine s die pa leaf write) :=
  .ite (.of_eq rfl) (.ite (.ite (.of_eq rfl) (.of_eq rfl)) (.touchSlice _ _ _ _ _ _))

/-- A read of a line of another die, which no slice of the reader's holds, leaves the home what its orrery serves the read with. -/
theorem orrery_touchFrom_read {s : State} {die pa : Nat} (hspace : spaceOf pa = 0) (hown : ownCopy s die pa false = false) :
    ((touchFrom s die pa false).dieAt (homeDie pa)).orrery =
      (orreryServe (s.dieAt (homeDie pa)).orrery (homeDie pa) die (dieOffset pa / 128) false s.cycle.toNat).1 := by
  rw [← orrery_orreryTouch, touchFrom, if_neg (not_not_intro hspace), touchSlice, hown]
  simp only [Bool.false_eq_true, if_false]
  split
  · obtain ⟨_, h⟩ := fillLine_dies (orreryTouch s die pa false) die pa ⟨false, Assoc.get 1 s.tags (pa / 128) != 0⟩ (homeDie pa)
    rw [h]
  · rfl

/-- A read of a line that a slice of the reader's own die holds changes nothing. -/
theorem touchFrom_own {s : State} {die pa : Nat} (hown : ownCopy s die pa false = true) : touchFrom s die pa false = s := by
  have hheld : (Assoc.find? s.l2 (l2Key die pa)).isSome = true := by
    simp only [ownCopy, Bool.and_eq_true] at hown
    exact hown.1.2
  obtain ⟨l, hl⟩ := Option.isSome_iff_exists.1 hheld
  rw [touchFrom, touchSlice, if_pos hown, hl]
  exact ite_self s

/-- The node caches of a die take nodes, and nothing else of a die changes (R358). -/
theorem cacheNodes_dies (s : State) (die : Nat) (l : List NodeEntry) (n : Nat) :
    ∃ ns, (cacheNodes s die l).dieAt n = { s.dieAt n with nodes := ns } := by
  unfold cacheNodes
  dsimp only
  split
  · exact ⟨_, rfl⟩
  · rw [State.dieAt_putDie_if]
    split
    · subst_vars
      exact ⟨_, rfl⟩
    · exact ⟨_, rfl⟩

end Sys2Proof.Machine
end

section
/-! PROOFS. Where the statement on translations fails: at a walk whose own reads make a full directory give up a region that is cut off
(R232, R244, R245, R355). -/

namespace Sys2Proof.Machine

open Sys2Proof.Safety

/-! A directory that is full (R245): its oldest entry is a region whose holder, die 2, a failed link has cut off from the home, die 0. -/

/-- The region of one line, at 64 GiB. -/
def cutRegion : Region := ⟨2 ^ 29, 0, .e, dieBit 2, 0, 0⟩

/-- The directory's other entries, each of a line beyond the first 1,024. -/
def youngRegions : List Region := (List.range (directorySize - 1)).map fun i => ⟨1024 + i, 0, .e, dieBit 3, 0, 1⟩

/-- The region that a read of one of the first lines then brings, for die 1. -/
def readRegion : Region := ⟨0, 9, .e, dieBit 1, 0, 0⟩

theorem mem_youngRegions {r : Region} (h : r ∈ youngRegions) : 1024 ≤ r.line ∧ r.line < 2 ^ 29 ∧ r.j = 0 ∧ r.age = 1 := by
  obtain ⟨i, hi, rfl⟩ := List.mem_map.1 h
  have hi : i < 32767 := List.mem_range.1 hi
  exact ⟨Nat.le_add_right _ _, show 1024 + i < 2 ^ 29 by omega, rfl, rfl⟩

/-- No other entry covers one of the first lines, nor the line of the region that is cut off. -/
theorem youngRegions_covers {r : Region} (h : r ∈ youngRegions) {line : Nat} (hline : line < 1024 ∨ 2 ^ 29 ≤ line) :
    r.covers line = false := by
  obtain ⟨hlow, hhigh, hj, -⟩ := mem_youngRegions h
  simp only [Region.covers, hj, Bool.and_eq_false_iff, decide_eq_false_iff_not]
  omega

theorem find?_youngRegions {line : Nat} (hline : line < 1024) (l : List Region) :
    (youngRegions ++ l).find? (fun r => r.covers line) = l.find? fun r => r.covers line := by
  rw [List.find?_append, List.find?_eq_none.2 fun r hr => by rw [youngRegions_covers hr (.inl hline)]; exact Bool.false_ne_true,
    Option.none_or]

/-- The full directory gives up the region that is cut off. -/
theorem victim_cutRegion : victim (cutRegion :: youngRegions) 1 = some cutRegion := by
  have hlength : (cutRegion :: youngRegions).length = directorySize := by
    rw [List.length_cons, youngRegions, List.length_map, List.length_range]
    rfl
  have holdest (m : Nat) : (cutRegion :: youngRegions).foldl (fun m r => min m r.age) m = 0 := by
    rw [List.foldl_cons, show cutRegion.age = 0 from rfl, Nat.min_zero, foldl_fixed fun r _ => Nat.zero_min r.age]
  rw [victim, if_neg (by rw [hlength]; exact Nat.not_succ_le_self _), holdest]
  rfl

/-- A read of the first line by die 1 puts a region of its own in that place. -/
theorem orreryServe_full : (orreryServe (cutRegion :: youngRegions) 0 1 0 false 0).1 = youngRegions ++ [readRegion] := by
  have hnone : ((cutRegion :: youngRegions).find? fun r => r.covers 0) = none := by
    rw [List.find?_cons_of_neg (by decide), ← List.append_nil youngRegions, find?_youngRegions (by decide)]
    rfl
  have hkept : ((cutRegion :: youngRegions).filter fun x => !(some cutRegion).toList.contains x) = youngRegions := by
    rw [List.filter_cons_of_neg (by decide)]
    refine List.filter_eq_self.2 fun r hr => ?_
    have hne : r ≠ cutRegion := fun he => absurd (he ▸ (mem_youngRegions hr).2.1) (Nat.lt_irrefl _)
    simpa using hne
  have hsize : newRegionSize youngRegions 0 = 9 := by
    have hfits : (youngRegions.any fun r => r.overlaps (0 / 2 ^ 9 * 2 ^ 9) 9) = false := List.any_eq_false.2 fun r hr => by
      have hline := (mem_youngRegions hr).1
      simp only [Region.overlaps, Bool.and_eq_true, decide_eq_true_eq]
      omega
    rw [newRegionSize, show (List.range 10).reverse = 9 :: [8, 7, 6, 5, 4, 3, 2, 1, 0] by decide, List.find?_cons_of_pos (by rw [hfits]; rfl),
      Option.getD_some]
  rw [orreryServe_fresh hnone (by decide)]
  simp only [victim_cutRegion, hkept, hsize]
  rfl

/-- A later read by die 1 of one of the first lines leaves those entries. -/
theorem orreryServe_again {line : Nat} (h : line < 512) :
    (orreryServe (youngRegions ++ [readRegion]) 0 1 line false 0).1 = youngRegions ++ [readRegion] := by
  have hfind : ((youngRegions ++ [readRegion]).find? fun r => r.covers line) = some readRegion := by
    rw [find?_youngRegions (by omega), List.find?_cons_of_pos]
    simpa [Region.covers, readRegion] using h
  have hkept : ((youngRegions ++ [readRegion]).filter fun x => x != readRegion) = youngRegions := by
    rw [List.filter_append, List.filter_eq_self.2, List.filter_cons_of_neg (by decide), List.filter_nil, List.append_nil]
    intro r hr
    have hne : r ≠ readRegion := fun he => absurd (he ▸ (mem_youngRegions hr).2.2.1) (by decide)
    simpa using hne
  rw [orreryServe_shared hfind (by decide) (by decide), hkept]
  rfl

/-! A walk by die 1 in tables that stand at the beginning of die 0. -/

/-- A state of that directory, whose root's first entry names the node at 8 KiB, and that node's first entry maps the region that is
cut off. -/
def cutState : State :=
  let s := { State.reset with links := [(0, 2)] }
  let s := s.putDie 0 { s.dieAt 0 with orrery := cutRegion :: youngRegions }
  writeNat (writeNat s 0 8 0x8000000000001000) 8192 8 0xC000000100000000

/-- The leaf that the walk finds, with its accessed bit. -/
def cutLeaf : Word := 0xC000000100000040

theorem walkBy_cutState : walkBy cutState 1 0 = .leaf 0xC000000100000000 8192 1 := by decide +kernel

theorem cutOff_cutState : cutOff cutState (2 ^ 36) = true := by decide +kernel

theorem walkReads_cutState : walkReads 0 (walkStart cutState 1 0) (walkNodes cutState 0 (walkStart cutState 1 0).1 (walkStart cutState 1 0).2) =
    [0, 8192] := by decide +kernel

/-- The walk's reads leave the directory without the region that is cut off. -/
theorem orrery_afterReads (l : List NodeEntry) :
    ((([0, 8192].foldl (fun s a => touchFrom s 1 a false) (cacheNodes cutState 1 l)).dieAt 0).orrery) = youngRegions ++ [readRegion] := by
  have hcaches := cachesOnly_cacheNodes cutState 1 l
  have hfirst : ((touchFrom (cacheNodes cutState 1 l) 1 0 false).dieAt 0).orrery = youngRegions ++ [readRegion] := by
    have hown : ownCopy (cacheNodes cutState 1 l) 1 0 false = false := by
      have hempty : (cacheNodes cutState 1 l).l2 = [] := by
        unfold cacheNodes
        dsimp only
        split <;> rfl
      rw [ownCopy, hempty]
      rfl
    have h := orrery_touchFrom_read (s := cacheNodes cutState 1 l) (die := 1) (pa := 0) rfl hown
    rw [hcaches.coresOnly.clock.1] at h
    refine h.trans (Eq.trans ?_ orreryServe_full)
    obtain ⟨_, hnodes⟩ := cacheNodes_dies cutState 1 l (homeDie 0)
    rw [hnodes]
    rfl
  rw [List.foldl_cons, List.foldl_cons, List.foldl_nil]
  have hclock := ((hcaches.trans (cachesOnly_touchFrom _ 1 0 false))).coresOnly.clock.1
  generalize touchFrom (cacheNodes cutState 1 l) 1 0 false = u at hfirst hclock
  by_cases hown : ownCopy u 1 8192 false = true
  · rw [touchFrom_own hown, hfirst]
  · have h := orrery_touchFrom_read (s := u) (die := 1) (pa := 8192) rfl (Bool.eq_false_iff.2 hown)
    rw [show homeDie 8192 = 0 from rfl, hfirst, hclock] at h
    exact h.trans (orreryServe_again (by decide))

/-- In a directory without that region the leaf's frame is answered. -/
theorem leafAnswer_uncut {u : State} (h : (u.dieAt 0).orrery = youngRegions ++ [readRegion]) :
    leafAnswer u cutLeaf 0 (2 ^ 36) 0 false = .ok (2 ^ 36) cutLeaf := by
  have huncut : cutOff u (2 ^ 36) = false := by
    rw [cutOff, show homeDie (2 ^ 36) = 0 by decide, h, List.any_append, List.any_eq_false.2 fun r hr => by
      rw [youngRegions_covers hr (.inr (by decide))]
      exact Bool.false_ne_true]
    exact Bool.and_false _
  have haddress : leafFrame cutLeaf * 65536 + (0 - 0) = 2 ^ 36 := by decide
  have hprot : leafProt u cutLeaf (2 ^ 36) false = false := rfl
  rw [leafAnswer, haddress]
  simp only [huncut, hprot, Bool.false_and, Bool.false_eq_true, if_false]
  exact if_neg fun hlost => absurd hlost.1 (by decide)

theorem translate_cutState : (translate cutState 1 0 false).1 = .ok (2 ^ 36) cutLeaf := by
  have hnone : tlbFind (cutState.dieAt 1) 0 = none := by decide +kernel
  rw [translate, hnone, translateByWalk, walkBy_cutState]
  dsimp only
  rw [walkReads_cutState]
  exact leafAnswer_uncut (orrery_afterReads _)

/-- Refutes O55: the entries that a walk reads take a line of a full directory, which then gives up its oldest region; when that is the
region of the answered address, and its fan-out has lost a die, the translation answers the address all the same. -/
theorem not_translation : ¬ Obligations.Translation := by
  intro h
  obtain ⟨-, -, -, -, -, -, hok⟩ := h 1 0 false cutState _ _ (Prod.eta (translate cutState 1 0 false)).symm
  obtain ⟨-, hcut, -⟩ := hok _ _ translate_cutState
  exact Bool.false_ne_true (hcut.symm.trans cutOff_cutState)

end Sys2Proof.Machine
end

section
/-! PROOFS. Fault records that are in a queue (R320, R321): translations, accesses and traps put none there. -/

namespace Sys2Proof.Machine

open Sys2Proof.Safety

/-! The queued records of the dies. -/

/-- No die's queue has a record that it did not have. -/
def FaultsKept (s t : State) : Prop := ∀ n, ∀ q ∈ (t.dieAt n).faults, q ∈ (s.dieAt n).faults

theorem FaultsKept.of_eq {s t : State} (h : t.dies = s.dies) : FaultsKept s t := fun n _ hq => dieAt_congr h n ▸ hq

theorem FaultsKept.refl (s : State) : FaultsKept s s := .of_eq rfl

theorem FaultsKept.trans {s t u : State} (hst : FaultsKept s t) (htu : FaultsKept t u) : FaultsKept s u :=
  fun n q hq => hst n q (htu n q hq)

theorem FaultsKept.foldl {α : Type} {f : State → α → State} (hf : ∀ s a, FaultsKept s (f s a)) (l : List α) (s : State) :
    FaultsKept s (l.foldl f s) := by
  induction l generalizing s with
  | nil => exact .refl s
  | cons a l ih => exact (hf s a).trans (ih _)

theorem FaultsKept.putDie {s : State} {d : Nat} {x : Die} (h : ∀ q ∈ x.faults, q ∈ (s.dieAt d).faults) : FaultsKept s (s.putDie d x) := by
  intro n q hq
  rw [State.dieAt_putDie_if] at hq
  split at hq
  · next hn => exact hn ▸ h q hq
  · exact hq

theorem FaultsKept.modDies (s : State) {f : Die → Die} (hf : ∀ x, ∀ q ∈ (f x).faults, q ∈ x.faults) : FaultsKept s (s.modDies f) :=
  .foldl (f := fun s d => s.putDie d (f (s.dieAt d))) (fun _ _ => .putDie (hf _)) _ s

theorem SlicesKeep.faults {s t : State} (h : SlicesKeep s t) : FaultsKept s t := fun n q hq => by
  obtain ⟨_, _, ht⟩ := h n
  rwa [ht] at hq

/-! An access of a core. -/

/-- Of the device no more has changed than what an access may change, and no queue has taken a record. -/
structure Accessed (s t : State) : Prop where
  only : CoresOnly s t
  faults : FaultsKept s t

theorem Accessed.refl (s : State) : Accessed s s := ⟨.refl s, .refl s⟩

theorem Accessed.trans {s t u : State} (hst : Accessed s t) (htu : Accessed t u) : Accessed s u :=
  ⟨hst.only.trans htu.only, hst.faults.trans htu.faults⟩

theorem Accessed.foldl {α : Type} {f : State → α → State} (hf : ∀ s a, Accessed s (f s a)) (l : List α) (s : State) :
    Accessed s (l.foldl f s) := ⟨.foldl (fun s a => (hf s a).only) l s, .foldl (fun s a => (hf s a).faults) l s⟩

theorem Accessed.ite {p : Prop} [Decidable p] {s t u : State} (ht : Accessed s t) (hu : Accessed s u) : Accessed s (if p then t else u) := by
  split
  · exact ht
  · exact hu

theorem Accessed.slices {s t : State} (hc : CachesOnly s t) (hk : SlicesKeep s t) : Accessed s t := ⟨hc.coresOnly, hk.faults⟩

theorem Accessed.putDie {s : State} {d : Nat} {x : Die} (h : x.faults = (s.dieAt d).faults) : Accessed s (s.putDie d x) :=
  ⟨(CachesOnly.putDie s d x).coresOnly, .putDie fun _ hq => h ▸ hq⟩

theorem Accessed.putCore (s : State) (n : Nat) (c : Core) : Accessed s (s.putCore n c) := ⟨.putCore s n c, .of_eq rfl⟩

theorem Accessed.perfEvent (s : State) (c e g n : Nat) : Accessed s (s.perfEvent c e g n) := ⟨.perfEvent s c e g n, .of_eq rfl⟩

theorem writeBytes_dies (s : State) (a : Nat) (bs : List Byte) : (writeBytes s a bs).dies = s.dies := by
  induction bs generalizing s a with
  | nil => rfl
  | cons b t ih => exact ih _ _

theorem Accessed.writeBytes (s : State) (a : Nat) (bs : List Byte) : Accessed s (writeBytes s a bs) :=
  ⟨(cachesOnly_writeBytes s a bs).coresOnly, .of_eq (writeBytes_dies s a bs)⟩

theorem SlicesKeep.writeRaw (s : State) (a : Nat) (bs : List Byte) : SlicesKeep s (writeRaw s a bs) :=
  (SlicesKeep.foldl (fun s a => .touchFrom s _ a true) _ s).trans (.of_eq (writeBytes_dies _ a bs))

theorem Accessed.touchFrom (s : State) (d a : Nat) (w : Bool) : Accessed s (touchFrom s d a w) :=
  .slices (cachesOnly_touchFrom s d a w) (.touchFrom s d a w)

theorem Accessed.touchLine (s : State) (d a : Nat) (e : Word) (w : Bool) : Accessed s (touchLine s d a e w) :=
  .slices (cachesOnly_touchLine s d a e w) (.touchLine s d a e w)

/-! Translation (R355 to R358). -/

theorem Accessed.endWalk (s : State) (d a : Nat) : Accessed s (endWalk s d a) := .ite (.putDie rfl) (.refl s)

theorem Accessed.takeLeaf (s : State) (d a at_ b n : Nat) (e : Word) (w : Bool) : Accessed s (takeLeaf s d a at_ b n e w) :=
  ((Accessed.endWalk s d a).trans
    (.ite (.refl _) ((Accessed.touchFrom _ _ _ _).trans (.writeBytes _ _ _)))).trans (.putDie rfl)

theorem Accessed.awaitNode (s : State) (d a l : Nat) : Accessed s (awaitNode s d a l).2 := by
  unfold Machine.awaitNode
  dsimp only
  split
  · exact .refl s
  · exact .refl s
  · exact .putDie rfl

theorem Accessed.translateByWalk (s : State) (d a : Nat) (w : Bool) : Accessed s (translateByWalk s d a w).2 := by
  have hreads (l : List Nat) (nodes : List NodeEntry) :
      Accessed s (l.foldl (fun s a => Machine.touchFrom s d a false) (cacheNodes s d nodes)) :=
    (show Accessed s (cacheNodes s d nodes) from .ite (.refl s) (.putDie rfl)).trans (.foldl (fun s a => .touchFrom s d a false) l _)
  unfold Machine.translateByWalk
  dsimp only
  split
  · exact (hreads _ _).trans (.takeLeaf _ _ _ _ _ _ _ _)
  · exact (hreads _ _).trans (.endWalk _ _ _)
  · exact (hreads _ _).trans (.endWalk _ _ _)
  · exact (hreads _ _).trans (.endWalk _ _ _)
  · exact (hreads _ _).trans (.awaitNode _ _ _ _)
  · exact hreads _ _

theorem Accessed.translateCore (s : State) (c a : Nat) (w : Bool) : Accessed s (translateCore s c a w).2 := by
  have htrans : Accessed s (translate s (dieOfCore c) a w).2 := by
    unfold translate
    split
    · split
      · exact .translateByWalk s _ a w
      · exact .refl s
    · exact .translateByWalk s _ a w
  have hbelow : Accessed s (cacheCore (translate s (dieOfCore c) a w).2 c a) := by
    refine htrans.trans ?_
    unfold cacheCore
    split
    · exact .putCore _ c _
    · exact .refl _
  unfold Machine.translateCore
  dsimp only
  split
  · split
    · exact hbelow
    · exact .refl s
  · exact hbelow

theorem Accessed.xlatPart (s : State) (c a n : Nat) (w : Bool) : Accessed s (xlatPart s c a n w).2 := by
  have htrans := (Accessed.translateCore s c a w).trans
    (.perfEvent _ c 5 (((Machine.translateCore s c a w).2.groupAt (Machine.translateCore s c a w).2.cur.key).grid)
      (if tlbMisses s c a then 1 else 0))
  unfold Machine.xlatPart
  dsimp only
  split <;> exact htrans

theorem Accessed.checkAcc (s : State) (c : Nat) (a : Acc) : Accessed s (checkAcc s c a).2 := by
  have hrange : Accessed s (xlatRange s c a.va a.bytes a.kind.writes).2 := by
    unfold xlatRange
    dsimp only
    split
    · exact .xlatPart _ _ _ _ _
    · exact (Accessed.xlatPart _ _ _ _ _).trans (.xlatPart _ _ _ _ _)
  unfold Machine.checkAcc
  split
  · next h =>
    rw [h] at hrange
    repeat' split
    all_goals exact hrange
  · next h =>
    rw [h] at hrange
    split <;> exact hrange
  · exact hrange

theorem Accessed.checkAll (s : State) (c : Nat) (l : List Acc) : Accessed s (checkAll s c l).2 := by
  induction l generalizing s with
  | nil => exact .refl s
  | cons a l ih => exact (Accessed.checkAcc s c a).trans (ih _)

/-! Page service is asked for (R215, R321): a record is pended, and not yet in the queue. -/

theorem Accessed.askService (s : State) (die : Nat) (g : Group) (kind level base size detail : Nat) :
    Accessed s (askService s die g kind level base size detail) := .ite (.refl s) (.putDie rfl)

theorem Accessed.askAcc (s : State) (core : Nat) (g : Group) (a : Acc) : Accessed s (askAcc s core g a) := by
  refine Accessed.foldl (fun u va => ?_) _ s
  have htrans := Accessed.translateCore u core va a.kind.writes
  split
  · next h =>
    rw [h] at htrans
    exact htrans.trans (.askService ..)
  · exact .refl u

theorem Accessed.askAll (s : State) (core : Nat) (g : Group) (l : List (Acc × Verdict)) : Accessed s (askAll s core g l) := by
  induction l generalizing s with
  | nil => exact .refl s
  | cons x l ih =>
    obtain ⟨a, v⟩ := x
    cases v with
    | service kind level base size => exact (Accessed.askAcc s core g a).trans (ih _)
    | _ => exact ih s

/-! Loads and stores (R241, R257, R271). -/

theorem Accessed.dieLine (s : State) (d a : Nat) (e : Word) : Accessed s (dieLine s d a e).2 := by
  have hroom : Accessed s (makeRoom s d a) := .slices (cachesOnly_makeRoom s d a) fun n => ⟨_, makeRoom_dies s d a n⟩
  unfold Machine.dieLine
  dsimp only
  split
  · exact .refl s
  · split
    · split
      · exact .ite (.refl s) (hroom.trans (.putDie rfl))
      · exact .refl s
    · exact .ite (.refl s) (hroom.trans (.putDie rfl))

theorem Accessed.l1Line (s : State) (c a : Nat) (e : Word) : Accessed s (l1Line s c a e).2 := by
  have hfill : Accessed s (fillL1 s c a e).2 := (Accessed.dieLine s (dieOfCore c) a e).trans (.putCore _ c _)
  unfold Machine.l1Line
  split
  · split
    · exact .refl s
    · exact hfill
  · exact hfill

theorem Accessed.l1Bytes (s : State) (c a : Nat) (e : Word) (n : Nat) : Accessed s (l1Bytes s c a e n).2 := by
  induction n generalizing s a with
  | zero => exact .refl s
  | succ n ih => exact (Accessed.l1Line s c a e).trans (ih _ _)

theorem Accessed.invalidateL1 (s : State) (c : Nat) : Accessed s (invalidateL1 s c) := by
  have hcore : Accessed s (if (s.coreAt c).l1.isEmpty then s else s.putCore c { s.coreAt c with l1 := [] }) :=
    .ite (.refl s) (.putCore s c _)
  have hdies : (if (s.coreAt c).l1.isEmpty then s else s.putCore c { s.coreAt c with l1 := [] }).dies = s.dies := by split <;> rfl
  exact .ite hcore (hcore.trans (.putDie (by rw [dieAt_congr hdies])))

theorem Accessed.loadPieces (s : State) (c : Nat) (ps : List Piece) (acq : Bool) : Accessed s (loadPieces s c ps acq).2 := by
  have hread (s : State) (p : Piece) : Accessed s (coreRead s c p.pa p.n p.leaf acq).2 := by
    have htouch := Accessed.touchLine s (dieOfCore c) p.pa p.leaf false
    unfold coreRead
    dsimp only
    split
    · exact htouch.trans (.invalidateL1 _ c)
    · split
      · exact htouch.trans (.l1Bytes _ c _ _ _)
      · exact htouch
  induction ps generalizing s with
  | nil => exact .refl s
  | cons p ps ih => exact ((hread s p).trans (.perfEvent _ _ _ _ _)).trans (ih _)

theorem Accessed.rmwRead (s : State) (c : Nat) (ps : List Piece) (acq : Bool) : Accessed s (rmwRead s c ps acq).2 := by
  induction ps generalizing s with
  | nil => exact .refl s
  | cons p ps ih =>
    have hread : Accessed s (if atomicInL1 p.pa p.leaf then Machine.l1Bytes s c p.pa p.leaf p.n else (readBytes s p.pa p.n, s)).2 := by
      split
      · exact .l1Bytes s c _ _ _
      · exact .refl s
    have hrest := hread.trans (ih _)
    exact .ite (hrest.trans (.invalidateL1 _ c)) hrest

theorem Accessed.patchAll (s : State) (c a : Nat) (bs : List Byte) : Accessed s (patchAll s c a bs) := by
  have hpatch (s : State) (a : Nat) (b : Byte) : Accessed s (patchCopies s c a b) := by
    unfold patchCopies
    dsimp only
    repeat' split
    · exact (Accessed.putCore s c _).trans (.putDie rfl)
    · exact .putDie rfl
    · exact .putCore s c _
    · exact .refl s
  induction bs generalizing s a with
  | nil => exact .refl s
  | cons b t ih => exact (hpatch s a b).trans (ih _ _)

theorem Accessed.storePieces (s : State) (c : Nat) (ps : List Piece) (bs : List Byte) : Accessed s (storePieces s c ps bs) := by
  induction ps generalizing s bs with
  | nil => exact .refl s
  | cons p ps ih =>
    exact (((Accessed.touchLine s _ p.pa p.leaf true).trans (.writeBytes _ p.pa _)).trans (.patchAll _ c p.pa _)).trans (ih _ _)

theorem Accessed.sendStore (s : State) (c key : Nat) (a : Acc) (ps : List Piece) : Accessed s (sendStore s c key a ps) := by
  unfold Machine.sendStore
  split
  · exact .refl s
  · exact .putCore s c _

theorem Accessed.synchronise (s : State) (c : Nat) (ps : List Piece) : Accessed s (synchronise s c ps) := by
  refine Accessed.foldl (fun s p => ?_) ps s
  split
  · exact ⟨⟨_, _, _, _, _, rfl⟩, .of_eq rfl⟩
  · exact .refl s

end Sys2Proof.Machine
end

section
/-! PROOFS. The completion of page service (R215, R321, R404): the record leaves its queue, and no other record enters one. -/

namespace Sys2Proof.Machine

open Sys2Proof.Safety

/-! Traps and the ends of teams pend records, and queue none (R217, R231, R273). -/

theorem FaultsKept.ite {p : Prop} [Decidable p] {s t u : State} (ht : FaultsKept s t) (hu : FaultsKept s u) :
    FaultsKept s (if p then t else u) := by
  split
  · exact ht
  · exact hu

theorem FaultsKept.pendRecord (s : State) (die : Nat) (r : FaultRecord) : FaultsKept s (pendRecord s die r) := .putDie fun _ => id

theorem FaultsKept.wakeLog (s : State) (c : Nat) : FaultsKept s (wakeLog s c) := .of_eq (by rw [(wakeLog_only s c).1])

theorem FaultsKept.abortTeam (s : State) (tk : Nat) (gid : BitVec 32) (reason : AbortReason) (cause pc addr : Word) :
    FaultsKept s (abortTeam s tk gid reason cause pc addr) := by
  have hwake (u : State) (cores : List (Nat × Core)) (c : Nat) : FaultsKept u (Machine.wakeLog { u with cores := cores } c) :=
    FaultsKept.trans (.of_eq rfl) (.wakeLog { u with cores := cores } c)
  have hdrop (grid team : Nat) (alone : Bool) : FaultsKept s (s.modDies fun d => d.dropFaults grid team alone) :=
    .modDies s fun x q hq => (List.mem_filter.1 hq).1
  have hbegun (r : FaultRecord) : FaultsKept s (abortBegun s tk r) := ((hdrop _ _ _).trans (.pendRecord _ _ r)).trans (hwake _ _ _)
  rw [abortTeam_eq]
  refine (hbegun (abortRecord s (s.teamAt tk) gid reason cause pc addr)).trans ?_
  generalize abortBegun s tk (abortRecord s (s.teamAt tk) gid reason cause pc addr) = u
  exact .of_eq rfl

theorem FaultsKept.takeTrap (s : State) (c : Cause) (detail : Nat) (planes : Mask) (addr : Word) :
    FaultsKept s (takeTrap s c detail planes addr) := by
  unfold Machine.takeTrap
  exact .ite (.refl s) (.ite (.abortTeam s _ _ _ _ _ _) (.ite (.abortTeam s _ _ _ _ _ _) (.of_eq rfl)))

theorem FaultsKept.dropStore (s : State) (core key : Nat) (a : Acc) (code : BitVec 16) : FaultsKept s (dropStore s core key a code) :=
  (FaultsKept.pendRecord s (dieOfCore core)
    (droppedRecord s (s.groupAt key).grid (s.groupAt key).team (s.groupAt key).gid a.va code)).trans (.of_eq rfl)

/-! Accesses are performed (R257, R290). -/

theorem FaultsKept.storeOrDrop (s : State) (core key : Nat) (a : Acc) (ps : List Piece) (bs : List Byte) :
    FaultsKept s (storeOrDrop s core key a ps bs) :=
  .ite (.dropStore s core key a 2) ((Accessed.storePieces s core ps bs).trans (.sendStore _ core key a ps)).faults

theorem FaultsKept.performAcc (s : State) (core key : Nat) (a : Acc) (ps : List Piece) (order : Nat) :
    FaultsKept s (performAcc s core key a ps order).2 := by
  unfold Machine.performAcc
  split
  · exact (Accessed.loadPieces s core ps _).faults
  · next bs _ =>
    have hstore := FaultsKept.storeOrDrop s core key a ps bs
    exact .ite (hstore.trans (Accessed.synchronise _ core ps).faults) hstore
  · exact ((Accessed.rmwRead s core ps _).faults.trans (.storeOrDrop _ core key a ps _)).trans (Accessed.synchronise _ core ps).faults

theorem FaultsKept.performAll (s : State) (core key order : Nat) (l : List (Acc × Verdict)) :
    FaultsKept s (performAll s core key order l).2 := by
  induction l generalizing s with
  | nil => exact .refl s
  | cons x l ih =>
    obtain ⟨a, v⟩ := x
    cases v with
    | ok ps => exact (FaultsKept.performAcc s core key a ps order).trans (ih _)
    | _ => exact ih s

theorem FaultsKept.performLanes (s : State) (core key order : Nat) (o : LaneOp) (l : List (Acc × Verdict)) :
    FaultsKept s (performLanes s core key order o l).2 := by
  unfold Machine.performLanes
  dsimp only
  split
  · exact .performAll s core key order _
  · exact (FaultsKept.performAll s core key order _).trans (.of_eq rfl)

/-! The side log (R272). -/

theorem FaultsKept.takeEntry (s : State) (core key order : Nat) (a : Acc) : FaultsKept s (takeEntry s core key order a) :=
  FaultsKept.trans (.of_eq (t := { s with cur := ⟨key, none⟩ }) rfl)
    (((Accessed.checkAcc _ core a).trans (.askAll _ core _ _)).faults.trans (.of_eq rfl))

theorem FaultsKept.enterLog (s : State) (core ticket : Nat) : FaultsKept s (enterLog s core ticket) := by
  unfold Machine.enterLog
  dsimp only
  split
  · next k w _ => exact (FaultsKept.takeEntry s core k w.order w.acc).trans (.of_eq rfl)
  · split
    · exact .refl s
    · next k o _ =>
      split
      · exact .of_eq rfl
      · next a rest _ => exact (FaultsKept.takeEntry s core k (o.logWait.elim 0 (·.2)) a).trans (.of_eq rfl)

theorem FaultsKept.admitLog (s : State) (core n : Nat) : FaultsKept s (admitLog s core n) := by
  induction n generalizing s with
  | zero => exact .refl s
  | succ n ih =>
    unfold Machine.admitLog
    split
    · exact .refl s
    · exact .ite (.refl s) ((FaultsKept.enterLog s core _).trans (ih _))

theorem FaultsKept.logFreed (s : State) (core : Nat) : FaultsKept s (logFreed s core) :=
  (FaultsKept.wakeLog s core).trans (.admitLog _ core _)

/-! Those that wait on a record are told its outcome (R215). -/

theorem FaultsKept.finishOthers (s : State) (k : Nat) (r : FaultRecord) (x : LaneOp) : FaultsKept s (finishOthers s k r x).2 := by
  have hcur : FaultsKept s { s with cur := ⟨k, some x.split⟩ } := .of_eq rfl
  unfold Machine.finishOthers
  dsimp only
  split
  · exact hcur
  · exact (hcur.trans (Accessed.checkAll _ _ _).faults).trans (.performLanes _ _ _ _ _ _)

theorem FaultsKept.serveLaneOp (s : State) (k : Nat) (r : FaultRecord) (o : Outcome) (x : LaneOp) : FaultsKept s (serveLaneOp s k r o x) := by
  unfold Machine.serveLaneOp
  split
  · exact .refl s
  · split
    · refine .ite ?_ (.of_eq rfl)
      exact (FaultsKept.finishOthers s k r x).trans (FaultsKept.trans (.of_eq rfl) (.takeTrap _ _ _ _ _))
    · exact .of_eq rfl

theorem FaultsKept.serveFetch (s : State) (k i : Nat) (r : FaultRecord) (o : Outcome) : FaultsKept s (serveFetch s k i r o) := by
  unfold Machine.serveFetch
  dsimp only
  split
  · split
    · exact .refl s
    · split
      · exact .ite (FaultsKept.trans (.of_eq rfl) (.takeTrap _ _ _ _ _)) (.of_eq rfl)
      · exact .of_eq rfl
  · exact .refl s

theorem FaultsKept.serveScalar (s : State) (k : Nat) (r : FaultRecord) (o : Outcome) : FaultsKept s (serveScalar s k r o) := by
  unfold Machine.serveScalar
  dsimp only
  split
  · exact .refl s
  · split
    · exact .of_eq rfl
    · exact .of_eq rfl
    · exact .of_eq rfl
    · exact FaultsKept.trans (.of_eq rfl) (.takeTrap _ _ _ _ _)
    · exact FaultsKept.trans (.of_eq rfl) (.takeTrap _ _ _ _ _)
    · exact .of_eq rfl
    · exact .refl s

theorem FaultsKept.serveGroup (s : State) (k : Nat) (r : FaultRecord) (o : Outcome) : FaultsKept s (serveGroup s k r o) := by
  have hops (l : List LaneOp) (s : State) : FaultsKept s (l.foldl (fun s x => Machine.serveLaneOp s k r o x) s) :=
    .foldl (fun s x => .serveLaneOp s k r o x) l s
  have hfetch (l : List Nat) (s : State) : FaultsKept s (l.foldl (fun s i => Machine.serveFetch s k i r o) s) :=
    .foldl (fun s i => .serveFetch s k i r o) l s
  unfold Machine.serveGroup
  dsimp only
  generalize ((s.groupAt k).wait == .service && r.holds (s.groupAt k).waitMark) = scalar
  have hfirst (b : Bool) (g : Group) : FaultsKept s (if b = true then s.putGroup k g else s) := .ite (.of_eq rfl) (.refl s)
  have hbefore (u : State) : FaultsKept u (if scalar = true then Machine.serveScalar u k r o else u) := .ite (.serveScalar u k r o) (.refl u)
  have hafter (u : State) : FaultsKept u (if scalar = true then u else Machine.serveScalar u k r o) := .ite (.refl u) (.serveScalar u k r o)
  refine FaultsKept.trans ?_ (hafter _)
  refine FaultsKept.trans ?_ (hfetch _ _)
  refine FaultsKept.trans ?_ (hops _ _)
  refine FaultsKept.trans ?_ (hbefore _)
  exact FaultsKept.trans (hfirst _ _) (hops _ _)

theorem FaultsKept.serveSideLog (s : State) (core : Nat) (r : FaultRecord) (o : Outcome) : FaultsKept s (serveSideLog s core r o) := by
  have hdrop (code : BitVec 16) (u : State) (e : SideEntry) : FaultsKept u (Machine.dropStore u core e.key e.acc code) :=
    FaultsKept.dropStore u core e.key e.acc code
  have hdrops (code : BitVec 16) (l : List SideEntry) (u : State) :
      FaultsKept u (l.foldl (fun s e => Machine.dropStore s core e.key e.acc code) u) :=
    .foldl (hdrop code) l u
  have hput (c : Core) : FaultsKept s (s.putCore core c) := .of_eq rfl
  unfold Machine.serveSideLog
  cases o with
  | serviced => exact hput _
  | unrecoverable code =>
    dsimp only
    refine .ite (.refl s) (FaultsKept.trans ?_ (.logFreed _ core))
    exact FaultsKept.trans (hput _) (hdrops code _ _)

theorem FaultsKept.serveStatus (s : State) (die : Nat) (r : FaultRecord) (o : Outcome) : FaultsKept s (serveStatus s die r o) := by
  unfold Machine.serveStatus
  dsimp only
  split
  · exact .ite ((FaultsKept.pendRecord s die _).trans (.of_eq rfl)) (.refl s)
  · exact .refl s

theorem FaultsKept.serveSaved (s : State) (r : FaultRecord) (o : Outcome) : FaultsKept s (serveSaved s r o) := by
  unfold Machine.serveSaved
  dsimp only
  split
  · exact .ite (.abortTeam s _ _ _ _ _ _) (.refl s)
  · exact .refl s

/-! The record leaves its queue (R321). -/

theorem FaultsKept.dropCopies (s : State) (pa n : Nat) : FaultsKept s (dropCopies s pa n) :=
  (FaultsKept.modDies s (f := fun d => { d with ncLines := outside d.ncLines pa n }) fun _ _ => id).trans (.of_eq rfl)

theorem FaultsKept.placeContents (s : State) (r : FaultRecord) : FaultsKept s (placeContents s r) := by
  unfold Machine.placeContents
  split
  · exact .dropCopies s _ _
  · exact .refl s

theorem FaultsKept.dropRegion (s : State) (r : FaultRecord) : FaultsKept s (dropRegion s r) := by
  have hleaves (p : TlbEntry → Bool) (q : NodeEntry → Bool) : FaultsKept s (dropLeaves s p q) :=
    (FaultsKept.modDies s (f := fun d => { d with tlb := d.tlb.filter fun t => !p t, nodes := d.nodes.filter fun n => !q n })
      fun _ _ => id).trans (.of_eq rfl)
  exact (hleaves _ _).trans (.modDies _ (f := fun d => { d with walks := d.walks.filter fun w => !r.holds w.1 }) fun _ _ => id)

/-- What a completion leaves of the translations and the waiting walks of a record's region (R359). -/
def regionServed (s : State) (die : Nat) (r : FaultRecord) (o : Outcome) : State :=
  match o with
  | .serviced => placeContents (dropRegion s r) r
  | .unrecoverable _ => s.putDie die { s.dieAt die with walks := (s.dieAt die).walks.filter fun w => !r.holds w.1 }

/-- Everything that waits on a record is told its outcome. -/
def allServed (s : State) (die : Nat) (r : FaultRecord) (o : Outcome) : State :=
  let keys := (s.groups.filter fun p => p.2.grid == r.grid && p.2.die == die).map (·.1)
  let s := keys.foldl (fun s k => serveGroup s k r o) (serveEngines s die r o)
  let cores := (s.cores.map (·.1)).filter fun c => dieOfCore c == die
  serveSaved (serveStatus (cores.foldl (fun s c => serveSideLog s c r o) s) die r o) r o

/-- The state in which a record has left its queue. -/
def recordTaken (s : State) (die : Nat) (r : FaultRecord) : State :=
  s.putDie die { s.dieAt die with faults := (s.dieAt die).faults.filter fun q => q.seq != r.seq }

theorem completeService_eq (s : State) (die : Nat) (r : FaultRecord) (o : Outcome) :
    completeService s die r o =
      if 4 ≤ r.kind then recordTaken s die r
      else
        let u := regionServed (recordTaken s die r) die r o
        allServed u die r (effective u r o) := by
  cases o <;> rfl

theorem FaultsKept.allServed (s : State) (die : Nat) (r : FaultRecord) (o : Outcome) : FaultsKept s (allServed s die r o) := by
  have hgroups (l : List Nat) : FaultsKept s (l.foldl (fun s k => Machine.serveGroup s k r o) (serveEngines s die r o)) :=
    FaultsKept.trans (.of_eq rfl) (.foldl (fun s k => .serveGroup s k r o) l _)
  have hlogs (l : List Nat) (s : State) : FaultsKept s (l.foldl (fun s c => Machine.serveSideLog s c r o) s) :=
    .foldl (fun s c => .serveSideLog s c r o) l s
  exact ((hgroups _).trans (hlogs _ _)).trans ((FaultsKept.serveStatus _ die r o).trans (.serveSaved _ r o))

/-- The record of a completed service is in its queue no more. -/
theorem seq_ne_of_completeService {s : State} {die : Nat} {r q : FaultRecord} {o : Outcome}
    (h : q ∈ ((completeService s die r o).dieAt die).faults) : q.seq ≠ r.seq := by
  have hkept : FaultsKept (recordTaken s die r) (completeService s die r o) := by
    rw [completeService_eq]
    refine .ite (.refl _) (FaultsKept.trans ?_ (.allServed _ die r _))
    cases o with
    | serviced => exact (FaultsKept.dropRegion _ r).trans (.placeContents _ r)
    | unrecoverable code => exact .putDie fun _ => id
  have hq := hkept die q h
  rw [recordTaken, State.dieAt_putDie] at hq
  simpa using (List.mem_filter.1 hq).2

end Sys2Proof.Machine
end

section
/-! PROOFS. The events of the fault queue, of the caches and of the orrery that touch one thing alone (R241, R245, R249, R320, R321,
R355, R404). -/

namespace Sys2Proof.Machine

open Sys2Proof.Safety

/-! Walks that have waited (R355). -/

theorem goes_walkMigratingTimeout {die since : Nat} {va : BitVec 56} {s : State}
    (h : Assoc.find? (s.dieAt die).walks (va.toNat / 65536 * 65536) = some (some since)) (hlate : since + 25000 ≤ s.cycle.toNat) :
    Goes (exec (.walkMigratingTimeout die va) s) fun t =>
      t = s.putDie die { s.dieAt die with walks := Assoc.put (s.dieAt die).walks (va.toNat / 65536 * 65536) none } := by
  refine ⟨_, ?_, rfl⟩
  change execWalkMigratingTimeout die va s = _
  simp only [execWalkMigratingTimeout, h, Nat.not_lt.2 hlate, if_false]

/-! The fault record queue (R320, R321). -/

@[simp] theorem FaultRecord.length_image (r : FaultRecord) : r.image.length = 64 := by
  simp [FaultRecord.image, leBytes_length]

/-- Bytes that the device writes at a place, beside messages that it sends. -/
theorem writeRaw_spec (u : State) (place : Nat) (bs : List Byte) (out : List Output) :
    let t : State := { writeRaw u place bs with outputs := out }
    t.groups = u.groups ∧ SlicesKeep u t ∧ readBytes t place bs.length = bs ∧ SameBytesBut u t place bs.length := by
  refine ⟨(cachesOnly_writeRaw u place bs).groups, (SlicesKeep.writeRaw u place bs).trans (.of_eq rfl), ?_,
    fun b hb => readByte_writeRaw_outside u hb⟩
  have himage := readBytes_writeRaw_part u place [] bs []
  rwa [List.nil_append, List.append_nil] at himage

/-- A record with its number and the time. -/
def FaultRecord.numbered (r : FaultRecord) (d : Die) (cycle : Word) : FaultRecord := { r with seq := d.faultSeq % 2 ^ 32, cycle := cycle }

/-- A die whose oldest pending record has entered its queue. -/
def Die.enqueued (d : Die) (r : FaultRecord) (rest : List FaultRecord) : Die :=
  { d with faultPend := rest, faults := d.faults ++ [r], faultSeq := d.faultSeq + 1 }

theorem execFaultRecord_eq {die : Nat} {s : State} {r : FaultRecord} {rest : List FaultRecord} (h : (s.dieAt die).faultPend = r :: rest)
    (hroom : (s.dieAt die).faults.length < 1024) (hqueue : (s.dieAt die).queued < 1024) :
    let q := r.numbered (s.dieAt die) s.cycle
    let u := s.putDie die ((s.dieAt die).enqueued q rest)
    execFaultRecord die s = .next { writeRaw u (faultBase die + 64 * (q.seq % 1024)) q.image with
      outputs := (writeRaw u (faultBase die + 64 * (q.seq % 1024)) q.image).outputs ++ recordVectors s (s.dieAt die) q } := by
  have hfree : ¬ (1024 ≤ (s.dieAt die).faults.length ∨ 1024 ≤ (s.dieAt die).queued) := by omega
  simp only [execFaultRecord, h, hfree, if_false, FaultRecord.numbered, Die.enqueued]

theorem goes_faultRecord {die : Nat} {s : State} {r q : FaultRecord} {rest : List FaultRecord} (h : (s.dieAt die).faultPend = r :: rest)
    (hroom : (s.dieAt die).faults.length < 1024) (hqueue : (s.dieAt die).queued < 1024) (hq : r.numbered (s.dieAt die) s.cycle = q)
    {place : Nat} (hplace : faultBase die + 64 * (q.seq % 1024) = place) :
    Goes (exec (.faultRecord die) s) fun t =>
      t.groups = s.groups ∧ (t.dieAt die).faults = (s.dieAt die).faults ++ [q] ∧ (t.dieAt die).faultPend = rest ∧
      (t.dieAt die).faultSeq = (s.dieAt die).faultSeq + 1 ∧ readBytes t place 64 = q.image ∧ SameBytesBut s t place 64 := by
  have heq := execFaultRecord_eq h hroom hqueue
  dsimp only at heq
  rw [hq, hplace] at heq
  refine ⟨_, heq, ?_⟩
  have hspec := writeRaw_spec (s.putDie die ((s.dieAt die).enqueued q rest)) place q.image
  rw [FaultRecord.length_image] at hspec
  obtain ⟨hgroups, hdies, hread, hsame⟩ := hspec (_ ++ recordVectors s (s.dieAt die) q)
  obtain ⟨rs, ls, hdie⟩ := hdies die
  rw [State.dieAt_putDie] at hdie
  exact ⟨hgroups, congrArg Die.faults hdie, congrArg Die.faultPend hdie, congrArg Die.faultSeq hdie, hread,
    fun b hb => (hsame b hb).trans (readByte_congr rfl b)⟩

theorem svcdone_unnamed {value : Word} {s : State}
    (h : ∀ q ∈ (s.dieAt (Bits.field value.toNat 32 2)).faults, q.seq ≠ Bits.field value.toNat 0 32) :
    exec (.svcdone value) s = .next s := by
  have hnone : s.unserviced (Bits.field value.toNat 32 2) (Bits.field value.toNat 0 32) = none :=
    List.find?_eq_none.2 fun q hq => by simpa using h q hq
  change execSvcdone value s = _
  simp only [execSvcdone, hnone]

theorem seq_of_unserviced {s : State} {die seq : Nat} {r : FaultRecord} (h : s.unserviced die seq = some r) : r.seq = seq := by
  simpa using List.find?_some h

/-- A servicer that has written no entry and moved no unit completes a record (R403). -/
theorem goes_pageServiceComplete {die seq outcome : Nat} {code : BitVec 16} {s : State} {r : FaultRecord} (h : s.unserviced die seq = some r)
    (hserves : hostServes s r.kind = false) (hout : outcome ≤ 1)
    (hcow : r.kind = 2 → outcome = 0 → (copyOnWrite s s r).isSome = true) :
    Goes (exec (.pageServiceComplete die seq outcome code [] []) s) fun t => ∀ q ∈ (t.dieAt die).faults, q.seq ≠ seq := by
  have hmaps : mapsNoThexo s s = true := by
    simp only [mapsNoThexo, List.all_eq_true, Bool.or_eq_true, List.contains_iff_mem]
    exact fun l hl => .inl hl
  have hfinish (u : State) (o : Outcome) (q : FaultRecord)
      (hq : q ∈ (((consumeRecord (completeService u die r o) r).putDie die
        ((consumeRecord (completeService u die r o) r).dieAt die).consume).dieAt die).faults) : q.seq ≠ seq := by
    rw [State.dieAt_putDie] at hq
    have hdies : (consumeRecord (completeService u die r o) r).dies = (completeService u die r o).dies := by
      unfold consumeRecord
      split <;> rfl
    exact seq_of_unserviced h ▸ seq_ne_of_completeService (dieAt_congr hdies die ▸ hq)
  have hlow : decide (1 < outcome) = false := decide_eq_false (by omega)
  simp only [exec, execPageServiceComplete, h, hserves, hlow, moveUnits, serviceWrites, List.foldl_nil, List.all_nil, Bool.and_self,
    Bool.not_true, Bool.or_false, Bool.false_eq_true, if_false, hmaps]
  split
  · exact ⟨_, rfl, hfinish _ _⟩
  · next hone =>
    split
    · next hkind =>
      obtain ⟨u, hu⟩ := Option.isSome_iff_exists.1 (hcow hkind (by omega))
      rw [hu]
      exact ⟨_, rfl, hfinish _ _⟩
    · exact ⟨_, rfl, hfinish _ _⟩

/-! Lines of the caches (R241, R249). -/

theorem goes_leaseExpiry {core line : Nat} {s : State} {l : L1Line} (h : Assoc.find? (s.coreAt core).l1 line = some l)
    (hlive : l.live s.cycle.toNat = false) : Goes (exec (.leaseExpiry core line) s) fun t =>
      t = { s with cores := t.cores } ∧ Assoc.find? (t.coreAt core).l1 line = none := by
  simp only [exec, execLeaseExpiry, h, hlive, Bool.false_eq_true, if_false]
  refine ⟨_, rfl, rfl, ?_⟩
  rw [State.coreAt_putCore, if_pos rfl, Assoc.find?_erase, if_pos rfl]

theorem goes_lineWriteBack {line : Nat} {s : State} {l : L2Line} (h : Assoc.find? s.l2 line = some l) (hdirty : l.dirty = true) :
    Goes (exec (.lineWriteBack line) s) fun t =>
      t = { s with l2 := t.l2, tags := t.tags } ∧ Assoc.find? t.l2 line = some { l with dirty := false } ∧
      Assoc.get 1 t.tags (line % 2 ^ 45) =
        if l.cmp = true then Compress.lineTag (lineOf (readBytes s (keyAddr line) 128)) else 0 := by
  simp only [exec, execLineWriteBack, h, hdirty, if_true, writeBackLine]
  refine ⟨_, rfl, rfl, ?_, ?_⟩
  · simp
  · simp

/-! Siblings merge (R245, R377). -/

theorem goes_regionMerge {die line : Nat} {s : State} {x y : Region} (hx : (s.dieAt die).orrery.find? (fun r => r.line == line) = some x)
    (hy : (s.dieAt die).orrery.find? (fun r => r.line == line ^^^ 2 ^ x.j && r.j == x.j) = some y) (hj : x.j < 9) (hst : x.st = y.st)
    (hholders : x.holders = y.holders) (hqx : x.quiet + 65536 ≤ s.cycle.toNat) (hqy : y.quiet + 65536 ≤ s.cycle.toNat) :
    Goes (exec (.regionMerge die line) s) fun t => t = { s with dies := t.dies } ∧ x ∉ (t.dieAt die).orrery ∧ y ∉ (t.dieAt die).orrery ∧
      ∃ z ∈ (t.dieAt die).orrery, z.line = min x.line y.line ∧ z.j = x.j + 1 ∧ z.st = x.st ∧ z.holders = x.holders := by
  have hyj : y.j = x.j := by
    have h := List.find?_some hy
    simp only [Bool.and_eq_true, beq_iff_eq] at h
    exact h.2
  have hmerge : x.j < 9 ∧ x.st = y.st ∧ x.holders = y.holders ∧ x.still s.cycle.toNat = true ∧ y.still s.cycle.toNat = true :=
    ⟨hj, hst, hholders, by simpa [Region.still] using hqx, by simpa [Region.still] using hqy⟩
  simp only [exec, execRegionMerge, hx, hy]
  rw [if_pos hmerge]
  refine ⟨_, rfl, rfl, ?_⟩
  rw [State.dieAt_putDie]
  have hgone (z : Region) (hz : z = x ∨ z = y) (hzj : z.j = x.j) :
      z ∉ ((s.dieAt die).orrery.filter fun r => r != x && r != y) ++ [mergeRegions x y s.cycle.toNat] := by
    intro hmem
    rcases List.mem_append.1 hmem with h | h
    · have hne := (List.mem_filter.1 h).2
      rcases hz with rfl | rfl <;> simp at hne
    · have hup : z.j = x.j + 1 := congrArg Region.j (List.mem_singleton.1 h)
      omega
  exact ⟨hgone x (.inl rfl) rfl, hgone y (.inr rfl) hyj, _, List.mem_append_right _ (List.mem_singleton_self _), rfl, rfl, rfl, rfl⟩

end Sys2Proof.Machine
end

section
/-! PROOFS. A record that has been serviced lets the streams that waited on it go on (R215, R321, R404). -/

namespace Sys2Proof.Machine

open Sys2Proof.Safety

/-! What a group keeps when a record is serviced. -/

/-- A group stands where it stood and holds what it held, and its scalar stream waits on nothing new. -/
def Told (g h : Group) : Prop :=
  h.pc = g.pc ∧ h.waitMark = g.waitMark ∧ SameS g h [] ∧ (h.wait = g.wait ∨ h.wait = .none)

theorem Told.refl (g : Group) : Told g g := ⟨rfl, rfl, fun _ _ => rfl, .inl rfl⟩

theorem Told.trans {g h i : Group} (hgh : Told g h) (hhi : Told h i) : Told g i := by
  obtain ⟨hpc, hmark, hs, hwait⟩ := hgh
  obtain ⟨hpc', hmark', hs', hwait'⟩ := hhi
  refine ⟨hpc'.trans hpc, hmark'.trans hmark, fun n hn => (hs' n hn).trans (hs n hn), ?_⟩
  rcases hwait' with h | h
  · exact hwait.imp h.trans h.trans
  · exact .inr h

/-- Every group has been told, and no byte of memory has changed. -/
def AllTold (s t : State) : Prop := t.mem = s.mem ∧ ∀ n, Told (s.groupAt n) (t.groupAt n)

theorem AllTold.of_eq {s t : State} (hmem : t.mem = s.mem) (hgroups : t.groups = s.groups) : AllTold s t :=
  ⟨hmem, fun n => groupAt_congr hgroups n ▸ .refl _⟩

theorem AllTold.refl (s : State) : AllTold s s := .of_eq rfl rfl

theorem AllTold.trans {s t u : State} (hst : AllTold s t) (htu : AllTold t u) : AllTold s u :=
  ⟨htu.1.trans hst.1, fun n => (hst.2 n).trans (htu.2 n)⟩

theorem AllTold.ite {p : Prop} [Decidable p] {s t u : State} (ht : AllTold s t) (hu : AllTold s u) : AllTold s (if p then t else u) := by
  split
  · exact ht
  · exact hu

theorem AllTold.foldl {α : Type} {f : State → α → State} (hf : ∀ s a, AllTold s (f s a)) (l : List α) (s : State) :
    AllTold s (l.foldl f s) := by
  induction l generalizing s with
  | nil => exact .refl s
  | cons a l ih => exact (hf s a).trans (ih _)

theorem AllTold.putGroup {s : State} {k : Nat} {g : Group} (h : Told (s.groupAt k) g) : AllTold s (s.putGroup k g) := by
  refine ⟨rfl, fun n => ?_⟩
  rw [State.groupAt_putGroup]
  split
  · next hk => exact hk ▸ h
  · exact .refl _

theorem AllTold.modGroup (s : State) (k : Nat) {f : Group → Group} (hf : ∀ g, Told g (f g)) : AllTold s (s.modGroup k f) := by
  refine ⟨rfl, fun n => ?_⟩
  by_cases hk : k = n
  · subst hk
    cases hg : Assoc.find? s.groups k with
    | none => rw [State.groupAt_modGroup_absent hg, State.groupAt, hg]; exact .refl _
    | some g => rw [State.groupAt_modGroup (by rw [hg]; rfl)]; exact hf _
  · have hother : (s.modGroup k f).groupAt n = s.groupAt n := by
      simp only [State.groupAt, State.modGroup, Assoc.find?_modify, if_neg hk]
    exact hother ▸ .refl _

theorem Told.putSplit (g : Group) (i : Nat) (x : Split) : Told g (g.putSplit i x) := by
  unfold Group.putSplit
  split
  · exact ⟨rfl, rfl, fun _ _ => rfl, .inl rfl⟩
  · exact ⟨rfl, rfl, fun _ _ => rfl, .inl rfl⟩

/-! The parts of the completion (R215). -/

theorem AllTold.serveLaneOp (s : State) (k : Nat) (r : FaultRecord) (x : LaneOp) : AllTold s (serveLaneOp s k r .serviced x) :=
  .ite (.refl s) (.modGroup s k fun _ => ⟨rfl, rfl, fun _ _ => rfl, .inl rfl⟩)

theorem AllTold.serveFetch (s : State) (k i : Nat) (r : FaultRecord) : AllTold s (serveFetch s k i r .serviced) := by
  unfold Machine.serveFetch
  dsimp only
  split
  · exact .ite (.refl s) (.putGroup (.putSplit _ i _))
  · exact .refl s

theorem AllTold.serveScalar (s : State) (k : Nat) (r : FaultRecord) : AllTold s (serveScalar s k r .serviced) := by
  have hnone (g : Group) (hg : g.pc = (s.groupAt k).pc ∧ g.waitMark = (s.groupAt k).waitMark ∧ SameS (s.groupAt k) g [])
      (hwait : g.wait = .none) : AllTold s (s.putGroup k g) := .putGroup ⟨hg.1, hg.2.1, hg.2.2, .inr hwait⟩
  unfold Machine.serveScalar
  dsimp only
  refine .ite (.refl s) ?_
  split
  · exact hnone _ ⟨rfl, rfl, fun _ _ => rfl⟩ rfl
  · exact hnone _ ⟨rfl, rfl, fun _ _ => rfl⟩ rfl
  · exact hnone _ ⟨rfl, rfl, fun _ _ => rfl⟩ rfl
  · next ho => cases ho
  · next ho => cases ho
  · next ho => cases ho
  · exact .refl s

/-- A scalar stream that waits on a page of the record waits no more. -/
theorem wait_serveScalar {s : State} {k : Nat} {r : FaultRecord} (hholds : r.holds (s.groupAt k).waitMark = true)
    (hwait : (s.groupAt k).wait = .service ∨ (s.groupAt k).wait = .none) :
    ((serveScalar s k r .serviced).groupAt k).wait = .none := by
  unfold Machine.serveScalar
  rcases hwait with h | h <;> simp [h, hholds]

theorem AllTold.serveGroup (s : State) (k : Nat) (r : FaultRecord) : AllTold s (serveGroup s k r .serviced) := by
  have hops (l : List LaneOp) (s : State) : AllTold s (l.foldl (fun s x => Machine.serveLaneOp s k r .serviced x) s) :=
    .foldl (fun s x => .serveLaneOp s k r x) l s
  have hfetch (l : List Nat) (s : State) : AllTold s (l.foldl (fun s i => Machine.serveFetch s k i r .serviced) s) :=
    .foldl (fun s i => .serveFetch s k i r) l s
  unfold Machine.serveGroup
  dsimp only
  generalize ((s.groupAt k).wait == .service && r.holds (s.groupAt k).waitMark) = scalar
  have hbefore (u : State) : AllTold u (if scalar = true then Machine.serveScalar u k r .serviced else u) := .ite (.serveScalar u k r) (.refl u)
  have hafter (u : State) : AllTold u (if scalar = true then u else Machine.serveScalar u k r .serviced) := .ite (.refl u) (.serveScalar u k r)
  refine AllTold.trans ?_ (hafter _)
  refine AllTold.trans ?_ (hfetch _ _)
  refine AllTold.trans ?_ (hops _ _)
  refine AllTold.trans ?_ (hbefore _)
  exact hops _ s

/-- What a group's scalar stream waits on is the record's, if it waits at all. -/
def WaitsOn (r : FaultRecord) (g : Group) : Prop := r.holds g.waitMark = true ∧ (g.wait = .service ∨ g.wait = .none)

theorem WaitsOn.told {r : FaultRecord} {g h : Group} (hw : WaitsOn r g) (ht : Told g h) : WaitsOn r h := by
  obtain ⟨-, hmark, -, hwait⟩ := ht
  refine ⟨hmark ▸ hw.1, ?_⟩
  rcases hwait with h | h
  · exact h ▸ hw.2
  · exact .inr h

theorem Told.wait_none {g h : Group} (ht : Told g h) (hg : g.wait = .none) : h.wait = .none := by
  obtain ⟨-, -, -, hwait⟩ := ht
  exact hwait.elim (·.trans hg) id

/-- The record's group waits no more. -/
theorem wait_serveGroup {s : State} {k : Nat} {r : FaultRecord} (h : WaitsOn r (s.groupAt k)) :
    ((serveGroup s k r .serviced).groupAt k).wait = .none := by
  obtain ⟨hholds, hwait⟩ := h
  rcases hwait with hwait | hnone
  · have hops (l : List LaneOp) (s : State) : AllTold s (l.foldl (fun s x => Machine.serveLaneOp s k r .serviced x) s) :=
      .foldl (fun s x => .serveLaneOp s k r x) l s
    have hfetch (l : List Nat) (s : State) : AllTold s (l.foldl (fun s i => Machine.serveFetch s k i r .serviced) s) :=
      .foldl (fun s i => .serveFetch s k i r) l s
    have hscalar : ((s.groupAt k).wait == .service && r.holds (s.groupAt k).waitMark) = true := by simp [hwait, hholds]
    unfold Machine.serveGroup
    dsimp only
    simp only [hscalar, if_true]
    refine Told.wait_none ((hfetch _ _).2 k) (Told.wait_none ((hops _ _).2 k) ?_)
    obtain ⟨hmark, hw⟩ := WaitsOn.told ⟨hholds, .inl hwait⟩ ((hops _ s).2 k)
    exact wait_serveScalar hmark hw
  · exact ((AllTold.serveGroup s k r).2 k).wait_none hnone

/-- A group of the record's grid and die that waits on one of its pages waits no more once every group has been told. -/
theorem wait_serveGroups {s : State} {k : Nat} {r : FaultRecord} {l : List Nat} (hk : k ∈ l) (h : WaitsOn r (s.groupAt k)) :
    ((l.foldl (fun s k => serveGroup s k r .serviced) s).groupAt k).wait = .none := by
  obtain ⟨l₁, l₂, rfl⟩ := List.append_of_mem hk
  have htold (l : List Nat) (s : State) : AllTold s (l.foldl (fun s k => serveGroup s k r .serviced) s) :=
    .foldl (fun s k => .serveGroup s k r) l s
  rw [List.foldl_append, List.foldl_cons]
  exact Told.wait_none ((htold l₂ _).2 k) (wait_serveGroup (h.told ((htold l₁ s).2 k)))

theorem serveSideLogs_serviced (l : List Nat) (s : State) (r : FaultRecord) :
    (l.foldl (fun s c => serveSideLog s c r .serviced) s).mem = s.mem ∧
      (l.foldl (fun s c => serveSideLog s c r .serviced) s).groups = s.groups :=
  List.foldlRecOn (motive := fun t : State => t.mem = s.mem ∧ t.groups = s.groups) l _ ⟨rfl, rfl⟩ fun _ h _ _ => h

theorem serveSaved_serviced (s : State) (r : FaultRecord) : serveSaved s r .serviced = s := by
  unfold serveSaved
  dsimp only

/-- The record's groups have been told that it is serviced, after the engines. -/
def groupsServed (s : State) (die : Nat) (r : FaultRecord) : State :=
  ((s.groups.filter fun p => p.2.grid == r.grid && p.2.die == die).map (·.1)).foldl (fun s k => serveGroup s k r .serviced)
    (serveEngines s die r .serviced)

theorem allServed_serviced_eq (s : State) (die : Nat) (r : FaultRecord) :
    allServed s die r .serviced =
      (((groupsServed s die r).cores.map (·.1)).filter fun c => dieOfCore c == die).foldl (fun s c => serveSideLog s c r .serviced)
        (groupsServed s die r) := by
  unfold allServed
  rw [serveSaved_serviced]
  rfl

/-- What a serviced record does to the groups (R215). -/
theorem allServed_serviced (s : State) (die : Nat) (r : FaultRecord) :
    AllTold s (allServed s die r .serviced) ∧
    ∀ n g, Assoc.find? s.groups n = some g → g.grid = r.grid → g.die = die → WaitsOn r g →
      ((allServed s die r .serviced).groupAt n).wait = .none := by
  have hgroups : AllTold s (groupsServed s die r) :=
    AllTold.trans (.of_eq (t := serveEngines s die r .serviced) rfl rfl) (.foldl (fun s k => .serveGroup s k r) _ _)
  rw [allServed_serviced_eq]
  obtain ⟨hmem, hlogs⟩ := serveSideLogs_serviced (((groupsServed s die r).cores.map (·.1)).filter fun c => dieOfCore c == die)
    (groupsServed s die r) r
  refine ⟨hgroups.trans (.of_eq hmem hlogs), fun n g hg hgrid hdie hw => ?_⟩
  rw [groupAt_congr hlogs]
  have hat : s.groupAt n = g := by rw [State.groupAt, hg]; rfl
  have hserved : (serveEngines s die r .serviced).groupAt n = g := hat
  refine wait_serveGroups ?_ (hserved ▸ hw)
  exact List.mem_map.2 ⟨(n, g), List.mem_filter.2 ⟨mem_of_assocFind? hg, by simp [hgrid, hdie]⟩, rfl⟩

/-! The whole service (R321, R404). -/

theorem rawLeafFrom_congr {s t : State} (h : t.mem = s.mem) (va node : Nat) (levels : List Nat) :
    rawLeafFrom t va node levels = rawLeafFrom s va node levels := by
  induction levels generalizing node with
  | nil => rfl
  | cons level rest ih =>
    have hread (a : Nat) : readNat t a 8 = readNat s a 8 := by rw [readNat, readNat, readBytes_congr h]
    simp only [rawLeafFrom, hread, ih]

/-- Nothing differs but what the dies and the cores hold. -/
def HeldOnly (s t : State) : Prop := ∃ ds cs, t = { s with dies := ds, cores := cs }

theorem HeldOnly.trans {s t u : State} (hst : HeldOnly s t) (htu : HeldOnly t u) : HeldOnly s u := by
  obtain ⟨_, _, rfl⟩ := hst
  obtain ⟨ds, cs, rfl⟩ := htu
  exact ⟨ds, cs, rfl⟩

theorem HeldOnly.modDies (s : State) (f : Die → Die) : HeldOnly s (s.modDies f) := by
  refine List.foldlRecOn (motive := HeldOnly s) (List.range 4) (fun s d => s.putDie d (f (s.dieAt d))) ⟨s.dies, s.cores, rfl⟩ ?_
  exact fun t ht d _ => ht.trans ⟨_, t.cores, rfl⟩

theorem HeldOnly.dropRegion (s : State) (r : FaultRecord) : HeldOnly s (dropRegion s r) := by
  have hleaves (p : TlbEntry → Bool) (q : NodeEntry → Bool) : HeldOnly s (dropLeaves s p q) :=
    (HeldOnly.modDies s fun d => { d with tlb := d.tlb.filter fun t => !p t, nodes := d.nodes.filter fun n => !q n }).trans ⟨_, _, rfl⟩
  exact (hleaves _ _).trans (.modDies _ fun d => { d with walks := d.walks.filter fun w => !r.holds w.1 })

theorem HeldOnly.placeContents (s : State) (r : FaultRecord) : HeldOnly s (placeContents s r) := by
  unfold Machine.placeContents
  split
  · next e level _ =>
    exact (HeldOnly.modDies s fun d => { d with ncLines := outside d.ncLines (leafFrame e * 65536) (pageSize level) }).trans ⟨_, _, rfl⟩
  · exact ⟨s.dies, s.cores, rfl⟩

/-- The servicer of a record has written no leaf that refuses the writes of the record's page (R239), before its region goes and
after. -/
theorem privateReadOnly_congr {s t : State} (h : HeldOnly s t) (r : FaultRecord) : privateReadOnly t r = privateReadOnly s r := by
  obtain ⟨ds, cs, rfl⟩ := h
  simp only [privateReadOnly, rawLeaf, rawLeafFrom_congr (s := s) (t := { s with dies := ds, cores := cs }) rfl]
  rfl

theorem completeService_serviced {s : State} {die : Nat} {r : FaultRecord} (hkind : r.kind < 4) (hcow : privateReadOnly s r = false) :
    AllTold s (completeService s die r .serviced) ∧
    ∀ n g, Assoc.find? s.groups n = some g → g.grid = r.grid → g.die = die → WaitsOn r g →
      ((completeService s die r .serviced).groupAt n).wait = .none := by
  have htaken : HeldOnly s (recordTaken s die r) := ⟨_, s.cores, rfl⟩
  have hserved : HeldOnly s (regionServed (recordTaken s die r) die r .serviced) :=
    (htaken.trans (.dropRegion _ r)).trans (.placeContents _ r)
  have heff : effective (regionServed (recordTaken s die r) die r .serviced) r .serviced = .serviced := by
    simp only [effective, privateReadOnly_congr hserved, hcow, Bool.false_eq_true, if_false]
  rw [completeService_eq, if_neg (Nat.not_le.2 hkind)]
  dsimp only
  rw [heff]
  obtain ⟨ds, cs, hu⟩ := hserved
  rw [hu]
  obtain ⟨htold, hwait⟩ := allServed_serviced { s with dies := ds, cores := cs } die r
  exact ⟨AllTold.trans (.of_eq rfl rfl) htold, hwait⟩

/-- SVCDONE completes the service of the record that it names (R394, R404). -/
theorem goes_svcdone {value : Word} {s : State} {r : FaultRecord}
    (h : s.unserviced (Bits.field value.toNat 32 2) (Bits.field value.toNat 0 32) = some r) (hout : Bits.field value.toNat 34 2 ≤ 1) :
    Goes (exec (.svcdone value) s) fun t =>
      (∀ q ∈ (t.dieAt (Bits.field value.toNat 32 2)).faults, q.seq ≠ Bits.field value.toNat 0 32) ∧
      (Bits.field value.toNat 34 2 = 0 → r.kind < 4 → privateReadOnly s r = false → t.mem = s.mem ∧
        ∀ n g, Assoc.find? s.groups n = some g → g.grid = r.grid →
          g.die = Bits.field value.toNat 32 2 → g.wait = .service → r.holds g.waitMark = true →
          (t.groupAt n).wait = .none ∧ (t.groupAt n).pc = g.pc ∧ SameS g (t.groupAt n) []) := by
  have hgone (o : Outcome) (q : FaultRecord)
      (hq : q ∈ ((completeService s (Bits.field value.toNat 32 2) r o).dieAt (Bits.field value.toNat 32 2)).faults) :
      q.seq ≠ Bits.field value.toNat 0 32 := seq_of_unserviced h ▸ seq_ne_of_completeService hq
  have hcases : Bits.field value.toNat 34 2 = 0 ∨ Bits.field value.toNat 34 2 = 1 := by omega
  simp only [exec, execSvcdone, h]
  rcases hcases with h0 | h1
  · simp only [h0]
    refine ⟨_, rfl, hgone _, fun _ hkind hcow => ?_⟩
    obtain ⟨⟨hmem, htold⟩, hwait⟩ := completeService_serviced (die := Bits.field value.toNat 32 2) hkind hcow
    refine ⟨hmem, fun n g hg hgrid hdie hw hholds => ?_⟩
    obtain ⟨hpc, -, hs, -⟩ := htold n
    have hat : s.groupAt n = g := by rw [State.groupAt, hg]; rfl
    exact ⟨hwait n g hg hgrid hdie ⟨hholds, .inl hw⟩, hat ▸ hpc, hat ▸ hs⟩
  · simp only [h1]
    exact ⟨_, rfl, hgone _, fun h0 => absurd h0 (by decide)⟩

end Sys2Proof.Machine
end

section
/-! PROOFS. The replay of an entry of a side log (R272, R273, R257). -/

namespace Sys2Proof.Machine

open Sys2Proof.Safety

/-! Faulting stores that wait for an entry (R272). -/

/-- Of the stores of a group that wait for an entry of a side log none is new. -/
def SameWaits (g h : Group) : Prop :=
  h.core = g.core ∧ h.store = g.store ∧
    h.laneOps.filterMap (fun o => o.logWait.map (·.1)) = g.laneOps.filterMap fun o => o.logWait.map (·.1)

/-- Every group of a state is one of another, and waits for an entry of a side log only if that one does. -/
def WaitsFrom (s t : State) : Prop := ∀ p ∈ t.groups, ∃ g, (p.1, g) ∈ s.groups ∧ SameWaits g p.2

theorem SameWaits.refl (g : Group) : SameWaits g g := ⟨rfl, rfl, rfl⟩

theorem WaitsFrom.of_eq {s t : State} (h : t.groups = s.groups) : WaitsFrom s t := fun p hp => ⟨p.2, h ▸ hp, .refl _⟩

theorem WaitsFrom.trans {s t u : State} (hst : WaitsFrom s t) (htu : WaitsFrom t u) : WaitsFrom s u := fun p hp => by
  obtain ⟨g, hg, hcore, hstore, hops⟩ := htu p hp
  obtain ⟨f, hf, hcore', hstore', hops'⟩ := hst _ hg
  exact ⟨f, hf, hcore.trans hcore', hstore.trans hstore', hops.trans hops'⟩

theorem WaitsFrom.wakeLog (s : State) (c : Nat) : WaitsFrom s (wakeLog s c) := fun p hp => by
  obtain ⟨g, hg, f, hf, hp⟩ := (wakeLog_only s c).2 p hp
  refine ⟨g, hg, ?_⟩
  rw [hp]
  refine ⟨rfl, rfl, ?_⟩
  simp only [List.filterMap_map, Function.comp_def, hf]

theorem WaitsFrom.modGroup (s : State) (k : Nat) {f : Group → Group} (hf : ∀ g, SameWaits g (f g)) : WaitsFrom s (s.modGroup k f) :=
  fun p hp => by
  obtain ⟨q, hq, he⟩ := List.mem_map.1 hp
  split at he
  · obtain ⟨hkey, hval⟩ := Prod.mk.inj he
    exact ⟨q.2, hkey ▸ hq, hval ▸ hf _⟩
  · exact ⟨q.2, he ▸ hq, he ▸ .refl _⟩

theorem WaitsFrom.dropStore (s : State) (core key : Nat) (a : Acc) (code : BitVec 16) : WaitsFrom s (dropStore s core key a code) :=
  (WaitsFrom.of_eq (t := pendRecord s (dieOfCore core) (droppedRecord s (s.groupAt key).grid (s.groupAt key).team (s.groupAt key).gid a.va code))
    rfl).trans ((WaitsFrom.modGroup _ key
      (f := fun g => { g with dropped := if g.dropped = BitVec.allOnes 32 then g.dropped else g.dropped + 1 })
      fun _ => ⟨rfl, rfl, rfl⟩).trans (.of_eq rfl))

theorem WaitsFrom.storeOrDrop (s : State) (core key : Nat) (a : Acc) (ps : List Piece) (bs : List Byte) :
    WaitsFrom s (storeOrDrop s core key a ps bs) := by
  unfold Machine.storeOrDrop
  split
  · exact .dropStore s core key a 2
  · exact .of_eq ((Accessed.storePieces s core ps bs).trans (.sendStore _ core key a ps)).only.groups

theorem WaitsFrom.performAcc (s : State) (core key : Nat) (a : Acc) (ps : List Piece) (order : Nat) :
    WaitsFrom s (performAcc s core key a ps order).2 := by
  unfold Machine.performAcc
  split
  · exact .of_eq (Accessed.loadPieces s core ps _).only.groups
  · next bs _ =>
    have hstore := WaitsFrom.storeOrDrop s core key a ps bs
    dsimp only
    split
    · exact hstore.trans (.of_eq (Accessed.synchronise _ core ps).only.groups)
    · exact hstore
  · exact ((WaitsFrom.of_eq (Accessed.rmwRead s core ps _).only.groups).trans (.storeOrDrop _ core key a ps _)).trans
      (.of_eq (Accessed.synchronise _ core ps).only.groups)

/-- Where no store waited for an entry, none does. -/
theorem WaitsFrom.logWaiters_nil {s t : State} {c : Nat} (h : WaitsFrom s t) (hs : logWaiters s c = []) : logWaiters t c = [] := by
  simp only [logWaiters, List.flatMap_eq_nil_iff, State.coreGroups, List.mem_filter] at hs ⊢
  rintro p ⟨hp, hon⟩
  obtain ⟨g, hg, hcore, hstore, hops⟩ := h p hp
  rw [hstore, hops]
  refine hs (p.1, g) ⟨hg, ?_⟩
  simpa only [hcore] using hon

/-- Entries that leave a side log admit no store where none waits: they wake lane operations alone. -/
theorem logFreed_idle {s : State} {c : Nat} (h : logWaiters s c = []) : logFreed s c = wakeLog s c := by
  have hnone := (WaitsFrom.wakeLog s c).logWaiters_nil h
  unfold logFreed logEntries
  rw [admitLog, hnone]
  rfl

/-! The bytes of a store (R241, R257). -/

theorem sendStore_mem (s : State) (core key : Nat) (a : Acc) (ps : List Piece) : (sendStore s core key a ps).mem = s.mem := by
  unfold sendStore
  split
  · rfl
  · rfl

theorem synchronise_mem (s : State) (core : Nat) (ps : List Piece) : (synchronise s core ps).mem = s.mem :=
  foldl_mem (fun s p => by split <;> rfl) ps s

theorem coreWrite_spec (s : State) (core pa : Nat) (leaf : Word) (bs : List Byte) :
    readBytes (coreWrite s core pa leaf bs) pa bs.length = bs ∧ SameBytesBut s (coreWrite s core pa leaf bs) pa bs.length := by
  have hmem : (coreWrite s core pa leaf bs).mem = (writeBytes (touchLine s (dieOfCore core) pa leaf true) pa bs).mem :=
    patchAll_mem _ core pa bs
  refine ⟨(readBytes_congr hmem _ _).trans (readBytes_writeBytes _ pa bs), fun b hb => ?_⟩
  rw [readByte_congr hmem, readByte_writeBytes_outside _ pa bs hb, readByte_congr (touchLine_mem s _ pa leaf true)]

/-- A store of one piece that no device refuses leaves its bytes at the piece, and every other byte as it was. -/
theorem performAcc_store {s : State} {core key : Nat} {a : Acc} {p : Piece} {data : List Byte} (order : Nat) (ha : a.kind = .store data)
    (hn : p.n = data.length) (hrefused : refusedPieces s a.kind [p] = false) :
    readBytes (performAcc s core key a [p] order).2 p.pa p.n = data ∧ SameBytesBut s (performAcc s core key a [p] order).2 p.pa p.n := by
  have hmem : (performAcc s core key a [p] order).2.mem = (coreWrite s core p.pa p.leaf data).mem := by
    have hstore : (storeOrDrop s core key a [p] data).mem = (coreWrite s core p.pa p.leaf data).mem := by
      rw [storeOrDrop, hrefused, if_neg Bool.false_ne_true, sendStore_mem, storePieces, storePieces, hn, List.take_length]
    rw [performAcc, ha]
    dsimp only
    split
    · rw [synchronise_mem, hstore]
    · exact hstore
  obtain ⟨hread, hsame⟩ := coreWrite_spec s core p.pa p.leaf data
  rw [hn]
  exact ⟨(readBytes_congr hmem _ _).trans hread, fun b hb => (readByte_congr hmem b).trans (hsame b hb)⟩

/-! The replay (R272). -/

theorem goes_sideLogReplay {core entry : Nat} {s s1 : State} {e : SideEntry} {ps : List Piece}
    (h : (s.coreAt core).sideLog.find? (fun x => x.id == entry) = some e) (hready : e.ready = true)
    (hfirst : e.first (s.coreAt core).sideLog = true)
    (hidle : logWaiters s core = []) (hcheck : checkAcc { s with cur := ⟨e.key, none⟩ } core e.acc = (.ok ps, s1)) :
    Goes (exec (.sideLogReplay core entry) s) fun t =>
      (∀ x ∈ (t.coreAt core).sideLog, x.id ≠ entry) ∧
      ∀ data p, e.acc.kind = .store data → ps = [p] → p.n = data.length → refusedPieces s1 e.acc.kind ps = false →
        readBytes t p.pa p.n = data ∧ SameBytesBut s1 t p.pa p.n := by
  have hid : e.id = entry := by simpa using List.find?_some h
  have hchecked : s1.groups = s.groups := by
    have hgroups := (Accessed.checkAcc { s with cur := ⟨e.key, none⟩ } core e.acc).only.groups
    rwa [hcheck] at hgroups
  have hwaits : WaitsFrom s (performAcc s1 core e.key e.acc ps e.order).2 :=
    (WaitsFrom.of_eq hchecked).trans (.performAcc s1 core e.key e.acc ps e.order)
  simp only [exec, execSideLogReplay, h, hready, hfirst, Bool.not_true, Bool.or_false, Bool.false_eq_true, if_false, hcheck]
  refine ⟨_, rfl, ?_⟩
  generalize hu : (performAcc s1 core e.key e.acc ps e.order).2 = u at hwaits ⊢
  generalize hc : ({ u.coreAt core with sideLog := (u.coreAt core).sideLog.filter fun x => x.id != e.id } : Core) = c
  have hleft : logWaiters (u.putCore core c) core = [] := (hwaits.trans (.of_eq rfl)).logWaiters_nil hidle
  have honly := (wakeLog_only (u.putCore core c) core).1
  rw [logFreed_idle hleft]
  generalize wakeLog (u.putCore core c) core = t at honly
  refine ⟨fun x hx => ?_, fun data p hkind hps hn hrefused => ?_⟩
  · have hcore : t.coreAt core = c := by
      rw [honly]
      exact State.coreAt_putCore u core c core ▸ if_pos rfl
    rw [hcore, ← hc] at hx
    simpa [hid] using (List.mem_filter.1 hx).2
  · subst hps
    obtain ⟨hread, hsame⟩ := performAcc_store (core := core) (key := e.key) e.order hkind hn hrefused
    rw [hu] at hread hsame
    have hmem : t.mem = u.mem := by rw [honly]; rfl
    exact ⟨(readBytes_congr hmem _ _).trans hread, fun b hb => (readByte_congr hmem b).trans (hsame b hb)⟩

end Sys2Proof.Machine
end

section
/-! PROOFS. What a walk leaves: a leaf's bits in memory and the leaf in the TLB, or a wait for a migrating node (R355, R356, R358). -/

namespace Sys2Proof.Machine

open Sys2Proof.Safety

/-! A translation that needs a walk walks. -/

theorem translate_of_needsWalk {s : State} {die va : Nat} {write : Bool} (h : needsWalk s die va write = true) :
    translate s die va write = translateByWalk s die va write := by
  unfold needsWalk at h
  unfold translate
  split
  · next t ht =>
    rw [ht] at h
    rw [if_pos (Bool.or_eq_true_iff.2 (.inl h))]
  · rfl

/-- A walk has read its entries, and the node caches have taken the nodes that it reached. -/
def walked (s : State) (die va : Nat) : State :=
  let start := walkStart s die va
  let nodes := walkNodes s va start.1 start.2
  (walkReads va start nodes).foldl (fun s a => touchFrom s die a false) (cacheNodes s die nodes)

theorem cachesOnly_walked (s : State) (die va : Nat) : CachesOnly s (walked s die va) :=
  (cachesOnly_cacheNodes s die _).trans (.foldl (fun s a => cachesOnly_touchFrom s die a false) _ _)

theorem walked_mem (s : State) (die va : Nat) : (walked s die va).mem = s.mem :=
  (foldl_mem (fun s a => touchFrom_mem s die a false) _ _).trans (cacheNodes_mem s die _)

theorem walked_walks (s : State) (die va n : Nat) : ((walked s die va).dieAt n).walks = (s.dieAt n).walks := by
  have hreads (l : List Nat) (u : State) : SlicesKeep u (l.foldl (fun s a => touchFrom s die a false) u) :=
    .foldl (fun s a => .touchFrom s die a false) l u
  let start := walkStart s die va
  let nodes := walkNodes s va start.1 start.2
  obtain ⟨_, _, ht⟩ := hreads (walkReads va start nodes) (cacheNodes s die nodes) n
  obtain ⟨_, hnodes⟩ := cacheNodes_dies s die nodes n
  rw [hnodes] at ht
  exact (congrArg Die.walks ht :)

/-! A leaf is taken (R355, R356). -/

/-- The leaf that a walk finds is the entry that stands at its place. -/
theorem entry_of_walkFrom {s : State} {va node at_ level : Nat} {levels : List Nat} {e : Word}
    (h : walkFrom s va node levels = .leaf e at_ level) : e = BitVec.ofNat 64 (readNat s at_ 8) := by
  induction levels generalizing node with
  | nil => cases h
  | cons l rest ih =>
    unfold walkFrom at h
    dsimp only at h
    split at h
    · cases h
    split at h
    · cases h
    split at h
    · split at h
      · cases h
      split at h
      · cases h
      · obtain ⟨he, hat, -⟩ := Walk.leaf.inj h
        rw [← he, ← hat]
    split at h
    · cases h
    split at h
    · split at h
      · cases h
      · exact ih h
    · cases h
    · cases h

theorem entry_of_walkBy {s : State} {die va at_ level : Nat} {e : Word} (h : walkBy s die va = .leaf e at_ level) :
    readNat s at_ 8 = e.toNat := by
  unfold walkBy at h
  dsimp only at h
  split at h
  · cases h
  · have hlt := leNat_lt (readBytes s at_ 8)
    rw [readBytes_length] at hlt
    rw [entry_of_walkFrom h, BitVec.toNat_ofNat, readNat, Nat.mod_eq_of_lt hlt]

/-- The leaf that has been cached is the one that a lookup finds. -/
theorem tlbFind_cacheLeaf (s : State) (die va : Nat) {size : Nat} (e : Word) (hsize : 0 < size) :
    ∃ x, tlbFind ((cacheLeaf s die (va / size * size) size e).dieAt die) va = some x ∧ x.leaf = e ∧ x.size = size := by
  have hcovers : (decide (va / size * size ≤ va) && decide (va < va / size * size + size)) = true := by
    have hmod := Nat.div_add_mod' va size
    have hlt := Nat.mod_lt va hsize
    simp only [Bool.and_eq_true, decide_eq_true_eq]
    omega
  refine ⟨⟨va / size * size, size, e, incTag s (leafFrame e * 65536)⟩, ?_, rfl, rfl⟩
  unfold cacheLeaf
  dsimp only
  rw [State.dieAt_putDie, tlbFind, tlbIn, tlbPut]
  exact List.find?_cons_of_pos hcovers

/-- A leaf's entry takes its bits at its home. -/
def leafMarked (s : State) (at_ : Nat) (e m : Word) : State := if m = e then s else writeNat (touchRaw s at_ true) at_ 8 m.toNat

theorem leafMarked_spec {s : State} {at_ : Nat} {e m : Word} (he : readNat s at_ 8 = e.toNat) :
    SameBytesBut s (leafMarked s at_ e m) at_ 8 ∧ readNat (leafMarked s at_ e m) at_ 8 = m.toNat := by
  unfold leafMarked
  split
  · next hm => exact ⟨fun _ _ => rfl, hm ▸ he⟩
  · refine ⟨fun b hb => ?_, ?_⟩
    · rw [writeNat, readByte_writeBytes_outside _ at_ _ (by rwa [leBytes_length]), readByte_congr (touchRaw_mem s at_ true)]
    · rw [readNat_writeNat]
      exact Nat.mod_eq_of_lt m.isLt

theorem takeLeaf_eq (s : State) (die va at_ base size : Nat) (e : Word) (write : Bool) :
    takeLeaf s die va at_ base size e write =
      cacheLeaf (leafMarked (endWalk s die va) at_ e (markedLeaf e write)) die base size (markedLeaf e write) := rfl

theorem takeLeaf_spec {s : State} (die va at_ : Nat) {size : Nat} {e : Word} (write : Bool) (hsize : 0 < size) (he : readNat s at_ 8 = e.toNat) :
    let t := takeLeaf s die va at_ (va / size * size) size e write
    SameBytesBut s t at_ 8 ∧ readNat t at_ 8 = (markedLeaf e write).toNat ∧
      ∃ x, tlbFind (t.dieAt die) va = some x ∧ x.leaf = markedLeaf e write ∧ x.size = size := by
  have hend : readNat (endWalk s die va) at_ 8 = e.toNat := by rw [readNat, readBytes_congr (endWalk_mem s die va), ← readNat, he]
  obtain ⟨hsame, hread⟩ := leafMarked_spec (m := markedLeaf e write) hend
  rw [takeLeaf_eq]
  generalize leafMarked (endWalk s die va) at_ e (markedLeaf e write) = u at hsame hread
  have hmem : (cacheLeaf u die (va / size * size) size (markedLeaf e write)).mem = u.mem := rfl
  refine ⟨fun b hb => ?_, ?_, tlbFind_cacheLeaf u die va _ hsize⟩
  · rw [readByte_congr hmem, hsame b hb, readByte_congr (endWalk_mem s die va)]
  · rw [readNat, readBytes_congr hmem, ← readNat, hread]

theorem pageSize_pos (level : Nat) : 0 < pageSize level := Nat.two_pow_pos _

theorem exec_pageWalk {die : Nat} {va : BitVec 56} {write : Bool} {s : State} (hdie : die < 4)
    (hneeds : needsWalk s die va.toNat write = true) :
    exec (.pageWalk die va write) s = .next (translateByWalk s die va.toNat write).2 := by
  have hon : ¬ (4 ≤ die ∨ (!needsWalk s die va.toNat write) = true) := not_or.2 ⟨by omega, by simp [hneeds]⟩
  change execPageWalk die va write s = _
  rw [execPageWalk, if_neg hon, translate_of_needsWalk hneeds]

theorem goes_pageWalk_leaf {die at_ level : Nat} {va : BitVec 56} {write : Bool} {s : State} {e : Word} (hdie : die < 4)
    (hneeds : needsWalk s die va.toNat write = true) (hwalk : walkBy s die va.toNat = .leaf e at_ level) :
    Goes (exec (.pageWalk die va write) s) fun t =>
      t.groups = s.groups ∧ SameBytesBut s t at_ 8 ∧ readNat t at_ 8 = (markedLeaf e write).toNat ∧
      ∃ x, tlbFind (t.dieAt die) va.toNat = some x ∧ x.leaf = markedLeaf e write ∧ x.size = pageSize level := by
  have hleaf : (translateByWalk s die va.toNat write).2 =
      takeLeaf (walked s die va.toNat) die va.toNat at_ (va.toNat / pageSize level * pageSize level) (pageSize level) e write := by
    unfold translateByWalk
    rw [hwalk]
    rfl
  have hread : readNat (walked s die va.toNat) at_ 8 = e.toNat := by
    rw [readNat, readBytes_congr (walked_mem s die va.toNat), ← readNat, entry_of_walkBy hwalk]
  refine ⟨_, exec_pageWalk hdie hneeds, (cachesOnly_translateByWalk s die va.toNat write).groups, ?_⟩
  rw [hleaf]
  obtain ⟨hsame, hbits, hcached⟩ := takeLeaf_spec die va.toNat at_ write (pageSize_pos level) hread
  exact ⟨fun b hb => (hsame b hb).trans (readByte_congr (walked_mem s die va.toNat) b), hbits, hcached⟩

/-! A migrating node is waited for (R355). -/

theorem goes_pageWalk_waiting {die level : Nat} {va : BitVec 56} {write : Bool} {s : State} (hdie : die < 4)
    (hneeds : needsWalk s die va.toNat write = true) (hwalk : walkBy s die va.toNat = .waiting level)
    (hfirst : Assoc.find? (s.dieAt die).walks (va.toNat / 65536 * 65536) = none) :
    Goes (exec (.pageWalk die va write) s) fun t =>
      t = { s with dies := t.dies, l2 := t.l2, tags := t.tags } ∧
      Assoc.find? (t.dieAt die).walks (va.toNat / 65536 * 65536) = some (some s.cycle.toNat) := by
  have hwait : (translateByWalk s die va.toNat write).2 = (awaitNode (walked s die va.toNat) die va.toNat level).2 := by
    unfold translateByWalk
    rw [hwalk]
    rfl
  have hnone : Assoc.find? ((walked s die va.toNat).dieAt die).walks (va.toNat / 65536 * 65536) = none := by rw [walked_walks, hfirst]
  refine ⟨_, exec_pageWalk hdie hneeds, ?_⟩
  rw [hwait]
  obtain ⟨mem, tags, l2, dies, hu⟩ := cachesOnly_walked s die va.toNat
  have hmem : mem = s.mem := (congrArg State.mem hu).symm.trans (walked_mem s die va.toNat)
  unfold awaitNode
  dsimp only
  rw [hnone]
  dsimp only
  rw [State.dieAt_putDie, Assoc.find?_put, if_pos rfl, hu, hmem]
  exact ⟨rfl, rfl⟩

end Sys2Proof.Machine
end

section
/-! PROOFS. A request that reaches the orrery of a line's home (R243, R244, R376, R377). -/

namespace Sys2Proof.Machine

open Sys2Proof.Safety

/-! The home of a line and the places that its slices hold it at (R235, R242). -/

/-- The address of a line of a die's local HBM. -/
def lineAddr (die line : Nat) : Nat := die * (192 * 2 ^ 30) + line * 128

theorem homeDie_lineAddr {die line : Nat} (h : line < dieLines) : homeDie (lineAddr die line) = die := by
  simp only [dieLines] at h
  simp only [homeDie, lineAddr]
  omega

theorem dieOffset_lineAddr {die line : Nat} (h : line < dieLines) : dieOffset (lineAddr die line) / 128 = line := by
  simp only [dieLines] at h
  simp only [dieOffset, lineAddr]
  omega

theorem keyAddr_l2Key {die line n : Nat} (hdie : die < 4) (h : line < dieLines) : keyAddr (l2Key n (lineAddr die line)) = lineAddr die line := by
  simp only [dieLines] at h
  simp only [keyAddr, l2Key, lineAddr]
  omega

theorem keyDie_l2Key {die line n : Nat} (hdie : die < 4) (hn : n < 4) (h : line < dieLines) : keyDie (l2Key n (lineAddr die line)) = n := by
  have hhome := homeDie_lineAddr (die := die) h
  have hlow : lineAddr die line / 128 < 2 ^ 45 := by
    simp only [dieLines] at h
    simp only [lineAddr]
    omega
  rw [keyDie, keyAddr_l2Key hdie h, hhome, l2Key, hhome, Nat.add_mul_div_left _ _ (by decide), Nat.div_eq_of_lt hlow]
  omega

/-! Lines that a slice does not hold (R242, R243). -/

/-- No slice holds a line at a place. -/
def NotHeld (s : State) (k : Nat) : Prop := Assoc.find? s.l2 k = none

theorem NotHeld.writeBackLine {s : State} {k : Nat} (h : NotHeld s k) (j : Nat) : NotHeld (writeBackLine s j) k := by
  unfold Machine.writeBackLine
  split
  · next l hl =>
    split
    · have hne : j ≠ k := fun hjk => by rw [hjk, h] at hl; cases hl
      exact (Assoc.find?_put _ _ _ _).trans ((if_neg hne).trans h)
    · exact h
  · exact h

theorem notHeld_dropLine (s : State) (k : Nat) : NotHeld (dropLine s k) k := (Assoc.find?_erase _ _ _).trans (if_pos rfl)

theorem NotHeld.dropLine {s : State} {k : Nat} (h : NotHeld s k) (j : Nat) : NotHeld (dropLine s j) k := by
  refine (Assoc.find?_erase _ _ _).trans ?_
  split
  · rfl
  · exact h.writeBackLine j

theorem NotHeld.foldl {α : Type} {f : State → α → State} {k : Nat} (hf : ∀ s a, NotHeld s k → NotHeld (f s a) k) (l : List α) {s : State}
    (h : NotHeld s k) : NotHeld (l.foldl f s) k := List.foldlRecOn (motive := fun s => NotHeld s k) l f h fun s hs a _ => hf s a hs

theorem NotHeld.runFlush {s : State} {k : Nat} (h : NotHeld s k) (home : Nat) (f : Flush) : NotHeld (runFlush s home f) k := by
  refine NotHeld.foldl (fun s l hs => ?_) _ h
  split
  · exact hs.dropLine _
  · exact hs.writeBackLine _

/-- A fold that drops lines drops each that it meets. -/
theorem notHeld_dropLines {l : List (Nat × L2Line)} {k : Nat} (hk : k ∈ l.map (·.1)) (s : State) :
    NotHeld (l.foldl (fun s x => dropLine s x.1) s) k := by
  obtain ⟨x, hx, rfl⟩ := List.mem_map.1 hk
  obtain ⟨l₁, l₂, rfl⟩ := List.append_of_mem hx
  rw [List.foldl_append, List.foldl_cons]
  exact NotHeld.foldl (fun s y hs => hs.dropLine y.1) l₂ (notHeld_dropLine _ _)

/-- A flush that drops lines leaves none of a region's in a slice of the dies that it names. -/
theorem notHeld_runFlush {s : State} {home k : Nat} {f : Flush} (hdrop : f.drop = true) (hhome : homeDie (keyAddr k) = home)
    (hcovers : f.region.covers (dieOffset (keyAddr k) / 128) = true) (hdie : f.dies.getLsbD (keyDie k) = true) :
    NotHeld (runFlush s home f) k := by
  cases hfind : Assoc.find? s.l2 k with
  | none => exact NotHeld.runFlush hfind home f
  | some l =>
    unfold runFlush
    simp only [hdrop, if_true]
    refine notHeld_dropLines (List.mem_map.2 ⟨(k, l), List.mem_filter.2 ⟨mem_of_assocFind? hfind, ?_⟩, rfl⟩) s
    simp [hhome, hcovers, hdie]

/-! What a writer's request leaves in the directory, and what it flushes (R244). -/

theorem covers_iff {r : Region} {line : Nat} : r.covers line = true ↔ r.line ≤ line ∧ line < r.line + 2 ^ r.j := by
  simp [Region.covers]

/-- The half of a region that holds a line. -/
def regionHalf (r : Region) (line now : Nat) : Region :=
  let lo : Region := { r with j := r.j - 1, quiet := now }
  if lo.covers line then lo else { r with j := r.j - 1, line := r.line + 2 ^ (r.j - 1), quiet := now }

theorem regionHalf_covers {r : Region} {line now : Nat} (h : r.covers line = true) (hj : r.j ≠ 0) : (regionHalf r line now).covers line = true := by
  unfold regionHalf
  dsimp only
  split
  · assumption
  · next hlo =>
    have hpow : 2 ^ r.j = 2 * 2 ^ (r.j - 1) := by rw [← Nat.pow_succ', Nat.succ_eq_add_one, Nat.sub_one_add_one hj]
    rw [covers_iff] at h hlo ⊢
    dsimp only at hlo ⊢
    omega

theorem regionHalf_holders (r : Region) (line now : Nat) : (regionHalf r line now).holders = r.holders := by
  unfold regionHalf
  dsimp only
  split <;> rfl

/-- What a request that conflicts with a region of one line leaves and flushes. -/
theorem orreryServe_line {rs : List Region} {r : Region} {home requester line now : Nat} {write : Bool}
    (hfind : (rs.find? fun r => r.covers line) = some r) (hconf : conflicts r home requester write = true) (hj : r.j = 0) :
    orreryServe rs home requester line write now =
      ((rs.filter fun x => x != r) ++ resolveRegion r home requester write now, [⟨r, r.others home requester, write⟩]) := by
  simp only [orreryServe, hfind, hconf, hj, if_true]

/-- What a request that conflicts with a greater region leaves of its half and flushes in it. -/
theorem orreryServe_half {rs : List Region} {r : Region} {home requester line now : Nat} {write : Bool}
    (hfind : (rs.find? fun r => r.covers line) = some r) (hconf : conflicts r home requester write = true) (hj : r.j ≠ 0) :
    ∃ kept other fs, orreryServe rs home requester line write now =
      (kept ++ resolveRegion (regionHalf r line now) home requester write now ++ [other],
        ⟨regionHalf r line now, (regionHalf r line now).others home requester, write⟩ :: fs) := by
  simp only [orreryServe, hfind, hconf, if_true, hj, if_false, regionHalf]
  split
  · exact ⟨_, _, _, rfl⟩
  · exact ⟨_, _, _, rfl⟩

/-- A write that conflicts with nobody takes its region (R244). -/
theorem orreryServe_taken {rs : List Region} {r : Region} {home requester line now : Nat}
    (hfind : (rs.find? fun r => r.covers line) = some r) (hquiet : conflicts r home requester true = false) (hne : requester ≠ home) :
    orreryServe rs home requester line true now =
      ((rs.filter fun x => x != r) ++ [{ r with st := .m, holders := dieBit requester, age := now }], []) := by
  simp only [orreryServe, hfind, hquiet, Bool.false_eq_true, if_false, if_neg hne, if_true]

/-- The entry that a writer's request leaves names it alone (R244). -/
theorem resolveRegion_write {r : Region} {home requester now : Nat} (hne : requester ≠ home) :
    resolveRegion r home requester true now = [{ r with st := .m, holders := dieBit requester, quiet := now, age := now }] := by
  simp only [resolveRegion, if_true, if_neg hne]

/-- A write of another die leaves an entry of that die alone, in state M, that covers the line (R244, R376). -/
theorem orreryServe_write (rs : List Region) {home requester : Nat} (line now : Nat) (hne : requester ≠ home) :
    ∃ r ∈ (orreryServe rs home requester line true now).1, r.covers line = true ∧ r.st = .m ∧ r.holders = dieBit requester := by
  cases hfind : rs.find? fun r => r.covers line with
  | none =>
    rw [orreryServe_fresh hfind hne]
    refine ⟨_, List.mem_append_right _ (List.mem_singleton_self _), ?_, rfl, rfl⟩
    generalize newRegionSize _ line = j
    have hmod := Nat.div_add_mod' line (2 ^ j)
    have hlt := Nat.mod_lt line (Nat.two_pow_pos j)
    rw [covers_iff]
    dsimp only
    omega
  | some r =>
    have hcovers : r.covers line = true := List.find?_some (p := fun r : Region => r.covers line) hfind
    cases hconf : conflicts r home requester true with
    | false =>
      rw [orreryServe_taken hfind hconf hne]
      exact ⟨_, List.mem_append_right _ (List.mem_singleton_self _), hcovers, rfl, rfl⟩
    | true =>
      by_cases hj : r.j = 0
      · rw [orreryServe_line hfind hconf hj, resolveRegion_write hne]
        exact ⟨_, List.mem_append_right _ (List.mem_singleton_self _), hcovers, rfl, rfl⟩
      · obtain ⟨kept, other, fs, h⟩ := orreryServe_half (now := now) hfind hconf hj
        rw [h, resolveRegion_write hne]
        exact ⟨_, List.mem_append_left _ (List.mem_append_right _ (List.mem_singleton_self _)), regionHalf_covers hcovers hj, rfl, rfl⟩

/-- A holder other than the requester is one that a writer's request asks to drop its lines. -/
theorem others_getLsbD {r : Region} {home requester n : Nat} (hn : n < 4) (hne : n ≠ requester)
    (h : r.holders.getLsbD n = true) : (r.others home requester).getLsbD n = true := by
  unfold Region.others
  split
  · exact h
  · have hbit : (dieBit requester).getLsbD n = false := by
      rw [dieBit, BitVec.getLsbD_ofNat, Nat.testBit_two_pow_of_ne hne.symm, Bool.and_false]
    rw [BitVec.getLsbD_and, BitVec.getLsbD_not, h, hbit]
    simp [hn]

theorem orreryServe_flush {rs : List Region} {r : Region} (home : Nat) {requester line n : Nat} (now : Nat)
    (hfind : (rs.find? fun r => r.covers line) = some r) (hn : n < 4) (hne : n ≠ requester)
    (h : r.holders.getLsbD n = true) :
    ∃ f fs, (orreryServe rs home requester line true now).2 = f :: fs ∧ f.drop = true ∧ f.region.covers line = true ∧
      f.dies.getLsbD n = true := by
  have hcovers : r.covers line = true := List.find?_some (p := fun r : Region => r.covers line) hfind
  have hconf : conflicts r home requester true = true := by
    have hbit := others_getLsbD (home := home) hn hne h
    simp only [conflicts, Bool.true_or, Bool.and_true, bne_iff_ne]
    intro h0
    rw [h0] at hbit
    simp at hbit
  by_cases hj : r.j = 0
  · rw [orreryServe_line hfind hconf hj]
    exact ⟨_, _, rfl, rfl, hcovers, others_getLsbD hn hne h⟩
  · obtain ⟨kept, other, fs, hserve⟩ := orreryServe_half (now := now) hfind hconf hj
    rw [hserve]
    exact ⟨_, _, rfl, rfl, regionHalf_covers hcovers hj, others_getLsbD hn hne ((regionHalf_holders r line now).symm ▸ h)⟩

/-! The request (R243, R377). -/

theorem l2_orreryTouch (s : State) (die pa : Nat) (write : Bool) :
    (orreryTouch s die pa write).l2 =
      (orreryFlushed s die pa write
        (orreryServe (s.dieAt (homeDie pa)).orrery (homeDie pa) die (dieOffset pa / 128) write s.cycle.toNat).2).l2 := by
  rw [orreryTouch_eq]
  dsimp only
  split <;> rfl

/-- The home's slice gives up a line that another die takes to write. -/
theorem notHeld_orreryFlushed (s : State) {die pa : Nat} (l : List Flush) (hne : die ≠ homeDie pa) :
    NotHeld (orreryFlushed s die pa true l) (pa / 128) := by
  unfold orreryFlushed
  dsimp only
  split
  · exact notHeld_dropLine _ _
  · next hheld =>
    rw [Bool.true_and, Bool.and_eq_true, not_and] at hheld
    exact Option.not_isSome_iff_eq_none.1 (hheld (bne_iff_ne.2 hne))

theorem NotHeld.orreryFlushed {s : State} {k die pa : Nat} {write : Bool} {f : Flush} {fs : List Flush}
    (h : NotHeld (Machine.runFlush s (homeDie pa) f) k) : NotHeld (orreryFlushed s die pa write (f :: fs)) k := by
  have hall : NotHeld (fs.foldl (fun s f => Machine.runFlush s (homeDie pa) f) (Machine.runFlush s (homeDie pa) f)) k :=
    NotHeld.foldl (fun s f hs => hs.runFlush _ f) fs h
  unfold Machine.orreryFlushed
  rw [List.foldl_cons]
  dsimp only
  split
  · exact hall.dropLine _
  · exact hall

theorem goes_orreryRequest {die requester line : Nat} {write : Bool} {s : State} (hdie : die < 4) (hreq : requester < 4)
    (hline : line < dieLines) : Goes (exec (.orreryRequest die requester line write) s) fun t =>
      let pa := die * (192 * 2 ^ 30) + line * 128
      t = { s with dies := t.dies, l2 := t.l2, tags := t.tags } ∧
      (write = true → requester ≠ die → Assoc.find? t.l2 (pa / 128) = none ∧
        ∃ r ∈ (t.dieAt die).orrery, r.covers line = true ∧ r.st = .m ∧ r.holders = dieBit requester) ∧
      ∀ r n, write = true → (s.dieAt die).orrery.find? (·.covers line) = some r → n < 4 → r.holders.getLsbD n = true → n ≠ requester →
        Assoc.find? t.l2 (l2Key n pa) = none := by
  have hon : ¬ (4 ≤ die ∨ 4 ≤ requester ∨ dieLines ≤ line) := by omega
  have hhome := homeDie_lineAddr (die := die) hline
  have hoffset := dieOffset_lineAddr (die := die) hline
  refine ⟨orreryTouch s requester (lineAddr die line) write, ?_, ?_, ?_, ?_⟩
  · change execOrreryRequest die requester line write s = _
    rw [execOrreryRequest, if_neg hon, lineAddr]
  · have hmem := orreryTouch_mem s requester (lineAddr die line) write
    obtain ⟨mem, tags, l2, dies, ht⟩ := cachesOnly_orreryTouch s requester (lineAddr die line) write
    rw [ht] at hmem ⊢
    rw [← hmem]
  · rintro rfl hne
    have hleft := orrery_orreryTouch s requester (lineAddr die line) true
    rw [hhome, hoffset] at hleft
    rw [l2_orreryTouch, hleft]
    exact ⟨notHeld_orreryFlushed s _ (hhome.symm ▸ hne), orreryServe_write _ line _ hne⟩
  · rintro r n rfl hfind hn hholds hne
    obtain ⟨f, fs, hflush, hdrop, hcovers, hbit⟩ := orreryServe_flush die s.cycle.toNat hfind hn hne hholds
    rw [l2_orreryTouch, hhome, hoffset, hflush]
    refine NotHeld.orreryFlushed (k := l2Key n (lineAddr die line)) (notHeld_runFlush hdrop ?_ ?_ ?_)
    · rw [keyAddr_l2Key hdie hline]
    · rwa [keyAddr_l2Key hdie hline, hoffset]
    · rwa [keyDie_l2Key hdie hn hline]

/-! The events together (O52). -/

/-- Settles O52: each event by the lemma about it above. -/
theorem pageAndCacheEvents : Obligations.PageAndCacheEvents := by
  unfold Obligations.PageAndCacheEvents
  intro die core line va value s s1 d k
  refine ⟨?_, ?_, ?_, ?_, svcdone_unnamed, ?_, ?_, ?_, ?_, ?_, ?_, ?_⟩
  · exact fun write e at_ level hdie hneeds hwalk => goes_pageWalk_leaf hdie hneeds hwalk
  · exact fun write level hdie hneeds hwalk hfirst => goes_pageWalk_waiting hdie hneeds hwalk hfirst
  · exact fun since hfind hlate => goes_walkMigratingTimeout hfind hlate
  · exact fun r rest hpend hroom hqueue => goes_faultRecord hpend hroom hqueue rfl rfl
  · exact fun r hfind hout => goes_svcdone hfind hout
  · exact fun seq outcome code r hfind hserves hout hcow => goes_pageServiceComplete hfind hserves hout hcow
  · exact fun entry e ps hfind hready hfirst hidle hcheck => goes_sideLogReplay hfind hready hfirst hidle hcheck
  · exact fun l hfind hlive => goes_leaseExpiry hfind hlive
  · exact fun requester write hdie hreq hline => goes_orreryRequest hdie hreq hline
  · exact fun x y hx hy hj hst hholders hqx hqy => goes_regionMerge hx hy hj hst hholders hqx hqy
  · exact fun l hfind hdirty => goes_lineWriteBack hfind hdirty

end Sys2Proof.Machine
end
